-- ==== Sys2Proof/Word.lean ====
section
/-! DEFINITION. The word types of the machine and their plainest arithmetic (R5, R6). -/

namespace Sys2Proof

/-- A byte (R5). -/
abbrev Byte := BitVec 8
/-- A word in instruction context, and a window register (R5, R24). -/
abbrev Word := BitVec 32
/-- A pair of window registers, an address, a program counter (R10, R24, R154). -/
abbrev DWord := BitVec 64

/-- The pair xn: w(n+1) holds bits [63:32] and wn bits [31:0] (R10). -/
def pair (lo hi : Word) : DWord := (hi.setWidth 64 <<< 32) ||| lo.setWidth 64
/-- Bits [31:0] of a pair. -/
def loWord (x : DWord) : Word := x.setWidth 32
/-- Bits [63:32] of a pair. -/
def hiWord (x : DWord) : Word := (x >>> 32).setWidth 32

theorem loWord_pair (lo hi : Word) : loWord (pair lo hi) = lo := by
  ext i h; simp [loWord, pair]
theorem hiWord_pair (lo hi : Word) : hiWord (pair lo hi) = hi := by
  ext i h; simp [hiWord, pair, show 32 + i < 64 by omega, show i < 64 by omega, h]

end Sys2Proof
end

