-- ==== Sys2Proof/Syntax.lean ====
section
/-! DEFINITION. The syntax of the machine: one constructor of Instr per row of the opcode table, the 32-bit words
first (R105, R108), then the events of the machine, which have no bits and carry the objects they act on. -/

namespace Sys2Proof

/-- A 6-bit operand name (R110). -/
inductive Name where
  | w (n : Fin 32)
  | k (n : Fin 16)
  | q (n : Fin 4)
  | slot (depth : Fin 3) (m : Fin 4)   -- depth 0, 1, 2 is d1, d2, d3
  deriving DecidableEq, Repr

/-- The permutation codes of a source field (R113). -/
inductive Perm where
  | none | mir | bc0 | rot1 | x1 | x2 | x4 | ext
  deriving DecidableEq, Repr

/-- A source field of a V3 or VI word (R109). -/
structure Src where
  perm : Perm
  name : Name
  deriving DecidableEq, Repr

inductive Wd where | b32 | b64 deriving DecidableEq, Repr
/-- fn of IADD, ISUB (R126). -/
inductive AddF where | b32 | b64 | s32sat | z32sat deriving DecidableEq, Repr
inductive Sgn where | s | z deriving DecidableEq, Repr
/-- fn of IMAD. -/
inductive MadF where | b32 | s32 | z32 deriving DecidableEq, Repr
/-- fn of IMIN, IMAX, ICMP. -/
inductive MinF where | s32 | z32 | s64 | z64 deriving DecidableEq, Repr
inductive ICond where | eq | ne | lt | le | gt | ge | test deriving DecidableEq, Repr
inductive FCond where | eq | ne | lt | le | gt | ge | un | ord deriving DecidableEq, Repr
inductive FF where | f32 | bf16x2 deriving DecidableEq, Repr
inductive MoviF where | z | s | hi | f deriving DecidableEq, Repr
/-- The directions of FRND. -/
inductive RndDir where | ne | z | dn | up deriving DecidableEq, Repr
/-- The selectors of FCVT (R127). -/
inductive Cvt where | f2bl | f2bh | bl2f | bh2f | f2s | f2sz | s2f | z2f | f2z deriving DecidableEq, Repr
/-- HINT.MOD RND (R122, R135). -/
inductive RndMode where | none | rne | rz | dn | up | sr deriving DecidableEq, Repr
/-- Access widths of the M format (R129). -/
inductive Width where | b8 | b16 | b32 | b64 | b128 deriving DecidableEq, Repr
/-- Ordering codes and scopes (R129). -/
inductive Scope where | plain | cell | coh | dev | sys deriving DecidableEq, Repr
/-- The fifteen fetch-and-operate operations (R129). -/
inductive AtomOp where
  | add32 | add64 | and32 | or32 | xor32 | mins32 | maxs32 | minz32 | maxz32 | exch32 | exch64 | addf32
  | and64 | or64 | xor64
  deriving DecidableEq, Repr
/-- The condition of BRA and CALL, and the guard of CLAUSE (R117, R130). -/
inductive Cond where
  | always
  | ifTrue (p : Fin 8)
  | ifFalse (p : Fin 8)
  deriving DecidableEq, Repr
/-- The kinds of a PERM pattern (R123). -/
inductive PatKind where | rot | xor | bc | mirg deriving DecidableEq, Repr
structure Pat where
  kind : PatKind
  n : Fin 32
  deriving DecidableEq, Repr

/-- What LINE_FILL moves (FILL of R189): a fill for a missing access, or a dirty line written to memory. -/
inductive FillOp where
  | forAcc (a : Nat)
  | writeBack (asid line : Nat)
  deriving DecidableEq, Repr

/-- The parts that may fail (R278). A wavelength is a slot of a bank: 17 times the bank plus the slot. -/
inductive Part where | cluster (c : Nat) | slice (s : Nat) | wavelength (n : Nat) | fibreLane (n : Nat)
  deriving DecidableEq, Repr

/-- The states of an island (R273). -/
inductive IslandMode where | running | reset | off deriving DecidableEq, Repr

inductive Instr where
  | nop
  | iadd (f : AddF) (d : Name) (a b : Src)
  | isub (f : AddF) (d : Name) (a b : Src)
  | imul (f : Wd) (d : Name) (a b : Src)
  | imulh (f : Sgn) (d : Name) (a b : Src)
  | imad (f : MadF) (d : Name) (a b : Src)
  | imin (f : MinF) (d : Name) (a b : Src)
  | imax (f : MinF) (d : Name) (a b : Src)
  | and (f : Wd) (d : Name) (a b : Src)
  | or (f : Wd) (d : Name) (a b : Src)
  | xor (f : Wd) (d : Name) (a b : Src)
  | andn (f : Wd) (d : Name) (a b : Src)
  | shl (f : Wd) (d : Name) (a b : Src)
  | shr (f : Wd) (d : Name) (a b : Src)
  | sar (f : Wd) (d : Name) (a b : Src)
  | popc (f : Wd) (d : Name) (a : Src)
  | clz (f : Wd) (d : Name) (a : Src)
  | brev (d : Name) (a : Src)
  | iabs (f : Wd) (d : Name) (a : Src)
  | bfx (f : Sgn) (d : Name) (a b : Src)
  | bfi (d : Name) (a b : Src)
  | icmp (f : MinF) (c : ICond) (p : Fin 8) (a b : Src)
  | sel (p : Fin 4) (d : Name) (a b : Src)
  | mov (f : Wd) (d : Name) (a : Src)
  | movKw (a idx : Src)
  | movKr (d : Name) (idx : Src)
  | movi (f : MoviF) (d : Name) (imm : BitVec 8)
  | lea (sc : Fin 4) (d : Name) (a b : Src)
  | idot4 (f : Sgn) (d : Name) (a b : Src)
  | fadd (f : FF) (d : Name) (a b : Src)
  | fsub (f : FF) (d : Name) (a b : Src)
  | fmul (f : FF) (d : Name) (a b : Src)
  | ffma (f : FF) (d : Name) (a b : Src)
  | fmin (f : FF) (d : Name) (a b : Src)
  | fmax (f : FF) (d : Name) (a b : Src)
  | fcmp (c : FCond) (p : Fin 8) (a b : Src)
  | frcp (d : Name) (a : Src)
  | frsq (d : Name) (a : Src)
  | fsqrt (d : Name) (a : Src)
  | fexp2 (d : Name) (a : Src)
  | flog2 (d : Name) (a : Src)
  | frnd (r : RndDir) (d : Name) (a : Src)
  | fcvt (c : Cvt) (sr : Bool) (d : Name) (a : Src)
  | fdot2 (d : Name) (a b : Src)
  | qcvt (byte : Fin 4) (d : Name) (a : Src) (slot : Fin 8) (sc : Fin 32)
  | qdeq (byte : Fin 4) (d : Name) (a : Src) (slot : Fin 8) (sc : Fin 32)
  | draw (o : Fin 4) (d : Name)
  | sample (d : Name) (a b : Src)
  | topk (d : Name) (a b : Src)
  | ld (wd : Width) (ord : Scope) (data base : Name) (imm : BitVec 8)
  | st (wd : Width) (ord : Scope) (data base : Name) (imm : BitVec 8)
  | ldx (wd : Wd) (ord : Scope) (data base : Name) (imm : BitVec 8)
  | stc (wd : Wd) (ord : Scope) (data base : Name) (imm : BitVec 8)
  | atom (op : AtomOp) (cmb : Bool) (ord : Scope) (d addr v : Name)
  | cas (wd : Wd) (ord : Scope) (d addr v : Name)
  | red (op : AtomOp) (cmb : Bool) (ord : Scope) (addr v : Name)
  | fence (eng mx : Bool) (scope : Scope)
  | trap (n : Fin 64)
  | eret
  | mfs (d : Name) (n : Fin 4096)
  | mts (a : Name) (n : Fin 4096)
  | clk (d : Name)
  | spill (addr : Name)
  | fill (addr : Name)
  | bkpt (n : Fin 64)
  | tbegin (d : Name)
  | tend
  | tabort (a : Name)
  | fenter (d cnt : Name) (pool : Fin 3)
  | fleave (n : Fin 8)
  | fld (d : Name) (depth : Fin 8) (idx : Option (Fin 32)) (slot : BitVec 8)
  | fst (a : Name) (depth : Fin 8) (idx : Option (Fin 32)) (slot : BitVec 8)
  | fork (d addr : Name)
  | quit
  | yield
  | ballot (d : Name) (p : Fin 8)
  | matchv (d a : Name)
  | compact (d a : Name) (p : Fin 8)
  | regroup
  | bar
  | cbar
  | reconv
  | mdecl (d base dsc : Name)
  | mma (slot tile : Fin 8) (a b : Name)
  | mmaHold (slot tile : Fin 8) (a b : Name)
  | mrd (d : Name) (tile : Fin 8) (row : Name)
  | mwr (tile : Fin 8) (a row : Name)
  | mst (tile : Fin 8) (addr dsc : Name)
  | mzero (tile : Fin 8)
  | resid (a b : Name)
  | settle
  | proof (a addr c : Name)
  | sti (a addr : Name)
  | tqpush (d off addr : Name)
  | tqpop (d off c : Name)
  | draft (n : Fin 8) (base c : Name)
  | accept (n : Fin 8) (c : Name)
  | discard (n : Fin 8)
  | qpost (d addr off : Name)
  | ecmd (d addr off : Name)
  | ewait (addr c : Name)
  | sgnl (addr c : Name)
  | waits (d addr c : Name)
  | gather (off addr c : Name)
  | scatter (off addr c : Name)
  | sdef (s : Fin 4) (addr : Name) (flag : Fin 12)
  | sstop (s : Fin 4)
  | send (ch : Fin 8) (a : Name)
  | recv (d : Name) (ch : Fin 8)
  | jmp (addr : Name)
  | ret
  | bra (c : Cond) (off : BitVec 22)
  | call (c : Cond) (off : BitVec 22)
  | clause (wait : BitVec 12) (fa fb : Option (Fin 12)) (guard : Cond)
  | hintImm (high : BitVec 22)
  | hintPerm (pa pb : Option Pat)
  | hintMod (rnd : RndMode) (cls : Option (Fin 8)) (nt : Bool)
  | hintSched (yld : Bool)
  -- the moves of the ordering machine (R189)
  | leave (a : Nat)
  | forward (a : Nat)
  | requestSend (a : Nat)
  | combine (x y : Nat)
  | combineWindowExpiry (a : Nat)
  | arrive (a mask blk : Nat)
  | reply (a mask : Nat)
  | deliverInval (cluster : Nat)
  | lineFill (op : FillOp)
  | tlbWalk (a : Nat) (useTlb : Bool)
  | pinTimeout (rel : Nat)
  | fenceDone (cell fib : Nat)
  | escape (switch : Nat)
  | engineAcq (ch : Nat)
  | engineRel (ch : Nat)
  | engineCompletion (ch : Nat)
  | engineNop (ch : Nat)
  | engineCopy (ch : Nat)
  | engineMcast (ch : Nat)
  | engineFill (ch : Nat)
  | engineGather (ch : Nat)
  | engineColl (ch : Nat) (others : List (BitVec 64))
  | engineSgnl (ch : Nat)
  | collMemberFailure (ch dev : Nat)
  -- the fibre's waits and completions
  | streamRunaheadRead (cell fib : Nat) (s : Fin 4)
  | clauseWaitEnd (cell fib : Nat)
  | longLatencyComplete (op mask : Nat)
  | matrixFault (op : Nat)
  | proofSnapshot (op : Nat)
  | regroupTimeout (cluster quad entry : Nat)
  | watchdog (cell fib : Nat)
  | trapEntry (cell fib : Nat)
  -- plates, dispatch
  | settleCommit (cell : Nat)
  | plateDispatch (launch die : Nat)
  | cellDispatch (launch die : Nat)
  | fairtExpiry (launch cell : Nat)
  | clusterSplitSwitch (cluster : Nat)
  -- packets
  | packetRead (q : Nat)
  | packetBarRelease (p : Nat)
  | gridPacket (p : Nat)
  | platePacket (p : Nat)
  | barrierPacket (p : Nat)
  | barrierSignalRead (p k : Nat)
  | unplatePacket (p : Nat)
  | packetNop (p : Nat)
  | packetComplete (p : Nat)
  | dvfsSettled (island : Nat)
  | doorbellWrite (part fn off width : Nat) (val : BitVec 64)
  | queueRegister (part : Nat)
  | queueUnregister (part : Nat)
  | queueClearAbort (part : Nat)
  | chainRegister (part : Nat)
  | chainUnregister (part : Nat)
  | queueCmdComplete (part : Nat)
  -- system registers and their commands
  | memShoot (part fn : Nat)
  | shootComplete (part fn : Nat)
  | frameRelease (part fn : Nat)
  | frameReleaseComplete (part fn : Nat)
  | arithStatusRc (cell : Nat)
  | mxStatusRc (quadrant : Nat)
  | ordPintoWrite (part : Nat) (v : Word)
  | vfQuantumWrite (part : Nat) (v : Word)
  | vfReset (part fn : Nat)
  | pcieFunctionLevelReset (part fn : Nat)
  | functionResetComplete (part fn : Nat)
  | collLoad (part : Nat)
  | collClear (part : Nat)
  | photHeatWrite (part n : Nat) (v : Word)
  | photMapWrite (part n : Nat) (v : Word)
  | photMpdSample (bank n : Nat)
  | sysregWrite (part off : Nat) (v : BitVec 64)
  | hotThreshold (port page src part fn : Nat)
  -- partitions, power, host
  | sliceExpiry (part : Nat)
  | contextSwap (part : Nat)
  | contextStaging (part : Nat)
  | partFailure (p : Part)
  | poolDeviceLost (port : Nat)
  | islandStateChange (island : Nat) (m : IslandMode)
  | currentThrottle
  | currentStepUp
  | thermalStepDown (die : Nat)
  | thermalStepUp (die : Nat)
  | thermalEmergency
  | thermtrip
  | powerUp
  | attestationRequest (nonce : List Byte)
  | hostVaultAccess (part off : Nat) (write : Option (List Byte)) (len : Nat)
  | hostLinkTraining (gts width : Nat) (cxlCache : Bool)
  | hostSnoop (line : Nat)
  | powerDown
  | partitionReset (part : Nat)
  deriving DecidableEq, Repr

end Sys2Proof
end

