-- ==== Sys2Proof/Machine/Fp.lean ====
section
/-! DEFINITION. Exact arithmetic and its rounding: FP32 and BF16 (R133 to R140, R318 to R326), round_up of the plates
(R71), the functions of R139. Operands become exact numbers, results are narrowed once at the end. -/

namespace Sys2Proof.Machine

/-- The status bits of R141. -/
def stNV : Word := 1
def stDZ : Word := 2
def stOF : Word := 4
def stUF : Word := 8
def stIX : Word := 16

/-- A binary format: precision with the hidden bit, exponent of the lowest subnormal bit, encoding of infinity. -/
structure Fmt where
  p : Nat
  low : Int
  inf : Nat
  deriving DecidableEq, Repr
def fp32 : Fmt := ⟨24, -149, 0x7F800000⟩
def bf16 : Fmt := ⟨8, -133, 0x7F80⟩
def Fmt.nan (f : Fmt) : Nat := f.inf + 2 ^ (f.p - 2)
def Fmt.sign (f : Fmt) : Nat := if f.p = 24 then 2 ^ 31 else 2 ^ 15

/-- An exact value: a NaN (signalling or not), an infinity, or sign × num/den × 2^e. -/
inductive Ex where
  | nan (signalling : Bool)
  | inf (neg : Bool)
  | fin (neg : Bool) (num den : Nat) (e : Int)
  deriving DecidableEq, Repr

/-- The value that the bits of a format hold. -/
def Fmt.value (f : Fmt) (b : Nat) : Ex :=
  let neg := decide (f.sign ≤ b % (2 * f.sign))
  let m := b % f.sign
  if f.inf < m then .nan (m - f.inf < 2 ^ (f.p - 2))
  else if m = f.inf then .inf neg
  else
    let x := m / 2 ^ (f.p - 1)
    if x = 0 then .fin neg m 1 f.low
    else .fin neg (m % 2 ^ (f.p - 1) + 2 ^ (f.p - 1)) 1 (f.low + x - 1)
def val32 (w : Word) : Ex := fp32.value w.toNat
def val16 (h : BitVec 16) : Ex := bf16.value h.toNat
def isNan (w : Word) : Bool := match val32 w with | .nan _ => true | _ => false

/-- num × 2^e over den as a fraction of naturals. -/
def frac (num den : Nat) (e : Int) : Nat × Nat := if 0 ≤ e then (num * 2 ^ e.toNat, den) else (num, den * 2 ^ (-e).toNat)
/-- floor(log2(n/d)), for positive n and d. -/
def flog (n d : Nat) : Int :=
  let k : Int := (Nat.log2 n : Int) - Nat.log2 d
  let lt := if 0 ≤ k then decide (n < d * 2 ^ k.toNat) else decide (n * 2 ^ (-k).toNat < d)
  if lt then k - 1 else k

/-- The representable neighbour nearer zero, unbounded above, and what is left: the magnitude's bits, the remainder, its
unit, and whether the value lies below the normal range. -/
def Fmt.floor (f : Fmt) (num den : Nat) (e : Int) : Nat × Nat × Nat × Bool :=
  let (n, d) := frac num den e
  if n = 0 then (0, 0, 1, false) else
  let k := flog n d
  let q := max (k - f.p + 1) f.low
  let (n', d') := frac num den (e - q)
  (((q - f.low).toNat * 2 ^ (f.p - 1)) + n' / d', n' % d', d', decide (k < f.low + f.p - 1))

/-- Does the rounding go to the far neighbour (R135, R136)? w is the drawn word. -/
def goesFar (mode : RndMode) (neg odd : Bool) (rem den : Nat) (w : Word) : Bool :=
  match mode with
  | .none | .rne => decide (den < 2 * rem) || (decide (2 * rem = den) && odd)
  | .rz => false
  | .dn => neg && decide (0 < rem)
  | .up => !neg && decide (0 < rem)
  | .sr => decide ((2 * (w.toNat / 256) + 1) * den < rem * 2 ^ 25)

/-- The result of an overflow (R319). -/
def Fmt.over (f : Fmt) (mode : RndMode) (neg : Bool) : Nat :=
  match mode with
  | .rz => f.inf - 1
  | .up => if neg then f.inf - 1 else f.inf
  | .dn => if neg then f.inf else f.inf - 1
  | _ => f.inf

/-- Round an exact value into a format (R133 to R137, R319): bits and status. vec selects the rule of R137, by which a
nonzero BF16 result below 2^−133 is rounded stochastically whatever the mode. -/
def Fmt.round (f : Fmt) (mode : RndMode) (w : Word) (vec : Bool) : Ex → Nat × Word
  | .nan sig => (f.nan, if sig then stNV else 0)
  | .inf neg => ((if neg then f.sign else 0) + f.inf, 0)
  | .fin neg num den e =>
    let sg := if neg then f.sign else 0
    if num = 0 then (sg, 0) else
    let (b, rem, d, tiny) := f.floor num den e
    let mode := if vec && f.p == 8 && b == 0 then .sr else mode
    if rem = 0 then
      (if f.inf ≤ b then (sg + f.over mode neg, stOF ||| stIX) else (sg + b, 0))
    else
      let b' := if goesFar mode neg (b % 2 == 1) rem d w then b + 1 else b
      if f.inf ≤ b' then (sg + f.over mode neg, stOF ||| stIX)
      else (sg + b', stIX ||| (if tiny then stUF else 0))
def round32 (mode : RndMode) (w : Word) (x : Ex) : Word × Word :=
  let r := fp32.round mode w false x
  (BitVec.ofNat 32 r.1, r.2)
def rne32 (x : Ex) : Word × Word := round32 .rne 0 x

/-- The signed sum of two fractions scaled by powers of two. An exact zero sum of nonzero or opposite terms is −0 under
dn and +0 otherwise; a sum of two zeros of one sign keeps it (R133, R319). -/
def addEx (mode : RndMode) : Ex → Ex → Ex
  | .nan a, .nan b => .nan (a || b)
  | .nan a, _ => .nan a
  | _, .nan b => .nan b
  | .inf a, .inf b => if a = b then .inf a else .nan true
  | .inf a, _ => .inf a
  | _, .inf b => .inf b
  | .fin na xa da ea, .fin nb xb db eb =>
    let e := min ea eb
    let a : Int := (xa * db * 2 ^ (ea - e).toNat : Nat) * (if na then -1 else 1)
    let b : Int := (xb * da * 2 ^ (eb - e).toNat : Nat) * (if nb then -1 else 1)
    let r := a + b
    if r = 0 then .fin (if xa = 0 ∧ xb = 0 ∧ na = nb then na else mode == .dn) 0 1 0
    else .fin (decide (r < 0)) r.natAbs (da * db) e
def negEx : Ex → Ex
  | .nan s => .nan s
  | .inf n => .inf (!n)
  | .fin n x d e => .fin (!n) x d e
def mulEx : Ex → Ex → Ex
  | .nan a, .nan b => .nan (a || b)
  | .nan a, _ => .nan a
  | _, .nan b => .nan b
  | .inf a, .inf b => .inf (a != b)
  | .inf a, .fin b x _ _ => if x = 0 then .nan true else .inf (a != b)
  | .fin a x _ _, .inf b => if x = 0 then .nan true else .inf (a != b)
  | .fin na xa da ea, .fin nb xb db eb => .fin (na != nb) (xa * xb) (da * db) (ea + eb)
/-- An exact quotient (SAMPLE, QCVT); division by zero and of infinities as IEEE 754 has it. -/
def divEx : Ex → Ex → Ex
  | .nan a, .nan b => .nan (a || b)
  | .nan a, _ => .nan a
  | _, .nan b => .nan b
  | .inf _, .inf _ => .nan true
  | .inf a, .fin b _ _ _ => .inf (a != b)
  | .fin a _ _ _, .inf b => .fin (a != b) 0 1 0
  | .fin na xa da ea, .fin nb xb db eb =>
    if xb = 0 then (if xa = 0 then .nan true else .inf (na != nb))
    else .fin (na != nb) (xa * db) (da * xb) (ea - eb)

/-- The four operations of R318 on exact operands, and the step of a chain of R149. -/
inductive FOp where | add | sub | mul | fma | mac deriving DecidableEq, Repr
/-- FFMA takes R319's row at its word: a finite product and an addend that is the infinity of the other sign are invalid. -/
def fopEx (o : FOp) (mode : RndMode) (a b c : Ex) : Ex :=
  match o with
  | .add => addEx mode a b
  | .sub => addEx mode a (negEx b)
  | .mul => mulEx a b
  | .fma =>
    match mulEx a b, c with
    | .nan x, .nan y => .nan (x || y)
    | .fin p _ _ _, .inf n => if p = n then .inf n else .nan true
    | p, c => addEx mode p c
  | .mac => addEx mode (mulEx a b) c

/-- Halves of a packed pair (R134). -/
def half (w : Word) (e : Nat) : BitVec 16 := (w >>> (16 * e)).setWidth 16
def pack (lo hi : BitVec 16) : Word := (hi.setWidth 32 <<< 16) ||| lo.setWidth 32

/-- One .f32 result (R318). -/
def fop32 (o : FOp) (mode : RndMode) (w a b c : Word) : Word × Word :=
  round32 mode w (fopEx o mode (val32 a) (val32 b) (val32 c))
/-- One BF16 element (R318). -/
def fop16 (o : FOp) (mode : RndMode) (w : Word) (a b c : BitVec 16) : BitVec 16 × Word :=
  let r := bf16.round mode w true (fopEx o mode (val16 a) (val16 b) (val16 c))
  (BitVec.ofNat 16 r.1, r.2)

/-- Order key: the signed magnitude of the bits, so that −0 and +0 are equal. -/
def ordKey (f : Fmt) (b : Nat) : Int := if f.sign ≤ b then -((b - f.sign : Nat) : Int) else b
/-- FMIN and FMAX of one element (R138); −0 is less than +0. -/
def minmax (f : Fmt) (isMax : Bool) (a b : Nat) : Nat × Word :=
  let sig (x : Ex) : Word := match x with | .nan true => stNV | _ => 0
  let st := sig (f.value a) ||| sig (f.value b)
  match f.value a, f.value b with
  | .nan _, .nan _ => (f.nan, st)
  | .nan _, _ => (b, st)
  | _, .nan _ => (a, st)
  | _, _ =>
    let less := if ordKey f a = ordKey f b then decide (f.sign ≤ a) else decide (ordKey f a < ordKey f b)
    (if less != isMax then a else b, st)

/-- FCMP (R320): the condition and NV. -/
def fcmp32 (c : FCond) (a b : Word) : Bool × Word :=
  let nan := isNan a || isNan b
  let st := if val32 a = .nan true ∨ val32 b = .nan true then stNV else 0
  let x := ordKey fp32 a.toNat
  let y := ordKey fp32 b.toNat
  (match c with
    | .un => nan
    | .ord => !nan
    | .ne => nan || x != y
    | .eq => !nan && x == y
    | .lt => !nan && decide (x < y)
    | .le => !nan && decide (x ≤ y)
    | .gt => !nan && decide (y < x)
    | .ge => !nan && decide (y ≤ x), st)

/-- Round an exact finite value to an integer: magnitude, and whether it was one. -/
def roundInt (mode : RndMode) (neg : Bool) (num den : Nat) (e : Int) : Nat × Bool :=
  let (n, d) := frac num den e
  let q := n / d
  let r := n % d
  (if goesFar mode neg (q % 2 == 1) r d 0 then q + 1 else q, r == 0)

/-- FRND (R326). -/
def frnd32 (mode : RndMode) (a : Word) : Word × Word :=
  match val32 a with
  | .nan s => (BitVec.ofNat 32 fp32.nan, if s then stNV else 0)
  | .inf _ => (a, 0)
  | .fin neg num den e =>
    let (m, exact) := roundInt mode neg num den e
    if exact then (a, 0) else ((rne32 (.fin neg m 1 0)).1, 0)

/-- FCVT to an integer (R140): signed or unsigned. -/
def toInt32 (signed : Bool) (mode : RndMode) (a : Word) : Word × Word :=
  let lo : Int := if signed then -(2 ^ 31) else 0
  let hi : Int := if signed then 2 ^ 31 - 1 else 2 ^ 32 - 1
  match val32 a with
  | .nan _ => (0, stNV)
  | .inf neg => (BitVec.ofInt 32 (if neg then lo else hi), stNV)
  | .fin neg num den e =>
    let (m, exact) := roundInt mode neg num den e
    let v : Int := if neg then -(m : Int) else m
    if v < lo then (BitVec.ofInt 32 lo, stNV) else if hi < v then (BitVec.ofInt 32 hi, stNV)
    else (BitVec.ofInt 32 v, if exact then 0 else stIX)
def ofInt (v : Int) : Ex := .fin (decide (v < 0)) v.natAbs 1 0

/-- Integer square root by bits: r starts at 0 and bit k down to 0 are tried. -/
def isqrtFrom (n : Nat) : Nat → Nat → Nat
  | 0, r => if (r + 1) * (r + 1) ≤ n then r + 1 else r
  | k + 1, r => isqrtFrom n k (if (r + 2 ^ (k + 1)) * (r + 2 ^ (k + 1)) ≤ n then r + 2 ^ (k + 1) else r)
def isqrt (n : Nat) : Nat := isqrtFrom n (Nat.log2 n / 2 + 1) 0
/-- sqrt(n/d × 2^e) with a sticky bit below: num × 2^e'. -/
def sqrtEx (n d : Nat) (e : Int) : Ex :=
  let e := e - 120
  let (n, e) := if e % 2 = 0 then (n * 2 ^ 120, e) else (n * 2 ^ 121, e - 1)
  let q := n / d
  let r := isqrt q
  .fin false (2 * r + (if r * r = q ∧ n % d = 0 then 0 else 1)) 1 (e / 2 - 1)

/-- Fixed point with 192 fraction bits. -/
def fx : Nat := 192
/-- The sum of z^(2i+1)/(2i+1) from term i on: atanh of z. -/
def atanhFrom (z2 : Nat) : Nat → Nat → Nat → Nat
  | 0, _, _ => 0
  | k + 1, i, t => t / (2 * i + 1) + atanhFrom z2 k (i + 1) (t * z2 / 2 ^ fx)
/-- ln(n/d) in fixed point, for n/d in [1, 2]. -/
def lnFix (n d : Nat) : Nat :=
  let z := (n - d) * 2 ^ fx / (n + d)
  2 * atanhFrom (z * z / 2 ^ fx) 66 0 z
def ln2Fix : Nat := lnFix 2 1
/-- ln(n/d), for positive n and d, as a signed fixed-point number. -/
def lnSigned (n d : Nat) : Int :=
  let k := flog n d
  let (a, b) := frac n d (-k)
  k * ln2Fix + lnFix a b
/-- e^x in fixed point for x in [0, 1): the Taylor sum from term i on. -/
def expFrom (x : Nat) : Nat → Nat → Nat → Nat
  | 0, _, _ => 0
  | k + 1, i, t => t + expFrom x k (i + 1) (t * x / 2 ^ fx / (i + 1))
def expFix (x : Nat) : Nat := expFrom x 60 0 (2 ^ fx)

/-- One of the two values adjacent to an exact value (R139): bits and status; pick takes the one farther from zero. -/
def adjacent (pick : Bool) : Ex → Word × Word
  | .fin neg num den e =>
    let (b, rem, _, tiny) := fp32.floor num den e
    let sg := if neg then 2 ^ 31 else 0
    if num = 0 then (BitVec.ofNat 32 sg, 0)
    else if fp32.inf ≤ b then (BitVec.ofNat 32 (sg + fp32.inf), stOF ||| stIX)
    else if rem = 0 then (BitVec.ofNat 32 (sg + b), 0)
    else
      let b' := if pick then b + 1 else b
      (BitVec.ofNat 32 (sg + b'), stIX ||| (if tiny then stUF else 0) ||| (if fp32.inf ≤ b' then stOF else 0))
  | x => rne32 x

inductive Fun where | rcp | rsq | sqrt | exp2 | log2 deriving DecidableEq, Repr

/-- The exact value of the function at a positive or negative finite nonzero operand, to 192 fraction bits for FEXP2 and
FLOG2 (R139). -/
def funEx (f : Fun) (neg : Bool) (num den : Nat) (e : Int) : Ex :=
  match f with
  | .rcp => .fin neg den num (-e)
  | .rsq => sqrtEx den num (-e)
  | .sqrt => sqrtEx num den e
  | .exp2 =>
    let (n, d) := frac num den e
    let q : Int := if neg then -((n + d - 1) / d : Nat) else (n / d : Nat)
    let r := if neg then (d - n % d) % d else n % d
    let q := if 1000 < q then 1000 else if q < -1000 then -1000 else q
    if r = 0 then .fin false 1 1 q else .fin false (expFix (r * 2 ^ fx / d * ln2Fix / 2 ^ fx)) 1 (q - fx)
  | .log2 =>
    let (n, d) := frac num den e
    let k := flog n d
    let (a, b) := frac n d (-k)
    if a = b then ofInt k
    else
      let v : Int := k * 2 ^ fx + ((lnFix a b * 2 ^ fx / ln2Fix : Nat) : Int)
      .fin (decide (v < 0)) v.natAbs 1 (-(fx : Int))

/-- FRCP, FRSQ, FSQRT, FEXP2, FLOG2 with the special operands of R139. -/
def fun32 (f : Fun) (pick : Bool) (a : Word) : Word × Word :=
  let nan : Word := BitVec.ofNat 32 fp32.nan
  match val32 a with
  | .nan s => (nan, if s then stNV else 0)
  | .inf neg =>
    match f, neg with
    | .rcp, n => (if n then 0x80000000 else 0, 0)
    | .rsq, false => (0, 0)
    | .exp2, true => (0, 0)
    | .sqrt, false | .exp2, false | .log2, false => (0x7F800000, 0)
    | _, _ => (nan, stNV)
  | .fin neg num den e =>
    if num = 0 then
      match f with
      | .rcp | .rsq => (if neg then 0xFF800000 else 0x7F800000, stDZ)
      | .sqrt => (a, 0)
      | .exp2 => (0x3F800000, 0)
      | .log2 => (0xFF800000, stDZ)
    else if neg && (f == .rsq || f == .sqrt || f == .log2) then (nan, stNV)
    else if f == .sqrt then rne32 (funEx f neg num den e)
    else adjacent pick (funEx f neg num den e)

/-- FDOT2 (R322): c + a0·b0 + a1·b1 with one rounding. -/
def fdot2Ex (mode : RndMode) (a b c : Word) : Ex :=
  let p := mulEx (val16 (half a 0)) (val16 (half b 0))
  let q := mulEx (val16 (half a 1)) (val16 (half b 1))
  match p, q, val32 c with
  | .fin n0 x0 d0 e0, .fin n1 x1 d1 e1, .fin nc xc dc ec =>
    if n0 = n1 ∧ n1 = nc ∧ x0 = 0 ∧ x1 = 0 ∧ xc = 0 then .fin nc 0 1 0
    else
      match addEx mode (.fin n0 x0 d0 e0) (.fin n1 x1 d1 e1) with
      | .fin _ 0 _ _ => if xc = 0 then .fin (mode == .dn) 0 1 0 else .fin nc xc dc ec
      | r => addEx mode r (.fin nc xc dc ec)
  | p, q, c =>
    let ts := [p, q, c]
    let bad := ts.contains (.nan true) || (ts.contains (.inf true) && ts.contains (.inf false))
    match addEx mode (addEx mode p q) c with
    | .nan s => .nan (s || bad)
    | r => r

/-- FP32 rounding toward +∞ of a non-negative exact value; an overflow is +∞ (R71). -/
def roundUp (x : Ex) : Word :=
  match x with
  | .nan _ => 0x7F800000
  | .inf _ => 0x7F800000
  | x => (round32 .up 0 x).1
def absEx : Ex → Ex
  | .nan s => .nan s
  | .inf _ => .inf false
  | .fin _ n d e => .fin false n d e
/-- round_up(a + b) of residuals. -/
def upAdd (a b : Word) : Word := roundUp (addEx .up (val32 a) (val32 b))
/-- A share: round_up(|w| × D), zero for a zero weight (R71, R74). -/
def share (w d : Word) : Word := if w.toNat % 2 ^ 31 = 0 then 0 else roundUp (absEx (mulEx (val32 w) (val32 d)))
/-- The change of an input (R74). -/
def change (new old : Word) : Word :=
  match val32 new, val32 old with
  | .fin a b c d, .fin e f g h => roundUp (absEx (addEx .up (.fin a b c d) (negEx (.fin e f g h))))
  | _, _ => 0x7F800000

end Sys2Proof.Machine
end

