-- ==== Sys2Proof/Config.lean ====
section
/-! DEFINITION. What the spec leaves open: free values, and the two functions whose definition lies outside the spec.
Every constant here is opaque: no proof can see a value of it. -/

namespace Sys2Proof.Config

/-- A free choice between two permitted outcomes, applied to the counter State.free
(R139: which of the two adjacent values; R157, R342, R313: zero or what was left; R371: which hatch forms). -/
opaque freeBit : Nat → Bool

/-- A free choice among several permitted outcomes, applied to the counter State.free (R58). -/
opaque freeNat : Nat → Nat

/-- Byte i of the SHA3-256 digest of some bytes (R300, R301): the spec names the function and does not define it. -/
opaque sha3Byte : List Byte → Nat → Byte
/-- A SHA3-256 digest: 32 bytes. -/
def sha3 (bs : List Byte) : List Byte := (List.range 32).map (sha3Byte bs)

/-- Byte i of an ML-DSA-44 signature with Narcy's identity key (R301): the key is made at manufacture. -/
opaque signByte : List Byte → Nat → Byte
/-- Such a signature: 2,420 bytes. -/
def identitySign (bs : List Byte) : List Byte := (List.range 2420).map (signByte bs)

/-- Byte i of the public key of Narcy's identity (R300). -/
opaque identityByte : Nat → Byte
/-- That public key: 1,312 bytes. -/
def identityKey : List Byte := (List.range 1312).map identityByte

/-- Verification of an ML-DSA-44 signature of an image digest against the fused key (R300). -/
opaque imageVerifies : List Byte → Bool

/-- The heater codes calibration leaves at reset (R295: Reset is Calibrated): bank, ring. -/
opaque heaterCalibrated : Nat → Nat → BitVec 12

/-- The die temperature at which a bank was calibrated, in units of 1/16 °C (R304 gives it for bank 7 of one part alone). -/
opaque calibrationTemp : Nat → BitVec 16

/-- Byte i of the CONFIG field of an attestation report (R301), whose layout the spec does not give: a function of the partition
map and of the partitions' function counts, and of the fuses. -/
opaque attestByte : List (List Nat) → List Nat → Nat → Byte
/-- The CONFIG field: 64 bytes. -/
def attestConfig (map : List (List Nat)) (functions : List Nat) : List Byte := (List.range 64).map (attestByte map functions)

/-- The bytes of a context in its slot of the context save area (R272), at most 2 MiB; their layout is not given: function,
cluster, generation tag. -/
opaque contextBytes : Nat → Nat → Nat → List Byte

end Sys2Proof.Config
end

