-- ==== Sys2Proof/Machine/State.lean ====
section
/-! DEFINITION. The state of the machine as plain data: everything the spec gives the device, and the state after
reset. Registers, tiles, scratch and memory are sparse lists in one canonical form (SMap): keys strictly rising, and no
entry equal to what an unlisted key reads as. -/

namespace Sys2Proof.Machine

/-- A sparse map: key and value pairs, keys strictly rising, the default value never listed. -/
abbrev SMap (α : Type) := List (Nat × α)

/-- The trap causes of R256. -/
inductive Cause where
  | illegalInstruction | illegalClause | misaligned | translationFault | protectionFault | illegalAddress
  | windowSpill | windowFill | frameFault | privileged | trapCall | breakpoint | channelFault | matrixFault
  | engineError | uncorrectable | watchdog
  deriving DecidableEq, Repr

/-- A trap about to be taken: cause, DETAIL, fault address, the literal of TRAP and BKPT, MXROW (R258). -/
structure Trap where
  cause : Cause
  detail : Nat := 0
  faddr : Nat := 0
  code : Nat := 0
  mxrow : Nat := 0
  deriving DecidableEq, Repr

/-- A fibre, by the number of its cell and its index in it. -/
structure FRef where
  cell : Nat
  idx : Nat
  deriving DecidableEq, Repr

/-- What a blocked fibre waits for (R27). A wait in EWAIT holds whether its command ended in an error, once it has ended
(R317). -/
inductive Wait where
  | bar | cbar | settle | reconv (at_ : Nat) | regroup (entry : Nat) | recv (ch : Nat) (dst : Nat) (got : Option Word)
  | send (ch : Nat) (words : List Word) | waits (dst : Nat) (addr : Nat) (v : DWord)
  | ewait (chain : Nat) (s : Word) (err : Option Bool) | yield (at_ : Nat) | quit | fleave (frames : List Nat)
  deriving DecidableEq, Repr

/-- The state of a fibre (R27). A fibre held up while it issues (a fence, R196) keeps the status fence. A parked fibre
is draining towards its handler, or cannot be vectored (R260, R261). -/
inductive Status where
  | ready
  | waitFlags (mask : BitVec 12)
  | fence (eng mx : Bool) (scope : Scope) (covered : List Nat)
  | blocked (w : Wait)
  | parked (t : Trap) (vectored : Bool)
  deriving DecidableEq, Repr

/-- A fibre's place in its clause (R118): begun, active under the latched guard, the two flags, the long-latency count. -/
structure Place where
  begun : Bool := false
  active : Bool := true
  fa : Option (Fin 12) := none
  fb : Option (Fin 12) := none
  ll : Nat := 0
  guard : Cond := .always
  deriving DecidableEq, Repr

/-- An element of an operand queue: its value, or the fault its address raises at the pop (R180); again after an ERET, until
the run-ahead engine has read a faulted one once more (R166). -/
inductive Elem where
  | val (w : Word)
  | bad (faddr : Nat) (c : Cause)
  | again
  deriving DecidableEq, Repr

/-- A stream record and its operand queue (R180). fetched counts elements read or discarded, popped positions consumed; late marks a
stream that a handler has defined (R260). -/
structure Stream where
  active : Bool := false
  flag : Nat := 0
  base : DWord := 0
  stride : Word := 0
  count : Nat := 0
  idx : DWord := 0
  esz : Nat := 0
  sx : Bool := false
  fetched : Nat := 0
  popped : Nat := 0
  queue : List Elem := []
  late : Bool := false
  deriving DecidableEq, Repr

/-- A transaction of a lane (R220, R221): resume point, destination, nesting, read and write sets by line. -/
structure Tx where
  resume : DWord
  dst : Nat
  nest : Nat
  reads : List (Nat × List Byte)
  writes : SMap Byte
  deriving DecidableEq, Repr

/-- What a fibre in a handler keeps of the trapped code (R258, R260, R262): its record, its window base, its place, mode
and flags, and the requests owed, which ERET re-issues and replays. -/
structure Handler where
  record : Nat
  trapBase : Nat
  place : Place
  mode : Bool
  flags : SMap Nat
  owed : List Nat
  deriving DecidableEq, Repr

/-- A fibre (R24). waitAt is the address of the unit at which it waits; again is a wait that WATCHDOG broke, which its
instruction resumes (R280); spilled counts the spilled blocks (R268); wrote marks a lane whose write of an MTS is done while
a later lane's is held up (R171, R282). refs names the live frame behind each valid display register (R50), and mark is the
island's cycle count when a wait at REGROUP began (R34). mate is the address of a unit whose lanes still wait, where this one has
passed it or was inactive there and goes on with them (R32); seen lists the writes that stood in its cluster's view at its last
point of cell scope (R193). -/
structure Fibre where
  idx : Nat
  pc : DWord
  preds : BitVec 8 := 1
  base : Nat := 0
  stack : SMap Word := []
  rets : SMap DWord := []
  disp : SMap DWord := []
  refs : SMap Nat := []
  flags : SMap Nat := []
  recs : SMap Stream := []
  dc : Word := 0
  sup : Bool := false
  status : Status := .ready
  hatch : Nat
  lane : Nat
  joinSet : List Nat := []
  place : Place := {}
  deferred : Bool := false
  slot : Nat := 0
  bank : BitVec 8 := 0
  perr : Bool := false
  tx : Option Tx := none
  handler : Option Handler := none
  readFrom : List Nat := []
  since : Nat := 0
  mark : Nat := 0
  waitAt : DWord := 0
  again : Option (DWord × Wait) := none
  spilled : Nat := 0
  wrote : Bool := false
  mate : Option DWord := none
  seen : List Nat := []
  deriving DecidableEq, Repr

/-- A channel of a cell (R251). -/
structure Chan where
  cap : Nat
  words : List Word := []
  deriving DecidableEq, Repr

/-- A draft region (R183, R184): tentative bytes by address. -/
structure Draft where
  base : Nat
  sz : Nat
  lc : Nat
  cap : Nat
  bytes : SMap Byte := []
  deriving DecidableEq, Repr

/-- An entry of a cell's tile table (R343). -/
structure Tile where
  base : DWord := 0
  dsc : Word := 0
  num : Word := 0
  deriving DecidableEq, Repr

/-- A cell (R23, R36): its fibres, its uniform registers, its scratch, and what it holds beside them. fn is the function
(0 to 63 virtual, 64 the physical function). conv holds c0 to c7, named in the register table only. -/
structure Cell where
  id : Nat
  launch : Nat := 0
  index : Nat := 0
  part : Nat := 0
  fn : Nat := 0
  cluster : Nat := 0
  locked : Bool := false
  fibres : List Fibre := []
  k : SMap Word := []
  scratchSize : Nat := 0
  scratch : SMap Byte := []
  arith : Word := 0
  chans : List (Nat × Chan) := []
  drafts : List (Nat × Draft) := []
  tiles : List (Nat × Tile) := []
  mdecls : Nat := 0
  repV : Word := 0
  repD : Word := 0
  settled : Bool := false
  held : List (Nat × Byte) := []
  conv : SMap Word := []
  resident : Bool := true
  rho : Word := 0
  dispatched : Nat := 0
  prio : Nat := 0
  saveTag : BitVec 16 := 0
  cohort : Nat := 0
  deriving DecidableEq, Repr

/-- The fields of a launch record (R241). -/
structure Record where
  entry : DWord := 0
  const : DWord := 0
  fibres : Nat := 1
  cohort : Nat := 1
  split : Nat := 0
  locked : Bool := false
  restartable : Bool := false
  chan : List Nat := []
  fmt : List (BitVec 16) := []
  gen : List Word := []
  pfBase : DWord := 0
  pfSize : Nat := 0
  cfSize : Nat := 0
  cfOff : Nat := 0
  lfSize : Nat := 0
  spBlk : Nat := 0
  spCnt : Nat := 0
  vpBase : DWord := 0
  vpBlk : Nat := 0
  vpCnt : Nat := 0
  gpBase : DWord := 0
  gpBlk : Nat := 0
  gpCnt : Nat := 0
  entryTab : DWord := 0
  depTab : DWord := 0
  subTab : DWord := 0
  qTab : DWord := 0
  eps : Word := 0
  gain : Word := 0
  fairW : Nat := 0
  fairT : Nat := 0
  qThr : Nat := 0
  deriving DecidableEq, Repr

inductive LaunchKind where | grid | plate | expert deriving DecidableEq, Repr

/-- The scheduling state of a cell of a launch (R67, R84, R85). -/
structure Entry where
  rho : Word := 0
  arrivals : Word := 0
  passed : Nat := 0
  running : Bool := false
  ended : Bool := false
  entry : DWord := 0
  edges : List (Nat × Word) := []
  qbase : DWord := 0
  cap : Nat := 0
  head : Nat := 0
  tail : Nat := 0
  stamps : List Nat := []
  runnableByTime : Bool := false
  failed : Bool := false
  deriving DecidableEq, Repr

/-- A watched region of a plate (R64): base, length, subscribers with their sensitivities. -/
structure Region where
  base : Nat
  len : Nat
  subs : List (Nat × Word)
  deriving DecidableEq, Repr

/-- A launch (R60, R61): a grid or an installed plate. waiting names for each die the cell that stays at the head because no
cluster could hold it, by one more than its index (R77). -/
structure Launch where
  id : Nat
  kind : LaunchKind
  part : Nat
  fn : Nat
  packet : Nat
  recAddr : DWord
  n : Nat
  bounds : List Nat
  rcd : Record
  consts : List Word
  prio : Nat
  cells : List Entry
  regions : List Region := []
  gen : Word := 0
  conv : Bool := false
  installed : Bool := true
  unplating : Bool := false
  seq : Nat := 0
  dvfsWait : Bool := false
  waiting : SMap Nat := []
  deriving DecidableEq, Repr

/-- The storage of a frame (R48). -/
inductive Place3 where | scratch | vault | global deriving DecidableEq, Repr

/-- A live frame with its count of sharers (R44, R50). cell is the owning cell of a scratch frame; handed lists the
accesses whose writes were handed to the count (R57); launch and cohort name what a depth-1 and a depth-2 frame belong to
(R44); leaver is the fibre whose last leave is not yet complete, until which the storage stays taken (R57, R58). -/
structure Frame where
  id : Nat
  plc : Place3
  cell : Nat
  part : Nat
  fn : Nat
  base : Nat
  slots : Nat
  depth : Nat
  count : Nat
  handed : List Nat := []
  launch : Nat := 0
  cohort : Nat := 0
  leaver : Option FRef := none
  deriving DecidableEq, Repr

/-- What an access is. A request of an ATOM or RED carries its group of members (R215). -/
inductive AccKind where
  | load | store | atom (op : AtomOp) | red (op : AtomOp) | cas (expected : Nat) | sgnl | sti | slotWrite (frame : Nat)
  deriving DecidableEq, Repr

/-- Where an access stands in the ordering machine (R187, R189). waiting names the switch level at which a request waits;
merged the request whose group it has joined. -/
inductive Stage where
  | queued | inView | waiting (level : Nat) | sent | arrived | refused (c : Cause) | merged (into : Nat)
  deriving DecidableEq, Repr

/-- A translation found for an access (R164, R165). -/
structure Xlat where
  pa : Nat
  u : Bool
  w : Bool
  x : Bool
  cls : Nat
  deriving DecidableEq, Repr

/-- An access in flight (R187 to R189). dst lists the stack positions its words are written to; flag is the completion
flag that counts it; members is the group of a combined request: each access with the operands kept for it on the way,
outermost first (R215); alone is its own operand once it leads a group; got has one bit for each word, first of those that
have arrived, then of those delivered. relDev is set where a release at cell scope is performed at device scope instead
(R198); mergedAt is one more than the switch at which a COMBINE joined the request to mergedInto (R213); ranked marks an STC's store, whose lanes have no order (R227); also lists the
lower lanes that wrote the same slot in the same instruction, whose write this one is too (R54); replay marks a refused store
that an ERET has sent again (R262, R266). -/
structure Acc where
  id : Nat
  owner : FRef
  part : Nat
  fn : Nat
  asid : Nat
  cluster : Nat
  quad : Nat
  sup : Bool
  kind : AccKind
  va : Nat
  len : Nat
  data : List Byte
  ord : Scope
  comb : Bool := false
  cls : Option Nat := none
  nt : Bool := false
  flag : Option Nat := none
  counted : Bool := false
  dst : List Nat := []
  lane : Nat := 0
  stage : Stage := .queued
  result : List Byte := []
  got : Nat := 0
  xlat : Option Xlat := none
  relDone : Bool := true
  covers : List Nat := []
  members : List (Nat × List Byte) := []
  alone : List Byte := []
  window : Nat := 0
  waitStart : Nat := 0
  invBefore : Nat := 0
  tag : BitVec 16 := 0
  pinned : Option Nat := none
  issue : Nat := 0
  relDev : Bool := false
  mergedAt : Nat := 0
  mergedInto : Nat := 0
  ranked : Bool := false
  also : List FRef := []
  replay : Bool := false
  deriving DecidableEq, Repr

/-- A list as GATHER, SCATTER or a gather engine reads it at its start (R174, R175): the element array, the limit, the
element size as a power of two, the address of each entry, the bytes of its header and widths. -/
structure ListInfo where
  base : Nat
  limit : Nat
  esz : Nat
  entries : List Nat
  head : Nat := 32
  deriving DecidableEq, Repr

/-- A pending long-latency operation that is no access of the view: functions, matrix, gather, plate and queue work. by_ is the
function whose cell posted a word to a tile, which may end before it takes effect. -/
inductive OpKind where
  | value (words : List (Nat × Word))
  | mma (unit tile slot : Nat) (hold : Bool) (ea eb : Tile) (row : Nat)
  | mrd (unit tile row : Nat) (dsts : List (FRef × Nat × Nat))
  | mst (unit tile : Nat) (base : DWord) (dsc : Word) (row : Nat)
  | mwr (unit tile row : Nat) (vals : List (Nat × Word)) (by_ : Nat × Nat)
  | mzero (unit tile : Nat) (by_ : Nat × Nat)
  | gather (off hdr count : Nat) (list : Option ListInfo)
  | scatter (off hdr count : Nat) (list : Option ListInfo)
  | proof (dst addr n : Nat)
  | tqpush (addr : Nat) (bytes : List Byte) (dst : Nat)
  | tqpop (off n : Nat) (dst : Nat)
  | qpost (addr : Nat) (bytes : List Byte) (dst : Nat)
  | ecmd (addr : Nat) (bytes : List Byte) (dst : Nat)
  deriving DecidableEq, Repr

/-- A pending operation with the fibres whose flags it counts on, each with its flag. issue is common to the operations
of one instruction; refused holds a NACK, a note or a matrix fault; result what it has read so far; got the words of it
already delivered, by bit; cls and nt are what a HINT.MOD gave it (R124, R169); after
lists the replayed stores that go before its own replay (R262). -/
structure Op where
  id : Nat
  owner : FRef
  fibres : List (FRef × Option Nat × Bool)
  kind : OpKind
  issue : Nat := 0
  refused : Option Trap := none
  result : Option (List (Nat × Word)) := none
  got : Nat := 0
  cls : Option Nat := none
  nt : Bool := false
  after : List Nat := []
  deriving DecidableEq, Repr

/-- A slice line (R160): its bytes and what its fill found. -/
structure Line where
  asid : Nat
  part : Nat
  line : Nat
  pa : Nat
  bytes : List Byte
  dirty : Bool := false
  age : Nat := 0
  cls : Nat := 0
  way : Nat := 0
  u : Bool := true
  w : Bool := true
  x : Bool := true
  poison : Bool := false
  deriving DecidableEq, Repr

/-- An L1 block (R159). asid is none for a vault line; pa is where the bytes of a global line stand. -/
structure Block where
  cluster : Nat
  asid : Option Nat
  base : Nat
  bytes : List Byte
  pa : Nat := 0
  deriving DecidableEq, Repr

/-- A TLB entry (R162): a 64 KiB or 2 MiB page. -/
structure TlbEntry where
  asid : Nat
  part : Nat
  page : Nat
  big : Bool
  xlat : Xlat
  deriving DecidableEq, Repr

/-- A pin (R198): a line held back by a release at cell scope. -/
structure Pin where
  rel : Nat
  cell : Nat
  cluster : Nat
  part : Nat
  asid : Option Nat
  line : Nat
  since : Nat
  accs : List Nat
  deriving DecidableEq, Repr

/-- An invalidation in a cluster's queue (R187). -/
structure Inval where
  num : Nat
  asid : Option Nat
  line : Nat
  deriving DecidableEq, Repr

/-- The residues of an element that no MMA of the open run has reached. -/
def noChan : Nat × Nat × Nat := (251, 253, 255)

/-- A tile's elements and what the unit records with the tile (R148, R344). run and chans hold an open residue run: the
number of its MMAs, the first one's slot, scales and extents, the voids read, and three residues per element. leftBy is
the function whose cell made the run and the record. wroteBy numbers the function that wrote each element, and wroteAll the one that
zeroed the tile before (R342), 0 where none did. -/
structure TileState where
  elems : SMap Word := []
  slot : Nat := 0
  rows : Nat := 32
  cols : Nat := 32
  runLen : Nat := 0
  runSlot : Nat := 0
  runScales : List Byte := []
  chans : SMap (Nat × Nat × Nat) := []
  voidRows : List Nat := []
  voidCols : List Nat := []
  runRows : Nat := 0
  runCols : Nat := 0
  leftBy : Option (Nat × Nat) := none
  wroteBy : SMap Nat := []
  wroteAll : Nat := 0
  deriving DecidableEq, Repr

/-- A crosshatch entry (R34). -/
structure HatchEntry where
  id : Nat
  cell : Nat
  cluster : Nat
  quad : Nat
  pc : DWord
  members : List Nat
  deriving DecidableEq, Repr

/-- A registered queue or chain (R230). The header itself stands in memory (R229, R245). posted names who posted an entry:
its index, the launch, the cell (R242, R246), 0 once the cell's cluster has been retired (R278). -/
structure QueueReg where
  id : Nat
  part : Nat
  fn : Nat
  addr : Nat
  idx : Nat
  chain : Bool
  posted : List (Nat × Nat × Nat) := []
  deriving DecidableEq, Repr

/-- Where a packet stands (R236, R237). -/
inductive PStage where
  | read | launched | barrier (unseen : List Nat) | unplating | done (status : Nat)
  deriving DecidableEq, Repr

/-- A packet that the queue processor has read (R233). -/
structure Packet where
  id : Nat
  queue : Nat
  index : Nat
  bytes : List Byte
  stage : PStage := .read
  held : Bool := false
  failed : Nat := 0
  known : Bool := true
  launch : Nat := 0
  parent : Option (Nat × Nat) := none
  deriving DecidableEq, Repr

/-- Where a chain's engine stands (R248). -/
inductive EStage where
  | idle | acquired | performed (status fmask : Nat) | released (status fmask : Nat)
  deriving DecidableEq, Repr

/-- The engine of a chain. at_ counts the bytes that a collective in progress has reduced (R292). -/
structure Engine where
  queue : Nat
  stage : EStage := .idle
  at_ : Nat := 0
  failedMembers : List Nat := []
  deriving DecidableEq, Repr

/-- A function of a partition with its own registers (R171, R274, R275). Number 64 is the physical function. shootAt and relAt keep
the page and the frame of the command in progress (R167, R172). -/
structure Fn where
  part : Nat
  num : Nat
  asid : BitVec 16 := 0
  ptroot : Word := 0
  shootVa : Word := 0
  shoot : Word := 0
  shootBusy : Bool := false
  shootAt : Word := 0
  relPa : Word := 0
  rel : Word := 0
  relBusy : Bool := false
  relAt : Word := 0
  weight : Nat := 1
  quantum : Nat := 100000
  last : Nat := 0
  resetting : Bool := false
  admitted : Bool := false
  waitSince : Nat := 0
  released : Bool := false
  deriving DecidableEq, Repr

/-- A partition and its registers (R168, R186, R197, R212, R230, R257, R272, R275, R293, R295). queueNew is a queue or chain whose
registration is not yet finished (R230). -/
structure Partition where
  id : Nat
  islands : List Nat
  rclass : SMap Word := []
  hotBase : Word := 0
  hotSize : Word := 0
  hotHead : Word := 0
  hotTail : Word := 0
  hotThr : Word := 0
  hotDrop : Word := 0
  pinto : Nat := 100
  drto : Nat := 8
  cw : Nat := 16
  queueAddr : DWord := 0
  queueCmd : Word := 0
  queueBusy : Bool := false
  queueFail : Bool := false
  queueIdx : Nat := 0
  queueRan : Bool := false
  queueNew : Option QueueReg := none
  trapVec : DWord := 0
  trapSave : Word := 0
  wdog : Word := 0
  vfSel : Nat := 0
  ctxBase : DWord := 0
  collAddr : DWord := 0
  collGroup : Nat := 0
  collCmd : Nat := 0
  collFn : Nat := 64
  collBusy : Bool := false
  collFail : Bool := false
  groups : List (Nat × (List Nat × Nat)) := []
  share : List (Nat × Nat × Nat) := []
  grant : Bool := false
  hostBank : BitVec 8 := 0
  hostErr : Bool := false
  holder : Option Nat := none
  lastHolder : Nat := 63
  sliceLeft : Nat := 0
  swapping : Bool := false
  staged : Option Nat := none
  aer : List Nat := []
  deriving DecidableEq, Repr

/-- An island (R273, R299): mode, operating point in eighths, the point the last hint set, and its clock: the ticks and
cycles at the last change of point (R314). hot and over say that a thermal and a current action hold it back;
heat and amps count the points that each took and that it has yet to get back, heatAt and ampsAt when each last acted. -/
structure Island where
  mode : IslandMode := .running
  point : Nat := 8
  hint : Nat := 8
  settling : Bool := false
  baseCycles : Nat := 0
  baseTick : Nat := 0
  hot : Bool := false
  current : Bool := false
  heatAt : Nat := 0
  ampsAt : Nat := 0
  heat : Nat := 0
  amps : Nat := 0
  deriving DecidableEq, Repr

/-- A pooled-memory decoder (R289). -/
structure Decoder where
  base : Nat
  size : Nat
  ways : Nat
  ports : List Nat
  deriving DecidableEq, Repr

/-- Who consumes data of an SRAM that ECC cannot correct (R280): a fibre about to issue, an access, or an operation. -/
inductive Consumer where
  | issue (cell fib : Nat) | acc (a : Nat) | op (o : Nat)
  deriving DecidableEq, Repr

/-- What the outside may put next: a move, a choice of quadrant to issue, a reading of a die's temperature, a setting of the
firmware (decoders, share tables, device number and images, the partition map by islands), a write that the host or a peer
makes in its own memory, the group descriptor that another device has loaded (R293), a register of a fibre that fails parity
twice, a slice line or other SRAM that ECC cannot correct (R280), an error that ECC corrects or that stands in the control
state of a partition (R287). -/
inductive Input where
  | move (i : Instr)
  | issue (quadrant : Nat)
  | temperature (die : Nat) (t : BitVec 16)
  | decoders (l : List Decoder)
  | shareTable (part : Nat) (l : List (Nat × Nat × Nat))
  | hostWrite (pa : Nat) (bytes : List Byte)
  | firmware (number : Nat) (images : List (List Byte))
  | partitions (l : List (List Nat))
  | registerError (cell fib : Nat)
  | lineError (asid line : Nat)
  | peerGroup (device group : Nat) (desc : List Nat × Nat)
  | sramError (who : Consumer)
  | eccCorrected (part : Nat)
  | controlError (part : Nat)
  deriving DecidableEq, Repr

/-- The group that issues (R118, R121): a hatch or a path of a cell, the address of the unit's first word, the next word
to fetch, and the hints gathered. -/
structure Cur where
  cell : Nat := 0
  hatch : Nat := 0
  first : DWord := 0
  at_ : DWord := 0
  hints : List Instr := []
  opened : Bool := false
  deriving DecidableEq, Repr

/-- Narcy: the measurement log, the firmware images of the four dies, the dies whose image failed at the last boot (R300), and
the reports given (R301). -/
structure Narcy where
  log : List Byte := []
  images : List (List Byte) := []
  failed : List Nat := []
  reports : List (List Byte) := []
  deriving DecidableEq, Repr

/-- A saved context of a function (R269, R271): its cells stay in the cell list, marked not resident. -/
structure Saved where
  part : Nat
  fn : Nat
  tag : BitVec 16
  inArea : Bool
  records : List (Nat × List Byte)
  tiles : List (Nat × TileState)
  mx : List (Nat × Word)
  deriving DecidableEq, Repr


/-- The state of the machine. rr lists the hatches that have issued by quadrant, the last in the round-robin first (R253); mxBy names the function that last set each unit's MX.STATUS, as 1 + 128 part + fn (R142); peers
lists the group descriptors that other devices are known to hold (R293). -/
structure State where
  powered : Bool := true
  grade20 : Bool := false
  now : Nat := 0
  tempo : Nat := 525
  free : Nat := 0
  next : Nat := 1
  agenda : List Input := []
  cur : Cur := {}
  mem : List Host.Cell := []
  lines : List Line := []
  blocks : List Block := []
  invals : List (Nat × List Inval) := []
  tlb : List TlbEntry := []
  pins : List Pin := []
  accs : List Acc := []
  ops : List Op := []
  cells : List Cell := []
  launches : List Launch := []
  frames : List Frame := []
  mxTiles : List (Nat × TileState) := []
  mxStatus : SMap Word := []
  mxBy : SMap Nat := []
  crosshatch : List HatchEntry := []
  rr : List (Nat × Nat × Nat) := []
  queues : List QueueReg := []
  packets : List Packet := []
  engines : List Engine := []
  fns : List Fn := []
  parts : List Partition := []
  islands : List Island := List.replicate 16 {}
  splits : SMap Nat := []
  draining : List (Nat × Nat) := []
  leftScratch : List ((Nat × Nat × Nat) × List (Nat × Byte)) := []
  spares : List (Nat × Nat) := []
  decoders : List Decoder := []
  lostPorts : List Nat := []
  rings : SMap Nat := []
  heaters : SMap Nat := []
  diodes : SMap Nat := []
  temps : SMap Nat := []
  hot : SMap Nat := []
  saved : List Saved := []
  narcy : Narcy := {}
  cxlCache : Bool := true
  link : Nat × Nat := (64, 16)
  thermtrip : Bool := false
  deviceNumber : Nat := 0
  peers : List (Nat × Nat × (List Nat × Nat)) := []
  deriving DecidableEq, Repr

/-- A machine stop. -/
inductive Fault where
  /-- Raised by step alone, when the package is unpowered and no input is due: nothing on the device runs (R297). Safe:
  the device does nothing either. -/
  | unpowered
  deriving DecidableEq, Repr

/-- A refusal. -/
inductive Refusal where
  /-- Raised by an arm of exec for an instruction that has no meaning yet. Safe: the model stops. -/
  | notModelled (mnemonic : String)
  deriving DecidableEq, Repr

/-- What a meaning answers. -/
abbrev Out := Host.Outcome State Fault Refusal

/-- The machine right after reset (R4 to R303 as the log names each field): one partition of all sixteen islands with its physical
function and no queue, nothing resident, memory with nothing listed, every register at its reset value. -/
def State.reset : State :=
  { parts := [{ id := 0, islands := List.range 16 }]
    fns := { part := 0, num := 64 } :: (List.range 64).map fun v => { part := 0, num := v } }

end Sys2Proof.Machine
end

