-- ==== Sys2Proof/Machine/Mem.lean ====
section
/-! DEFINITION. Sparse maps, bytes, the address windows (R154), the homes (R156, R160), translation (R162 to R166), the
slice lines with their replacement (R168 to R170), and one access at a home. -/

namespace Sys2Proof.Machine

/-- The value at key k; d where nothing is listed. -/
def sget {α : Type} (d : α) : SMap α → Nat → α
  | [], _ => d
  | (k', v) :: r, k => if k = k' then v else sget d r k

/-- Write v at key k, keeping the canonical form: writing d removes the entry. -/
def sput {α : Type} [DecidableEq α] (d : α) : SMap α → Nat → α → SMap α
  | [], k, v => if v = d then [] else [(k, v)]
  | (k', v') :: r, k, v =>
    if k < k' then (if v = d then (k', v') :: r else (k, v) :: (k', v') :: r)
    else if k = k' then (if v = d then r else (k, v) :: r)
    else (k', v') :: sput d r k v

/-- The canonical form: keys strictly rising from lo on, no entry equal to d. -/
def swfFrom {α : Type} [DecidableEq α] (d : α) : Nat → SMap α → Bool
  | _, [] => true
  | lo, (k, v) :: r => decide (lo ≤ k) && decide (v ≠ d) && swfFrom d (k + 1) r
def swf {α : Type} [DecidableEq α] (d : α) (m : SMap α) : Bool := swfFrom d 0 m

/-- Memory's canonical form: an unlisted byte reads zero. -/
def Memory.wf (m : List Host.Cell) : Bool := swf (0 : Byte) m

def bget (m : SMap Byte) (a : Nat) : Byte := sget 0 m a
def bput (m : SMap Byte) (a : Nat) (v : Byte) : SMap Byte := sput 0 m a v
/-- n bytes from address a. -/
def bytesAt (m : SMap Byte) (a : Nat) : Nat → List Byte
  | 0 => []
  | n + 1 => bget m a :: bytesAt m (a + 1) n
/-- Write the bytes from address a on. -/
def putBytes (m : SMap Byte) (a : Nat) : List Byte → SMap Byte
  | [] => m
  | b :: r => putBytes (bput m a b) (a + 1) r

/-- A little-endian number (R6). -/
def natOfBytes : List Byte → Nat
  | [] => 0
  | b :: r => b.toNat + 256 * natOfBytes r
/-- The n little-endian bytes of v. -/
def bytesOfNat : Nat → Nat → List Byte
  | 0, _ => []
  | n + 1, v => BitVec.ofNat 8 (v % 256) :: bytesOfNat n (v / 256)

/-- The field [hi:lo] of v. -/
def bits (v hi lo : Nat) : Nat := v / 2 ^ lo % 2 ^ (hi + 1 - lo)
/-- Sign extension of the low n bits of v to an integer. -/
def sextInt (v n : Nat) : Int := if v % 2 ^ n < 2 ^ (n - 1) then (v % 2 ^ n : Int) else (v % 2 ^ n : Int) - 2 ^ n

/-- Replace the first element that satisfies p. -/
def replaceFirst {α : Type} (p : α → Bool) (f : α → α) : List α → List α
  | [] => []
  | x :: r => if p x then f x :: r else x :: replaceFirst p f r

/-- Insert x before the first element that le puts at or after it; sort a list so, equal elements staying in order. -/
def insertBy {α : Type} (le : α → α → Bool) (x : α) : List α → List α
  | [] => [x]
  | y :: r => if le x y then x :: y :: r else y :: insertBy le x r
def sortBy {α : Type} (le : α → α → Bool) : List α → List α
  | [] => []
  | x :: r => insertBy le x (sortBy le r)

/-- The first n that satisfies p among lo, lo+1, ..., at most k of them. -/
def firstFrom (p : Nat → Bool) : Nat → Nat → Option Nat
  | _, 0 => none
  | lo, k + 1 => if p lo then some lo else firstFrom p (lo + 1) k

/-- The windows of bits [56:0] (R154). -/
inductive Window where
  | global | vault (v : Nat) | scratch (off : Nat)
  deriving DecidableEq, Repr

def vaultBase : Nat := 0x100000000000000
def scratchBase : Nat := 0x180000000000000
def vaultSize : Nat := 0x8000000

/-- The window of an address; none where bits [63:57] are nonzero or the address is unassigned. -/
def window (a : Nat) : Option Window :=
  if a < vaultBase then some .global
  else if a < vaultBase + 192 * vaultSize then some (.vault ((a - vaultBase) / vaultSize))
  else if scratchBase ≤ a ∧ a < scratchBase + 0xA0000 then some (.scratch (a - scratchBase))
  else none

def Window.isVault : Window → Bool
  | .vault _ => true
  | _ => false

/-- Clusters and islands (R15). -/
def dieOf (cluster : Nat) : Nat := cluster / 48
def islandOf (cluster : Nat) : Nat := 4 * (cluster / 48) + cluster % 48 / 12

def State.part? (s : State) (p : Nat) : Option Partition := s.parts.find? (·.id == p)
def State.setPart (s : State) (p : Nat) (f : Partition → Partition) : State :=
  { s with parts := s.parts.map fun x => if x.id = p then f x else x }
def State.fn? (s : State) (p n : Nat) : Option Fn := s.fns.find? fun f => f.part == p && f.num == n
def State.setFn (s : State) (p n : Nat) (f : Fn → Fn) : State :=
  { s with fns := s.fns.map fun x => if x.part = p ∧ x.num = n then f x else x }
def State.asid (s : State) (p n : Nat) : Nat := ((s.fn? p n).map (·.asid.toNat)).getD 0
def Partition.clusters (p : Partition) : List Nat := (List.range 192).filter fun c => p.islands.contains (islandOf c)
def State.hasVault (s : State) (p v : Nat) : Bool := ((s.part? p).map fun x => x.islands.contains (islandOf v)).getD false

/-- The home slice of a global address (R160). -/
def homeSlice (a : Nat) : Nat :=
  bits a 13 6 ^^^ bits a 21 14 ^^^ bits a 29 22 ^^^ bits a 37 30 ^^^ bits a 45 38 ^^^ bits a 53 46 ^^^ bits a 56 54

/-- The decoder of a pooled physical address (R289). -/
def State.decoder? (s : State) (pa : Nat) : Option Decoder := s.decoders.find? fun d => d.base ≤ pa && pa < d.base + d.size
/-- The port a pooled address lies behind. -/
def Decoder.port (d : Decoder) (pa : Nat) : Nat := d.ports.getD ((pa - d.base) / 4096 % d.ways) 0

/-- May a physical address be read or written: host memory needs CXL.cache, a pooled address lies below 64 TiB in a decoder
(R17, R162, R285, R289). -/
def State.physOk (s : State) (pa : Nat) : Bool :=
  if 2 ^ 47 ≤ pa then s.cxlCache else decide (pa < 2 ^ 46) && (s.decoder? pa).isSome
/-- Does the physical address answer poison (R289)? -/
def State.physLost (s : State) (pa : Nat) : Bool :=
  if 2 ^ 47 ≤ pa then false else ((s.decoder? pa).map fun d => s.lostPorts.contains (d.port pa)).getD false
/-- Is a physical address in an entry of a partition's share table (R291)? -/
def State.sharedAt (s : State) (part pa : Nat) : Bool :=
  ((s.part? part).map fun p => p.share.any fun x => decide (x.1 ≤ pa) && decide (pa < x.1 + x.2.1)).getD false
/-- Is the line at a physical address homed on another device (R291)? Its bytes then stand in memory for this one. -/
def State.foreign (s : State) (part pa : Nat) : Bool :=
  ((s.part? part).map fun p => p.share.any fun x =>
    decide (x.1 ≤ pa) && decide (pa < x.1 + x.2.1) && x.2.2 != s.deviceNumber).getD false

/-- What a walk ends in. -/
inductive Walk where
  | ok (x : Xlat) (big : Bool)
  | fail (c : Cause)
  | wait
  deriving DecidableEq, Repr

/-- The bytes that a frame release in progress takes: where they begin and how many. A RELEASEPA that is no multiple of the frame's size
names the frame that it lies in (DESIGN CHOICE: R172 does not say; log entry 55). -/
def Fn.relRange (f : Fn) : Nat × Nat :=
  let z := if f.rel.toNat % 2 = 1 then 2 ^ 21 else 2 ^ 16
  (f.relAt.toNat * 65536 / z * z, z)
/-- Is any part of the page under a frame release (R172)? -/
def State.underRelease (s : State) (pa size : Nat) : Bool :=
  s.fns.any fun f =>
    let x := f.relRange
    f.relBusy && pa < x.1 + x.2 && x.1 < pa + size

/-- A leaf entry (R164) at level 0 or, with LEAF set, at level 1. PFN bits [20:16] of a 2 MiB leaf that are not zero raise
TRANSLATION_FAULT like a reserved bit (DESIGN CHOICE: R164 says that they are zero and names no fault for them). -/
def leafEntry (s : State) (e va : Nat) (big : Bool) : Walk :=
  let reserved := bits e 60 48 ≠ 0 ∨ bits e 15 5 ≠ 0 ∨ (big ∧ bits e 20 16 ≠ 0)
  if reserved then .fail .translationFault else
  let frame := bits e 47 16 * 65536
  let size := if big then 2 ^ 21 else 2 ^ 16
  if s.underRelease frame size then .wait else
  .ok { pa := frame + va % size, u := bits e 4 4 = 1, w := bits e 2 2 = 1, x := bits e 3 3 = 1, cls := bits e 63 61 } big

/-- The walk of R162 from a table at physical address t at the given level, on the fuel of the levels left. -/
def walkFrom (s : State) (va : Nat) : Nat → Nat → Nat → Walk
  | 0, _, _ => .fail .translationFault
  | fuel + 1, level, t =>
    let i := match level with
      | 4 => bits va 56 48 | 3 => bits va 47 39 | 2 => bits va 38 30 | 1 => bits va 29 21 | _ => bits va 20 16
    let pa := t + 8 * i
    if !s.physOk pa then .fail .illegalAddress
    else if s.physLost pa then .fail .uncorrectable else
    let e := natOfBytes (bytesAt s.mem pa 8)
    if bits e 0 0 = 0 then .fail .translationFault
    else if bits e 1 1 = 1 then
      (if level = 0 then leafEntry s e va false else if level = 1 then leafEntry s e va true else .fail .translationFault)
    else if level = 0 then .fail .translationFault
    else
      let next := bits e 47 8 * 256
      if bits e 63 48 ≠ 0 ∨ bits e 7 2 ≠ 0 ∨ (1 < level ∧ next % 4096 ≠ 0) then .fail .translationFault
      else walkFrom s va fuel (level - 1) next

/-- The walk of a function's page table (R162). -/
def walk (s : State) (part fn va : Nat) : Walk :=
  match s.fn? part fn with
  | none => .fail .translationFault
  | some f => walkFrom s va 5 4 (f.ptroot.toNat * 65536)

/-- A physical address found must itself be reachable (R162, R285). -/
def walkReach (s : State) (part fn va : Nat) : Walk :=
  match walk s part fn va with
  | .ok x big => if s.physOk x.pa then .ok x big else .fail .illegalAddress
  | r => r

/-- The translation that a TLB entry holds for an address (R162). -/
def tlbFind (s : State) (asid va : Nat) : Option Xlat :=
  (s.tlb.find? fun e => e.asid == asid && (if e.big then e.page == va / 2 ^ 21 else e.page == va / 2 ^ 16)).map fun e =>
    { e.xlat with pa := e.xlat.pa + va % (if e.big then 2 ^ 21 else 2 ^ 16) }

/-- The translation of an access that misses: an entry that a TLB holds, else a walk (R162). -/
def translate (s : State) (part fn va : Nat) : Walk :=
  match tlbFind s (s.asid part fn) va with
  | some x => if s.physOk x.pa then .ok x false else .fail .illegalAddress
  | none => walkReach s part fn va

/-- Who makes an access. -/
structure Who where
  part : Nat
  fn : Nat
  sup : Bool
  deriving DecidableEq, Repr

inductive Access where | read | write | fetch deriving DecidableEq, Repr

/-- The permission check of R165. -/
def permitted (u w x : Bool) (sup : Bool) (a : Access) : Bool :=
  (u || sup) && match a with | .read => true | .write => w | .fetch => x

def State.line? (s : State) (asid va : Nat) : Option Line := s.lines.find? fun l => l.asid == asid && l.line == va / 64
def State.setLine (s : State) (asid line : Nat) (f : Line → Line) : State :=
  { s with lines := s.lines.map fun l => if l.asid = asid ∧ l.line = line then f l else l }

/-- Where a byte stands when an access reaches its home. -/
inductive Spot where
  | vault
  | line (l : Line)
  | phys (x : Xlat)
  deriving DecidableEq, Repr

/-- The checks of R155 from 3 on for a byte at its home, and where the byte stands. Scratch is never at a home. -/
def spot (s : State) (who : Who) (va : Nat) (a : Access) : Except Cause Spot :=
  match window va with
  | none => .error .illegalAddress
  | some (.scratch _) => .error .illegalAddress
  | some (.vault v) => if s.hasVault who.part v then .ok .vault else .error .protectionFault
  | some .global =>
    match s.line? (s.asid who.part who.fn) va with
    | some l =>
      if !permitted l.u l.w l.x who.sup a then .error .protectionFault
      else if !s.physOk l.pa then .error .illegalAddress
      else if l.poison then .error .uncorrectable else .ok (.line l)
    | none =>
      match translate s who.part who.fn va with
      | .fail c => .error c
      | .wait => .error .translationFault
      | .ok x _ =>
        if !permitted x.u x.w x.x who.sup a then .error .protectionFault
        else if s.physLost x.pa then .error .uncorrectable else .ok (.phys x)

/-- The physical address at which a byte of the global window stands for a reader, where it may read it. -/
def physAt (s : State) (who : Who) (va : Nat) : Option Nat :=
  match spot s who va .read with
  | .ok (.line l) => some (l.pa + va % 64)
  | .ok (.phys x) => some x.pa
  | _ => none

/-- One byte read at its home. -/
def homeByte (s : State) (who : Who) (va : Nat) (a : Access) : Except Cause Byte :=
  (spot s who va a).map fun
    | .vault => bget s.mem va
    | .line l => l.bytes.getD (va % 64) 0
    | .phys x => bget s.mem x.pa

/-- n bytes read at their homes; a failure carries its address. -/
def homeRead (s : State) (who : Who) (va : Nat) (a : Access) : Nat → Except (Nat × Cause) (List Byte)
  | 0 => .ok []
  | n + 1 =>
    match homeByte s who va a with
    | .error c => .error (va, c)
    | .ok b => (homeRead s who (va + 1) a n).map (b :: ·)

/-- Queue an invalidation of a line to every cluster whose L1 holds a block of it, but for one (R189, R191). -/
def invalidate (s : State) (but : Option Nat) (asid : Option Nat) (line : Nat) : State :=
  let holds (c : Nat) : Bool := s.blocks.any fun b =>
    b.cluster == c && b.asid == asid && decide (b.base < 64 * line + 64) && decide (64 * line < b.base + b.bytes.length)
  let cs := ((s.blocks.map (·.cluster)).eraseDups).filter fun c => holds c && but != some c
  cs.foldl (fun s c =>
    let q := (s.invals.find? (·.1 == c)).map (·.2) |>.getD []
    let rest := s.invals.filter (·.1 != c)
    { s with invals := (c, q ++ [{ num := s.next, asid := asid, line := line }]) :: rest, next := s.next + 1 }) s

/-- The L1 blocks of a cluster that hold a byte of a range leave it. -/
def dropBlocks (s : State) (cluster : Nat) (tag : Option Nat) (a n : Nat) : State :=
  { s with blocks := s.blocks.filter fun b => !(b.cluster == cluster && b.asid == tag && decide (b.base < a + n)
      && decide (a < b.base + b.bytes.length)) }

/-- The tag an address carries in L1 and in the pin table: the ASID for a global address, none for a vault address. -/
def tagOf (s : State) (part fn va : Nat) : Option Nat :=
  if va < vaultBase then some (s.asid part fn) else none

/-- The replacement class in force for a fill (R168, R169). -/
def rclass (s : State) (part cls : Nat) : Word := ((s.part? part).map fun p => sget 0xFFFF p.rclass cls).getD 0xFFFF
/-- Does the class not allocate (R168)? -/
def noAllocate (r : Word) : Bool := bits r.toNat 19 18 == 2 || bits r.toNat 15 0 == 0

/-- Is a line write-through? A hit under a class that does not allocate acts as write-back (R170). -/
def writeThrough (r : Word) : Bool := bits r.toNat 19 18 == 1 && !noAllocate r

/-- One byte written at its home. A write-through line also writes memory (R170). -/
def homePutByte (s : State) (who : Who) (va : Nat) (b : Byte) : Except Cause State :=
  (spot s who va .write).map fun
    | .vault => { s with mem := bput s.mem va b }
    | .line l =>
      let wt := writeThrough (rclass s l.part l.cls)
      let s := s.setLine l.asid l.line fun l =>
        { l with bytes := l.bytes.set (va % 64) b, dirty := l.dirty || !wt }
      if wt then { s with mem := bput s.mem (l.pa + va % 64) b } else s
    | .phys x => { s with mem := bput s.mem x.pa b }

/-- Bytes written at their homes from va on; bytes before a failure stand. -/
def homePut (s : State) (who : Who) (va : Nat) : List Byte → State × Option (Nat × Cause)
  | [] => (s, none)
  | b :: r =>
    match homePutByte s who va b with
    | .error c => (s, some (va, c))
    | .ok s' => homePut s' who (va + 1) r

/-- A write at its home as one move: every byte or, when one is refused, none; the invalidations are queued (R189). A store of
software to the RO and RSV fields of a queue or chain header in memory (R229, R245) lands as any other (DESIGN CHOICE: R7
does not say whether its access codes make memory ignore such a store). -/
def homeWrite (s : State) (who : Who) (but : Option Nat) (va : Nat) (bs : List Byte) : Except (Nat × Cause) State :=
  match homePut s who va bs with
  | (_, some e) => .error e
  | (s', none) =>
    let tag := tagOf s who.part who.fn va
    let s' := invalidate s' but tag (va / 64)
    if (va + bs.length - 1) / 64 = va / 64 ∨ bs.isEmpty then .ok s'
    else .ok (((List.range ((va + bs.length - 1) / 64 - va / 64)).map (va / 64 + 1 + ·)).foldl
      (fun s l => invalidate s but tag l) s')

/-- Would the walk for some page of a range wait for a frame release (R172)? -/
def releaseWait (s : State) (part fn va len : Nat) : Bool :=
  s.fns.any (·.relBusy) && (List.range ((va + len - 1) / 65536 + 1 - va / 65536)).any fun k =>
    let a := (va / 65536 + k) * 65536
    decide (a < vaultBase) && match translate s part fn a with | .wait => true | _ => false
/-- Is an access held back: by a pinned line (R199), or by a frame release (R172)? accs names the access itself and those
it carries: what a pin covers goes to its home. A commit's locks (R222) are taken and freed within one step and hold nothing
back. -/
def heldBack (s : State) (accs : List Nat) (part fn va len : Nat) : Bool :=
  let tag := tagOf s part fn va
  s.pins.any (fun p => p.asid == tag && !accs.any p.accs.contains && decide (va / 64 ≤ p.line)
    && decide (p.line ≤ (va + len - 1) / 64)) || releaseWait s part fn va len

/-- The slice set a line falls in: 2,048 sets of 16 ways for each slice (R17). Which bits of the address select the set is
not given: bits [24:14] here (DESIGN CHOICE). -/
def setOf (va : Nat) : Nat × Nat := (homeSlice va, va / 16384 % 2048)
def Line.set_ (l : Line) : Nat × Nat := setOf (64 * l.line)

/-- Age every line of the set within the ways until one has age 3 (R169). -/
def ageSet (s : State) (set_ : Nat × Nat) (ways : Nat) : State :=
  let inWays (l : Line) : Bool := l.set_ == set_ && bits ways l.way l.way == 1
  let oldest := (s.lines.filter inWays).foldl (fun m l => max m l.age) 0
  { s with lines := s.lines.map fun l => if inWays l then { l with age := l.age + (3 - oldest) } else l }

/-- The key of a page counter (R186): address space, port, page, source device. -/
def hotKey (asid port page src : Nat) : Nat := ((asid * 64 + port) * 2 ^ 41 + page) * 256 + src
/-- A port counts an access that it carries for this device, while its partition counts (R186): a CXL port, or for a line
homed on another device a Grenfort port, all of which count as number 48. -/
def countPort (s : State) (part asid va pa : Nat) : State :=
  if ((s.part? part).map (·.hotThr)).getD 0 = 0 ∨ 2 ^ 47 ≤ pa then s else
  match s.decoder? pa with
  | none => s
  | some d => let k := hotKey asid (if s.foreign part pa then 48 else d.port pa) (va / 65536) 255
              { s with hot := sput 0 s.hot k (sget 0 s.hot k + 1) }

/-- Write a dirty line to memory (FILL of R189). -/
def writeBack (s : State) (l : Line) : State :=
  if l.dirty then
    let s := countPort s l.part l.asid (64 * l.line) l.pa
    { s with mem := putBytes s.mem l.pa l.bytes
             lines := s.lines.map fun x => if x.asid = l.asid ∧ x.line = l.line then { x with dirty := false } else x }
  else s

/-- Fill a line for an access (R169, R170): the victim leaves, written back when dirty. atomic selects the fill of an
atomic whose class does not allocate. -/
def fillLine (s : State) (asid part va : Nat) (x : Xlat) (cls : Nat) (nt atomic : Bool) : State :=
  let r := rclass s part cls
  let bypass := noAllocate r && atomic
  let ways := if bypass then 0xFFFF else bits r.toNat 15 0
  let set_ := setOf va
  let used := (s.lines.filter fun l => l.set_ == set_).map (·.way)
  let allowed := (List.range 16).filter fun w => bits ways w w == 1
  let pick (s : State) (way : Nat) : State :=
    let line : Line := { asid := asid, part := part, line := va / 64, pa := x.pa / 64 * 64
                         bytes := bytesAt s.mem (x.pa / 64 * 64) 64, cls := cls, way := way
                         age := if bypass || nt then 3 else bits r.toNat 17 16
                         u := x.u, w := x.w, x := x.x, poison := s.physLost x.pa }
    let s := countPort s part asid va x.pa
    { s with lines := line :: s.lines }
  match allowed.find? fun w => !used.contains w with
  | some way => pick s way
  | none =>
    let s := ageSet s set_ ways
    match allowed.find? fun w => s.lines.any fun l => l.set_ == set_ && l.way == w && l.age == 3 with
    | none => s
    | some way =>
      match s.lines.find? fun l => l.set_ == set_ && l.way == way with
      | none => pick s way
      | some v =>
        let s := writeBack s v
        pick { s with lines := s.lines.filter fun l => !(l.asid == v.asid && l.line == v.line) } way

/-- Does an access of a class fill its line in its slice: an atomic always, another one unless the class does not allocate
(R170); a line homed on another device never (R291). -/
def allocates (s : State) (part pa cls : Nat) (atomic : Bool) : Bool :=
  !s.foreign part pa && (atomic || !noAllocate (rclass s part cls))
/-- What an access at the home of one line does besides moving its bytes: a hit sets the age to 0, a miss fills the line or
passes its port (R169, R170, R186). cls and nt come from its HINT.MOD. An access that will be refused does nothing. -/
def touchHome (s : State) (who : Who) (cls : Option Nat) (nt : Bool) (a : Access) (va : Nat) : State :=
  match window va with
  | some .global =>
    let asid := s.asid who.part who.fn
    match s.line? asid va with
    | some l =>
      let s := if a = .write ∧ writeThrough (rclass s l.part l.cls) then countPort s who.part asid va l.pa else s
      s.setLine asid (va / 64) fun l => { l with age := 0 }
    | none =>
      match translate s who.part who.fn va with
      | .ok x _ =>
        if !permitted x.u x.w x.x who.sup a then s
        else if allocates s who.part x.pa (cls.getD x.cls) false then fillLine s asid who.part va x (cls.getD x.cls) nt false
        else countPort s who.part asid va x.pa
      | _ => s
  | _ => s
/-- The same for each line of n bytes. -/
def touchHomes (s : State) (who : Who) (cls : Option Nat) (nt : Bool) (a : Access) (va n : Nat) : State :=
  ((List.range ((va + n + 63) / 64 - va / 64)).map fun i => 64 * (va / 64 + i)).foldl (touchHome · who cls nt a ·) s

/-- The same for the lines of a list of addresses. -/
def touchEach (s : State) (who : Who) (a : Access) (addrs : List Nat) : State :=
  ((addrs.map (· / 64)).eraseDups).foldl (fun s l => touchHome s who none false a (64 * l)) s

/-- The 64-bit and 32-bit words read at a home. -/
def homeNat (s : State) (who : Who) (va n : Nat) : Except (Nat × Cause) Nat := (homeRead s who va .read n).map natOfBytes

end Sys2Proof.Machine
end

