-- ==== Sys2Proof/WellFormed.lean ====
section
/-! DEFINITION. Which terms of Instr are words of the instruction set: the name limits of R111 and R112, the literal
ranges of R126 to R130, the hint payloads of R122 and R123, the system register numbers of R348. -/

namespace Sys2Proof

/-- A 32-bit destination that may be a frame slot (R111). -/
def Name.isDst : Name → Bool
  | .w _ => true
  | .slot _ _ => true
  | _ => false
/-- A destination name from 0 to 31 (R111, "dst" of R128). -/
def Name.isWin : Name → Bool
  | .w _ => true
  | _ => false
/-- An even window name (R112, "dst, even" of R128). -/
def Name.isEven : Name → Bool
  | .w n => n.val % 2 == 0
  | _ => false
/-- A pair as a source: an even window name or an even uniform name (R112). -/
def Name.isPair : Name → Bool
  | .w n => n.val % 2 == 0
  | .k n => n.val % 2 == 0
  | _ => false
/-- A quad: a window register whose number is a multiple of 4 (R112). -/
def Name.isQuad : Name → Bool
  | .w n => n.val % 4 == 0
  | _ => false

/-- The destination limit of a form that is 32 or 64 bits wide and accepts frame slots. -/
def dstOf : Wd → Name → Bool
  | .b32, d => d.isDst
  | .b64, d => d.isEven
/-- The same for AND, ANDN, OR, XOR, whose 32-bit destination is a window register (R111). -/
def winOf : Wd → Name → Bool
  | .b32, d => d.isWin
  | .b64, d => d.isEven
def srcOf : Wd → Name → Bool
  | .b32, _ => true
  | .b64, a => a.isPair

def AddF.wd : AddF → Wd
  | .b64 => .b64
  | _ => .b32
def MinF.wd : MinF → Wd
  | .s32 | .z32 => .b32
  | .s64 | .z64 => .b64

def Width.dataDst : Width → Name → Bool
  | .b64, d => d.isEven
  | .b128, d => d.isQuad
  | _, d => d.isWin
def Width.dataSrc : Width → Name → Bool
  | .b64, d => d.isPair
  | .b128, d => d.isQuad
  | _, _ => true
/-- The width of an atomic operation (R207). -/
def AtomOp.wd : AtomOp → Wd
  | .add64 | .exch64 | .and64 | .or64 | .xor64 => .b64
  | _ => .b32
def AtomOp.isExch : AtomOp → Bool
  | .exch32 | .exch64 => true
  | _ => false
def Wd.bytes : Wd → Nat
  | .b32 => 4
  | .b64 => 8

/-- A condition whose predicate is p1 to p7 (R117, R130). -/
def Cond.wf : Cond → Bool
  | .always => true
  | .ifTrue p => p.val != 0
  | .ifFalse p => p.val != 0

/-- The limits of n by kind (R123). -/
def Pat.wf (p : Pat) : Bool :=
  match p.kind with
  | .rot | .xor => p.n.val != 0
  | .bc => true
  | .mirg => p.n.val == 2 || p.n.val == 4 || p.n.val == 8 || p.n.val == 16

/-- The register's width, or none when no register has that number (R348). -/
def sysregWd (n : Nat) : Option Wd :=
  if n = 0x70 ∨ n = 0x80 ∨ n = 0x8A ∨ n = 0x90 then some .b64
  else if (0x10 ≤ n ∧ n ≤ 0x13) ∨ (0x40 ≤ n ∧ n ≤ 0x45) ∨ (0x50 ≤ n ∧ n ≤ 0x5D) ∨ (0x60 ≤ n ∧ n ≤ 0x62)
      ∨ n = 0x71 ∨ n = 0x81 ∨ (0x83 ≤ n ∧ n ≤ 0x89) ∨ n = 0x91 ∨ n = 0x100 ∨ (0x110 ≤ n ∧ n ≤ 0x143)
  then some .b32 else none

def sysDst (n : Nat) (d : Name) : Bool :=
  match sysregWd n with
  | some .b32 => d.isWin
  | some .b64 => d.isEven
  | none => false
def sysSrc (n : Nat) (a : Name) : Bool :=
  match sysregWd n with
  | some .b32 => true
  | some .b64 => a.isPair
  | none => false

/-- The well-formed instructions. An event has no bits and is always well formed. -/
def Instr.wf : Instr → Bool
  | .iadd f d a b | .isub f d a b => dstOf f.wd d && srcOf f.wd a.name && srcOf f.wd b.name
  | .imul f d a b => dstOf f d && srcOf f a.name && srcOf f b.name
  | .imulh _ d _ _ => d.isDst
  | .imad f d _ _ => (match f with | .b32 => d.isDst | _ => d.isEven)
  | .imin f d a b | .imax f d a b => dstOf f.wd d && srcOf f.wd a.name && srcOf f.wd b.name
  | .and f d a b | .or f d a b | .xor f d a b | .andn f d a b => winOf f d && srcOf f a.name && srcOf f b.name
  | .shl f d a _ | .shr f d a _ | .sar f d a _ => dstOf f d && srcOf f a.name
  | .popc f d a | .clz f d a => d.isWin && srcOf f a.name
  | .brev d _ => d.isWin
  | .iabs f d a => winOf f d && srcOf f a.name
  | .bfx _ d _ _ | .bfi d _ _ => d.isWin
  | .icmp f _ _ a b => srcOf f.wd a.name && srcOf f.wd b.name
  | .sel _ d _ _ => d.isDst
  | .mov f d a => dstOf f d && srcOf f a.name
  | .movKr d _ | .movi _ d _ => d.isDst
  | .lea _ d a _ => d.isEven && a.name.isPair
  | .idot4 _ d _ _ => d.isDst
  | .fadd _ d _ _ | .fsub _ d _ _ | .fmul _ d _ _ | .ffma _ d _ _ | .fmin _ d _ _ | .fmax _ d _ _ => d.isDst
  | .frcp d _ | .frsq d _ | .fsqrt d _ | .fexp2 d _ | .flog2 d _ => d.isWin
  | .frnd _ d _ => d.isDst
  | .fcvt c sr d _ => d.isDst && (!sr || c == .f2bl || c == .f2bh)
  | .fdot2 d _ _ => d.isDst
  | .qcvt _ d _ _ _ | .qdeq _ d _ _ _ | .draw _ d | .sample d _ _ | .topk d _ _ => d.isWin
  | .ld w _ d b _ => w.dataDst d && b.isPair
  | .st w _ d b _ => w.dataSrc d && b.isPair
  | .ldx w _ d b _ => winOf w d && b.isPair
  | .stc w _ d b _ => srcOf w d && b.isPair
  | .atom op c _ d b v => winOf op.wd d && b.isPair && srcOf op.wd v && !(c && op.isExch)
  | .red op _ _ b v => b.isPair && srcOf op.wd v && !op.isExch
  | .cas w _ d b v => winOf w d && b.isPair && srcOf w v
  | .fence e m s => e || m || s != .plain
  | .mfs d n => sysDst n d
  | .mts a n => sysSrc n a
  | .clk d => d.isEven
  | .spill a | .fill a => a.isPair
  | .tbegin d => d.isWin
  | .fenter d _ _ => d.isWin
  | .fleave n => n.val != 0
  | .fld d _ _ _ => d.isWin
  | .fork d a => d.isWin && a.isPair
  | .ballot d _ | .matchv d _ | .compact d _ _ => d.isWin
  | .mdecl d b _ => d.isWin && b.isPair
  | .mrd d _ _ => d.isWin
  | .mst _ b _ => b.isPair
  | .proof _ b _ => b.isPair
  | .sti _ b => b.isPair
  | .tqpush d _ b => d.isWin && b.isPair
  | .tqpop d _ _ => d.isWin
  | .draft _ b _ => b.isPair
  | .qpost d b _ | .ecmd d b _ => d.isWin && b.isPair
  | .ewait b _ => b.isPair
  | .sgnl b c => b.isPair && c.isPair
  | .waits d b c => d.isEven && b.isPair && c.isPair
  | .gather _ b _ | .scatter _ b _ => b.isPair
  | .sdef _ b _ => b.isPair
  | .recv d _ => d.isWin
  | .jmp b => b.isPair
  | .bra c _ | .call c _ => c.wf
  | .clause _ _ _ g => g.wf
  | .hintPerm pa pb => (pa.all Pat.wf) && (pb.all Pat.wf)
  | .hintMod r c nt => r != .none || c.isSome || nt
  | _ => true

/-- Is the instruction a 32-bit word of the instruction set (and not an event)? The events are the constructors from
leave on. -/
def Instr.isWord : Instr → Bool
  | .leave _ | .forward _ | .requestSend _ | .combine _ _ | .combineWindowExpiry _ | .arrive _ _ _ | .reply _ _
  | .deliverInval _ | .lineFill _ | .tlbWalk _ _ | .pinTimeout _ | .fenceDone _ _ | .escape _ | .engineAcq _
  | .engineRel _ | .engineCompletion _ | .engineNop _ | .engineCopy _ | .engineMcast _ | .engineFill _
  | .engineGather _ | .engineColl _ _ | .engineSgnl _ | .collMemberFailure _ _ | .streamRunaheadRead _ _ _
  | .clauseWaitEnd _ _ | .longLatencyComplete _ _ | .matrixFault _ | .proofSnapshot _ | .regroupTimeout _ _ _
  | .watchdog _ _ | .trapEntry _ _ | .settleCommit _ | .plateDispatch _ _ | .cellDispatch _ _ | .fairtExpiry _ _
  | .clusterSplitSwitch _ | .packetRead _ | .packetBarRelease _ | .gridPacket _ | .platePacket _ | .barrierPacket _
  | .barrierSignalRead _ _ | .unplatePacket _ | .packetNop _ | .packetComplete _ | .dvfsSettled _
  | .doorbellWrite _ _ _ _ _ | .queueRegister _ | .queueUnregister _ | .queueClearAbort _ | .chainRegister _
  | .chainUnregister _ | .queueCmdComplete _ | .memShoot _ _ | .shootComplete _ _ | .frameRelease _ _
  | .frameReleaseComplete _ _ | .arithStatusRc _ | .mxStatusRc _ | .ordPintoWrite _ _ | .vfQuantumWrite _ _
  | .vfReset _ _ | .pcieFunctionLevelReset _ _ | .functionResetComplete _ _ | .collLoad _ | .collClear _
  | .photHeatWrite _ _ _ | .photMapWrite _ _ _ | .photMpdSample _ _ | .sysregWrite _ _ _ | .hotThreshold _ _ _ _ _
  | .sliceExpiry _ | .contextSwap _ | .contextStaging _ | .partFailure _ | .poolDeviceLost _
  | .islandStateChange _ _ | .currentThrottle | .currentStepUp | .thermalStepDown _ | .thermalStepUp _
  | .thermalEmergency | .thermtrip | .powerUp | .attestationRequest _ | .hostVaultAccess _ _ _ _
  | .hostLinkTraining _ _ _ | .hostSnoop _ | .powerDown | .partitionReset _ => false
  | _ => true

end Sys2Proof
end

