-- ==== Sys2Proof/Machine/Operands.lean ====
section
/-! DEFINITION. Fibres and their registers, the issuing group, and every operand form: names, permutations, queues,
frame slots (R44 to R55, R109 to R114, R180, R205). -/

namespace Sys2Proof.Machine

def State.cell? (s : State) (c : Nat) : Option Cell := s.cells.find? (·.id == c)
def State.setCell (s : State) (c : Nat) (f : Cell → Cell) : State :=
  { s with cells := s.cells.map fun x => if x.id = c then f x else x }
def Cell.fibre? (c : Cell) (i : Nat) : Option Fibre := c.fibres.find? (·.idx == i)
def Cell.setFibre (c : Cell) (i : Nat) (f : Fibre → Fibre) : Cell :=
  { c with fibres := c.fibres.map fun x => if x.idx = i then f x else x }
def State.setFibre (s : State) (r : FRef) (f : Fibre → Fibre) : State := s.setCell r.cell fun c => c.setFibre r.idx f
/-- Change every fibre of a cell. -/
def State.mapFibres (s : State) (c : Nat) (f : Fibre → Fibre) : State :=
  s.setCell c fun x => { x with fibres := x.fibres.map f }
def State.fibre? (s : State) (r : FRef) : Option Fibre := (s.cell? r.cell).bind (·.fibre? r.idx)
def State.launch? (s : State) (l : Nat) : Option Launch := s.launches.find? (·.id == l)
def State.setLaunch (s : State) (l : Nat) (f : Launch → Launch) : State :=
  { s with launches := s.launches.map fun x => if x.id = l then f x else x }
/-- The quadrant of a fibre (R25). -/
def quadOf (cluster idx : Nat) : Nat := 4 * cluster + idx / 32 % 4
def Cell.who (c : Cell) (sup : Bool) : Who := ⟨c.part, c.fn, sup⟩

/-- Window register wn (R24, R97): register n of the window at the fibre's base. -/
def Fibre.reg (f : Fibre) (n : Nat) : Word := sget 0 f.stack (f.base + n)
def Fibre.setReg (f : Fibre) (n : Nat) (v : Word) : Fibre := { f with stack := sput 0 f.stack (f.base + n) v }
def Fibre.reg64 (f : Fibre) (n : Nat) : DWord := pair (f.reg n) (f.reg (n + 1))
def Fibre.setReg64 (f : Fibre) (n : Nat) (v : DWord) : Fibre := (f.setReg n (loWord v)).setReg (n + 1) (hiWord v)
/-- p0 is true whatever is written (R24). -/
def Fibre.pred (f : Fibre) (n : Nat) : Bool := n == 0 || f.preds.getLsbD n
def Fibre.setPred (f : Fibre) (n : Nat) (b : Bool) : Fibre :=
  if n = 0 then f
  else { f with preds := if b then f.preds ||| (1#8 <<< n) else f.preds &&& ~~~(1#8 <<< n) }
def condHolds (c : Cond) (f : Fibre) : Bool :=
  match c with
  | .always => true
  | .ifTrue p => f.pred p.val
  | .ifFalse p => !f.pred p.val

/-- A display register's fields (R48). -/
structure Desc where
  plc : Nat
  scope : Nat
  size : Nat
  base : Nat
  deriving DecidableEq, Repr
def descOf (d : DWord) : Option Desc :=
  if d.getLsbD 63 then some ⟨bits d.toNat 62 61, bits d.toNat 60 59, bits d.toNat 58 51, bits d.toNat 50 0 * 64⟩ else none
def mkDesc (plc scope slots base : Nat) : DWord :=
  BitVec.ofNat 64 (2 ^ 63 + plc * 2 ^ 61 + scope * 2 ^ 59 + (slots - 1) % 256 * 2 ^ 51 + base / 64 % 2 ^ 51)
def Fibre.desc (f : Fibre) (depth : Nat) : Option Desc := if depth = 0 then none else descOf (sget 0 f.disp depth)

/-- A stream's count on its flag: 1 while its queue is empty and elements remain (R180). -/
def Stream.owes (st : Stream) : Bool := st.active && st.queue.isEmpty && decide (st.popped < st.count)
/-- The value of a completion flag: its counts and its streams' (R180, R363). Where that sum passes 15, the range of R10, it is
taken as it stands (DESIGN CHOICE: the spec does not say). In a handler every flag starts at zero, and of the fibre's streams only
those that the handler has defined count (R260). -/
def Fibre.flag (f : Fibre) (n : Nat) : Nat :=
  sget 0 f.flags n + (f.recs.filter fun r => r.2.owes && r.2.flag == n && (f.handler.isNone || r.2.late)).length
def Fibre.flagsClear (f : Fibre) (mask : BitVec 12) : Bool :=
  (List.range 12).all fun n => !mask.getLsbD n || f.flag n == 0

/-- The group that issues: its cell, its members in lane order, the fibres present in the hatch, where it stands; ll is set
while a long-latency word is in hand whose count has been raised (R119). -/
structure Grp where
  cell : Cell
  hatch : Nat
  members : List Fibre
  view : List Fibre
  first : DWord
  at_ : DWord
  hints : List Instr
  ll : Bool := false
  deriving DecidableEq, Repr

/-- Is the fibre blocked at a wait that its own lane makes (R27, R244, R251, R317, R324)? Such a wait is a yield point
(R32). -/
def Fibre.laneWaits (f : Fibre) : Bool :=
  match f.status with
  | .blocked (.recv _ _ _) | .blocked (.send _ _) | .blocked (.waits _ _ _) | .blocked (.ewait _ _ _) | .blocked (.fleave _) => true
  | _ => false
/-- Is the fibre held up at a fence, still issuing (R27, R196)? -/
def Fibre.fenced (f : Fibre) : Bool := match f.status with | .fence _ _ _ _ => true | _ => false
/-- May the fibre issue: it is Ready, its path is not deferred, and no lane of its path still waits at a unit that it has passed (R27,
R32)? -/
def Fibre.mayRun (f : Fibre) : Bool := f.status == .ready && !f.deferred && f.mate.isNone
/-- Is a fibre running: ready, or held up while it issues (R27)? -/
def Fibre.running (f : Fibre) : Bool :=
  match f.status with | .ready | .waitFlags _ | .fence _ _ _ _ => true | _ => false
/-- Does a lane of the path at an address, in a mode, of a hatch wait there, at a fence or for the flags of a clause? All its lanes
then wait with it (R27, R32, R118). -/
def Cell.heldAt (c : Cell) (hatch : Nat) (pc : DWord) (sup : Bool) : Bool :=
  c.fibres.any fun f => f.hatch == hatch && f.pc == pc && f.sup == sup && f.running && f.status != .ready
/-- The group of State.cur (R27, R32): one path, whose lanes are in one mode (R132), the tenant's first where both stand there
(DESIGN CHOICE: R32 orders paths by their program counters alone), and none of which waits. -/
def State.grp? (s : State) : Option Grp :=
  if !s.cur.opened then none else
  (s.cell? s.cur.cell).bind fun c =>
    let view := c.fibres.filter fun f => f.hatch == s.cur.hatch
    let here := view.filter fun f => f.pc == s.cur.first && f.mayRun
    let sup := here.all (·.sup)
    let ms := here.filter (·.sup == sup)
    if ms.isEmpty || c.heldAt s.cur.hatch s.cur.first sup then none else some ⟨c, s.cur.hatch, ms, view, s.cur.first, s.cur.at_, s.cur.hints, false⟩
/-- Are the lanes of the group in supervisor mode? -/
def Grp.sup (g : Grp) : Bool := g.members.any (·.sup)

def Grp.active (g : Grp) : List Fibre := g.members.filter (·.place.active)
def Grp.isActive (g : Grp) (f : Fibre) : Bool := f.place.active && g.members.any (·.idx == f.idx)
def Grp.lane (g : Grp) (l : Nat) : Option Fibre := g.view.find? (·.lane == l)
def Grp.quad (g : Grp) : Nat := quadOf g.cell.cluster ((g.members.headD { idx := 0, pc := 0, hatch := 0, lane := 0 }).idx)
/-- The lowest active lane. -/
def Grp.lowest (g : Grp) : Option Fibre := g.active.head?

/-- The lane a source reads (R113, R123). -/
def permLane (p : Perm) (pat : Option Pat) (i : Nat) : Nat :=
  match p with
  | .none => i | .mir => 31 - i | .bc0 => 0 | .rot1 => (i + 1) % 32
  | .x1 => i ^^^ 1 | .x2 => i ^^^ 2 | .x4 => i ^^^ 4
  | .ext =>
    match pat with
    | none => i
    | some q =>
      match q.kind with
      | .rot => (i + q.n.val) % 32 | .xor => i ^^^ q.n.val | .bc => q.n.val | .mirg => i ^^^ (q.n.val - 1)

/-- The outcome of reading something that may trap its lane or hold the issue back. -/
inductive Res (α : Type) where
  | ok (a : α)
  | trap (t : Trap)
  | stall
  deriving DecidableEq, Repr

def Res.bind {α β : Type} : Res α → (α → Res β) → Res β
  | .ok a, f => f a
  | .trap t, _ => .trap t
  | .stall, _ => .stall
def Res.map {α β : Type} (f : α → β) : Res α → Res β
  | .ok a => .ok (f a)
  | .trap t => .trap t
  | .stall => .stall

/-- One pop (R180): the record after it and the element. -/
def Stream.pop (st : Stream) : Stream × Elem :=
  match st.queue with
  | e :: r => ({ st with queue := r, popped := st.popped + 1 }, e)
  | [] => if st.active && decide (st.popped < st.count) then ({ st with popped := st.popped + 1 }, .val 0) else (st, .val 0)
def Fibre.stream (f : Fibre) (q : Nat) : Stream := sget {} f.recs q
def Fibre.setStream (f : Fibre) (q : Nat) (st : Stream) : Fibre := { f with recs := sput {} f.recs q st }
/-- The element that the n-th pop of queue q in one instruction yields (R114). -/
def Fibre.popped (f : Fibre) (q n : Nat) : Elem :=
  match n with
  | 0 => (f.stream q).pop.2
  | n + 1 => ((List.range (n + 1)).foldl (fun (x : Stream × Elem) _ => x.1.pop) ((f.stream q).pop)).2
/-- The fibre after the pops of its source fields (R114, R305). -/
def Fibre.popAll (f : Fibre) (srcs : List Name) : Fibre :=
  srcs.foldl (fun f n => match n with | .q q => f.setStream q.val (f.stream q.val).pop.1 | _ => f) f

/-- Is the access in its cluster view or on its way, not yet at its home? -/
def Acc.inFlight (a : Acc) : Bool := match a.stage with | .inView | .waiting _ | .sent | .merged _ => true | _ => false
/-- Does the access write, and not merge with what it finds: a store, a write by name, an STI? -/
def AccKind.isStore : AccKind → Bool
  | .store | .slotWrite _ | .sti => true
  | _ => false
/-- Is it posted without a flag (ST, STC, RED, SGNL, STI, writes by name)? -/
def AccKind.posted : AccKind → Bool
  | .store | .red _ | .sgnl | .sti | .slotWrite _ => true
  | _ => false
def Acc.refused (a : Acc) : Bool := match a.stage with | .refused _ => true | _ => false
/-- Is the access one of a fibre's: its own, or the write of a slot that it wrote together with a higher lane (R54)? -/
def Acc.of (a : Acc) (r : FRef) : Bool := a.owner == r || a.also.contains r
/-- Is some fibre's both accesses? -/
def Acc.shares (a b : Acc) : Bool := b.of a.owner || a.also.any b.of
/-- Is the byte at an address one of the access's, in a word that has yet to ARRIVE (R188)? -/
def Acc.pends (a : Acc) (va : Nat) : Bool := decide (a.va ≤ va) && decide (va < a.va + a.len) && !a.got.testBit ((va - a.va) / 4)
def Acc.pendsIn (a : Acc) (va n : Nat) : Bool := (List.range n).any fun i => a.pends (va + i)
def Acc.pendsAll (a : Acc) (va n : Nat) : Bool := (List.range n).all fun i => a.pends (va + i)
/-- The bytes of its data from an address on. -/
def Acc.bytesFrom (a : Acc) (va n : Nat) : List Byte := (a.data.drop (va - a.va)).take n
/-- Bytes that stand from base on, under the words of the access that have yet to ARRIVE. -/
def Acc.patchOver (a : Acc) (base : Nat) (bs : List Byte) : List Byte :=
  bs.zipIdx.map fun (b, i) => if a.pends (base + i) then a.data.getD (base + i - a.va) 0 else b
/-- Is the address in the tentative window of an open draft region of the cell (R184)? -/
def inDraft (c : Cell) (a : Nat) : Bool :=
  c.drafts.any fun x => decide (x.2.base + 64 + x.2.lc * x.2.sz ≤ a) && decide (a < x.2.base + 64 + (x.2.lc + x.2.cap) * x.2.sz)
/-- A cell's view of bytes at their homes: its own tentative bytes first (R185). -/
def overlay (c : Cell) (va : Nat) (bs : List Byte) : List Byte :=
  bs.zipIdx.map fun (b, i) =>
    match c.drafts.findSome? fun x => x.2.bytes.find? (·.1 == va + i) with
    | some t => if inDraft c (va + i) then t.2 else b
    | none => b
/-- Does the access touch a tentative slot of its own cell (R184)? -/
def tentative (s : State) (a : Acc) : Bool :=
  match s.cell? a.owner.cell with
  | none => false
  | some c => (List.range a.len).any fun i => inDraft c (a.va + i)
/-- The latest in program order of some accesses of one fibre. -/
def latest (l : List Acc) : Option Acc :=
  l.foldl (fun m a => match m with | none => some a | some x => if x.id < a.id then some a else m) none
/-- Refused stores held for replay (R266). -/
def State.refusedStores (s : State) (r : FRef) : List Acc := s.accs.filter fun a => a.of r && a.kind.posted && a.refused
/-- The byte at an address that a fibre's own refused stores numbered before a number give it (R266): the latest one's. What RED and
SGNL would have made of it no one knows, and they give none. -/
def refusedByte (s : State) (r : FRef) (before va : Nat) : Option Byte :=
  (latest ((s.refusedStores r).filter fun q => decide (q.id < before) && q.kind.isStore && decide (q.va ≤ va) && decide (va < q.va + q.len))).map
    fun q => q.data.getD (va - q.va) 0
/-- Bytes as a fibre sees them: its own refused bytes go before what stands there (R266). -/
def ownRefused (s : State) (r : FRef) (before va : Nat) (bs : List Byte) : List Byte :=
  bs.zipIdx.map fun (b, i) => (refusedByte s r before (va + i)).getD b

/-- The write still pending that answers a slot read (R53, R191, R205): the fibre's own latest write of those bytes where
that one has not reached its home, else the newest store of its cluster's pending store set, a tentative one of another cell left out
(R185). What is refused is pending no more (R266). -/
def slotWriter (s : State) (c : Cell) (f : Fibre) (addr : Nat) : Option Acc :=
  let over_ (a : Acc) : Bool := a.kind != .load && a.part == c.part && (a.fn == c.fn || decide (vaultBase ≤ addr)) && a.pendsIn addr 4
  let mine := s.accs.filter fun a => a.of ⟨c.id, f.idx⟩ && over_ a && (a.stage == .queued || a.inFlight)
  (latest mine).or (s.accs.filter fun a => over_ a && a.kind.isStore && a.cluster == c.cluster && a.inFlight
    && (a.owner.cell == c.id || !tentative s a)).getLast?
/-- The bytes it answers with. A write that gives no value, one that covers the slot only in part, or an own write by
address still in the lane queue holds the read back (R53, R190). -/
def pendingSlot (s : State) (c : Cell) (f : Fibre) (addr : Nat) : Res (Option Word) :=
  match slotWriter s c f addr with
  | none => .ok none
  | some a =>
    let byName : Bool := match a.kind with | .slotWrite _ => true | _ => false
    if a.kind.isStore && (byName || a.stage != .queued) && a.pendsAll addr 4 then .ok (some (BitVec.ofNat 32 (natOfBytes (a.bytesFrom addr 4))))
    else .stall

/-- Is it performed at the home alone? -/
def AccKind.isAtomic : AccKind → Bool
  | .atom _ | .red _ | .cas _ | .sgnl => true
  | _ => false
def AccKind.returns : AccKind → Bool
  | .load | .atom _ | .cas _ => true
  | _ => false
def Acc.isAcquire (a : Acc) : Bool := a.ord != .plain && a.kind.returns
def sameFrame (a b : Acc) : Bool := match a.kind, b.kind with | .slotWrite x, .slotWrite y => x == y | _, _ => false
def overlaps (a b : Acc) : Bool := decide (a.va < b.va + b.len) && decide (b.va < a.va + a.len)
/-- Must an earlier access e of its fibre leave the lane request queue, or be answered, before x leaves it (R190, R194, R195)? -/
def leaveFirst (x e : Acc) : Bool :=
  e.shares x && decide (e.id < x.id)
  && ((e.isAcquire && !e.refused) || (e.stage == .queued && !(e.ord == .plain && x.ord == .plain && !overlaps e x && !sameFrame e x)))

/-- The pending accesses and operations of a fibre. -/
def State.own (s : State) (r : FRef) : List Nat :=
  (s.accs.filter (·.of r)).map (·.id) ++ (s.ops.filter fun o => o.fibres.any (·.1 == r)).map (·.id)
/-- The tile on which an operation still has to take its turn (R342). -/
def Op.tileTurn (o : Op) : Option (Nat × Nat) :=
  match o.kind with
  | .mma u t _ _ _ _ _ => some (u, t)
  | .mrd u t _ _ => if o.result.isNone then some (u, t) else none
  | .mst u t _ _ _ => if o.result.isNone then some (u, t) else none
  | .mwr u t _ _ _ => some (u, t)
  | .mzero u t _ => some (u, t)
  | _ => none
/-- Does an operation belong to a context that is swapped out? It then stands in no order of a matrix unit (R342, R302). -/
def State.away (s : State) (o : Op) : Bool :=
  match s.cell? o.owner.cell, o.kind with
  | some c, _ => !c.resident
  | none, .mwr _ _ _ _ b | none, .mzero _ _ b => b.2 != 64 && ((s.part? b.1).map (·.holder != some b.2)).getD false
  | none, _ => false
/-- Does an operation take a point of the plate order (R89)? -/
def OpKind.isPoint : OpKind → Bool
  | .proof _ _ _ | .tqpush _ _ _ | .tqpop _ _ _ => true
  | _ => false
/-- Does an operation wait behind one on its tile that is among some numbers (R342)? -/
def State.behindHalt (s : State) (st : List Nat) (o : Op) : Bool :=
  o.tileTurn.isSome && s.ops.any fun x => x.tileTurn == o.tileTurn && st.contains x.id && decide (x.id < o.id) && !s.away x
/-- Does an operation that has yet to take its point of the plate order stand behind an event of its fibre that is among some numbers
(R89), be it refused or held up by what is (DESIGN CHOICE: R89 does not say how its order meets the drain of R260; log entry 14)? -/
def State.behindEvent (s : State) (st : List Nat) (o : Op) : Bool :=
  o.kind.isPoint && o.result.isNone
  && (s.ops.any (fun x => x.owner == o.owner && decide (x.id < o.id) && x.kind.isPoint && st.contains x.id)
    || s.accs.any fun a => a.owner == o.owner && decide (a.id < o.id) && a.kind == .sti && st.contains a.id)
/-- Is access or operation i one that the handler of a fibre keeps of the trapped code (R260)? -/
def State.owed (s : State) (r : FRef) (i : Nat) : Bool := ((s.fibre? r).bind (·.handler)).any fun h => h.owed.contains i
/-- Is access or operation i refused, or does it wait for one among st, numbers that ERET alone lets go on: a release or a replay that
one of its covers holds up, an access that may not leave before one, an operation in turn behind one? What a handler issues does
not wait for what is kept. -/
def State.waitsOn (s : State) (st : List Nat) (i : Nat) : Bool :=
  (s.accs.any fun x => x.id == i && (x.refused || (x.stage == .queued && ((!x.relDone && x.covers.any st.contains)
    || s.accs.any fun e => st.contains e.id && leaveFirst x e && s.owed x.owner e.id == s.owed x.owner x.id))))
  || s.ops.any fun o => o.id == i && (o.refused.isSome || o.after.any st.contains || s.behindHalt st o || s.behindEvent st o)
/-- What goes on only once ERET has replayed a refused request (R260, R262): that request, and all that waits for it, accesses and
operations alike (DESIGN CHOICE: R89, R190 and R260 do not say what is owed behind a refused request; log entry 14). In the order of numbers
each waits for earlier ones alone, but for what a replay puts after its stores, which the second pass finds. -/
def State.stuckIds (s : State) : List Nat :=
  let ids := sortBy (fun a b => decide (a ≤ b)) (s.accs.map (·.id) ++ s.ops.map (·.id))
  (ids ++ ids).foldl (fun st i => if s.waitsOn st i then i :: st else st) []
def State.stuck (s : State) (a : Nat) : Bool := s.stuckIds.contains a
/-- What a fibre in a handler keeps of the trapped code for ERET to replay or to let go on (R260). -/
def State.kept (s : State) (r : FRef) : List Nat :=
  match (s.fibre? r).bind (·.handler) with
  | none => []
  | some h => h.owed.filter s.stuck
/-- Has the fibre an acquire whose answer it still awaits? No later access of it leaves before that answer (R194). A refused
one holds nothing up: the fibre parks, and its handler does not wait for what it keeps. -/
def State.acqPending (s : State) (r : FRef) : Bool :=
  s.accs.any fun a => a.owner == r && a.isAcquire && !a.refused && !(s.kept r).contains a.id

/-- May an operation still store to bytes: an element of a SCATTER that is under way (R177)? -/
def Op.mayStore (o : Op) (va n : Nat) : Bool :=
  o.refused.isNone && match o.kind with
  | .scatter _ _ _ (some l) => decide (l.base < va + n) && decide (va < l.base + l.limit * 2 ^ l.esz)
  | .scatter _ _ _ none => true
  | _ => false
/-- May an operation still read bytes: an element of a GATHER that is under way (R176)? The reads of its list stand in no order
(R178). -/
def Op.mayRead (o : Op) (va n : Nat) : Bool :=
  o.refused.isNone && match o.kind with
  | .gather _ _ _ (some l) => decide (l.base < va + n) && decide (va < l.base + l.limit * 2 ^ l.esz)
  | .gather _ _ _ none => true
  | _ => false
/-- Has a fibre an earlier load of n bytes, numbered before a number, that has yet to be performed, but for what its handler keeps? -/
def State.ownLoads (s : State) (r : FRef) (before va n : Nat) : Bool :=
  s.accs.any fun a => a.owner == r && decide (a.id < before) && a.kind == .load && (a.stage == .queued || a.inFlight)
    && decide (a.va < va + n) && decide (va < a.va + a.len) && !(s.kept r).contains a.id
/-- Has it one, or a GATHER that may still read them? A later write of them waits for it (R190). -/
def State.ownReads (s : State) (r : FRef) (va n : Nat) (before : Nat := s.next) : Bool :=
  s.ownLoads r before va n || s.ops.any fun o => o.owner == r && decide (o.id < before) && o.mayRead va n && !(s.kept r).contains o.id
/-- Must a read of n bytes by a fibre wait for an access of its own: an earlier load of them that has yet to be performed, or a
SCATTER that may still store to them (R190)? -/
def State.ownBefore (s : State) (r : FRef) (va n : Nat) : Bool :=
  s.ownLoads r s.next va n || s.ops.any fun o => o.owner == r && o.mayStore va n && !(s.kept r).contains o.id
/-- Does a write stand before a load of the fibre that its last point of cell scope puts after it (R193), and that FORWARD cannot
answer: any with wide set, else one that merges with what it finds? -/
def State.seenBlocks (s : State) (r : FRef) (wide : Bool) (va n : Nat) : Bool :=
  let seen := ((s.fibre? r).map (·.seen)).getD []
  !seen.isEmpty && s.accs.any fun a => seen.contains a.id && a.inFlight && (wide || !a.kind.isStore)
    && decide (a.va < va + n) && decide (va < a.va + a.len)

/-- A read of the slot at an address of a frame, what the fibre has refused there apart (R53, R205, R73). -/
def slotBase (s : State) (c : Cell) (f : Fibre) (d : Desc) (addr : Nat) : Res Word :=
  let r : FRef := ⟨c.id, f.idx⟩
  if s.acqPending r || s.ownBefore r addr 4 || s.seenBlocks r false addr 4 then .stall
  else if d.plc = 0 then
    if s.accs.any fun a => a.of r && a.kind.isStore && a.stage == .queued && decide (a.va < addr + 4) && decide (addr < a.va + a.len) then .stall
    else .ok (BitVec.ofNat 32 (natOfBytes (bytesAt c.scratch (addr - scratchBase) 4)))
  else if (List.range 4).all fun i => c.held.any (·.1 == addr + i) then
    .ok (BitVec.ofNat 32 (natOfBytes ((List.range 4).map fun i => ((c.held.find? (·.1 == addr + i)).map (·.2)).getD 0)))
  else
    match pendingSlot s c f addr with
    | .trap t => .trap t
    | .stall => .stall
    | .ok (some w) => .ok w
    | .ok none =>
      if heldBack s [] c.part c.fn addr 4 then .stall
      else match homeRead s (c.who f.sup) addr .read 4 with
        | .ok bs => .ok (BitVec.ofNat 32 (natOfBytes (overlay c addr bs)))
        | .error (a, e) => .trap { cause := e, detail := 1, faddr := a }

/-- Do a fibre's own refused stores give every byte of a slot (R266)? Its read then asks no home. -/
def slotRefused (s : State) (c : Cell) (f : Fibre) (addr : Nat) : Bool :=
  (List.range 4).all fun i => (refusedByte s ⟨c.id, f.idx⟩ s.next (addr + i)).isSome
/-- A word under the refused bytes of a fibre's own. -/
def underRefused (s : State) (c : Cell) (f : Fibre) (addr : Nat) (w : Word) : Word :=
  BitVec.ofNat 32 (natOfBytes (ownRefused s ⟨c.id, f.idx⟩ s.next addr (bytesOfNat 4 w.toNat)))
/-- A read of the slot: the fibre's own refused bytes, and the rest as slotBase has it. -/
def readSlotAt (s : State) (c : Cell) (f : Fibre) (d : Desc) (addr : Nat) : Res Word :=
  if slotRefused s c f addr && d.plc != 0 then .ok (underRefused s c f addr 0)
  else (slotBase s c f d addr).map fun w => if d.plc = 0 then w else underRefused s c f addr w

/-- Slot m of depth n by name or by FLD, with its frame faults (R52, R327). -/
def readSlot (s : State) (c : Cell) (f : Fibre) (depth slot : Nat) : Res Word :=
  match f.desc depth with
  | none => .trap { cause := .frameFault, detail := 1 }
  | some d => if d.size < slot then .trap { cause := .frameFault, detail := 4 } else readSlotAt s c f d (d.base + 4 * slot)

/-- The pending writes of other fibres that answer a read of slot m of depth n: what cumulativity covers (R196). -/
def slotWriters (s : State) (c : Cell) (f : Fibre) (depth slot : Nat) : List Nat :=
  match f.desc depth with
  | none => []
  | some d =>
    let addr := d.base + 4 * slot
    if d.plc = 0 ∨ d.size < slot ∨ slotRefused s c f addr ∨ (List.range 4).all (fun i => c.held.any (·.1 == addr + i)) then [] else
    match slotWriter s c f addr with
    | some a => if a.of ⟨c.id, f.idx⟩ then [] else [a.id]
    | none => []
/-- The addresses at which a read of slot m of depth n goes to its home. -/
def slotHomes (s : State) (c : Cell) (f : Fibre) (depth slot : Nat) : List Nat :=
  match f.desc depth with
  | none => []
  | some d =>
    let addr := d.base + 4 * slot
    if d.plc = 0 ∨ d.size < slot ∨ slotRefused s c f addr ∨ (List.range 4).all (fun i => c.held.any (·.1 == addr + i))
        ∨ (slotWriter s c f addr).isSome then []
    else [addr]
/-- The homes that the active lanes' slots among some names are read at take the touch of a read (R169, R186). -/
def touchSlots (s : State) (g : Grp) (names : List Name) (u : State) : State :=
  g.active.foldl (fun u f => touchEach u (g.cell.who f.sup) .read
    (names.flatMap fun n => match n with | .slot d m => slotHomes s g.cell f (d.val + 1) m.val | _ => [])) u
/-- A fibre that has read the slots among its source names keeps whose writes it read (R196). -/
def Fibre.marked (s : State) (g : Grp) (f : Fibre) (names : List Name) : List Nat :=
  names.flatMap fun n => match n with | .slot d m => slotWriters s g.cell f (d.val + 1) m.val | _ => []
def markReads (s : State) (g : Grp) (names : List Name) (u : State) : State :=
  touchSlots s g names (u.mapFibres g.cell.id fun f =>
    match g.active.find? (·.idx == f.idx) with
    | some x => { f with readFrom := f.readFrom ++ x.marked s g names }
    | none => f)

/-- The frame faults of a write by name (R52). -/
def checkSlot (f : Fibre) (depth slot : Nat) : Option Trap :=
  match f.desc depth with
  | none => some { cause := .frameFault, detail := 1 }
  | some d => if d.size < slot then some { cause := .frameFault, detail := 4 } else none

def elemWord (s : State) (e : Elem) : Word := match e with | .val w => w | _ => BitVec.ofNat 32 (Config.freeNat s.free)

/-- What a fibre reads of slot m of depth n but for what it has refused there; none where its read does not go on. -/
def slotShared (s : State) (c : Cell) (f : Fibre) (depth m : Nat) : Option Word :=
  (f.desc depth).bind fun d => match slotBase s c f d (d.base + 4 * m) with | .ok w => some w | _ => none
/-- A slot as a source: every present lane sees the same value (R113). Lanes whose own posted writes of it differ (R53) hold
the instruction back until these have reached the frame's storage; refused ones never do, and each lane sees its own (R266). -/
def slotOf (s : State) (g : Grp) (f : Fibre) (d m : Nat) : Res Word :=
  let r := readSlot s g.cell f (d + 1) m
  match r, slotShared s g.cell f (d + 1) m with
  | .ok _, some w => if g.active.all fun x => match slotShared s g.cell x (d + 1) m with | some v => v == w | none => true then r else .stall
  | _, _ => r

/-- Operand(A): the value of a name as it stands in the source lane (R113, R114). nth counts the earlier source fields
that name the same queue. A slot whose source lane is empty reads zero and raises nothing, R113 going before R110 (DESIGN CHOICE:
the spec does not say which comes first). -/
def operand (s : State) (g : Grp) (f : Fibre) (p : Perm) (pat : Option Pat) (n : Name) (w : Wd) (nth : Nat) : Res DWord :=
  match g.lane (permLane p pat f.lane) with
  | none => .ok 0
  | some src =>
    match n with
    | .w r => .ok (match w with | .b32 => (src.reg r.val).setWidth 64 | .b64 => src.reg64 r.val)
    | .k r => .ok (match w with
        | .b32 => (sget 0 g.cell.k r.val).setWidth 64
        | .b64 => pair (sget 0 g.cell.k r.val) (sget 0 g.cell.k (r.val + 1)))
    | .q q => .ok ((elemWord s (src.popped q.val (if g.isActive src then nth else 0))).setWidth 64)
    | .slot d m => (slotOf s g f d.val m.val).map (·.setWidth 64)

/-- The bad elements that a lane itself pops (R180): the fault of the first. -/
def popFault (f : Fibre) (srcs : List Name) : Option Trap :=
  (srcs.zipIdx.filterMap fun (n, i) =>
    match n with
    | .q q =>
      match f.popped q.val ((srcs.take i).filter (· == .q q)).length with
      | .bad a c => some { cause := c, detail := 1, faddr := a }
      | _ => none
    | _ => none).head?

/-- Must a lane's own pop wait for an element that is read once more after an ERET (R166)? -/
def popWaits (f : Fibre) (srcs : List Name) : Bool :=
  srcs.zipIdx.any fun (n, i) =>
    match n with
    | .q q => f.popped q.val ((srcs.take i).filter (· == .q q)).length == .again
    | _ => false

/-- A source field of an instruction with its width. -/
abbrev Field := Src × Wd

/-- The values of the source fields of one lane, in order, after its own pops are checked (R109 to R114). -/
def operands (s : State) (g : Grp) (f : Fibre) (pats : List (Option Pat)) (srcs : List Field) : Res (List DWord) :=
  match popFault f (srcs.map (·.1.name)) with
  | some t => .trap t
  | none =>
    if popWaits f (srcs.map (·.1.name)) then .stall else
    srcs.zipIdx.foldr (fun (x, i) r =>
      let nth := ((srcs.take i).filter (·.1.name == x.1.name)).length
      (operand s g f x.1.perm ((pats.getD i none)) x.1.name x.2 nth).bind fun v => r.map (v :: ·)) (.ok [])

/-- Is a lane's slot read refused by its home (R265)? Its trap, that is no frame fault and no queue's. -/
def readRefused (s : State) (g : Grp) (f : Fibre) (pats : List (Option Pat)) (srcs : List Field) : Option Trap :=
  if (popFault f (srcs.map (·.1.name))).isSome then none else
  match operands s g f pats srcs with
  | .trap t => if t.cause = .frameFault then none else some t
  | _ => none

/-- The effect of one lane: its fibre, a slot to write (depth, slot, value), status bits to OR. -/
structure Eff where
  fib : Fibre
  slot : Option (Nat × Nat × Word) := none
  status : Word := 0
  deriving DecidableEq, Repr

/-- Write a 32-bit destination: a window register or a posted frame slot (R111). -/
def putDst (f : Fibre) (d : Name) (v : Word) : Res Eff :=
  match d with
  | .w n => .ok { fib := f.setReg n.val v }
  | .slot dep m =>
    match checkSlot f (dep.val + 1) m.val with
    | some t => .trap t
    | none => .ok { fib := f, slot := some (dep.val + 1, m.val, v) }
  | _ => .ok { fib := f }
/-- Write a pair. -/
def putDst64 (f : Fibre) (d : Name) (v : DWord) : Res Eff :=
  match d with
  | .w n => .ok { fib := f.setReg64 n.val v }
  | _ => .ok { fib := f }
def putWd (w : Wd) (f : Fibre) (d : Name) (v : DWord) : Res Eff :=
  match w with
  | .b32 => putDst f d (v.setWidth 32)
  | .b64 => putDst64 f d v

def nameWin (n : Name) : Nat := match n with | .w r => r.val | _ => 0
/-- A plain source field of an X or M word (R305). -/
def plainSrc (n : Name) (w : Wd) : Field := (⟨.none, n⟩, w)

end Sys2Proof.Machine
end

