-- ==== Sys2Proof/Machine/Ops.lean ====
section
/-! DEFINITION. The operations that instructions share: posting accesses, the hatch and its paths (R28 to R39), taking an
exception and returning from it (R256 to R266), leaving frames (R57), ending fibres and cells, and one issue of a unit
(R118, R119, R131). -/

namespace Sys2Proof.Machine

/-! ### Accesses in flight -/

def State.acc? (s : State) (a : Nat) : Option Acc := s.accs.find? (·.id == a)
def State.setAcc (s : State) (a : Nat) (f : Acc → Acc) : State :=
  { s with accs := s.accs.map fun x => if x.id = a then f x else x }
def State.dropAcc (s : State) (a : Nat) : State := { s with accs := s.accs.filter (·.id != a) }
def State.op? (s : State) (o : Nat) : Option Op := s.ops.find? (·.id == o)
def State.setOp (s : State) (o : Nat) (f : Op → Op) : State := { s with ops := s.ops.map fun x => if x.id = o then f x else x }

/-- Does the access write (R189)? -/
def AccKind.writes : AccKind → Bool
  | .load => false
  | _ => true

/-- A new access of a fibre. -/
def mkAcc (s : State) (c : Cell) (f : Fibre) (kind : AccKind) (va len : Nat) (data : List Byte) (ord : Scope) : Acc :=
  { id := s.next, owner := ⟨c.id, f.idx⟩, part := c.part, fn := c.fn, asid := s.asid c.part c.fn, cluster := c.cluster
    quad := quadOf c.cluster f.idx, sup := f.sup, kind := kind, va := va, len := len, data := data, ord := ord
    lane := f.lane, window := ((s.part? c.part).map (·.cw)).getD 0, tag := c.saveTag
    members := [(s.next, [])] }
/-- ISSUE: the access enters its quadrant's lane request queue (R189). -/
def State.post (s : State) (a : Acc) : State := { s with accs := s.accs ++ [a], next := s.next + 1 }

/-- QUIT step 1 (R28): nothing of the fibre is pending; a handler's own fibre does not wait for what it keeps. -/
def State.idle (s : State) (r : FRef) : Bool := (s.own r).all (s.kept r).contains
/-- Is access or operation a performed at a scope (R192)? At plain: completed or acknowledged. -/
def State.performed (s : State) (sc : Scope) (a : Nat) : Bool :=
  (s.ops.all (·.id != a)) &&
  match s.acc? a with
  | none => true
  | some x =>
    match sc with
    | .plain => false
    | .cell => x.kind.posted && x.stage != .queued
    | _ => x.kind.posted && x.stage == .arrived
/-- No invalidation is queued to the cluster (condition 3 of R196). -/
def State.invalsClear (s : State) (cluster : Nat) : Bool := s.invals.all fun q => q.1 != cluster || q.2.isEmpty
/-- Has the fibre a write of these bytes, numbered before a number, that has yet to reach its home: an access, or an element of a
SCATTER (R190)? What a handler keeps of the trapped code does not count. -/
def State.ownOver (s : State) (r : FRef) (before va n : Nat) : Bool :=
  (s.accs.any fun q => q.of r && decide (q.id < before) && q.kind.writes && q.stage != .arrived && !q.refused
    && decide (q.va < va + n) && decide (va < q.va + q.len) && !(s.kept r).contains q.id)
  || s.ops.any fun o => o.owner == r && decide (o.id < before) && o.mayStore va n && !(s.kept r).contains o.id
/-- Has it one, or has the pending store set of its cluster (R191), or does its last point of cell scope put one before this access
(R193)? An access made at the home at once then waits for it. -/
def State.ownPosted (s : State) (r : FRef) (va n : Nat) (before : Nat := s.next) : Bool :=
  s.ownOver r before va n || s.seenBlocks r false va n || match s.cell? r.cell with
    | none => false
    | some c => s.accs.any fun q => q.kind.isStore && q.inFlight && q.cluster == c.cluster
        && tagOf s q.part q.fn q.va == tagOf s c.part c.fn va && decide (q.va < va + n) && decide (va < q.va + q.len)
/-- What a fence of the fibre covers: its own accesses and the pending writes it read (R196). -/
def State.coverage (s : State) (r : FRef) : List Nat :=
  ((s.own r).filter fun a => !(s.kept r).contains a) ++ ((s.fibre? r).map (·.readFrom.filter fun a => (s.acc? a).isSome)).getD []
/-- The writes that stand in a cluster's view and have yet to reach their homes. -/
def State.viewWrites (s : State) (cluster : Nat) : List Nat :=
  (s.accs.filter fun a => a.kind.writes && a.inFlight && a.cluster == cluster).map (·.id)
/-- A fibre's point of cell scope: no later load of it returns what is older than a write that had made LEAVE into its cluster's view
by then (R193). -/
def State.atPoint (s : State) (r : FRef) (cluster : Nat) : State :=
  s.setFibre r fun f => { f with seen := s.viewWrites cluster }
/-- The flag of access or operation a falls in a fibre (R119); in one that runs a handler and owes it, the trapped code's
flag falls. -/
def State.dropFlag (s : State) (r : FRef) (a : Nat) (flag : Option Nat) (counted : Bool) : State :=
  s.setFibre r fun f =>
    let down (m : SMap Nat) : SMap Nat := match flag, counted with
      | some n, true => sput 0 m n (sget 0 m n - 1)
      | _, _ => m
    match f.handler with
    | some h =>
      if h.owed.contains a then { f with handler := some { h with flags := down h.flags, owed := h.owed.filter (· != a) } }
      else { f with flags := down f.flags }
    | none => { f with flags := down f.flags }

/-- The flag that counts the long-latency instruction in hand (R119): read after the count has been raised. -/
def Fibre.llFlag (f : Fibre) : Option Nat := (if f.place.ll = 1 then f.place.fa else f.place.fb).map (·.val)
def Fibre.countFlag (f : Fibre) : Fibre :=
  match f.llFlag with
  | none => f
  | some n => { f with flags := sput 0 f.flags n (sget 0 f.flags n + 1) }

/-- A pending operation of several fibres, whose flags count it from now on (R119, R344). -/
def pendAll (s : State) (cell : Nat) (fs : List Fibre) (k : OpKind) : State :=
  let refs := fs.map fun f => ((⟨cell, f.idx⟩ : FRef), f.llFlag, f.llFlag.isSome)
  let s := fs.foldl (fun s f => s.setFibre ⟨cell, f.idx⟩ (·.countFlag)) s
  { s with ops := s.ops ++ [{ id := s.next, owner := ⟨cell, (fs.headD { idx := 0, pc := 0, hatch := 0, lane := 0 }).idx⟩, fibres := refs, kind := k }]
           next := s.next + 1 }

/-! ### Hatches and paths -/

/-- The path that a fibre stands on in its hatch: its program counter, and its mode, which all the lanes of one path share (R132). -/
def Fibre.path (f : Fibre) : DWord × Bool := (f.pc, f.sup)
/-- The lowest path of a list of fibres by program counter, the tenant's before the supervisor's at one address (DESIGN CHOICE: R32
orders paths by their program counters alone). -/
def lowestPath (fs : List Fibre) : Option (DWord × Bool) :=
  fs.foldl (fun m f => match m with
    | none => some f.path
    | some p => some (if f.pc < p.1 || (f.pc == p.1 && !f.sup) then f.path else p)) none

/-- R31: a free cell's hatch whose running fibres stand at several program counters splits; the lowest lane's keeps the
hatch, the others take new hatches and keep their lanes. Lanes in different modes are no one path (R132). A lane whose transaction aborts at a barred blocking word goes to its resume
point in the hatch that it shares with the lanes blocked there (DESIGN CHOICE: R31 names no hatch for it). -/
def splitHatch (s : State) (cell hatch : Nat) : State :=
  match s.cell? cell with
  | none => s
  | some c =>
    let rs := c.fibres.filter fun f => f.hatch == hatch && f.running
    match rs with
    | [] => s
    | f0 :: _ =>
      let ps := ((rs.map (·.path)).eraseDups).filter (· != f0.path)
      let s' := s.mapFibres cell fun f =>
        if f.hatch == hatch && f.running && f.path != f0.path then { f with hatch := s.next + ps.idxOf f.path } else f
      { s' with next := s.next + ps.length }

/-- R32: the running path of a hatch of a locked cell. The lowest program counter runs; other paths are deferred; a
deferred path at the running path's program counter and in its mode merges; when no path runs, the lowest deferred one does. A path held up
at a fence has reached no yield point and stays the running one. -/
def schedulePaths (s : State) (cell hatch : Nat) : State :=
  let fs := (((s.cell? cell).map (·.fibres)).getD []).filter fun f => f.hatch == hatch
  let rs := fs.filter fun f => f.running && f.mate.isNone
  let live := rs.filter (!·.deferred)
  let pick := match lowestPath live with | some p => some p | none => lowestPath rs
  match pick with
  | none => s
  | some p => s.mapFibres cell fun f => if f.hatch == hatch && f.running then { f with deferred := f.path != p || f.mate.isSome } else f

/-- A fibre that waits with the lanes of its path goes on once none of them waits any more at the unit that it has passed (R32). -/
def Fibre.unmate (fs : List Fibre) (f : Fibre) : Fibre :=
  match f.mate with
  | none => f
  | some a => if fs.any fun g => g.hatch == f.hatch && g.laneWaits && g.waitAt == a then f else { f with mate := none }
def freeMates (s : State) (cell : Nat) : State :=
  match s.cell? cell with
  | none => s
  | some c => s.mapFibres cell (Fibre.unmate c.fibres)
/-- At the end of an issue whose lanes wait each for itself, the members that have passed the unit go on with those (R32). -/
def markMates (s : State) (g : Grp) : State :=
  match s.cell? g.cell.id with
  | none => s
  | some c =>
    let mine (f : Fibre) : Bool := g.members.any (·.idx == f.idx)
    if c.fibres.any fun f => mine f && f.laneWaits && f.waitAt == g.first then
      s.mapFibres c.id fun f => if mine f && f.running && f.pc == g.at_ + 4 then { f with mate := some g.first } else f
    else s
/-- After a change of program counters or states in a hatch (R30 to R32). -/
def settleHatch (s : State) (cell hatch : Nat) : State :=
  match s.cell? cell with
  | none => s
  | some c => if c.locked then schedulePaths (freeMates s cell) cell hatch else splitHatch (freeMates s cell) cell hatch

/-- Does a RECONV or REGROUP wait for the fibre (R33, R34)? One in its handler is parked until the supervisor resumes it
(R27, R264). -/
def Fibre.awaited (f : Fibre) : Bool := f.running && f.handler.isNone

/-- A blocked fibre becomes Ready, with the lanes of its path that still wait; in a locked cell its path is deferred until R32 lets it
run. -/
def Fibre.wake (c : Cell) (f : Fibre) : Fibre := { f with status := .ready, deferred := c.locked, mate := some f.waitAt }

/-- Is the fibre at one of the waits that end in forming a hatch (R33, R34, R371)? -/
def Fibre.atHatchWait (f : Fibre) : Bool :=
  match f.status with | .blocked (.reconv _) | .blocked (.regroup _) | .blocked (.yield _) => true | _ => false

/-- Form hatches of the fibres named, in ascending index, 32 to a hatch, on each quadrant (R33, R34, R371). -/
def formHatches (s : State) (cell : Nat) (idxs : List Nat) (join : Bool) : State :=
  let place (i : Nat) : Nat × Nat :=
    let sameQuad := idxs.filter fun j => j / 32 % 4 == i / 32 % 4
    let pos := sameQuad.idxOf i
    (s.next + 40 * (i / 32 % 4) + pos / 32, pos % 32)
  let locked := ((s.cell? cell).map (·.locked)).getD false
  let s' := s.mapFibres cell fun f =>
    if idxs.contains f.idx && f.atHatchWait then
      let f := if locked then { f with deferred := true } else { f with hatch := (place f.idx).1, lane := (place f.idx).2 }
      { f with status := .ready, joinSet := if join then idxs else f.joinSet }
    else f
  { s' with next := s.next + 160 }

/-- R33: the fibres of one mode waiting at one RECONV whose join sets have no running member go on together. -/
def releaseReconv (s : State) (cell : Nat) : State :=
  match s.cell? cell with
  | none => s
  | some c =>
    let waiting := c.fibres.filterMap fun f => match f.status with | .blocked (.reconv p) => some (f, (p, f.sup)) | _ => none
    let free (f : Fibre) : Bool := f.joinSet.all fun j => match c.fibre? j with | some m => !m.awaited | none => true
    let go := waiting.filter fun x => free x.1
    ((go.map (·.2)).eraseDups).foldl (fun s p =>
      let idxs := (go.filter (·.2 == p)).map (·.1.idx)
      let s := formHatches s cell idxs true
      match s.cell? cell with
      | none => s
      | some c =>
        if c.locked then
          ((c.fibres.filter fun f => idxs.contains f.idx).map (·.hatch)).eraseDups.foldl (fun s h => schedulePaths s cell h) s
        else s) s

/-- R34: the fibres of a crosshatch entry leave as hatches; 32 as a full batch, the rest when partial is set. -/
def leaveRegroup (s : State) (entry : Nat) (part : Bool) : State :=
  match s.crosshatch.find? (·.id == entry) with
  | none => s
  | some e =>
    let n := if 32 ≤ e.members.length then 32 else if part then e.members.length else 0
    if n = 0 then s else
    let out := sortBy (fun a b => decide (a ≤ b)) (e.members.take n)
    let rest := e.members.drop n
    let s := formHatches s e.cell out true
    { s with crosshatch := if rest.isEmpty then s.crosshatch.filter (·.id != entry)
               else s.crosshatch.map fun x => if x.id = entry then { x with members := rest } else x }

/-- R34: full batches leave; a partial batch leaves when no other fibre of the cell on the quadrant runs. -/
def releaseRegroup (s : State) (cell : Nat) : State :=
  (s.crosshatch.filter (·.cell == cell)).foldl (fun s e =>
    let s := leaveRegroup s e.id false
    match s.cell? cell with
    | none => s
    | some c =>
      if c.fibres.any fun f => f.awaited && quadOf c.cluster f.idx == e.quad then s else leaveRegroup s e.id true) s

/-- Conditions 1 and 2 of R196 for every fibre of a list, at a scope. -/
def covered (s : State) (cell : Nat) (sc : Scope) (fs : List Fibre) : Bool :=
  fs.all fun f => (s.coverage ⟨cell, f.idx⟩).all (s.performed sc)

/-- Are all the fibres of a cell blocked at a given wait? -/
def allAt (c : Cell) (p : Wait → Bool) : Bool :=
  c.fibres.all fun f => match f.status with | .blocked w => p w | _ => false
def isBar : Wait → Bool | .bar => true | _ => false
def isCbar : Wait → Bool | .cbar => true | _ => false
def isSettle : Wait → Bool | .settle => true | _ => false

def wakeWhere (s : State) (cell : Nat) (p : Wait → Bool) : State :=
  match s.cell? cell with
  | none => s
  | some c =>
    let s := s.mapFibres cell fun f => match f.status with | .blocked w => if p w then f.wake c else f | _ => f
    ((c.fibres.map (·.hatch)).eraseDups).foldl (fun s h => settleHatch s cell h) s

/-- R37, R308: BAR completes for a cell. -/
def releaseBar (s : State) (cell : Nat) : State :=
  match s.cell? cell with
  | none => s
  | some c =>
    if !c.fibres.isEmpty && allAt c isBar && covered s cell .cell c.fibres then
      wakeWhere (s.mapFibres cell fun f => { f with seen := s.viewWrites c.cluster }) cell isBar
    else s

/-- Does the cohort of a launch hold a cell that a failed part has removed and that has yet to start again (R278)? It has not
ended, so CBAR waits for it. -/
def awaitsCell (s : State) (launch cohort : Nat) : Bool :=
  match s.launch? launch with
  | none => false
  | some l => l.cells.zipIdx.any fun (e, i) => e.failed && i / max l.rcd.cohort 1 == cohort
      && s.cells.all fun c => !(c.launch == launch && c.index == i)
/-- R39, R308: CBAR completes for a cohort, once the invalidations of its clusters are delivered. -/
def releaseCohort (s : State) (launch cohort : Nat) : State :=
  let co := s.cells.filter fun x => x.launch == launch && x.cohort == cohort
  if co.all (fun x => !x.fibres.isEmpty && allAt x isCbar && covered s x.id .coh x.fibres && s.invalsClear x.cluster)
      && !awaitsCell s launch cohort then
    co.foldl (fun s x => wakeWhere s x.id isCbar) s
  else s
def releaseCbar (s : State) (cell : Nat) : State :=
  match s.cell? cell with
  | none => s
  | some c => releaseCohort s c.launch c.cohort

/-- The hatch goes to the end of its quadrant's round-robin (R253). Hatches of cells that have ended leave the list. -/
def State.toEnd (s : State) (quad cell hatch : Nat) : State :=
  { s with rr := (quad, cell, hatch) :: s.rr.filter fun x => x != (quad, cell, hatch) && s.cells.any (·.id == x.2.1) }
def readyOn (s : State) (quad : Nat) (cell hatch : Nat) : Bool :=
  s.cells.any fun c => c.resident && c.fibres.any fun f =>
    f.mayRun && quadOf c.cluster f.idx == quad && !c.heldAt f.hatch f.pc f.sup && !(c.id == cell && f.hatch == hatch)
/-- The hatches of some fibres of a cell go to the end of their quadrant's round-robin. -/
def State.hatchesToEnd (s : State) (quad cell : Nat) (idxs : List Nat) : State :=
  match s.cell? cell with
  | none => s
  | some c => (((c.fibres.filter fun f => idxs.contains f.idx).map (·.hatch)).eraseDups).foldl (fun s h => s.toEnd quad cell h) s
/-- R371: a yield ends once its quadrant has issued another hatch's unit, or no other hatch of the quadrant is ready; its hatch, or
the one that it comes back in, goes to the end of the round-robin. free says that what is ready is held up, each at its unit (R27). -/
def releaseYield (s : State) (quad : Nat) (issued : Option (Nat × Nat)) (free : Bool := false) : State :=
  let ys := s.cells.flatMap fun c => c.fibres.filterMap fun f =>
    match f.status with
    | .blocked (.yield p) => if quadOf c.cluster f.idx == quad then some (c.id, f.hatch, f.idx, (p, f.sup)) else none
    | _ => none
  let go := ys.filter fun y =>
    match issued with
    | some (c, h) => !(c == y.1 && h == y.2.1)
    | none => free || !readyOn s quad y.1 y.2.1
  let s := (go.map fun y => (y.1, y.2.1)).eraseDups.foldl (fun s x => s.toEnd quad x.1 x.2) s
  ((go.map fun y => (y.1, y.2.2.2)).eraseDups).foldl (fun s cp =>
    let idxs := (go.filter fun y => y.1 == cp.1 && y.2.2.2 == cp.2).map (·.2.2.1)
    let locked := ((s.cell? cp.1).map (·.locked)).getD false
    if !locked && Config.freeBit s.free then
      (formHatches { s with free := s.free + 1 } cp.1 idxs false).hatchesToEnd quad cp.1 idxs
    else
      let s := { s with free := s.free + 1 }
      let s := match s.cell? cp.1 with
        | none => s
        | some c => s.mapFibres cp.1 fun f => if idxs.contains f.idx && f.atHatchWait then f.wake c else f
      ((go.filter fun y => y.1 == cp.1).map (·.2.1)).eraseDups.foldl (fun s h => settleHatch s cp.1 h) s) s

/-! ### Frames -/

def plcOf (n : Nat) : Place3 := if n = 0 then .scratch else if n = 1 then .vault else .global
/-- The live frame behind a fibre's display register (R50). -/
def State.frameOf (s : State) (f : Fibre) (depth : Nat) : Option Frame := s.frames.find? (·.id == sget 0 f.refs depth)
def State.setFrame (s : State) (i : Nat) (f : Frame → Frame) : State :=
  { s with frames := s.frames.map fun x => if x.id = i then f x else x }
/-- Each valid display register of a fibre counts one reference more (R50). -/
def State.shareAll (s : State) (f : Fibre) : State :=
  f.refs.foldl (fun s x => s.setFrame x.2 fun fr => { fr with count := fr.count + 1 }) s

/-- A retired frame's storage (R58): a plate frame stays program memory; any other returns to its pool, and its slots
read as they stood or as zero. -/
def retire (s : State) (fr : Frame) : State :=
  let s := { s with frames := s.frames.filter (·.id != fr.id) }
  if fr.depth = 1 then s else
  let zero := List.replicate (4 * fr.slots) (0 : Byte)
  let z := Config.freeBit s.free
  let s := { s with free := s.free + 1 }
  if !z then s else
  match fr.plc with
  | .scratch => s.setCell fr.cell fun c => { c with scratch := putBytes c.scratch (fr.base - scratchBase) zero }
  | _ =>
    if heldBack s [] fr.part fr.fn fr.base (4 * fr.slots) then s else
    match homeWrite s ⟨fr.part, fr.fn, true⟩ none fr.base zero with | .ok s' => s' | .error _ => s

/-- The writes by name of a fibre that its leave from depth d hands over: those to that frame and to the frames of lower depth
that it holds (R57). -/
def handedWrites (s : State) (r : FRef) (f : Fibre) (d : Nat) : List Nat :=
  let ids := (f.refs.filter fun x => x.1 ≤ d).map (·.2)
  (s.accs.filter fun a => a.of r && match a.kind with | .slotWrite x => ids.contains x | _ => false).map (·.id)
/-- One fibre leaves its frames of depths 7 down to n, deepest first (R50, R57, R324). Its covered writes are handed to each
count; a frame whose count reaches zero retires once the release of this last leave is done, and keeps its storage until
then. The covers that the leaves wait for are returned: an access or operation, and whether device scope is asked; number 0, that of
none, stands for a release that covers nothing (R196). -/
def leaveFrames (s : State) (r : FRef) (n : Nat) : State × List (Nat × Bool) :=
  match s.fibre? r with
  | some f =>
    let all := s.coverage r
    ((List.range (8 - n)).map (7 - ·)).foldl (fun (s, cov) d =>
      if (f.desc d).isNone then (s, cov) else
      let fr? := s.frameOf f d
      let s := s.setFibre r fun f => { f with disp := sput 0 f.disp d 0, refs := sput 0 f.refs d 0 }
      match fr? with
      | none => (s, cov)
      | some fr =>
        let mine := handedWrites s r f d
        if fr.count ≤ 1 then
          (s.setFrame fr.id fun x => { x with count := 0, leaver := some r }
          , cov ++ (0 :: fr.handed ++ all).map fun a => (a, fr.plc != .scratch))
        else (s.setFrame fr.id fun x => { x with count := x.count - 1, handed := x.handed ++ mine }
             , cov ++ mine.map fun a => (a, false))) (s, [])
  | none => (s, [])
/-- The release of a last leave is done: its frames retire (R57, R58). -/
def retireLeft (s : State) (r : FRef) : State := (s.frames.filter (·.leaver == some r)).foldl retire s

/-- Have the covers of a leave been met (R57, R205)? -/
def leaveDone (s : State) (cluster : Nat) (cov : List (Nat × Bool)) : Bool :=
  cov.all (fun x => s.performed (if x.2 then .dev else .cell) x.1) && (cov.all (!·.2) || s.invalsClear cluster)

/-! ### Plates, as far as the end of a cell needs them -/

/-- ρ ≤ ε, both non-negative FP32 (R61: −0.0 acts as +0.0). -/
def settledRho (rho eps : Word) : Bool := rho.toNat ≤ (if eps.toNat = 0x80000000 then 0 else eps.toNat)
def Entry.occ (e : Entry) : Nat := e.tail - e.head
/-- R79: is the plate converged? -/
def Launch.isConverged (l : Launch) : Bool :=
  match l.kind with
  | .grid => l.cells.all (·.ended)
  | .plate => l.cells.all fun e => settledRho e.rho l.rcd.eps && !e.running
  | .expert => l.cells.all fun e => e.occ == 0 && !e.running
/-- R79: entry into convergence raises the generation; a residual above ε withdraws it. -/
def checkConverged (l : Launch) : Launch :=
  if l.isConverged then (if l.conv then l else { l with conv := true, gen := l.gen + 1 })
  else if l.kind = .grid then l
  else if l.cells.any (fun e => match l.kind with | .expert => e.occ != 0 | _ => !settledRho e.rho l.rcd.eps) then { l with conv := false }
  else l
def Launch.setEntry (l : Launch) (i : Nat) (f : Entry → Entry) : Launch :=
  { l with cells := l.cells.zipIdx.map fun (e, j) => if j = i then f e else e }

/-! ### The end of fibres and cells -/

/-- The entries of an ended pin are freed when the last of its lines has made ARRIVE, or one was refused (R199). -/
def freePins (s : State) : State :=
  { s with pins := s.pins.filter fun q => 
    q.rel != 0 || (q.accs.any (fun a => match s.acc? a with | some x => x.stage != .arrived | none => false)
      && !q.accs.any fun a => match s.acc? a with | some x => (match x.stage with | .refused _ => true | _ => false) | none => false) }
/-- End the pins that satisfy p: their covered lines go to their homes, the stores are released to be sent, and the entries
with nothing left to send are freed (R199). -/
def endPins (s : State) (p : Pin → Bool) : State :=
  let gone := s.pins.filter p
  freePins { s with accs := s.accs.map fun a => if gone.any (fun q => q.accs.contains a.id) then { a with pinned := none } else a
                    pins := s.pins.map fun q => if p q then { q with rel := 0 } else q }

/-- The last fibre of a cell has quit (R28, R72, R84, R184, R199, R355). A CBAR of its cohort may complete by it (R39, R308). -/
def endCell (s : State) (cell : Nat) : State :=
  match s.cell? cell with
  | none => s
  | some c =>
    let s := endPins s (·.cell == cell)
    let key := (c.cluster, c.part, c.fn)
    let left := if c.scratchSize = 0 then s.leftScratch else (key, c.scratch) :: s.leftScratch.filter (·.1 != key)
    let live := s.frames.filter fun (f : Frame) => !(f.plc == .scratch && f.cell == cell)
    let s := { s with leftScratch := left, cells := s.cells.filter (·.id != cell)
                      crosshatch := s.crosshatch.filter (·.cell != cell), frames := live }
    let s := s.setLaunch c.launch fun l =>
      checkConverged (l.setEntry c.index fun e =>
        match l.kind with
        | .grid => { e with rho := 0, ended := true, running := false }
        | _ => { e with arrivals := 0, running := false })
    releaseCohort s c.launch c.cohort

/-- An operation without one of its fibres; none where it was the only one. -/
def Op.without (o : Op) (r : FRef) : Option Op :=
  let rest := o.fibres.filter (fun (x : FRef × Option Nat × Bool) => x.1 != r)
  if rest.isEmpty && !o.fibres.isEmpty then none else some { o with fibres := rest }
/-- An access without one of its fibres: the write of a slot that others made too is theirs from then on (R54); none where it was the only
one's. -/
def Acc.without (a : Acc) (r : FRef) : Option Acc :=
  match (a.owner :: a.also).filter (· != r) with
  | [] => none
  | o :: rest => some { a with owner := o, also := rest }
/-- Steps 2 and 3 of R28: the fibre's references go, its lane slot becomes empty, its index and stack are freed, and with
them what its handler kept for a replay. -/
def finishQuit (s : State) (r : FRef) : State :=
  let s := retireLeft (leaveFrames s r 1).1 r
  let s := { s with accs := s.accs.filterMap fun (a : Acc) => a.without r
                    ops := s.ops.filterMap fun (o : Op) => o.without r }
  let gone (l : List Fibre) : List Fibre := (l.filter (·.idx != r.idx)).map fun f => { f with joinSet := f.joinSet.filter (· != r.idx) }
  let s := s.setCell r.cell fun c => { c with fibres := gone c.fibres }
  match s.cell? r.cell with
  | some c => if c.fibres.isEmpty then endCell s r.cell else s
  | none => s

/-- The covers that a quit's last leaves would wait for (R57). -/
def quitReady (s : State) (r : FRef) : Bool :=
  s.idle r && match s.cell? r.cell with
  | none => true
  | some c => leaveDone s c.cluster (leaveFrames s r 1).2

/-- Fibres blocked in QUIT end as soon as step 1 holds and their last leaves are done, a release at device scope, which ends
pins (R199); leaves end when their covers are met. -/
def releaseQuits (s : State) (cell : Nat) : State :=
  match s.cell? cell with
  | none => s
  | some c => c.fibres.foldl (fun s f =>
      match f.status with
      | .blocked .quit =>
        let s := if s.idle ⟨cell, f.idx⟩ && (leaveFrames s ⟨cell, f.idx⟩ 1).2.any (·.2) then endPins s (·.cell == cell) else s
        if quitReady s ⟨cell, f.idx⟩ then finishQuit s ⟨cell, f.idx⟩ else s
      | .blocked (.fleave cov) =>
        if leaveDone s c.cluster (cov.map fun x => (x / 2, x % 2 == 1)) then
          settleHatch ((retireLeft s ⟨cell, f.idx⟩).setFibre ⟨cell, f.idx⟩ fun f => match f.status with | .blocked (.fleave _) => f.wake c | _ => f) cell f.hatch
        else s
      | _ => s) s

/-! ### Taking an exception -/

def Cause.code : Cause → Nat
  | .illegalInstruction => 0x01 | .illegalClause => 0x02 | .misaligned => 0x03 | .translationFault => 0x04
  | .protectionFault => 0x05 | .illegalAddress => 0x06 | .windowSpill => 0x07 | .windowFill => 0x08
  | .frameFault => 0x09 | .privileged => 0x0A | .trapCall => 0x0B | .breakpoint => 0x0C | .channelFault => 0x0D
  | .matrixFault => 0x0E | .engineError => 0x0F | .uncorrectable => 0x10 | .watchdog => 0x11

/-- The address of a fibre's trap record (R258). -/
def recordAddr (p : Partition) (cluster slot : Nat) : Nat :=
  let c := (p.clusters.idxOf cluster)
  vaultBase + bits p.trapSave.toNat 31 24 * vaultSize + 256 * bits p.trapSave.toNat 18 0 + 256 * (2048 * c + slot)

/-- May the trap be vectored (R261)? -/
def canVector (s : State) (c : Cell) (f : Fibre) : Bool :=
  match s.part? c.part with
  | none => false
  | some p =>
    let a := recordAddr p c.cluster f.slot
    p.trapVec != 0 && !f.sup && (match window a with | some (.vault v) => p.islands.contains (islandOf v) | _ => false)

/-- The 256 bytes of a trap record (R258). -/
def recordBytes (s : State) (r : FRef) (f : Fibre) (t : Trap) : List Byte :=
  let fl := (List.range 12).foldl (fun n i => n + sget 0 f.flags i % 16 * 16 ^ i) 0
  (List.range 32).flatMap (fun i => bytesOfNat 4 (f.reg i).toNat)
    ++ bytesOfNat 4 (loWord f.pc).toNat
    ++ bytesOfNat 1 (f.preds.toNat ||| 1) ++ bytesOfNat 1 (if f.sup then 1 else 0)
    ++ bytesOfNat 1 t.cause.code ++ bytesOfNat 1 t.detail
    ++ bytesOfNat 4 (t.code + 256 * f.lane)
    ++ bytesOfNat 4 (min 16 (s.refusedStores r).length)
    ++ bytesOfNat 8 fl
    ++ bytesOfNat 8 t.faddr
    ++ bytesOfNat 4 t.mxrow ++ bytesOfNat 4 f.spilled ++ bytesOfNat 4 (hiWord f.pc).toNat
    ++ List.replicate 84 0

/-- Step 3 of R260: each pending long-latency operation has completed or been refused, or waits behind one that has. -/
def drained (s : State) (r : FRef) : Bool :=
  s.accs.all (fun a => a.owner != r || a.kind.posted || s.stuck a.id)
  && s.ops.all fun o => o.fibres.all (·.1 != r) || s.stuck o.id

/-- The window that a handler starts with (R260): w0 the cause and detail, x2 the record, zero elsewhere. -/
def handlerWindow (f : Fibre) (w0 : Word) (record : DWord) : Fibre :=
  let f := (List.range 32).foldl (fun f i => f.setReg i 0) f
  (f.setReg 0 w0).setReg64 2 record

/-- A trap record written by the device leaves no L1 an older copy (R191, R260). -/
def invalRecord (s : State) (a : Nat) : State :=
  invalidate (invalidate (invalidate (invalidate s none none (a / 64)) none none (a / 64 + 1)) none none (a / 64 + 2)) none none (a / 64 + 3)
/-- Steps 4 and 5 of R260 for one drained fibre: the record is written at device scope and the handler, which no older copy in its
cluster's L1 may answer, is entered. -/
def enterOne (s : State) (c : Cell) (f : Fibre) (t : Trap) : State :=
  match s.part? c.part with
  | none => s
  | some p =>
    let r : FRef := ⟨c.id, f.idx⟩
    let a := recordAddr p c.cluster f.slot
    let s := invalRecord (dropBlocks { s with mem := putBytes s.mem a (recordBytes s r f t) } c.cluster none a 256) a
    s.setFibre r fun f =>
      let h : Handler := { record := a, trapBase := f.base, place := f.place, mode := f.sup, flags := f.flags, owed := s.own r }
      { handlerWindow f (BitVec.ofNat 32 (t.cause.code + 256 * t.detail)) (BitVec.ofNat 64 a) with
        pc := p.trapVec, sup := true, flags := [], place := {}, status := .ready, handler := some h
        deferred := c.locked }

/-- TRAP_ENTRY: the vectored parked fibres of one hatch at one time enter together, once all have drained and no pin holds
their records back. -/
def enterHandler (s : State) (cell hatch : Nat) : State :=
  match s.cell? cell with
  | none => s
  | some c =>
    let ps := c.fibres.filterMap fun f =>
      match f.status with | .parked t true => if f.hatch == hatch then some (f, t) else none | _ => none
    let held (f : Fibre) : Bool := ((s.part? c.part).map fun p => heldBack s [] c.part c.fn (recordAddr p c.cluster f.slot) 256).getD false
    if ps.isEmpty || !(ps.all fun x => drained s ⟨cell, x.1.idx⟩ && !held x.1) then s
    else settleHatch (ps.foldl (fun s x => enterOne s c x.1 x.2) s) cell hatch

/-- R223: drop the sets, write the cause word, transfer the lane to its resume point once its pending operations have
completed; one that is refused parks the lane at the clause that begins there (R265). -/
def abortTx (s : State) (r : FRef) (w : Word) : State :=
  match s.fibre? r with
  | none => s
  | some f =>
    match f.tx with
    | none => s
    | some x =>
      let cov := (s.accs.filter fun a => a.owner == r && !a.kind.posted && match a.stage with | .refused _ => false | _ => true).map (·.id)
        ++ (s.ops.filter fun o => o.refused.isNone && o.fibres.any (·.1 == r)).map (·.id)
      s.setFibre r fun f => { f with tx := none, stack := sput 0 f.stack x.dst w, pc := x.resume, place := {}
                                     waitAt := x.resume, mate := none
                                     status := if cov.isEmpty then .ready else .fence false false .plain cov }

/-- The DETAIL of a fault that bad data raises is 1, whatever the access (R280). -/
def Cause.detail (c : Cause) (d : Nat) : Nat := if c = .uncorrectable then 1 else d

/-- A trap to raise: the fibre, the trap, the program counter its record holds. -/
structure Raise where
  idx : Nat
  trap : Trap
  pc : DWord
  deriving DecidableEq, Repr

/-- Inside a transaction every cause but UNCORRECTABLE and WATCHDOG becomes an abort with cause 4 (R224). -/
def converts (f : Fibre) (t : Trap) : Bool :=
  f.tx.isSome && t.cause != .uncorrectable && t.cause != .watchdog

/-- Take exceptions in fibres of one hatch (R260, R261, R264): they park, in a hatch of their own in a free cell unless
the whole hatch parks; one that cannot be vectored stays parked and is reported (R287); the others enter their handler at
once when nothing of theirs is pending. A RECV that issues again does not count twice in its clause (R119). -/
def takeTraps (s : State) (cell hatch : Nat) (rs : List Raise) : State :=
  match s.cell? cell with
  | none => s
  | some c =>
    let find (i : Nat) : Option Raise := rs.find? (·.idx == i)
    let aborts := c.fibres.filter fun f => match find f.idx with | some r => converts f r.trap | none => false
    let parks := c.fibres.filter fun f => match find f.idx with | some r => !converts f r.trap | none => false
    let s := aborts.foldl (fun s f =>
      abortTx s ⟨cell, f.idx⟩ (BitVec.ofNat 32 (4 + 256 * (((find f.idx).map (·.trap.cause.code)).getD 0)))) s
    if parks.isEmpty then s else
    let others := c.fibres.any fun f => f.hatch == hatch && !parks.any (·.idx == f.idx)
    let newHatch := if c.locked || !others then hatch else s.next
    let bad := (parks.filter fun f => !canVector s c f).length
    let s := { s with next := s.next + 1 }
    let s := s.setPart c.part fun p => { p with aer := p.aer ++ List.replicate bad 1 }
    let s := s.mapFibres cell fun f =>
      match parks.find? (·.idx == f.idx), find f.idx with
      | some g, some r =>
        let again : Option (DWord × Wait) := match f.status with
          | .blocked (.send ch ws) => some (r.pc, .send ch ws)
          | .blocked (.recv ch d got) => some (r.pc, .recv ch d got)
          | .blocked (.fleave cov) => some (r.pc, .fleave cov)
          | .blocked (.ewait ch n (some e)) => if r.trap.cause = .watchdog then some (r.pc, .ewait ch n (some e)) else f.again
          | _ => f.again
        let f := match f.status with | .blocked (.recv _ _ _) => { f with place := { f.place with ll := f.place.ll - 1 } } | _ => f
        let f := match f.tx with
          | some x => { f with stack := sput 0 f.stack x.dst (BitVec.ofNat 32 (4 + 256 * r.trap.cause.code)), place := {} }
          | none => f
        { f with status := .parked r.trap (canVector s c g), pc := (f.tx.map (·.resume)).getD r.pc, hatch := newHatch, tx := none
                 deferred := false, mate := none, since := s.now, again := again }
      | _, _ => f
    enterHandler s cell newHatch

/-- An EWAIT is over once every lane of it knows how its command ended and its acquire at device scope is done: the lanes
whose command failed trap (R250, R317). -/
def releaseEwaits (s : State) (cell : Nat) : State :=
  match s.cell? cell with
  | none => s
  | some c =>
    let ws := c.fibres.filterMap fun f => match f.status with | .blocked (.ewait _ _ e) => some (f, e) | _ => none
    ((ws.map fun x => (x.1.hatch, x.1.waitAt)).eraseDups).foldl (fun s k =>
      let mine := ws.filter fun x => x.1.hatch == k.1 && x.1.waitAt == k.2
      if !(mine.all (·.2.isSome) && s.invalsClear c.cluster) then s else
      let s := s.mapFibres cell fun f =>
        match f.status with
        | .blocked (.ewait _ _ (some false)) => if mine.any (·.1.idx == f.idx) then f.wake c else f
        | _ => f
      takeTraps (settleHatch s cell k.1) cell k.1 ((mine.filter (·.2 == some true)).map fun x => ⟨x.1.idx, { cause := .engineError }, k.2⟩)) s

/-- Everything that a change in a cell may release: quits, leaves, barriers, EWAIT, RECONV, REGROUP, yields (R28 to R39, R371). -/
def afterChange (s : State) (cell : Nat) : State :=
  let s := releaseQuits s cell
  let s := releaseBar s cell
  let s := releaseCbar s cell
  let s := releaseEwaits s cell
  let s := releaseReconv s cell
  let s := releaseRegroup s cell
  match s.cell? cell with
  | none => s
  | some c =>
    let s := freeMates s cell
    let s := if c.locked then ((c.fibres.map (·.hatch)).eraseDups).foldl (fun s h => schedulePaths s cell h) s else s
    (List.range 4).foldl (fun s q => releaseYield s (4 * c.cluster + q) none) s

/-- A lane that begins to wait at the unit at an address. -/
def Fibre.hold (f : Fibre) (st : Status) (now : Nat) (at_ : DWord) : Fibre :=
  { f with status := st, since := now, waitAt := at_ }

/-! ### One issue of a unit -/

/-- The hint kinds a word accepts (R124): the source fields that are permuted, IMM, RND, cache fields. -/
structure Hints where
  perm : List Src := []
  vi : Bool := false
  imm : Bool := false
  rnd : Bool := false
  cache : Bool := false
  deriving DecidableEq, Repr

/-- A source with code 0b111 has a pattern, and a pattern has such a source (R123). -/
def patFits (src : Option Src) (pat : Option Pat) : Bool :=
  match src, pat with
  | some x, some _ => x.perm == .ext
  | some x, none => x.perm != .ext
  | none, some _ => false
  | none, none => true

def hintPats (hs : List Instr) : Option Pat × Option Pat :=
  (hs.findSome? fun | .hintPerm a b => some (a, b) | _ => none).getD (none, none)
def Grp.pats (g : Grp) : List (Option Pat) := [(hintPats g.hints).1, (hintPats g.hints).2]
def Grp.rnd (g : Grp) : RndMode := (g.hints.findSome? fun | .hintMod r _ _ => some r | _ => none).getD .none
def Grp.imm (g : Grp) : Option (BitVec 22) := g.hints.findSome? fun | .hintImm h => some h | _ => none
def Grp.cls (g : Grp) : Option Nat := (g.hints.findSome? fun | .hintMod _ c _ => some (c.map (·.val)) | _ => none).getD none
def Grp.nt (g : Grp) : Bool := (g.hints.findSome? fun | .hintMod _ _ n => some n | _ => none).getD false

/-- Check 5 of R131: does the word accept its hints? -/
def hintsFit (k : Hints) (hs : List Instr) : Bool :=
  (hs.all fun
    | .hintImm _ => k.imm
    | .hintPerm _ _ => k.vi
    | .hintMod r c nt => (r == .none || k.rnd) && ((c.isNone && !nt) || k.cache)
    | _ => true)
  && patFits k.perm[0]? (hintPats hs).1 && patFits k.perm[1]? (hintPats hs).2

/-- End the issue: the hints go, a yield hint sends the hatch to the end of the round-robin (R253), the hatch divides or
its paths are scheduled, waits that the change meets end. -/
def closeUnit (s : State) (g : Grp) : State :=
  let c := g.cell
  let s := { s with cur := { s.cur with opened := false, hints := [] } }
  let s := settleHatch (markMates s g) c.id g.hatch
  let s := releaseYield s g.quad (some (c.id, g.hatch))
  let yld := g.hints.any fun | .hintSched y => y | _ => false
  let s := if yld then s.toEnd g.quad c.id g.hatch else s
  afterChange s c.id

/-- The unit cannot issue yet: nothing has happened, its hatch stays ready (R27, R53, R119). -/
def stallUnit (s : State) : State := { s with cur := { s.cur with opened := false, hints := [] } }

/-- The same trap in every fibre of the group (R132). -/
def trapGroup (s : State) (g : Grp) (t : Trap) : State :=
  closeUnit (takeTraps s g.cell.id g.hatch (g.members.map fun f => ⟨f.idx, t, g.first⟩)) g

/-- The park points of R265: a clause start with its wait mask; one for stores alone (a fence, a release, a full record); the
first step of QUIT. -/
inductive ParkAt where | clause (mask : BitVec 12) | stores | quit deriving DecidableEq, Repr
/-- The deferred fault that a fibre raises at a park point: that of its earliest refused request of the kinds that park there
(R176, R265, R267). -/
def parkDue (s : State) (r : FRef) (p : ParkAt) : Option Trap :=
  let loadAt (fl : Option Nat) : Bool := match p, fl with
    | .quit, _ => true
    | .clause m, some n => m.getLsbD n
    | _, _ => false
  let stores := match p with | .clause m => m != 0 | _ => true
  let kept := s.kept r
  let accs := s.accs.filterMap fun a =>
    match a.stage with
    | .refused c =>
      if a.of r && !kept.contains a.id && (if a.kind.posted then stores else loadAt a.flag) then
        some (a.id, ({ cause := c, faddr := a.va
                       detail := c.detail (match a.kind with | .load => 1 | .store | .slotWrite _ | .sti => 2 | _ => 3) } : Trap))
      else none
    | _ => none
  let ops := s.ops.filterMap fun (o : Op) =>
    match o.refused, o.fibres.find? (·.1 == r) with
    | some t, some x => if !kept.contains o.id && (match o.kind with | .scatter _ _ _ _ => stores | _ => loadAt x.2.1) then some (o.id, t) else none
    | _, _ => none
  (sortBy (fun (a b : Nat × Trap) => decide (a.1 ≤ b.1)) (accs ++ ops)).head?.map (·.2)

/-- A fibre that already waits at a park point of R265 parks when a request of its is refused there. A wait for completions
alone (an abort, a replay) ends at a clause start, where every request parks. -/
def parkStuck (s : State) (r : FRef) : State :=
  match s.fibre? r with
  | none => s
  | some f =>
    let due : Option Trap := match f.status with
      | .waitFlags m => parkDue s r (.clause m)
      | .fence eng mx sc cov =>
        if cov.isEmpty then none else parkDue s r (if sc == .plain && !eng && !mx then .quit else .stores)
      | .blocked .quit => parkDue s r .quit
      | .blocked (.fleave _) | .blocked .cbar | .blocked .settle => parkDue s r .stores
      | _ => none
    match due with
    | none => s
    | some t => takeTraps s r.cell f.hatch [⟨r.idx, t, match f.status with | .waitFlags _ => f.pc | _ => f.waitAt⟩]

/-- The start of a clause (R118): fibres with a deferred fault at this point park; otherwise the clause begins when the
flags of the mask are zero in every fibre, and until then its fibres wait. Answers whether the clause began. -/
def startClause (s : State) (g : Grp) (mask : BitVec 12) (p : Place) : State × Bool :=
  let due := g.members.filterMap fun f => (parkDue s ⟨g.cell.id, f.idx⟩ (.clause mask)).map fun t => (⟨f.idx, t, g.first⟩ : Raise)
  if !due.isEmpty then (closeUnit (takeTraps s g.cell.id g.hatch due) g, false)
  else if g.members.all fun f => f.flagsClear mask then
    (s.mapFibres g.cell.id fun f =>
      if g.members.any (·.idx == f.idx) then { f with place := { p with begun := true, active := condHolds p.guard f } } else f, true)
  else
    (closeUnit (s.mapFibres g.cell.id fun f =>
      if g.members.any (·.idx == f.idx) then { f.hold (.waitFlags mask) s.now g.first with place := p } else f) g, false)

/-- The group without some of its members. -/
def Grp.only (g : Grp) (ms : List Fibre) : Grp := { g with members := ms }

/-- The members of a group as the state now holds them. -/
def Grp.refresh (g : Grp) (s : State) : Grp :=
  match s.cell? g.cell.id with
  | none => g
  | some c => { g with cell := c, members := c.fibres.filter fun f => g.members.any (·.idx == f.idx)
                       view := c.fibres.filter fun f => g.view.any (·.idx == f.idx) }

/-- Mark the accesses and operations that one instruction made, from number n on, as one issue (R211, R242). -/
def sameIssue (n : Nat) (s : State) : State :=
  { s with accs := s.accs.map fun a => if n ≤ a.id then { a with issue := n } else a
           ops := s.ops.map fun o => if n ≤ o.id then { o with issue := n } else o }

/-- The members of a group past the word in hand, a long-latency word counted (R118, R119). -/
def passed (s : State) (g : Grp) (ll : Bool) : State :=
  s.mapFibres g.cell.id fun f =>
    if g.members.any (·.idx == f.idx) then
      { f with pc := g.at_ + 4, place := if ll then { f.place with ll := f.place.ll + 1 } else f.place }
    else f

/-- A unit begins with its first word, a HINT included: where its members stand between clauses, the implicit clause begins
(R116, R118): the flags of those that begin it alone are awaited, where paths have merged in the midst of a clause (DESIGN
CHOICE: R118 speaks of every fibre of the path, and not of one of which only some begin a clause). Answers whether the unit may go
on. -/
def beginUnit (s : State) (g : Grp) : State × Bool :=
  if g.members.all (·.place.begun) then (s, true)
  else startClause s (g.only (g.members.filter (!·.place.begun))) 0xFFF {}
/-- One issue of a unit: the implicit clause (R116), checks 5 to 7 of R131, the full flag (R119), then the body on the
group with its program counters already past the word. The body answers none where the unit cannot issue yet. -/
def unit (s : State) (hints : Hints) (ll priv : Bool) (body : State → Grp → Option State) : Out :=
  match s.grp? with
  | none => .next s
  | some g =>
    let (s1, go) := beginUnit s g
    let g := if g.members.all (·.place.begun) then g else g.refresh s1
    if !go then .next s1
    else if !hintsFit hints g.hints then .next (trapGroup s1 g { cause := .illegalInstruction })
    else
      if ll && g.members.any (fun f => 2 ≤ f.place.ll) then .next (trapGroup s1 g { cause := .illegalClause })
      else if priv && g.members.any (!·.sup) then .next (trapGroup s1 g { cause := .privileged })
      else
        let s2 := passed s1 g ll
        let g := { g.refresh s2 with ll := ll }
        if ll && g.active.any (fun f => match f.llFlag with | some n => 15 ≤ f.flag n | none => false) then .next (stallUnit s1)
        else match body s2 g with
          | none => .next (stallUnit s1)
          | some s3 => .next (closeUnit (sameIssue s.next s3) g)

/-- A word in hand that will issue again does not count in its clause (R118, R119). -/
def Fibre.uncount (g : Grp) (f : Fibre) : Fibre := if g.ll then { f with place := { f.place with ll := f.place.ll - 1 } } else f
/-- The group's own traps, at the address of the unit (R121, R256). -/
def raiseLanes (s : State) (g : Grp) (ts : List (Nat × Trap)) : State :=
  if ts.isEmpty then s else
  takeTraps (s.mapFibres g.cell.id fun f => if ts.any (·.1 == f.idx) then f.uncount g else f) g.cell.id g.hatch
    (ts.map fun t => ⟨t.1, t.2, g.first⟩)
/-- Lanes whose slot reads their homes refuse park before the unit takes effect in any lane; the others issue it again
(R265). -/
def parkReads (s : State) (g : Grp) (ts : List (Nat × Trap)) : State :=
  takeTraps (s.mapFibres g.cell.id fun f => if g.members.any (·.idx == f.idx) then { f.uncount g with pc := g.first } else f)
    g.cell.id g.hatch (ts.map fun t => ⟨t.1, t.2, g.first⟩)

/-- A fibre's own scratch loads still in flight over these bytes take their values now (R187). -/
def settleScratch (s : State) (c : Cell) (r : FRef) (off n : Nat) : State :=
  { s with accs := s.accs.map fun a =>
      if a.owner == r && a.kind == .load && a.stage == .queued && decide (scratchBase ≤ a.va)
          && decide (a.va - scratchBase < off + n) && decide (off < a.va - scratchBase + a.len) then
        { a with stage := .arrived, result := bytesAt c.scratch (a.va - scratchBase) a.len }
      else a }
/-- Cohort scope or wider. -/
def wide (sc : Scope) : Bool := match sc with | .coh | .dev | .sys => true | _ => false
/-- A posted write of one lane (R366) enters the ordering machine; also names the lower lanes whose write it is too (R54). A later store
that overlaps a refused one of one of them is refused as well (R266). -/
def postStore (s : State) (c : Cell) (f : Fibre) (kind : AccKind) (va : Nat) (data : List Byte) (ord : Scope)
    (cls : Option Nat) (nt : Bool) (also : List FRef := []) : State :=
  let r : FRef := ⟨c.id, f.idx⟩
  let clash := ((r :: also).flatMap s.refusedStores).find? fun q => decide (q.va < va + data.length) && decide (va < q.va + q.len)
  let s := if wide ord then endPins s (·.cell == c.id) else s
  s.post { mkAcc s c f kind va data.length data ord with
    cls := cls, nt := nt, relDone := ord == .plain, covers := if ord == .plain then [] else s.coverage r, also := also
    stage := match clash with | some q => q.stage | none => .queued }
/-- Replace the bytes from a on within bytes that stand from base on. -/
def patchBytes (base : Nat) (bytes : List Byte) (a : Nat) (bs : List Byte) : List Byte :=
  bytes.zipIdx.map fun (b, i) => if a ≤ base + i ∧ base + i < a + bs.length then bs.getD (base + i - a) 0 else b
/-- A store's bytes enter every valid L1 block of its own cluster that holds them (R191). -/
def writeBlocks (s : State) (cluster : Nat) (tag : Option Nat) (a : Nat) (bs : List Byte) : State :=
  { s with blocks := s.blocks.map fun b =>
      if b.cluster = cluster ∧ b.asid = tag then { b with bytes := patchBytes b.base b.bytes a bs } else b }
/-- The L1 blocks of a cluster's lines under the words of a store that have yet to ARRIVE. -/
def Acc.coverBlocks (q : Acc) (cluster : Nat) (tag : Option Nat) (s : State) : State :=
  { s with blocks := s.blocks.map fun b => if b.cluster = cluster ∧ b.asid = tag then { b with bytes := q.patchOver b.base b.bytes } else b }
/-- A write that reaches its home, id, enters its cluster's L1 blocks under the cluster's stores still pending (R191). -/
def settleBlocks (s : State) (id cluster : Nat) (tag : Option Nat) (a : Nat) (bs : List Byte) : State :=
  (s.accs.filter fun q => q.id != id && q.kind.isStore && q.inFlight && q.cluster == cluster && tagOf s q.part q.fn q.va == tag
      && decide (q.va < a + bs.length) && decide (a < q.va + q.len)).foldl (fun s q => q.coverBlocks cluster tag s)
    (writeBlocks s cluster tag a bs)
/-- Is a refusal record full (R266)? -/
def State.recordFull (s : State) (r : FRef) : Bool := decide (16 ≤ (s.refusedStores r).length)

/-- Does a write of depth and slot stay in the cell's scratch or in its update (R73), and leave no store? -/
def slotStays (s : State) (c : Cell) (f : Fibre) (depth : Nat) : Bool :=
  match f.desc depth with
  | none => true
  | some d => d.plc == 0 || (depth == 1 && ((s.launch? c.launch).map (·.kind != .grid)).getD false && !c.settled)
/-- A write by name or by FST (R54, R55, R73, R205): scratch in place; a plate frame inside its own update is held; the
rest is a plain store. also names the lower lanes whose write of the slot this one is too. A write to scratch that an own earlier one
to its bytes or its frame, or a GATHER of its bytes, still waits before leaves the lane queue in its turn (R55, R190). -/
def postSlot (s : State) (c : Cell) (f : Fibre) (depth slot : Nat) (v : Word) (also : List FRef := []) : State :=
  match f.desc depth with
  | none => s
  | some d =>
    let a := d.base + 4 * slot
    let bs := bytesOfNat 4 v.toNat
    let ref := sget 0 f.refs depth
    let post : State := postStore s c f (.slotWrite ref) a bs .plain none false also
    let rs : List FRef := ⟨c.id, f.idx⟩ :: also
    let behind := (s.accs.any fun x => x.stage == .queued && x.kind.isStore && rs.any x.of
        && (x.kind == .slotWrite ref || (decide (x.va < a + 4) && decide (a < x.va + x.len))))
      || s.ops.any fun o => rs.contains o.owner && o.mayRead a 4
    if d.plc = 0 ∧ behind then post
    else if d.plc = 0 then
      (also.foldl (fun s r => settleScratch s c r (a - scratchBase) 4) (settleScratch s c ⟨c.id, f.idx⟩ (a - scratchBase) 4)).setCell c.id
        fun c => { c with scratch := putBytes c.scratch (a - scratchBase) bs }
    else if slotStays s c f depth then
      s.setCell c.id fun c => { c with held := c.held.filter (fun x => !(decide (a ≤ x.1) && decide (x.1 < a + 4)))
                                              ++ bs.zipIdx.map fun (b, i) => (a + i, b) }
    else post

/-- The effects of lanes, each computed from the state before (R11 to R13): fibres, status bits, then slots in ascending
lane order. Lanes that write one slot make one write, of the highest lane's value, that is the write of each of them (R54). -/
def writeEffs (s : State) (g : Grp) (ok : List (Nat × Eff)) : State :=
  let s := s.mapFibres g.cell.id fun f => ((ok.find? (·.1 == f.idx)).map (·.2.fib)).getD f
  let s := s.setCell g.cell.id fun c => { c with arith := ok.foldl (fun a x => a ||| x.2.status) c.arith }
  let slots := ok.filterMap fun x => x.2.slot.map fun w => (x.2.fib, w)
  let addr (x : Fibre × (Nat × Nat × Word)) : Option (Nat × Nat) := (x.1.desc x.2.1).map fun d => (d.plc, d.base + 4 * x.2.2.1)
  let last := slots.zipIdx.filter fun (x, i) => !(slots.drop (i + 1)).any fun y => addr y == addr x
  let lower (x : (Fibre × (Nat × Nat × Word)) × Nat) : List FRef :=
    ((slots.take x.2).filter fun y => addr y == addr x.1).map fun y => (⟨g.cell.id, y.1.idx⟩ : FRef)
  last.foldl (fun s x => postSlot s g.cell x.1.1 x.1.2.1 x.1.2.2.1 x.1.2.2.2 (lower x)) s

/-- A lane whose write by name finds the refusal record full parks there (R266). -/
def slotRoom (s : State) (g : Grp) (e : Nat × Res Eff) : Nat × Res Eff :=
  match e.2 with
  | .ok x =>
    match x.slot with
    | some w =>
      if !slotStays s g.cell x.fib w.1 && s.recordFull ⟨g.cell.id, e.1⟩ then
        match parkDue s ⟨g.cell.id, e.1⟩ .stores with
        | some t => (e.1, .trap t)
        | none => e
      else e
    | none => e
  | _ => e
/-- Commit the effects of the active lanes, then raise their traps; none where a lane's effect must wait. -/
def commitLanes (s : State) (g : Grp) (effs : List (Nat × Res Eff)) : Option State :=
  if effs.any (fun e => match e.2 with
      | .stall => true
      | .ok x => x.slot.isSome && s.acqPending ⟨g.cell.id, e.1⟩
      | _ => false) then none else
  let effs := effs.map (slotRoom s g)
  let s := writeEffs s g (effs.filterMap fun e => match e.2 with | .ok x => some (e.1, x) | _ => none)
  some (raiseLanes s g (effs.filterMap fun e => match e.2 with | .trap t => some (e.1, t) | _ => none))

/-- The lanes whose reads of slots are refused (R265). -/
def refusedReads (s : State) (g : Grp) (srcs : List Field) : List (Nat × Trap) :=
  g.active.filterMap fun f => (readRefused s g f g.pats srcs).map fun t => (f.idx, t)

/-- The body of an instruction that acts lane by lane on its source fields: op gives the effect of one lane from its
fibre, whose queues have been popped, and its operands. A lane that traps has no effect at all here: its pops too are undone,
and happen when the unit runs again (DESIGN CHOICE: R13 and R114 leave it open). -/
def laneBody (srcs : List Field) (op : State → Grp → Fibre → List DWord → Res Eff) (s : State) (g : Grp) : Option State :=
  let bad := refusedReads s g srcs
  if !bad.isEmpty then some (parkReads s g bad) else
  (commitLanes s g (g.active.map fun f =>
    (f.idx, (operands s g f g.pats srcs).bind fun vs => op s g (f.popAll (srcs.map (·.1.name))) vs))).map
      (markReads s g (srcs.map (·.1.name)))

/-- An instruction that is not lane by lane but reads sources in each active lane goes on with its operands by lane, on the
state with the queues popped and the lanes taken out that trapped at a pop or a slot read. A lane that the instruction traps
later keeps its pops: they are consumed when the unit runs again (DESIGN CHOICE: R13 and R114 leave it open). -/
def withLanes (srcs : List Field) (s : State) (g : Grp) (k : State → Grp → List (Fibre × List DWord) → Option State) : Option State :=
  let bad := refusedReads s g srcs
  if !bad.isEmpty then some (parkReads s g bad) else
  let rs := g.active.map fun f => (f, operands s g f g.pats srcs)
  if rs.any (fun r => match r.2 with | .stall => true | _ => false) then none else
  let ts := rs.filterMap fun r => match r.2 with | .trap t => some (r.1.idx, t) | _ => none
  let vals := rs.filterMap fun r => match r.2 with | .ok v => some (r.1.popAll (srcs.map (·.1.name)), v) | _ => none
  let u := s.mapFibres g.cell.id fun f => ((vals.find? (·.1.idx == f.idx)).map (·.1)).getD f
  let u := raiseLanes (markReads s g (srcs.map (·.1.name)) u) g ts
  k u (g.refresh u) vals

/-- What a lane reads of a source field of a word that acts once (R182, R341): the lowest active lane all of it, the others
their own data (per) and the queues that pop in every active lane; they read a constant for the rest. -/
def lowField (low per : Bool) (x : Field) : Field :=
  if low || per || (match x.1.name with | .q _ => true | _ => false) then x else plainSrc (.k 0) .b32
/-- A word that acts once goes on with its lanes, the lowest active first, whose operands alone count but for the fields
marked per. A fault of an operand leaves it without effect; it is raised in every active lane when all is set (R341), else in
its own lane, the others going on past it (R306). -/
def withLowest (all : Bool) (srcs : List (Field × Bool)) (s : State) (g : Grp)
    (k : State → Grp → List (Fibre × List DWord) → Option State) : Option State :=
  let low (f : Fibre) : Bool := (g.lowest.map (·.idx)) == some f.idx
  let fields (f : Fibre) : List Field := srcs.map fun x => lowField (low f) x.2 x.1
  let rs := g.active.map fun f => (f, operands s g f g.pats (fields f))
  if rs.any (fun r => match r.2 with | .stall => true | _ => false) then none else
  let ts := rs.filterMap fun r => match r.2 with | .trap t => some (r.1.idx, t) | _ => none
  match all, ts with
  | true, t :: _ => some (raiseLanes s g (g.active.map fun f => (f.idx, t.2)))
  | _, _ =>
    let vals := rs.filterMap fun r => match r.2 with | .ok v => some (r.1.popAll ((fields r.1).map (·.1.name)), v) | _ => none
    let u := s.mapFibres g.cell.id fun f => ((vals.find? (·.1.idx == f.idx)).map (·.1)).getD f
    let u := markReads s { g with members := g.members.filter low } (srcs.map (·.1.1.name)) u
    let u := markReads s g ((srcs.filter (·.2)).map (·.1.1.name)) u
    let u := raiseLanes u g ts
    match vals with
    | x :: _ => if low x.1 then k u (g.refresh u) vals else some u
    | [] => k u (g.refresh u) vals

/-- Act in ascending lane order on the state the lanes below left (R282, R328, R366); a lane may trap. -/
def foldLanes (s : State) (g : Grp) (xs : List (Fibre × List DWord))
    (op : State → Fibre → List DWord → State × Option Trap) : State :=
  let (s, ts) := xs.foldl (fun (s, ts) x =>
    let cur := ((s.fibre? ⟨g.cell.id, x.1.idx⟩).getD x.1)
    let (s, t) := op s cur x.2
    (s, match t with | some t => ts ++ [(x.1.idx, t)] | none => ts)) (s, ([] : List (Nat × Trap)))
  raiseLanes s g ts

/-- An instruction barred in a transaction (R224): lanes inside one abort with cause 4 and 0x01; the others go on. -/
def barTx (s : State) (g : Grp) (ms : List Fibre) : State × List Fibre :=
  let inTx := ms.filter (·.tx.isSome)
  (inTx.foldl (fun s f => abortTx s ⟨g.cell.id, f.idx⟩ 0x0104) s, ms.filter (·.tx.isNone))

/-- A control transfer (R115): the fibre stands at pc, where a clause begins. -/
def Fibre.jump (f : Fibre) (pc : DWord) : Fibre := { f with pc := pc, place := {} }

end Sys2Proof.Machine
end

