-- ==== Sys2Proof/Machine/Draw.lean ====
section
/-! DEFINITION. The counter generator (R151, R152), the RN8 byte and its conversions (R144 to R147). -/

namespace Sys2Proof.Machine

def rotA : List Nat := [7, 9, 13, 18, 5, 11, 16, 22, 3, 27]
def rotB : List Nat := [12, 20, 6, 25, 14, 2, 19, 10, 28, 8]

/-- One round of the generator (R151). -/
def drawRound (i : Nat) (st : Word × Word × Word × Word × Word × Word) : Word × Word × Word × Word × Word × Word :=
  let (k0, k1, x0, x1, x2, x3) := st
  let (ka, kb) := if i % 2 = 0 then (k0, k1) else (k1, k0)
  let x0 := x0 + x1 + ka
  let x1 := x1.rotateLeft (rotA.getD i 0) ^^^ x0
  let x2 := x2 + x3 + kb
  let x3 := x3.rotateLeft (rotB.getD i 0) ^^^ x2
  (k0 + 0x9E3779B9, k1 + 0xBB67AE85, x0, x3, x2, x1)

/-- Block(key0, key1; x0 to x3) (R151): output word n. -/
def block (k0 k1 x0 x1 x2 x3 : Word) (n : Nat) : Word :=
  let (_, _, a, b, c, d) := (List.range 10).foldl (fun st i => drawRound i st) (k0, k1, x0, x1, x2, x3)
  match n with | 0 => a | 1 => b | 2 => c | _ => d

/-- The words of lane L's draw (R151): c3 is k62 for DRAW and SAMPLE, k63 for a rounding. -/
def drawWord (c : Cell) (f : Fibre) (rounding : Bool) (n : Nat) : Word :=
  block (sget 0 c.k 60) (sget 0 c.k 61) f.dc (BitVec.ofNat 32 f.idx) (BitVec.ofNat 32 c.index)
    (sget 0 c.k (if rounding then 63 else 62)) n

/-- The residue byte of an integer (R144). -/
def rn8Of (v : Int) : Byte :=
  BitVec.ofNat 8 ((v % 7).toNat * 32 + (v % 8).toNat * 4 + (v % 3).toNat)
/-- A void byte (R144). -/
def rn8Void (b : Byte) : Bool := b.toNat / 32 == 7 || b.toNat % 4 == 3
/-- The value of a valid byte (R144). -/
def rn8Val (b : Byte) : Int :=
  let n := (120 * (b.toNat / 32) + 105 * (b.toNat / 4 % 8) + 112 * (b.toNat % 4)) % 168
  if n < 84 then n else n - 168

/-- A format slot of the cell's launch (R146). -/
def fmtSlot (s : State) (c : Cell) (i : Nat) : BitVec 16 := ((s.launch? c.launch).map fun l => l.rcd.fmt.getD i 0).getD 0
def fmtAFMT (b : BitVec 16) : Nat := bits b.toNat 15 14
def fmtSCL (b : BitVec 16) : Nat := bits b.toNat 11 10
def fmtSYM (b : BitVec 16) : Bool := b.getLsbD 9
def fmtCLP (b : BitVec 16) : Bool := b.getLsbD 8

/-- QCVT of one value (R145): byte and status. u is the drawn word. -/
def qcvt8 (sym : Bool) (u x sc : Word) : Byte × Word :=
  let lo : Int := if sym then -83 else -84
  match val32 x, val32 sc with
  | .nan _, _ => (0xFF, stNV)
  | _, .nan _ => (0xFF, stNV)
  | _, .inf _ => (0xFF, stNV)
  | a, b =>
    match b with
    | .fin _ 0 _ _ => (0xFF, stNV)
    | _ =>
      match divEx a b with
      | .fin neg num den e =>
        let (n, d) := frac num den e
        let m := if d ≤ n then (roundInt .rne neg num den e).1
                 else if (2 * (u.toNat / 256) + 1) * d < n * 2 ^ 25 then 1 else 0
        let v : Int := if neg then -(m : Int) else m
        let exact := decide (n = m * d)
        let (v', sat) := if 83 < v then ((83 : Int), true) else if v < lo then (lo, true) else (v, false)
        (rn8Of v', (if sat then stOF else 0) ||| (if sat || !exact then stIX else 0))
      | .inf neg => (rn8Of (if neg then lo else 83), stOF ||| stIX)
      | .nan _ => (0xFF, stNV)

/-- QDEQ of one byte (R145, R354): value and status. -/
def qdeq8 (sym : Bool) (b : Byte) (sc : Word) : Word × Word :=
  if rn8Void b || (sym && b == 0x10) then (0x7FC00000, stNV)
  else
    let r := rne32 (mulEx (ofInt (rn8Val b)) (val32 sc))
    match val32 sc with
    | .nan s => (0x7FC00000, if s then stNV else 0)
    | _ => r

end Sys2Proof.Machine
end

