-- ==== Sys2Proof/Machine/Flags.lean ====
section
/-! DEFINITION. What decides a predicate, and how a lane's status bits and draw counter move: ICMP's conditions (R331),
the status words (R141, R142), the drawing instructions (R152). -/

namespace Sys2Proof.Machine

/-- The condition of ICMP (R331) on operands of w bits: signed for .s32 and .s64. -/
def icond (c : ICond) (signed : Bool) {w : Nat} (a b : BitVec w) : Bool :=
  let lt := if signed then decide (a.toInt < b.toInt) else decide (a.toNat < b.toNat)
  match c with
  | .eq => a == b
  | .ne => a != b
  | .lt => lt
  | .le => lt || a == b
  | .gt => !(lt || a == b)
  | .ge => !lt
  | .test => (a &&& b) != 0
def icmpWith (f : MinF) (c : ICond) (a b : DWord) : Bool :=
  match f with
  | .s32 => icond c true (loWord a) (loWord b)
  | .z32 => icond c false (loWord a) (loWord b)
  | .s64 => icond c true a b
  | .z64 => icond c false a b

/-- One draw made: dc rises by one and wraps (R152). -/
def Fibre.drew (f : Fibre) : Fibre := { f with dc := f.dc + 1 }

/-- The rounding in force in a unit (R124, R135). -/
def rndOf (g : Grp) (sr : Bool) : RndMode := if sr then .sr else match g.rnd with | .none => .rne | r => r

/-- The unit number of a quadrant's matrix status, read and cleared (R141). -/
def State.mx (s : State) (quad : Nat) : Word := sget 0 s.mxStatus quad
def State.setMx (s : State) (quad : Nat) (v : Word) : State := { s with mxStatus := sput 0 s.mxStatus quad v }
/-- The function that last set a unit's MX.STATUS, as the model numbers it; its reset and its swap take the word (R142, R277). -/
def mxOwner (part fn : Nat) : Nat := 1 + 128 * part + fn
def State.setMxBy (s : State) (quad part fn : Nat) : State := { s with mxBy := sput 0 s.mxBy quad (mxOwner part fn) }

/-- OR status bits into a cell's ARITH.STATUS (R142). -/
def State.orArith (s : State) (cell : Nat) (v : Word) : State := s.setCell cell fun c => { c with arith := c.arith ||| v }

end Sys2Proof.Machine
end

