-- ==== Sys2Proof/Machine/Alu.lean ====
section
/-! DEFINITION. The integer, logic, bit and move instructions (R307, R310, R312, R329 to R335, R339, R350 to R352, R361,
R364), one meaning per instruction over one lane-by-lane shape. -/

namespace Sys2Proof.Machine

/-- A two-source instruction of one width: its value goes to the destination. -/
def alu2 (w : Wd) (d : Name) (a b : Src) (op : DWord → DWord → DWord) (s : State) : Out :=
  unit s { perm := [a, b], vi := true } false false
    (laneBody [(a, w), (b, w)] fun _ _ f vs => putWd w f d (op (vs.getD 0 0) (vs.getD 1 0)))
/-- A one-source instruction whose result has its own width. -/
def alu1 (w wd : Wd) (d : Name) (a : Src) (op : DWord → DWord) (s : State) : Out :=
  unit s { perm := [a], vi := true } false false
    (laneBody [(a, w)] fun _ _ f vs => putWd wd f d (op (vs.getD 0 0)))

def in32 (op : Word → Word → Word) (a b : DWord) : DWord := (op (loWord a) (loWord b)).setWidth 64
/-- An integer held to a range and written in 32 bits (R330). -/
def clampTo (lo hi v : Int) : Word := BitVec.ofInt 32 (if v < lo then lo else if hi < v then hi else v)

/-- IADD and ISUB (R330). -/
def addOp (f : AddF) (neg : Bool) (a b : DWord) : DWord :=
  let x := loWord a
  let y := loWord b
  match f with
  | .b32 => (if neg then x - y else x + y).setWidth 64
  | .b64 => if neg then a - b else a + b
  | .s32sat => (clampTo (-(2 ^ 31)) (2 ^ 31 - 1) (if neg then x.toInt - y.toInt else x.toInt + y.toInt)).setWidth 64
  | .z32sat => (clampTo 0 (2 ^ 32 - 1) (if neg then (x.toNat : Int) - y.toNat else (x.toNat : Int) + y.toNat)).setWidth 64
def execIadd (f : AddF) (d : Name) (a b : Src) (s : State) : Out := alu2 f.wd d a b (addOp f false) s
def execIsub (f : AddF) (d : Name) (a b : Src) (s : State) : Out := alu2 f.wd d a b (addOp f true) s

/-- IMUL and IMULH (R335). -/
def mulOp (f : Wd) (a b : DWord) : DWord := match f with | .b32 => in32 (· * ·) a b | .b64 => a * b
def mulhOp (f : Sgn) (a b : DWord) : DWord :=
  match f with
  | .s => (hiWord ((loWord a).signExtend 64 * (loWord b).signExtend 64)).setWidth 64
  | .z => (hiWord ((loWord a).setWidth 64 * (loWord b).setWidth 64)).setWidth 64
def execImul (f : Wd) (d : Name) (a b : Src) (s : State) : Out := alu2 f d a b (mulOp f) s
def execImulh (f : Sgn) (d : Name) (a b : Src) (s : State) : Out := alu2 .b32 d a b (mulhOp f) s

/-- An instruction that reads its destination as a third source (R333, R332, R318). -/
def alu3 (w wd : Wd) (d : Name) (a b : Src) (op : DWord → DWord → DWord → DWord) (s : State) : Out :=
  unit s { perm := [a, b], vi := true } false false
    (laneBody [(a, w), (b, w), plainSrc d wd] fun _ _ f vs => putWd wd f d (op (vs.getD 0 0) (vs.getD 1 0) (vs.getD 2 0)))
/-- IMAD (R333). -/
def madOp (f : MadF) (a b c : DWord) : DWord :=
  match f with
  | .b32 => (loWord a * loWord b + loWord c).setWidth 64
  | .s32 => (loWord a).signExtend 64 * (loWord b).signExtend 64 + c
  | .z32 => (loWord a).setWidth 64 * (loWord b).setWidth 64 + c
def execImad (f : MadF) (d : Name) (a b : Src) (s : State) : Out :=
  alu3 .b32 (match f with | .b32 => .b32 | _ => .b64) d a b (madOp f) s

/-- IMIN and IMAX (R334). -/
def minOp (f : MinF) (isMax : Bool) (a b : DWord) : DWord := if (icmpWith f .lt a b) != isMax then a else b
def execImin (f : MinF) (d : Name) (a b : Src) (s : State) : Out := alu2 f.wd d a b (minOp f false) s
def execImax (f : MinF) (d : Name) (a b : Src) (s : State) : Out := alu2 f.wd d a b (minOp f true) s

/-- AND, OR, XOR, ANDN (R307). -/
def execAnd (f : Wd) (d : Name) (a b : Src) (s : State) : Out := alu2 f d a b (· &&& ·) s
def execOr (f : Wd) (d : Name) (a b : Src) (s : State) : Out := alu2 f d a b (· ||| ·) s
def execXor (f : Wd) (d : Name) (a b : Src) (s : State) : Out := alu2 f d a b (· ^^^ ·) s
def execAndn (f : Wd) (d : Name) (a b : Src) (s : State) : Out := alu2 f d a b (fun x y => x &&& ~~~y) s

/-- The shifts (R361): the count is all 32 bits of B, unsigned. -/
inductive Sh where | l | r | a deriving DecidableEq, Repr
def shiftOp (k : Sh) (f : Wd) (v n : DWord) : DWord :=
  let n := (loWord n).toNat
  match f with
  | .b32 =>
    let v := loWord v
    (match k with | .l => v <<< n | .r => v >>> n | .a => v.sshiftRight n).setWidth 64
  | .b64 => match k with | .l => v <<< n | .r => v >>> n | .a => v.sshiftRight n
def shift (k : Sh) (f : Wd) (d : Name) (a b : Src) (s : State) : Out :=
  unit s { perm := [a, b], vi := true } false false
    (laneBody [(a, f), (b, .b32)] fun _ _ x vs => putWd f x d (shiftOp k f (vs.getD 0 0) (vs.getD 1 0)))
def execShl (f : Wd) (d : Name) (a b : Src) (s : State) : Out := shift .l f d a b s
def execShr (f : Wd) (d : Name) (a b : Src) (s : State) : Out := shift .r f d a b s
def execSar (f : Wd) (d : Name) (a b : Src) (s : State) : Out := shift .a f d a b s

/-- The BITS group (R312, R329, R352). -/
def popcOf {w : Nat} (v : BitVec w) : Nat := ((List.range w).filter fun i => v.getLsbD i).length
def clzOf {w : Nat} (v : BitVec w) : Nat := if v = 0 then w else w - 1 - Nat.log2 v.toNat
def brevOf (v : Word) : Word := v.reverse
def popcOp (f : Wd) (v : DWord) : DWord :=
  BitVec.ofNat 64 (match f with | .b32 => popcOf (loWord v) | .b64 => popcOf v)
def clzOp (f : Wd) (v : DWord) : DWord := BitVec.ofNat 64 (match f with | .b32 => clzOf (loWord v) | .b64 => clzOf v)
def absOp (f : Wd) (v : DWord) : DWord :=
  match f with
  | .b32 => let x := loWord v; (if x.msb then -x else x).setWidth 64
  | .b64 => if v.msb then -v else v
def execPopc (f : Wd) (d : Name) (a : Src) (s : State) : Out := alu1 f .b32 d a (popcOp f) s
def execClz (f : Wd) (d : Name) (a : Src) (s : State) : Out := alu1 f .b32 d a (clzOp f) s
def execBrev (d : Name) (a : Src) (s : State) : Out := alu1 .b32 .b32 d a (fun v => (brevOf (loWord v)).setWidth 64) s
def execIabs (f : Wd) (d : Name) (a : Src) (s : State) : Out := alu1 f f d a (absOp f) s

/-- BFX and BFI (R310). -/
def fieldOf (ctl : Word) : Nat × Nat :=
  let pos := ctl.toNat % 32
  (pos, min (min (ctl.toNat / 256 % 64) 32) (32 - pos))
def bfxOp (f : Sgn) (v ctl : Word) : Word :=
  let (pos, n) := fieldOf ctl
  if n = 0 then 0
  else
    let x := v.toNat / 2 ^ pos % 2 ^ n
    match f with
    | .z => BitVec.ofNat 32 x
    | .s => BitVec.ofInt 32 (sextInt x n)
def bfiOp (v ctl r : Word) : Word :=
  let (pos, n) := fieldOf ctl
  let mask : Word := BitVec.ofNat 32 ((2 ^ n - 1) * 2 ^ pos)
  (r &&& ~~~mask) ||| ((v <<< pos) &&& mask)
def execBfx (f : Sgn) (d : Name) (a b : Src) (s : State) : Out := alu2 .b32 d a b (in32 (bfxOp f)) s
def execBfi (d : Name) (a b : Src) (s : State) : Out :=
  alu3 .b32 .b32 d a b (fun v c r => (bfiOp (loWord v) (loWord c) (loWord r)).setWidth 64) s

/-- ICMP (R331). -/
def execIcmp (f : MinF) (c : ICond) (p : Fin 8) (a b : Src) (s : State) : Out :=
  unit s { perm := [a, b], vi := true } false false
    (laneBody [(a, f.wd), (b, f.wd)] fun _ _ x vs => .ok { fib := x.setPred p.val (icmpWith f c (vs.getD 0 0) (vs.getD 1 0)) })
/-- SEL (R364). -/
def execSel (p : Fin 4) (d : Name) (a b : Src) (s : State) : Out :=
  unit s { perm := [a, b], vi := true } false false
    (laneBody [(a, .b32), (b, .b32)] fun _ _ x vs =>
      putDst x d (loWord (if x.pred (4 + p.val) then vs.getD 0 0 else vs.getD 1 0)))
/-- MOV.b32 and .b64 (R350). -/
def execMov (f : Wd) (d : Name) (a : Src) (s : State) : Out := alu1 f f d a id s
/-- MOV to k (R350): lanes in ascending order, the highest lane's value remains. -/
def execMovKw (a idx : Src) (s : State) : Out :=
  unit s { perm := [a, idx], vi := true } false false fun s g =>
    withLanes [(a, .b32), (idx, .b32)] s g fun s g vals => some <|
      foldLanes s g vals fun s _ vs =>
        let i := (loWord (vs.getD 1 0)).toNat
        if i < 48 ∨ 63 < i then (s, some { cause := .illegalAddress })
        else (s.setCell g.cell.id fun c => { c with k := sput 0 c.k i (loWord (vs.getD 0 0)) }, none)
/-- MOV from k (R350). -/
def execMovKr (d : Name) (idx : Src) (s : State) : Out :=
  unit s { perm := [idx], vi := true } false false
    (laneBody [(idx, .b32)] fun _ g x vs =>
      let i := (loWord (vs.getD 0 0)).toNat
      if 63 < i then .trap { cause := .illegalAddress } else putDst x d (sget 0 g.cell.k i))
/-- MOVI (R351): HIGH is the payload of HINT.IMM. -/
def moviOp (f : MoviF) (imm : BitVec 8) (high : Option (BitVec 22)) (old : Word) : Word :=
  match f with
  | .z => match high with | none => imm.setWidth 32 | some h => (h ++ imm).setWidth 32
  | .s => match high with | none => imm.signExtend 32 | some h => (h ++ imm).signExtend 32
  | .hi => (imm.setWidth 32 <<< 24) ||| (old &&& 0x00FFFFFF)
  | .f => (if imm.getLsbD 7 then 0x80000000 else 0) ||| (BitVec.ofNat 32 (bits imm.toNat 6 4 + 124) <<< 23)
          ||| (BitVec.ofNat 32 (bits imm.toNat 3 0) <<< 19)
def execMovi (f : MoviF) (d : Name) (imm : BitVec 8) (s : State) : Out :=
  unit s { vi := true, imm := f == .z || f == .s } false false
    (laneBody (if f = .hi then [plainSrc d .b32] else []) fun _ g x vs =>
      putDst x d (moviOp f imm g.imm (loWord (vs.getD 0 0))))
/-- LEA (R339). -/
def execLea (sc : Fin 4) (d : Name) (a b : Src) (s : State) : Out :=
  unit s { perm := [a, b], vi := true } false false
    (laneBody [(a, .b64), (b, .b32)] fun _ _ x vs =>
      putDst64 x d (vs.getD 0 0 + ((loWord (vs.getD 1 0)).signExtend 64 <<< sc.val)))
/-- IDOT4 (R332). -/
def idot4Op (f : Sgn) (a b c : Word) : Word :=
  let ext (w : Word) (j : Nat) : Word :=
    let x : Byte := (w >>> (8 * j)).setWidth 8
    match f with | .s => x.signExtend 32 | .z => x.setWidth 32
  (List.range 4).foldl (fun r j => r + ext a j * ext b j) c
def execIdot4 (f : Sgn) (d : Name) (a b : Src) (s : State) : Out :=
  alu3 .b32 .b32 d a b (fun x y z => (idot4Op f (loWord x) (loWord y) (loWord z)).setWidth 64) s
/-- NOP (R131): one word of its clause and nothing else. -/
def execNop (s : State) : Out := unit s {} false false fun s _ => some s

end Sys2Proof.Machine
end

