-- ==== Sys2Proof/Machine/FloatI.lean ====
section
/-! DEFINITION. The floating-point, conversion and drawing instructions (R145, R153, R318 to R326, R354, R360). -/

namespace Sys2Proof.Machine

/-- The value and status of one lane of FADD, FSUB, FMUL, FFMA (R318). -/
def fopLane (o : FOp) (f : FF) (mode : RndMode) (c : Cell) (x : Fibre) (a b d : Word) : Word × Word :=
  match f with
  | .f32 => fop32 o mode (drawWord c x true 0) a b d
  | .bf16x2 =>
    let r (e : Nat) := fop16 o mode (drawWord c x true e) (half a e) (half b e) (half d e)
    (pack (r 0).1 (r 1).1, (r 0).2 ||| (r 1).2)
/-- Write a value with its status bits; a drawing instruction raises dc (R152). -/
def putFp (x : Fibre) (d : Name) (draws : Bool) (r : Word × Word) : Res Eff :=
  (putDst x d r.1).map fun e => { e with status := r.2, fib := if draws then e.fib.drew else e.fib }
def fop (o : FOp) (f : FF) (d : Name) (a b : Src) (s : State) : Out :=
  unit s { perm := [a, b], vi := true, rnd := true } false false
    (laneBody ([(a, .b32), (b, .b32)] ++ if o = .fma then [plainSrc d .b32] else []) fun _ g x vs =>
      putFp x d (f == .bf16x2 || rndOf g false == .sr)
        (fopLane o f (rndOf g false) g.cell x (loWord (vs.getD 0 0)) (loWord (vs.getD 1 0)) (loWord (vs.getD 2 0))))
def execFadd (f : FF) (d : Name) (a b : Src) (s : State) : Out := fop .add f d a b s
def execFsub (f : FF) (d : Name) (a b : Src) (s : State) : Out := fop .sub f d a b s
def execFmul (f : FF) (d : Name) (a b : Src) (s : State) : Out := fop .mul f d a b s
def execFfma (f : FF) (d : Name) (a b : Src) (s : State) : Out := fop .fma f d a b s

/-- FMIN and FMAX (R138). -/
def minmaxLane (isMax : Bool) (f : FF) (a b : Word) : Word × Word :=
  match f with
  | .f32 => let r := minmax fp32 isMax a.toNat b.toNat; (BitVec.ofNat 32 r.1, r.2)
  | .bf16x2 =>
    let r (e : Nat) := minmax bf16 isMax (half a e).toNat (half b e).toNat
    (pack (BitVec.ofNat 16 (r 0).1) (BitVec.ofNat 16 (r 1).1), (r 0).2 ||| (r 1).2)
def fminmax (isMax : Bool) (f : FF) (d : Name) (a b : Src) (s : State) : Out :=
  unit s { perm := [a, b], vi := true } false false
    (laneBody [(a, .b32), (b, .b32)] fun _ _ x vs =>
      putFp x d false (minmaxLane isMax f (loWord (vs.getD 0 0)) (loWord (vs.getD 1 0))))
def execFmin (f : FF) (d : Name) (a b : Src) (s : State) : Out := fminmax false f d a b s
def execFmax (f : FF) (d : Name) (a b : Src) (s : State) : Out := fminmax true f d a b s

/-- FCMP (R320). -/
def execFcmp (c : FCond) (p : Fin 8) (a b : Src) (s : State) : Out :=
  unit s { perm := [a, b], vi := true } false false
    (laneBody [(a, .b32), (b, .b32)] fun _ _ x vs =>
      let r := fcmp32 c (loWord (vs.getD 0 0)) (loWord (vs.getD 1 0))
      .ok { fib := x.setPred p.val r.1, status := r.2 })

/-- A pending value operation of one lane (R119, R120): its words are written when it completes. -/
def pendingOp (s : State) (c : Cell) (x : Fibre) (k : OpKind) : State := pendAll s c.id [x] k
/-- FRCP, FRSQ, FSQRT, FEXP2, FLOG2 (R325): long-latency; one of the values R139 permits. The status bits join ARITH.STATUS
at issue (DESIGN CHOICE: R142 and R325 name no moment). -/
def longFun (fn : Fun) (d : Name) (a : Src) (s : State) : Out :=
  unit s { perm := [a], vi := true } true false fun s g =>
    withLanes [(a, .b32)] s g fun s g vals => some <|
      foldLanes s g vals fun s x vs =>
        let r := fun32 fn (Config.freeBit s.free) (loWord (vs.getD 0 0))
        let s := pendingOp { s with free := s.free + 1 } g.cell x (.value [(x.base + nameWin d, r.1)])
        (s.orArith g.cell.id r.2, none)
def execFrcp (d : Name) (a : Src) (s : State) : Out := longFun .rcp d a s
def execFrsq (d : Name) (a : Src) (s : State) : Out := longFun .rsq d a s
def execFsqrt (d : Name) (a : Src) (s : State) : Out := longFun .sqrt d a s
def execFexp2 (d : Name) (a : Src) (s : State) : Out := longFun .exp2 d a s
def execFlog2 (d : Name) (a : Src) (s : State) : Out := longFun .log2 d a s

def rndDir : RndDir → RndMode | .ne => .rne | .z => .rz | .dn => .dn | .up => .up
/-- FRND (R326). -/
def execFrnd (r : RndDir) (d : Name) (a : Src) (s : State) : Out :=
  unit s { perm := [a], vi := true } false false
    (laneBody [(a, .b32)] fun _ _ x vs => putFp x d false (frnd32 (rndDir r) (loWord (vs.getD 0 0))))

/-- The value and status of one lane of FCVT (R140, R321). -/
def cvtLane (c : Cvt) (mode : RndMode) (w a old : Word) : Word × Word :=
  let narrow : BitVec 16 × Word := let r := bf16.round mode w true (val32 a); (BitVec.ofNat 16 r.1, r.2)
  let widen (h : BitVec 16) : Word × Word :=
    match val16 h with
    | .nan sg => (0x7FC00000, if sg then stNV else 0)
    | _ => (h.setWidth 32 <<< 16, 0)
  match c with
  | .f2bl => (pack narrow.1 (half old 1), narrow.2)
  | .f2bh => (pack (half old 0) narrow.1, narrow.2)
  | .bl2f => widen (half a 0)
  | .bh2f => widen (half a 1)
  | .f2s => toInt32 true .rne a
  | .f2sz => toInt32 true .rz a
  | .s2f => round32 mode w (ofInt a.toInt)
  | .z2f => round32 mode w (ofInt a.toNat)
  | .f2z => toInt32 false .rz a
def execFcvt (c : Cvt) (sr : Bool) (d : Name) (a : Src) (s : State) : Out :=
  let narrows := c == .f2bl || c == .f2bh
  unit s { perm := [a], vi := true, rnd := !sr && (narrows || c == .s2f || c == .z2f) } false false
    (laneBody ([(a, .b32)] ++ if narrows then [plainSrc d .b32] else []) fun _ g x vs =>
      putFp x d (narrows || rndOf g sr == .sr)
        (cvtLane c (rndOf g sr) (drawWord g.cell x true 0) (loWord (vs.getD 0 0)) (loWord (vs.getD 1 0))))

/-- FDOT2 (R322). -/
def execFdot2 (d : Name) (a b : Src) (s : State) : Out :=
  unit s { perm := [a, b], vi := true, rnd := true } false false
    (laneBody [(a, .b32), (b, .b32), plainSrc d .b32] fun _ g x vs =>
      putFp x d (rndOf g false == .sr)
        (round32 (rndOf g false) (drawWord g.cell x true 0)
          (fdot2Ex (rndOf g false) (loWord (vs.getD 0 0)) (loWord (vs.getD 1 0)) (loWord (vs.getD 2 0)))))

/-- Byte n of a word replaced. -/
def setByte (w : Word) (n : Nat) (b : Byte) : Word := (w &&& ~~~((0xFF : Word) <<< (8 * n))) ||| (b.setWidth 32 <<< (8 * n))
def getByte (w : Word) (n : Nat) : Byte := (w >>> (8 * n)).setWidth 8
/-- QCVT and QDEQ (R145, R354). -/
def execQcvt (n : Fin 4) (d : Name) (a : Src) (slot : Fin 8) (sc : Fin 32) (s : State) : Out :=
  unit s { perm := [a], vi := true } false false
    (laneBody [(a, .b32), plainSrc (.w sc) .b32, plainSrc d .b32] fun s g x vs =>
      let r := qcvt8 (fmtSYM (fmtSlot s g.cell slot.val)) (drawWord g.cell x true 0) (loWord (vs.getD 0 0)) (loWord (vs.getD 1 0))
      putFp x d true (setByte (loWord (vs.getD 2 0)) n.val r.1, r.2))
def execQdeq (n : Fin 4) (d : Name) (a : Src) (slot : Fin 8) (sc : Fin 32) (s : State) : Out :=
  unit s { perm := [a], vi := true } false false
    (laneBody [(a, .b32), plainSrc (.w sc) .b32] fun s g x vs =>
      putFp x d false (qdeq8 (fmtSYM (fmtSlot s g.cell slot.val)) (getByte (loWord (vs.getD 0 0)) n.val) (loWord (vs.getD 1 0))))

/-- DRAW (R153). -/
def execDraw (o : Fin 4) (d : Name) (s : State) : Out :=
  unit s { vi := true } false false
    (laneBody [] fun _ g x _ => (putDst x d (drawWord g.cell x false o.val)).map fun e => { e with fib := e.fib.drew })

/-- The z of one lane of SAMPLE (R153): none for a temperature that is a NaN or at most 0, with NV. -/
def sampleZ (u l t : Word) : Option Word :=
  let bad := match val32 t with | .nan _ => true | .inf n => n | .fin n x _ _ => n || x == 0
  if bad then none else
  let q := (rne32 (divEx (val32 l) (val32 t))).1
  let lnu : Ex := .fin false (-(lnSigned (2 * (u.toNat / 256) + 1) (2 ^ 25))).toNat 1 (-(fx : Int))
  let v := (rne32 lnu).1
  let w := match val32 v with
    | .fin _ n d e =>
      let (n, d) := frac n d e
      let x := lnSigned n d
      (rne32 (.fin (decide (0 < x)) x.natAbs 1 (-(fx : Int)))).1
    | _ => v
  some (rne32 (addEx .rne (val32 q) (val32 w))).1
/-- SAMPLE (R153, R360): the lowest lane of those whose z is the largest non-NaN z. -/
def execSample (d : Name) (a b : Src) (s : State) : Out :=
  unit s { perm := [a, b], vi := true } false false fun s g =>
    withLanes [(a, .b32), (b, .b32)] s g fun s g vals => some <|
      let zs := vals.map fun (x, vs) => (x, sampleZ (drawWord g.cell x false 0) (loWord (vs.getD 0 0)) (loWord (vs.getD 1 0)))
      let nums := zs.filterMap fun (x, z) => z.bind fun z => if isNan z then none else some (x.lane, ordKey fp32 z.toNat)
      let win := nums.foldl (fun m y => match m with
        | none => some y
        | some b => if b.2 < y.2 then some y else some b) (none : Option (Nat × Int))
      let v : Word := match win with | some y => BitVec.ofNat 32 y.1 | none => 0xFFFFFFFF
      zs.foldl (fun s (x, z) =>
        let s := s.setFibre ⟨g.cell.id, x.idx⟩ fun f => (f.setReg (nameWin d) v).drew
        if z.isNone then s.orArith g.cell.id stNV else s) s

/-- Does value m (lane ml) come before value l (lane ll) in TOPK's order (R153)? Of two NaN values the lower lane's comes first
(DESIGN CHOICE: R153 puts NaN after every number and does not order two of them). -/
def topkBefore (m : Word) (ml : Nat) (l : Word) (ll : Nat) : Bool :=
  match isNan m, isNan l with
  | true, true => decide (ml < ll)
  | true, false => false
  | false, true => true
  | false, false => decide (ordKey fp32 l.toNat < ordKey fp32 m.toNat) || (ordKey fp32 l.toNat == ordKey fp32 m.toNat && decide (ml < ll))
/-- TOPK (R153, R360). -/
def execTopk (d : Name) (a b : Src) (s : State) : Out :=
  unit s { perm := [a, b], vi := true } false false fun s g =>
    withLanes [(a, .b32), (b, .b32)] s g fun s g vals => some <|
      vals.foldl (fun s (x, vs) =>
        let v := loWord (vs.getD 0 0)
        let rank := (vals.filter fun (y, ws) => topkBefore (loWord (ws.getD 0 0)) y.lane v x.lane).length
        s.setFibre ⟨g.cell.id, x.idx⟩ fun f =>
          f.setReg (nameWin d) (if rank < (loWord (vs.getD 1 0)).toNat then v else 0xFF800000)) s

end Sys2Proof.Machine
end

