-- ==== Sys2Proof/Machine/MemI.lean ====
section
/-! DEFINITION. The memory instructions: loads and stores, atomics, fences, gather and scatter, streams (R155, R174 to
R181, R196, R206 to R211, R221, R227, R337, R338, R362, R363, R366). -/

namespace Sys2Proof.Machine

/-- Checks 1 to 4 of R155 for an access of w bytes. noScratch is set for the accesses that never act on scratch. -/
def checkAddr (s : State) (c : Cell) (a w : Nat) (detail : Nat) (noScratch : Bool) : Option Trap :=
  match window a with
  | none => some { cause := .illegalAddress, detail := detail, faddr := a }
  | some win =>
    if a % w ≠ 0 then some { cause := .misaligned, detail := detail, faddr := a }
    else match win with
      | .vault v => if s.hasVault c.part v then none else some { cause := .protectionFault, detail := detail, faddr := a }
      | .scratch off => if noScratch || decide (c.scratchSize < off + w) then some { cause := .illegalAddress, detail := detail, faddr := a } else none
      | .global => none

/-- The lines a transaction would then hold, or none past the limit (R221). -/
def linesOf (m : SMap Byte) : List Nat := (m.map fun x => x.1 / 64).eraseDups

/-- What a transactional load comes to. It may have to wait, or consume bad data, which is raised as usual (R224). -/
inductive TxRead where | ok (f : Tx) (bs : List Byte) | abort (w : Word) | trap (t : Trap) | wait deriving DecidableEq, Repr
/-- A transactional load (R221): the value at the home, the lane's own buffered bytes over it; the line enters the read
set with the value read, once more where it has changed, so that such a lane does not validate (R222). Bytes that its own cell's
update holds are not in what it reads (DESIGN CHOICE: R73 and R190 let a fibre see its own writes, R221 never uses FORWARD, which
alone answers from held bytes by R191). -/
def txRead (s : State) (c : Cell) (f : Fibre) (x : Tx) (a n : Nat) : TxRead :=
  if s.ownPosted ⟨c.id, f.idx⟩ a n || s.acqPending ⟨c.id, f.idx⟩ || heldBack s [] c.part c.fn a n then .wait else
  match homeRead s (c.who f.sup) (a / 64 * 64) .read 64 with
  | .error (x, .uncorrectable) => .trap { cause := .uncorrectable, detail := 1, faddr := x }
  | .error (_, e) => .abort (BitVec.ofNat 32 (4 + 256 * e.code))
  | .ok line =>
    let line := overlay c (a / 64 * 64) line
    let bs := (((ownRefused s ⟨c.id, f.idx⟩ s.next (a / 64 * 64) line).drop (a % 64)).take n).zipIdx.map fun (b, i) => ((x.writes.find? (·.1 == a + i)).map (·.2)).getD b
    if x.reads.contains (a / 64, line) then .ok x bs
    else if !x.reads.any (·.1 == a / 64) && decide (16 ≤ ((x.reads.map (·.1)).eraseDups).length) then .abort 3
    else .ok { x with reads := x.reads ++ [(a / 64, line)] } bs

/-- A load of one lane, its address computed (R337, R338). -/
def loadLane (w : Nat) (ord : Scope) (dst : Nat) (g : Grp) (va : Nat) (s : State) (f : Fibre) : State × Option Trap :=
  match s.cell? g.cell.id with
  | none => (s, none)
  | some c =>
    match checkAddr s c va w 1 false with
    | some t => (s, some t)
    | none =>
      let r : FRef := ⟨c.id, f.idx⟩
      let words := (List.range ((w + 3) / 4)).map fun i => f.base + dst + i
      match f.tx, decide (va < scratchBase) with
      | some x, true =>
        match txRead s c f x va w with
        | .abort code => (abortTx s r code, none)
        | .trap t => (s, some t)
        | .wait => (s, some { cause := .watchdog })
        | .ok x bs =>
          let v := natOfBytes bs
          let s := (touchHomes s (c.who f.sup) g.cls g.nt .read (va / 64 * 64) 64).setFibre r fun f => { f with tx := some x }
          (pendingOp s c f (.value (words.zipIdx.map fun (p, i) => (p, BitVec.ofNat 32 (v / 2 ^ (32 * i))))), none)
      | _, _ =>
        let a := { mkAcc s c f .load va w [] (if f.tx.isSome then .plain else ord) with
          flag := f.llFlag, counted := f.llFlag.isSome, dst := words, cls := g.cls, nt := g.nt }
        ((s.setFibre r fun f => f.countFlag).post a, none)

/-- The address of an M word: base plus the scaled offset, wrapping (R337). -/
def memAddr (base : DWord) (imm : BitVec 8) (high : Option (BitVec 22)) (w k : Nat) : Nat :=
  let off : DWord := match high with | none => imm.signExtend 64 | some h => (h ++ imm).signExtend 64
  (base + off * BitVec.ofNat 64 w + BitVec.ofNat 64 (w * k)).toNat

/-- Would a transactional load of some lane have to wait? Then the unit does not issue yet. -/
def txWaits (s : State) (g : Grp) (xs : List (Fibre × Nat)) (w : Nat) : Bool :=
  xs.any fun (f, va) => match f.tx with
    | some x => decide (va < scratchBase) && (checkAddr s g.cell va w 1 false).isNone && txRead s g.cell f x va w == .wait
    | none => false

def loadWord (w : Nat) (ord : Scope) (d base : Name) (imm : BitVec 8) (ranked : Bool) (s : State) : Out :=
  unit s { imm := !ranked, cache := true } true false fun s g =>
    let rank (f : Fibre) : Nat := if ranked then g.active.findIdx (·.idx == f.idx) else 0
    withLanes [plainSrc base .b64] s g fun s g vals =>
      let xs := vals.map fun (f, vs) => (f, memAddr (vs.getD 0 0) imm g.imm w (rank f))
      if txWaits s g xs w then none
      else some (foldLanes s g (xs.map fun (f, a) => (f, [BitVec.ofNat 64 a])) fun s f vs =>
        loadLane w ord (nameWin d) g (vs.getD 0 0).toNat s f)
def widthBytes : Width → Nat | .b8 => 1 | .b16 => 2 | .b32 => 4 | .b64 => 8 | .b128 => 16
def execLd (w : Width) (ord : Scope) (d base : Name) (imm : BitVec 8) (s : State) : Out :=
  loadWord (widthBytes w) ord d base imm false s
/-- LDX (R338): the rank counts every active lane below. -/
def execLdx (w : Wd) (ord : Scope) (d base : Name) (imm : BitVec 8) (s : State) : Out := loadWord w.bytes ord d base imm true s

/-- The bytes of a store's data: a register quad for .b128 (R366). -/
def storeData (w : Nat) (vs : List DWord) : List Byte :=
  if w = 16 then (vs.drop 1).flatMap (fun v => bytesOfNat 4 (loWord v).toNat) else bytesOfNat w (vs.getD 1 0).toNat

/-- Bytes kept by address in a buffer or a tentative slot; a zero stays listed. -/
def keepBytes (m : SMap Byte) (a : Nat) (bs : List Byte) : SMap Byte :=
  bs.zipIdx.foldl (fun m (b, i) => (m.filter (·.1 != a + i)) ++ [(a + i, b)]) m

/-- Land the bytes of a store of a fibre of a cell: bytes of a tentative slot of the cell's own drafts go there (R184),
the others to their homes. -/
def landBytes (s : State) (cell : Nat) (who : Who) (but : Option Nat) (va : Nat) (bs : List Byte) : Except (Nat × Cause) State :=
  let inD (a : Nat) : Option Nat := (s.cell? cell).bind fun c => (c.drafts.find? fun x =>
    decide (x.2.base + 64 + x.2.lc * x.2.sz ≤ a) && decide (a < x.2.base + 64 + (x.2.lc + x.2.cap) * x.2.sz)).map (·.1)
  if bs.zipIdx.all fun x => (inD (va + x.2)).isNone then homeWrite s who but va bs
  else bs.zipIdx.foldl (fun (r : Except (Nat × Cause) State) (b, i) => r.bind fun s =>
    match inD (va + i) with
    | none => homeWrite s who but (va + i) [b]
    | some n => .ok (s.setCell cell fun c => { c with drafts := c.drafts.map fun (k, d) =>
        if k = n then (k, { d with bytes := keepBytes d.bytes (va + i) [b] }) else (k, d) })) (.ok s)

/-- A store of one lane (R366). A plain store to scratch is written in place; one that is a release, or that an own earlier
one of any lane of its instruction still waits before, leaves the lane queue in its turn (R195, R366). -/
def storeLane (w : Nat) (ord : Scope) (ranked : Bool) (g : Grp) (va : Nat) (data : List Byte) (s : State) (f : Fibre) : State × Option Trap :=
  match s.cell? g.cell.id with
  | none => (s, none)
  | some c =>
    match checkAddr s c va w 2 false with
    | some t => (s, some t)
    | none =>
      let r : FRef := ⟨c.id, f.idx⟩
      let ord : Scope := if f.tx.isSome then .plain else ord
      let behind := s.accs.any fun a => a.kind.isStore && a.stage == .queued && decide (a.va < va + w) && decide (va < a.va + a.len)
        && g.members.any fun m => a.of ⟨c.id, m.idx⟩
      if decide (scratchBase ≤ va) && ord == .plain && !behind then
        ((settleScratch s c r (va - scratchBase) w).setCell c.id fun c => { c with scratch := putBytes c.scratch (va - scratchBase) data }, none)
      else match f.tx, decide (va < scratchBase) with
        | some x, true =>
          let ws := keepBytes x.writes va data
          if 8 < (linesOf ws).length then (abortTx s r 3, none)
          else (s.setFibre r fun f => { f with tx := some { x with writes := ws } }, none)
        | _, _ =>
          match (if ord != .plain || s.recordFull r then parkDue s r .stores else none) with
          | some t => (s, some t)
          | none =>
            let s := postStore s c f .store va data ord g.cls g.nt
            (if ranked then s.setAcc (s.next - 1) fun a => { a with ranked := true } else s, none)

def storeWord (w : Nat) (ord : Scope) (d base : Name) (imm : BitVec 8) (ranked : Bool) (s : State) : Out :=
  let dataSrcs := if w = 16 then
      (List.range 4).map fun i => plainSrc (.w (Fin.ofNat 32 (nameWin d + i))) .b32
    else [plainSrc d (if w = 8 then .b64 else .b32)]
  unit s { imm := !ranked, cache := true } false false fun s g =>
    let rank (f : Fibre) : Nat := if ranked then g.active.findIdx (·.idx == f.idx) else 0
    withLanes (plainSrc base .b64 :: dataSrcs) s g fun s g vals =>
      let addr (f : Fibre) (vs : List DWord) : Nat := memAddr (vs.getD 0 0) imm g.imm w (rank f)
      if vals.any fun x => s.acqPending ⟨g.cell.id, x.1.idx⟩ && decide (scratchBase ≤ addr x.1 x.2) then none
      else some <| foldLanes s g vals fun s f vs => storeLane w ord ranked g (addr f vs) (storeData w vs) s f
def execSt (w : Width) (ord : Scope) (d base : Name) (imm : BitVec 8) (s : State) : Out :=
  storeWord (widthBytes w) ord d base imm false s
def execStc (w : Wd) (ord : Scope) (d base : Name) (imm : BitVec 8) (s : State) : Out := storeWord w.bytes ord d base imm true s

/-- The lanes of a barred instruction: those inside a transaction abort (R224), the others are read. -/
def barredLanes (srcs : List Field) (s : State) (g : Grp) (k : State → Grp → List (Fibre × List DWord) → Option State) : Option State :=
  let (s, ok) := barTx s g g.active
  withLanes srcs s (g.only (g.members.filter fun f => !f.place.active || ok.any (·.idx == f.idx))) k

/-- The same for a word that acts once. -/
def barredLowest (all : Bool) (srcs : List (Field × Bool)) (s : State) (g : Grp)
    (k : State → Grp → List (Fibre × List DWord) → Option State) : Option State :=
  let (s, ok) := barTx s g g.active
  withLowest all srcs s (g.only (g.members.filter fun f => !f.place.active || ok.any (·.idx == f.idx))) k

/-- An atomic request of one lane (R207 to R209). A slot that is tentative raises its trap in the fibres of the cell whose region holds it,
as the regions stand at the issue; another cell's atomic acts on what stands at the home (DESIGN CHOICE: R184 does not say whose
atomic it means, nor when it is judged; R185 lets no other cell see tentative data). -/
def atomLane (kind : AccKind) (w : Nat) (comb : Bool) (ord : Scope) (dst : Option Nat) (g : Grp) (va : Nat) (data : List Byte)
    (s : State) (f : Fibre) : State × Option Trap :=
  match s.cell? g.cell.id with
  | none => (s, none)
  | some c =>
    match checkAddr s c va w 3 true with
    | some t => (s, some t)
    | none =>
      if inDraft c va then (s, some { cause := .illegalAddress, detail := 3, faddr := va }) else
      let r : FRef := ⟨c.id, f.idx⟩
      match (if ord != .plain || s.recordFull r && dst.isNone then parkDue s r .stores else none), dst with
      | some t, _ => (s, some t)
      | none, none =>
        let s := postStore s c f kind va data ord g.cls g.nt
        (s.setAcc (s.next - 1) fun a => { a with comb := comb }, none)
      | none, some d =>
        let s := if wide ord then endPins s (·.cell == c.id) else s
        let words := (List.range (w / 4)).map fun i => f.base + d + i
        let a := { mkAcc s c f kind va w data ord with
          comb := comb, flag := f.llFlag, counted := f.llFlag.isSome, dst := words, cls := g.cls, nt := g.nt
          relDone := ord == .plain, covers := if ord == .plain then [] else s.coverage r }
        ((s.setFibre r fun f => f.countFlag).post a, none)

def execAtom (op : AtomOp) (cmb : Bool) (ord : Scope) (d addr v : Name) (s : State) : Out :=
  let w := op.wd
  unit s { cache := true } true false fun s g =>
    barredLanes [plainSrc addr .b64, plainSrc v w] s g fun s g vals =>
      some <| foldLanes s g vals fun s f vs =>
        atomLane (.atom op) w.bytes cmb ord (some (nameWin d)) g (vs.getD 0 0).toNat (bytesOfNat w.bytes (vs.getD 1 0).toNat) s f
def execRed (op : AtomOp) (cmb : Bool) (ord : Scope) (addr v : Name) (s : State) : Out :=
  let w := op.wd
  unit s { cache := true } false false fun s g =>
    barredLanes [plainSrc addr .b64, plainSrc v w] s g fun s g vals =>
      some <| foldLanes s g vals fun s f vs =>
        atomLane (.red op) w.bytes cmb ord none g (vs.getD 0 0).toNat (bytesOfNat w.bytes (vs.getD 1 0).toNat) s f
def execCas (w : Wd) (ord : Scope) (d addr v : Name) (s : State) : Out :=
  unit s { cache := true } true false fun s g =>
    barredLanes [plainSrc addr .b64, plainSrc v w, plainSrc d w] s g fun s g vals =>
      some <| foldLanes s g vals fun s f vs =>
        atomLane (.cas (vs.getD 2 0).toNat) w.bytes false ord (some (nameWin d)) g (vs.getD 0 0).toNat
          (bytesOfNat w.bytes (vs.getD 1 0).toNat) s f

/-- FENCE (R196): each active lane waits until its fence is done. A refused store parks the lane here (R265). -/
def execFence (eng mx : Bool) (scope : Scope) (s : State) : Out :=
  unit s {} false false fun s g =>
    barredLanes [] s g fun s g vals =>
      some <| foldLanes s g vals fun s f _ =>
        let r : FRef := ⟨g.cell.id, f.idx⟩
        match parkDue s r .stores with
        | some t => (s, some t)
        | none =>
          let s := if wide scope then endPins s (·.cell == g.cell.id) else s
          (s.setFibre r (·.hold (.fence eng mx scope (s.coverage r)) s.now g.first), none)

/-- The list header of R174, checked; none where a field is out of its limits. -/
structure ListHdr where
  base : Nat
  limit : Nat
  esz : Nat
  fmt : Nat
  h : Nat
  deriving DecidableEq, Repr
def listHdr (bs : List Byte) : Option ListHdr :=
  let v := natOfBytes bs
  let x : ListHdr := ⟨bits v 63 0, bits v 95 64, bits v 103 96, bits v 111 104, bits v 119 112⟩
  if v / 2 ^ 120 = 0 ∧ 2 ≤ x.esz ∧ x.esz ≤ 6 ∧ x.fmt ≤ 1 ∧ (if x.fmt = 0 then x.h = 0 else 1 ≤ x.h ∧ x.h ≤ 32)
      ∧ window x.base = some .global ∧ x.base % 2 ^ x.esz = 0
  then some x else none

/-- How the reader of a list reads n bytes at an address. -/
abbrev Reader := Nat → Nat → Except (Nat × Cause) (List Byte)
/-- The bytes a cell reads: its own scratch in place, the rest at their homes under what it alone sees (R73, R185). -/
def cellRead (s : State) (c : Cell) (sup : Bool) : Reader := fun va n =>
  match window va with
  | some (.scratch off) => if c.scratchSize < off + n then .error (va, .illegalAddress) else .ok (bytesAt c.scratch off n)
  | _ => (homeRead s (c.who sup) va .read n).map fun bs =>
    (overlay c va bs).zipIdx.map fun (b, i) => ((c.held.find? (·.1 == va + i)).map (·.2)).getD b
/-- The bytes a fibre of it reads so: those that a store of its own was refused for as that store has them (R266). -/
def fibreRead (s : State) (c : Cell) (sup : Bool) (r : FRef) : Reader := fun va n =>
  (cellRead s c sup va n).map fun bs => ownRefused s r s.next va bs

/-- The indices of the slices of a stipple list, n counted so far, from slice i on; a count past 4,096 settles the list. -/
def sliceSum (rd : Reader) (rows hdr : Nat) : Nat → Nat → Nat → Except (Nat × Cause) Nat
  | 0, _, n => .ok n
  | g + 1, i, n =>
    if 4096 < n then .ok n else
    match rd (hdr + 32 + 4 * i) 4 with
    | .error e => .error e
    | .ok bs => sliceSum rd rows hdr g (i + 1) (n + rows * natOfBytes bs)
/-- The addresses of a list's indices, in entry order (R175), at most 4,097; none where the widths cannot be read. -/
def listEntries (rd : Reader) (h : ListHdr) (hdr c : Nat) : Except (Nat × Cause) (List Nat) :=
  if h.fmt = 0 then .ok ((List.range (min c 4097)).map fun k => hdr + 32 + 4 * k)
  else
    let g := (c + h.h - 1) / h.h
    (sliceSum rd h.h hdr g 0 0).map fun n => (List.range (min n 4097)).map fun k => hdr + 32 + 4 * g + 4 * k

/-- The header and the widths of a list, read and checked (R174 to R176): the list, or the trap, and whether its request
is refused at translation and owed (R265). -/
def readList (rd : Reader) (room off hdr c detail : Nat) : Except (Trap × Bool) ListInfo :=
  let bad (k : Cause) (a : Nat) : Except (Trap × Bool) ListInfo := .error ({ cause := k, detail := detail, faddr := a }, false)
  let fault (x : Nat × Cause) : Except (Trap × Bool) ListInfo := .error ({ cause := x.2, detail := 1, faddr := x.1 }, decide (x.1 < vaultBase))
  match rd hdr 32 with
  | .error x => fault x
  | .ok bs =>
    match listHdr bs with
    | none => bad .illegalAddress hdr
    | some h =>
      if c = 0 ∧ h.fmt = 1 then bad .illegalAddress hdr else
      match listEntries rd h hdr c with
      | .error x => fault x
      | .ok es =>
        if 4096 < es.length then bad .illegalAddress hdr
        else if off % 2 ^ h.esz ≠ 0 then bad .misaligned off
        else if room < off + es.length * 2 ^ h.esz then bad .illegalAddress off
        else .ok ⟨h.base, h.limit, h.esz, es, if h.fmt = 0 then 32 else 32 + 4 * ((c + h.h - 1) / h.h)⟩

/-- GATHER and SCATTER in one lane: the checks of R176, then a pending operation. -/
def listLane (isGather : Bool) (g : Grp) (off hdr c : Nat) (s : State) (f : Fibre) : State × Option Trap :=
  let d := if isGather then 1 else 2
  let pend (s : State) (refuse : Option Trap) (l : Option ListInfo) : State × Option Trap :=
    let s := pendingOp s g.cell f (if isGather then .gather off hdr c l else .scatter off hdr c l)
    (s.setOp (s.next - 1) fun o => { o with refused := refuse, cls := g.cls, nt := g.nt }, none)
  match checkAddr s g.cell hdr 32 d false with
  | some t => (s, some t)
  | none =>
    match readList (fibreRead s g.cell f.sup ⟨g.cell.id, f.idx⟩) g.cell.scratchSize off hdr c d with
    | .error (t, true) => pend s (some t) none
    | .error (t, false) => (s, some t)
    | .ok l => pend (touchHomes s (g.cell.who f.sup) g.cls g.nt .read hdr l.head) none (some l)
/-- GATHER and SCATTER wait to issue while their list's header and widths may not be read yet. -/
def listWord (isGather : Bool) (off addr c : Name) (s : State) : Out :=
  unit s { cache := true } true false fun s g =>
    barredLanes [plainSrc off .b32, plainSrc addr .b64, plainSrc c .b32] s g fun s g vals =>
      let waits (x : Fibre × List DWord) : Bool :=
        let (a, n) := ((x.2.getD 1 0).toNat, 32 + 4 * (loWord (x.2.getD 2 0)).toNat)
        s.acqPending ⟨g.cell.id, x.1.idx⟩ || s.ownPosted ⟨g.cell.id, x.1.idx⟩ a n || heldBack s [] g.cell.part g.cell.fn a n
      if vals.any waits then none
      else some <| foldLanes s g vals fun s f vs =>
        listLane isGather g (loWord (vs.getD 0 0)).toNat (vs.getD 1 0).toNat (loWord (vs.getD 2 0)).toNat s f
def execGather (off addr c : Name) (s : State) : Out := listWord true off addr c s
def execScatter (off addr c : Name) (s : State) : Out := listWord false off addr c s

/-- SDEF in one lane (R180): the descriptor is read, the record restarts. -/
def sdefLane (n flag : Nat) (g : Grp) (a : Nat) (s : State) (f : Fibre) : State × Option Trap :=
  match window a with
  | none => (s, some { cause := .illegalAddress, detail := 1, faddr := a })
  | some w =>
    if a % 32 ≠ 0 then (s, some { cause := .misaligned, detail := 1, faddr := a }) else
    let rd : Except (Nat × Cause) (List Byte) := match w with
      | .scratch off => if g.cell.scratchSize < off + 32 then .error (a, .illegalAddress) else .ok (bytesAt g.cell.scratch off 32)
      | _ => fibreRead s g.cell f.sup ⟨g.cell.id, f.idx⟩ a 32
    match rd with
    | .error (x, e) => (s, some { cause := e, detail := 1, faddr := x })
    | .ok bs =>
      let v := natOfBytes bs
      if bits v 191 137 ≠ 0 ∨ 2 < bits v 135 128 then (s, some { cause := .illegalAddress, detail := 1, faddr := a })
      else
        let st : Stream := { active := true, flag := flag, base := BitVec.ofNat 64 (bits v 63 0), stride := BitVec.ofNat 32 (bits v 95 64)
                             count := bits v 127 96, idx := BitVec.ofNat 64 (bits v 255 192), esz := bits v 135 128, sx := bits v 136 136 = 1
                             late := f.handler.isSome }
        ((touchHomes s (g.cell.who f.sup) none false .read a 32).setFibre ⟨g.cell.id, f.idx⟩ fun f => f.setStream n st, none)
def execSdef (n : Fin 4) (addr : Name) (flag : Fin 12) (s : State) : Out :=
  unit s {} false false fun s g =>
    barredLanes [plainSrc addr .b64] s g fun s g vals =>
      if vals.any fun (f, vs) => s.ownPosted ⟨g.cell.id, f.idx⟩ (vs.getD 0 0).toNat 32 || s.acqPending ⟨g.cell.id, f.idx⟩
          || heldBack s [] g.cell.part g.cell.fn (vs.getD 0 0).toNat 32 then none
      else some (foldLanes s g vals fun s f vs => sdefLane n.val flag.val g (vs.getD 0 0).toNat s f)
/-- SSTOP (R181). -/
def execSstop (n : Fin 4) (s : State) : Out :=
  unit s {} false false (laneBody [] fun _ _ f _ => .ok { fib := f.setStream n.val {} })

end Sys2Proof.Machine
end

