-- ==== Sys2Proof/Machine/Sys.lean ====
section
/-! DEFINITION. The clocks, and the system words but MFS and MTS: TRAP, BKPT, ERET, CLK, SPILL, FILL (R257, R262, R263,
R268, R314, R316, R370). -/

namespace Sys2Proof.Machine

/-! ### Clocks -/

/-- Ticks of State.now in one microsecond. Every operating point of both grades is a whole number of ticks long (R3). -/
def ticksPerMicro : Nat := 1260000
/-- The length of a cycle at an operating point in eighths: 2.4 GHz or 2.0 GHz at 8/8 (R3). -/
def period (grade20 : Bool) (point : Nat) : Nat := (if grade20 then 5040 else 4200) / point
/-- The cycle count of an island (R314). An island in Reset or Off counts nothing. -/
def Island.cycles (i : Island) (grade20 : Bool) (now : Nat) : Nat :=
  match i.mode with
  | .running => i.baseCycles + (now - i.baseTick) / period grade20 i.point
  | _ => 0
def State.island (s : State) (i : Nat) : Island := s.islands.getD i {}
def State.setIsland (s : State) (i : Nat) (f : Island → Island) : State :=
  { s with islands := s.islands.zipIdx.map fun (x, j) => if j = i then f x else x }
def State.cycles (s : State) (island : Nat) : Nat := (s.island island).cycles s.grade20 s.now
/-- The partition clock is that of its lowest-numbered island (R257). -/
def Partition.clockIsland (p : Partition) : Nat := p.islands.foldl min 15
/-- 20 µs in cycles of the partition clock (R257). -/
def saveTime (s : State) (p : Partition) : Nat := 20 * ticksPerMicro / period s.grade20 (s.island p.clockIsland).point

/-! ### TRAP, BKPT, CLK -/

/-- TRAP (R370): the record holds the address of the unit that follows. -/
def execTrap (n : Fin 64) (s : State) : Out :=
  unit s {} false false fun s g =>
    some (takeTraps s g.cell.id g.hatch (g.active.map fun f => ⟨f.idx, { cause := .trapCall, code := n.val }, g.at_ + 4⟩))
/-- BKPT (R263): the record holds its own address. -/
def execBkpt (n : Fin 64) (s : State) : Out :=
  unit s {} false false fun s g =>
    some (raiseLanes s g (g.active.map fun f => (f.idx, { cause := .breakpoint, code := n.val })))
/-- CLK (R314): one value for every active lane of the issue. -/
def execClk (d : Name) (s : State) : Out :=
  unit s {} false false fun s g =>
    laneBody [] (fun s g f _ => putDst64 f d (BitVec.ofNat 64 (s.cycles (islandOf g.cell.cluster)))) s g

/-! ### ERET -/

/-- Step 1 of R262: no long-latency operation of the handler itself is pending; the record's bytes are not in flight. -/
def eretReady (s : State) (r : FRef) (h : Handler) : Bool :=
  (s.accs.all fun a => a.owner != r || a.kind.posted || h.owed.contains a.id)
  && (s.ops.all fun o => o.fibres.all (·.1 != r) || h.owed.contains o.id)
  && !s.ownPosted r h.record 256

/-- Steps 3 and 4 of R262: the refused stores among the requests owed go out again, each after those before it; the others
follow them. -/
def reissue (s : State) (r : FRef) (owed : List Nat) : State :=
  let mine (a : Acc) : Bool := a.of r && owed.contains a.id && a.refused
  let stores := (s.accs.filter fun a => mine a && a.kind.posted).map (·.id)
  { s with accs := s.accs.map fun a =>
             if !mine a then a else
             let first := if a.kind.posted then stores.filter (· < a.id) else stores
             { a with stage := .queued, xlat := none, relDone := a.relDone && first.isEmpty, covers := a.covers ++ first, replay := a.kind.posted }
           ops := s.ops.map fun o =>
             if owed.contains o.id && o.refused.isSome then
               match o.kind with
               | .gather off h c _ => { o with refused := none, result := none, got := 0, after := stores, kind := .gather off h c none }
               | .scatter off h c _ => { o with refused := none, result := none, got := 0, after := stores, kind := .scatter off h c none }
               | _ => { o with refused := none, after := stores }
             else o }
/-- Elements whose reads faulted are read again after an ERET (R166). -/
def Stream.retry (st : Stream) : Stream :=
  { st with queue := st.queue.map fun e => match e with | .bad _ _ => .again | e => e }

/-- Steps 2 to 5 of R262 for one fibre: its registers, address, predicates and mode come back from the record, the owed
requests are re-issued, and refused stores are replayed before it goes on. -/
def eretOne (s : State) (r : FRef) (h : Handler) : State :=
  let rec_ := bytesAt s.mem h.record 256
  let word (off n : Nat) : Nat := natOfBytes ((rec_.drop off).take n)
  let stores := (s.refusedStores r).map (·.id)
  (reissue s r h.owed).setFibre r fun f =>
    let f := (List.range 32).foldl (fun f i => f.setReg i (BitVec.ofNat 32 (word (4 * i) 4))) { f with base := h.trapBase }
    let pc : DWord := pair (BitVec.ofNat 32 (word 0x80 4)) (BitVec.ofNat 32 (word 0xA8 4)) &&& ~~~3#64
    { f with recs := f.recs.map fun x => (x.1, { x.2.retry with late := false }), pc := pc, preds := BitVec.ofNat 8 (word 0x84 1) ||| 1, sup := h.mode, flags := h.flags, place := h.place
             handler := none, since := s.now, waitAt := pc
             status := if stores.isEmpty then .ready else .fence false false .plain stores }

/-- ERET (R262, R316). -/
def execEret (s : State) : Out :=
  unit s {} false true fun s g =>
    let hs := g.active.filterMap fun f => f.handler.map fun h => (f, h)
    if hs.any fun x => !eretReady s ⟨g.cell.id, x.1.idx⟩ x.2 then none else
    let s := hs.foldl (fun s x => eretOne s ⟨g.cell.id, x.1.idx⟩ x.2) s
    let s := s.mapFibres g.cell.id fun f =>
      if g.members.any fun m => m.idx == f.idx && !m.place.active then { f with place := {} } else f
    some (raiseLanes s g ((g.active.filter (·.handler.isNone)).map fun f => (f.idx, { cause := .illegalInstruction })))

/-! ### SPILL and FILL -/

/-- A position of the register stack after a SPILL: the block that leaves stands at 65536 and above. -/
def spillPos (p : Nat) : Nat := if p < 24 then 65536 + p else if 65536 ≤ p then p + 65536 else p - 24
/-- A position after a FILL. -/
def fillPos (p : Nat) : Nat := if 65536 ≤ p then p - 65536 else p + 24
/-- The destinations of a fibre's pending operations move with its stack. -/
def moveDsts (s : State) (r : FRef) (m : Nat → Nat) : State :=
  { s with
    accs := s.accs.map fun a => if a.owner == r then { a with dst := a.dst.map m } else a
    ops := s.ops.map fun o =>
      { o with kind := match o.kind with
          | .value ws => if o.owner == r then .value (ws.map fun x => (m x.1, x.2)) else .value ws
          | .mrd u t row ds => .mrd u t row (ds.map fun x => if x.1 == r then (x.1, m x.2.1, x.2.2) else x)
          | .tqpush a b d => .tqpush a b (if o.owner == r then m d else d)
          | .tqpop a n d => .tqpop a n (if o.owner == r then m d else d)
          | .qpost a b d => .qpost a b (if o.owner == r then m d else d)
          | .ecmd a b d => .ecmd a b (if o.owner == r then m d else d)
          | k => k } }

/-- The SPILLED field of the record follows the count (R258, R268). -/
def noteSpilled (s : State) (cluster : Nat) (h : Handler) (n : Nat) : State :=
  invalidate (dropBlocks { s with mem := putBytes s.mem (h.record + 0xA4) (bytesOfNat 4 n) } cluster none (h.record + 0xA4) 4)
    none none ((h.record + 0xA4) / 64)

/-- Write bytes of an instruction at once: scratch in place, the rest at its home, as a store of its cluster (R170, R191). -/
def putNow (s : State) (c : Cell) (f : Fibre) (va : Nat) (bs : List Byte) : Except (Nat × Cause) State :=
  match window va with
  | some (.scratch off) => .ok (s.setCell c.id fun c => { c with scratch := putBytes c.scratch off bs })
  | _ => (homeWrite (touchHomes s (c.who f.sup) none false .write va bs.length) (c.who f.sup) (some c.cluster) va bs).map fun s =>
    settleBlocks s 0 c.cluster (tagOf s c.part c.fn va) va bs
def readNow (s : State) (c : Cell) (f : Fibre) (va n : Nat) : Except (Nat × Cause) (List Byte) :=
  match window va with
  | some (.scratch off) => .ok (bytesAt c.scratch off n)
  | _ => homeRead s (c.who f.sup) va .read n

/-- Must a SPILL, a FILL or the zero fill of a FENTER wait to act on n bytes, for an own access that stands before it in their order, for
the answer of an own acquire, or for a pin (R190, R194, R199)? -/
def nowWaits (s : State) (c : Cell) (f : Fibre) (write : Bool) (va n : Nat) : Bool :=
  let r : FRef := ⟨c.id, f.idx⟩
  s.acqPending r || s.ownPosted r va n || (write && s.ownReads r va n) || heldBack s [] c.part c.fn va n
/-- SPILL in one lane (R268). -/
def spillLane (g : Grp) (a : Nat) (s : State) (f : Fibre) : State × Option Trap :=
  match f.handler with
  | none => (s, some { cause := .illegalInstruction })
  | some h =>
    if h.trapBase = 0 then (s, none) else
    match checkAddr s g.cell a 128 2 false with
    | some t => (s, some t)
    | none =>
      let words := (List.range 24).map (fun i => sget 0 f.stack i)
        ++ [loWord (sget 0 f.rets 0), hiWord (sget 0 f.rets 0)] ++ List.replicate 6 0
      match putNow s g.cell f a (words.flatMap fun w => bytesOfNat 4 w.toNat) with
      | .error (x, e) => (s, some { cause := e, detail := e.detail 2, faddr := x })
      | .ok s =>
        let r : FRef := ⟨g.cell.id, f.idx⟩
        let down {α : Type} (m : SMap α) : SMap α := (m.filter fun x => 24 ≤ x.1).map fun x => (x.1 - 24, x.2)
        let s := noteSpilled (moveDsts s r spillPos) g.cell.cluster h (f.spilled + 1)
        (s.setFibre r fun f => { f with
          stack := down f.stack, rets := down f.rets, base := f.base - 24, spilled := f.spilled + 1
          handler := some { h with trapBase := h.trapBase - 24 } }, none)
def execSpill (addr : Name) (s : State) : Out :=
  unit s {} false true fun s g =>
    withLanes [plainSrc addr .b64] s g fun s g vals =>
      if vals.any fun (f, vs) => nowWaits s g.cell f true (vs.getD 0 0).toNat 128 then none
      else some (foldLanes s g vals fun s f vs => spillLane g (vs.getD 0 0).toNat s f)

/-- FILL in one lane (R268). Of the return address it places, bits [1:0] are zero, as of any program counter (R24; DEDUCED). -/
def fillLane (g : Grp) (a : Nat) (s : State) (f : Fibre) : State × Option Trap :=
  match f.handler with
  | none => (s, some { cause := .illegalInstruction })
  | some h =>
    if f.spilled = 0 ∨ 72 < f.base then (s, none) else
    match checkAddr s g.cell a 128 1 false with
    | some t => (s, some t)
    | none =>
      match readNow s g.cell f a 128 with
      | .error (x, e) => (s, some { cause := e, detail := 1, faddr := x })
      | .ok bs =>
        let r : FRef := ⟨g.cell.id, f.idx⟩
        let word (i : Nat) : Word := BitVec.ofNat 32 (natOfBytes ((bs.drop (4 * i)).take 4))
        let up {α : Type} (m : SMap α) : SMap α := ((m.filter fun x => x.1 < 104).map fun x => (x.1 + 24, x.2))
        let s := touchHomes s (g.cell.who f.sup) none false .read a 128
        let s := noteSpilled (moveDsts s r fillPos) g.cell.cluster h (f.spilled - 1)
        (s.setFibre r fun f => { f with
          stack := (List.range 24).foldl (fun m i => sput 0 m i (word i)) (up f.stack)
          rets := sput 0 (up f.rets) 0 (pair (word 24) (word 25) &&& ~~~3#64), base := f.base + 24, spilled := f.spilled - 1
          handler := some { h with trapBase := h.trapBase + 24 } }, none)
def execFill (addr : Name) (s : State) : Out :=
  unit s {} false true fun s g =>
    withLanes [plainSrc addr .b64] s g fun s g vals =>
      if vals.any fun (f, vs) => nowWaits s g.cell f false (vs.getD 0 0).toNat 128 then none
      else some (foldLanes s g vals fun s f vs => fillLane g (vs.getD 0 0).toNat s f)

end Sys2Proof.Machine
end

