-- ==== Sys2Proof/Machine/Tx.lean ====
section
/-! DEFINITION. Transactions: TBEGIN, TEND, TABORT (R220 to R225, R368). A commit's steps 3 to 5 are one step of the
machine. -/

namespace Sys2Proof.Machine

/-- The acquire that ends a wait at cohort scope or wider: the fibre goes on once the invalidations queued to its cluster
have been delivered (R193, R194, R201). -/
def acquireHold (s : State) (r : FRef) (at_ : DWord) : State :=
  match s.cell? r.cell with
  | none => s
  | some c =>
    if s.invalsClear c.cluster then s.setFibre r fun f => { f with status := .ready }
    else s.setFibre r (·.hold (.fence false false .coh []) s.now at_)

/-- TBEGIN (R220). -/
def execTbegin (d : Name) (s : State) : Out :=
  unit s {} false false fun s g =>
    some (g.active.foldl (fun s f =>
      let r : FRef := ⟨g.cell.id, f.idx⟩
      let f' := f.setReg (nameWin d) 0
      match f.tx with
      | none =>
        let x : Tx := { resume := g.at_ + 4, dst := f.base + nameWin d, nest := 0, reads := [], writes := [] }
        s.setFibre r fun _ => { f' with tx := some x }
      | some x =>
        let s := s.setFibre r fun _ => { f' with tx := some { x with nest := x.nest + 1 } }
        if 255 < x.nest + 1 then abortTx s r 3 else s) s)

/-- The cause word of an abort by TABORT (R223, R368). -/
def tabortWord (code : Word) : Word := (code <<< 8) ||| 6
def execTabort (a : Name) (s : State) : Out :=
  unit s {} false false fun s g =>
    withLanes [plainSrc a .b32] s g fun s g vals => some <|
      vals.foldl (fun s (f, vs) => abortTx s ⟨g.cell.id, f.idx⟩ (tabortWord (loWord (vs.getD 0 0)))) s

def Tx.readLines (x : Tx) : List Nat := (x.reads.map (·.1)).eraseDups
def Tx.writeLines (x : Tx) : List Nat := linesOf x.writes
/-- Step 2 of R222: may a lane stand beside a lower one? -/
def txConflict (low x : Tx) : Bool :=
  x.writeLines.any (fun l => low.writeLines.contains l || low.readLines.contains l)
  || x.readLines.any fun l => low.writeLines.contains l
/-- The survivors of step 2, and the lanes that abort with cause 1. -/
def txSplit (xs : List (Fibre × Tx)) : List (Fibre × Tx) × List (Fibre × Tx) :=
  xs.foldl (fun (ok, bad) x => if ok.any fun y => txConflict y.2 x.2 then (ok, bad ++ [x]) else (ok ++ [x], bad)) ([], [])

/-- Apply the write set byte by byte, each line touched as a store does (R170). -/
def txApply (s : State) (c : Cell) (who : Who) (ws : SMap Byte) : Except (Nat × Cause) State :=
  ws.foldl (fun (r : Except (Nat × Cause) State) x => r.bind fun s => landBytes s c.id who none x.1 [x.2])
    (.ok (touchEach s who .write ((ws.map (·.1)).filter fun a => !inDraft c a)))

/-- Steps 3 to 6 of R222 for one lane. A line whose home refuses the lane aborts it with cause 4; bad data is raised as
usual, which aborts it too (R224). -/
def txCommit (s : State) (g : Grp) (f : Fibre) (x : Tx) : State × Option Trap :=
  let r : FRef := ⟨g.cell.id, f.idx⟩
  let fail (a : Nat) (e : Cause) (detail : Nat) : State × Option Trap :=
    if e = .uncorrectable then (s, some { cause := e, detail := detail, faddr := a })
    else (abortTx s r (BitVec.ofNat 32 (4 + 256 * e.code)), none)
  match s.cell? g.cell.id with
  | none => (s, none)
  | some c =>
    let who := c.who f.sup
    let check (l : Nat × List Byte) : Option (Option (Nat × Cause)) :=
      match homeRead s who (64 * l.1) .read 64 with
      | .error e => some (some e)
      | .ok bs => if overlay c (64 * l.1) bs = l.2 then none else some none
    match x.reads.findSome? check with
    | some (some (a, e)) => fail a e 1
    | some none => (abortTx s r 2, none)
    | none =>
      match txApply s c who x.writes with
      | .error (a, e) => fail a e 1
      | .ok s => (acquireHold (s.setFibre r fun f => { f with tx := none }) r g.first, none)

/-- The release of a commit ends the cell's pins (R199, R222). -/
def tendPins (s : State) : State :=
  match s.grp? with
  | none => s
  | some g =>
    if (g.active.any fun f => f.tx.any fun x => x.nest == 0) && g.members.all (fun f => f.place.begun || f.flagsClear 0xFFF)
    then endPins s (·.cell == g.cell.id) else s

/-- TEND (R220, R222): it issues once step 1 holds for every committing lane and no line of theirs is held back. -/
def execTend (s : State) : Out :=
  unit (tendPins s) {} false false fun s g =>
    let inTx := g.active.filterMap fun f => f.tx.map fun x => (f, x)
    let inner := inTx.filter (0 < ·.2.nest)
    let outer := inTx.filter (·.2.nest == 0)
    let due := outer.filterMap fun (f, _) => (parkDue s ⟨g.cell.id, f.idx⟩ .stores).map fun t => (f.idx, t)
    let go := outer.filter fun x => !due.any (·.1 == x.1.idx)
    let held (l : Nat) : Bool := heldBack s [] g.cell.part g.cell.fn (64 * l) 64
    if go.any fun (f, _) => !(s.coverage ⟨g.cell.id, f.idx⟩).all (s.performed .dev) then none
    else if !go.isEmpty && !s.invalsClear g.cell.cluster then none
    else if go.any fun x => (x.2.readLines ++ x.2.writeLines).any held then none
    else
      let s := inner.foldl (fun s (f, x) => s.setFibre ⟨g.cell.id, f.idx⟩ fun f => { f with tx := some { x with nest := x.nest - 1 } }) s
      let (ok, bad) := txSplit go
      let s := bad.foldl (fun s (f, _) => abortTx s ⟨g.cell.id, f.idx⟩ 1) s
      let (s, ts) := ok.foldl (fun (s, ts) (f, x) =>
        let (s, t) := txCommit s g f x
        (s, match t with | some t => ts ++ [(f.idx, t)] | none => ts)) (s, ([] : List (Nat × Trap)))
      some (raiseLanes s g (due ++ ts))

end Sys2Proof.Machine
end

