-- ==== Sys2Proof/Machine/Frames.lean ====
section
/-! DEFINITION. The frame instructions: FENTER, FLEAVE, FLD, FST (R46, R51, R52, R57, R323, R324, R327). -/

namespace Sys2Proof.Machine

/-- The depth that FENTER gives (R51). -/
def nextDepth (f : Fibre) : Nat :=
  let deepest := ((List.range 8).filter fun d => (f.desc d).isSome).foldl max 0
  max (deepest + 1) 4

/-- A pool's block size, count and blocks in ascending address (R46): scratch, vault, global. -/
structure Pool where
  blk : Nat
  blocks : List Nat
  deriving DecidableEq, Repr
/-- The offset of the cell frame in a scratch (R46). -/
def cellFrameOff (scratch slots : Nat) : Nat := scratch - (4 * slots + 63) / 64 * 64
/-- The end of the scratch pool: the highest multiple of the block size at or below the cell frame (R46). -/
def poolEnd (scratch : Nat) (r : Record) : Nat := cellFrameOff scratch r.lfSize / r.spBlk * r.spBlk
def poolOf (c : Cell) (r : Record) (n : Nat) : Pool :=
  if n = 0 then ⟨r.spBlk, (List.range r.spCnt).map fun j => scratchBase + poolEnd c.scratchSize r - (r.spCnt - j) * r.spBlk⟩
  else if n = 1 then ⟨r.vpBlk, (List.range r.vpCnt).map fun j => r.vpBase.toNat + j * r.vpBlk⟩
  else ⟨r.gpBlk, (List.range r.gpCnt).map fun j => r.gpBase.toNat + j * r.gpBlk⟩
/-- Is a block taken: by a live frame, or by one whose last leave is not complete (R57, R58)? A frame of another launch, or a cohort
frame, that stands at the same base takes it too, within the partition for a vault and within the function for global memory
(DESIGN CHOICE: R46 and R51 do not say whether the pools of two launches at one base are one pool). -/
def blockTaken (s : State) (c : Cell) (n b : Nat) : Bool :=
  s.frames.any fun f => f.plc == plcOf n && f.base == b && (if n = 0 then f.cell == c.id else f.part == c.part && (n == 1 || f.fn == c.fn))

/-- FENTER in one lane (R323). Where the home of its block refuses the zero fill of R47, the lane raises the refusal's cause with
DETAIL 2 at the FENTER and takes no block (DESIGN CHOICE: the spec does not say how it is reported). -/
def fenterLane (pool d : Nat) (g : Grp) (n : Nat) (s : State) (f : Fibre) : State × Option Trap :=
  match s.cell? g.cell.id with
  | none => (s, none)
  | some c =>
    let fault (k : Nat) : State × Option Trap := (s, some { cause := .frameFault, detail := k })
    let p := poolOf c (((s.launch? c.launch).map (·.rcd)).getD {}) pool
    if (f.desc 7).isSome then fault 2
    else if n = 0 ∨ p.blk / 4 < n then fault 6
    else match p.blocks.find? fun b => !blockTaken s c pool b with
      | none => fault 5
      | some b =>
        let zero := List.replicate (4 * n) (0 : Byte)
        match putNow s c f b zero with
        | .error (a, e) => (s, some { cause := e, detail := e.detail 2, faddr := a })
        | .ok s =>
          let dep := nextDepth f
          let frame : Frame := { id := s.next, plc := plcOf pool, cell := c.id, part := c.part, fn := c.fn, base := b
                                 slots := n, depth := dep, count := 1 }
          let s := { s with frames := s.frames ++ [frame], next := s.next + 1 }
          (s.setFibre ⟨c.id, f.idx⟩ fun f =>
            ({ f with disp := sput 0 f.disp dep (mkDesc pool (if pool = 0 then 0 else 2) n b), refs := sput 0 f.refs dep frame.id }).setReg d (BitVec.ofNat 32 dep), none)
/-- FENTER (R323). Its zero fill is an access of its fibre: it comes after the answer of an own acquire (R194) and the own accesses to the
block that stand before it (R190), and waits at a pin (R199). -/
def execFenter (d cnt : Name) (pool : Fin 3) (s : State) : Out :=
  unit s {} false false fun s g =>
    withLanes [plainSrc cnt .b32] s g fun s g vals =>
      let p := poolOf g.cell (((s.launch? g.cell.launch).map (·.rcd)).getD {}) pool.val
      let free := p.blocks.filter fun b => !blockTaken s g.cell pool.val b
      if vals.any fun x => s.acqPending ⟨g.cell.id, x.1.idx⟩ || (free.take vals.length).any fun b => nowWaits s g.cell x.1 true b p.blk then none
      else some (foldLanes s g vals fun s f vs => fenterLane pool.val (nameWin d) g (loWord (vs.getD 0 0)).toNat s f)

/-- The covers of a leave as the wait keeps them: the access doubled, plus one where device scope is asked. -/
def coverCodes (cov : List (Nat × Bool)) : List Nat := cov.map fun x => 2 * x.1 + (if x.2 then 1 else 0)

/-- FLEAVE in one lane (R324): its references go, and the fibre waits for its leaves. A wait that WATCHDOG broke goes on.
A last leave is a release: a refused store parks the lane here (R265), and one at device scope ends the cell's pins (R199). -/
def fleaveLane (n : Nat) (g : Grp) (s : State) (f : Fibre) : State × Option Trap :=
  let r : FRef := ⟨g.cell.id, f.idx⟩
  let wait (s : State) (cov : List Nat) : State :=
    if leaveDone s g.cell.cluster (cov.map fun x => (x / 2, x % 2 == 1)) then retireLeft s r
    else s.setFibre r (·.hold (.blocked (.fleave cov)) s.now g.first)
  match f.again with
  | some (pc, .fleave cov) =>
    if pc = g.first then (wait (s.setFibre r fun f => { f with again := none }) cov, none) else fresh r wait
  | _ => fresh r wait
where
  fresh (r : FRef) (wait : State → List Nat → State) : State × Option Trap :=
    if (f.desc n).isNone then (s, some { cause := .frameFault, detail := 3 }) else
    let (s', cov) := leaveFrames s r n
    let s' := if cov.any (·.2) then endPins s' (·.cell == g.cell.id) else s'
    let last := s'.frames.any (·.leaver == some r)
    match (if last then parkDue s r .stores else none) with
    | some t => (s, some t)
    | none => (wait s' (coverCodes cov), none)
def execFleave (n : Fin 8) (s : State) : Out :=
  unit s {} false false fun s g => some (foldLanes s g (g.active.map fun f => (f, [])) fun s f _ => fleaveLane n.val g s f)

/-- The slot that FLD and FST name: sub plus the index, without wrap (R327). -/
def fldSlot (f : Fibre) (idx : Option (Fin 32)) (slot : BitVec 8) : Nat :=
  slot.toNat + match idx with | none => 0 | some i => (f.reg i.val).toNat
/-- FLD (R327). Lanes whose reads are refused park before it takes effect in any lane (R265). -/
def execFld (d : Name) (depth : Fin 8) (idx : Option (Fin 32)) (slot : BitVec 8) (s : State) : Out :=
  unit s {} false false fun s g =>
    let bad := g.active.filterMap fun f => match readSlot s g.cell f depth.val (fldSlot f idx slot) with
      | .trap t => if t.cause = .frameFault then none else some (f.idx, t)
      | _ => none
    if !bad.isEmpty then some (parkReads s g bad) else
    (laneBody [] (fun s g f _ => (readSlot s g.cell f depth.val (fldSlot f idx slot)).map fun v =>
      { fib := { f.setReg (nameWin d) v with readFrom := f.readFrom ++ slotWriters s g.cell f depth.val (fldSlot f idx slot) } }) s g).map fun u =>
        g.active.foldl (fun u f => touchEach u (g.cell.who f.sup) .read (slotHomes s g.cell f depth.val (fldSlot f idx slot))) u
def execFst (a : Name) (depth : Fin 8) (idx : Option (Fin 32)) (slot : BitVec 8) (s : State) : Out :=
  unit s {} false false (laneBody [plainSrc a .b32] fun _ _ f vs =>
    match checkSlot f depth.val (fldSlot f idx slot) with
    | some t => .trap t
    | none => .ok { fib := f, slot := some (depth.val, fldSlot f idx slot, loWord (vs.getD 0 0)) })

end Sys2Proof.Machine
end

