-- ==== Sys2Proof/Machine/FibreI.lean ====
section
/-! DEFINITION. Fibres, barriers and cross-lane words: FORK, QUIT, YIELD, BAR, CBAR, RECONV, REGROUP, BALLOT, MATCH,
COMPACT (R26 to R39, R226, R308, R315, R328, R340, R355, R356, R371). -/

namespace Sys2Proof.Machine

/-- The cells that take room on a cluster from a cell of function fn: those resident there and, from one of the physical function,
which no swap removes, those of saved contexts as well, so that a context comes back in place, every slot, quadrant and scratch it
had still its own (DESIGN CHOICE: R16, R157, R158 and R302 do not say where a saved context finds its room again). -/
def occupants (s : State) (cluster fn : Nat) : List Cell := s.cells.filter fun c => c.cluster == cluster && (c.resident || fn == 64)
/-- The register-stack slots of a quadrant that no fibre of those cells holds, the lowest first (R258). -/
def freeSlots (s : State) (cluster q fn : Nat) : List Nat :=
  let used := (occupants s cluster fn).flatMap fun c => c.fibres.map (·.slot)
  ((List.range 512).map (512 * q + ·)).filter fun t => !used.contains t
def freeSlot (s : State) (cluster q fn : Nat) : Option Nat := (freeSlots s cluster q fn).head?
/-- How many resident fibres a quadrant of a cluster holds (R26). -/
def quadLoad (s : State) (cluster q : Nat) : Nat :=
  ((s.cells.filter fun c => c.cluster == cluster && c.resident).flatMap fun c => c.fibres.filter fun f => f.idx / 32 % 4 == q).length

/-- FORK in one lane (R24, R26, R29, R50, R328). The child's first word waits until what the parent issued is performed at
cell scope. In a free cell the child takes lane f mod 32 of its hatch (DESIGN CHOICE: R29 gives it a hatch alone and no lane). -/
def forkLane (d : Nat) (g : Grp) (t : DWord) (s : State) (f : Fibre) : State × Option Trap :=
  if t.toNat % 4 ≠ 0 then (s, some { cause := .misaligned }) else
  let r : FRef := ⟨g.cell.id, f.idx⟩
  match s.cell? g.cell.id with
  | none => (s, none)
  | some c =>
    let none_ (s : State) : State := s.setFibre r fun f => f.setReg d 0xFFFFFFFF
    match firstFrom (fun i => (c.fibre? i).isNone) 0 1024 with
    | none => (none_ s, none)
    | some i =>
      let q := i / 32 % 4
      match (if 512 ≤ quadLoad s c.cluster q then none else freeSlot s c.cluster q c.fn) with
      | none => (none_ s, none)
      | some slot =>
        let mates := if c.locked then c.fibres.filter fun x => x.idx / 32 == i / 32 else []
        let hatch := match mates with | [] => s.next | m :: _ => m.hatch
        let child : Fibre := {
          idx := i, pc := t, hatch := hatch, lane := i % 32, slot := slot, sup := f.sup, disp := f.disp, refs := f.refs
          stack := sput 0 (sput 0 [] 0 (BitVec.ofNat 32 i)) 1 (BitVec.ofNat 32 c.index)
          joinSet := mates.map (·.idx) ++ [i], deferred := c.locked, since := s.now, waitAt := t
          status := .fence false false .cell (s.coverage r) }
        let s := { s with next := s.next + 1 }
        let s := s.setCell c.id fun c => { c with fibres := sortBy (fun a b => decide (a.idx ≤ b.idx)) (c.fibres ++ [child]) }
        let s := s.shareAll f
        (s.setFibre r fun f => f.setReg d (BitVec.ofNat 32 i), none)
def execFork (d addr : Name) (s : State) : Out :=
  unit s {} false false fun s g =>
    barredLanes [plainSrc addr .b64] s g fun s g vals => some <|
      foldLanes s g vals fun s f vs => forkLane (nameWin d) g (vs.getD 0 0) s f

/-- QUIT of one fibre up to its wait (R28, R355): streams stop, a transaction is dropped, a refused store parks it. The word of cause 4
with the trap code 0x01 is left at the transaction's destination (DEDUCED: R28 and R368 name no word; R223 gives one to every abort and
R224 this one to what a transaction may not hold). -/
def quitLane (g : Grp) (s : State) (f : Fibre) : State × Option Trap :=
  let r : FRef := ⟨g.cell.id, f.idx⟩
  let s := s.setFibre r fun f => { f with
    recs := [], tx := none, stack := match f.tx with | some x => sput 0 f.stack x.dst 0x0104 | none => f.stack }
  match parkDue s r .quit with
  | some t => (s, some t)
  | none => (s.setFibre r fun f => { f.hold (.blocked .quit) s.now g.first with pc := g.first }, none)
/-- QUIT for the fibres named; the others continue at the next word, where a clause begins (R115, R355). -/
def quitThese (s : State) (g : Grp) (fs : List Fibre) : State :=
  let s := s.mapFibres g.cell.id fun f =>
    if g.members.any (·.idx == f.idx) && !fs.any (·.idx == f.idx) then f.jump (g.at_ + 4) else f
  foldLanes s g (fs.map fun f => (f, [])) fun s f _ => quitLane g s f
def execQuit (s : State) : Out := unit s {} false false fun s g => some (quitThese s g g.active)

/-- Block the fibres named at the word in hand. -/
def blockAt (s : State) (g : Grp) (fs : List Fibre) (w : Wait) : State :=
  s.mapFibres g.cell.id fun f => if fs.any (·.idx == f.idx) then f.hold (.blocked w) s.now g.first else f

/-- YIELD (R371). -/
def execYield (s : State) : Out :=
  unit s {} false false fun s g => some (blockAt s g g.members (.yield g.at_.toNat))
/-- BAR and CBAR (R308): every fibre present arrives, whatever the guard. CBAR ends the pins of its cell; a store
refused by then parks the fibre, as at a fence (R265). -/
def execBar (s : State) : Out :=
  unit s {} false false fun s g =>
    let (s, ms) := barTx s g g.members
    some (blockAt s g ms .bar)
def execCbar (s : State) : Out :=
  unit s {} false false fun s g =>
    let (s, ms) := barTx s g g.members
    let s := if ms.isEmpty then s else endPins s (·.cell == g.cell.id)
    let s := blockAt s g ms .cbar
    some (ms.foldl (fun s f => parkStuck s ⟨g.cell.id, f.idx⟩) s)
/-- RECONV (R33, R356). -/
def execReconv (s : State) : Out :=
  unit s {} false false fun s g =>
    let (s, ms) := barTx s g g.members
    some (blockAt s g ms (.reconv g.at_.toNat))
/-- REGROUP (R34, R356): through the quadrant's crosshatch, one entry for the fibres of one mode at one REGROUP (R132); as RECONV in a locked cell or with no entry free. The entries of a
context that is not resident keep their places in the table (DESIGN CHOICE: R34 and R269 do not say). -/
def execRegroup (s : State) : Out :=
  unit s {} false false fun s g =>
    let (s, ms) := barTx s g g.members
    let q := g.quad
    let here := s.crosshatch.filter fun e => e.cluster == g.cell.cluster && e.quad == q
    let idxs := ms.map (·.idx)
    let wait (s : State) (e : Nat) : State :=
      let now := s.cycles (islandOf g.cell.cluster)
      (blockAt s g ms (.regroup e)).mapFibres g.cell.id fun f => if idxs.contains f.idx then { f with mark := now } else f
    if ms.isEmpty then some s
    else if g.cell.locked then some (blockAt s g ms (.reconv g.at_.toNat))
    else match here.find? fun e => e.cell == g.cell.id && e.pc == g.at_ && (g.cell.fibres.any fun f => e.members.contains f.idx && f.sup == g.sup) with
      | some e =>
        some (wait { s with crosshatch := s.crosshatch.map fun x => if x.id = e.id then { x with members := x.members ++ idxs } else x } e.id)
      | none =>
        if 8 ≤ here.length then some (blockAt s g ms (.reconv g.at_.toNat)) else
        let e : HatchEntry := { id := s.next, cell := g.cell.id, cluster := g.cell.cluster, quad := q, pc := g.at_, members := idxs }
        some (wait { s with crosshatch := s.crosshatch ++ [e], next := s.next + 1 } e.id)

/-- BALLOT (R226). -/
def ballotMask (fs : List Fibre) (p : Nat) : Word :=
  fs.foldl (fun m f => if f.pred p then m ||| (1 <<< f.lane) else m) 0
def execBallot (d : Name) (p : Fin 8) (s : State) : Out :=
  unit s {} false false (laneBody [] fun _ g f _ => .ok { fib := f.setReg (nameWin d) (ballotMask g.active p.val) })

/-- The lanes of a cross-lane word with the value each read, their queues popped (R305). -/
def crossLanes (n : Name) (op : List (Fibre × Word) → Fibre → Word → Fibre) (s : State) (g : Grp) : Option State :=
  withLanes [plainSrc n .b32] s g fun s g vals => some <|
    let vs := vals.map fun x => (x.1, loWord (x.2.getD 0 0))
    vs.foldl (fun s x => s.setFibre ⟨g.cell.id, x.1.idx⟩ fun f => op vs f x.2) s
/-- MATCH (R340). -/
def matchMask (vs : List (Fibre × Word)) (v : Word) : Word :=
  vs.foldl (fun m x => if x.2 = v then m ||| (1 <<< x.1.lane) else m) 0
def execMatchv (d a : Name) (s : State) : Out :=
  unit s {} false false (crossLanes a fun vs f v => f.setReg (nameWin d) (matchMask vs v))
/-- COMPACT (R315). -/
def execCompact (d a : Name) (p : Fin 8) (s : State) : Out :=
  unit s {} false false (crossLanes a fun vs f _ =>
    let from_ := (vs.filter fun x => x.1.pred p.val).map (·.2)
    f.setReg (nameWin d) (from_.getD (vs.findIdx fun x => x.1.idx == f.idx) 0))

end Sys2Proof.Machine
end

