-- ==== Sys2Proof/Machine/Ctl.lean ====
section
/-! DEFINITION. Control transfers, CLAUSE and the hint words (R97, R115 to R124, R130, R313, R336, R359). -/

namespace Sys2Proof.Machine

/-- The target of a C word (R130): its own address plus four times the offset. -/
def branchTo (at_ : DWord) (off : BitVec 22) : DWord := at_ + 4#64 * off.signExtend 64

/-- A control transfer: next gives, for an active lane, its new fibre or its trap; every other lane continues at the next
word. Target and fall-through each begin a clause (R115). -/
def transfer (s : State) (g : Grp) (next : Fibre → Option (Except Trap Fibre)) : State :=
  let rs := g.members.map fun f => (f, if f.place.active then next f else none)
  let s := rs.foldl (fun s x => match x.2 with
    | some (.ok f) => s.setFibre ⟨g.cell.id, x.1.idx⟩ fun _ => f
    | some (.error _) => s
    | none => s.setFibre ⟨g.cell.id, x.1.idx⟩ (·.jump (g.at_ + 4))) s
  raiseLanes s g (rs.filterMap fun x => match x.2 with | some (.error t) => some (x.1.idx, t) | _ => none)

/-- BRA (R130). -/
def execBra (c : Cond) (off : BitVec 22) (s : State) : Out :=
  unit s {} false false fun s g =>
    some (transfer s g fun f => if condHolds c f then some (.ok (f.jump (branchTo g.at_ off))) else none)

/-- The callee's w8 to w31: zero, or what the fibre last left there (R313). -/
def callWindow (free : Nat) (f : Fibre) : Fibre :=
  (List.range 24).foldl (fun f i => f.setReg (8 + i) (if Config.freeBit (free + i) then 0 else f.reg (8 + i))) f
/-- A taken CALL (R313). -/
def callOne (free : Nat) (at_ : DWord) (off : BitVec 22) (f : Fibre) : Except Trap Fibre :=
  if f.base = 96 then .error { cause := .windowSpill }
  else .ok ((callWindow free { f with rets := sput 0 f.rets (f.base + 24) (at_ + 4), base := f.base + 24 }).jump (branchTo at_ off))
def execCall (c : Cond) (off : BitVec 22) (s : State) : Out :=
  unit s {} false false fun s g =>
    let s' := { s with free := s.free + 24 * 32 }
    some (transfer s' g fun f => if condHolds c f then some (callOne (s.free + 24 * f.lane) g.at_ off f) else none)

/-- RET of one lane (R359): the handler's first window is that of its base (R260). -/
def retOne (f : Fibre) : Except Trap Fibre :=
  let first := match f.handler with | some h => f.base == h.trapBase | none => false
  if f.base == 0 || first then .error { cause := .windowFill, detail := if 0 < f.spilled then 0 else 1 }
  else .ok ({ f with base := f.base - 24 }.jump (sget 0 f.rets f.base))
def execRet (s : State) : Out :=
  unit s {} false false fun s g => some (transfer s g fun f => some (retOne f))

/-- JMP (R336). -/
def execJmp (addr : Name) (s : State) : Out :=
  unit s {} false false fun s g =>
    withLanes [plainSrc addr .b64] s g fun s g vals => some <|
      let target (f : Fibre) : Option (Except Trap Fibre) :=
        (vals.find? (·.1.idx == f.idx)).map fun x =>
          let t := x.2.getD 0 0
          if t.toNat % 4 ≠ 0 then .error { cause := .misaligned } else .ok (f.jump t)
      transfer s g target

/-- CLAUSE (R117, R118): it ends the clause before it and starts its own; after a hint it is illegal (R121). -/
def execClause (wait : BitVec 12) (fa fb : Option (Fin 12)) (guard : Cond) (s : State) : Out :=
  match s.grp? with
  | none => .next s
  | some g =>
    if !g.hints.isEmpty then .next (trapGroup s g { cause := .illegalClause }) else
    let (s, go) := startClause s g wait { fa := fa, fb := fb, guard := guard }
    if !go then .next s
    else .next (closeUnit (s.mapFibres g.cell.id fun f =>
      if g.members.any (·.idx == f.idx) then { f with pc := g.at_ + 4 } else f) g)

/-- A hint word joins the unit that its instruction ends (R121): one of each kind; the word after it is fetched next. At the
start of a clause the implicit clause begins with it (R116). -/
def hintWord (h : Instr) (same : Instr → Bool) (s : State) : Out :=
  match s.grp? with
  | none => .next s
  | some g =>
    let (s, go) := beginUnit s g
    if !go then .next s
    else if g.hints.any same then .next (trapGroup s g { cause := .illegalInstruction })
    else .next { s with cur := { s.cur with hints := s.cur.hints ++ [h], at_ := s.cur.at_ + 4 } }
def execHintImm (high : BitVec 22) (s : State) : Out :=
  hintWord (.hintImm high) (fun | .hintImm _ => true | _ => false) s
def execHintPerm (pa pb : Option Pat) (s : State) : Out :=
  hintWord (.hintPerm pa pb) (fun | .hintPerm _ _ => true | _ => false) s
def execHintMod (rnd : RndMode) (cls : Option (Fin 8)) (nt : Bool) (s : State) : Out :=
  hintWord (.hintMod rnd cls nt) (fun | .hintMod _ _ _ => true | _ => false) s
def execHintSched (yld : Bool) (s : State) : Out :=
  hintWord (.hintSched yld) (fun | .hintSched _ => true | _ => false) s

end Sys2Proof.Machine
end

