-- ==== Sys2Proof/Decode.lean ====
section
/-! DEFINITION. The words of the instruction set: the encoding tables of R108 to R130 both ways. Decoding is total on any
32-bit word and refuses by name (checks 1 to 4 of R131); an event has no word. -/

namespace Sys2Proof

/-- Why a word is no instruction: the two causes of R131, checks 1 to 4. -/
inductive DecodeError where
  | illegalInstruction
  | illegalClause
  deriving DecidableEq, Repr

/-- The field of len bits at bit lo of word w. -/
def fld (w lo len : Nat) : Nat := w / 2 ^ lo % 2 ^ len

def Name.code : Name → Nat
  | .w n => n.val
  | .k n => 32 + n.val
  | .q n => 48 + n.val
  | .slot d m => 52 + 4 * d.val + m.val
/-- The names of R110. -/
def Name.ofCode (c : Nat) : Name :=
  if c < 32 then .w (Fin.ofNat 32 c) else if c < 48 then .k (Fin.ofNat 16 (c - 32))
  else if c < 52 then .q (Fin.ofNat 4 (c - 48)) else .slot (Fin.ofNat 3 ((c - 52) / 4)) (Fin.ofNat 4 ((c - 52) % 4))

def Perm.code : Perm → Nat
  | .none => 0 | .mir => 1 | .bc0 => 2 | .rot1 => 3 | .x1 => 4 | .x2 => 5 | .x4 => 6 | .ext => 7
def Perm.ofCode : Nat → Perm
  | 0 => .none | 1 => .mir | 2 => .bc0 | 3 => .rot1 | 4 => .x1 | 5 => .x2 | 6 => .x4 | _ => .ext

def Src.code (s : Src) : Nat := 64 * s.perm.code + s.name.code
def Src.ofCode (c : Nat) : Src := ⟨Perm.ofCode (c / 64), Name.ofCode (c % 64)⟩

def Wd.code : Wd → Nat | .b32 => 0 | .b64 => 1
def Wd.ofCode : Nat → Option Wd | 0 => some .b32 | 1 => some .b64 | _ => none
def AddF.code : AddF → Nat | .b32 => 0 | .b64 => 1 | .s32sat => 2 | .z32sat => 3
def AddF.ofCode : Nat → Option AddF | 0 => some .b32 | 1 => some .b64 | 2 => some .s32sat | 3 => some .z32sat | _ => none
/-- .s32 is fn 0 (IMULH, IDOT4 .s8); BFX has .z32 as fn 0. -/
def Sgn.code : Sgn → Nat | .s => 0 | .z => 1
def Sgn.ofCode : Nat → Option Sgn | 0 => some .s | 1 => some .z | _ => none
def MadF.code : MadF → Nat | .b32 => 0 | .s32 => 1 | .z32 => 2
def MadF.ofCode : Nat → Option MadF | 0 => some .b32 | 1 => some .s32 | 2 => some .z32 | _ => none
def MinF.code : MinF → Nat | .s32 => 0 | .z32 => 1 | .s64 => 2 | .z64 => 3
def MinF.ofCode : Nat → Option MinF | 0 => some .s32 | 1 => some .z32 | 2 => some .s64 | 3 => some .z64 | _ => none
def ICond.code : ICond → Nat | .eq => 0 | .ne => 1 | .lt => 2 | .le => 3 | .gt => 4 | .ge => 5 | .test => 6
def ICond.ofCode : Nat → Option ICond
  | 0 => some .eq | 1 => some .ne | 2 => some .lt | 3 => some .le | 4 => some .gt | 5 => some .ge | 6 => some .test
  | _ => none
def FCond.code : FCond → Nat | .eq => 0 | .ne => 1 | .lt => 2 | .le => 3 | .gt => 4 | .ge => 5 | .un => 6 | .ord => 7
def FCond.ofCode : Nat → Option FCond
  | 0 => some .eq | 1 => some .ne | 2 => some .lt | 3 => some .le | 4 => some .gt | 5 => some .ge | 6 => some .un
  | 7 => some .ord | _ => none
def FF.code : FF → Nat | .f32 => 0 | .bf16x2 => 1
def FF.ofCode : Nat → Option FF | 0 => some .f32 | 1 => some .bf16x2 | _ => none
def MoviF.code : MoviF → Nat | .z => 0 | .s => 1 | .hi => 2 | .f => 3
def MoviF.ofCode : Nat → Option MoviF | 0 => some .z | 1 => some .s | 2 => some .hi | 3 => some .f | _ => none
def RndDir.code : RndDir → Nat | .ne => 5 | .z => 6 | .dn => 7 | .up => 8
def Cvt.code : Cvt → Nat
  | .f2bl => 0 | .f2bh => 1 | .bl2f => 2 | .bh2f => 3 | .f2s => 4 | .f2sz => 5 | .s2f => 6 | .z2f => 7 | .f2z => 8
def Cvt.ofCode : Nat → Option Cvt
  | 0 => some .f2bl | 1 => some .f2bh | 2 => some .bl2f | 3 => some .bh2f | 4 => some .f2s | 5 => some .f2sz
  | 6 => some .s2f | 7 => some .z2f | 8 => some .f2z | _ => none
def RndMode.code : RndMode → Nat | .none => 0 | .rne => 1 | .rz => 2 | .dn => 3 | .up => 4 | .sr => 5
def RndMode.ofCode : Nat → Option RndMode
  | 0 => some .none | 1 => some .rne | 2 => some .rz | 3 => some .dn | 4 => some .up | 5 => some .sr | _ => Option.none
def Width.code : Width → Nat | .b8 => 0 | .b16 => 1 | .b32 => 2 | .b64 => 3 | .b128 => 4
def Width.ofCode : Nat → Option Width
  | 0 => some .b8 | 1 => some .b16 | 2 => some .b32 | 3 => some .b64 | 4 => some .b128 | _ => none
/-- LDX and STC accept .b32 and .b64 only (R129). -/
def Wd.mcode : Wd → Nat | .b32 => 2 | .b64 => 3
def Wd.ofMcode : Nat → Option Wd | 2 => some .b32 | 3 => some .b64 | _ => none
def Scope.code : Scope → Nat | .plain => 0 | .cell => 1 | .coh => 2 | .dev => 3 | .sys => 4
def Scope.ofCode : Nat → Option Scope
  | 0 => some .plain | 1 => some .cell | 2 => some .coh | 3 => some .dev | 4 => some .sys | _ => none
def AtomOp.code : AtomOp → Nat
  | .add32 => 0 | .add64 => 1 | .and32 => 2 | .or32 => 3 | .xor32 => 4 | .mins32 => 5 | .maxs32 => 6 | .minz32 => 7
  | .maxz32 => 8 | .exch32 => 9 | .exch64 => 10 | .addf32 => 11 | .and64 => 12 | .or64 => 13 | .xor64 => 14
def AtomOp.ofCode : Nat → Option AtomOp
  | 0 => some .add32 | 1 => some .add64 | 2 => some .and32 | 3 => some .or32 | 4 => some .xor32 | 5 => some .mins32
  | 6 => some .maxs32 | 7 => some .minz32 | 8 => some .maxz32 | 9 => some .exch32 | 10 => some .exch64
  | 11 => some .addf32 | 12 => some .and64 | 13 => some .or64 | 14 => some .xor64 | _ => none
/-- 0 none; 1 to 7 true; 9 to 15 false; 8 reserved (R117, R130). -/
def Cond.code : Cond → Nat
  | .always => 0 | .ifTrue p => p.val | .ifFalse p => 8 + p.val
def Cond.ofCode (c : Nat) : Option Cond :=
  if c = 0 then some .always else if c < 8 then some (.ifTrue (Fin.ofNat 8 c))
  else if c = 8 then none else if c < 16 then some (.ifFalse (Fin.ofNat 8 (c - 8))) else none
/-- FLAGA and FLAGB: 0 to 11, or 15 for none (R117). -/
def flagCode : Option (Fin 12) → Nat
  | none => 15
  | some f => f.val
def flagOfCode (c : Nat) : Option (Option (Fin 12)) :=
  if c < 12 then some (some (Fin.ofNat 12 c)) else if c = 15 then some none else none
def PatKind.code : PatKind → Nat | .rot => 0 | .xor => 1 | .bc => 2 | .mirg => 3
def PatKind.ofCode : Nat → PatKind | 0 => .rot | 1 => .xor | 2 => .bc | _ => .mirg
/-- A pattern byte (R123); none is the zero byte. -/
def patCode : Option Pat → Nat
  | none => 0
  | some p => 128 + 32 * p.kind.code + p.n.val
def patOfCode (c : Nat) : Option (Option Pat) :=
  if c = 0 then some none
  else if c < 128 then none else some (some ⟨PatKind.ofCode (c / 32 % 4), Fin.ofNat 32 (c % 32)⟩)
def idxCode : Option (Fin 32) → Nat | none => 0 | some i => i.val
def idxBit : Option (Fin 32) → Nat | none => 0 | some _ => 1
def clsCode : Option (Fin 8) → Nat | none => 0 | some c => 8 + c.val

/-- The formats of R108, as sums of their fields. -/
def encV3 (m d a b fn : Nat) : Nat := m * 2 ^ 26 + d * 2 ^ 20 + a * 2 ^ 11 + b * 2 ^ 2 + fn
def encVI (m d a imm fn : Nat) : Nat := m * 2 ^ 26 + d * 2 ^ 20 + a * 2 ^ 11 + imm * 2 ^ 3 + fn
def encM (m d b imm wd ord : Nat) : Nat := m * 2 ^ 26 + d * 2 ^ 20 + b * 2 ^ 14 + imm * 2 ^ 6 + wd * 2 ^ 3 + ord
def encX (m a b c sub : Nat) : Nat := m * 2 ^ 26 + a * 2 ^ 20 + b * 2 ^ 14 + c * 2 ^ 8 + sub
def encC (m cond off : Nat) : Nat := m * 2 ^ 26 + cond * 2 ^ 22 + off
def encH (kind payload : Nat) : Nat := 0x3F * 2 ^ 26 + kind * 2 ^ 22 + payload
def encK (wait fa fb g : Nat) : Nat := 0x3E * 2 ^ 26 + wait * 2 ^ 14 + fa * 2 ^ 10 + fb * 2 ^ 6 + g * 2 ^ 2

/-- The word of an instruction; an event has none. -/
def Instr.code : Instr → Option Nat
  | .nop => some 0
  | .iadd f d a b => some (encV3 0x01 d.code a.code b.code f.code)
  | .isub f d a b => some (encV3 0x02 d.code a.code b.code f.code)
  | .imul f d a b => some (encV3 0x03 d.code a.code b.code f.code)
  | .imulh f d a b => some (encV3 0x04 d.code a.code b.code f.code)
  | .imad f d a b => some (encV3 0x05 d.code a.code b.code f.code)
  | .imin f d a b => some (encV3 0x06 d.code a.code b.code f.code)
  | .imax f d a b => some (encV3 0x07 d.code a.code b.code f.code)
  | .and f d a b => some (encV3 0x09 d.code a.code b.code f.code)
  | .or f d a b => some (encV3 0x0A d.code a.code b.code f.code)
  | .xor f d a b => some (encV3 0x0B d.code a.code b.code f.code)
  | .andn f d a b => some (encV3 0x0C d.code a.code b.code f.code)
  | .shl f d a b => some (encV3 0x0D d.code a.code b.code f.code)
  | .shr f d a b => some (encV3 0x0E d.code a.code b.code f.code)
  | .sar f d a b => some (encV3 0x0F d.code a.code b.code f.code)
  | .popc f d a => some (encV3 0x10 d.code a.code f.code 0)
  | .clz f d a => some (encV3 0x10 d.code a.code (2 + f.code) 0)
  | .brev d a => some (encV3 0x10 d.code a.code 4 0)
  | .iabs f d a => some (encV3 0x10 d.code a.code (5 + f.code) 0)
  | .bfx f d a b => some (encV3 0x11 d.code a.code b.code (1 - f.code))
  | .bfi d a b => some (encV3 0x12 d.code a.code b.code 0)
  | .icmp f c p a b => some (encV3 0x13 (8 * p.val + c.code) a.code b.code f.code)
  | .sel p d a b => some (encV3 0x14 d.code a.code b.code p.val)
  | .mov f d a => some (encV3 0x15 d.code a.code 0 f.code)
  | .movKw a b => some (encV3 0x15 0 a.code b.code 2)
  | .movKr d a => some (encV3 0x15 d.code a.code 0 3)
  | .movi f d imm => some (encVI 0x16 d.code 0 imm.toNat f.code)
  | .lea s d a b => some (encV3 0x17 d.code a.code b.code s.val)
  | .idot4 f d a b => some (encV3 0x18 d.code a.code b.code f.code)
  | .fadd f d a b => some (encV3 0x19 d.code a.code b.code f.code)
  | .fsub f d a b => some (encV3 0x1A d.code a.code b.code f.code)
  | .fmul f d a b => some (encV3 0x1B d.code a.code b.code f.code)
  | .ffma f d a b => some (encV3 0x1C d.code a.code b.code f.code)
  | .fmin f d a b => some (encV3 0x1D d.code a.code b.code f.code)
  | .fmax f d a b => some (encV3 0x1E d.code a.code b.code f.code)
  | .fcmp c p a b => some (encV3 0x1F (8 * p.val + c.code) a.code b.code 0)
  | .frcp d a => some (encV3 0x20 d.code a.code 0 0)
  | .frsq d a => some (encV3 0x20 d.code a.code 1 0)
  | .fsqrt d a => some (encV3 0x20 d.code a.code 2 0)
  | .fexp2 d a => some (encV3 0x20 d.code a.code 3 0)
  | .flog2 d a => some (encV3 0x20 d.code a.code 4 0)
  | .frnd r d a => some (encV3 0x20 d.code a.code r.code 0)
  | .fcvt c sr d a => some (encV3 0x21 d.code a.code c.code (if sr then 1 else 0))
  | .fdot2 d a b => some (encV3 0x22 d.code a.code b.code 0)
  | .qcvt n d a s sc => some (encVI 0x23 d.code a.code (32 * s.val + sc.val) n.val)
  | .qdeq n d a s sc => some (encVI 0x24 d.code a.code (32 * s.val + sc.val) n.val)
  | .draw o d => some (encV3 0x25 d.code 0 0 o.val)
  | .sample d a b => some (encV3 0x26 d.code a.code b.code 0)
  | .topk d a b => some (encV3 0x27 d.code a.code b.code 0)
  | .ld w o d b i => some (encM 0x28 d.code b.code i.toNat w.code o.code)
  | .st w o d b i => some (encM 0x29 d.code b.code i.toNat w.code o.code)
  | .ldx w o d b i => some (encM 0x2A d.code b.code i.toNat w.mcode o.code)
  | .stc w o d b i => some (encM 0x2B d.code b.code i.toNat w.mcode o.code)
  | .atom op c o d b v => some (encX 0x2C d.code b.code v.code (16 * op.code + (if c then 8 else 0) + o.code))
  | .cas w o d b v => some (encX 0x2D d.code b.code v.code (16 * w.code + o.code))
  | .red op c o b v => some (encX 0x2E 0 b.code v.code (16 * op.code + (if c then 8 else 0) + o.code))
  | .fence e m s => some (encX 0x2F 0 0 0 ((if e then 16 else 0) + (if m then 8 else 0) + s.code))
  | .trap n => some (encX 0x08 0 0 n.val 1)
  | .eret => some (encX 0x08 0 0 0 2)
  | .mfs d n => some (encX 0x08 d.code (n.val / 64) (n.val % 64) 3)
  | .mts a n => some (encX 0x08 a.code (n.val / 64) (n.val % 64) 4)
  | .clk d => some (encX 0x08 d.code 0 0 5)
  | .spill a => some (encX 0x08 a.code 0 0 6)
  | .fill a => some (encX 0x08 a.code 0 0 7)
  | .bkpt n => some (encX 0x08 0 0 n.val 8)
  | .tbegin d => some (encX 0x30 d.code 0 0 1)
  | .tend => some (encX 0x30 0 0 0 2)
  | .tabort a => some (encX 0x30 a.code 0 0 3)
  | .fenter d c p => some (encX 0x31 d.code c.code p.val 1)
  | .fleave n => some (encX 0x31 0 0 n.val 2)
  | .fld d n i s => some (encX 0x32 d.code (8 * idxBit i + n.val) (idxCode i) s.toNat)
  | .fst a n i s => some (encX 0x33 a.code (8 * idxBit i + n.val) (idxCode i) s.toNat)
  | .fork d b => some (encX 0x34 d.code b.code 0 1)
  | .quit => some (encX 0x34 0 0 0 2)
  | .yield => some (encX 0x34 0 0 0 3)
  | .ballot d p => some (encX 0x35 d.code p.val 0 1)
  | .matchv d a => some (encX 0x35 d.code a.code 0 2)
  | .compact d a p => some (encX 0x35 d.code a.code p.val 3)
  | .regroup => some (encX 0x35 0 0 0 4)
  | .bar => some (encX 0x36 0 0 0 1)
  | .cbar => some (encX 0x36 0 0 0 2)
  | .reconv => some (encX 0x36 0 0 0 3)
  | .mdecl d b c => some (encX 0x37 d.code b.code c.code 1)
  | .mma s t a b => some (encX 0x37 (8 * s.val + t.val) a.code b.code 0x02)
  | .mmaHold s t a b => some (encX 0x37 (8 * s.val + t.val) a.code b.code 0x12)
  | .mrd d t r => some (encX 0x37 d.code t.val r.code 3)
  | .mwr t a r => some (encX 0x37 t.val a.code r.code 4)
  | .mst t b c => some (encX 0x37 t.val b.code c.code 5)
  | .mzero t => some (encX 0x37 t.val 0 0 6)
  | .resid a b => some (encX 0x38 a.code b.code 0 1)
  | .settle => some (encX 0x38 0 0 0 2)
  | .proof a b c => some (encX 0x38 a.code b.code c.code 3)
  | .sti a b => some (encX 0x38 a.code b.code 0 4)
  | .tqpush d a b => some (encX 0x38 d.code a.code b.code 5)
  | .tqpop d a c => some (encX 0x38 d.code a.code c.code 6)
  | .draft n b c => some (encX 0x39 n.val b.code c.code 1)
  | .accept n c => some (encX 0x39 n.val c.code 0 2)
  | .discard n => some (encX 0x39 n.val 0 0 3)
  | .qpost d b c => some (encX 0x3A d.code b.code c.code 1)
  | .ecmd d b c => some (encX 0x3A d.code b.code c.code 2)
  | .ewait b c => some (encX 0x3A 0 b.code c.code 3)
  | .sgnl b c => some (encX 0x3A 0 b.code c.code 4)
  | .waits d b c => some (encX 0x3A d.code b.code c.code 5)
  | .gather a b c => some (encX 0x3A a.code b.code c.code 6)
  | .scatter a b c => some (encX 0x3A a.code b.code c.code 7)
  | .sdef s b f => some (encX 0x3A s.val b.code f.val 8)
  | .sstop s => some (encX 0x3A s.val 0 0 9)
  | .send c a => some (encX 0x3A c.val a.code 0 0x0A)
  | .recv d c => some (encX 0x3A d.code c.val 0 0x0B)
  | .jmp b => some (encX 0x3D 0 b.code 0 1)
  | .ret => some (encX 0x3D 0 0 0 2)
  | .bra c o => some (encC 0x3B c.code o.toNat)
  | .call c o => some (encC 0x3C c.code o.toNat)
  | .clause w fa fb g => some (encK w.toNat (flagCode fa) (flagCode fb) g.code)
  | .hintImm h => some (encH 0 h.toNat)
  | .hintPerm a b => some (encH 1 (patCode a * 256 + patCode b))
  | .hintMod r c nt => some (encH 2 (r.code * 2 ^ 19 + clsCode c * 2 ^ 15 + (if nt then 2 ^ 14 else 0)))
  | .hintSched y => some (encH 3 (if y then 1 else 2))
  | _ => none

/-- The word of an instruction (zero for an event, which has none). -/
def encode (i : Instr) : Word := BitVec.ofNat 32 (i.code.getD 0)

/-- V3 and VI words, majors 0x01 to 0x27 (R125 to R127). d, a, b, fn are the V3 fields; imm and fn3 the VI ones. -/
def decodeAlu (m d : Nat) (a b : Src) (ac bc fn imm fn3 : Nat) : Option Instr :=
  let dn := Name.ofCode d
  match m with
  | 0x01 => (AddF.ofCode fn).map (.iadd · dn a b)
  | 0x02 => (AddF.ofCode fn).map (.isub · dn a b)
  | 0x03 => (Wd.ofCode fn).map (.imul · dn a b)
  | 0x04 => (Sgn.ofCode fn).map (.imulh · dn a b)
  | 0x05 => (MadF.ofCode fn).map (.imad · dn a b)
  | 0x06 => (MinF.ofCode fn).map (.imin · dn a b)
  | 0x07 => (MinF.ofCode fn).map (.imax · dn a b)
  | 0x09 => (Wd.ofCode fn).map (.and · dn a b)
  | 0x0A => (Wd.ofCode fn).map (.or · dn a b)
  | 0x0B => (Wd.ofCode fn).map (.xor · dn a b)
  | 0x0C => (Wd.ofCode fn).map (.andn · dn a b)
  | 0x0D => (Wd.ofCode fn).map (.shl · dn a b)
  | 0x0E => (Wd.ofCode fn).map (.shr · dn a b)
  | 0x0F => (Wd.ofCode fn).map (.sar · dn a b)
  | 0x10 =>
    if fn ≠ 0 then none else
    match bc with
    | 0 => some (.popc .b32 dn a) | 1 => some (.popc .b64 dn a) | 2 => some (.clz .b32 dn a)
    | 3 => some (.clz .b64 dn a) | 4 => some (.brev dn a) | 5 => some (.iabs .b32 dn a) | 6 => some (.iabs .b64 dn a)
    | _ => none
  | 0x11 => match fn with | 0 => some (.bfx .z dn a b) | 1 => some (.bfx .s dn a b) | _ => none
  | 0x12 => if fn = 0 then some (.bfi dn a b) else none
  | 0x13 => (MinF.ofCode fn).bind fun f => (ICond.ofCode (d % 8)).map fun c => .icmp f c (Fin.ofNat 8 (d / 8)) a b
  | 0x14 => some (.sel (Fin.ofNat 4 fn) dn a b)
  | 0x15 =>
    match fn with
    | 0 => if bc = 0 then some (.mov .b32 dn a) else none
    | 1 => if bc = 0 then some (.mov .b64 dn a) else none
    | 2 => if d = 0 then some (.movKw a b) else none
    | _ => if bc = 0 then some (.movKr dn a) else none
  | 0x16 => if ac = 0 then (MoviF.ofCode fn3).map (.movi · dn (BitVec.ofNat 8 imm)) else none
  | 0x17 => some (.lea (Fin.ofNat 4 fn) dn a b)
  | 0x18 => (Sgn.ofCode fn).map (.idot4 · dn a b)
  | 0x19 => (FF.ofCode fn).map (.fadd · dn a b)
  | 0x1A => (FF.ofCode fn).map (.fsub · dn a b)
  | 0x1B => (FF.ofCode fn).map (.fmul · dn a b)
  | 0x1C => (FF.ofCode fn).map (.ffma · dn a b)
  | 0x1D => (FF.ofCode fn).map (.fmin · dn a b)
  | 0x1E => (FF.ofCode fn).map (.fmax · dn a b)
  | 0x1F => if fn ≠ 0 then none else (FCond.ofCode (d % 8)).map fun c => .fcmp c (Fin.ofNat 8 (d / 8)) a b
  | 0x20 =>
    if fn ≠ 0 then none else
    match bc with
    | 0 => some (.frcp dn a) | 1 => some (.frsq dn a) | 2 => some (.fsqrt dn a) | 3 => some (.fexp2 dn a)
    | 4 => some (.flog2 dn a) | 5 => some (.frnd .ne dn a) | 6 => some (.frnd .z dn a) | 7 => some (.frnd .dn dn a)
    | 8 => some (.frnd .up dn a) | _ => none
  | 0x21 => if 1 < fn then none else (Cvt.ofCode bc).map fun c => .fcvt c (fn == 1) dn a
  | 0x22 => if fn = 0 then some (.fdot2 dn a b) else none
  | 0x23 => if fn3 < 4 then some (.qcvt (Fin.ofNat 4 fn3) dn a (Fin.ofNat 8 (imm / 32)) (Fin.ofNat 32 (imm % 32))) else none
  | 0x24 => if fn3 < 4 then some (.qdeq (Fin.ofNat 4 fn3) dn a (Fin.ofNat 8 (imm / 32)) (Fin.ofNat 32 (imm % 32))) else none
  | 0x25 => if ac = 0 ∧ bc = 0 then some (.draw (Fin.ofNat 4 fn) dn) else none
  | 0x26 => if fn = 0 then some (.sample dn a b) else none
  | 0x27 => if fn = 0 then some (.topk dn a b) else none
  | _ => none

/-- The memory majors 0x28 to 0x2F (R129). -/
def decodeMem (m a b c sub imm wd ord : Nat) : Option Instr :=
  let an := Name.ofCode a
  let bn := Name.ofCode b
  let cn := Name.ofCode c
  match m with
  | 0x28 => (Width.ofCode wd).bind fun w => (Scope.ofCode ord).map fun o => .ld w o an bn (BitVec.ofNat 8 imm)
  | 0x29 => (Width.ofCode wd).bind fun w => (Scope.ofCode ord).map fun o => .st w o an bn (BitVec.ofNat 8 imm)
  | 0x2A => (Wd.ofMcode wd).bind fun w => (Scope.ofCode ord).map fun o => .ldx w o an bn (BitVec.ofNat 8 imm)
  | 0x2B => (Wd.ofMcode wd).bind fun w => (Scope.ofCode ord).map fun o => .stc w o an bn (BitVec.ofNat 8 imm)
  | 0x2C => (AtomOp.ofCode (sub / 16)).bind fun op => (Scope.ofCode (sub % 8)).map fun o =>
      .atom op (sub / 8 % 2 == 1) o an bn cn
  | 0x2D => if sub / 8 % 2 = 1 then none else
      (Wd.ofCode (sub / 16)).bind fun w => (Scope.ofCode (sub % 8)).map fun o => .cas w o an bn cn
  | 0x2E => if a ≠ 0 then none else
      (AtomOp.ofCode (sub / 16)).bind fun op => (Scope.ofCode (sub % 8)).map fun o => .red op (sub / 8 % 2 == 1) o bn cn
  | 0x2F => if a ≠ 0 ∨ b ≠ 0 ∨ c ≠ 0 ∨ 32 ≤ sub then none else
      (Scope.ofCode (sub % 8)).map fun o => .fence (sub / 16 % 2 == 1) (sub / 8 % 2 == 1) o
  | _ => none

/-- The system, transaction and frame groups (R128, R129). -/
def decodeSys (m a b c sub : Nat) : Option Instr :=
  let an := Name.ofCode a
  let bn := Name.ofCode b
  match m with
  | 0x08 =>
    match sub with
    | 1 => if a = 0 ∧ b = 0 then some (.trap (Fin.ofNat 64 c)) else none
    | 2 => if a = 0 ∧ b = 0 ∧ c = 0 then some .eret else none
    | 3 => some (.mfs an (Fin.ofNat 4096 (64 * b + c)))
    | 4 => some (.mts an (Fin.ofNat 4096 (64 * b + c)))
    | 5 => if b = 0 ∧ c = 0 then some (.clk an) else none
    | 6 => if b = 0 ∧ c = 0 then some (.spill an) else none
    | 7 => if b = 0 ∧ c = 0 then some (.fill an) else none
    | 8 => if a = 0 ∧ b = 0 then some (.bkpt (Fin.ofNat 64 c)) else none
    | _ => none
  | 0x30 =>
    match sub with
    | 1 => if b = 0 ∧ c = 0 then some (.tbegin an) else none
    | 2 => if a = 0 ∧ b = 0 ∧ c = 0 then some .tend else none
    | 3 => if b = 0 ∧ c = 0 then some (.tabort an) else none
    | _ => none
  | 0x31 =>
    match sub with
    | 1 => if c < 3 then some (.fenter an bn (Fin.ofNat 3 c)) else none
    | 2 => if a = 0 ∧ b = 0 ∧ c < 8 then some (.fleave (Fin.ofNat 8 c)) else none
    | _ => none
  | 0x32 | 0x33 =>
    if 16 ≤ b then none else
    let idx : Option (Option (Fin 32)) :=
      if b / 8 = 1 then (if c < 32 then some (some (Fin.ofNat 32 c)) else none) else (if c = 0 then some none else none)
    idx.map fun i => if m = 0x32 then .fld an (Fin.ofNat 8 (b % 8)) i (BitVec.ofNat 8 sub)
      else .fst an (Fin.ofNat 8 (b % 8)) i (BitVec.ofNat 8 sub)
  | 0x34 =>
    match sub with
    | 1 => if c = 0 then some (.fork an bn) else none
    | 2 => if a = 0 ∧ b = 0 ∧ c = 0 then some .quit else none
    | 3 => if a = 0 ∧ b = 0 ∧ c = 0 then some .yield else none
    | _ => none
  | _ => none

/-- The lane, synchronisation, matrix, plate, draft, queue and jump groups (R69, R128). -/
def decodeGroup (m a b c sub : Nat) : Option Instr :=
  let an := Name.ofCode a
  let bn := Name.ofCode b
  let cn := Name.ofCode c
  let z := a = 0 ∧ b = 0 ∧ c = 0
  match m with
  | 0x35 =>
    match sub with
    | 1 => if b < 8 ∧ c = 0 then some (.ballot an (Fin.ofNat 8 b)) else none
    | 2 => if c = 0 then some (.matchv an bn) else none
    | 3 => if c < 8 then some (.compact an bn (Fin.ofNat 8 c)) else none
    | 4 => if a = 0 ∧ b = 0 ∧ c = 0 then some .regroup else none
    | _ => none
  | 0x36 =>
    if a = 0 ∧ b = 0 ∧ c = 0 then
      match sub with
      | 1 => some .bar | 2 => some .cbar | 3 => some .reconv | _ => none
    else none
  | 0x37 =>
    match sub with
    | 0x01 => some (.mdecl an bn cn)
    | 0x02 => some (.mma (Fin.ofNat 8 (a / 8)) (Fin.ofNat 8 (a % 8)) bn cn)
    | 0x12 => some (.mmaHold (Fin.ofNat 8 (a / 8)) (Fin.ofNat 8 (a % 8)) bn cn)
    | 0x03 => if b < 8 then some (.mrd an (Fin.ofNat 8 b) cn) else none
    | 0x04 => if a < 8 then some (.mwr (Fin.ofNat 8 a) bn cn) else none
    | 0x05 => if a < 8 then some (.mst (Fin.ofNat 8 a) bn cn) else none
    | 0x06 => if a < 8 ∧ b = 0 ∧ c = 0 then some (.mzero (Fin.ofNat 8 a)) else none
    | _ => none
  | 0x38 =>
    match sub with
    | 1 => if c = 0 then some (.resid an bn) else none
    | 2 => if a = 0 ∧ b = 0 ∧ c = 0 then some .settle else none
    | 3 => some (.proof an bn cn)
    | 4 => if c = 0 then some (.sti an bn) else none
    | 5 => some (.tqpush an bn cn)
    | 6 => some (.tqpop an bn cn)
    | _ => none
  | 0x39 =>
    if 8 ≤ a then none else
    match sub with
    | 1 => some (.draft (Fin.ofNat 8 a) bn cn)
    | 2 => if c = 0 then some (.accept (Fin.ofNat 8 a) bn) else none
    | 3 => if b = 0 ∧ c = 0 then some (.discard (Fin.ofNat 8 a)) else none
    | _ => none
  | 0x3A =>
    match sub with
    | 0x01 => some (.qpost an bn cn)
    | 0x02 => some (.ecmd an bn cn)
    | 0x03 => if a = 0 then some (.ewait bn cn) else none
    | 0x04 => if a = 0 then some (.sgnl bn cn) else none
    | 0x05 => some (.waits an bn cn)
    | 0x06 => some (.gather an bn cn)
    | 0x07 => some (.scatter an bn cn)
    | 0x08 => if a < 4 ∧ c < 12 then some (.sdef (Fin.ofNat 4 a) bn (Fin.ofNat 12 c)) else none
    | 0x09 => if a < 4 ∧ b = 0 ∧ c = 0 then some (.sstop (Fin.ofNat 4 a)) else none
    | 0x0A => if a < 8 ∧ c = 0 then some (.send (Fin.ofNat 8 a) bn) else none
    | 0x0B => if b < 8 ∧ c = 0 then some (.recv an (Fin.ofNat 8 b)) else none
    | _ => none
  | 0x3D =>
    match sub with
    | 1 => if a = 0 ∧ c = 0 then some (.jmp bn) else none
    | 2 => if a = 0 ∧ b = 0 ∧ c = 0 then some .ret else none
    | _ => none
  | _ => none

/-- The HINT words (R121 to R123). -/
def decodeHint (kind p : Nat) : Option Instr :=
  match kind with
  | 0 => some (.hintImm (BitVec.ofNat 22 p))
  | 1 => if 2 ^ 16 ≤ p then none else (patOfCode (p / 256)).bind fun a => (patOfCode (p % 256)).map fun b => .hintPerm a b
  | 2 =>
    if p % 2 ^ 14 ≠ 0 then none else
    (RndMode.ofCode (p / 2 ^ 19)).bind fun r =>
      let cls := p / 2 ^ 15 % 16
      if cls = 0 then some (.hintMod r none (p / 2 ^ 14 % 2 == 1))
      else if cls < 8 then none else some (.hintMod r (some (Fin.ofNat 8 (cls - 8))) (p / 2 ^ 14 % 2 == 1))
  | 3 => match p with | 1 => some (.hintSched true) | 2 => some (.hintSched false) | _ => none
  | _ => none

/-- The CLAUSE word (R117). -/
def decodeClause (w : Nat) : Option Instr :=
  if w % 4 ≠ 0 then none else
  (flagOfCode (fld w 10 4)).bind fun fa => (flagOfCode (fld w 6 4)).bind fun fb => (Cond.ofCode (fld w 2 4)).map fun g =>
    .clause (BitVec.ofNat 12 (fld w 14 12)) fa fb g

/-- The fields of a word, before the name checks (R108, R125). -/
def decodeRaw (w : Nat) : Option Instr :=
  let m := fld w 26 6
  if m = 0 then (if w = 0 then some .nop else none)
  else if m = 0x08 then decodeSys m (fld w 20 6) (fld w 14 6) (fld w 8 6) (fld w 0 8)
  else if m < 0x28 then
    decodeAlu m (fld w 20 6) (Src.ofCode (fld w 11 9)) (Src.ofCode (fld w 2 9)) (fld w 11 9) (fld w 2 9) (fld w 0 2)
      (fld w 3 8) (fld w 0 3)
  else if m < 0x30 then
    decodeMem m (fld w 20 6) (fld w 14 6) (fld w 8 6) (fld w 0 8) (fld w 6 8) (fld w 3 3) (fld w 0 3)
  else if m < 0x35 then decodeSys m (fld w 20 6) (fld w 14 6) (fld w 8 6) (fld w 0 8)
  else if m < 0x3B then decodeGroup m (fld w 20 6) (fld w 14 6) (fld w 8 6) (fld w 0 8)
  else if m = 0x3B then (Cond.ofCode (fld w 22 4)).map fun c => .bra c (BitVec.ofNat 22 (fld w 0 22))
  else if m = 0x3C then (Cond.ofCode (fld w 22 4)).map fun c => .call c (BitVec.ofNat 22 (fld w 0 22))
  else if m = 0x3D then decodeGroup m (fld w 20 6) (fld w 14 6) (fld w 8 6) (fld w 0 8)
  else if m = 0x3E then decodeClause w
  else decodeHint (fld w 22 4) (fld w 0 22)

/-- A word of the instruction set, or the cause its decoding raises (checks 1 to 4 of R131). -/
def decode (w : Word) : Except DecodeError Instr :=
  match decodeRaw w.toNat with
  | some i => if i.wf then .ok i else .error .illegalInstruction
  | none => if fld w.toNat 26 6 = 0x3E then .error .illegalClause else .error .illegalInstruction

/-- The word at the head of a list of bytes, little-endian (R107). -/
def wordOfBytes : List Byte → Option (Word × List Byte)
  | b0 :: b1 :: b2 :: b3 :: rest => some (b3 ++ b2 ++ b1 ++ b0, rest)
  | _ => none

/-- The decoder on bytes: the instruction at the head and the bytes after it. -/
def decodeBytes (bs : List Byte) : Except DecodeError (Instr × List Byte) :=
  match wordOfBytes bs with
  | none => .error .illegalInstruction
  | some (w, rest) => (decode w).map fun i => (i, rest)

/-- A word as memory holds it (R6). -/
def bytesOfWord (w : Word) : List Byte :=
  [w.setWidth 8, (w >>> 8).setWidth 8, (w >>> 16).setWidth 8, (w >>> 24).setWidth 8]

/-- The instruction the decoder reads from an instruction whose bits, numbered as the opcode table numbers them, are w:
every instruction is one word of 32 bits. An event has no bits (nbits 0) and no word decodes to it. -/
def decodeTableWord (nbits w : Nat) : Option Instr :=
  if nbits = 0 then none else
  match decodeBytes (bytesOfWord (BitVec.ofNat 32 (w % 2 ^ nbits))) with
  | .ok (i, _) => some i
  | .error _ => none

end Sys2Proof
end

