-- ==== Sys2Proof/Machine/Matrix.lean ====
section
/-! DEFINITION. The matrix units: descriptors, residue runs, MDECL, MMA, MRD, MWR, MST, MZERO (R147 to R150, R202, R267,
R341 to R347). An MMA, MRD or MST is a pending operation; LONG_LATENCY_COMPLETE and MATRIX_FAULT carry it on. -/

namespace Sys2Proof.Machine

/-- A tile descriptor (R343). -/
structure Dsc where
  role : Nat
  fmt : Nat
  outer : Nat
  kext : Nat
  stride : Nat
  sc : Bool
  rsv : Nat
  deriving DecidableEq, Repr
def dscOf (w : Word) : Dsc :=
  ⟨bits w.toNat 31 31, bits w.toNat 30 29, bits w.toNat 28 24 + 1, bits w.toNat 23 18 + 1, bits w.toNat 17 6, w.getLsbD 5, bits w.toNat 4 0⟩
def fmtSize (fmt : Nat) : Nat := if fmt = 0 then 1 else if fmt = 1 then 2 else 4
/-- K of a format: 64 for RN8, 32 for BF16, 8 for FP32. -/
def fmtK (fmt : Nat) : Nat := if fmt = 0 then 64 else if fmt = 1 then 32 else 8
def Dsc.ok (d : Dsc) (kmax : Nat) : Bool :=
  d.fmt != 3 && decide (d.kext ≤ kmax) && d.stride != 0 && decide (d.kext * fmtSize d.fmt ≤ 16 * d.stride) && d.rsv == 0

/-- Checks 1, 3 and 4 of R155 on a span of n bytes. -/
def checkSpan (s : State) (c : Cell) (a n detail : Nat) : Option Trap :=
  let bad (k : Cause) : Option Trap := some { cause := k, detail := detail, faddr := a }
  match window a, window (a + n - 1) with
  | some .global, some .global => none
  | some (.vault v), some (.vault w) =>
    if (List.range (w + 1 - v)).all fun i => s.hasVault c.part (v + i) then none else bad .protectionFault
  | some (.scratch o), some (.scratch _) => if c.scratchSize < o + n then bad .illegalAddress else none
  | _, _ => bad .illegalAddress

/-- The tile of a matrix unit. -/
def State.tile (s : State) (unit t : Nat) : TileState := ((s.mxTiles.find? (·.1 == unit * 8 + t)).map (·.2)).getD {}
def State.setTile (s : State) (unit t : Nat) (v : TileState) : State :=
  { s with mxTiles := (unit * 8 + t, v) :: s.mxTiles.filter (·.1 != unit * 8 + t) }

/-! ### Residue runs -/

/-- The integer whose residues modulo 251, 253 and 255 a channel triple holds (R147). -/
def crt (c : Nat × Nat × Nat) : Int :=
  let n := (c.1 * 10128855 + c.2.1 * 4032315 + c.2.2 * 2032096) % 16193265
  if 8096632 < n then (n : Int) - 16193265 else n

/-- The function that an owner's number names (R142). -/
def ownerNum (o : Option (Nat × Nat)) : Nat := (o.map fun x => mxOwner x.1 x.2).getD 0
/-- The function that wrote an element last, by number; 0 where none did. -/
def TileState.writer (t : TileState) (e : Nat) : Nat := let w := sget 0 t.wroteBy e; if w = 0 then t.wroteAll else w
/-- What a tile keeps of the elements: those that elem allows among the writers that by_ allows, with the open run and the record where
run is set, the record alone where rec_ is. -/
def TileState.keep (t : TileState) (by_ elem : Nat → Bool) (run rec_ : Bool) : TileState :=
  let on (e : Nat) : Bool := by_ (t.writer e)
  let base : TileState := if run then t else if rec_ then { slot := t.slot, rows := t.rows, cols := t.cols, leftBy := t.leftBy } else {}
  { base with elems := t.elems.filter (fun x => on x.1 && elem x.1), wroteBy := t.wroteBy.filter (fun x => on x.1)
              wroteAll := if by_ t.wroteAll then t.wroteAll else 0 }
/-- Write elements for a function. -/
def TileState.write (t : TileState) (by_ : Option (Nat × Nat)) (l : List (Nat × Word)) : TileState :=
  { t with elems := l.foldl (fun m x => sput 0 m x.1 x.2) t.elems, wroteBy := l.foldl (fun m x => sput 0 m x.1 (ownerNum by_)) t.wroteBy }
/-- Close the open run of a tile (R147, R148): its tile and the status bits. -/
def closeRun (t : TileState) : TileState × Word :=
  let scaleA (i : Nat) : Nat := if t.runScales.isEmpty then 127 else (t.runScales.getD i 0).toNat
  let scaleB (j : Nat) : Nat := if t.runScales.isEmpty then 127 else (t.runScales.getD (t.runRows + j) 0).toNat
  let (sums, st) := t.chans.foldl (fun (l, st) x =>
    let (i, j) := (x.1 / 32, x.1 % 32)
    let term : Word × Word :=
      if t.voidRows.contains i || t.voidCols.contains j || scaleA i == 255 || scaleB j == 255 then (0x7FC00000, 0)
      else
        let n := crt x.2
        rne32 (.fin (decide (n < 0)) n.natAbs 1 ((scaleA i : Int) + scaleB j - 254))
    let r := fop32 .add .rne 0 (sget 0 t.elems x.1) term.1 0
    (l ++ [(x.1, r.1)], st ||| term.2 ||| r.2)) (([] : List (Nat × Word)), (0 : Word))
  ({ t.write t.leftBy sums with
      runLen := 0, runSlot := 0, runScales := [], chans := [], voidRows := [], voidCols := [], runRows := 0, runCols := 0 }, st)
/-- Close the run of a tile in the state. Its status bits are set in the cell whose MMA or MST closes it (R344, R347); an MRD or MWR
sets none (R346). -/
def State.closeTile (s : State) (unit t : Nat) (cell : Option Nat) : State :=
  let x := s.tile unit t
  let (x', st) := closeRun x
  let s := s.setTile unit t x'
  match cell with
  | some c => s.orArith c st
  | none => s

/-! ### MMA -/

/-- Where the elements that an MMA reads stand: number, address, size. A below 4096, B below 8192, then scale bytes. -/
def mmaElems (ea eb : Tile) (scl : Bool) : List (Nat × Nat × Nat) :=
  let (da, db) := (dscOf ea.dsc, dscOf eb.dsc)
  let kk := min da.kext db.kext
  let part (off : Nat) (d : Dsc) (t : Tile) : List (Nat × Nat × Nat) :=
    (List.range d.outer).flatMap fun i => (List.range kk).map fun k =>
      (off + 64 * i + k, t.base.toNat + 16 * d.stride * i + fmtSize d.fmt * k, fmtSize d.fmt)
  let scales (off : Nat) (d : Dsc) (t : Tile) : List (Nat × Nat × Nat) :=
    (List.range d.outer).map fun i => (off + i, t.base.toNat + 16 * d.stride * d.outer + i, 1)
  part 0 da ea ++ part 4096 db eb ++ (if scl then scales 8192 da ea ++ scales 8224 db eb else [])

/-- One read of the matrix load pipe (R202): the cell's scratch, or the home; never the pending store set. -/
def pipeRead (s : State) (c : Cell) (sup : Bool) (a n : Nat) : Res Word :=
  match window a with
  | some (.scratch off) => .ok (BitVec.ofNat 32 (natOfBytes (bytesAt c.scratch off n)))
  | _ =>
    if heldBack s [] c.part c.fn a n then .stall else
    match homeRead s (c.who sup) a .read n with
    | .ok bs => .ok (BitVec.ofNat 32 (natOfBytes (overlay c a bs)))
    | .error (x, e) => .trap { cause := if e = .uncorrectable then .uncorrectable else .matrixFault, detail := 1, faddr := x }

def wordOf (m : List (Nat × Word)) (k : Nat) : Word := ((m.find? (·.1 == k)).map (·.2)).getD 0

/-- Is an RN8 byte a void (R144, R147)? -/
def voidByte (sym : Bool) (m : List (Nat × Word)) (n : Nat) : Bool :=
  let b : Byte := (wordOf m n).setWidth 8
  rn8Void b || (sym && b == 0x10)
/-- The voids that row i of an MMA reads: whether in row i of A, and the columns of B (R147). -/
def rowVoids (sym : Bool) (eb kk : Nat) (m : List (Nat × Word)) (i : Nat) : Bool × List Nat :=
  ((List.range kk).any fun k => voidByte sym m (64 * i + k)
  , (List.range eb).filter fun j => (List.range kk).any fun k => voidByte sym m (4096 + 64 * j + k))
/-- One row of an RN8 MMA into the residue channels (R147). -/
def rn8Row (sym : Bool) (eb : Nat) (kk : Nat) (m : List (Nat × Word)) (i : Nat) (t : TileState) : TileState :=
  let val (n : Nat) : Int := if voidByte sym m n then 0 else rn8Val ((wordOf m n).setWidth 8)
  let ks := List.range kk
  let v := rowVoids sym eb kk m i
  let t := { t with voidRows := if v.1 && !t.voidRows.contains i then t.voidRows ++ [i] else t.voidRows
                    voidCols := t.voidCols ++ v.2.filter fun j => !t.voidCols.contains j }
  (List.range eb).foldl (fun t j =>
    let sum : Int := ks.foldl (fun a k => a + val (64 * i + k) * val (4096 + 64 * j + k)) 0
    let old := sget noChan t.chans (32 * i + j)
    let old := if old = noChan then (0, 0, 0) else old
    let new : Nat × Nat × Nat := (((old.1 : Int) + sum).emod 251 |>.toNat, ((old.2.1 : Int) + sum).emod 253 |>.toNat
                                 , ((old.2.2 : Int) + sum).emod 255 |>.toNat)
    { t with chans := sput noChan t.chans (32 * i + j) new }) t

/-- One row of a BF16 or FP32 MMA for a function: two chains per element (R149, R150). -/
def chainRow (by_ : Option (Nat × Nat)) (fmt eb kk : Nat) (m : List (Nat × Word)) (i : Nat) (t : TileState) : TileState × Word :=
  let w (on : Bool) (n : Nat) : Word := if !on then 0 else if fmt = 1 then (wordOf m n) <<< 16 else wordOf m n
  (List.range eb).foldl (fun (t, st) j =>
    let step (par : Nat) (x : Word × Word) : Word × Word :=
      ((List.range (fmtK fmt)).filter (· % 2 == par)).foldl (fun (acc, st) k =>
        let r := fop32 .mac .rne 0 (w (decide (k < kk)) (64 * i + k)) (w (decide (k < kk)) (4096 + 64 * j + k)) acc
        (r.1, st ||| r.2)) x
    let e := step 0 (sget 0 t.elems (32 * i + j), 0)
    let o := step 1 (0, 0)
    let r := fop32 .add .rne 0 e.1 o.1 0
    (t.write by_ [(32 * i + j, r.1)], st ||| e.2 ||| o.2 ||| r.2)) (t, 0)

/-- Rows lo to hi − 1 of an MMA, whose run starts or continues at row 0 (R148, R344). The status bits go to the cell. -/
def mmaRows (s : State) (c : Cell) (unit tile slot : Nat) (ea eb : Tile) (m : List (Nat × Word)) (lo hi : Nat) : State :=
  let f := fmtSlot s c slot
  let (da, db) := (dscOf ea.dsc, dscOf eb.dsc)
  let kk := min da.kext db.kext
  let scl := fmtSCL f == 1
  let scales : List Byte := if scl then
    (List.range da.outer).map (fun i => (wordOf m (8192 + i)).setWidth 8) ++ (List.range db.outer).map fun j => (wordOf m (8224 + j)).setWidth 8
    else []
  let t0 := s.tile unit tile
  let differs := t0.runSlot != slot || t0.runScales != scales || (scl && (t0.runRows != da.outer || t0.runCols != db.outer))
  let s := if lo = 0 && 0 < t0.runLen && differs then s.closeTile unit tile (some c.id) else s
  let t := s.tile unit tile
  if da.fmt = 0 then
    let t := if lo = 0 ∧ t.runLen = 0 then
      { t with runSlot := slot, runScales := scales, runRows := da.outer, runCols := db.outer, chans := [], voidRows := [], voidCols := [] } else t
    let rows := (List.range (hi - lo)).map (lo + ·)
    let s := s.setTile unit tile { rows.foldl (fun t i => rn8Row (fmtSYM f) db.outer kk m i t) t with leftBy := some (c.part, c.fn) }
    let voids := rows.any fun i => let v := rowVoids (fmtSYM f) db.outer kk m i; v.1 || !v.2.isEmpty
    if voids then (s.setMx unit (s.mx unit ||| 1)).setMxBy unit c.part c.fn else s
  else
    let (t, st) := (List.range (hi - lo)).foldl (fun (t, st) i =>
      let r := chainRow (some (c.part, c.fn)) da.fmt db.outer kk m (lo + i) t
      (r.1, st ||| r.2)) (t, (0 : Word))
    (s.setTile unit tile { t with leftBy := some (c.part, c.fn) }).orArith c.id st

/-- The end of an MMA: the run counts it and closes unless held (R148); slot and extents are recorded (R344). -/
def mmaEnd (s : State) (c : Cell) (unit tile slot : Nat) (hold : Bool) (ea eb : Tile) : State :=
  let (da, db) := (dscOf ea.dsc, dscOf eb.dsc)
  let t := s.tile unit tile
  let s := if da.fmt = 0 then
      let s := s.setTile unit tile { t with runLen := t.runLen + 1 }
      if !hold || 16 ≤ t.runLen + 1 then s.closeTile unit tile (some c.id) else s
    else s
  let t := s.tile unit tile
  s.setTile unit tile { t with slot := slot, rows := da.outer, cols := db.outer, leftBy := some (c.part, c.fn) }

/-! ### The order of a tile -/

/-- Is the operation the first in the order of its tile? -/
def State.atHead (s : State) (o : Op) : Bool :=
  match s.ops.find? fun x => x.tileTurn.isSome && x.tileTurn == o.tileTurn && !s.away x with
  | some x => x.id == o.id
  | none => false

/-- MWR's effect on the tile, and MZERO's (R346). -/
def mwrTile (s : State) (unit tile row : Nat) (vals : List (Nat × Word)) (by_ : Option (Nat × Nat)) : State :=
  let s := s.closeTile unit tile none
  let t := s.tile unit tile
  s.setTile unit tile { t.write by_ (vals.map fun x => (32 * row + x.1, x.2)) with slot := 0, rows := 32, cols := 32, leftBy := by_ }

/-- Posted MWRs and MZEROs at the head of a tile's order take effect (R342). -/
def drainTile (s : State) (unit tile : Nat) : Nat → State
  | 0 => s
  | fuel + 1 =>
    match s.ops.find? fun x => x.tileTurn == some (unit, tile) && !s.away x with
    | none => s
    | some o =>
      let rest : State := { s with ops := s.ops.filter (·.id != o.id) }
      match o.kind with
      | .mwr u t row vals b => drainTile (mwrTile rest u t row vals (some b)) unit tile fuel
      | .mzero u t b => drainTile (rest.setTile u t { leftBy := some b, wroteAll := ownerNum (some b) }) unit tile fuel
      | _ => s
def drainAll (s : State) (unit tile : Nat) : State := drainTile s unit tile (s.ops.length + 1)

/-- An operation has completed for one of its fibres, or for all: the flags fall; it goes when no fibre is left. -/
def finishFor (s : State) (o : Op) (p : FRef → Bool) : State :=
  let s := (o.fibres.filter (p ·.1)).foldl (fun s x => s.dropFlag x.1 o.id x.2.1 x.2.2) s
  let rest := o.fibres.filter (!p ·.1)
  if rest.isEmpty then { s with ops := s.ops.filter (·.id != o.id) } else s.setOp o.id fun o => { o with fibres := rest }
def finishOp (s : State) (o : Op) : State := afterChange (finishFor s o fun _ => true) o.owner.cell

/-- Does an operation read and write as the supervisor: the mode of its fibre, or, where that has trapped since, the mode of the trapped
code? -/
def ownerSup (s : State) (o : Op) : Bool :=
  ((s.fibre? o.owner).map fun f => ((f.handler.filter fun h => h.owed.contains o.id).map (·.mode)).getD f.sup).getD false

/-- Carry an MMA on: read the elements that mask selects among those not yet read; when all are read and its turn has
come, compute the rows left and complete. -/
def advanceMma (s : State) (o : Op) (c : Cell) (mask unit tile slot : Nat) (hold : Bool) (ea eb : Tile) (row : Nat) : State :=
  let scl := fmtSCL (fmtSlot s c slot) == 1
  let all := mmaElems ea eb scl
  let have_ := o.result.getD []
  let new := all.zipIdx.filterMap fun (x, i) =>
    if mask.testBit i && !have_.any (·.1 == x.1) then
      match pipeRead s c (ownerSup s o) x.2.1 x.2.2 with | .ok w => some (x.1, w) | _ => none
    else none
  let m := have_ ++ new
  let s := (all.filter fun x => new.any (·.1 == x.1)).foldl (fun s x =>
    touchHomes s (c.who (ownerSup s o)) none false .read x.2.1 x.2.2) s
  let s := s.setOp o.id fun o => { o with result := some m }
  if m.length = all.length && s.atHead o then
    let s := mmaRows s c unit tile slot ea eb m row (dscOf ea.dsc).outer
    let s := mmaEnd s c unit tile slot hold ea eb
    drainAll (finishOp s o) unit tile
  else s

/-- MATRIX_FAULT of an MMA (R345): the rows before the first that needs a faulting element stand; where there
is none, the open run is left as it is (R148, R267). -/
def faultMma (s : State) (o : Op) (c : Cell) (unit tile slot : Nat) (hold : Bool) (ea eb : Tile) (row : Nat) : State :=
  let scl := fmtSCL (fmtSlot s c slot) == 1
  let all := mmaElems ea eb scl
  let have_ := o.result.getD []
  let unread := all.filter fun x => !have_.any (·.1 == x.1)
  let rowOf (n : Nat) : Nat := if n < 4096 then n / 64 else row
  let bad := unread.filterMap fun x => match pipeRead s c (ownerSup s o) x.2.1 x.2.2 with | .trap t => some (rowOf x.1, t) | _ => none
  match sortBy (fun a b => decide (a.1 ≤ b.1)) bad with
  | [] => s
  | (r, t) :: _ =>
    let r := max r row
    if !s.atHead o || (unread.any fun x => rowOf x.1 < r) || (row < r && unread.any fun x => 4096 ≤ x.1) then s else
    let s := if row < r then mmaRows s c unit tile slot ea eb have_ row r else s
    let s := s.setOp o.id fun o => { o with kind := .mma unit tile slot hold ea eb r, refused := some { t with mxrow := r % 32 } }
    o.fibres.foldl (fun s x => parkStuck s x.1) s

/-! ### MST and MRD -/

/-- The narrowing of MST (R347): BF16 by rne, never by R137's draw. -/
def narrow (clp : Bool) (w : Word) : Word × Word :=
  let r := bf16.round .rne 0 false (val32 w)
  let m := r.1 % 0x8000
  let ovf := r.2 &&& stOF != 0
  (BitVec.ofNat 32 (if clp && ovf && m == 0x7F80 then r.1 - 1 else r.1), r.2)
/-- What MST writes: element number, word; and the status bits. -/
def mstWords (t : TileState) (d : Dsc) (clp : Bool) : List (Nat × Word) × Word :=
  let (ni, nj) := (min d.outer t.rows, min d.kext t.cols)
  ((List.range ni).flatMap fun i => (List.range nj).map fun j => (i, j)).foldl (fun (l, st) (i, j) =>
    let w := sget 0 t.elems (32 * i + j)
    let r := if d.fmt = 1 then narrow clp w else (w, 0)
    (l ++ [(32 * i + j, r.1)], st ||| r.2)) ([], (0 : Word))

/-- Land one element of MST at its place. -/
def mstPut (s : State) (c : Cell) (sup : Bool) (base : Nat) (d : Dsc) (x : Nat × Word) : Res State :=
  let a := base + 16 * d.stride * (x.1 / 32) + fmtSize d.fmt * (x.1 % 32)
  let bs := bytesOfNat (fmtSize d.fmt) x.2.toNat
  match window a with
  | some (.scratch off) => .ok (s.setCell c.id fun c => { c with scratch := putBytes c.scratch off bs })
  | _ =>
    if heldBack s [] c.part c.fn a bs.length then .stall else
    match landBytes (if inDraft c a then s else touchHomes s (c.who sup) none false .write a bs.length) c.id (c.who sup) (some c.cluster) a bs with
    | .ok s => .ok (if inDraft c a then s else settleBlocks s 0 c.cluster (tagOf s c.part c.fn a) a bs)
    | .error (x, e) => .trap { cause := if e = .uncorrectable then .uncorrectable else .matrixFault, detail := e.detail 2, faddr := x }

/-- Store the elements that mask selects, row by row: a row is begun once the row before it is complete. -/
def mstRows (s : State) (o : Op) (c : Cell) (mask : Nat) (base : Nat) (d : Dsc) (words : List (Nat × Word)) : Nat → Nat → Nat → State × Nat × Nat
  | 0, row, got => (s, row, got)
  | fuel + 1, row, got =>
    let mine := words.filter fun x => x.1 / 32 == row
    let (s', got) := mine.foldl (fun (s, got) x =>
      if mask.testBit x.1 && !got.testBit x.1 then
        match mstPut s c (ownerSup s o) base d x with | .ok s' => (s', got + 2 ^ x.1) | _ => (s, got)
      else (s, got)) (s, got)
    if mine.all fun x => got.testBit x.1 then mstRows s' o c mask base d words fuel (row + 1) got else (s', row, got)

def advanceMst (s : State) (o : Op) (c : Cell) (mask unit tile : Nat) (base : DWord) (dsc : Word) (row : Nat) : State :=
  let d := dscOf dsc
  match o.result with
  | none =>
    if !s.atHead o then s else
    let s := s.closeTile unit tile (some c.id)
    let t := s.tile unit tile
    let (ws, st) := mstWords t d (fmtCLP (fmtSlot s c t.slot))
    drainAll ((s.setOp o.id fun o => { o with result := some ws }).orArith c.id st) unit tile
  | some ws =>
    let rows := ws.foldl (fun n x => max n (x.1 / 32 + 1)) 0
    let (s, row, got) := mstRows s o c mask base.toNat d ws (rows - row) row o.got
    if rows ≤ row then finishOp s o
    else s.setOp o.id fun o => { o with kind := .mst unit tile base dsc row, got := got }

/-- MATRIX_FAULT of an MST (R347). -/
def faultMst (s : State) (o : Op) (c : Cell) (unit tile : Nat) (base : DWord) (dsc : Word) (row : Nat) : State :=
  let d := dscOf dsc
  let left := (o.result.getD []).filter fun x => x.1 / 32 == row && !o.got.testBit x.1
  match left.findSome? fun x => match mstPut s c (ownerSup s o) base.toNat d x with | .trap t => some t | _ => none with
  | none => s
  | some t =>
    let s := s.setOp o.id fun o => { o with kind := .mst unit tile base dsc row, refused := some { t with mxrow := row } }
    o.fibres.foldl (fun s x => parkStuck s x.1) s

/-- MRD: the row is read at its turn, then each lane's word is delivered (R346). -/
def advanceMrd (s : State) (o : Op) (mask unit tile row : Nat) (dsts : List (FRef × Nat × Nat)) : State :=
  match o.result with
  | none =>
    if !s.atHead o then s else
    let s := s.closeTile unit tile none
    let t := s.tile unit tile
    drainAll (s.setOp o.id fun o => { o with result := some (dsts.map fun x => (x.2.2, sget 0 t.elems (32 * row + x.2.2))) }) unit tile
  | some ws =>
    let inHandler (r : FRef) : Bool := ((s.fibre? r).bind (·.handler)).any fun h => h.owed.contains o.id
    let now := dsts.filter fun x => mask.testBit x.2.2 && o.fibres.any (·.1 == x.1) && !inHandler x.1
    let s := now.foldl (fun s x => s.setFibre x.1 fun f => { f with stack := sput 0 f.stack x.2.1 (wordOf ws x.2.2) }) s
    afterChange (finishFor s o fun r => now.any (·.1 == r)) o.owner.cell

/-! ### The instructions -/

/-- A trap of the operation is raised in every active lane, and it has no effect (R341). -/
def trapLanes (s : State) (g : Grp) (vals : List (Fibre × List DWord)) (t : Trap) : State :=
  raiseLanes s g (vals.map fun x => (x.1.idx, t))

/-- MDECL's checks (R343). -/
def mdeclCheck (s : State) (c : Cell) (base : DWord) (dsc : Word) : Option Trap :=
  let d := dscOf dsc
  let b := base.toNat
  if !d.ok (fmtK d.fmt) then some { cause := .illegalAddress }
  else if b % 16 ≠ 0 then some { cause := .misaligned, detail := 1, faddr := b }
  else
    let span := 16 * d.stride * (d.outer - 1) + d.kext * fmtSize d.fmt
    (checkSpan s c b span 1).or (if d.sc then checkSpan s c (b + 16 * d.stride * d.outer) d.outer 1 else none)
def execMdecl (d base dsc : Name) (s : State) : Out :=
  unit s {} false false fun s g =>
    withLowest true [(plainSrc base .b64, false), (plainSrc dsc .b32, false)] s g fun s g vals => some <|
      match vals.head? with
      | none => s
      | some (_, vs) =>
        let (b, w) := (vs.getD 0 0, loWord (vs.getD 1 0))
        match mdeclCheck s g.cell b w with
        | some t => trapLanes s g vals t
        | none =>
          let n := g.cell.mdecls % 2 ^ 32
          let s := s.setCell g.cell.id fun c => { c with
            mdecls := (n + 1) % 2 ^ 32
            tiles := (n % 64, { base := b, dsc := w, num := BitVec.ofNat 32 n }) :: c.tiles.filter (·.1 != n % 64) }
          vals.foldl (fun s x => s.setFibre ⟨g.cell.id, x.1.idx⟩ fun f => f.setReg (nameWin d) (BitVec.ofNat 32 n)) s

/-- The entry that a handle names, while it holds (R343). -/
def Cell.tileOf (c : Cell) (h : Word) : Option Tile :=
  ((c.tiles.find? (·.1 == h.toNat % 64)).map (·.2)).filter fun t => t.num == h
/-- MMA's checks (R344). -/
def mmaCheck (s : State) (c : Cell) (slot : Nat) (ha hb : Word) : Option (Tile × Tile) :=
  match c.tileOf ha, c.tileOf hb with
  | some ea, some eb =>
    let (da, db) := (dscOf ea.dsc, dscOf eb.dsc)
    let f := fmtSlot s c slot
    if da.role ≠ 0 ∨ db.role ≠ 1 ∨ da.fmt ≠ db.fmt ∨ da.fmt ≠ fmtAFMT f then none
    else if fmtSCL f = 1 ∧ (!da.sc ∨ !db.sc) then none
    else some (ea, eb)
  | _, _ => none
/-- MMA and MMA.hold (R344); .hold with a slot other than RN8 acts as a plain MMA (R148). -/
def mmaWord (hold : Bool) (slot tile : Nat) (a b : Name) (s : State) : Out :=
  unit s {} true false fun s g =>
    barredLowest true [(plainSrc a .b32, false), (plainSrc b .b32, false)] s g fun s g vals => some <|
      match vals.head? with
      | none => s
      | some (_, vs) =>
        match mmaCheck s g.cell slot (loWord (vs.getD 0 0)) (loWord (vs.getD 1 0)) with
        | none => trapLanes s g vals { cause := .illegalAddress }
        | some (ea, eb) => pendAll s g.cell.id (vals.map (·.1)) (.mma g.quad tile slot hold ea eb 0)
def execMma (slot tile : Fin 8) (a b : Name) (s : State) : Out := mmaWord false slot.val tile.val a b s
def execMmaHold (slot tile : Fin 8) (a b : Name) (s : State) : Out := mmaWord true slot.val tile.val a b s

def execMrd (d : Name) (tile : Fin 8) (row : Name) (s : State) : Out :=
  unit s {} true false fun s g =>
    withLowest true [(plainSrc row .b32, false)] s g fun s g vals => some <|
      match vals.head? with
      | none => s
      | some (_, vs) =>
        let r := (loWord (vs.getD 0 0)).toNat
        if 32 ≤ r then trapLanes s g vals { cause := .illegalAddress } else
        pendAll s g.cell.id (vals.map (·.1))
          (.mrd g.quad tile.val r (vals.map fun x => (⟨g.cell.id, x.1.idx⟩, x.1.base + nameWin d, x.1.lane)))

/-- A posted matrix word: it takes its place in the order of its tile and holds no flag (R342). -/
def postTile (s : State) (g : Grp) (k : OpKind) (tile : Nat) : State :=
  drainAll { s with ops := s.ops ++ [{ id := s.next, owner := ⟨g.cell.id, 1024⟩, fibres := [], kind := k }], next := s.next + 1 } g.quad tile
def execMwr (tile : Fin 8) (a row : Name) (s : State) : Out :=
  unit s {} false false fun s g =>
    withLowest true [(plainSrc a .b32, true), (plainSrc row .b32, false)] s g fun s g vals => some <|
      match vals.head? with
      | none => s
      | some (_, vs) =>
        let r := (loWord (vs.getD 1 0)).toNat
        if 32 ≤ r then trapLanes s g vals { cause := .illegalAddress } else
        postTile s g (.mwr g.quad tile.val r (vals.map fun x => (x.1.lane, loWord (x.2.getD 0 0))) (g.cell.part, g.cell.fn)) tile.val
def execMzero (tile : Fin 8) (s : State) : Out :=
  unit s {} false false fun s g => some (if g.active.isEmpty then s else postTile s g (.mzero g.quad tile.val (g.cell.part, g.cell.fn)) tile.val)

/-- MST's checks (R347): the span is that of the rows and columns written. -/
def mstCheck (s : State) (c : Cell) (base : DWord) (dsc : Word) (t : TileState) : Option Trap :=
  let d := dscOf dsc
  let b := base.toNat
  if d.role ≠ 0 ∨ (d.fmt ≠ 1 ∧ d.fmt ≠ 2) ∨ d.sc ∨ !d.ok 32 then some { cause := .illegalAddress }
  else if b % 16 ≠ 0 then some { cause := .misaligned, detail := 2, faddr := b }
  else checkSpan s c b (16 * d.stride * (min d.outer t.rows - 1) + min d.kext t.cols * fmtSize d.fmt) 2
/-- The extents that a tile will have at its turn: those of the last pending MMA, MWR or MZERO on it, else those recorded. -/
def tileExtents (s : State) (unit tile : Nat) : TileState :=
  (s.ops.filter fun o => o.tileTurn == some (unit, tile) && !s.away o).foldl (fun t o => match o.kind with
    | .mma _ _ _ _ ea eb _ => { t with rows := (dscOf ea.dsc).outer, cols := (dscOf eb.dsc).outer }
    | .mwr _ _ _ _ _ | .mzero _ _ _ => { t with rows := 32, cols := 32 }
    | _ => t) (s.tile unit tile)
def execMst (tile : Fin 8) (addr dsc : Name) (s : State) : Out :=
  unit s {} true false fun s g =>
    barredLowest true [(plainSrc addr .b64, false), (plainSrc dsc .b32, false)] s g fun s g vals => some <|
      match vals.head? with
      | none => s
      | some (_, vs) =>
        let (b, w) := (vs.getD 0 0, loWord (vs.getD 1 0))
        match mstCheck s g.cell b w (tileExtents s g.quad tile.val) with
        | some t => trapLanes s g vals t
        | none => pendAll s g.cell.id (vals.map (·.1)) (.mst g.quad tile.val b w 0)

end Sys2Proof.Machine
end

