-- ==== Sys2Proof/Machine/Plate.lean ====
section
/-! DEFINITION. The plate words RESID, SETTLE, PROOF, STI, TQPUSH, TQPOP, with the commit of an update, the raises of STI
and the snapshot of PROOF (R69 to R74, R79 to R89, R353, R358, R367, R369, R374); and the draft words (R182 to R185, R306). -/

namespace Sys2Proof.Machine

/-! ### Residuals -/

/-- A number of records as an FP32 integer (R85). -/
def occWord (n : Nat) : Word := (rne32 (ofInt n)).1
def infWord : Word := 0x7F800000
/-- The larger of two non-negative FP32 values: their bits are in the order of their values. -/
def maxRho (a b : Word) : Word := if a.toNat < b.toNat then b else a

/-- Raise a cell's residual by a share; a running cell keeps it in its arrivals too (R71, R74). -/
def Entry.raise (e : Entry) (s : Word) : Entry :=
  { e with rho := upAdd e.rho s, arrivals := if e.running then upAdd e.arrivals s else e.arrivals }

/-- The kind of launch a cell belongs to. -/
def kindOf (s : State) (c : Cell) : LaunchKind := ((s.launch? c.launch).map (·.kind)).getD .grid

/-! ### RESID and SETTLE -/

/-- What RESID folds: an absolute value, a NaN as +∞ with NV (R70). -/
def foldRho (w : Word) : Word × Word := if isNan w then (infWord, stNV) else (w &&& 0x7FFFFFFF, 0)
def execResid (a b : Name) (s : State) : Out :=
  unit s {} false false fun s g =>
    withLanes [plainSrc a .b32, plainSrc b .b32] s g fun s g vals => some <|
      if kindOf s g.cell ≠ .plate then s else
      vals.foldl (fun s x =>
        let v := foldRho (loWord (x.2.getD 0 0))
        let d := foldRho (loWord (x.2.getD 1 0))
        (s.setCell g.cell.id fun c => { c with repV := maxRho c.repV v.1, repD := maxRho c.repD d.1 }).orArith g.cell.id (v.2 ||| d.2)) s

/-- SETTLE (R71, R358): every fibre present arrives; in a grid cell it is a QUIT. -/
def execSettle (s : State) : Out :=
  unit s {} false false fun s g =>
    let (s, ms) := barTx s g g.members
    if kindOf s g.cell = .grid || g.cell.settled then
      some (foldLanes s g (ms.map fun f => (f, [])) fun s f _ => quitLane g s f)
    else
      let s := blockAt (if ms.isEmpty then s else endPins s (·.cell == g.cell.id)) g ms .settle
      some (ms.foldl (fun s f => parkStuck s ⟨g.cell.id, f.idx⟩) s)

/-- Steps 2 and 3 of R71 and the end of Running, in the plate's entries: one event of the plate order. -/
def commitEntries (l : Launch) (i : Nat) (v d : Word) : Launch :=
  let edges := ((l.cells[i]?).map (·.edges)).getD []
  let l := match l.kind with
    | .plate =>
      let l := l.setEntry i fun e => { e with rho := upAdd v e.arrivals, arrivals := 0 }
      edges.foldl (fun (l : Launch) (x : Nat × Word) => l.setEntry x.1 fun e => e.raise (share x.2 d)) l
    | _ => l
  checkConverged (l.setEntry i fun e => { e with running := false })

/-- Bytes of a cell reach their homes from its cluster, whose L1 blocks take them (R189, R191). -/
def landAll (s : State) (c : Cell) (sup : Bool) (l : List (Nat × Byte)) : Except (Nat × Cause) State :=
  l.foldl (fun (r : Except (Nat × Cause) State) x => r.bind fun s =>
    (homeWrite s (c.who sup) (some c.cluster) x.1 [x.2]).map fun s =>
      settleBlocks s 0 c.cluster (tagOf s c.part c.fn x.1) x.1 [x.2]) (.ok (touchEach s (c.who sup) .write (l.map (·.1))))
/-- Is no held write of an update held back at its home? -/
def heldReady (s : State) (c : Cell) : Bool :=
  c.held.all fun x => !heldBack s [] c.part c.fn x.1 1

/-- SETTLE_COMMIT (R71): every fibre of the cell that has not quit is at SETTLE with nothing pending, and the commit's release at
device scope is done for all of them (R196); the held writes reach their homes, the entries change, the fibres end. A held
write refused at its home parks the lowest fibre (R265). What a store or an atomic by address of the update's own cell wrote
over held bytes at their homes, the held bytes replace here (DESIGN CHOICE: R73 and R191 do not settle it with R190). The held
writes land with the rights of the supervisor, so that a page without U refuses none of them (DESIGN CHOICE: R71 does not say with
whose rights the commit writes). -/
def execSettleCommit (cell : Nat) (s : State) : Out :=
  match s.cell? cell with
  | none => .next s
  | some c =>
    if !c.resident || kindOf s c = .grid || c.settled || c.fibres.isEmpty || !allAt c isSettle || !(c.fibres.all fun f => s.idle ⟨cell, f.idx⟩ && f.flagsClear 0xFFF)
      || !covered s cell .dev c.fibres || !s.invalsClear c.cluster || !heldReady s c then .next s else
    match landAll s c true c.held, c.fibres.head? with
    | .error (a, e), some f =>
      .next (takeTraps s cell f.hatch [⟨f.idx, { cause := e, detail := e.detail 2, faddr := a }, f.waitAt⟩])
    | .error _, none => .next s
    | .ok s, _ =>
      let s := s.setCell cell fun c => { c with settled := true, held := [] }
      let s := s.setLaunch c.launch fun l => commitEntries l c.index c.repV c.repD
      .next (c.fibres.foldl (fun s f => finishQuit s ⟨cell, f.idx⟩) s)

/-! ### STI -/

/-- The raises of an STI that changed a word (R74, R374): every matched plate, region and subscriber. -/
def stiRaise (s : State) (part fn addr : Nat) (new old : Word) : State :=
  let ch := change new old
  { s with launches := s.launches.map fun l =>
      if l.part = part ∧ l.fn = fn ∧ l.kind = .plate ∧ l.installed then
        let subs := (l.regions.filter fun r => decide (r.base ≤ addr) && decide (addr < r.base + r.len)).flatMap (·.subs)
        if subs.isEmpty then l
        else checkConverged (subs.foldl (fun (l : Launch) x => l.setEntry x.1 fun e => e.raise (share x.2 ch)) l)
      else l }

/-- STI in one lane (R74, R367): the checks, then a store with release at device scope. -/
def stiLane (g : Grp) (va : Nat) (v : Word) (s : State) (f : Fibre) : State × Option Trap :=
  match s.cell? g.cell.id with
  | none => (s, none)
  | some c =>
    match checkAddr s c va 4 2 true with
    | some t => (s, some t)
    | none =>
      if inDraft c va then (s, some { cause := .illegalAddress, detail := 2, faddr := va })
      else match parkDue s ⟨c.id, f.idx⟩ .stores with
      | some t => (s, some t)
      | none => (postStore s c f .sti va (bytesOfNat 4 v.toNat) .dev none false, none)
def execSti (a addr : Name) (s : State) : Out :=
  unit s {} false false fun s g =>
    barredLanes [plainSrc addr .b64, plainSrc a .b32] s g fun s g vals => some <|
      foldLanes s g vals fun s f vs => stiLane g (vs.getD 0 0).toNat (loWord (vs.getD 1 0)) s f

/-! ### PROOF -/

/-- PROOF in one lane: its checks (R80, R155), then a pending operation. -/
def proofLane (g : Grp) (dst addr n : Nat) (s : State) (f : Fibre) : State × Option Trap :=
  if n < 1 ∨ 64 < n then (s, some { cause := .illegalAddress })
  else if dst % 16 ≠ 0 then (s, some { cause := .misaligned, detail := 2, faddr := dst })
  else if let some t := checkAddr s g.cell addr 4 1 false then (s, some t)
  else if g.cell.scratchSize < dst + 4 * n + 16 then (s, some { cause := .illegalAddress, detail := 2, faddr := dst })
  else (pendAll s g.cell.id [f] (.proof dst addr n), none)
def execProof (a addr c : Name) (s : State) : Out :=
  unit s {} true false fun s g =>
    barredLanes [plainSrc a .b32, plainSrc addr .b64, plainSrc c .b32] s g fun s g vals => some <|
      foldLanes s g vals fun s f vs =>
        proofLane g (loWord (vs.getD 0 0)).toNat (vs.getD 1 0).toNat (loWord (vs.getD 2 0)).toNat s f

/-- The plate whose frame holds a whole block (R353, R374): the most recently installed. -/
def plateOf (s : State) (part fn addr n : Nat) : Option Launch :=
  (s.launches.filter fun l => l.part == part && l.fn == fn && l.installed && l.rcd.pfSize != 0
    && decide (l.rcd.pfBase.toNat ≤ addr) && decide (addr + 4 * n ≤ l.rcd.pfBase.toNat + 4 * l.rcd.pfSize)).foldl
      (fun m l => match m with | none => some l | some x => some (if x.seq < l.seq then l else x)) none
/-- BOUND, GEN and CONV at a point (R80, R84). -/
def proofTrailer (l : Launch) : List Word :=
  match l.kind with
  | .grid => if l.cells.all (·.ended) then [0, 1, 0, 1] else [infWord, 0, 0, 0]
  | _ =>
    let m := l.cells.foldl (fun m e => maxRho m e.rho) (0 : Word)
    let bound := if m = infWord then infWord else roundUp (mulEx (val32 l.rcd.gain) (val32 m))
    [bound, l.gen, 0, if l.conv then 1 else 0]

/-- Has the fibre of an operation an earlier acquire still to be answered (R194)? -/
def acqBefore (s : State) (o : Op) : Bool :=
  s.accs.any fun a => a.owner == o.owner && decide (a.id < o.id) && a.isAcquire && !a.refused && !(s.kept o.owner).contains a.id
/-- Does an operation still stand before the points that come after its own: it has yet to take its point or, as a PROOF that a
pre-emption would replay with a new one (R353), to end? -/
def Op.pointOpen (o : Op) : Bool := o.kind.isPoint && (o.result.isNone || match o.kind with | .proof _ _ _ => true | _ => false)
/-- The operation's turn among those of its fibre and of its instruction that take points of the plate order (R89, R353). One
behind an event of its fibre that is refused, or that waits for what is refused, waits for the replay: the drain of a trap (R260)
counts it as owed, and an event of the handler itself does not wait for what only the replay lets go on; it waits for an STI of the
trapped code that is under way (DESIGN CHOICE: R89 does not say how its order and a trap meet). -/
def pointTurn (s : State) (o : Op) : Bool :=
  let kept := s.kept o.owner
  let before (i : Nat) : Bool := decide (i < o.id) && !(kept.contains i && !s.owed o.owner o.id)
  (s.ops.all fun x => !(before x.id && x.pointOpen
    && (x.owner == o.owner || (x.issue == o.issue && x.refused.isNone))))
  && s.accs.all fun a => !(a.owner == o.owner && a.kind == .sti && before a.id && a.stage != .arrived)

/-- PROOF_SNAPSHOT (R80, R81): one lane's point, after the answers of the fibre's earlier acquires (R194). A refused read leaves the operation owed (R265). -/
def execProofSnapshot (op : Nat) (s : State) : Out :=
  match s.op? op with
  | none => .next s
  | some o =>
    match o.kind, s.cell? o.owner.cell with
    | .proof _ addr n, some c =>
      if !c.resident || o.result.isSome || o.refused.isSome || acqBefore s o || !pointTurn s o then .next s else
      let done (ws : List Word) : Out := .next (s.setOp op fun o => { o with result := some (ws.zipIdx.map fun (w, i) => (i, w)) })
      match plateOf s c.part c.fn addr n with
      | none => done (List.replicate n 0 ++ [infWord, 0, 0, 2])
      | some l =>
        if heldBack s [] c.part c.fn addr (4 * n) then .next s else
        match homeRead s (c.who (ownerSup s o)) addr .read (4 * n) with
        | .error (a, e) =>
          .next (parkStuck (s.setOp op fun o => { o with refused := some { cause := e, detail := 1, faddr := a } }) o.owner)
        | .ok bs =>
          let done (ws : List Word) : Out := .next ((touchHomes s (c.who (ownerSup s o)) none false .read addr (4 * n)).setOp op fun o =>
            { o with result := some (ws.zipIdx.map fun (w, i) => (i, w)) })
          done ((List.range n).map (fun k => BitVec.ofNat 32 (natOfBytes ((bs.drop (4 * k)).take 4))) ++ proofTrailer l)
    | _, _ => .next s

/-! ### Token queues -/

def tqpushLane (d : Nat) (g : Grp) (off q : Nat) (s : State) (f : Fibre) : State × Option Trap :=
  if off % 64 ≠ 0 then (s, some { cause := .misaligned, detail := 1, faddr := off })
  else if g.cell.scratchSize < off + 64 then (s, some { cause := .illegalAddress, detail := 1, faddr := off })
  else match checkAddr s g.cell q 1 3 false, s.cell? g.cell.id with
    | some t, _ => (s, some t)
    | none, none => (s, none)
    | none, some c => (pendAll s c.id [f] (.tqpush q (bytesAt c.scratch off 64) (f.base + d)), none)
/-- Must a lane wait to read 64 bytes of its scratch at issue: for an own store of them that has yet to be written, or for the answer of
an acquire (R190, R194)? -/
def scratchWaits (s : State) (c : Cell) (f : Fibre) (off : Nat) : Bool :=
  s.ownPosted ⟨c.id, f.idx⟩ (scratchBase + off) 64 || s.acqPending ⟨c.id, f.idx⟩
def execTqpush (d off addr : Name) (s : State) : Out :=
  unit s {} true false fun s g =>
    barredLanes [plainSrc off .b32, plainSrc addr .b64] s g fun s g vals =>
      if vals.any fun x => scratchWaits s g.cell x.1 (loWord (x.2.getD 0 0)).toNat then none else some <|
      foldLanes s g vals fun s f vs => tqpushLane (nameWin d) g (loWord (vs.getD 0 0)).toNat (vs.getD 1 0).toNat s f

def tqpopLane (d : Nat) (g : Grp) (off n : Nat) (s : State) (f : Fibre) : State × Option Trap :=
  if n < 1 ∨ 16 < n then (s, some { cause := .illegalAddress })
  else if off % 64 ≠ 0 then (s, some { cause := .misaligned, detail := 2, faddr := off })
  else if g.cell.scratchSize < off + 64 * n then (s, some { cause := .illegalAddress, detail := 2, faddr := off })
  else (pendAll s g.cell.id [f] (.tqpop off n (f.base + d)), none)
def execTqpop (d off c : Name) (s : State) : Out :=
  unit s {} true false fun s g =>
    barredLanes [plainSrc off .b32, plainSrc c .b32] s g fun s g vals => some <|
      foldLanes s g vals fun s f vs => tqpopLane (nameWin d) g (loWord (vs.getD 0 0)).toNat (loWord (vs.getD 1 0)).toNat s f

/-- The plate whose queue has its ring at an address, and the cell of the queue (R86, R374). -/
def queueAt (s : State) (part fn q : Nat) : Option (Launch × Nat) :=
  (s.launches.filterMap fun l =>
    if l.part = part ∧ l.fn = fn ∧ l.kind = .expert ∧ l.installed then
      let i := l.cells.findIdx fun e => e.qbase.toNat == q
      if i < l.cells.length then some (l, i) else none
    else none).foldl (fun m x => match m with | none => some x | some y => some (if y.1.seq < x.1.seq then x else y)) none

/-- The point of a TQPUSH (R86): what it answers, the record written and the occupancy raised; none where it must wait. -/
def tqpushPoint (s : State) (c : Cell) (o : Op) (q : Nat) (rec_ : List Byte) : Option (State × Except Trap Word) :=
  match queueAt s c.part c.fn q with
  | none => some (s, .ok 0xFFFFFFFE)
  | some (l, i) =>
    match l.cells[i]? with
    | none => some (s, .ok 0xFFFFFFFE)
    | some e =>
      if e.occ = e.cap then some (s, .ok 0xFFFFFFFF) else
      let a := e.qbase.toNat + 64 * (e.tail % e.cap)
      if heldBack s [] c.part c.fn a 64 then none else
      match homeWrite (touchHomes s (c.who (ownerSup s o)) none false .write a 64) (c.who (ownerSup s o)) none a rec_ with
      | .error (x, k) => some (s, .error { cause := k, detail := k.detail 3, faddr := x })
      | .ok s =>
        let s := s.setLaunch l.id fun l => checkConverged (l.setEntry i fun e =>
          { e with tail := e.tail + 1, stamps := e.stamps ++ [s.now], rho := occWord (e.occ + 1) })
        some (s, .ok (BitVec.ofNat 32 (e.occ + 1)))

/-- The point of a TQPOP (R87): the words for scratch by number, and the count for the register as word 1024. -/
def tqpopPoint (s : State) (c : Cell) (o : Op) (n : Nat) : Option (State × Except Trap (List (Nat × Word))) :=
  match s.launch? c.launch, kindOf s c with
  | some l, .expert =>
    match l.cells[c.index]? with
    | none => some (s, .ok [(1024, 0)])
    | some e =>
      let m := min n e.occ
      let addr (k : Nat) : Nat := e.qbase.toNat + 64 * ((e.head + k) % e.cap)
      if (List.range m).any fun k => heldBack s [] c.part c.fn (addr k) 64 then none else
      let rd := (List.range m).foldl (fun (r : Except (Nat × Cause) (List Byte)) k => r.bind fun bs =>
        (homeRead s (c.who (ownerSup s o)) (addr k) .read 64).map (bs ++ ·)) (.ok [])
      match rd with
      | .error (x, k) => some (s, .error { cause := k, detail := k.detail 3, faddr := x })
      | .ok bs =>
        let s := (List.range m).foldl (fun s k => touchHomes s (c.who (ownerSup s o)) none false .read (addr k) 64) s
        let s := s.setLaunch l.id fun l => checkConverged (l.setEntry c.index fun e =>
          { e with head := e.head + m, stamps := e.stamps.drop m, rho := occWord (e.occ - m), runnableByTime := false })
        some (s, .ok ((List.range (16 * m)).map (fun k => (k, BitVec.ofNat 32 (natOfBytes ((bs.drop (4 * k)).take 4)))) ++ [(1024, BitVec.ofNat 32 m)]))
  | _, _ => some (s, .ok [(1024, 0)])

/-! ### Drafts -/

/-- A draft word acts once for the cell with the operands of its lowest active lane; its trap is raised there alone
(R182, R306). wait says whether it must still wait for that lane. -/
def draftWord (srcs : List (Field × Bool)) (wait : State → Cell → Fibre → List DWord → Bool)
    (act : State → Cell → Fibre → List DWord → State × Option Trap) (s : State) : Out :=
  unit s {} false false fun s g =>
    barredLowest false srcs s g fun s g vals =>
      match vals.head? with
      | none => some s
      | some x => if wait s g.cell x.1 x.2 then none else some (foldLanes s g [x] fun s f vs => act s g.cell f vs)

def dropDraft (c : Cell) (n : Nat) : Cell := { c with drafts := c.drafts.filter (·.1 != n) }
/-- Slots of a cell's region become tentative: its cluster's L1 drops what it holds of them (R184, R185). -/
def dropWindow (s : State) (c : Cell) (d : Draft) : State :=
  dropBlocks s c.cluster (some (s.asid c.part c.fn)) (d.base + 64 + d.lc * d.sz) (d.cap * d.sz)
/-- The region that DRAFT opens at an address, as its header stands (R155, R183). -/
def draftAt (s : State) (c : Cell) (f : Fibre) (base cap : Nat) : Except Trap Draft :=
  let bad (k : Cause) (a : Nat) : Except Trap Draft := .error { cause := k, detail := 1, faddr := a }
  if let some t := checkAddr s c base 64 1 true then .error t
  else if window base ≠ some .global then bad .illegalAddress base
  else match homeRead s (c.who f.sup) base .read 64 with
    | .error (a, e) => bad e a
    | .ok bs =>
      let v := natOfBytes bs
      let (sz, lc) := (bits v 47 32, bits v 31 0)
      if bits v 511 48 ≠ 0 ∨ sz % 64 ≠ 0 ∨ sz < 64 ∨ 16384 < sz ∨ cap = 0 ∨ 65536 < cap * sz then bad .illegalAddress base
      else .ok { base := base, sz := sz, lc := lc, cap := cap }
/-- Has a fibre a store of its own under way to the tentative slots of a region? A word that opens or closes the region comes after it in
program order, and waits for it (R184, R190). One that is refused is judged when its replay arrives. -/
def draftBusy (s : State) (c : Cell) (f : Fibre) (d : Draft) : Bool :=
  s.ownOver ⟨c.id, f.idx⟩ s.next (d.base + 64 + d.lc * d.sz) (d.cap * d.sz)
def openBusy (s : State) (c : Cell) (f : Fibre) (n : Nat) : Bool := c.drafts.any fun x => x.1 == n && draftBusy s c f x.2
/-- DRAFT (R155, R183, R184). -/
def draftOpen (n : Nat) (base : Nat) (cap : Nat) (at_ : DWord) (s : State) (c : Cell) (f : Fibre) : State × Option Trap :=
  match draftAt s c f base cap with
  | .error t => (s, some t)
  | .ok d =>
    let s := (touchHomes s (c.who f.sup) none false .read base 64).setCell c.id fun c =>
      { dropDraft c n with drafts := (n, d) :: (dropDraft c n).drafts }
    (acquireHold (dropWindow s c d) ⟨c.id, f.idx⟩ at_, none)
def execDraft (n : Fin 8) (base c : Name) (s : State) : Out :=
  draftWord [(plainSrc base .b64, false), (plainSrc c .b32, false)]
    (fun s c f vs => s.acqPending ⟨c.id, f.idx⟩ || s.ownPosted ⟨c.id, f.idx⟩ (vs.getD 0 0).toNat 64 || heldBack s [] c.part c.fn (vs.getD 0 0).toNat 64
      || openBusy s c f n.val || match draftAt s c f (vs.getD 0 0).toNat (loWord (vs.getD 1 0)).toNat with | .ok d => draftBusy s c f d | .error _ => false)
    (fun s c f vs => draftOpen n.val (vs.getD 0 0).toNat (loWord (vs.getD 1 0)).toNat f.pc s c f) s

/-- ACCEPT (R184): the accepted bytes and the header's LC reach their homes. -/
def acceptNow (n count : Nat) (s : State) (c : Cell) (f : Fibre) : State × Option Trap :=
  match c.drafts.find? (·.1 == n) with
  | none => (s, some { cause := .illegalAddress, detail := 2 })
  | some (_, d) =>
    match parkDue s ⟨c.id, f.idx⟩ .stores with
    | some t => (s, some t)
    | none =>
      let m := min count d.cap
      let keep := d.bytes.filter fun x => x.1 < d.base + 64 + (d.lc + m) * d.sz
      match landAll s c f.sup (keep ++ (bytesOfNat 4 (d.lc + m)).zipIdx.map fun (b, i) => (d.base + i, b)) with
      | .error (a, e) => (s, some { cause := e, detail := e.detail 2, faddr := a })
      | .ok s => (dropWindow (s.setCell c.id fun c => { c with drafts := c.drafts.map fun (k, d) =>
          if k = n then (k, { d with lc := d.lc + m, bytes := [] }) else (k, d) }) c { d with lc := d.lc + m }, none)
def acceptPins (n : Nat) (s : State) : State :=
  match s.grp? with
  | none => s
  | some g =>
    if !g.active.isEmpty && g.cell.drafts.any (·.1 == n) && g.members.all (fun f => f.place.begun || f.flagsClear 0xFFF)
    then endPins s (·.cell == g.cell.id) else s
def execAccept (n : Fin 8) (c : Name) (s : State) : Out :=
  draftWord [(plainSrc c .b32, false)]
    (fun s c f _ =>
      let r : FRef := ⟨c.id, f.idx⟩
      (parkDue s r .stores).isNone && c.drafts.any (fun x => x.1 == n.val
        && ((s.coverage r).any (fun a => !s.performed .dev a) || !s.invalsClear c.cluster
          || heldBack s [] c.part c.fn x.2.base 64 || x.2.bytes.any fun b => heldBack s [] c.part c.fn b.1 1)))
    (fun s c f vs => acceptNow n.val (loWord (vs.getD 0 0)).toNat s c f) (acceptPins n.val s)

/-- DISCARD (R184): the region closes and its tentative data goes, once the issuing fibre's own stores there are in. -/
def execDiscard (n : Fin 8) (s : State) : Out :=
  draftWord [] (fun s c f _ => openBusy s c f n.val)
    (fun s c _ _ =>
      if c.drafts.any (·.1 == n.val) then (s.setCell c.id (dropDraft · n.val), none)
      else (s, some { cause := .illegalAddress, detail := 2 })) s

end Sys2Proof.Machine
end

