-- ==== Sys2Proof/Machine/QueueI.lean ====
section
/-! DEFINITION. The queue words: QPOST, ECMD, EWAIT, SGNL, WAITS, SEND, RECV (R242 to R251, R317, R357, R365), with the
headers of queues and chains (R229, R245). -/

namespace Sys2Proof.Machine

/-! ### Headers -/

/-- A queue header (R229). -/
structure QHdr where
  ring : Nat
  size : Nat
  dev : Bool
  st : Nat
  write : Nat
  read : Nat
  last : Nat
  rsv : Bool
  deriving DecidableEq, Repr
def qHdrOf (bs : List Byte) : QHdr :=
  let v := natOfBytes bs
  { ring := bits v 63 0, size := bits v 95 64, dev := bits v 100 100 = 1, st := bits v 105 104, write := bits v 191 128
    read := bits v 255 192, last := bits v 295 288
    rsv := bits v 99 96 = 0 && bits v 103 101 = 0 && bits v 127 106 = 0 && bits v 287 256 = 0 && bits v 511 296 = 0 }

/-- A chain header (R245). -/
structure CHdr where
  ring : Nat
  size : Nat
  engine : Nat
  tail : Nat
  head : Nat
  done : Nat
  deriving DecidableEq, Repr
def cHdrOf (bs : List Byte) : CHdr :=
  let v := natOfBytes bs
  { ring := bits v 63 0, size := bits v 95 64, engine := bits v 143 128, tail := bits v 191 160, head := bits v 223 192, done := bits v 255 224 }

/-- The registered queue or chain of a function at an address (R230). -/
def regAt (s : State) (part fn addr : Nat) (chain : Bool) : Option QueueReg :=
  s.queues.find? fun q => q.part == part && q.fn == fn && q.addr == addr && q.chain == chain
def State.setQueue (s : State) (q : Nat) (f : QueueReg → QueueReg) : State :=
  { s with queues := s.queues.map fun x => if x.id = q then f x else x }

/-! ### QPOST and ECMD -/

/-- The checks that QPOST and ECMD share, and the 64 bytes read at issue (R242, R247). chain is set for ECMD, which makes check 1 of R155
on its header too; the alignments and the scratch come first, as R247 writes them (DEDUCED). -/
def postLane (k : Nat → List Byte → Nat → OpKind) (chain : Bool) (d : Nat) (g : Grp) (h off : Nat) (s : State) (f : Fibre) : State × Option Trap :=
  match s.cell? g.cell.id with
  | none => (s, none)
  | some c =>
    if h % 64 ≠ 0 then (s, some { cause := .misaligned, detail := 3, faddr := h })
    else if off % 64 ≠ 0 then (s, some { cause := .misaligned, detail := 1, faddr := off })
    else if c.scratchSize < off + 64 then (s, some { cause := .illegalAddress, detail := 1, faddr := off })
    else if chain && (window h).isNone then (s, some { cause := .illegalAddress, detail := 3, faddr := h })
    else (pendAll s c.id [f] (k h (bytesAt c.scratch off 64) (f.base + d)), none)
def postWord (k : Nat → List Byte → Nat → OpKind) (chain : Bool) (d addr off : Name) (s : State) : Out :=
  unit s {} true false fun s g =>
    barredLanes [plainSrc addr .b64, plainSrc off .b32] s g fun s g vals =>
      if vals.any fun x => scratchWaits s g.cell x.1 (loWord (x.2.getD 1 0)).toNat then none else some <|
      foldLanes s g vals fun s f vs => postLane k chain (nameWin d) g (vs.getD 0 0).toNat (loWord (vs.getD 1 0)).toNat s f
def execQpost (d addr off : Name) (s : State) : Out := postWord .qpost false d addr off s
def execEcmd (d addr off : Name) (s : State) : Out := postWord .ecmd true d addr off s

/-- The turn of a QPOST or ECMD among those of its fibre and of its instruction (R242, R247). -/
def postTurn (s : State) (o : Op) : Bool :=
  let isPost (k : OpKind) : Bool := match k with | .qpost _ _ _ | .ecmd _ _ _ => true | _ => false
  s.ops.all fun x => !(decide (x.id < o.id) && isPost x.kind && x.result.isNone && x.refused.isNone
    && (x.owner == o.owner || x.issue == o.issue))

/-- The atomic step of QPOST at the home of the header (R242); none where it must wait. -/
def qpostPoint (s : State) (c : Cell) (o : Op) (h : Nat) (pkt : List Byte) : Option (State × Except Trap Word) :=
  let who := c.who (ownerSup s o)
  let refuse (x : Nat × Cause) : Option (State × Except Trap Word) := some (s, .error { cause := x.2, detail := x.2.detail 3, faddr := x.1 })
  if heldBack s [] c.part c.fn h 64 then none else
  match homeRead s who h .read 64, regAt s c.part c.fn h false with
  | .error e, r => if r.isNone && window h != some .global then some (s, .ok 0xFFFFFFFE) else refuse e
  | .ok _, none => some (s, .ok 0xFFFFFFFE)
  | .ok bs, some q =>
    let x := qHdrOf bs
    if !x.dev then some (s, .ok 0xFFFFFFFD)
    else if (x.write + 2 ^ 64 - x.read) % 2 ^ 64 = x.size then some (s, .ok 0xFFFFFFFF)
    else
      let slot := x.ring + 64 * (x.write % x.size)
      if heldBack s [] c.part c.fn slot 64 then none else
      let s := touchHomes (touchHomes s who none false .write h 64) who none false .write slot 64
      match (homeWrite s who none slot pkt).bind fun s => homeWrite s who none (h + 16) (bytesOfNat 8 (x.write + 1)) with
      | .error e => refuse e
      | .ok s => some (s.setQueue q.id fun q => { q with posted := q.posted ++ [(x.write, c.launch, c.id)] }, .ok (BitVec.ofNat 32 x.write))

/-- The atomic step of ECMD (R246, R247): the entry carries its number and the issuing cell's index. -/
def ecmdPoint (s : State) (c : Cell) (o : Op) (h : Nat) (entry : List Byte) : Option (State × Except Trap Word) :=
  let who := c.who (ownerSup s o)
  let refuse (x : Nat × Cause) : Option (State × Except Trap Word) := some (s, .error { cause := x.2, detail := x.2.detail 3, faddr := x.1 })
  if heldBack s [] c.part c.fn h 64 then none else
  match homeRead s who h .read 64, regAt s c.part c.fn h true with
  | .error e, r => if r.isNone && window h != some .global then some (s, .ok 0xFFFFFFFE) else refuse e
  | .ok _, none => some (s, .ok 0xFFFFFFFE)
  | .ok bs, some q =>
    let x := cHdrOf bs
    if (x.tail + 2 ^ 32 - x.head) % 2 ^ 32 = x.size then some (s, .ok 0xFFFFFFFF)
    else
      let seq := (x.tail + 1) % 2 ^ 32
      let slot := x.ring + 64 * (x.tail % x.size)
      if heldBack s [] c.part c.fn slot 64 then none else
      let e := entry.take 32 ++ bytesOfNat 4 seq ++ (entry.drop 36).take 4 ++ bytesOfNat 4 c.index ++ entry.drop 44
      let s := touchHomes (touchHomes s who none false .write h 64) who none false .write slot 64
      match (homeWrite s who none slot e).bind fun s => homeWrite s who none (h + 20) (bytesOfNat 4 seq) with
      | .error e => refuse e
      | .ok s => some (s.setQueue q.id fun q => { q with posted := q.posted ++ [(seq, c.launch, c.id)] }, .ok (BitVec.ofNat 32 seq))

/-! ### EWAIT, SGNL, WAITS -/

/-- A lane whose own wait is over: it acquires at device scope and goes on (R201, R27). -/
def endWait (s : State) (r : FRef) : State :=
  match s.cell? r.cell, s.fibre? r with
  | some c, some f => settleHatch (acquireHold (s.setFibre r fun f => f.wake c) r f.pc) r.cell f.hatch
  | _, _ => s

/-- Where the STATUS of command n stands, when the header at h says that the command has completed (R317). -/
def ewaitStatus (s : State) (who : Who) (h : Nat) (n : Word) : Option Nat :=
  match homeRead s who h .read 64 with
  | .error _ => none
  | .ok bs =>
    let x := cHdrOf bs
    if 0 ≤ (BitVec.ofNat 32 x.done - n).toInt then some (x.ring + 64 * ((n - 1).toNat % x.size) + 36) else none
/-- EWAIT in one lane (R317): its checks, then the wait, which holds how the command ended where that is known. A wait that
WATCHDOG broke keeps what its completion record said (R280). -/
def ewaitLane (g : Grp) (h : Nat) (n : Word) (s : State) (f : Fibre) : State × Option Trap :=
  let bad (k : Cause) (a : Nat) : State × Option Trap := (s, some { cause := k, detail := 1, faddr := a })
  if h % 64 ≠ 0 then bad .misaligned h
  else match regAt s g.cell.part g.cell.fn h true with
    | none => bad .illegalAddress h
    | some q =>
      let wait (e : Option Bool) : State × Option Trap :=
        (s.setFibre ⟨g.cell.id, f.idx⟩ fun f => { f.hold (.blocked (.ewait q.id n e)) s.now g.first with again := none }, none)
      if f.again = some (g.first, .ewait q.id n (some true)) then wait (some true)
      else if n = 0 ∨ f.again = some (g.first, .ewait q.id n (some false)) then wait (some false)
      else match homeRead s (g.cell.who f.sup) h .read 64 with
      | .error (a, e) => bad e a
      | .ok bs =>
        let x := cHdrOf bs
        let read (addrs : List Nat) (r : State × Option Trap) : State × Option Trap := (touchEach r.1 (g.cell.who f.sup) .read addrs, r.2)
        if (x.size : Int) ≤ (BitVec.ofNat 32 x.tail - n).toInt then bad .illegalAddress h
        else match ewaitStatus s (g.cell.who f.sup) h n with
          | none => read [h] (wait none)
          | some a =>
            match homeRead s (g.cell.who f.sup) a .read 1 with
            | .error (a, e) => bad e a
            | .ok st => read [h, a] (wait (some (natOfBytes st != 0)))
/-- EWAIT (R250, R317): the fibre is Blocked until every active lane has passed its wait. -/
def execEwait (addr c : Name) (s : State) : Out :=
  unit s {} false false fun s g =>
    barredLanes [plainSrc addr .b64, plainSrc c .b32] s g fun s g vals =>
      let held (a n : Nat) : Bool := heldBack s [] g.cell.part g.cell.fn a n
      if vals.any fun x => held (x.2.getD 0 0).toNat 64 || s.acqPending ⟨g.cell.id, x.1.idx⟩
          || (ewaitStatus s (g.cell.who x.1.sup) (x.2.getD 0 0).toNat (loWord (x.2.getD 1 0))).any fun a => held a 1 then none
      else some (releaseEwaits (foldLanes s g vals fun s f vs => ewaitLane g (vs.getD 0 0).toNat (loWord (vs.getD 1 0)) s f) g.cell.id)

/-- SGNL (R244, R365): a posted add with release at device scope. -/
def execSgnl (addr c : Name) (s : State) : Out :=
  unit s {} false false fun s g =>
    barredLanes [plainSrc addr .b64, plainSrc c .b64] s g fun s g vals => some <|
      foldLanes s g vals fun s f vs => atomLane .sgnl 8 false .dev none g (vs.getD 0 0).toNat (bytesOfNat 8 (vs.getD 1 0).toNat) s f

/-- Does the value of a signal end a wait (R244)? -/
def waitsMet (v operand : DWord) : Bool := decide (v.toInt ≤ operand.toInt)
/-- WAITS in one lane (R244): it returns at once, or blocks until a value meets its test. A refused read parks it. Its read is an
access at the home, and so is the read that ends the wait; the comparisons between are the home's own (R169, R186). -/
def waitsLane (d : Nat) (g : Grp) (a : Nat) (v : DWord) (s : State) (f : Fibre) : State × Option Trap :=
  let r : FRef := ⟨g.cell.id, f.idx⟩
  match checkAddr s g.cell a 8 1 true with
  | some t => (s, some t)
  | none =>
    match homeRead s (g.cell.who f.sup) a .read 8 with
    | .error (x, e) => (s, some { cause := e, detail := 1, faddr := x })
    | .ok bs =>
      let x : DWord := BitVec.ofNat 64 (natOfBytes bs)
      let s := touchHomes s (g.cell.who f.sup) none false .read a 8
      if waitsMet x v then (acquireHold (s.setFibre r fun f => f.setReg64 d x) r f.pc, none)
      else (s.setFibre r (·.hold (.blocked (.waits (f.base + d) a v)) s.now g.first), none)
def execWaits (d addr c : Name) (s : State) : Out :=
  unit s {} false false fun s g =>
    barredLanes [plainSrc addr .b64, plainSrc c .b64] s g fun s g vals =>
      let a (x : Fibre × List DWord) : Nat := (x.2.getD 0 0).toNat
      if vals.any fun x => heldBack s [] g.cell.part g.cell.fn (a x) 8 || s.ownPosted ⟨g.cell.id, x.1.idx⟩ (a x) 8
          || s.acqPending ⟨g.cell.id, x.1.idx⟩ then none
      else some (foldLanes s g vals fun s f vs => waitsLane (nameWin d) g (vs.getD 0 0).toNat (vs.getD 1 0) s f)

/-- After a move: each blocked WAITS compares the value now current at the signal's home (R244). -/
def wakeWaits (s : State) : State :=
  let ws := (s.cells.filter (·.resident)).flatMap fun c => c.fibres.filterMap fun f =>
    match f.status with | .blocked (.waits d a v) => some (c, f, d, a, v) | _ => none
  ws.foldl (fun s (c, f, d, a, v) =>
    let r : FRef := ⟨c.id, f.idx⟩
    if heldBack s [] c.part c.fn a 8 then s else
    match homeRead s (c.who f.sup) a .read 8 with
    | .error (x, e) => takeTraps s c.id f.hatch [⟨f.idx, { cause := e, detail := 1, faddr := x }, f.waitAt⟩]
    | .ok bs =>
      let x : DWord := BitVec.ofNat 64 (natOfBytes bs)
      if waitsMet x v then
        endWait ((touchHomes s (c.who f.sup) none false .read a 8).setFibre r fun f => { f with stack := sput 0 (sput 0 f.stack d (loWord x)) (d + 1) (hiWord x) }) r
      else s) s

/-! ### Channels -/

/-- One word placed by the first waiting sender of a channel, or reserved by its first waiting receiver (R251). -/
def chanStep (s : State) (cell ch : Nat) : Option State :=
  (s.cell? cell).bind fun c => (c.chans.find? (·.1 == ch)).bind fun (_, k) =>
    let first (p : Status → Bool) : Option Fibre := (c.fibres.filter fun f => p f.status).foldl (fun m f =>
      match m with
      | none => some f
      | some x => if f.since < x.since || (f.since == x.since && (f.hatch < x.hatch || (f.hatch == x.hatch && f.lane < x.lane))) then some f else m) none
    let setChan (s : State) (k : Chan) : State := s.setCell cell fun c => { c with chans := c.chans.map fun x => if x.1 = ch then (ch, k) else x }
    let recv := first fun | .blocked (.recv n _ none) => n == ch | _ => false
    let send := first fun | .blocked (.send n (_ :: _)) => n == ch | _ => false
    match k.words, recv with
    | w :: rest, some f =>
      match f.status with
      | .blocked (.recv n d none) => some ((setChan s { k with words := rest }).setFibre ⟨cell, f.idx⟩ fun f => { f with status := .blocked (.recv n d (some w)) })
      | _ => none
    | _, _ =>
      match send with
      | some f =>
        if k.cap ≤ k.words.length then none else
        match f.status with
        | .blocked (.send n (w :: ws)) => some ((setChan s { k with words := k.words ++ [w] }).setFibre ⟨cell, f.idx⟩ fun f => { f with status := .blocked (.send n ws) })
        | _ => none
      | none => none
def chanRun (s : State) (cell ch : Nat) : Nat → State
  | 0 => s
  | fuel + 1 => match chanStep s cell ch with | none => s | some s' => chanRun s' cell ch fuel

/-- Every word of a channel that can move has moved; a SEND whose lanes have all placed, and a RECV whose lanes have all
reserved, is over (R251). -/
def chanSettle (s : State) (cell ch : Nat) : State :=
  match s.cell? cell with
  | none => s
  | some c =>
    let s := chanRun s cell ch (2 * c.fibres.length + 1)
    match s.cell? cell with
    | none => s
    | some c =>
      let mates (f : Fibre) : List Fibre := c.fibres.filter fun x => x.hatch == f.hatch && x.waitAt == f.waitAt
        && match x.status with | .blocked (.send _ _) | .blocked (.recv _ _ _) => true | _ => false
      let met (f : Fibre) : Bool := (mates f).all fun x => match x.status with | .blocked (.send _ ws) => ws.isEmpty | .blocked (.recv _ _ got) => got.isSome | _ => true
      let go := c.fibres.filter fun f => met f && match f.status with | .blocked (.send n _) | .blocked (.recv n _ _) => n == ch | _ => false
      go.foldl (fun s f =>
        let r : FRef := ⟨cell, f.idx⟩
        let s := match f.status with
          | .blocked (.recv _ d (some w)) => pendAll s cell [f] (.value [(d, w)])
          | _ => s
        settleHatch (s.setFibre r fun f => f.wake c) cell f.hatch) s

/-- SEND and RECV of the lanes named: an undeclared channel traps each of them (R357); a wait that WATCHDOG broke goes on
where it was (R280). -/
def chanWord (ch : Nat) (ll : Bool) (srcs : List Field) (w : Fibre → List DWord → Wait) (s : State) : Out :=
  unit s {} ll false fun s g =>
    barredLanes srcs s g fun s g vals => some <|
      if !g.cell.chans.any (·.1 == ch) then raiseLanes s g (vals.map fun x => (x.1.idx, { cause := .channelFault }))
      else
        let s := vals.foldl (fun s x => s.setFibre ⟨g.cell.id, x.1.idx⟩ fun f =>
          let wait := match f.again with | some (pc, v) => if pc = g.first then v else w f x.2 | none => w f x.2
          { f.hold (.blocked wait) s.now g.first with again := none }) s
        chanSettle s g.cell.id ch
def execSend (ch : Fin 8) (a : Name) (s : State) : Out :=
  chanWord ch.val false [plainSrc a .b32] (fun _ vs => .send ch.val [loWord (vs.getD 0 0)]) s
def execRecv (d : Name) (ch : Fin 8) (s : State) : Out :=
  chanWord ch.val true [] (fun f _ => .recv ch.val (f.base + nameWin d) none) s

end Sys2Proof.Machine
end

