-- ==== Sys2Proof/Machine/Moves.lean ====
section
/-! DEFINITION. The moves of the ordering machine: LEAVE, FORWARD, REQUEST_SEND, COMBINE, COMBINE_WINDOW_EXPIRY, ARRIVE,
REPLY, DELIVER_INVAL, LINE_FILL, TLB_WALK, PIN_TIMEOUT, FENCE_DONE, ESCAPE (R162 to R170, R187 to R205, R211 to R219,
R265, R266). A move whose condition does not hold changes nothing. -/

namespace Sys2Proof.Machine

/-- Everything a change anywhere may release in the resident cells. -/
def afterAll (s : State) : State := ((s.cells.filter (·.resident)).map (·.id)).foldl afterChange s
def moveLast (s : State) (a : Nat) : State :=
  { s with accs := s.accs.filter (·.id != a) ++ s.accs.filter (·.id == a) }

def Acc.who (a : Acc) : Who := ⟨a.part, a.fn, a.sup⟩
def accTag (s : State) (a : Acc) : Option Nat := tagOf s a.part a.fn a.va
def ownerResident (s : State) (a : Acc) : Bool := ((s.cell? a.owner.cell).map (·.resident)).getD true

/-! ### LEAVE -/

/-- May the access leave the lane request queue now (R190, R194, R195, R211, R366)? What its fibre's handler keeps of the trapped code
holds nothing up. -/
def leaveTurn (s : State) (x : Acc) : Bool :=
  x.stage == .queued && x.relDone && ownerResident s x
  && (s.accs.all fun e => !leaveFirst x e || (s.kept x.owner).contains e.id)
  && (s.accs.all fun e => !(e.issue == x.issue && decide (e.id < x.id) && e.stage == .queued
      && ((x.kind.isStore && !x.ranked) || (x.kind.isAtomic && e.va == x.va))))
  && (s.ops.all fun o => !(x.of o.owner && decide (o.id < x.id) && !(s.kept x.owner).contains o.id
      && (o.mayStore x.va x.len || (x.kind.writes && o.mayRead x.va x.len))))

def leaveNow (s : State) (x : Acc) : State :=
  if scratchBase ≤ x.va then
    let off := x.va - scratchBase
    if x.kind.isStore then
      (s.setCell x.owner.cell fun c => { c with scratch := putBytes c.scratch off x.data }).setAcc x.id fun a => { a with stage := .arrived }
    else s.setAcc x.id fun a => { a with
      stage := .arrived, result := ((s.cell? x.owner.cell).map fun c => bytesAt c.scratch off x.len).getD [] }
  else
    let s := (moveLast s x.id).setAcc x.id fun a => { a with stage := .inView, window := ((s.part? x.part).map (·.cw)).getD 0 }
    if x.kind.isStore && !tentative s x then writeBlocks s x.cluster (accTag s x) x.va x.data else s
def execLeave (a : Nat) (s : State) : Out :=
  match s.acc? a with
  | none => .next s
  | some x => .next (if leaveTurn s x then afterAll (leaveNow s x) else s)

/-! ### Answers -/

/-- Write the words that mask selects of an answer to their destinations. A word is written once, so that it reads as before
until then and as new from then on, for every reader alike (DESIGN CHOICE: R120 leaves each read open). -/
def deliverWords (s : State) (x : Acc) (bs : List Byte) (mask : Nat) : State :=
  s.setFibre x.owner fun f => { f with
    stack := x.dst.zipIdx.foldl (fun m (d, i) =>
      if mask.testBit i then sput 0 m d (BitVec.ofNat 32 (natOfBytes ((bs.drop (4 * i)).take 4))) else m) f.stack }
/-- The access is over: its flag falls, and it leaves the machine. -/
def finishAcc (s : State) (x : Acc) : State := afterAll ((s.dropFlag x.owner x.id x.flag x.counted).dropAcc x.id)

/-- The stores of the pending set of which a word that has yet to ARRIVE overlaps a load, oldest first; a tentative store of another cell is not seen
(R185), nor the fibre's own later stores. -/
def pendingStores (s : State) (x : Acc) : List Acc :=
  s.accs.filter fun q => q.kind.isStore && q.inFlight && q.cluster == x.cluster && accTag s q == accTag s x && q.pendsIn x.va x.len
    && (q.owner.cell == x.owner.cell || !tentative s q) && !(q.of x.owner && decide (x.id < q.id))
/-- What FORWARD answers (R191, R193, R199, R205, R266): the bytes and the pending writes they come from. -/
def forwardBytes (s : State) (x : Acc) : Option (List Byte × List Nat) :=
  match s.cell? x.owner.cell with
  | none => none
  | some c =>
    let at_ (i : Nat) : Nat := x.va + i
    let held := (List.range x.len).filterMap fun i => (c.held.find? (·.1 == at_ i)).map (·.2)
    let own (q : Acc) : Bool := q.of x.owner && overlaps q x
    let mine := (s.refusedStores x.owner).filter fun q => decide (q.id < x.id) && q.kind.isStore && overlaps q x
    if s.accs.any (fun q => own q && decide (x.id < q.id) && q.kind.posted && q.stage != .queued) then none
    else if s.accs.any (fun q => own q && decide (q.id < x.id) && q.kind.writes && !q.kind.isStore && q.stage != .arrived) then none
    else if s.seenBlocks x.owner false x.va x.len then none
    else if held.length = x.len then some (held, [])
    else if !held.isEmpty then none
    else match latest mine, (pendingStores s x).getLast? with
      | some q, _ => if decide (q.va ≤ x.va) && decide (x.va + x.len ≤ q.va + q.len) then some (q.bytesFrom x.va x.len, []) else none
      | none, some q => if q.pendsAll x.va x.len then some (q.bytesFrom x.va x.len, [q.id]) else inBlock c
      | none, none => inBlock c
where
  inBlock (c : Cell) : Option (List Byte × List Nat) :=
    if (List.range x.len).any fun i => inDraft c (x.va + i) then none else
    (s.blocks.find? fun b => b.cluster == x.cluster && b.asid == accTag s x && decide (b.base ≤ x.va)
        && decide (x.va + x.len ≤ b.base + b.bytes.length) && (b.asid.isNone || s.physOk b.pa)).map fun b =>
      ((b.bytes.drop (x.va - b.base)).take x.len, (pendingStores s x).map (·.id))
/-- An acquire at cohort scope or wider uses FORWARD only for a line its own cluster has pinned (R191, R199). -/
def mayForward (s : State) (x : Acc) : Bool :=
  x.kind == .load && x.stage == .inView && (!wide x.ord || s.pins.any fun p => p.cluster == x.cluster && p.asid == accTag s x && p.line == x.va / 64)
/-- An acquire at cell scope is a point of its fibre: its ARRIVE or its FORWARD (R193); for a group, of every member that acquires (R217). -/
def acquirePoints (s : State) (x : Acc) : State :=
  if x.ord = .cell then
    (s.accs.filter fun a => x.members.any (·.1 == a.id) && a.kind.returns).foldl (fun s a => s.atPoint a.owner a.cluster) s
  else s
def execForward (a : Nat) (s : State) : Out :=
  match s.acc? a with
  | none => .next s
  | some x =>
    if !mayForward s x then .next s else
    match forwardBytes s x with
    | none => .next s
    | some (bs, from_) =>
      let s := (acquirePoints s x).setFibre x.owner fun f => { f with readFrom := f.readFrom ++ from_ }
      .next (finishAcc (deliverWords s x bs 15) x)

/-! ### SEND, COMBINE, ESCAPE -/

/-- The switch levels on the way from a cluster to a home (R218): cluster group, die, package, Grenfort. A cluster that a spare
stands in for is not the one below its vault (R15). A home on another device (R291) lies behind one Grenfort switch, at which only
this device's requests stand (DESIGN CHOICE: R218 speaks of each Grenfort switch on the way, and no rule says how many there are). -/
def switchLevels (s : State) (cluster part fn va : Nat) : List Nat :=
  match window va with
  | some (.vault v) =>
    if v = cluster then (if s.spares.contains (0, v) then [0] else [])
    else if islandOf v = islandOf cluster then [0] else if dieOf v = dieOf cluster then [0, 1] else [0, 1, 2]
  | _ =>
    let away : Bool := match translate s part fn va with | .ok t _ => s.foreign part t.pa | _ => false
    if away then [0, 1, 2, 3] else if homeSlice va / 64 = dieOf cluster then [0, 1] else [0, 1, 2]
/-- The way of a request. -/
def Acc.way (s : State) (x : Acc) : List Nat := switchLevels s x.cluster x.part x.fn x.va
/-- The number of a cluster's switch at a level: 0 to 15 the cluster groups, 16 to 19 the dies, 20 the package, 21 Grenfort. -/
def switchOf (cluster level : Nat) : Nat :=
  match level with
  | 0 => islandOf cluster
  | 1 => 16 + dieOf cluster
  | 2 => 20
  | _ => 21
def Acc.atSwitch (a : Acc) (sw : Nat) : Bool := match a.stage with | .waiting l => switchOf a.cluster l == sw | _ => false
/-- The operation of a combinable request. -/
def AccKind.op? : AccKind → Option AtomOp
  | .atom o | .red o => some o
  | _ => none
/-- Does a write e of a lower lane of the same instruction still stand before x: an uncombined atomic of the same address (R211), an
overlapping store (R366), any STI (R367)? -/
def laneFirst (x e : Acc) : Bool :=
  x.members.length == 1 && e.issue == x.issue && decide (e.id < x.id) && e.members.length == 1
  && ((x.kind.isAtomic && e.va == x.va) || (x.kind.isStore && !x.ranked && (overlaps e x || x.kind == .sti)))
  && match e.stage with | .arrived | .refused _ | .merged _ => false | _ => true
def laneBefore (s : State) (x : Acc) : Bool := s.accs.any (laneFirst x)
/-- Does an earlier access e of the same fibre that overlaps m, or writes a slot of the same frame, still have to ARRIVE before it (R55,
R190)? One that is refused holds back a later store alone, which is refused with it (R266). -/
def ownFirst (m e : Acc) : Bool :=
  e.shares m && decide (e.id < m.id) && (overlaps e m || sameFrame e m)
  && e.stage != .arrived && !(e.refused && !(e.kind.posted && m.kind.posted))
def behindOwn (s : State) (m : Acc) : Bool := s.accs.any fun e => ownFirst m e && !(e.stage == .queued && (s.kept m.owner).contains e.id)
/-- The accesses of one group with access i, itself among them. -/
def State.mates (s : State) (i : Nat) : List Nat := (s.accs.filter fun a => a.members.any (·.1 == i)).flatMap fun a => a.members.map (·.1)
/-- What the ARRIVE of access i waits for at once; ids are about to be one group. -/
def State.waitedFor (s : State) (ids : List Nat) (i : Nat) : List Nat :=
  match s.acc? i with
  | none => []
  | some m => (s.accs.filter fun e => ownFirst m e || (laneFirst m e && !ids.contains e.id)).map (·.id)
/-- All that some accesses and their groups wait for, in n rounds. -/
def State.waitedForAll (s : State) (ids : List Nat) : Nat → List Nat → List Nat
  | 0, l => l
  | n + 1, l =>
    let all := (l ++ l.flatMap fun i => (s.mates i).flatMap fun m => m :: s.waitedFor ids m).eraseDups
    if all.length = l.length then l else s.waitedForAll ids n all
/-- Would the group of two requests wait for itself: a member for an earlier access of its fibre that the ARRIVE of another group keeps
back, which waits for a member in turn? -/
def State.crossing (s : State) (x y : Acc) : Bool :=
  let ids := (x.members ++ y.members).map (·.1)
  let first := (ids.flatMap (s.waitedFor ids)).filter fun i => !ids.contains i
  !first.isEmpty && (s.waitedForAll ids s.accs.length first).any ids.contains
/-- Do two requests match (R214)? -/
def matching (x y : Acc) : Bool :=
  x.id != y.id && x.comb && y.comb && x.part == y.part && x.fn == y.fn && x.va == y.va && x.ord == y.ord
  && x.kind.op?.isSome && x.kind.op? == y.kind.op?
/-- Do two requests combine where they meet: they match, and their group could ARRIVE. Requests of which each group would wait for the
other do not (DESIGN CHOICE: R213 and R214 let them, R190 would then keep both back for ever, which R204 rules out). -/
def State.pairs (s : State) (x y : Acc) : Bool := matching x y && !s.crossing x y
/-- The first request waiting at a switch that matches. -/
def waitingFor (s : State) (sw : Nat) (y : Acc) : Option Acc := s.accs.find? fun x => x.atSwitch sw && s.pairs x y
/-- Has a request that stands at a switch a match that came before it? Step 1 of R213 is then its next move there, and it takes
no entry. -/
def parkedAt (s : State) (sw : Nat) (y : Acc) : Bool := (s.accs.takeWhile (·.id != y.id)).any fun e => e.atSwitch sw && s.pairs e y
/-- The entries of a switch's buffer that are taken: requests that wait, and groups made there whose reply has yet to split
(R213). -/
def bufferUsed (s : State) (sw : Nat) : Nat :=
  let waiting := (s.accs.filter fun a => a.atSwitch sw && !parkedAt s sw a).map (·.id)
  let made := ((s.accs.filter fun a => a.mergedAt == sw + 1).map (·.mergedInto)).eraseDups
  waiting.length + (made.filter fun x => !waiting.contains x && (s.acc? x).isSome).length
/-- The clock by which a switch counts cycles: a cluster group's switch that of its island, the others the nominal one (R3,
R212). -/
def switchCycles (s : State) (sw : Nat) : Nat := if sw < 16 then s.cycles sw else s.now / period s.grade20 8
/-- A combinable request comes to the switches left on its way (R213): it stands there to make COMBINE with the match that
waits, takes an entry and waits, or passes. -/
def enterSwitch (s : State) (x : Acc) : List Nat → State
  | [] => s.setAcc x.id fun a => { a with stage := .sent }
  | l :: rest =>
    let sw := switchOf x.cluster l
    if (waitingFor s sw x).isSome || (decide (0 < x.window) && decide (bufferUsed s sw < 256)) then
      (moveLast s x.id).setAcc x.id fun a => { a with stage := .waiting l, waitStart := switchCycles s sw }
    else enterSwitch s x rest

/-- The bytes of the cluster's pending store set that a load may have overlap with (R191): such a load is answered by FORWARD,
or goes to its home once those stores have. So does a load that the fibre's last point of cell scope puts after a write in the view
(R193). -/
def behindPending (s : State) (x : Acc) : Bool :=
  x.kind == .load && ((!wide x.ord && !(pendingStores s x).isEmpty) || s.seenBlocks x.owner (wide x.ord) x.va x.len)
/-- May the request leave the cluster view (R189, R190, R195, R199)? -/
def sendTurn (s : State) (x : Acc) : Bool :=
  x.stage == .inView && x.pinned.isNone && !behindPending s x
  && (s.accs.all fun e => !e.shares x || decide (x.id ≤ e.id) || !(overlaps e x || sameFrame e x) || (e.stage != .queued && e.stage != .inView)
      || (s.kept x.owner).contains e.id)
  && (!x.kind.isStore || (s.accs.takeWhile (·.id != x.id)).all fun e =>
      !(e.owner == x.owner && e.kind.isStore && e.va / 64 == x.va / 64 && e.stage == .inView))
  && (!(x.kind.isStore && x.ord == .cell) || x.covers.all (s.performed .dev))
def execRequestSend (a : Nat) (s : State) : Out :=
  match s.acc? a with
  | none => .next s
  | some x =>
    if !sendTurn s x then .next s
    else if x.comb then .next (enterSwitch s x (x.way s))
    else .next (s.setAcc a fun a => { a with stage := .sent })

/-- OPER of R207 on the operands' bits. -/
def oper (op : AtomOp) (old v : Nat) : Nat :=
  let a : Word := BitVec.ofNat 32 old
  let b : Word := BitVec.ofNat 32 v
  match op with
  | .add32 => (a + b).toNat
  | .add64 => (old + v) % 2 ^ 64
  | .and32 | .and64 => old &&& v
  | .or32 | .or64 => old ||| v
  | .xor32 | .xor64 => old ^^^ v
  | .mins32 => if a.toInt ≤ b.toInt then old else v
  | .maxs32 => if a.toInt ≤ b.toInt then v else old
  | .minz32 => min old v
  | .maxz32 => max old v
  | .exch32 | .exch64 => v
  | .addf32 => (fop32 .add .rne 0 a b 0).1.toNat

/-- The group of x, waiting, and y, arriving (R215). -/
def combineNow (s : State) (op : AtomOp) (sw : Nat) (x y : Acc) : State :=
  let s := s.setAcc x.id fun a => { a with
    alone := if x.members.length = 1 then x.data else x.alone
    data := bytesOfNat x.len (oper op (natOfBytes x.data) (natOfBytes y.data))
    members := x.members ++ y.members.map fun m => (m.1, x.data ++ m.2) }
  s.setAcc y.id fun a => { a with
    stage := .merged x.id, mergedAt := sw + 1, mergedInto := x.id, members := [(y.id, [])], data := if y.members.length = 1 then y.data else y.alone }
def execCombine (x y : Nat) (s : State) : Out :=
  match s.acc? x, s.acc? y with
  | some p, some q =>
    match p.stage, q.stage, p.kind.op? with
    | .waiting l, .waiting m, some op =>
      let sw := switchOf p.cluster l
      if sw = switchOf q.cluster m ∧ parkedAt s sw p = false
          ∧ (s.accs.find? fun e => e.atSwitch sw && s.pairs p e).map (·.id) = some y then
        .next (combineNow s op sw p q)
      else .next s
    | _, _, _ => .next s
  | _, _ => .next s

/-- A waiting request's window ends (R213): it goes on, unless a match stands there with which it makes COMBINE first. -/
def execCombineWindowExpiry (a : Nat) (s : State) : Out :=
  match s.acc? a with
  | none => .next s
  | some x =>
    match x.stage with
    | .waiting l =>
      let sw := switchOf x.cluster l
      if !parkedAt s sw x && !(s.accs.any fun e => e.atSwitch sw && s.pairs x e) && decide (x.waitStart + x.window ≤ switchCycles s sw) then
        .next (enterSwitch (s.setAcc a fun a => { a with stage := .inView }) x ((x.way s).filter (l < ·)))
      else .next s
    | _ => .next s

/-- ESCAPE (R203, R219): every entry that waits at a switch goes on as it stands and combines no further. A switch cannot
tell congestion from deadlock, so the move may come whenever an entry waits; a request that stands there for its COMBINE makes
that first. -/
def execEscape (switch : Nat) (s : State) : Out :=
  .next { s with accs := s.accs.map fun a => if a.atSwitch switch && !parkedAt s switch a
    && !(s.accs.any fun e => e.atSwitch switch && s.pairs a e) then { a with stage := .sent } else a }
/-- Has an entry of a switch stood without a move for its partition's ORD.DRTO (R203)? -/
def escapeDue (s : State) (sw : Nat) : Bool :=
  s.accs.any fun a => a.atSwitch sw && !parkedAt s sw a
    && decide (((s.part? a.part).map (·.drto)).getD 0 * ticksPerMicro
        ≤ (switchCycles s sw - a.waitStart) * period s.grade20 (if sw < 16 then (s.island sw).point else 8))

/-! ### TLB_WALK and LINE_FILL -/

/-- May a request be refused now? A fibre's record holds 16 refused stores (R266); a further one waits at its home until the
record has room. -/
def refusable (s : State) (x : Acc) : Bool := !x.kind.posted || x.members.all fun m =>
  match s.acc? m.1 with | some a => (a.owner :: a.also).all fun r => !s.recordFull r | none => true
/-- The later stores of its fibres that are refused with one, in program order, as far as their records have room: those that overlap it
and, where it is a replay, the replays that stand behind it, whose record is rebuilt (R266). -/
def refusedWith (s : State) (x : Acc) : List Nat :=
  let behind (a : Acc) : Bool := x.replay && a.replay && a.stage == .queued && a.covers.contains x.id
  let later := sortBy (fun (a b : Acc) => decide (a.id ≤ b.id)) (s.accs.filter fun a => a.kind.posted && x.shares a && decide (x.id < a.id)
    && (overlaps a x || behind a) && a.stage != .arrived && !a.refused)
  (later.foldl (fun (l : List Acc) a =>
    if (a.owner :: a.also).all fun r => decide ((s.refusedStores r).length + (if x.of r then 1 else 0) + (l.filter (·.of r)).length < 16)
    then l ++ [a] else l) []).map (·.id)
/-- A request is refused at its home (R265, R266): with it every member of its group, and the stores refused with it. The fibres that
wait at a park point park; a request of no fibre goes. -/
def refuseAcc (s : State) (x : Acc) (c : Cause) : State :=
  if !refusable s x then s else
  let ids := x.members.map (·.1)
  let own := if x.members.length = 1 then x.data else x.alone
  let later := if x.kind.posted then refusedWith s x else []
  let mark (a : Acc) : Acc :=
    if a.id = x.id then { a with stage := .refused c, members := [(a.id, [])], data := own, got := 0, xlat := none, mergedAt := 0, replay := false }
    else if ids.contains a.id || later.contains a.id then { a with stage := .refused c, got := 0, xlat := none, mergedAt := 0, replay := false }
    else a
  let s := freePins { s with accs := (s.accs.map mark).filter fun a => !(a.refused && a.owner.idx == 1024) }
  afterAll (((s.accs.filter (·.refused)).flatMap fun a => a.owner :: a.also).eraseDups.foldl parkStuck s)

/-- TLB_WALK (R162, R166): a request whose line its slice does not hold is translated. -/
def execTlbWalk (a : Nat) (useTlb : Bool) (s : State) : Out :=
  match s.acc? a with
  | none => .next s
  | some x =>
    if x.stage != .sent || x.xlat.isSome || decide (vaultBase ≤ x.va) || (s.line? x.asid x.va).isSome then .next s else
    match (if useTlb then tlbFind s x.asid x.va else none) with
    | some t => .next (if s.physOk t.pa then s.setAcc a fun q => { q with xlat := some t } else refuseAcc s x .illegalAddress)
    | none =>
      match walkReach s x.part x.fn x.va with
      | .wait => .next s
      | .fail c => .next (refuseAcc s x c)
      | .ok t big =>
        let z := if big then 2 ^ 21 else 2 ^ 16
        let e : TlbEntry := { asid := x.asid, part := x.part, page := x.va / z, big := big, xlat := { t with pa := t.pa - x.va % z } }
        let keep := s.tlb.filter fun y => !(y.asid == x.asid && (if y.big then y.page == x.va / 2 ^ 21 else y.page == x.va / 2 ^ 16))
        .next ({ s with tlb := e :: keep }.setAcc a fun q => { q with xlat := some t })

/-- The class of an access (R169), and whether it fills its line (R170). -/
def Acc.classOf (x : Acc) (t : Xlat) : Nat := x.cls.getD t.cls
def fills (s : State) (x : Acc) (t : Xlat) : Bool := allocates s x.part t.pa (x.classOf t) x.kind.isAtomic
/-- LINE_FILL (R168 to R170, R189): a fill for a translated request, or a write of a dirty line to memory. A request whose physical
address can no longer be reached is refused (R285, R289). -/
def execLineFill (op : FillOp) (s : State) : Out :=
  match op with
  | .writeBack asid line =>
    match s.lines.find? fun l => l.asid == asid && l.line == line with
    | none => .next s
    | some l => .next (writeBack s l)
  | .forAcc a =>
    match s.acc? a with
    | none => .next s
    | some x =>
      match x.xlat with
      | none => .next s
      | some t =>
        if x.stage != .sent || (s.line? x.asid x.va).isSome || !fills s x t then .next s
        else if !s.physOk t.pa then .next (refuseAcc s x .illegalAddress)
        else .next (fillLine s x.asid x.part x.va t (x.classOf t) x.nt x.kind.isAtomic)

/-! ### ARRIVE -/

/-- Is the request's line ready at its home? -/
def lineReady (s : State) (x : Acc) : Bool :=
  decide (vaultBase ≤ x.va) || (s.line? x.asid x.va).isSome || match x.xlat with | some t => !fills s x t | none => false
/-- May the request arrive (R190, R199, R211, R218, R366)? -/
def arriveTurn (s : State) (x : Acc) : Bool :=
  let ids := x.members.map (·.1)
  x.stage == .sent && lineReady s x && !heldBack s ids x.part x.fn x.va x.len && !laneBefore s x
  && (s.accs.filter fun a => ids.contains a.id).all fun m => !behindOwn { s with accs := s.accs.filter fun e => !ids.contains e.id } m
/-- A hit sets the line's age to 0 (R169). -/
def touchLine (s : State) (x : Acc) : State :=
  if x.xlat.isNone && decide (x.va < vaultBase) then s.setLine x.asid (x.va / 64) fun l => { l with age := 0 } else s

def wordCount (len : Nat) : Nat := (len + 3) / 4
/-- The words that a move takes: selected by mask and not yet taken. -/
def wordsNow (x : Acc) (mask : Nat) : List Nat := (List.range (wordCount x.len)).filter fun i => mask.testBit i && !x.got.testBit i
def takenWith (x : Acc) (ws : List Nat) : Nat := ws.foldl (fun g i => g + 2 ^ i) x.got
/-- The access after the words ws: it has arrived when none is left. -/
def tookWords (s : State) (x : Acc) (ws : List Nat) (result : List Byte) : State :=
  let got := takenWith x ws
  let all := got + 1 = 2 ^ wordCount x.len
  s.setAcc x.id fun a => { a with result := result, got := if all then 0 else got, invBefore := s.next, stage := if all then .arrived else .sent }

/-- What the requester's own cell adds to bytes read at a home: tentative, held and refused bytes of its own (R73, R185,
R266). -/
def ownView (s : State) (x : Acc) (va : Nat) (bs : List Byte) : List Byte :=
  match s.cell? x.owner.cell with
  | none => bs
  | some c =>
    let bs := (overlay c va bs).zipIdx.map fun (b, i) => ((c.held.find? (·.1 == va + i)).map (·.2)).getD b
    ownRefused s x.owner x.id va bs

/-- L1 holds what the split leaves of a cluster's 768 KiB (R16); blocks past that leave it, the newest staying. -/
def l1Size (s : State) (cluster : Nat) : Nat := 768 * 1024 - 131072 * sget 0 s.splits cluster
def trimBlocks (cluster : Nat) : Nat → List Block → List Block
  | _, [] => []
  | room, b :: r =>
    if b.cluster ≠ cluster then b :: trimBlocks cluster room r
    else if room < b.bytes.length then trimBlocks cluster room r
    else b :: trimBlocks cluster (room - b.bytes.length) r
/-- A cluster takes a split; what no longer fits in its L1 leaves it (R16, R157). -/
def State.setSplit (s : State) (cluster split : Nat) : State :=
  let s := { s with splits := sput 0 s.splits cluster split }
  { s with blocks := trimBlocks cluster (l1Size s cluster) s.blocks }
/-- A load's fill of its cluster's L1 (R159): a block of blk cache words around the address, the cluster's pending stores
over it. NT keeps L1 from allocating (R169), and a tentative slot is never held there. A block of 8 words reads a second line at its
home (R169, R186). -/
def fillBlock (s : State) (x : Acc) (blk : Nat) : State :=
  if !(blk == 1 || blk == 2 || blk == 4 || blk == 8) || x.nt || tentative s x || x.kind != .load then s else
  let n := 16 * blk
  let base := x.va / n * n
  match homeRead s x.who base .read n with
  | .error _ => s
  | .ok bs =>
    let newer := s.accs.filter fun q => q.kind.isStore && q.inFlight && q.cluster == x.cluster && accTag s q == accTag s x && !tentative s q
    let bytes := newer.foldl (fun bs q => q.patchOver base bs) bs
    let block : Block := { cluster := x.cluster, asid := accTag s x, base := base, bytes := bytes, pa := (physAt s x.who base).getD 0 }
    let keep := (dropBlocks s x.cluster (accTag s x) base n).blocks
    let s := { s with blocks := trimBlocks x.cluster (l1Size s x.cluster) (block :: keep) }
    (((List.range ((n + 63) / 64)).map (base / 64 + ·)).filter (· != x.va / 64)).foldl (fun s l =>
      touchHome s x.who x.cls x.nt .read (64 * l)) s

/-- Words of a load take the values current at the home (R188, R189). -/
def arriveLoad (s : State) (x : Acc) (mask blk : Nat) : State :=
  let ws := wordsNow x mask
  let rd := ws.foldl (fun (r : Except (Nat × Cause) (List Byte)) i => r.bind fun res =>
    (homeRead s x.who (x.va + 4 * i) .read (min 4 x.len)).map fun bs => patchBytes 0 res (4 * i) (ownView s x (x.va + 4 * i) bs))
    (.ok (if x.result.isEmpty then List.replicate x.len 0 else x.result))
  match rd with
  | .error (_, c) => refuseAcc s x c
  | .ok res => fillBlock (tookWords (touchLine s x) x ws res) x blk

/-- Words of a store take their places in the coherence order (R188, R189); STI raises its subscribers (R74). -/
def arriveStore (s : State) (x : Acc) (mask : Nat) : State :=
  let ws := wordsNow x mask
  let old := match x.kind with
    | .sti => ((homeNat s x.who x.va 4).toOption).getD 0
    | _ => 0
  let put := ws.foldl (fun (r : Except (Nat × Cause) State) i => r.bind fun s =>
    let bs := (x.data.drop (4 * i)).take 4
    (landBytes s x.owner.cell x.who (some x.cluster) (x.va + 4 * i) bs).map fun s =>
      if tentative s x then dropBlocks s x.cluster (accTag s x) (x.va + 4 * i) bs.length else settleBlocks s x.id x.cluster (accTag s x) (x.va + 4 * i) bs) (.ok (touchLine s x))
  match put with
  | .error (_, c) => refuseAcc s x c
  | .ok s =>
    let s := tookWords s x ws []
    let s := if x.kind = .sti ∧ ws ≠ [] then
        stiRaise s x.part x.fn x.va (BitVec.ofNat 32 (natOfBytes x.data)) (BitVec.ofNat 32 old) else s
    freePins s

/-- What an atomic writes; none where a CAS fails (R207, R209, R244). -/
def atomicNew (x : Acc) (old : Nat) : Option Nat :=
  let v := natOfBytes x.data
  match x.kind with
  | .atom o | .red o => some (oper o old v)
  | .cas e => if old = e then some v else none
  | .sgnl => some ((old + v) % 2 ^ 64)
  | _ => none
/-- The value a member of a group receives: the reply, split at each switch on its way back (R215). -/
def splitReply (x : Acc) (old : Nat) (kept : List Byte) : Nat :=
  match x.kind.op? with
  | none => old
  | some o => (List.range (kept.length / x.len)).foldl (fun r i => oper o r (natOfBytes ((kept.drop (x.len * i)).take x.len))) old
/-- A group performs its operation at the home as one ARRIVE (R207, R215, R217), as its leader's access: with the leader's mode, class and
NT, which members need not share (DESIGN CHOICE: R214 lets them combine whatever these are, and no rule says whose count). -/
def arriveAtomic (s : State) (x : Acc) : State :=
  match homeNat s x.who x.va x.len with
  | .error (_, c) => refuseAcc s x c
  | .ok old =>
    let before := s.next
    let s := touchLine s x
    let put : Except (Nat × Cause) State := match atomicNew x old with
      | none => (spot s x.who x.va .write).map (fun _ => s) |>.mapError fun c => (x.va, c)
      | some v =>
        let bs := bytesOfNat x.len v
        (homeWrite s x.who (some x.cluster) x.va bs).map fun s =>
          ((s.accs.filter fun a => x.members.any (·.1 == a.id)).map (·.cluster)).eraseDups.foldl (fun s c => settleBlocks s x.id c (accTag s x) x.va bs) s
    match put with
    | .error (_, c) => refuseAcc s x c
    | .ok s =>
      let s := { s with accs := s.accs.map fun a =>
        match x.members.find? (·.1 == a.id) with
        | some m => { a with stage := .arrived, got := 0, invBefore := before, result := bytesOfNat x.len (splitReply x old m.2) }
        | none => a }
      freePins s

/-- An access that reaches memory without a line, or a store to a write-through line, passes its port (R170, R186). -/
def passPort (s : State) (x : Acc) : State :=
  if vaultBase ≤ x.va then s else
  match s.line? x.asid x.va with
  | some l => if x.kind.writes && writeThrough (rclass s l.part l.cls) then countPort s x.part x.asid x.va l.pa else s
  | none => match x.xlat with
    | some t => countPort s x.part x.asid x.va t.pa
    | none => s
/-- ARRIVE (R188, R189): mask selects the words that a load or a store moves now, blk the L1 block a load fills. -/
def execArrive (a mask blk : Nat) (s : State) : Out :=
  match s.acc? a with
  | none => .next s
  | some x =>
    if !arriveTurn s x then .next s
    else
      let s := acquirePoints (passPort s x) x
      .next (afterAll (if x.kind.isAtomic then arriveAtomic s x else if x.kind.isStore then arriveStore s x mask else arriveLoad s x mask blk))

/-! ### REPLY, DELIVER_INVAL -/

/-- May the answer of an access be given (R194)? -/
def replyTurn (s : State) (x : Acc) : Bool :=
  x.stage == .arrived && ownerResident s x
  && (!(x.isAcquire && wide x.ord) || s.invals.all fun q => q.1 != x.cluster || q.2.all fun v => decide (x.invBefore ≤ v.num))
/-- REPLY (R189): mask selects the words of a load or atomic that are written now. An acknowledgement ends a posted
access. A reply of an older context is dropped (R270). -/
def execReply (a mask : Nat) (s : State) : Out :=
  match s.acc? a with
  | none => .next s
  | some x =>
    if !replyTurn s x then .next s
    else if ((s.cell? x.owner.cell).map fun c => c.saveTag != x.tag).getD false then .next (s.dropAcc a)
    else if !x.kind.returns then .next (finishAcc s x)
    else
      let ws := wordsNow x mask
      let got := takenWith x ws
      let s := deliverWords s x x.result mask
      if got + 1 = 2 ^ wordCount x.len then .next (finishAcc s x) else .next (s.setAcc a fun q => { q with got := got })

/-- DELIVER_INVAL (R189, R159): the oldest invalidation of a cluster invalidates every block that holds a byte of its line. -/
def execDeliverInval (cluster : Nat) (s : State) : Out :=
  match s.invals.find? (·.1 == cluster) with
  | some (_, v :: rest) =>
    let hit (b : Block) : Bool := b.cluster == cluster && b.asid == v.asid && decide (b.base < 64 * v.line + 64) && decide (64 * v.line < b.base + b.bytes.length)
    .next (afterAll { s with blocks := s.blocks.filter fun b => !hit b
                             invals := if rest.isEmpty then s.invals.filter (·.1 != cluster) else (cluster, rest) :: s.invals.filter (·.1 != cluster) })
  | _ => .next s

/-! ### Pins, fences and releases -/

/-- PIN_TIMEOUT (R199). -/
def execPinTimeout (rel : Nat) (s : State) : Out :=
  let due (p : Pin) : Bool := p.rel == rel && rel != 0
    && decide (p.since + ((s.part? p.part).map (·.pinto)).getD 0 * ticksPerMicro ≤ s.now)
  if s.pins.any due then .next (afterAll (freePins (endPins s (·.rel == rel)))) else .next s

/-- Every dirty line of an address space is written to memory, as a system-scope point asks (R192). -/
def writeBackAll (s : State) (asid : Nat) : State := (s.lines.filter (·.asid == asid)).foldl writeBack s

/-- PIN (R198): entries for the lines of a release at cell scope; none where the cluster's free entries do not suffice. -/
def pinRelease (s : State) (x : Acc) : Option State :=
  let cov := s.accs.filter fun a => x.covers.contains a.id && a.kind.posted && a.stage != .arrived
  let all := if scratchBase ≤ x.va then cov else cov ++ [x]
  let keys := (all.map fun a => (accTag s a, a.va / 64)).eraseDups
  let mine (k : Option Nat × Nat) : Bool := s.pins.any fun p => p.cell == x.owner.cell && p.rel != 0 && p.asid == k.1 && p.line == k.2
  let new := keys.filter fun k => !mine k
  let ids := all.map (·.id)
  if 64 < (s.pins.filter (·.cluster == x.cluster)).length + new.length then none else
  let entry (k : Option Nat × Nat) : Pin :=
    { rel := x.id, cell := x.owner.cell, cluster := x.cluster, part := x.part, asid := k.1, line := k.2, since := s.now, accs := ids }
  let grow (p : Pin) : Pin :=
    if p.cell = x.owner.cell ∧ p.rel ≠ 0 ∧ keys.contains (p.asid, p.line) then
      { p with accs := p.accs ++ (all.filter fun a => accTag s a == p.asid && a.va / 64 == p.line).map (·.id) } else p
  some { s with pins := s.pins.map grow ++ new.map entry
                accs := s.accs.map fun a => if ids.contains a.id && a.kind.isStore then { a with pinned := some x.id } else a }

/-- The release part of a releasing access (R195, R196, R198): at cell scope its lines are pinned; where they cannot be, it is
performed at device scope instead, which ends the cell's pins, and waits as such. none where nothing can happen yet. -/
def releasePart (s : State) (x : Acc) : Option State :=
  let done (s : State) : State := s.setAcc x.id fun a => { a with relDone := true }
  let met (sc : Scope) : Bool := x.covers.all (s.performed sc)
  match (if x.relDev then .dev else x.ord) with
  | .cell =>
    let pinto := ((s.part? x.part).map (·.pinto)).getD 0
    if !met .cell then none else
    match (if pinto = 0 then none else pinRelease s x) with
    | some s' => some (done s')
    | none => some (endPins (s.setAcc x.id fun a => { a with relDev := true }) (·.cell == x.owner.cell))
  | .sys => if met .sys && s.invalsClear x.cluster then some (done (writeBackAll s x.asid)) else none
  | sc => if met sc && s.invalsClear x.cluster then some (done s) else none

/-- The conditions of R202 for a fibre's accesses and operations. -/
def mxMet (s : State) (cov : List Nat) : Bool :=
  cov.all fun a =>
    (match s.acc? a with | some x => !x.kind.posted || x.stage == .arrived | none => true)
    && match s.op? a with
      | none => true
      | some o =>
        match o.kind with
        | .mma _ _ slot _ ea eb _ =>
          let scl := ((s.cell? o.owner.cell).map fun c => fmtSCL (fmtSlot s c slot) == 1).getD false
          (o.result.getD []).length == (mmaElems ea eb scl).length
        | .mst _ _ _ _ _ | .scatter _ _ _ _ => false
        | _ => true
/-- The conditions of R196 and R201. A wait without scope and without MX or ENG is one for completion. -/
def fenceMet (s : State) (cluster : Nat) (eng mx : Bool) (sc : Scope) (cov : List Nat) : Bool :=
  let at_ : Scope := if eng && sc == .plain then .dev else sc
  (if mx && at_ == .plain then true else cov.all (s.performed at_)) && (!wide sc || s.invalsClear cluster) && (!mx || mxMet s cov)
/-- FENCE_DONE (R193, R196): of the oldest release part of the fibre that can be done, else of the fence it waits at. -/
def execFenceDone (cell fib : Nat) (s : State) : Out :=
  let r : FRef := ⟨cell, fib⟩
  match s.cell? cell, s.fibre? r with
  | some c, some f =>
    if !c.resident then .next s else
    let due := sortBy (fun (a b : Acc) => decide (a.id ≤ b.id)) (s.accs.filter fun a => a.owner == r && !a.relDone && a.stage == .queued)
    match due.findSome? (releasePart s) with
    | some s' => .next (afterAll s')
    | none =>
      match f.status with
      | .fence eng mx sc cov =>
        if fenceMet s c.cluster eng mx sc cov then
          let s := if sc = .sys then writeBackAll s (s.asid c.part c.fn) else if sc = .cell then s.atPoint r c.cluster else s
          .next (afterChange (settleHatch (s.setFibre r fun f => { f with status := .ready }) cell f.hatch) cell)
        else .next s
      | _ => .next s
  | _, _ => .next s

end Sys2Proof.Machine
end

