-- ==== Sys2Proof/Machine/Pending.lean ====
section
/-! DEFINITION. The events of fibres in flight: LONG_LATENCY_COMPLETE, MATRIX_FAULT, STREAM_RUNAHEAD_READ, CLAUSE_WAIT_END,
REGROUP_TIMEOUT, WATCHDOG, TRAP_ENTRY (R34, R80, R86, R87, R118, R119, R176 to R180, R242, R247, R260, R280, R345). -/

namespace Sys2Proof.Machine

/-- A plain read by an operation or a stream of a fibre: its cell's scratch in place; bytes that the pending store set of its
cluster holds by FORWARD, with the writes they come from (R191, R196); any other at their homes, its own tentative, held and
refused bytes first. none where it must wait: for those stores, for a pin or a release, for a write of the fibre's own that stands
before number before in its order (R190), for one that its last point of cell scope puts first (R193). -/
def viewRead (s : State) (c : Cell) (sup : Bool) (r : FRef) (before va n : Nat) : Option (Except (Nat × Cause) (List Byte × List Nat)) :=
  let x := mkAcc s c { idx := r.idx, pc := 0, hatch := 0, lane := 0, sup := sup } .load va n [] .plain
  if s.ownOver r before va n || s.seenBlocks r false va n then none
  else if !(pendingStores s x).isEmpty then (forwardBytes s x).map .ok
  else if heldBack s [] c.part c.fn va n then none
  else some ((cellRead s c sup va n).map fun bs => (ownRefused s r s.next va bs, []))
/-- What reads of one step leave behind: the writes that a fibre read (R196), and the touch of the homes it read at (R169). -/
def noteReads (s : State) (c : Cell) (sup : Bool) (r : FRef) (cls : Option Nat) (nt : Bool) (from_ addrs : List Nat) : State :=
  (((addrs.map (· / 64)).eraseDups).foldl (fun s l => touchHome s (c.who sup) cls nt .read (64 * l)) s).setFibre r fun f =>
    { f with readFrom := f.readFrom ++ from_ }

/-- Refuse an operation: its fibres park where they wait (R265). -/
def refuseOp (s : State) (o : Op) (t : Trap) : State :=
  o.fibres.foldl (fun s x => parkStuck s x.1) (s.setOp o.id fun o => { o with refused := some t })

/-- Words of an answer reach their stack positions; the operation ends with the last. -/
def deliverValue (s : State) (o : Op) (ws : List (Nat × Word)) (mask : Nat) : State :=
  let now := ws.zipIdx.filter fun x => mask.testBit x.2 && !o.got.testBit x.2
  let s := s.setFibre o.owner fun f => { f with stack := now.foldl (fun m x => sput 0 m x.1.1 x.1.2) f.stack }
  let got := now.foldl (fun g x => g + 2 ^ x.2) o.got
  if got + 1 = 2 ^ ws.length then finishOp s o else s.setOp o.id fun o => { o with got := got }
/-- Words of an answer reach the cell's scratch from dst on, those numbered 1024 the register at pos. -/
def deliverScratch (s : State) (o : Op) (dst pos : Nat) (ws : List (Nat × Word)) (mask : Nat) : State :=
  let now := ws.zipIdx.filter fun x => mask.testBit x.2 && !o.got.testBit x.2
  let s := s.setCell o.owner.cell fun c => { c with
    scratch := now.foldl (fun m x => if x.1.1 = 1024 then m else putBytes m (dst + 4 * x.1.1) (bytesOfNat 4 x.1.2.toNat)) c.scratch }
  let s := now.foldl (fun s x => if x.1.1 = 1024 then s.setFibre o.owner fun f => { f with stack := sput 0 f.stack pos x.1.2 } else s) s
  let got := now.foldl (fun g x => g + 2 ^ x.2) o.got
  if got + 1 = 2 ^ ws.length then finishOp s o else s.setOp o.id fun o => { o with got := got }

/-! ### Gather and scatter -/

def noteOf (ws : List (Nat × Word)) (detail : Nat) (causes : List Cause) : Option Trap :=
  (sortBy (fun a b => decide (a.1 ≤ b.1)) (ws.filter fun x => x.1 < 4096)).head?.map fun x =>
    { cause := causes.getD x.2.toNat .illegalAddress, detail := (causes.getD x.2.toNat .illegalAddress).detail detail
      faddr := (pair (wordOf ws (x.1 + 4096)) (wordOf ws (x.1 + 8192))).toNat }
/-- The causes that a note may hold. -/
def noteCauses : List Cause := [.illegalAddress, .translationFault, .protectionFault, .uncorrectable]
/-- The note of an entry: its cause by number, and the address. -/
def note (k : Nat) (c : Cause) (a : Nat) : List (Nat × Word) :=
  [(k, BitVec.ofNat 32 (noteCauses.idxOf c)), (k + 4096, BitVec.ofNat 32 a), (k + 8192, BitVec.ofNat 32 (a / 2 ^ 32))]
def elemAddr (l : ListInfo) (i : Nat) : Nat := (l.base + i * 2 ^ l.esz) % 2 ^ 64

/-- What one entry has read: its bytes, its note, the writes they come from, the addresses read. -/
structure EntryRead where
  bytes : List Byte := []
  notes : List (Nat × Word) := []
  from_ : List Nat := []
  addrs : List Nat := []
/-- One entry of a GATHER (R176, R178): what its element is, and its note; none where it must wait. The note of an index out of range
names the address of the entry itself, and a fault of the entry's own read is a note like one of its element, which reads zero (DESIGN
CHOICE: R176 gives neither that address nor that fault). -/
def gatherEntry (s : State) (c : Cell) (o : Op) (l : ListInfo) (k ea : Nat) : Option EntryRead :=
  let sup := ownerSup s o
  let zero := List.replicate (2 ^ l.esz) (0 : Byte)
  match viewRead s c sup o.owner o.id ea 4 with
  | none => none
  | some (.error (a, e)) => some { bytes := zero, notes := note k e a }
  | some (.ok (bs, from_)) =>
    let i := natOfBytes bs
    if i = 0xFFFFFFFF then some { bytes := zero, from_ := from_, addrs := [ea] }
    else if l.limit ≤ i then some { bytes := zero, notes := note k .illegalAddress ea, from_ := from_, addrs := [ea] }
    else match viewRead s c sup o.owner o.id (elemAddr l i) (2 ^ l.esz) with
      | none => none
      | some (.error (a, e)) => some { bytes := zero, notes := note k e a, from_ := from_, addrs := [ea] }
      | some (.ok (bs, more)) => some { bytes := bs, from_ := from_ ++ more, addrs := [ea, elemAddr l i] }
/-- The entries of a GATHER that mask selects reach scratch; the operation ends, or is refused with its lowest note. -/
def advanceGather (s : State) (c : Cell) (o : Op) (mask off : Nat) (l : ListInfo) : State :=
  let now := (l.entries.zipIdx.filter fun x => mask.testBit x.2 && !o.got.testBit x.2).filterMap fun (ea, k) =>
    (gatherEntry s c o l k ea).map fun r => (k, r)
  let s := noteReads s c (ownerSup s o) o.owner o.cls o.nt (now.flatMap (·.2.from_)) (now.flatMap (·.2.addrs))
  let s := s.setCell c.id fun c => { c with
    scratch := now.foldl (fun m (k, r) => putBytes m (off + k * 2 ^ l.esz) r.bytes) c.scratch }
  let got := now.foldl (fun g x => g + 2 ^ x.1) o.got
  let notes := o.result.getD [] ++ now.flatMap (·.2.notes)
  let s := s.setOp o.id fun o => { o with got := got, result := some notes }
  if got + 1 ≠ 2 ^ l.entries.length then s
  else match noteOf notes 1 noteCauses with
    | some t => refuseOp s o t
    | none => finishOp s o

/-- SCATTER's indices that mask selects are read, noted at 16384 and above; faults are notes (R177, R178). -/
def scatterRead (s : State) (c : Cell) (o : Op) (mask : Nat) (l : ListInfo) : List EntryRead :=
  (l.entries.zipIdx.filter fun x => mask.testBit x.2 && !((o.result.getD []).any (·.1 == x.2 + 16384))).filterMap fun (ea, k) =>
    match viewRead s c (ownerSup s o) o.owner o.id ea 4 with
    | none => none
    | some (.error (a, e)) => some { notes := (k + 16384, 0xFFFFFFFF) :: note k e a }
    | some (.ok (bs, from_)) =>
      let i := natOfBytes bs
      some { notes := (k + 16384, BitVec.ofNat 32 i) :: (if i ≠ 0xFFFFFFFF ∧ l.limit ≤ i then note k .illegalAddress ea else [])
             from_ := from_, addrs := [ea] }
/-- One store of a SCATTER, a plain store (R177), after the accesses of the fibre to its bytes that stand before it (R190): two entries
of one element land in ascending k. -/
def scatterPut (c : Cell) (o : Op) (off : Nat) (l : ListInfo) (idx : Nat → Nat) (acc : State × Nat × List (Nat × Word)) (k : Nat) :
    State × Nat × List (Nat × Word) :=
  let (s, got, notes) := acc
  let i := idx k
  let n := 2 ^ l.esz
  if i = 0xFFFFFFFF ∨ l.limit ≤ i then (s, got + 2 ^ k, notes)
  else if (List.range k).any fun j => !got.testBit j && idx j == i then acc
  else
    let a := elemAddr l i
    if heldBack s [] c.part c.fn a n || s.ownPosted o.owner a n o.id || s.ownReads o.owner a n o.id then acc else
    let who := c.who (ownerSup s o)
    let mine := ((s.cell? c.id).map fun c => (List.range n).any fun j => inDraft c (a + j)).getD false
    let bs := bytesAt ((s.cell? c.id).map (·.scratch) |>.getD []) (off + k * n) n
    match landBytes (if mine then s else touchHomes s who o.cls o.nt .write a n) c.id who (some c.cluster) a bs with
    | .ok s => (if mine then s else settleBlocks s 0 c.cluster (tagOf s c.part c.fn a) a bs, got + 2 ^ k, notes)
    | .error (x, e) => (s, got + 2 ^ k, notes ++ note k e x)
def advanceScatter (s : State) (c : Cell) (o : Op) (mask off : Nat) (l : ListInfo) : State :=
  let now := scatterRead s c o mask l
  let have_ := o.result.getD [] ++ now.flatMap (·.notes)
  let s := noteReads s c (ownerSup s o) o.owner o.cls o.nt (now.flatMap (·.from_)) (now.flatMap (·.addrs))
  let n := l.entries.length
  let allRead := (have_.filter fun x => decide (16384 ≤ x.1)).length == n
  if !allRead then s.setOp o.id fun o => { o with result := some have_ } else
  let idx (k : Nat) : Nat := (wordOf have_ (k + 16384)).toNat
  let (s, got, notes) := ((List.range n).filter fun k => mask.testBit k && !o.got.testBit k).foldl (scatterPut c o off l idx) (s, o.got, have_)
  let s := s.setOp o.id fun o => { o with got := got, result := some notes }
  if got + 1 ≠ 2 ^ n then s
  else match noteOf notes 2 noteCauses with
    | some t => refuseOp s o t
    | none => finishOp s o

/-- A GATHER or SCATTER whose list was refused reads it again at its replay (R265). -/
def rereadList (s : State) (c : Cell) (o : Op) (off hdr n detail : Nat) (k : Option ListInfo → OpKind) : State :=
  if heldBack s [] c.part c.fn hdr (32 + 4 * n) || s.ownPosted o.owner hdr (32 + 4 * n) o.id then s else
  match readList (fibreRead s c (ownerSup s o) o.owner) c.scratchSize off hdr n detail with
  | .error (t, _) => refuseOp s o t
  | .ok l => (touchHomes s (c.who (ownerSup s o)) o.cls o.nt .read hdr l.head).setOp o.id fun o => { o with kind := k (some l) }

/-! ### Completion -/

/-- The point of an operation that takes one, with what it answers. -/
def takePoint (s : State) (o : Op) (r : Option (State × Except Trap (List (Nat × Word)))) : State :=
  match r with
  | none => s
  | some (s, .error t) => refuseOp s o t
  | some (s, .ok ws) => s.setOp o.id fun o => { o with result := some ws }
def single (r : Option (State × Except Trap Word)) : Option (State × Except Trap (List (Nat × Word))) :=
  r.map fun x => (x.1, x.2.map fun w => [(1024, w)])

/-- One stage of a pending operation. -/
def advanceOp (s : State) (c : Cell) (o : Op) (mask : Nat) : State :=
  match o.kind with
  | .value ws => deliverValue s o ws mask
  | .mma u t sl h ea eb row => advanceMma s o c mask u t sl h ea eb row
  | .mrd u t row ds => advanceMrd s o mask u t row ds
  | .mst u t b d row => advanceMst s o c mask u t b d row
  | .mwr _ _ _ _ _ | .mzero _ _ _ => s
  | .gather off hdr n l =>
    if acqBefore s o then s else
    match l with
    | none => rereadList s c o off hdr n 1 (.gather off hdr n)
    | some l => advanceGather s c o mask off l
  | .scatter off hdr n l =>
    if acqBefore s o then s else
    match l with
    | none => rereadList s c o off hdr n 2 (.scatter off hdr n)
    | some l => advanceScatter s c o mask off l
  | .proof dst _ _ =>
    match o.result with
    | none => s
    | some ws => deliverScratch s o dst 0 ws mask
  | .tqpush q rec_ d =>
    match o.result with
    | some ws => deliverScratch s o 0 d ws mask
    | none => if acqBefore s o || !pointTurn s o then s else takePoint s o (single (tqpushPoint s c o q rec_))
  | .tqpop off n d =>
    match o.result with
    | some ws => deliverScratch s o off d ws mask
    | none => if acqBefore s o || !pointTurn s o then s else takePoint s o (tqpopPoint s c o n)
  | .qpost h pkt d =>
    match o.result with
    | some ws => deliverScratch s o 0 d ws mask
    | none => if !postTurn s o then s else takePoint s o (single (qpostPoint s c o h pkt))
  | .ecmd h e d =>
    match o.result with
    | some ws => deliverScratch s o 0 d ws mask
    | none => if !postTurn s o then s else takePoint s o (single (ecmdPoint s c o h e))

/-- LONG_LATENCY_COMPLETE (R119): the next stage of an operation that is no access of the view, once the stores replayed before
it are over (R262); a posted MWR or MZERO takes effect at the head of its tile's order, whatever has become of its cell (R342). mask selects the words,
entries or elements that this stage reads or writes; its flag falls with the last. -/
def execLongLatencyComplete (op mask : Nat) (s : State) : Out :=
  match s.op? op with
  | none => .next s
  | some o =>
    match o.kind, s.cell? o.owner.cell with
    | .mwr u t _ _ _, _ | .mzero u t _, _ => .next (afterAll (drainAll s u t))
    | _, none => .next s
    | _, some c => if o.refused.isSome || !c.resident || o.after.any (fun a => (s.acc? a).isSome) then .next s else .next (afterAll (advanceOp s c o mask))

/-- MATRIX_FAULT (R267, R345, R347). -/
def execMatrixFault (op : Nat) (s : State) : Out :=
  match s.op? op with
  | none => .next s
  | some o =>
    match s.cell? o.owner.cell with
    | none => .next s
    | some c =>
      if o.refused.isSome || !c.resident then .next s else
      match o.kind with
      | .mma u t sl h ea eb row => .next (afterAll (faultMma s o c u t sl h ea eb row))
      | .mst u t b d row => .next (afterAll (faultMst s o c u t b d row))
      | _ => .next s

/-! ### Streams -/

/-- With whose rights a stream is read: those of the mode in which it was defined, so that the streams of trapped code go on as that
code's own while its handler runs (DESIGN CHOICE: R180 and R260 do not say). -/
def Fibre.streamSup (f : Fibre) (st : Stream) : Bool :=
  match f.handler with
  | some h => if st.late then f.sup else h.mode
  | none => f.sup
/-- The address of element k with what it took to read its index (R180); none where that cannot be read yet. -/
def streamAddr (s : State) (c : Cell) (f : Fibre) (st : Stream) (k : Nat) : Option (Except (Nat × Cause) (Nat × EntryRead)) :=
  if st.idx = 0 then some (.ok ((st.base + st.stride.signExtend 64 * BitVec.ofNat 64 k).toNat, {}))
  else
    let ia := (st.idx + BitVec.ofNat 64 (4 * k)).toNat
    match checkAddr s c ia 4 1 false with
    | some t => some (.error (t.faddr, t.cause))
    | none =>
      (viewRead s c (f.streamSup st) ⟨c.id, f.idx⟩ s.next ia 4).map fun r =>
        r.map fun x => ((st.base + st.stride.signExtend 64 * BitVec.ofNat 64 (natOfBytes x.1)).toNat, { from_ := x.2, addrs := [ia] })
/-- Element k itself, and what its reads leave behind. -/
def streamElem (s : State) (c : Cell) (f : Fibre) (st : Stream) (k : Nat) : Option (Elem × EntryRead) :=
  let n := 2 ^ st.esz
  match streamAddr s c f st k with
  | none => none
  | some (.error (a, e)) => some (.bad a e, {})
  | some (.ok (a, r)) =>
    match checkAddr s c a n 1 false with
    | some t => some (.bad t.faddr t.cause, r)
    | none =>
      match viewRead s c (f.streamSup st) ⟨c.id, f.idx⟩ s.next a n with
      | none => none
      | some (.error (x, e)) => some (.bad x e, r)
      | some (.ok (bs, from_)) =>
        some (.val (if st.sx then BitVec.ofInt 32 (sextInt (natOfBytes bs) (8 * n)) else BitVec.ofNat 32 (natOfBytes bs))
        , { r with from_ := r.from_ ++ from_, addrs := r.addrs ++ [a] })
/-- STREAM_RUNAHEAD_READ (R180): the next element enters the queue, or is discarded where its position was consumed. An element
whose read faulted is read again first, once an ERET asks for it (R166). -/
def execStreamRunaheadRead (cell fib : Nat) (n : Fin 4) (s : State) : Out :=
  match s.cell? cell, s.fibre? ⟨cell, fib⟩ with
  | some c, some f =>
    let st := f.stream n.val
    let again := st.queue.findIdx (· == .again)
    let take (k : Nat) (put : Elem → Stream) : Out :=
      match streamElem s c f st k with
      | none => .next s
      | some (e, r) => .next ((noteReads s c (f.streamSup st) ⟨cell, fib⟩ none false r.from_ r.addrs).setFibre ⟨cell, fib⟩ fun f => f.setStream n.val (put e))
    if !c.resident || !st.active then .next s
    else if again < st.queue.length then take (st.popped + again) fun e => { st with queue := st.queue.set again e }
    else if decide (st.count ≤ st.fetched) || decide (st.popped + 16 ≤ st.fetched) then .next s
    else if st.fetched < st.popped then .next (s.setFibre ⟨cell, fib⟩ fun f => f.setStream n.val { st with fetched := st.fetched + 1 })
    else take st.fetched fun e => { st with fetched := st.fetched + 1, queue := st.queue ++ [e] }
  | _, _ => .next s

/-! ### Waits, watchdog, trap entry -/

/-- CLAUSE_WAIT_END (R118): every fibre of a path that waits at one clause has its flags clear. -/
def execClauseWaitEnd (cell fib : Nat) (s : State) : Out :=
  match s.cell? cell, s.fibre? ⟨cell, fib⟩ with
  | some c, some f =>
    match f.status with
    | .waitFlags _ =>
      let mate (x : Fibre) : Bool := x.hatch == f.hatch && x.path == f.path && match x.status with | .waitFlags _ => true | _ => false
      let clear (x : Fibre) : Bool := match x.status with | .waitFlags m => x.flagsClear m | _ => true
      if c.resident && (c.fibres.filter mate).all clear then
        .next (afterChange (settleHatch (s.mapFibres cell fun x => if mate x then { x with status := .ready } else x) cell f.hatch) cell)
      else .next s
    | _ => .next s
  | _, _ => .next s

/-- REGROUP_TIMEOUT (R34): the oldest fibre of an entry has waited 256 cycles of its island (R3). -/
def execRegroupTimeout (cluster quad entry : Nat) (s : State) : Out :=
  match s.crosshatch.find? fun e => e.id == entry && e.cluster == cluster && e.quad == quad with
  | none => .next s
  | some e =>
    match s.cell? e.cell with
    | none => .next s
    | some c =>
      if c.resident && (c.fibres.any fun f => e.members.contains f.idx && decide (f.mark + 256 ≤ s.cycles (islandOf cluster))) then
        .next (afterChange (leaveRegroup s entry true) e.cell)
      else .next s

/-- WATCHDOG (R280): raised at the blocking instruction, or at the clause whose flags are awaited. -/
def execWatchdog (cell fib : Nat) (s : State) : Out :=
  match s.cell? cell, s.fibre? ⟨cell, fib⟩ with
  | some c, some f =>
    let limit := ((s.part? c.part).map (·.wdog.toNat)).getD 0
    if !c.resident || limit == 0 || decide (s.now < f.since + limit * ticksPerMicro) then .next s else
    let drop (e : HatchEntry) : HatchEntry := if e.cell = cell then { e with members := e.members.filter (· != fib) } else e
    match f.status with
    | .blocked _ =>
      let s := { s with crosshatch := (s.crosshatch.map drop).filter (!·.members.isEmpty) }
      .next (afterChange (takeTraps s cell f.hatch [⟨fib, { cause := .watchdog }, f.waitAt⟩]) cell)
    | .waitFlags _ => .next (afterChange (takeTraps s cell f.hatch [⟨fib, { cause := .watchdog }, f.pc⟩]) cell)
    | _ => .next s
  | _, _ => .next s

/-- TRAP_ENTRY (R260): the drained parked fibres of a hatch enter their handler. -/
def execTrapEntry (cell fib : Nat) (s : State) : Out :=
  match s.cell? cell, s.fibre? ⟨cell, fib⟩ with
  | some c, some f => if c.resident then .next (afterChange (enterHandler s cell f.hatch) cell) else .next s
  | _, _ => .next s

end Sys2Proof.Machine
end

