-- ==== Sys2Proof/Machine/Engine.lean ====
section
/-! DEFINITION. Engine chains: ENGINE_ACQ, the commands, ENGINE_REL, ENGINE_COMPLETION, and the failure of a collective's
member (R200, R201, R245 to R250, R292, R293, R317, R375). -/

namespace Sys2Proof.Machine

/-- A command entry (R246). -/
structure Cmd where
  kind : Nat
  acqs : Nat
  rels : Nat
  rsv : Bool
  dmask : Nat
  opc : Nat
  len : Nat
  src : Nat
  dst : Nat
  sig : Nat
  seq : Nat
  group : Nat
  cell : Nat
  deriving DecidableEq, Repr
def cmdOf (bs : List Byte) : Cmd :=
  let v := natOfBytes bs
  { kind := bits v 3 0, acqs := bits v 6 4, rels := bits v 9 7, rsv := bits v 15 10 = 0 && bits v 511 352 = 0
    dmask := bits v 23 16, opc := bits v 31 24, len := bits v 63 32, src := bits v 127 64, dst := bits v 191 128
    sig := bits v 255 192, seq := bits v 287 256, group := bits v 319 304, cell := bits v 351 320 }

def State.engine (s : State) (q : Nat) : Engine := (s.engines.find? (·.queue == q)).getD { queue := q }
def State.setEngine (s : State) (e : Engine) : State := { s with engines := e :: s.engines.filter (·.queue != e.queue) }
/-- The chain with a number, its header as it stands, and the entry that HEAD names. -/
structure ChainView where
  reg : QueueReg
  hdr : CHdr
  slot : Nat
  cmd : Except (Nat × Cause) Cmd
/-- The identity of the device's own accesses to a function's headers and rings. -/
def QueueReg.who (q : QueueReg) : Who := ⟨q.part, q.fn, true⟩
/-- The identity of a command's accesses: those of the function that owns the chain (R274, R302). -/
def QueueReg.cmdWho (q : QueueReg) : Who := ⟨q.part, q.fn, q.fn == 64⟩
def chainView (s : State) (ch : Nat) : Option ChainView :=
  match s.queues.find? fun q => q.id == ch && q.chain with
  | none => none
  | some q =>
    if heldBack s [] q.part q.fn q.addr 64 then none else
    match homeRead s q.who q.addr .read 64 with
    | .error _ => none
    | .ok bs =>
      let h := cHdrOf bs
      let slot := h.ring + 64 * (h.head % h.size)
      if heldBack s [] q.part q.fn slot 64 then none
      else some { reg := q, hdr := h, slot := slot, cmd := (homeRead s q.who slot .read 64).map cmdOf }

/-- ENGINE_ACQ (R200, R248): an idle engine takes the next command of its chain. One whose issuer stood on a retired cluster
(marked by issuer 0) ends with STATUS 4 (R278). -/
def execEngineAcq (ch : Nat) (s : State) : Out :=
  match chainView s ch with
  | none => .next s
  | some v =>
    if (s.engine ch).stage != .idle || v.hdr.head == v.hdr.tail then .next s
    else match v.cmd with
      | .error _ => .next (s.setEngine { queue := ch, stage := .performed 2 0 })
      | .ok _ =>
        let lost := v.reg.posted.any fun x => x.1 == (v.hdr.head + 1) % 2 ^ 32 && x.2.2 == 0
        .next (s.setEngine { queue := ch, stage := if lost then .performed 4 0 else .acquired })

/-! ### The checks of R246 and R375 -/

def inWindows (a : Nat) : Bool := match window a with | some .global | some (.vault _) => true | _ => false
def accepts (engine kind : Nat) : Bool :=
  kind == 0 || kind == 6 || (engine < 4 && (kind == 1 || kind == 2 || kind == 3))
  || (decide (0x100 ≤ engine) && decide (engine < 0x200) && kind == 4) || (engine == 0x200 && kind == 5)
/-- The operation codes that combine (R129, R207), with their widths in bytes. -/
def combOp (c : Nat) : Option (AtomOp × Nat) :=
  match AtomOp.ofCode c with
  | some o => if o.isExch then none else some (o, o.wd.bytes)
  | none => none
/-- A malformed entry completes with STATUS 1 and no effect. -/
def malformed (engine : Nat) (c : Cmd) : Bool :=
  let lenOk := c.len % 4 == 0 && decide (4 ≤ c.len) && decide (c.len ≤ 2 ^ 24)
  !accepts engine c.kind || !c.rsv || decide (4 < c.acqs) || decide (4 < c.rels)
  || (c.sig != 0 && !(inWindows c.sig && c.sig % 8 == 0))
  || match c.kind with
    | 1 => !lenOk || !inWindows c.src || !inWindows c.dst
    | 2 => !lenOk || !inWindows c.src
    | 3 => !lenOk || !inWindows c.dst || c.dst % 4 != 0
    | 4 => window c.src != some .global || c.src % 32 != 0 || !inWindows c.dst
    | 5 => !lenOk || !inWindows c.src || !inWindows c.dst
        || match combOp c.opc with | none => true | some (_, w) => c.src % w != 0 || c.dst % w != 0 || c.len % w != 0
    | 6 => !inWindows c.dst || c.dst % 8 != 0
    | _ => false

/-- Run a command of one kind: the malformed ones of any kind end here with STATUS 1. act answers none where a pin holds
the command back (R199). -/
def runCmd (kind : Nat) (ch : Nat) (act : State → QueueReg → Cmd → Option (State × Nat × Nat)) (s : State) : Out :=
  match chainView s ch with
  | none => .next s
  | some v =>
    match (s.engine ch).stage, v.cmd with
    | .acquired, .ok c =>
      let mine := c.kind == kind || (kind == 0 && decide (6 < c.kind))
      if !mine then .next s
      else if malformed v.hdr.engine c then .next (s.setEngine { queue := ch, stage := .performed 1 0 })
      else match act s v.reg c with
        | none => .next s
        | some (s, st, fm) => .next (s.setEngine { queue := ch, stage := .performed st fm })
    | _, _ => .next s

/-! ### The commands -/

/-- Bytes of an engine reach their homes in ascending address; those before a fault stand (R248). -/
def enginePut (s : State) (who : Who) (a : Nat) (bs : List Byte) : State × Bool :=
  let (s', e) := homePut (touchHomes s who none false .write a bs.length) who a bs
  let n := match e with | none => bs.length | some (x, _) => x - a
  if n = 0 then (s', e.isNone) else
  (((List.range ((a + n - 1) / 64 + 1 - a / 64)).map (a / 64 + ·)).foldl (fun s l => invalidate s none (tagOf s who.part who.fn (64 * l)) l) s', e.isNone)

def execEngineNop (ch : Nat) (s : State) : Out := runCmd 0 ch (fun s _ _ => some (s, 0, 0)) s
/-- COPY (R375): the whole source is read first. -/
def execEngineCopy (ch : Nat) (s : State) : Out :=
  runCmd 1 ch (fun s q c =>
    if heldBack s [] q.part q.fn c.src c.len || heldBack s [] q.part q.fn c.dst c.len then none else
    match homeRead s q.cmdWho c.src .read c.len with
    | .error _ => some (s, 2, 0)
    | .ok bs =>
      let (s, ok) := enginePut (touchHomes s q.cmdWho none false .read c.src c.len) q.cmdWho c.dst bs
      some (s, if ok then 0 else 2, 0)) s
/-- FILL (R246). -/
def execEngineFill (ch : Nat) (s : State) : Out :=
  runCmd 3 ch (fun s q c =>
    if heldBack s [] q.part q.fn c.dst c.len then none else
    let pat := bytesOfNat 8 c.src
    let (s, ok) := enginePut s q.cmdWho c.dst ((List.range c.len).map fun i => pat.getD (i % 8) 0)
    some (s, if ok then 0 else 2, 0)) s

/-- The launch that issued an entry. -/
def QueueReg.launchOf (q : QueueReg) (seq : Nat) : Nat := ((q.posted.find? (·.1 == seq)).map (·.2.1)).getD 0
/-- The destinations of a MCAST by bit: the cell that can take the bytes, or none (R249). -/
def mcastDst (s : State) (q : QueueReg) (c : Cmd) (j : Nat) : Option Cell :=
  (s.launch? (q.launchOf c.seq)).bind fun l =>
    let m := l.rcd.cohort
    if m ≤ j then none else
    (s.cells.find? fun x => x.launch == l.id && x.index == c.cell / m * m + j).filter fun x =>
      decide (0 < x.scratchSize) && decide (c.dst + c.len ≤ x.scratchSize)
def execEngineMcast (ch : Nat) (s : State) : Out :=
  runCmd 2 ch (fun s q c =>
    if heldBack s [] q.part q.fn c.src c.len then none else
    match homeRead s q.cmdWho c.src .read c.len with
    | .error _ => some (s, 2, 0)
    | .ok bs =>
      let s := touchHomes s q.cmdWho none false .read c.src c.len
      let js := (List.range 8).filter fun j => c.dmask.testBit j
      let bad := js.filter fun j => (mcastDst s q c j).isNone
      let s := js.foldl (fun s j => match mcastDst s q c j with
        | none => s
        | some x => s.setCell x.id fun x => { x with scratch := putBytes x.scratch c.dst bs }) s
      some (s, if bad.isEmpty then 0 else 3, bad.foldl (fun m j => m + 2 ^ j) 0)) s

/-- GATHER into memory, under the list rules (R174 to R178, R246): a noted entry's element is zero, and the command ends
with STATUS 2. -/
def execEngineGather (ch : Nat) (s : State) : Out :=
  runCmd 4 ch (fun s q c =>
    let held (a n : Nat) : Bool := heldBack s [] q.part q.fn a n
    if held c.src (32 + 4 * c.len) then none else
    match readList (fun a n => homeRead s q.cmdWho a .read n) (2 ^ 40) 0 c.src c.len 1 with
    | .error _ => some (s, 2, 0)
    | .ok l =>
      let n := 2 ^ l.esz
      if c.dst % n ≠ 0 then some (s, 1, 0)
      else if held c.dst (n * l.entries.length) || l.entries.any (fun ea => held ea 4
          || match homeNat s q.cmdWho ea 4 with | .ok i => decide (i < l.limit) && held (elemAddr l i) n | .error _ => false) then none
      else
        let elems := l.entries.map fun ea =>
          match homeNat s q.cmdWho ea 4 with
          | .error _ => (List.replicate n (0 : Byte), true)
          | .ok i =>
            if i = 0xFFFFFFFF then (List.replicate n 0, false)
            else if l.limit ≤ i then (List.replicate n 0, true)
            else match homeRead s q.cmdWho (elemAddr l i) .read n with
              | .error _ => (List.replicate n 0, true)
              | .ok bs => (bs, false)
        let s := touchHomes s q.cmdWho none false .read c.src l.head
        let s := l.entries.foldl (fun s ea => match homeNat s q.cmdWho ea 4 with
          | .ok i => touchHomes (if i < l.limit then touchHomes s q.cmdWho none false .read (elemAddr l i) n else s) q.cmdWho none false .read ea 4
          | .error _ => s) s
        let (s, ok) := enginePut s q.cmdWho c.dst (elems.flatMap (·.1))
        some (s, if ok && !elems.any (·.2) then 0 else 2, 0)) s

/-- Add to a signal at its home (R237, R244, R248); false where it faults. -/
def addSignal (s : State) (who : Who) (a : Nat) (v : Nat) : State × Bool :=
  match homeNat s who a 8 with
  | .error _ => (s, false)
  | .ok old =>
    match homeWrite (touchHomes s who none false .write a 8) who none a (bytesOfNat 8 ((old + v) % 2 ^ 64)) with
    | .ok s => (s, true)
    | .error _ => (s, false)
def execEngineSgnl (ch : Nat) (s : State) : Out :=
  runCmd 6 ch (fun s q c =>
    if heldBack s [] q.part q.fn c.dst 8 then none else
    let (s, ok) := addSignal s q.cmdWho c.dst c.src
    some (s, if ok then 0 else 2, 0)) s

/-! ### Collectives -/

/-- Reduce the values of a level of the tree in groups of fan-in f (R292, R293). -/
def treeLevel (op : AtomOp) (f : Nat) : Nat → List Nat → List Nat
  | 0, l => l
  | _, [] => []
  | fuel + 1, l =>
    match l.take (max f 2) with
    | [] => []
    | x :: r => r.foldl (oper op) x :: treeLevel op f fuel (l.drop (max f 2))
def treeReduce (op : AtomOp) (f : Nat) : Nat → List Nat → Nat
  | _, [] => 0
  | _, [x] => x
  | 0, x :: _ => x
  | fuel + 1, l => treeReduce op f fuel (treeLevel op f l.length l)

/-- One chunk of a COLL (R292): others holds the other survivors' elements of the chunk, member after member in the tree's
order; a count that does not fit is a member whose LEN or OPC differs. A member whose descriptor is not this device's sends
chunks with another digest (R293). -/
def collChunk (s : State) (q : QueueReg) (c : Cmd) (e : Engine) (others : List DWord) : Option (State × Engine) :=
  let ended (s : State) (st : Nat) : Option (State × Engine) := some (s, { queue := e.queue, stage := .performed st 0 })
  let own := s.deviceNumber
  match combOp c.opc, (s.part? q.part).bind fun p => p.groups.find? (·.1 == c.group) with
  | some (op, w), some (_, members, fan) =>
    let live := members.filter fun m => !e.failedMembers.contains m
    let n := min 4096 (c.len - e.at_) / w
    if s.peers.any fun p => p.1 != own && live.contains p.1 && p.2.1 == c.group && p.2.2 != (members, fan) then ended s 1
    else if others.length ≠ (live.length - 1) * n then ended s 1
    else if heldBack s [] q.part q.fn (c.src + e.at_) (n * w) || heldBack s [] q.part q.fn (c.dst + e.at_) (n * w) then none
    else match homeRead s q.cmdWho (c.src + e.at_) .read (n * w) with
      | .error _ => ended s 2
      | .ok bs =>
        let mine (i : Nat) : Nat := natOfBytes ((bs.drop (w * i)).take w)
        let rest := live.filter (· != own)
        let val (m i : Nat) : Nat := if m = own then mine i else (others.getD (rest.idxOf m * n + i) 0).toNat % 2 ^ (8 * w)
        let out := (List.range n).flatMap fun i => bytesOfNat w (treeReduce op fan 64 (live.map fun m => val m i))
        let s := touchHomes s q.cmdWho none false .read (c.src + e.at_) (n * w)
        let (s, ok) := enginePut s q.cmdWho (c.dst + e.at_) out
        if !ok then ended s 2
        else if c.len ≤ e.at_ + n * w then ended s (if e.failedMembers.isEmpty then 0 else 3)
        else some (s, { e with at_ := e.at_ + n * w })
  | _, _ => ended s 1
def execEngineColl (ch : Nat) (others : List DWord) (s : State) : Out :=
  match chainView s ch with
  | none => .next s
  | some v =>
    let e := s.engine ch
    match e.stage, v.cmd with
    | .acquired, .ok c =>
      if c.kind ≠ 5 then .next s
      else if malformed v.hdr.engine c then .next (s.setEngine { queue := ch, stage := .performed 1 0 })
      else match collChunk s v.reg c e others with
        | none => .next s
        | some (s, e) => .next (s.setEngine e)
    | _, _ => .next s
/-- COLL_MEMBER_FAILURE (R292): the chunks from the one in progress onward exclude the member. -/
def execCollMemberFailure (ch dev : Nat) (s : State) : Out :=
  match chainView s ch with
  | none => .next s
  | some v =>
    let e := s.engine ch
    match e.stage, v.cmd with
    | .acquired, .ok c =>
      let members := (((s.part? v.reg.part).bind fun p => p.groups.find? (·.1 == c.group)).map (·.2.1)).getD []
      if c.kind = 5 ∧ members.contains dev ∧ dev ≠ s.deviceNumber ∧ !e.failedMembers.contains dev then
        .next (s.setEngine { e with failedMembers := e.failedMembers ++ [dev] })
      else .next s
    | _, _ => .next s

/-! ### Release and completion -/

/-- ENGINE_REL (R200): the writes are at their homes; at system scope they reach memory too. -/
def execEngineRel (ch : Nat) (s : State) : Out :=
  match (s.engine ch).stage, chainView s ch with
  | .performed st fm, some v =>
    let sys := match v.cmd with | .ok c => c.rels == 4 | .error _ => false
    .next ((if sys then writeBackAll s (s.asid v.reg.part v.reg.fn) else s).setEngine { queue := ch, stage := .released st fm })
  | _, _ => .next s

/-- The completion record of command seq tells its status to every fibre that waits for it, in a saved context too (R248,
R317). -/
def wakeEwaits (s : State) (ch : Nat) (seq : Word) (err : Bool) : State :=
  { s with cells := s.cells.map fun c => { c with fibres := c.fibres.map fun f =>
      match f.status with
      | .blocked (.ewait h n none) => if h = ch ∧ n = seq then { f with status := .blocked (.ewait h n (some err)) } else f
      | _ => f } }

/-- Write bytes of a header or an entry; a byte that cannot be written is dropped. -/
def devPut (s : State) (q : QueueReg) (a : Nat) (bs : List Byte) : State :=
  match homeWrite (touchHomes s q.who none false .write a bs.length) q.who none a bs with
  | .ok s => s
  | .error _ => s
/-- ENGINE_COMPLETION (R248): STATUS and FMASK, DONE, the error fields, SIG, the waiters, HEAD, in this order. -/
def execEngineCompletion (ch : Nat) (s : State) : Out :=
  match (s.engine ch).stage, chainView s ch with
  | .released st fm, some v =>
    let q := v.reg
    let seq := (v.hdr.head + 1) % 2 ^ 32
    let sig := match v.cmd with | .ok c => if inWindows c.sig && c.sig % 8 == 0 then c.sig else 0 | .error _ => 0
    if sig != 0 && heldBack s [] q.part q.fn sig 8 then .next s else
    let s := devPut s q (v.slot + 36) (bytesOfNat 1 st ++ bytesOfNat 1 fm)
    let s := devPut s q (q.addr + 28) (bytesOfNat 4 seq)
    let s := if st = 0 then s else devPut s q (q.addr + 32) (bytesOfNat 4 seq ++ bytesOfNat 1 st ++ bytesOfNat 1 fm)
    let s := if sig = 0 then s else (addSignal s q.cmdWho sig (2 ^ 64 - 1)).1
    let s := wakeEwaits s ch (BitVec.ofNat 32 seq) (st != 0)
    let s := devPut s q (q.addr + 24) (bytesOfNat 4 seq)
    let s := s.setQueue ch fun q => { q with posted := q.posted.filter (·.1 != seq) }
    .next (afterAll (s.setEngine { queue := ch }))
  | _, _ => .next s

end Sys2Proof.Machine
end

