-- ==== Sys2Proof/Machine/Sched.lean ====
section
/-! DEFINITION. Placement and dispatch: CELL_DISPATCH, PLATE_DISPATCH, FAIRT_EXPIRY, CLUSTER_SPLIT_SWITCH (R23 to R29, R36 to
R43, R47 to R50, R73, R75 to R78, R84, R85, R152, R157, R158, R302, R342). -/

namespace Sys2Proof.Machine

/-! ### Which cell is next -/

/-- The share of a die: the first index, and one past the last (R41). -/
def Launch.share (l : Launch) (die : Nat) : Nat × Nat :=
  let b (i : Nat) : Nat := l.bounds.getD i l.n
  match die with
  | 0 => (0, b 0)
  | 1 => (b 0, b 1)
  | 2 => (b 1, b 2)
  | _ => (b 2, l.n)
def Launch.inShare (l : Launch) (die i : Nat) : Bool := decide ((l.share die).1 ≤ i) && decide (i < (l.share die).2)

/-- Is a residual above the launch's threshold? -/
def Launch.above (l : Launch) (e : Entry) : Bool := !settledRho e.rho (if l.kind = .plate then l.rcd.eps else 0)
/-- A cell that may be dispatched, and whether it is due (R75, R85). -/
def Launch.isDue (l : Launch) (e : Entry) : Bool := !e.running && l.above e && decide (l.rcd.fairW ≤ e.passed)
/-- Has the oldest record of a queue stood for FAIRT (R85)? -/
def Launch.aged (l : Launch) (now : Nat) (e : Entry) : Bool :=
  l.rcd.fairT != 0 && decide (0 < e.occ) && decide (e.stamps.headD now + l.rcd.fairT * ticksPerMicro ≤ now)
def Launch.candidate (l : Launch) (now : Nat) (e : Entry) : Bool :=
  !e.running && l.above e
  && (l.kind != .expert || decide (l.rcd.qThr ≤ e.occ) || e.runnableByTime || l.aged now e || l.isDue e)
/-- The head of a launch on a die: its index, whether it is due, its residual (R75, R78, R84). A cell that waits at the head
keeps it (R77). -/
def Launch.head (l : Launch) (now die : Nat) : Option (Nat × Bool × Word) :=
  if !l.installed || l.unplating || l.dvfsWait then none else
  let w := sget 0 l.waiting die
  if w ≠ 0 then (l.cells[w - 1]?).map fun e => (w - 1, l.isDue e, if l.kind = .grid then infWord else e.rho) else
  let mine := l.cells.zipIdx.filter fun x => l.inShare die x.2
  match l.kind with
  | .grid => ((mine.find? fun x => !x.1.running && !x.1.ended)).map fun x => (x.2, false, infWord)
  | _ =>
    let cs := mine.filter fun x => l.candidate now x.1
    let due := cs.filter fun x => l.isDue x.1
    let best (xs : List (Entry × Nat)) (key : Entry → Nat) : Option (Entry × Nat) := xs.foldl (fun m x =>
      match m with
      | none => some x
      | some y => if key y.1 < key x.1 then some x else some y) none
    match best due (·.passed) with
    | some x => some (x.2, true, x.1.rho)
    | none => (best cs (·.rho.toNat)).map fun x => (x.2, false, x.1.rho)

/-! ### Where a cell fits -/

def Record.scratch (r : Record) : Nat := 131072 * r.split
def splitOf (s : State) (c : Nat) : Nat := sget 0 s.splits c
def residents (s : State) (c : Nat) : List Cell := s.cells.filter fun x => x.resident && x.cluster == c
/-- The fibres that a dispatched cell puts on a quadrant (R25). -/
def fibresOn (n q : Nat) : Nat := ((List.range n).filter fun i => i / 32 % 4 == q).length
/-- Can the cluster hold a cell of function fn at its split (R16, R36, R157)? Every cell there that takes room from it stands at that
split, and one with scratch stands alone. -/
def roomOn (s : State) (c fn : Nat) (r : Record) : Bool :=
  (List.range 4).all (fun q => decide (quadLoad s c q + fibresOn r.fibres q ≤ 512) && decide (fibresOn r.fibres q ≤ (freeSlots s c q fn).length))
  && (occupants s c fn).all fun x => r.split == 0 && x.scratchSize == 0
/-- The clusters of a partition on a die that may take cells. -/
def clustersOn (s : State) (part die : Nat) : List Nat :=
  match s.part? part with
  | none => []
  | some p => p.clusters.filter fun c => dieOf c == die && (s.island (islandOf c)).mode == .running
/-- The cluster that a cell is placed on, among some (R77, R158). -/
def chooseCluster (s : State) (cs : List Nat) (fn : Nat) (r : Record) : Option Nat :=
  let free := cs.filter fun c => !s.draining.any (·.1 == c)
  (free.find? fun c => splitOf s c == r.split && roomOn s c fn r).or (free.find? fun c => (occupants s c fn).isEmpty && roomOn s c fn r)

/-! ### A cell's placement -/

/-- The tiles of the cluster's units as a cell finds them (R342): what a function with a resident cell there has in them, as it
stands; of what its own function left, each element or zero; nothing of another function. -/
def placeTiles (s : State) (c part fn : Nat) : State :=
  let live (o : Nat × Nat) : Bool := (residents s c).any fun x => (x.part, x.fn) == o
  let liveNum (n : Nat) : Bool := (residents s c).any fun x => mxOwner x.part x.fn == n
  let s' := (List.range 32).foldl (fun s i =>
    let (u, t) := (4 * c + i / 8, i % 8)
    let x := s.tile u t
    s.setTile u t (x.keep (fun n => liveNum n || n == mxOwner part fn)
      (fun e => liveNum (x.writer e) || Config.freeBit (s.free + 1024 * i + e)) ((x.leftBy.map live).getD false) (x.leftBy == some (part, fn)))) s
  { s' with free := s.free + 32768 }
/-- The scratch that a cell finds (R47, R157): its frame zero, each other byte zero or left by its own function there. -/
def placeScratch (s : State) (c part fn : Nat) (r : Record) : SMap Byte × Nat :=
  let left := ((s.leftScratch.find? (·.1 == (c, part, fn))).map (·.2)).getD []
  let top := cellFrameOff r.scratch r.lfSize
  (left.filter (fun x => decide (x.1 < top) && Config.freeBit (s.free + x.1)), s.free + r.scratch)

/-- The live plate frame of a launch, and the live cohort frame of a cohort (R44). -/
def State.plateFrame (s : State) (l : Nat) : Option Frame := s.frames.find? fun f => f.depth == 1 && f.launch == l
def State.cohortFrame (s : State) (l coh : Nat) : Option Frame := s.frames.find? fun f => f.depth == 2 && f.plc == .vault && f.launch == l && f.cohort == coh
def Launch.cohortOf (l : Launch) (i : Nat) : Nat := i / max l.rcd.cohort 1

/-- The display register of a frame at an address in the vault or the global window. -/
def memDesc (scope slots base : Nat) : DWord :=
  mkDesc (match window base with | some (.vault _) => 1 | _ => 2) scope slots base
/-- The three display registers of a dispatched fibre (R44, R48). home is the cohort's home cluster. -/
def dispatchDisp (r : Record) (home : Nat) : SMap DWord :=
  let d1 : DWord := if r.pfSize = 0 then 0 else memDesc 2 r.pfSize r.pfBase.toNat
  let d2 : DWord := if r.cfSize = 0 then 0 else mkDesc 1 1 r.cfSize (vaultBase + vaultSize * home + r.cfOff)
  let d3 : DWord := if r.lfSize = 0 then 0 else mkDesc 0 0 r.lfSize (scratchBase + cellFrameOff r.scratch r.lfSize)
  sput 0 (sput 0 (sput 0 [] 1 d1) 2 d2) 3 d3

/-- Put cell i of a launch on a cluster (R23 to R29, R36, R47, R152, R258, R302). hold asks its fibres to acquire first. -/
def placeCell (s : State) (l : Launch) (i c home : Nat) (hold : Bool) : State :=
  let r := l.rcd
  let id := s.next
  let s := placeTiles s c l.part l.fn
  let (scr, free) := placeScratch s c l.part l.fn r
  let e := (l.cells[i]?).getD {}
  let disp := dispatchDisp r home
  let k := (l.consts.zipIdx.foldl (fun (m : SMap Word) (x : Word × Nat) => if x.2 < 48 then sput 0 m x.2 x.1 else m) [])
  let k := r.gen.zipIdx.foldl (fun (m : SMap Word) (x : Word × Nat) => sput 0 m (60 + x.2) x.1) k
  let entry := if l.kind = .grid ∨ r.entryTab = 0 then r.entry else e.entry
  let ref1 := ((s.plateFrame l.id).map (·.id)).getD 0
  let ref2 := ((s.cohortFrame l.id (l.cohortOf i)).map (·.id)).getD 0
  let refs : SMap Nat := sput 0 (sput 0 (sput 0 [] 1 (if r.pfSize = 0 then 0 else ref1)) 2 (if r.cfSize = 0 then 0 else ref2)) 3
    (if r.lfSize = 0 then 0 else id + 32)
  let cell : Cell := {
    id := id, launch := l.id, index := i, part := l.part, fn := l.fn, cluster := c, locked := r.locked, k := k
    scratchSize := r.scratch, scratch := scr, rho := e.rho, dispatched := id, prio := l.prio, cohort := l.cohortOf i
    chans := r.chan.zipIdx.filterMap fun (n, j) => if n = 0 then none else some (j, { cap := n }) }
  let s := { s with cells := s.cells ++ [cell], next := id + 1, free := free }.setSplit c r.split
  let s := (List.range r.fibres).foldl (fun s n =>
    let f : Fibre := {
      idx := n, pc := entry, hatch := id + n / 32, lane := n % 32, sup := l.fn == 64, disp := disp, refs := refs, waitAt := entry, since := s.now
      stack := sput 0 (sput 0 [] 0 (BitVec.ofNat 32 n)) 1 (BitVec.ofNat 32 i)
      joinSet := (List.range r.fibres).filter fun m => m / 32 == n / 32
      slot := (freeSlot s c (n / 32 % 4) l.fn).getD 0
      status := if hold && !s.invalsClear c then .fence false false .coh [] else .ready }
    s.setCell id fun x => { x with fibres := x.fibres ++ [f] }) s
  let s := { s with next := id + 32 }
  let s := if r.lfSize = 0 then s else
    let f : Frame := { id := id + 32, plc := .scratch, cell := id, part := l.part, fn := l.fn
                       base := scratchBase + cellFrameOff r.scratch r.lfSize, slots := r.lfSize, depth := 3, count := r.fibres }
    { s with frames := s.frames ++ [f], next := s.next + 1 }
  let s := s.setFrame ref1 fun f => { f with count := f.count + if r.pfSize = 0 then 0 else r.fibres }
  let s := s.setFrame ref2 fun f => { f with count := f.count + if r.cfSize = 0 then 0 else r.fibres }
  s.setLaunch l.id fun l => l.setEntry i fun e => { e with running := true, arrivals := 0, failed := false }

/-- The cohort frame of a placed cohort, all zero (R44, R47). -/
def placeCohortFrame (s : State) (l : Launch) (coh home : Nat) : State :=
  if l.rcd.cfSize = 0 then s else
  let base := vaultBase + vaultSize * home + l.rcd.cfOff
  let f : Frame := { id := s.next, plc := .vault, cell := 0, part := l.part, fn := l.fn, base := base, slots := l.rcd.cfSize, depth := 2, count := 0
                     launch := l.id, cohort := coh }
  let s := { s with frames := s.frames ++ [f], next := s.next + 1 }
  match homeWrite s ⟨l.part, l.fn, true⟩ none base (List.replicate (4 * l.rcd.cfSize) 0) with
  | .ok s => s
  | .error _ => s

/-- Does the launch's dispatch acquire (R73, R236)? -/
def dispatchAcquires (s : State) (l : Launch) : Bool :=
  l.kind != .grid || ((s.packets.find? (·.id == l.packet)).map fun p => bits (natOfBytes p.bytes) 7 5 != 0).getD false
/-- The clusters for the cells of a gang, one after another within some clusters; none where one does not fit. -/
def gangPlaces (s : State) (l : Launch) (cs : List Nat) : List Nat → Option (List (Nat × Nat))
  | [] => some []
  | i :: rest =>
    match chooseCluster s cs l.fn l.rcd with
    | none => none
    | some c => (gangPlaces (placeCell s l i c c false) l cs rest).map ((i, c) :: ·)
/-- The cells dispatched together with a grid's head: its cohort's cells not yet dispatched (R38). -/
def gangOf (l : Launch) (die i : Nat) : List Nat :=
  let m := max l.rcd.cohort 1
  (List.range m).filterMap fun j =>
    let k := i / m * m + j
    match l.cells[k]? with
    | some e => if l.inShare die k && !e.running && !e.ended then some k else none
    | none => none
/-- The places of the head of a launch on a die (R36, R38, R77, R158); none where it cannot be placed now. -/
def placesFor (s : State) (l : Launch) (die i : Nat) : Option (List (Nat × Nat)) :=
  let cs := clustersOn s l.part die
  if l.kind = .grid ∧ 1 < l.rcd.cohort then
    let running := s.cells.filter fun c => c.launch == l.id && c.cohort == i / l.rcd.cohort
    let islands := match running with
      | c :: _ => [islandOf c.cluster]
      | [] => (cs.map islandOf).eraseDups
    islands.findSome? fun n => gangPlaces s l (cs.filter fun c => islandOf c == n) (gangOf l die i)
  else (chooseCluster s cs l.fn l.rcd).map fun c => [(i, c)]

/-- May a function's cells be placed now (R276, R302)? -/
def maySchedule (s : State) (part fn : Nat) : Bool :=
  match s.part? part, s.fn? part fn with
  | some p, some f => !f.resetting && (fn == 64 || (p.holder == some fn && !p.swapping))
  | _, _ => false
/-- Does head a of one launch go before head b of another of its function and class (R78)? -/
def headBefore (x y : Launch) (a b : Nat × Bool × Word) : Bool :=
  if a.2.1 != b.2.1 then a.2.1
  else if !a.2.1 && a.2.2 != b.2.2 then decide (b.2.2.toNat < a.2.2.toNat)
  else decide (x.seq < y.seq)
/-- Is the head of a launch on a die next (R78)? A head that cannot be placed now holds nothing else up. -/
def isNext (s : State) (l : Launch) (die : Nat) (h : Nat × Bool × Word) : Bool :=
  s.launches.all fun m => m.id == l.id || m.part != l.part || !maySchedule s m.part m.fn
    || (List.range 4).all fun d =>
      match m.head s.now d with
      | none => true
      | some k =>
        !(decide (m.prio < l.prio) || (m.prio == l.prio && m.fn == l.fn && d == die && headBefore m l k h)) || (placesFor s m d k.1).isNone

/-- The cluster whose vault holds the cohort's frame: that of its lowest-indexed cell when the cohort was first placed (R38). Where a
cell that R278 starts again finds the frame retired, a new one is made above that cell's new cluster (DESIGN CHOICE: R38, R44 and R278 do
not say where a cohort's frame then lives). -/
def cohortHome (s : State) (l : Launch) (places : List (Nat × Nat)) : Nat :=
  match s.cohortFrame l.id (l.cohortOf ((places.head?.map (·.1)).getD 0)) with
  | some f => (f.base - vaultBase) / vaultSize
  | none => ((places.head?).map (·.2)).getD 0
/-- Is the frame of a cohort to be placed held back (R172, R199)? -/
def frameHeld (s : State) (l : Launch) (places : List (Nat × Nat)) : Bool :=
  l.rcd.cfSize != 0 && heldBack s [] l.part l.fn (vaultBase + vaultSize * cohortHome s l places + l.rcd.cfOff) (4 * l.rcd.cfSize)
/-- Place the head's cells; a plate counts whom it passed over (R76). -/
def dispatchAt (s : State) (l : Launch) (die : Nat) (places : List (Nat × Nat)) : State :=
  let coh := l.cohortOf ((places.head?.map (·.1)).getD 0)
  let home := cohortHome s l places
  let s := if (s.cohortFrame l.id coh).isNone then placeCohortFrame s l coh home else s
  let s := s.setLaunch l.id fun l =>
    let l := { l with waiting := sput 0 l.waiting die 0 }
    if l.kind = .grid then l else
    { l with cells := l.cells.zipIdx.map fun (e, i) =>
        if !l.inShare die i then e
        else if places.any (·.1 == i) || e.running || !l.above e then { e with passed := 0 }
        else { e with passed := e.passed + 1 } }
  places.foldl (fun s x => placeCell s l x.1 x.2 home (dispatchAcquires s l)) s

/-- The cluster that the scheduler drains for a waiting cell (R158). -/
def drainChoice (s : State) (l : Launch) (die : Nat) : Option Nat :=
  let load (c : Nat) : Nat := ((occupants s c l.fn).map fun x => x.fibres.length).sum
  if s.draining.any (fun x => dieOf x.1 == die && x.2 == l.id) then none else
  ((clustersOn s l.part die).filter fun c => splitOf s c != l.rcd.split && !s.draining.any (·.1 == c)).foldl (fun m c =>
    match m with
    | none => some c
    | some b => if load c < load b then some c else some b) none

/-- A dispatch of the head of a launch on a die, when it is next: placed, or it waits there and a cluster may begin to drain for
it. -/
def dispatch (launch die : Nat) (grid : Bool) (s : State) : Out :=
  match s.launch? launch with
  | none => .next s
  | some l =>
    if (l.kind == .grid) != grid || !maySchedule s l.part l.fn then .next s else
    match l.head s.now die with
    | none => .next s
    | some h =>
      if !isNext s l die h then .next s else
      match placesFor s l die h.1 with
      | some ps => .next (if frameHeld s l ps then s else dispatchAt s l die ps)
      | none =>
        let s := s.setLaunch launch fun l => { l with waiting := sput 0 l.waiting die (h.1 + 1) }
        match drainChoice s l die with
        | none => .next s
        | some c => .next { s with draining := s.draining ++ [(c, launch)] }
/-- CELL_DISPATCH (R38, R43, R84). -/
def execCellDispatch (launch die : Nat) (s : State) : Out := dispatch launch die true s
/-- PLATE_DISPATCH (R73, R75 to R78). -/
def execPlateDispatch (launch die : Nat) (s : State) : Out := dispatch launch die false s

/-- FAIRT_EXPIRY (R85). -/
def execFairtExpiry (launch cell : Nat) (s : State) : Out :=
  match s.launch? launch with
  | none => .next s
  | some l =>
    match l.cells[cell]? with
    | none => .next s
    | some e =>
      if l.kind = .expert && l.aged s.now e then
        .next (s.setLaunch launch fun l => l.setEntry cell fun e => { e with runnableByTime := true })
      else .next s

/-- CLUSTER_SPLIT_SWITCH (R158): the drained cluster takes the split of the waiting cell, which is placed there. L1 holds no
dirty line in this model, every store being sent to its home. For a cell of the physical function the cells of saved contexts end
first too. -/
def execClusterSplitSwitch (cluster : Nat) (s : State) : Out :=
  match s.draining.find? (·.1 == cluster) with
  | none => .next s
  | some (_, launch) =>
    if !(occupants s cluster (((s.launch? launch).map (·.fn)).getD 0)).isEmpty then .next s else
    let s := { s with draining := s.draining.filter (·.1 != cluster) }
    match s.launch? launch with
    | none => .next s
    | some l =>
      let s := s.setSplit cluster l.rcd.split
      let die := dieOf cluster
      match l.head s.now die with
      | none => .next s
      | some h =>
        let put (ps : List (Nat × Nat)) : Out := .next (if frameHeld s l ps then s else dispatchAt s l die ps)
        if !maySchedule s l.part l.fn || !isNext s l die h then .next s
        else if l.rcd.cohort ≤ 1 && roomOn s cluster l.fn l.rcd then put [(h.1, cluster)]
        else match placesFor s l die h.1 with
          | some ps => put ps
          | none => .next s

end Sys2Proof.Machine
end

