-- ==== Sys2Proof/Machine/Packets.lean ====
section
/-! DEFINITION. Queues and packets: reading, the checks, GRID, PLATE, BARRIER, UNPLATE and NOP packets, completion, the
doorbells and the commands of QUEUE.CMD (R42, R46, R60 to R67, R79, R84, R88, R229 to R241, R243, R276, R302, R372, R373). -/

namespace Sys2Proof.Machine

/-! ### Operating points (R238, R299) -/

/-- An island's clock takes a point; the cycles counted so far stay (R3). -/
def State.setPoint (s : State) (i p : Nat) : State :=
  s.setIsland i fun x => { x with baseCycles := x.cycles s.grade20 s.now, baseTick := s.now, point := p }
/-- Does an action of R299 hold the island back? -/
def Island.throttled (x : Island) : Bool := x.hot || x.current
/-- A DVFS hint for an island: a throttled one takes it as the point to return to, another begins to change. -/
def hintIsland (p : Nat) (s : State) (i : Nat) : State :=
  s.setIsland i fun x =>
    if x.throttled then { x with hint := p } else { x with hint := p, settling := p != x.point }
/-- The islands of a partition on a die. -/
def islandsOn (s : State) (part : Nat) (p : Nat → Bool) : List Nat :=
  (((s.part? part).map (·.islands)).getD []).filter fun i => p (i / 4)
/-- The dies whose share of a launch is not empty (R42). -/
def Launch.hasShare (l : Launch) (die : Nat) : Bool := decide ((l.share die).1 < (l.share die).2)
/-- A launch whose hinted islands are all stable may dispatch (R238). -/
def releaseDvfs (s : State) : State :=
  { s with launches := s.launches.map fun l =>
      if l.dvfsWait && (islandsOn s l.part l.hasShare).all (fun i => !(s.island i).settling) then { l with dvfsWait := false } else l }
/-- DVFS_SETTLED (R238): the new point of an island is stable. -/
def execDvfsSettled (island : Nat) (s : State) : Out :=
  if (s.island island).settling then
    .next (releaseDvfs ((s.setPoint island (s.island island).hint).setIsland island fun x => { x with settling := false }))
  else .next s

/-! ### Packets (R233, R234) -/

def Packet.field (p : Packet) (hi lo : Nat) : Nat := bits (natOfBytes p.bytes) hi lo
def Packet.type (p : Packet) : Nat := p.field 3 0
def Packet.record (p : Packet) : Nat := p.field 191 128
/-- The signal addresses S0 to S4 of a barrier. -/
def Packet.signal (p : Packet) (k : Nat) : Nat := p.field (191 + 64 * k) (128 + 64 * k)
def scopeOk (n : Nat) : Bool := n == 0 || n == 3 || n == 4
/-- A packet that fails the checks made as it is read (R235). -/
def Packet.bad (p : Packet) : Bool :=
  let zero (hi lo : Nat) : Bool := p.field hi lo == 0
  decide (4 < p.type) || decide (4 < p.field 15 13) || !scopeOk (p.field 10 8) || !scopeOk (p.field 7 5) || !zero 31 16
  || p.field 127 64 % 8 != 0
  || match p.type with
    | 0 => !zero 63 32 || !zero 511 128
    | 1 | 2 => p.record % 256 != 0 || !zero 511 288
    | 3 => !zero 63 32 || !zero 511 448 || (List.range 5).any fun k => p.signal k % 8 != 0
    | _ => !zero 63 32 || p.record % 256 != 0 || !zero 511 192

/-- The partition vector (R42). A launch of no cells is not rejected. -/
def vectorBad (s : State) (part n m : Nat) (b : List Nat) : Bool :=
  let (x, y, z) := (b.getD 0 0, b.getD 1 0, b.getD 2 0)
  n != 0 && (!(decide (x ≤ y) && decide (y ≤ z) && decide (z ≤ n)) || b.any (fun i => decide (i < n) && i % max m 1 != 0)
    || (List.range 4).any fun d =>
      let lo := if d = 0 then 0 else b.getD (d - 1) 0
      let hi := if d = 3 then n else b.getD d 0
      decide (lo < hi) && (islandsOn s part (· == d)).isEmpty)
/-- The checks of a packet of a partition that its own bytes decide, made as it is read (R42, R235): whether boundaries are
multiples of the cohort size is seen once the record is. -/
def Packet.badIn (p : Packet) (s : State) (part : Nat) : Bool :=
  p.bad || ((p.type == 1 || p.type == 2) && vectorBad s part (p.field 63 32) 1 [p.field 223 192, p.field 255 224, p.field 287 256])

def State.packet? (s : State) (p : Nat) : Option Packet := s.packets.find? (·.id == p)
def State.setPacket (s : State) (p : Nat) (f : Packet → Packet) : State :=
  { s with packets := s.packets.map fun x => if x.id = p then f x else x }
def State.packetDone (s : State) (p status : Nat) : State := s.setPacket p fun x => { x with stage := .done status }
def State.queueOf (s : State) (p : Packet) : Option QueueReg := s.queues.find? fun q => q.id == p.queue && !q.chain
/-- Is a queue being unregistered? It then reads no further packet. -/
def closing (s : State) (q : QueueReg) : Bool :=
  s.parts.any fun p => p.id == q.part && p.queueBusy && !p.queueRan && bits p.queueCmd.toNat 2 0 == 2
    && p.queueAddr.toNat == q.addr && (if bits p.queueCmd.toNat 15 15 = 1 then 64 else bits p.queueCmd.toNat 13 8) == q.fn

/-- A packet has launched (R236): the next one may be read. -/
def Packet.launchedYet (p : Packet) : Bool := p.stage == .launched
/-- PACKET_READ (R231, R235, R236, R240, R372): the next packet of a queue, with the checks made as it is read. -/
def execPacketRead (q : Nat) (s : State) : Out :=
  match s.queues.find? fun x => x.id == q && !x.chain with
  | none => .next s
  | some r =>
    if heldBack s [] r.part r.fn r.addr 64 || closing s r || (s.fn? r.part r.fn).isNone then .next s else
    match homeRead s r.who r.addr .read 64 with
    | .error _ => .next s
    | .ok bs =>
      let h := qHdrOf bs
      let slot := h.ring + 64 * (h.read % h.size)
      if h.write ≤ h.read || h.st == 0 || s.packets.any (fun p => p.queue == q && !p.launchedYet) || heldBack s [] r.part r.fn slot 64 then .next s
      else
        let bytes := homeRead s r.who slot .read 64
        let known := match bytes with | .ok _ => true | .error _ => false
        let p : Packet := {
          id := s.next, queue := q, index := h.read, known := known
          bytes := match bytes with | .ok b => b | .error _ => []
          parent := (r.posted.find? (·.1 == h.read)).map (·.2) }
        let p := { p with
          stage := if h.st = 2 ∨ ((s.fn? r.part r.fn).map (·.resetting)).getD false then .done 3 else if !known then .done 6 else if p.badIn s r.part then .done 1 else .read
          held := p.field 4 4 == 1 }
        let s := devPut (touchHomes s r.who none false .read slot 64) r (r.addr + 24) (bytesOfNat 8 (h.read + 1))
        let s := s.setQueue q fun x => { x with posted := x.posted.filter (·.1 != h.read) }
        .next { s with packets := s.packets ++ [p], next := s.next + 1 }

/-- PACKET_BAR_RELEASE (R236): every earlier packet of the queue has completed. -/
def execPacketBarRelease (p : Nat) (s : State) : Out :=
  match s.packet? p with
  | none => .next s
  | some x =>
    if x.held && !s.packets.any (fun y => y.queue == x.queue && decide (y.index < x.index)) then
      .next (s.setPacket p fun x => { x with held := false })
    else .next s

/-- Has the poster of a packet completed (R242)? For a grid its last cell has ended; for a plate its update has. -/
def parentDone (s : State) (p : Packet) : Bool :=
  match p.parent with
  | none => true
  | some (l, c) =>
    match s.launch? l with
    | none => true
    | some l => if l.kind = .grid then l.cells.all (·.ended) else (s.cell? c).isNone
/-- A packet that has passed its checks and may start, with its queue. -/
def startable (s : State) (p : Nat) (ty : Nat) : Option (Packet × QueueReg) :=
  match s.packet? p with
  | none => none
  | some x =>
    if x.stage == .read && !x.held && x.type == ty && parentDone s x then (s.queueOf x).map fun q => (x, q) else none

/-! ### The launch record (R46, R61, R62, R146, R241) -/

def cut (bs : List Byte) (off n : Nat) : List Byte := (bs.drop off).take n
def recordOf (bs : List Byte) : Record :=
  let f (off n : Nat) : Nat := natOfBytes (cut bs off n)
  let dw (off : Nat) : DWord := BitVec.ofNat 64 (f off 8)
  let w (off : Nat) : Word := BitVec.ofNat 32 (f off 4)
  { entry := dw 0, const := dw 8, fibres := f 0x10 2, cohort := f 0x12 1
    split := bits (f 0x13 1) 2 0, locked := bits (f 0x13 1) 3 3 = 1, restartable := bits (f 0x13 1) 4 4 = 1
    chan := (List.range 8).map fun j => f (0x14 + j) 1
    fmt := (List.range 8).map fun j => BitVec.ofNat 16 (f (0x1C + 2 * j) 2)
    gen := (List.range 4).map fun j => w (0x30 + 4 * j)
    pfBase := dw 0x40, pfSize := f 0x48 2, cfSize := f 0x4A 2, cfOff := f 0x4C 4, lfSize := f 0x50 2
    spBlk := f 0x52 2, spCnt := f 0x54 4, vpBase := dw 0x58, vpBlk := f 0x60 2, vpCnt := f 0x64 4
    gpBase := dw 0x68, gpBlk := f 0x70 2, gpCnt := f 0x74 4
    entryTab := dw 0x80, depTab := dw 0x88, subTab := dw 0x90, qTab := dw 0x98, eps := w 0xA0, gain := w 0xA4
    fairW := f 0xA8 2, fairT := f 0xAA 2, qThr := f 0xAC 2 }
/-- The reserved bytes are zero (R241). -/
def recordRsv (bs : List Byte) : Bool :=
  let zero (off n : Nat) : Bool := natOfBytes (cut bs off n) == 0
  zero 0x2C 4 && zero 0x62 2 && zero 0x72 2 && zero 0x78 8 && zero 0xAE 0x52 && bits (natOfBytes (cut bs 0x13 1)) 7 5 == 0
def fmtBad (f : BitVec 16) : Bool :=
  let v := f.toNat
  bits v 15 14 == 3 || bits v 13 12 != bits v 15 14 || decide (2 ≤ bits v 11 10) || (bits v 11 10 == 1 && bits v 15 14 != 0) || bits v 7 0 != 0
def blockOk (b : Nat) : Bool := b == 64 || b == 128 || b == 256 || b == 512 || b == 1024
def isGlobal (a : Nat) : Bool := window a == some .global
/-- A pool in memory: no pool, or a block size, and a base aligned for frames in its window (R45, R46). -/
def poolBad (vault : Bool) (base blk cnt : Nat) : Bool :=
  if blk = 0 then cnt != 0
  else !blockOk blk || base % 64 != 0 || !(if vault then inWindows base && !isGlobal base else isGlobal base)
/-- The frames and pools of a record (R36, R46, R157). -/
def framesBad (r : Record) : Bool :=
  let sz := r.scratch
  let f := (4 * r.lfSize + 63) / 64 * 64
  decide (256 < r.pfSize) || decide (256 < r.cfSize) || decide (256 < r.lfSize)
  || (r.pfSize != 0 && (r.pfBase.toNat % 64 != 0 || !inWindows r.pfBase.toNat))
  || r.cfOff % 64 != 0 || decide (vaultSize ≤ r.cfOff) || decide (vaultSize < r.cfOff + 4 * r.cfSize)
  || decide (sz < f)
  || (if r.spBlk = 0 then r.spCnt != 0
      else !blockOk r.spBlk || sz == 0 || decide ((sz - f) / r.spBlk * r.spBlk < r.spCnt * r.spBlk))
  || poolBad true r.vpBase.toNat r.vpBlk r.vpCnt || poolBad false r.gpBase.toNat r.gpBlk r.gpCnt
def finite32 (w : Word) : Bool := bits w.toNat 30 23 != 255
/-- The fields that only a PLATE uses (R60 to R62). -/
def plateBad (r : Record) : Bool :=
  let epsZero := r.eps == 0 || r.eps == 0x80000000
  r.cohort != 1
  || r.entryTab.toNat % 8 != 0 || r.depTab.toNat % 4 != 0 || r.subTab.toNat % 4 != 0 || r.qTab.toNat % 16 != 0
  || !(epsZero || decide (r.eps.toNat < 0x7F800000)) || decide (r.gain.toNat < 0x3F800000) || decide (0x7F800000 ≤ r.gain.toNat)
  || r.fairW == 0 || decide (4096 < r.fairW) || r.qThr == 0
  || (r.qTab != 0 && (r.depTab != 0 || r.subTab != 0 || !epsZero))
def recordBad (bs : List Byte) (plate : Bool) : Bool :=
  let r := recordOf bs
  !recordRsv bs || r.entry.toNat % 4 != 0 || r.const.toNat % 64 != 0 || r.fibres == 0 || decide (1024 < r.fibres)
  || r.cohort == 0 || decide (8 < r.cohort) || decide (5 < r.split) || r.chan.any (fun n => decide (64 < n)) || r.fmt.any fmtBad
  || framesBad r || (plate && plateBad r)
/-! ### The tables of a plate (R61, R63 to R66) -/

/-- Bytes that the queue processor reads for a function: a status, or zero where a pin holds the read back. -/
def devRead (s : State) (who : Who) (a n : Nat) : Except Nat (List Byte) :=
  if heldBack s [] who.part who.fn a n then .error 0
  else match homeRead s who a .read n with | .error _ => .error 6 | .ok bs => .ok bs
def words4 (bs : List Byte) (n k : Nat) : List Nat := (List.range n).map fun i => natOfBytes (cut bs (k * i) k)
/-- The entry addresses, or zeros. -/
def readEntries (s : State) (who : Who) (tab n : Nat) : Except Nat (List Nat) :=
  if tab = 0 then .ok (List.replicate n 0) else
  (devRead s who tab (8 * n)).bind fun bs =>
    let es := words4 bs n 8
    if es.any fun e => e % 4 != 0 || e / 2 ^ 57 != 0 then .error 1 else .ok es
/-- The dependents of each cell (R63). -/
def readEdges (s : State) (who : Who) (tab n : Nat) : Except Nat (List (List (Nat × Word))) :=
  if tab = 0 then .ok (List.replicate n []) else
  (devRead s who tab (4 * (n + 1))).bind fun hd =>
    let e := words4 hd (n + 1) 4
    let at_ (i : Nat) : Nat := e.getD i 0
    if at_ 0 != 0 || (List.range n).any (fun i => decide (at_ (i + 1) < at_ i) || decide (at_ i + 255 < at_ (i + 1))) then .error 1 else
    (devRead s who ((tab + 4 * (n + 1) + 7) / 8 * 8) (8 * at_ n)).bind fun bs =>
      let rs := words4 bs (at_ n) 8
      let list (i : Nat) : List (Nat × Word) := ((rs.drop (at_ i)).take (at_ (i + 1) - at_ i)).map fun v => (bits v 31 0, BitVec.ofNat 32 (bits v 63 32))
      let ls := (List.range n).map list
      if ls.zipIdx.any fun (l, i) => l.any fun x => decide (n ≤ x.1) || x.1 == i || !finite32 x.2 then .error 1 else .ok ls
/-- Do two addresses lie in the vault window both, or in the global window both? A region lies in one of the two as a whole (DESIGN CHOICE:
R64 names the two and does not speak of a region over the boundary between them; log entry 34). -/
def oneWindow (a b : Nat) : Bool :=
  match window a, window b with
  | some .global, some .global | some (.vault _), some (.vault _) => true
  | _, _ => false
/-- k region records with their subscribers from an address on (R64). -/
def readRegionList (s : State) (who : Who) (n : Nat) : Nat → Nat → Except Nat (List Region)
  | 0, _ => .ok []
  | k + 1, a =>
    (devRead s who a 16).bind fun hd =>
      let v := natOfBytes hd
      let (base, len, nsub) := (bits v 63 0, bits v 95 64, bits v 111 96)
      if bits v 127 112 != 0 || nsub == 0 || decide (256 < nsub) || len % 4 != 0 || len == 0 || decide (2 ^ 24 < len) || base % 4 != 0
        || !oneWindow base (base + len - 1) then .error 1 else
      (devRead s who (a + 16) (8 * nsub)).bind fun bs =>
        let subs := (words4 bs nsub 8).map fun v => (bits v 31 0, (BitVec.ofNat 32 (bits v 63 32) : Word))
        if subs.any fun x => decide (n ≤ x.1) || !finite32 x.2 then .error 1 else
        (readRegionList s who n k (a + 16 + 8 * nsub)).map ({ base := base, len := len, subs := subs } :: ·)
/-- Do two of some ranges of bytes overlap? -/
def anyOverlap : List (Nat × Nat) → Bool
  | [] => false
  | x :: r => r.any (fun y => decide (x.1 < y.1 + y.2) && decide (y.1 < x.1 + x.2)) || anyOverlap r
def readRegions (s : State) (who : Who) (tab n : Nat) : Except Nat (List Region) :=
  if tab = 0 then .ok [] else
  (devRead s who tab 4).bind fun hd =>
    let k := natOfBytes hd
    if k = 0 ∨ 64 < k then .error 1 else
    (readRegionList s who n k (tab + 4)).bind fun rs => if anyOverlap (rs.map fun r => (r.base, r.len)) then .error 1 else .ok rs
/-- The token queues: base and capacity (R65). -/
def readQueues (s : State) (who : Who) (tab n : Nat) : Except Nat (List (Nat × Nat)) :=
  if tab = 0 then .ok (List.replicate n (0, 0)) else
  (devRead s who tab (16 * n)).bind fun bs =>
    let rs := words4 bs n 16
    let qs := rs.map fun v => (bits v 63 0, bits v 95 64)
    if rs.any (fun v => bits v 127 96 != 0) || qs.any (fun q => q.1 % 64 != 0 || !isGlobal q.1
        || !((List.range 17).any fun j => decide (4 ≤ j) && q.2 == 2 ^ j)) || anyOverlap (qs.map fun q => (q.1, 64 * q.2)) then .error 1
    else .ok qs
/-- The 48 words of the constant table (R235, R241). -/
def readConsts (s : State) (who : Who) (a : Nat) : Except Nat (List Word) :=
  if a = 0 then .ok [] else (devRead s who a 192).map fun bs => (words4 bs 48 4).map (BitVec.ofNat 32 ·)

/-- The entries and edges that the installed plates of a partition take on a die, and their regions (R66). -/
def Launch.edgesOn (l : Launch) (die : Nat) : Nat := ((l.cells.zipIdx.filter fun x => l.inShare die x.2).map fun x => x.1.edges.length).sum
def noRoom (s : State) (l : Launch) : Bool :=
  let plates := l :: s.launches.filter fun x => x.part == l.part && x.kind != .grid
  (List.range 4).any (fun d =>
    let k := (islandsOn s l.part (· == d)).length
    decide (16384 * k < (plates.map fun x => (x.share d).2 - (x.share d).1).sum) || decide (65536 * k < (plates.map (·.edgesOn d)).sum))
  || decide (1024 < (plates.map (·.regions.length)).sum)

/-! ### Launching (R50, R66, R236, R238, R276) -/

/-- The plate frame of a launch, with the launch's own reference (R44, R50). -/
def joinPlateFrame (s : State) (l : Launch) : State :=
  let base := l.rcd.pfBase.toNat
  let f : Frame := { id := s.next, plc := if isGlobal base then .global else .vault, cell := 0, part := l.part, fn := l.fn
                     base := base, slots := l.rcd.pfSize, depth := 1, count := 1, launch := l.id }
  { s with frames := s.frames ++ [f], next := s.next + 1 }
/-- The launch's own reference goes (R50). -/
def leavePlateFrame (s : State) (l : Launch) : State :=
  match s.plateFrame l.id with
  | none => s
  | some f => if f.count ≤ 1 then retire s f else s.setFrame f.id fun f => { f with count := f.count - 1 }
/-- The first function to have work holds a partition that no function holds, at once (R276). -/
def claim (s : State) (part fn : Nat) : State :=
  match s.part? part, s.fn? part fn with
  | some p, some f =>
    if fn = 64 || p.holder.isSome || p.swapping || s.saved.any (fun x => x.part == part && x.fn == fn) then s else
    let s := s.setFn part fn fun f => { f with admitted := true }
    s.setPart part fun p => { p with holder := some fn, lastHolder := fn, sliceLeft := s.cycles p.clockIsland + f.quantum * max f.weight 1 }
  | _, _ => s
/-- A packet launches: its hint takes effect, its frame comes to be, its cells become candidates, and a plate of token queues,
all empty, is converged from the start (R79). A launch of no cells
completes at once, without waiting for its hint (R238). -/
def launchNow (s : State) (p : Packet) (l : Launch) : State :=
  let point := 9 - p.field 15 13
  let is := islandsOn s l.part fun d => l.n == 0 || l.hasShare d
  let hinted := p.field 15 13 != 0
  let s := if hinted then releaseDvfs (is.foldl (hintIsland point) s) else s
  if l.n = 0 then s.packetDone p.id 0 else
  let l := checkConverged { l with dvfsWait := hinted && is.any fun i => (s.island i).settling }
  let s := { s with launches := s.launches ++ [l] }
  let s := if l.rcd.pfSize = 0 then s else joinPlateFrame s l
  claim (s.setPacket p.id fun x => { x with stage := .launched, launch := l.id }) l.part l.fn
/-- What a GRID or a PLATE packet installs, or a status; zero where it must wait. Where several of the packet's reads fault or
break their limits, the first met gives the status, in the order record, vector, constants, entries, dependents, subscribers,
queues, room (DESIGN CHOICE: R62, R66 and R237 give no order). The tables of a plate of no cells are not read (DESIGN CHOICE: R62
rejects a bad table entry, R42 and R238 have a launch of no cells install nothing and be rejected for nothing). -/
def prepare (s : State) (p : Packet) (q : QueueReg) (plate : Bool) : Except Nat Launch :=
  let n := p.field 63 32
  let b := [p.field 223 192, p.field 255 224, p.field 287 256]
  (devRead s q.cmdWho p.record 256).bind fun bs =>
    let r := recordOf bs
    if recordBad bs plate || vectorBad s q.part n r.cohort b then .error 1 else
    (readConsts s q.cmdWho r.const.toNat).bind fun ks =>
      let kind : LaunchKind := if !plate then .grid else if r.qTab = 0 then .plate else .expert
      let l : Launch := { id := s.next, kind := kind, part := q.part, fn := q.fn, packet := p.id, recAddr := BitVec.ofNat 64 p.record, n := n
                          bounds := b, rcd := r, consts := ks, prio := p.field 12 11, cells := [], seq := s.next }
      if n = 0 then .ok l
      else if !plate then .ok { l with cells := List.replicate n { rho := infWord } }
      else
        (readEntries s q.cmdWho r.entryTab.toNat n).bind fun es =>
        (readEdges s q.cmdWho r.depTab.toNat n).bind fun ds =>
        (readRegions s q.cmdWho r.subTab.toNat n).bind fun rs =>
        (readQueues s q.cmdWho r.qTab.toNat n).bind fun qs =>
          let cell (i : Nat) : Entry := { rho := if kind = .plate then infWord else 0
                                          entry := BitVec.ofNat 64 (es.getD i 0), edges := ds.getD i []
                                          qbase := BitVec.ofNat 64 (qs.getD i (0, 0)).1, cap := (qs.getD i (0, 0)).2 }
          let l := { l with cells := (List.range n).map cell, regions := rs }
          if noRoom s l then .error 2 else .ok l
/-- What the processor has read for a launch: its record, its constants and its tables (R61, R186). -/
def Launch.spans (l : Launch) : List (Nat × Nat) :=
  let r := l.rcd
  let table (a : DWord) (n : Nat) : List (Nat × Nat) := if a = 0 ∨ l.n = 0 ∨ l.kind = .grid then [] else [(a.toNat, n)]
  [(l.recAddr.toNat, 256)] ++ (if r.const = 0 then [] else [(r.const.toNat, 192)]) ++ table r.entryTab (8 * l.n)
    ++ table r.depTab ((4 * (l.n + 1) + 7) / 8 * 8 + 8 * (l.cells.map (·.edges.length)).sum)
    ++ table r.subTab (4 + (l.regions.map fun x => 16 + 8 * x.subs.length).sum) ++ table r.qTab (16 * l.n)
def launchPacket (p : Nat) (plate : Bool) (s : State) : Out :=
  match startable s p (if plate then 2 else 1) with
  | none => .next s
  | some (x, q) =>
    match prepare s x q plate with
    | .error 0 => .next s
    | .error st => .next (s.packetDone p st)
    | .ok l =>
      let s := l.spans.foldl (fun s x => touchHomes s q.cmdWho none false .read x.1 x.2) s
      .next (launchNow { s with next := s.next + 1 } x l)
/-- GRID_PACKET (R42, R84, R235, R236). -/
def execGridPacket (p : Nat) (s : State) : Out := launchPacket p false s
/-- PLATE_PACKET (R60 to R67, R235, R236). -/
def execPlatePacket (p : Nat) (s : State) : Out := launchPacket p true s

/-! ### BARRIER, UNPLATE, NOP -/

/-- BARRIER_PACKET (R239): the nonzero signals are to be read. -/
def execBarrierPacket (p : Nat) (s : State) : Out :=
  match startable s p 3 with
  | none => .next s
  | some (x, _) => .next (s.setPacket p fun y => { y with stage := .barrier ((List.range 5).filter fun k => x.signal k != 0) })
/-- BARRIER_SIGNAL_READ (R239, R240): one signal read at its home. -/
def execBarrierSignalRead (p k : Nat) (s : State) : Out :=
  match s.packet? p with
  | none => .next s
  | some x =>
    match x.stage, s.queueOf x with
    | .barrier ks, some q =>
      if !ks.contains k || heldBack s [] q.part q.fn (x.signal k) 8 then .next s else
      match homeNat s q.cmdWho (x.signal k) 8 with
      | .error _ => .next (s.packetDone p 6)
      | .ok v =>
        let s := touchHomes s q.cmdWho none false .read (x.signal k) 8
        if 2 ^ 63 ≤ v then .next (s.packetDone p 3)
        else if v = 0 then .next (s.setPacket p fun x => { x with stage := .barrier (ks.filter (· != k)) })
        else .next s
    | _, _ => .next s
/-- PACKET_NOP (R236). -/
def execPacketNop (p : Nat) (s : State) : Out :=
  match startable s p 0 with
  | none => .next s
  | some _ => .next (s.packetDone p 0)

/-- Steps 3 to 6 of R88: the plate leaves the order, and its frame loses the launch's reference. -/
def removePlate (s : State) (l : Launch) : State :=
  leavePlateFrame { s with launches := s.launches.filter (·.id != l.id), draining := s.draining.filter (·.2 != l.id) } l
/-- UNPLATE_PACKET (R88, R237): first no new dispatch; then, once no update runs, the plate is removed and its PLATE packet
completes. -/
def execUnplatePacket (p : Nat) (s : State) : Out :=
  match startable s p 4, s.packet? p with
  | some (x, q), _ =>
    match s.launches.find? fun l => l.kind != .grid && l.part == q.part && l.fn == q.fn && l.recAddr.toNat == x.record with
    | none => .next (s.packetDone p 5)
    | some l => .next ((s.setLaunch l.id fun l => { l with unplating := true }).setPacket p fun x => { x with stage := .unplating, launch := l.id })
  | none, some x =>
    match x.stage, s.launch? x.launch with
    | .unplating, some l =>
      if l.cells.any (·.running) then .next s
      else .next ((removePlate s l).setPacket l.packet fun y => { y with stage := .done y.failed })
    | _, _ => .next s
  | none, none => .next s

/-! ### Completion (R237, R372, R373) -/

/-- The status with which a packet can complete now; none while it must wait. -/
def completionStatus (s : State) (p : Packet) : Option Nat :=
  match p.stage with
  | .done st => some st
  | .barrier [] => some 0
  | .launched =>
    match s.launch? p.launch with
    | some l => if l.kind = .grid ∧ l.cells.all (·.ended) then some p.failed else none
    | none => none
  | .unplating => if (s.launch? p.launch).isNone && !s.packets.any (fun y => y.id != p.id && y.type == 2 && y.launch == p.launch) then some 0 else none
  | _ => none
/-- The completion signal: −1 added on success, exchanged for −code on failure. False where the update faults. -/
def raiseSignal (s : State) (q : QueueReg) (a st : Nat) : State × Bool :=
  if a = 0 then (s, true)
  else if a % 8 ≠ 0 then (s, false)
  else if st = 0 then addSignal s q.cmdWho a (2 ^ 64 - 1)
  else match homeWrite (touchHomes s q.cmdWho none false .write a 8) q.cmdWho none a (bytesOfNat 8 (2 ^ 64 - st)) with
    | .ok s => (s, true)
    | .error _ => (s, false)
/-- STATE of a queue header, its reserved bits kept (R229). -/
def putQueueState (s : State) (q : QueueReg) (v : Nat) : State :=
  match homeNat s q.who (q.addr + 13) 1 with
  | .ok b => devPut s q (q.addr + 13) (bytesOfNat 1 (b / 4 * 4 + v))
  | .error _ => s
/-- PACKET_COMPLETE (R237, R240, R372, R373): the launch's reference to its frame, the release, the signal, LAST, the abort
state, in this order. -/
def execPacketComplete (p : Nat) (s : State) : Out :=
  match s.packet? p with
  | none => .next s
  | some x =>
    match completionStatus s x, s.queueOf x with
    | some st, some q =>
      let csig := if x.known then x.field 127 64 else 0
      if (csig != 0 && heldBack s [] q.part q.fn csig 8) || heldBack s [] q.part q.fn q.addr 64 then .next s else
      let s := match x.stage, s.launch? x.launch with
        | .launched, some l => removePlate s l
        | _, _ => s
      let s := if x.field 10 8 = 4 then writeBackAll s (s.asid q.part q.fn) else s
      let (s, ok) := raiseSignal s q csig st
      let st' := if ok then st else 6
      let s := if st' = 0 then s else devPut s q (q.addr + 36) (bytesOfNat 1 st')
      let s := if !x.known || (x.type == 3 && st' == 3) then putQueueState s q 2 else s
      .next (afterAll { s with packets := s.packets.filter (·.id != p) })
    | _, _ => .next s

/-! ### Doorbells (R232) -/

/-- The queue whose doorbell stands at an offset of a function's BAR 0, and the byte of the doorbell. -/
def doorbellAt (s : State) (part fn off : Nat) : Option (QueueReg × Nat) :=
  let off := if fn = 64 then (if 0x400000 ≤ off then some (off - 0x400000) else none) else some off
  off.bind fun o =>
    if 4096 ≤ o then none
    else (s.queues.find? fun q => !q.chain && q.part == part && q.fn == fn && q.idx == o / 64).map fun q => (q, o % 64)
/-- DOORBELL_WRITE (R232): a host write of 8 bytes at offset 0 stores WRITE of a store-fed queue. -/
def execDoorbellWrite (part fn off width : Nat) (val : BitVec 64) (s : State) : Out :=
  match doorbellAt s part fn off with
  | some (q, 0) =>
    if width != 8 || heldBack s [] q.part q.fn q.addr 64 then .next s else
    match homeRead s q.who q.addr .read 64 with
    | .error _ => .next s
    | .ok bs => if (qHdrOf bs).dev then .next s else .next (devPut s q (q.addr + 16) (bytesOfNat 8 val.toNat))
  | _ => .next s
/-- What a host read of a doorbell returns, a byte at a time (R232); none while the header is held back (R172, R199). -/
def doorbellByte (s : State) (part fn off : Nat) : Option Byte :=
  match doorbellAt s part fn off with
  | none => some 0
  | some (q, k) =>
    if heldBack s [] q.part q.fn q.addr 64 then none else some <|
    let hdr (a : Nat) : Byte := match homeByte s q.who (q.addr + a) .read with | .ok b => b | .error _ => 0
    if k < 8 then hdr (16 + k) else if k < 16 then hdr (24 + (k - 8))
    else if k = 16 then hdr 13 &&& 3 else if k = 17 then hdr 36 else 0

/-! ### The commands of QUEUE.CMD (R230) -/

/-- The function that PF and VF of QUEUE.CMD name. -/
def Partition.cmdFn (p : Partition) : Nat := if bits p.queueCmd.toNat 15 15 = 1 then 64 else bits p.queueCmd.toNat 13 8
/-- Run a command that QUEUE.CMD holds; run answers the state and the index, none for a failure. It may ask to wait. -/
inductive CmdEnd where | wait | fail | ok (s : State) (idx : Option Nat)
def queueCommand (cmd part : Nat) (run : State → Partition → CmdEnd) (s : State) : Out :=
  match s.part? part with
  | none => .next s
  | some p =>
    if !p.queueBusy || p.queueRan || bits p.queueCmd.toNat 2 0 != cmd then .next s else
    match run s p with
    | .wait => .next s
    | .fail => .next (s.setPart part fun p => { p with queueRan := true, queueFail := true })
    | .ok s idx => .next (s.setPart part fun p => { p with queueRan := true, queueFail := false, queueIdx := idx.getD p.queueIdx })
def powIn (v lo hi : Nat) : Bool := (List.range 17).any fun k => v == 2 ^ k && decide (lo ≤ k) && decide (k ≤ hi)
def engineOk (e : Nat) : Bool := decide (e < 4) || (decide (0x100 ≤ e) && decide (e < 0x200)) || e == 0x200
/-- Registration of a queue or a chain (R229, R230, R245). It counts as registered once the command has finished. -/
def register (chain : Bool) (s : State) (p : Partition) : CmdEnd :=
  let fn := p.cmdFn
  let a := p.queueAddr.toNat
  let q : QueueReg := { id := s.next, part := p.id, fn := fn, addr := a, idx := 0, chain := chain }
  let all := s.queues.filter fun x => x.part == p.id && x.chain == chain
  let taken := (all.filter (·.fn == fn)).map (·.idx)
  if (s.fn? p.id fn).isNone || a % 64 != 0 || !isGlobal a || decide (64 ≤ all.length)
      || (regAt s p.id fn a true).isSome || (regAt s p.id fn a false).isSome then .fail
  else if heldBack s [] p.id fn a 64 then .wait
  else match homeRead s q.who a .read 64, firstFrom (fun i => !taken.contains i) 0 64 with
    | .ok bs, some idx =>
      let v := natOfBytes bs
      let (ring, size) := (bits v 63 0, bits v 95 64)
      if ring % 64 != 0 || !inWindows ring || !powIn size 4 (if chain then 12 else 16) || (chain && !engineOk (bits v 143 128)) then .fail
      else
        match (if chain then .ok s else homeWrite s q.who none (a + 13) (bytesOfNat 1 (bits v 111 104 / 4 * 4 + 1))) with
        | .error _ => .fail
        | .ok t => .ok ({ t with next := t.next + 1 }.setPart p.id fun p => { p with queueNew := some { q with idx := idx } }) (some idx)
    | _, _ => .fail
def execQueueRegister (part : Nat) (s : State) : Out := queueCommand 1 part (register false) s
def execChainRegister (part : Nat) (s : State) : Out := queueCommand 4 part (register true) s
/-- Unregistering waits until every packet read has completed; for a chain, until no command is left (R248). -/
def execQueueUnregister (part : Nat) (s : State) : Out :=
  queueCommand 2 part (fun s p =>
    match regAt s p.id p.cmdFn p.queueAddr.toNat false with
    | none => .fail
    | some q =>
      if s.packets.any (·.queue == q.id) || heldBack s [] q.part q.fn q.addr 64 then .wait
      else .ok { putQueueState s q 0 with queues := s.queues.filter (·.id != q.id) } none) s
def execChainUnregister (part : Nat) (s : State) : Out :=
  queueCommand 5 part (fun s p =>
    match regAt s p.id p.cmdFn p.queueAddr.toNat true with
    | none => .fail
    | some q =>
      let open_ := match homeRead s q.who q.addr .read 64 with | .ok bs => (cHdrOf bs).head != (cHdrOf bs).tail | .error _ => false
      if (s.engine q.id).stage != .idle || open_ then .wait
      else .ok { s with queues := s.queues.filter (·.id != q.id), engines := s.engines.filter (·.queue != q.id) } none) s
/-- Command 3: STATE goes from abort to active, and stays otherwise. -/
def execQueueClearAbort (part : Nat) (s : State) : Out :=
  queueCommand 3 part (fun s p =>
    match regAt s p.id p.cmdFn p.queueAddr.toNat false with
    | none => .fail
    | some q =>
      if heldBack s [] q.part q.fn q.addr 64 then .wait else
      match homeNat s q.who (q.addr + 13) 1 with
      | .ok b => .ok (if b % 4 = 2 then putQueueState s q 1 else s) none
      | .error _ => .ok s none) s
/-- QUEUE_CMD_COMPLETE: BUSY falls once the command has run, and what it registered is registered. -/
def execQueueCmdComplete (part : Nat) (s : State) : Out :=
  match s.part? part with
  | none => .next s
  | some p =>
    if p.queueBusy && p.queueRan then
      .next ({ s with queues := s.queues ++ p.queueNew.toList }.setPart part fun p =>
        { p with queueBusy := false, queueRan := false, queueNew := none })
    else .next s

end Sys2Proof.Machine
end

