-- ==== Sys2Proof/Machine/Regs.lean ====
section
/-! DEFINITION. The system registers: MFS and MTS, the host's window to them, and what their writes start: shoot-down, frame
release, function-level reset, the group table, the photonic layer, page hotness (R141, R142, R167, R168, R171, R172, R186,
R197, R212, R230, R257, R272, R275, R277, R282, R286, R293, R295, R296, R302, R303, R348, R349). -/

namespace Sys2Proof.Machine

/-! ### Reading -/

/-- Who reaches a register: a fibre, or the host driver through BAR 0 as a function of the partition. -/
inductive Port where
  | fibre (c : Cell) (f : Fibre)
  | host (part fn : Nat)
def Port.part : Port → Nat
  | .fibre c _ => c.part
  | .host p _ => p
def Port.fn : Port → Nat
  | .fibre c _ => c.fn
  | .host _ n => n
/-- The ring bank that the port's BANK names (R303). -/
def Port.bank (s : State) : Port → Nat
  | .fibre _ f => f.bank.toNat
  | .host p _ => ((s.part? p).map (·.hostBank.toNat)).getD 0

/-- The slot of a ring; ring n starts on slot n (R295). -/
def ringSlot (s : State) (b n : Nat) : Nat :=
  let v := sget 0 s.rings (16 * b + n)
  if v = 0 then n else v - 1
/-- A ring's heater code, calibrated until it is written (R295). -/
def heaterCode (s : State) (b n : Nat) : Nat :=
  let v := sget 0 s.heaters (16 * b + n)
  if v = 0 then (Config.heaterCalibrated b n).toNat else v - 1
/-- The level of a ring's monitor photodiode at its last sample (R295). -/
def diodeLevel (s : State) (b n : Nat) : Nat := sget 0 s.diodes (16 * b + n)
/-- The light of a ring by the optical model of R304's chapter, in every bank (DEDUCED): 1,000 less 4,000 for each spacing between
its resonance and its slot, a spacing being 2,000 heater codes or 20 kelvin; a half is dropped (DESIGN CHOICE). -/
def ringLevel (s : State) (b n : Nat) : Nat :=
  let slots : Int := n - ringSlot s b n
  let codes : Int := heaterCode s b n - (Config.heaterCalibrated b n).toNat
  let warmth : Int := sextInt (sget 0 s.temps (b / 64)) 16 - (Config.calibrationTemp b).toInt
  (2000 - (8000 * slots + 4 * codes + 25 * warmth).natAbs) / 2
/-- Has a wavelength slot of a bank failed (R278)? -/
def slotFailed (s : State) (b v : Nat) : Bool := s.spares.contains (2, 17 * b + v)

def busyBit (b : Bool) : Nat := if b then 2 ^ 31 else 0
def failBit (b : Bool) : Nat := if b then 2 ^ 30 else 0
/-- The value of register n (R141, R168, R171, R186, R197, R212, R230, R257, R272, R275, R293, R295). -/
def readReg (s : State) (w : Port) (n : Nat) : Nat :=
  let p : Partition := (s.part? w.part).getD { id := w.part, islands := [] }
  let f : Fn := (s.fn? w.part w.fn).getD { part := w.part, num := w.fn }
  let sel : Fn := (s.fn? w.part p.vfSel).getD { part := w.part, num := p.vfSel }
  let b := w.bank s
  match n with
  | 0x010 | 0x011 => match w with | .fibre c _ => (((s.cell? c.id).map Cell.arith).getD 0).toNat | .host _ _ => 0
  | 0x012 | 0x013 => match w with | .fibre c f => (s.mx (quadOf c.cluster f.idx)).toNat | .host _ _ => 0
  | 0x040 => f.asid.toNat
  | 0x041 => f.ptroot.toNat
  | 0x042 => f.shootVa.toNat
  | 0x043 => busyBit f.shootBusy
  | 0x044 => f.relPa.toNat
  | 0x045 => busyBit f.relBusy
  | 0x058 => p.hotBase.toNat
  | 0x059 => p.hotSize.toNat
  | 0x05A => p.hotHead.toNat
  | 0x05B => p.hotTail.toNat
  | 0x05C => p.hotThr.toNat
  | 0x05D => p.hotDrop.toNat
  | 0x060 => p.pinto
  | 0x061 => p.drto
  | 0x062 => p.cw
  | 0x070 => p.queueAddr.toNat
  | 0x071 => busyBit p.queueBusy + failBit p.queueFail + p.queueIdx * 65536 + (p.queueCmd.toNat &&& 0xBF00)
  | 0x080 => p.trapVec.toNat
  | 0x081 => p.trapSave.toNat
  | 0x083 => p.wdog.toNat
  | 0x084 => saveTime s p
  | 0x085 => p.vfSel
  | 0x086 => sel.weight
  | 0x087 => sel.quantum
  | 0x088 => busyBit sel.resetting + sel.last
  | 0x08A => p.ctxBase.toNat
  | 0x090 => p.collAddr.toNat
  | 0x091 => busyBit p.collBusy + failBit p.collFail + p.collGroup * 65536
  | 0x100 =>
    busyBit p.grant + match w with
      | .fibre _ f => failBit f.perr + f.bank.toNat
      | .host _ _ => failBit p.hostErr + p.hostBank.toNat
  | n =>
    if 0x050 ≤ n ∧ n < 0x058 then (sget 0xFFFF p.rclass (n - 0x050)).toNat
    else if 0x110 ≤ n ∧ n < 0x120 then heaterCode s b (n - 0x110)
    else if 0x120 ≤ n ∧ n < 0x130 then diodeLevel s b (n - 0x120)
    else if 0x130 ≤ n ∧ n < 0x140 then ringSlot s b (n - 0x130)
    else if 0x140 ≤ n ∧ n < 0x144 then sget 0 s.temps (n - 0x140)
    else 0
def isReg64 (n : Nat) : Bool := n == 0x070 || n == 0x080 || n == 0x08A || n == 0x090
/-- The registers that a tenant may read (R141). -/
def tenantReg (n : Nat) : Bool := decide (0x010 ≤ n) && decide (n ≤ 0x013)
def photReg (n : Nat) : Bool := decide (0x100 ≤ n) && decide (n < 0x140)
def granted (s : State) (part : Nat) : Bool := ((s.part? part).map (·.grant)).getD false

/-! ### Function-level reset (R277) -/

/-- A function's cells end as they stand; their pins end (steps 1 and 2 of R277). -/
def haltCells (s : State) (part fn : Nat) : State :=
  let mine (c : Nat) : Bool := s.cells.any fun x => x.id == c && x.part == part && x.fn == fn
  let s := { s with pins := s.pins.filter (fun p => !mine p.cell) }
  { s with cells := s.cells.filter (fun c => !(c.part == part && c.fn == fn))
           crosshatch := s.crosshatch.filter (fun e => !mine e.cell)
           accs := s.accs.filter (fun a => !(a.part == part && a.fn == fn))
           ops := s.ops.filter (fun o => !mine o.owner.cell && match o.kind with
             | .mwr _ _ _ _ b | .mzero _ _ b => b != (part, fn)
             | _ => true)
           frames := s.frames.filter (fun f => !(f.part == part && f.fn == fn)) }
/-- The bytes of a function's slots of the context save area (R272), and those of its fibres' trap records. -/
def scrubMem (s : State) (part fn : Nat) : State :=
  match s.part? part with
  | none => s
  | some p =>
    let base := p.ctxBase.toNat
    let inSlot (a : Nat) : Bool := base != 0 && decide (base ≤ a) && decide (a < base + 2 ^ 21 * 64 * p.clusters.length) && (a - base) / 2 ^ 21 % 64 == fn
    let recs := (s.cells.filter fun c => c.part == part && c.fn == fn && c.resident).flatMap fun c => c.fibres.map fun f => recordAddr p c.cluster f.slot
    recs.foldl invalRecord { s with mem := s.mem.filter fun x => !(inSlot x.1 || recs.any fun r => decide (r ≤ x.1) && decide (x.1 < r + 256)) }
/-- The tiles and status words that the function's cells, ended ones too, left in matrix units (step 3 of R277). -/
def scrubUnits (s : State) (part fn : Nat) : State :=
  let mine (u : Nat) : Bool := sget 0 s.mxBy u == mxOwner part fn
  { s with mxTiles := s.mxTiles.map fun x => (x.1, x.2.keep (· != mxOwner part fn) (fun _ => true) (x.2.leftBy != some (part, fn)) false)
           mxStatus := s.mxStatus.filter fun x => !mine x.1
           mxBy := s.mxBy.filter fun x => !mine x.1
           leftScratch := s.leftScratch.filter fun x => !(x.1.2.1 == part && x.1.2.2 == fn)
           saved := s.saved.filter fun x => !(x.part == part && x.fn == fn) }
/-- The start of a reset of a function, a virtual one or the physical function itself (R284): steps 1 to 3 of R277, and the packets that complete with ABORTED. -/
def startReset (s : State) (part fn : Nat) : State :=
  match s.fn? part fn with
  | none => s
  | some f =>
    if f.resetting then s else
    let s := s.setFn part fn fun f => { f with resetting := true }
    let s := haltCells (scrubUnits (scrubMem s part fn) part fn) part fn
    let ls := (s.launches.filter fun l => l.part == part && l.fn == fn).map (·.id)
    let new := ((s.part? part).bind (·.queueNew)).toList
    let qs := (s.queues ++ new).filter fun q => q.part == part && q.fn == fn && !q.chain
    let s := { s with launches := s.launches.filter (fun l => !ls.contains l.id)
                      draining := s.draining.filter (fun x => !ls.contains x.2)
                      packets := s.packets.map fun p =>
                        if qs.any (·.id == p.queue) then { p with stage := match p.stage with | .done st => .done st | _ => .done 3 } else p }
    qs.foldl (fun s q => putQueueState s q 2) s
/-- VF_RESET (R275, R277). -/
def execVfReset (part fn : Nat) (s : State) : Out := .next (afterAll (startReset s part fn))
/-- PCIE_FUNCTION_LEVEL_RESET (R277): as a write of VF.RESET. -/
def execPcieFunctionLevelReset (part fn : Nat) (s : State) : Out := .next (afterAll (startReset s part fn))
/-- Does a queue hold packets that it has yet to read (R229)? One whose header cannot be read yet may. -/
def unread (s : State) (q : QueueReg) : Bool :=
  if heldBack s [] q.part q.fn q.addr 64 then true else
  match homeRead s q.who q.addr .read 64 with
  | .ok bs => decide ((qHdrOf bs).read < (qHdrOf bs).write) && (qHdrOf bs).st != 0
  | .error _ => false
/-- FUNCTION_RESET_COMPLETE (step 4 of R277): every accepted packet of the function has completed, those never read before the
reset with ABORTED; BUSY falls. -/
def execFunctionResetComplete (part fn : Nat) (s : State) : Out :=
  let qs := s.queues.filter fun q => q.part == part && q.fn == fn && !q.chain
  if ((s.fn? part fn).map (·.resetting)).getD false && !s.packets.any (fun p => qs.any (·.id == p.queue)) && !qs.any (unread s) then
    .next (s.setFn part fn fun f => { f with resetting := false })
  else .next s

/-! ### Writing -/

/-- The outcome of one register write: done, held up by a command in progress, or the writer is halted (R282). -/
inductive Wrote where
  | done (s : State)
  | stall
  | halted (s : State)
/-- POL 0b11 leaves the field as it is (R168). -/
def rclassNew (old v : Word) : Word :=
  let v := v &&& 0xFFFFF
  if bits v.toNat 19 18 = 3 then (v &&& 0x3FFFF) ||| (old &&& 0xC0000) else v
/-- A write of VF.QUANTUM (R275). -/
def putQuantum (s : State) (p : Partition) (v : Nat) : State :=
  s.setFn p.id p.vfSel fun f =>
    if v = 0 then { f with last := 1 } else { f with quantum := max v (saveTime s p), last := 0 }
/-- A write of PHOT.MAP (R296): it moves the ring to the bank's free slot, or is refused. A slot that has failed is none (DESIGN
CHOICE). -/
def moveRing (s : State) (b n v : Nat) : State × Bool :=
  if v = ringSlot s b n then (s, true)
  else if 16 < v || slotFailed s b v || (List.range 16).any (fun m => m != n && ringSlot s b m == v) then (s, false)
  else ({ s with rings := sput 0 s.rings (16 * b + n) (v + 1) }, true)
/-- A refused PHOT.MAP write sets the port's own ERR (R303). -/
def setPhotErr (s : State) : Port → State
  | .fibre c f => s.setFibre ⟨c.id, f.idx⟩ fun f => { f with perr := true }
  | .host p _ => s.setPart p fun p => { p with hostErr := true }
/-- A write of PHOT.SEL (R295, R303): BANK, and ERR cleared by 1; the host also writes GRANT. -/
def putPhotSel (s : State) (w : Port) (v : Word) : State :=
  let bank : BitVec 8 := BitVec.ofNat 8 v.toNat
  match w with
  | .fibre c f => s.setFibre ⟨c.id, f.idx⟩ fun f => { f with bank := bank, perr := f.perr && !v.getLsbD 30 }
  | .host p _ => s.setPart p fun p => { p with hostBank := bank, hostErr := p.hostErr && !v.getLsbD 30, grant := v.getLsbD 31 }
def isHost : Port → Bool
  | .host _ _ => true
  | _ => false

/-- One write of a register (R349): RO and RSV bits stay; the rules of the register itself decide the rest. -/
def writeReg (s : State) (w : Port) (n : Nat) (x : DWord) : Wrote :=
  let v := loWord x
  let part := w.part
  let p : Partition := (s.part? part).getD { id := part, islands := [] }
  let f : Fn := (s.fn? part w.fn).getD { part := part, num := w.fn }
  let onPart (g : Partition → Partition) : Wrote := .done (s.setPart part g)
  let onFn (g : Fn → Fn) : Wrote := .done (s.setFn part w.fn g)
  let b := w.bank s
  match n with
  | 0x010 | 0x011 => match w with | .fibre c _ => .done (s.setCell c.id fun c => { c with arith := v &&& 0x1F }) | .host _ _ => .done s
  | 0x012 | 0x013 => match w with | .fibre c f => .done ((s.setMx (quadOf c.cluster f.idx) (v &&& 1)).setMxBy (quadOf c.cluster f.idx) c.part c.fn) | .host _ _ => .done s
  | 0x040 => if isHost w then onFn fun f => { f with asid := BitVec.ofNat 16 v.toNat } else .done s
  | 0x041 => onFn fun f => { f with ptroot := v }
  | 0x042 => onFn fun f => { f with shootVa := v }
  | 0x043 => if f.shootBusy then .stall else onFn fun f => { f with shoot := v &&& 0x7FF, shootBusy := true, shootAt := f.shootVa }
  | 0x044 => onFn fun f => { f with relPa := v }
  | 0x045 => if f.relBusy then .stall else onFn fun f => { f with rel := v &&& 3, relBusy := true, released := false, relAt := f.relPa }
  | 0x058 => onPart fun p => { p with hotBase := v }
  | 0x059 => onPart fun p => { p with hotSize := v }
  | 0x05B => onPart fun p => { p with hotTail := v }
  | 0x05C => onPart fun p => { p with hotThr := v }
  | 0x05D => onPart fun p => { p with hotDrop := v }
  | 0x060 => .done (freePins (endPins (s.setPart part fun p => { p with pinto := bits v.toNat 19 0 }) (·.part == part)))
  | 0x061 => onPart fun p => { p with drto := if bits v.toNat 15 0 = 0 then p.drto else bits v.toNat 15 0 }
  | 0x062 => onPart fun p => { p with cw := bits v.toNat 7 0 }
  | 0x070 => onPart fun p => { p with queueAddr := x }
  | 0x071 =>
    if p.queueBusy then .stall else
    let cmd := bits v.toNat 2 0
    onPart fun p => { p with queueCmd := v &&& 0xBF07, queueBusy := decide (1 ≤ cmd) && decide (cmd ≤ 5), queueRan := false }
  | 0x080 => if isHost w then onPart fun p => { p with trapVec := x &&& 0x01FFFFFFFFFFFFFC } else .done s
  | 0x081 => onPart fun p => { p with trapSave := v &&& 0xFF07FFFF }
  | 0x083 => onPart fun p => { p with wdog := v }
  | 0x085 => onPart fun p => { p with vfSel := bits v.toNat 5 0 }
  | 0x086 => .done (s.setFn part p.vfSel fun f => { f with weight := bits v.toNat 7 0 })
  | 0x087 => .done (putQuantum s p v.toNat)
  | 0x089 =>
    if !v.getLsbD 0 then .done s
    else
      let s' := startReset s part p.vfSel
      match w with
      | .fibre c _ => if c.fn = p.vfSel then .halted s' else .done s'
      | .host _ _ => .done s'
  | 0x08A => if isHost w then onPart fun p => { p with ctxBase := x &&& 0x0000FFFFFFE00000 } else .done s
  | 0x090 => onPart fun p => { p with collAddr := x }
  | 0x091 =>
    if p.collBusy then .stall else
    let cmd := bits v.toNat 1 0
    onPart fun p => { p with collGroup := bits v.toNat 27 16, collCmd := cmd, collFn := w.fn, collBusy := cmd == 1 || cmd == 2 }
  | 0x100 => .done (putPhotSel s w v)
  | n =>
    if 0x050 ≤ n ∧ n < 0x058 then onPart fun p => { p with rclass := sput 0xFFFF p.rclass (n - 0x050) (rclassNew (sget 0xFFFF p.rclass (n - 0x050)) v) }
    else if 0x110 ≤ n ∧ n < 0x120 then .done { s with heaters := sput 0 s.heaters (16 * b + (n - 0x110)) (bits v.toNat 11 0 + 1) }
    else if 0x130 ≤ n ∧ n < 0x140 then
      let (s, ok) := moveRing s b (n - 0x130) (bits v.toNat 4 0)
      .done (if ok then s else setPhotErr s w)
    else .done s

/-! ### MFS and MTS -/

/-- A .RC alias clears its register (R141, R142). -/
def clearRc (s : State) (c : Cell) (idx n : Nat) : State :=
  if n = 0x011 then s.setCell c.id fun c => { c with arith := 0 }
  else if n = 0x013 then s.setMx (quadOf c.cluster idx) 0
  else s
/-- A PHOT register without GRANT raises PRIVILEGED in the active lanes (R132, R348). -/
def denied (s : State) (g : Grp) : State := raiseLanes s g (g.active.map fun f => (f.idx, { cause := .privileged }))
/-- MFS (R128, R141, R348, R349). -/
def execMfs (d : Name) (n : Fin 4096) (s : State) : Out :=
  unit s {} false (!tenantReg n.val) fun s g =>
    if photReg n.val && !granted s g.cell.part then some (denied s g) else
    (laneBody [] (fun s g f _ =>
      let v := readReg s (.fibre g.cell f) n.val
      if isReg64 n.val then putDst64 f d (BitVec.ofNat 64 v) else putDst f d (BitVec.ofNat 32 v)) s g).map fun s =>
        match g.active with
        | [] => s
        | f :: _ => clearRc s g.cell f.idx n.val

/-- The lanes of an MTS write one after another (R282, R349): a lane that a BUSY bit holds up, and every later one, waits
with the hatch at the unit, the lanes before it having written. -/
def mtsLanes (n : Nat) (g : Grp) (before : State) : State → List (Fibre × List DWord) → State × Bool × Bool
  | s, [] => (s, false, false)
  | s, (f, vs) :: rest =>
    match s.cell? g.cell.id with
    | none => (s, false, true)
    | some c =>
      let r : FRef := ⟨c.id, f.idx⟩
      match writeReg s (.fibre c ((s.fibre? r).getD f)) n (vs.getD 0 0) with
      | .halted s => (s, false, true)
      | .done s => mtsLanes n g before (s.setFibre r fun f => { f with wrote := true }) rest
      | .stall =>
        let back := (f, vs) :: rest
        (back.foldl (fun s x => s.setFibre ⟨c.id, x.1.idx⟩ fun y => (before.fibre? ⟨c.id, x.1.idx⟩).getD y) s, true, false)
def mtsBody (a : Name) (n : Nat) (s : State) (g : Grp) : Option State :=
  let todo := g.only (g.members.filter fun f => !f.wrote)
  withLanes [plainSrc a (if isReg64 n then .b64 else .b32)] s todo fun s1 _ vals =>
    let (s2, stalled, halted) := mtsLanes n g s s1 vals
    let each (f : Fibre → Fibre) (s : State) : State := s.mapFibres g.cell.id fun x => if g.members.any (·.idx == x.idx) then f x else x
    if halted then some s2
    else if !stalled then some (each (fun f => { f with wrote := false }) s2)
    else if s2.cells == s.cells then none
    else some (each (fun f => { f with pc := g.first }) s2)
/-- MTS (R128, R282, R348, R349). -/
def execMts (a : Name) (n : Fin 4096) (s : State) : Out :=
  unit s {} false true fun s g =>
    if photReg n.val && !granted s g.cell.part then some (denied s g) else mtsBody a n.val s g

/-! ### The registers' own events -/

/-- ARITH_STATUS_RC and MX_STATUS_RC (R141): the clearing of a status word by its .RC alias. It is a part of the MFS that reads the
word, so that no bit is lost (R142): as a move of its own it never comes (Policy). -/
def execArithStatusRc (cell : Nat) (s : State) : Out := .next (s.setCell cell fun c => { c with arith := 0 })
def execMxStatusRc (quadrant : Nat) (s : State) : Out := .next (s.setMx quadrant 0)

/-- A write of the host driver: one that a BUSY bit holds up is not taken yet. -/
def hostWrite (part fn n : Nat) (v : DWord) (s : State) : Out :=
  match writeReg s (.host part fn) n v with
  | .done s | .halted s => .next (afterAll s)
  | .stall => .next s
/-- ORD_PINTO_WRITE (R197, R199): it also ends every pin of the partition. -/
def execOrdPintoWrite (part : Nat) (v : Word) (s : State) : Out := hostWrite part 64 0x060 (v.setWidth 64) s
/-- VF_QUANTUM_WRITE (R275). -/
def execVfQuantumWrite (part : Nat) (v : Word) (s : State) : Out := hostWrite part 64 0x087 (v.setWidth 64) s
/-- PHOT_HEAT_WRITE and PHOT_MAP_WRITE of the host driver (R295, R296, R303). -/
def execPhotHeatWrite (part n : Nat) (v : Word) (s : State) : Out := if n < 16 then hostWrite part 64 (0x110 + n) (v.setWidth 64) s else .next s
def execPhotMapWrite (part n : Nat) (v : Word) (s : State) : Out := if n < 16 then hostWrite part 64 (0x130 + n) (v.setWidth 64) s else .next s
/-- PHOT_MPD_SAMPLE (R295). -/
def execPhotMpdSample (bank n : Nat) (s : State) : Out :=
  let k := 16 * bank + n
  if bank < 256 ∧ n < 16 then .next { s with diodes := sput 0 s.diodes k (ringLevel s bank n) } else .next s
/-- What stands at an offset of the physical function's BAR 0 (R286): a register of a function, a doorbell of its own queues,
the Narcy mailbox. -/
inductive Bar0 where
  | reg (fn n : Nat) | doorbell | mailbox | nothing
  deriving DecidableEq, Repr
/-- Register n at 0x1000 + 8n, the copies of 0x040 to 0x045 that belong to virtual function v at 0x10_0000 + 0x1000v, the doorbells
at 0x40_0000 + 64q, the mailbox at 0x80_0000. -/
def bar0 (off : Nat) : Bar0 :=
  if 0x1000 ≤ off ∧ off < 0x9000 then (if off % 8 = 0 then .reg 64 ((off - 0x1000) / 8) else .nothing)
  else if 0x100000 ≤ off ∧ off < 0x140000 then
    let o := off - 0x100000
    if off % 8 = 0 ∧ o % 0x1000 < 0x30 then .reg (o / 0x1000) (0x040 + o % 0x1000 / 8) else .nothing
  else if 0x400000 ≤ off ∧ off < 0x401000 then .doorbell
  else if off = 0x800000 then .mailbox
  else .nothing
/-- SYSREG_WRITE (R286): a host write of a register at an offset of the physical function's BAR 0. -/
def execSysregWrite (part off : Nat) (v : BitVec 64) (s : State) : Out :=
  match bar0 off with
  | .reg fn n => hostWrite part fn n v s
  | _ => .next s
/-- What a host read of a register at such an offset returns (R286). -/
def hostRegRead (s : State) (part off : Nat) : Option Nat :=
  match bar0 off with
  | .reg fn n => some (readReg s (.host part fn) n)
  | _ => none

/-! ### Shoot-down and frame release (R167, R172) -/

/-- The pages that the command of MEM.SHOOT names: every one, or a first address and a size. With BIG the address is aligned down to
2 MiB (DESIGN CHOICE: R167 does not speak of an address that is no multiple). -/
def shootRange (f : Fn) : Option (Nat × Nat) :=
  let v := f.shoot.toNat
  if bits v 9 9 = 1 then none else
  let va := bits v 8 0 * 2 ^ 48 + f.shootAt.toNat * 65536
  if bits v 10 10 = 1 then some (va / 2 ^ 21 * 2 ^ 21, 2 ^ 21) else some (va, 65536)
/-- Step 2 of R167: TLB entries, slice lines and L1 blocks of the page go; an access on its way looks the page up again. -/
def purge (s : State) (part fn : Nat) (f : Fn) : State :=
  let asid := s.asid part fn
  let hit (a n : Nat) : Bool := match shootRange f with | none => true | some (b, z) => decide (a < b + z) && decide (b < a + n)
  let gone (l : Line) : Bool := l.asid == asid && hit (64 * l.line) 64
  let s := (s.lines.filter gone).foldl writeBack s
  { s with lines := s.lines.filter (fun l => !gone l)
           tlb := s.tlb.filter (fun e => !(e.asid == asid && (if e.big then hit (e.page * 2 ^ 21) (2 ^ 21) else hit (e.page * 65536) 65536)))
           blocks := s.blocks.filter (fun b => !(b.asid == some asid && hit b.base b.bytes.length))
           accs := s.accs.map fun a => if a.asid = asid ∧ hit a.va a.len then { a with xlat := none } else a }
/-- MEM_SHOOT: the purge of a shoot-down in progress. -/
def execMemShoot (part fn : Nat) (s : State) : Out :=
  match s.fn? part fn with
  | none => .next s
  | some f => if f.shootBusy then .next (purge s part fn f) else .next s
/-- SHOOT_COMPLETE: the purge is done, and BUSY falls. -/
def execShootComplete (part fn : Nat) (s : State) : Out :=
  match s.fn? part fn with
  | none => .next s
  | some f => if f.shootBusy then .next ((purge s part fn f).setFn part fn fun f => { f with shootBusy := false }) else .next s

/-- FRAME_RELEASE: steps 1 to 3 of R172. -/
def execFrameRelease (part fn : Nat) (s : State) : Out :=
  match s.fn? part fn with
  | none => .next s
  | some f =>
    if !f.relBusy || f.released then .next s else
    let (pa, z) := f.relRange
    let inFrame (a : Nat) : Bool := decide (pa ≤ a) && decide (a < pa + z)
    let gone (l : Line) : Bool := inFrame l.pa
    let mapped (e : TlbEntry) : Bool := decide (e.xlat.pa < pa + z) && decide (pa < e.xlat.pa + (if e.big then 2 ^ 21 else 2 ^ 16))
    let s := if bits f.rel.toNat 1 1 = 1 then (s.lines.filter gone).foldl writeBack s else s
    let names (b : Block) : Bool := b.asid.isSome && inFrame b.pa
    .next ({ s with lines := s.lines.filter (fun l => !gone l), tlb := s.tlb.filter (fun e => !mapped e)
                    blocks := s.blocks.filter (fun b => !names b)
                    mem := s.mem.filter (fun x => !inFrame x.1)
                    accs := s.accs.map fun (a : Acc) => if (a.xlat.map fun (t : Xlat) => inFrame t.pa).getD false then { a with xlat := none } else a }.setFn part fn fun f => { f with released := true })
/-- FRAME_RELEASE_COMPLETE: step 4 of R172. -/
def execFrameReleaseComplete (part fn : Nat) (s : State) : Out :=
  match s.fn? part fn with
  | none => .next s
  | some f => if f.relBusy && f.released then .next (s.setFn part fn fun f => { f with relBusy := false }) else .next s

/-! ### The group table (R293) -/

/-- Does a COLL in progress use an entry of the group table? -/
def groupInUse (s : State) (part grp : Nat) : Bool :=
  s.queues.any fun q => q.chain && q.part == part && (s.engine q.id).stage != .idle
    && match chainView s q.id with
      | none => true
      | some v => match v.cmd with | .ok c => c.kind == 5 && c.group == grp | .error _ => false
/-- A descriptor's members and fan-in, where it keeps its limits (R293). -/
def groupOf (own : Nat) (bs : List Byte) : Option (List Nat × Nat) :=
  let b (i : Nat) : Nat := (bs.getD i 0).toNat
  let (n, fan) := (b 64, b 65)
  let ms := (List.range n).map b
  if 1 ≤ n ∧ n ≤ 64 ∧ 2 ≤ fan ∧ fan ≤ 8 ∧ ms.all (fun m => decide (m ≤ 254))
      ∧ (List.range 64).all (fun i => decide (i < n) || b i == 255) ∧ (List.range 62).all (fun i => b (66 + i) == 0)
      ∧ ms.eraseDups.length = n ∧ ms.contains own then some (ms, fan) else none
/-- COLL_LOAD: a group descriptor read in the supervisor's space. -/
def execCollLoad (part : Nat) (s : State) : Out :=
  match s.part? part with
  | none => .next s
  | some p =>
    if !p.collBusy || p.collCmd != 1 || groupInUse s part p.collGroup || heldBack s [] part p.collFn p.collAddr.toNat 128 then .next s else
    let bs := if p.collAddr.toNat % 64 ≠ 0 then .error (0, Cause.misaligned) else homeRead s ⟨part, p.collFn, true⟩ p.collAddr.toNat .read 128
    let got := match bs with | .ok bs => groupOf s.deviceNumber bs | .error _ => none
    .next (s.setPart part fun p =>
      match got with
      | none => { p with collBusy := false, collFail := true }
      | some g => { p with collBusy := false, collFail := false, groups := (p.collGroup, g) :: p.groups.filter (·.1 != p.collGroup) })
/-- COLL_CLEAR. -/
def execCollClear (part : Nat) (s : State) : Out :=
  match s.part? part with
  | none => .next s
  | some p =>
    if !p.collBusy || p.collCmd != 2 || groupInUse s part p.collGroup then .next s else
    .next (s.setPart part fun p => { p with collBusy := false, collFail := false, groups := p.groups.filter (·.1 != p.collGroup) })

/-! ### Page hotness (R186) -/

/-- The 16 bytes of a log record. -/
def hotRecord (count src asid page : Nat) : List Byte :=
  bytesOfNat 16 (page * 2 ^ 16 + asid % 2 ^ 16 * 2 ^ 72 + src % 256 * 2 ^ 88 + count % 2 ^ 32 * 2 ^ 96)
/-- HOT_THRESHOLD: a counter that has reached HOT.THR is logged, or counted as dropped when the log is full, and reset. -/
def execHotThreshold (port page src part fn : Nat) (s : State) : Out :=
  match s.part? part with
  | none => .next s
  | some p =>
    let k := hotKey (s.asid part fn) port page src
    let n := sget 0 s.hot k
    if p.hotThr = 0 ∨ n < p.hotThr.toNat then .next s else
    let cleared := { s with hot := sput 0 s.hot k 0 }
    if p.hotHead - p.hotTail = p.hotSize then .next (cleared.setPart part fun p => { p with hotDrop := p.hotDrop + 1 })
    else
      let a := p.hotBase.toNat * 65536 + 16 * (p.hotHead.toNat % p.hotSize.toNat)
      if heldBack s [] part 64 a 16 then .next s else
      match homeWrite cleared ⟨part, 64, true⟩ none a (hotRecord n src (s.asid part fn) page) with
      | .ok s => .next (s.setPart part fun p => { p with hotHead := p.hotHead + 1 })
      | .error _ => .next (cleared.setPart part fun p => { p with hotDrop := p.hotDrop + 1 })

end Sys2Proof.Machine
end

