-- ==== Sys2Proof/Machine/Power.lean ====
section
/-! DEFINITION. Functions and quanta, context swaps, failed parts, partitions, islands, power and temperature, Narcy and the
host's own accesses (R192, R269 to R273, R276, R278, R284 to R287, R289, R297 to R301, R314). -/

namespace Sys2Proof.Machine

/-! ### Work and the next holder (R272, R276) -/

/-- Has a launch a cell that is resident, running, or a candidate (R276)? -/
def Launch.hasWork (now : Nat) (l : Launch) : Bool :=
  match l.kind with
  | .grid => l.cells.any (!·.ended)
  | _ => l.cells.any fun e => e.running || (!l.unplating && l.candidate now e)
/-- The highest class in which a function has work. -/
def workClass (s : State) (part fn : Nat) : Option Nat :=
  (s.launches.filter fun l => l.part == part && l.fn == fn && l.hasWork s.now).foldl (fun m l =>
    match m with
    | none => some l.prio
    | some p => some (min p l.prio)) none
/-- Admission to the rotation (R272): every function with work where a save area is set, else two at most. -/
def admitFns (s : State) (part : Nat) : State :=
  match s.part? part with
  | none => s
  | some p =>
    let fs := (s.fns.filter fun f => f.part == part && decide (f.num < 64)).map fun f => (f, workClass s part f.num)
    let kept := (fs.filter fun x => x.1.admitted && x.2.isSome).map (·.1.num)
    let waiting := sortBy (fun (x y : Fn × Option Nat) =>
      let key (z : Fn × Option Nat) : Nat × Nat × Nat := (z.2.getD 0, (if z.1.waitSince = 0 then s.now + 1 else z.1.waitSince), z.1.num)
      decide (key x = key y) || decide ((key x).1 < (key y).1)
        || ((key x).1 == (key y).1 && (decide ((key x).2.1 < (key y).2.1) || ((key x).2.1 == (key y).2.1 && decide ((key x).2.2 < (key y).2.2))))) (fs.filter fun x => !x.1.admitted && x.2.isSome)
    let room := if p.ctxBase = 0 then 2 - kept.length else waiting.length
    let new := (waiting.take room).map (·.1.num)
    { s with fns := s.fns.map fun f =>
        if f.part ≠ part ∨ 64 ≤ f.num then f
        else if kept.contains f.num || new.contains f.num then { f with admitted := true, waitSince := 0 }
        else if (workClass s part f.num).isSome then { f with admitted := false, waitSince := if f.waitSince = 0 then s.now + 1 else f.waitSince }
        else { f with admitted := false, waitSince := 0 } }
/-- The next holder (R276): the highest class with work, positive weights first, the next in ascending number after the last
holder. -/
def nextHolder (s : State) (part : Nat) : Option Nat :=
  match s.part? part with
  | none => none
  | some p =>
    let fs := (s.fns.filter fun f => f.part == part && decide (f.num < 64) && f.admitted && !f.resetting).filterMap fun f =>
      (workClass s part f.num).map fun c => (f, c)
    let best := fs.foldl (fun m x => min m x.2) 4
    let top := (fs.filter (·.2 == best)).map (·.1)
    let top := if top.any fun f => decide (0 < f.weight) then top.filter fun f => decide (0 < f.weight) else top
    ((List.range 64).map fun k => (p.lastHolder + 1 + k) % 64).find? fun n => top.any (·.num == n)
/-- Has the holder's slice ended (R276)? -/
def sliceOver (s : State) (p : Partition) (h : Nat) : Bool :=
  let mine := workClass s p.id h
  let others := s.fns.filter fun f => f.part == p.id && decide (f.num < 64) && f.num != h && f.admitted && !f.resetting
  let weight := ((s.fn? p.id h).map (·.weight)).getD 1
  mine.isNone || decide (p.sliceLeft ≤ s.cycles p.clockIsland)
  || others.any (fun f => match workClass s p.id f.num, mine with | some c, some m => decide (c < m) | _, _ => false)
  || (weight == 0 && others.any fun f => decide (0 < f.weight) && (workClass s p.id f.num).isSome)
/-- A function begins a slice. -/
def beginSlice (s : State) (part h : Nat) : State :=
  match s.part? part, s.fn? part h with
  | some p, some f =>
    s.setPart part fun p' => { p' with holder := some h, lastHolder := h, swapping := false, staged := none
                                       sliceLeft := s.cycles p.clockIsland + f.quantum * max f.weight 1 }
  | _, _ => s
def functionCells (s : State) (part fn : Nat) : List Cell := s.cells.filter fun c => c.part == part && c.fn == fn
/-- SLICE_EXPIRY (R276): the slice ends; a swap begins with the halt, or the same function takes the next slice. -/
def execSliceExpiry (part : Nat) (s : State) : Out :=
  let s := admitFns s part
  match s.part? part with
  | none => .next s
  | some p =>
    match p.holder with
    | none => .next s
    | some h =>
      if p.swapping || !sliceOver s p h then .next s else
      match nextHolder s part with
      | some n => if n = h then .next (beginSlice s part h) else .next (endPins (s.setPart part fun p => { p with swapping := true })
          fun q => (functionCells s part h).any (·.id == q.cell))
      | none => .next (if (functionCells s part h).isEmpty then s.setPart part fun p => { p with holder := none } else s)

/-! ### Context swaps (R259, R269 to R271) -/

/-- A request or operation that is kept with its context, to be sent again at restore (R269). -/
def Op.kept (o : Op) : Bool :=
  o.refused.isSome || match o.kind with
  | .gather _ _ _ _ | .proof _ _ _ | .mma _ _ _ _ _ _ _ | .mrd _ _ _ _ | .mst _ _ _ _ _ | .mwr _ _ _ _ _ | .mzero _ _ _ => true
  | _ => false
/-- The context of a function has drained (R269). -/
def contextDrained (s : State) (part fn : Nat) : Bool :=
  let mine (c : Nat) : Bool := s.cells.any fun x => x.id == c && x.part == part && x.fn == fn && x.resident
  s.accs.all (fun a => !mine a.owner.cell || a.kind == .load || s.stuck a.id) && s.ops.all fun o => !mine o.owner.cell || o.kept || s.stuck o.id
/-- The halt: transactions abort with cause 5, loads and list reads go back to be sent again (R225, R269). So does a PROOF, with a new
snapshot at a later point (R353), as long as its answer is not all delivered. -/
def haltContext (s : State) (part fn : Nat) : State :=
  let cells := (functionCells s part fn).filter (·.resident)
  let mine (c : Nat) : Bool := cells.any (·.id == c)
  let s := cells.foldl (fun s c => c.fibres.foldl (fun s f => abortTx s ⟨c.id, f.idx⟩ 5) s) s
  { s with accs := s.accs.map fun a => if mine a.owner.cell && !a.refused then { a with stage := .queued, got := 0, result := [], xlat := none } else a
           ops := s.ops.map fun o =>
             if !mine o.owner.cell || o.refused.isSome then o else
             match o.kind with
             | .gather off h c _ => { o with kind := .gather off h c none, result := none, got := 0 }
             | .proof _ _ _ => { o with result := none, got := 0 }
             | _ => o }
/-- What a function's cells, ended ones too, hold in the matrix units: of each tile the elements, the run and the record that are
theirs, and the status words they set (R142, R342). The cells of another function, the physical one's among them, keep theirs
(R302). -/
def fnTiles (s : State) (part fn : Nat) : List (Nat × TileState) :=
  (s.mxTiles.map fun x => (x.1, x.2.keep (· == mxOwner part fn) (fun _ => true) (x.2.leftBy == some (part, fn)) false)).filter (·.2 != {})
/-- What the tiles hold without that. -/
def otherTiles (s : State) (part fn : Nat) : List (Nat × TileState) :=
  s.mxTiles.map fun x => (x.1, x.2.keep (· != mxOwner part fn) (fun _ => true) (x.2.leftBy != some (part, fn)) false)
/-- Has a tile an open run, or rows of the first MMA of one that a fault has halted (R148, R345)? -/
def TileState.hasRun (t : TileState) : Bool := t.runLen != 0 || !t.chans.isEmpty
/-- A tile takes back what a context saved of it: every element but those that a cell of the physical function has written meanwhile,
the record and the open run unless such a cell has left its own there; a run that would meet one is closed (DESIGN CHOICE: R302 lets
both functions' cells stand on one cluster, and no rule says how their tiles meet). -/
def TileState.takeBack (live saved : TileState) : TileState :=
  let old := if live.hasRun then (closeRun saved).1 else saved
  let mine (e : Nat) : Bool := live.writer e == 0
  let t : TileState := { live with
    elems := (old.elems.filter fun x => mine x.1).foldl (fun m x => sput 0 m x.1 x.2) live.elems
    wroteBy := (old.wroteBy.filter fun x => mine x.1).foldl (fun m x => sput 0 m x.1 x.2) live.wroteBy
    wroteAll := if live.wroteAll = 0 then old.wroteAll else live.wroteAll }
  let t : TileState := if old.leftBy.isSome ∧ live.leftBy.isNone then
    { t with slot := old.slot, rows := old.rows, cols := old.cols, leftBy := old.leftBy } else t
  if !old.hasRun then t else
    { t with runLen := old.runLen, runSlot := old.runSlot, runScales := old.runScales, chans := old.chans, voidRows := old.voidRows
             voidCols := old.voidCols, runRows := old.runRows, runCols := old.runCols, leftBy := old.leftBy }
def fnStatus (s : State) (part fn : Nat) : List (Nat × Word) := s.mxStatus.filter fun x => sget 0 s.mxBy x.1 == mxOwner part fn
/-- The trap records of a context's parked fibres and handlers, by cell and fibre in order (R259). -/
def contextRecords (s : State) (p : Partition) (fn : Nat) : List (Nat × List Byte) :=
  ((functionCells s p.id fn).filter (·.resident)).flatMap fun c => c.fibres.filterMap fun f =>
    let a := recordAddr p c.cluster f.slot
    if f.handler.isSome || (match f.status with | .parked _ _ => true | _ => false) then some (a, bytesAt s.mem a 256) else none
/-- What a function's cells have in the matrix units, tiles and status words, leaves them (R142, R342). -/
def clearUnits (s : State) (part fn : Nat) : State :=
  { s with mxTiles := otherTiles s part fn
           mxStatus := s.mxStatus.filter fun t => sget 0 s.mxBy t.1 != mxOwner part fn
           mxBy := s.mxBy.filter fun t => t.2 != mxOwner part fn }
/-- Save the resident context of a function. What its ended cells left in the units leaves them with it (R142, R342); of a function
without a resident cell there is no context, and what its cells left is dropped (DESIGN CHOICE: R269 saves a context, and R142
and R342 do not say what becomes of the words and tiles of a function that leaves none). -/
def saveContext (s : State) (p : Partition) (fn : Nat) : State :=
  let cells := (functionCells s p.id fn).filter (·.resident)
  if cells.isEmpty then clearUnits s p.id fn else
  let s := haltContext s p.id fn
  let x : Saved := {
    part := p.id, fn := fn, tag := (cells.map (·.saveTag)).headD 0, inArea := false, records := contextRecords s p fn
    tiles := fnTiles s p.id fn, mx := fnStatus s p.id fn }
  { clearUnits s p.id fn with
           saved := x :: s.saved
           cells := s.cells.map fun c => if c.part = p.id ∧ c.fn = fn then { c with resident := false } else c }
/-- Blocked fibres are tested again (R269): the channel waits here, every other wait by what follows a change. -/
def retest (s : State) (c : Cell) : State :=
  c.fibres.foldl (fun s f =>
    match f.status with
    | .blocked (.send ch _) | .blocked (.recv ch _ _) => chanSettle s c.id ch
    | _ => s) s
/-- At restore the owed requests go out again (R269): those refused at their homes, the stores of a refusal record apart; a matrix
fault stays for ERET (R267), and so does a SCATTER (R362). -/
def replayOwed (s : State) (mine : Nat → Bool) : State :=
  { s with
    accs := s.accs.map fun a =>
      if mine a.owner.cell && a.refused && !a.kind.posted then { a with stage := .queued, got := 0, result := [], xlat := none } else a
    ops := s.ops.map fun o =>
      if !(mine o.owner.cell && o.refused.isSome && o.tileTurn.isNone) then o else
      match o.kind with
      | .gather off h c _ => { o with refused := none, result := none, got := 0, kind := .gather off h c none }
      | .scatter _ _ _ _ => o
      | _ => { o with refused := none } }
/-- Restore the saved context of a function: its tag rises, its records, tiles and status words come back, its owed requests go
out (R259, R269, R270). Each tile takes back what was saved of it, and each cell stands where it stood, its cluster at its split
again (R16, R158). No cell of the physical function has taken its slots, its quadrant's room or its scratch meanwhile, nor brought
another split: the placement of that function leaves room for saved contexts (occupants; DESIGN CHOICE: R16, R157, R158 and R302 do
not say where a saved context finds its room). -/
def restoreContext (s : State) (part fn : Nat) : State :=
  match s.saved.find? fun x => x.part == part && x.fn == fn with
  | none => s
  | some x =>
    let s := x.records.foldl (fun s r =>
      invalRecord ((functionCells s part fn).foldl (fun s c => dropBlocks s c.cluster none r.1 256) { s with mem := putBytes s.mem r.1 r.2 }) r.1) s
    let mine (c : Nat) : Bool := s.cells.any fun y => y.id == c && y.part == part && y.fn == fn
    let back := x.tiles.map fun t => (t.1, (s.tile (t.1 / 8) (t.1 % 8)).takeBack t.2)
    let s := replayOwed { s with
      saved := s.saved.filter fun y => !(y.part == part && y.fn == fn)
      mxTiles := back ++ s.mxTiles.filter fun t => !back.any (·.1 == t.1)
      mxStatus := x.mx.foldl (fun m v => sput 0 m v.1 (sget 0 m v.1 ||| v.2)) s.mxStatus
      mxBy := x.mx.foldl (fun m v => sput 0 m v.1 (mxOwner part fn)) s.mxBy
      cells := s.cells.map fun c => if c.part = part ∧ c.fn = fn then
        { c with resident := true, saveTag := c.saveTag + 1, fibres := c.fibres.map fun f => { f with since := s.now } } else c
      accs := s.accs.map fun a => if mine a.owner.cell then { a with tag := a.tag + 1 } else a } mine
    (functionCells s part fn).foldl (fun s c => retest (s.setSplit c.cluster (c.scratchSize / 131072)) c) s
/-- Write a saved context to its slots of the context save area (R272), by physical address: 2 MiB for each cluster. -/
def writeOut (s : State) (p : Partition) (x : Saved) : State :=
  let cs := ((functionCells s p.id x.fn).map (·.cluster)).eraseDups
  { s with mem := cs.foldl (fun m c =>
      let a := p.ctxBase.toNat + 2 ^ 21 * (64 * p.clusters.idxOf c + x.fn)
      if s.physOk a then putBytes m a ((Config.contextBytes x.fn c x.tag.toNat).take (2 ^ 21)) else m) s.mem
           saved := s.saved.map fun y => if y.part = p.id ∧ y.fn = x.fn then { y with inArea := true } else y }
/-- Shadow storage holds two contexts of each cluster (R16, R272): where there is a save area, every saved context
is written to its slots of it. -/
def stageFor (s : State) (p : Partition) : State :=
  if p.ctxBase = 0 then s else (s.saved.filter fun x => x.part == p.id && !x.inArea).foldl (writeOut · p ·) s
/-- CONTEXT_SWAP (R271): the outgoing context is saved once it has drained, and the next holder's restored; a partition that
no function holds goes to the next with work. -/
def execContextSwap (part : Nat) (s : State) : Out :=
  let s := admitFns s part
  match s.part? part with
  | none => .next s
  | some p =>
    match p.holder with
    | some h =>
      if !p.swapping || !contextDrained s part h then .next s else
      match nextHolder s part with
      | none => .next (s.setPart part fun p => { p with swapping := false })
      | some n =>
        if n = h then .next (afterAll (beginSlice s part h))
        else .next (afterAll (beginSlice (restoreContext (saveContext (if p.staged = some n then s else stageFor s p) p h) part n) part n))
    | none =>
      match nextHolder s part with
      | none => .next s
      | some n => .next (afterAll (beginSlice (restoreContext s part n) part n))
/-- CONTEXT_STAGING (R272): the saved contexts, the outgoing one among them, reach the area; the next holder's is staged. With
CTX.BASE at 0 there is no area. -/
def execContextStaging (part : Nat) (s : State) : Out :=
  match s.part? part with
  | none => .next s
  | some p =>
    if p.ctxBase = 0 ∨ p.swapping then .next s else
    let n := nextHolder s part
    .next ((stageFor s p).setPart part fun p => { p with staged := n })

/-! ### Failed parts (R278, R289) -/

/-- The commands that cells of a cluster appended and that have not completed end with STATUS 4: those not yet taken are
marked by issuer 0, and the one in progress has performed. -/
def failCommands (s : State) (cells : List Nat) : State :=
  let s := { s with queues := s.queues.map fun (q : QueueReg) =>
    if q.chain then { q with posted := q.posted.map fun (x : Nat × Nat × Nat) => if cells.contains x.2.2 then (x.1, x.2.1, 0) else x } else q }
  { s with engines := s.engines.map fun (e : Engine) =>
      match chainView s e.queue, e.stage with
      | some v, .acquired =>
        if v.reg.posted.any fun x => x.1 == (v.hdr.head + 1) % 2 ^ 32 && x.2.2 == 0 then { queue := e.queue, stage := .performed 4 0 } else e
      | _, _ => e }
/-- A cell on a retired cluster: an update is abandoned; a grid cell starts again, or its packet fails (R278). One that starts again
has not ended, so that CBAR of its cohort waits for it (R39). A request that leads a group with members of other cells goes on to its
home for them, as a request of no fibre (R215, R219). -/
def failCell (s : State) (c : Cell) : State :=
  let kind := kindOf s c
  let restart := ((s.launch? c.launch).map (·.rcd.restartable)).getD false
  let mine (r : FRef) : Bool := r.cell == c.id
  let leads (a : Acc) : Bool := s.accs.any fun b => !mine b.owner && a.members.any (·.1 == b.id)
  let s := { s with accs := (s.accs.filter fun a => !mine a.owner || leads a).map fun (a : Acc) => if mine a.owner then { a with owner := ⟨c.id, 1024⟩ } else a
                    ops := s.ops.filter (fun o => !mine o.owner)
                    pins := s.pins.filter (·.cell != c.id) }
  let s := if kind = .grid ∧ restart then s.setLaunch c.launch fun l => l.setEntry c.index fun e => { e with failed := true } else s
  let s := c.fibres.foldl (fun s f => finishQuit s ⟨c.id, f.idx⟩) s
  if kind = .grid then
    if restart then s.setLaunch c.launch fun l => { (l.setEntry c.index fun e => { e with rho := infWord, ended := false, running := false }) with conv := false, gen := 0 }
    else { s with packets := s.packets.map fun p => if p.stage = .launched ∧ p.launch = c.launch then { p with failed := 4 } else p }
  else s
/-- The spare cluster wired to a cluster's island, as the model numbers it: position 48 of a die for its islands 0 and 1, 49 for 2
and 3 (R15). -/
def spareOf (c : Nat) : Nat := 2 * dieOf c + c % 48 / 24
/-- Is a spare left for a part (R14, R15, R20)? Two clusters and two slices for each die, the left-over slot of each bank; the
spec counts no spares of the fibre lanes. A wavelength is numbered 17 times its bank plus its slot. -/
def spareLeft (s : State) : Part → Bool
  | .cluster c => decide (c < 192) && !s.spares.any fun x => x.1 == 0 && spareOf x.2 == spareOf c
  | .slice n => decide (n < 256) && decide ((s.spares.filter fun x => x.1 == 1 && x.2 / 64 == n / 64).length < 2)
  | .wavelength n => decide (n < 17 * 256) && !s.spares.any fun x => x.1 == 2 && x.2 / 17 == n / 17
  | .fibreLane _ => true
/-- The ring on a failed slot moves to the slot left over (R20, R278). -/
def moveToSpare (s : State) (b v : Nat) : State :=
  match (List.range 16).find? fun m => ringSlot s b m == v, (List.range 17).find? fun k => (List.range 16).all fun m => ringSlot s b m != k with
  | some m, some k => { s with rings := sput 0 s.rings (16 * b + m) (k + 1) }
  | _, _ => s
/-- PART_FAILURE (R278): a spare takes the logical place of the failed part. Where none is left the part cannot be retired, and
nothing changes (DESIGN CHOICE: the spec is silent). The cluster that takes a failed one's index takes its split of scratch and L1 too
(DESIGN CHOICE: R15, R158 and R278 give a spare none of its own). -/
def execPartFailure (p : Part) (s : State) : Out :=
  if !spareLeft s p then .next s else
  match p with
  | .cluster c =>
    let cells := s.cells.filter fun x => x.resident && x.cluster == c
    let s := cells.foldl failCell s
    let s := failCommands s (cells.map (·.id))
    .next (afterAll { s with blocks := s.blocks.filter (·.cluster != c), invals := s.invals.filter (·.1 != c)
                             mxTiles := s.mxTiles.filter (·.1 / 32 != c), mxStatus := s.mxStatus.filter (·.1 / 4 != c)
                             mxBy := s.mxBy.filter (·.1 / 4 != c)
                             leftScratch := s.leftScratch.filter (·.1.1 != c), spares := s.spares ++ [(0, c)] })
  | .slice n =>
    let lost (l : Line) : Bool := homeSlice (64 * l.line) == n
    .next { s with lines := (s.lines.filter fun l => !lost l || l.dirty).map fun l =>
                     if lost l && Config.freeBit (s.free + l.line) then { l with poison := true } else l
                   free := s.free + 2 ^ 64, spares := s.spares ++ [(1, n)] }
  | .wavelength n => .next { moveToSpare s (n / 17) (n % 17) with spares := s.spares ++ [(2, n)] }
  | .fibreLane n => .next { s with spares := s.spares ++ [(3, n)] }
/-- POOL_DEVICE_LOST (R289). -/
def execPoolDeviceLost (port : Nat) (s : State) : Out :=
  .next (if s.lostPorts.contains port then s else { s with lostPorts := s.lostPorts ++ [port] })

/-! ### Islands, throttles and power (R273, R297 to R299, R314) -/

/-- A byte of a vault of an island. -/
def inIsland (island a : Nat) : Bool :=
  decide (vaultBase ≤ a) && decide (a < vaultBase + 192 * vaultSize) && islandOf ((a - vaultBase) / vaultSize) == island
/-- An island's state changes; in Off its vaults and its clusters lose what they held; a count of cycles starts at zero (R273,
R314). -/
def setIslandMode (s : State) (island : Nat) (m : IslandMode) : State :=
  let s := s.setIsland island fun _ => { mode := m, baseTick := s.now }
  let out (c : Nat) : Bool := islandOf c != island
  if m = .off then
    { s with mem := s.mem.filter fun x => !inIsland island x.1
             blocks := s.blocks.filter fun b => out b.cluster
             mxTiles := s.mxTiles.filter fun x => out (x.1 / 32)
             mxStatus := s.mxStatus.filter fun x => out (x.1 / 4)
             mxBy := s.mxBy.filter fun x => out (x.1 / 4)
             leftScratch := s.leftScratch.filter fun x => out x.1.1
             splits := s.splits.filter fun x => out x.1 }
  else s
/-- ISLAND_STATE_CHANGE (R273): an island leaves Running only when no partition holds it; those of a die whose image failed stay in
reset (R300). -/
def execIslandStateChange (island : Nat) (m : IslandMode) (s : State) : Out :=
  if 16 ≤ island ∨ (s.island island).mode = m ∨ (m = .running ∧ s.narcy.failed.contains (island / 4)) then .next s
  else if (s.island island).mode = .running ∧ s.parts.any (fun p => p.islands.contains island) then .next s
  else .next (setIslandMode s island m)

/-- Points that a thermal or a current action takes are counted apart, since each gives back its own (R299). -/
def Island.took (x : Island) (heat : Bool) (n : Nat) : Island := if heat then { x with heat := x.heat + n } else { x with amps := x.amps + n }
def Island.owed (x : Island) (heat : Bool) : Nat := if heat then x.heat else x.amps
/-- Down to a point; a change in progress ends, its hint kept as the point to return to. An island that stands at its lowest point
already is held there all the same (R299). -/
def downTo (s : State) (i : Nat) (heat : Bool) (p : Nat) : State :=
  let x := s.island i
  if x.mode ≠ .running then s else
  (s.setPoint i p).setIsland i fun y =>
    (if heat then { y with settling := false, hot := true, heatAt := s.now } else { y with settling := false, current := true, ampsAt := s.now } : Island).took heat (x.point - p)
/-- One kind of action holds the island back no longer; when none does, it takes a hint that came meanwhile (R299). -/
def Island.release (x : Island) (heat : Bool) : Island :=
  let x : Island := if heat then { x with heat := 0, hot := false } else { x with amps := 0, current := false }
  if x.hot || x.current then x else { x with settling := x.hint != x.point }
/-- One point down, 5/8 the lowest. -/
def stepDown (s : State) (i : Nat) (heat : Bool) : State := downTo s i heat (max 5 ((s.island i).point - 1))
/-- Is a kind of action at its end: the island stands at its last hint, or all that it took is given back and the other kind, which
still holds the island, gives back the rest? -/
def Island.back (x : Island) (heat : Bool) : Bool := decide (x.hint ≤ x.point) || (x.owed heat == 0 && if heat then x.current else x.hot)
/-- One point up, as far as the last hint, one that came meanwhile among them: an island returns to it point by point; at its end that
kind of action releases the island. -/
def stepUp (s : State) (i : Nat) (heat : Bool) : State :=
  let x := s.island i
  if x.mode ≠ .running ∨ !(if heat then x.hot else x.current) then s else
  if x.back heat then s.setIsland i (·.release heat) else
  (s.setPoint i (x.point + 1)).setIsland i fun y =>
    let y : Island := if heat then { y with heat := y.heat - 1, heatAt := s.now } else { y with amps := y.amps - 1, ampsAt := s.now }
    if y.back heat then y.release heat else y
def dieIslands (die : Nat) : List Nat := (List.range 4).map (4 * die + ·)
/-- The reading of a die in units of 1/16 °C. -/
def dieTemp (s : State) (die : Nat) : Int := sextInt (sget 0 s.temps die) 16
/-- CURRENT_THROTTLE: the core current is over its limit. -/
def execCurrentThrottle (s : State) : Out := .next (releaseDvfs ((List.range 16).foldl (stepDown · · false) s))
/-- CURRENT_STEP_UP: 1 ms below the limit has passed. -/
def execCurrentStepUp (s : State) : Out :=
  .next ((List.range 16).foldl (fun s i =>
    if (s.island i).ampsAt + 1000 * ticksPerMicro ≤ s.now then stepUp s i false else s) s)
/-- THERMAL_STEP_DOWN: a die above 95 °C, every 100 µs. -/
def execThermalStepDown (die : Nat) (s : State) : Out :=
  if 95 * 16 < dieTemp s die then
    .next (releaseDvfs ((dieIslands die).foldl (fun s i =>
      let t := (s.island i).heatAt
      if t = 0 ∨ t + 100 * ticksPerMicro ≤ s.now then stepDown s i true else s) s))
  else .next s
/-- THERMAL_STEP_UP: a die at or below 90 °C, every 100 µs. -/
def execThermalStepUp (die : Nat) (s : State) : Out :=
  if dieTemp s die ≤ 90 * 16 then
    .next ((dieIslands die).foldl (fun s i =>
      if (s.island i).heatAt + 100 * ticksPerMicro ≤ s.now then stepUp s i true else s) s)
  else .next s
/-- THERMAL_EMERGENCY: a die above 105 °C sends every island to 5/8. -/
def execThermalEmergency (s : State) : Out :=
  if (List.range 4).any fun d => 105 * 16 < dieTemp s d then
    .next (releaseDvfs ((List.range 16).foldl (fun s i => downTo s i true 5) s))
  else .next s

/-- What outlasts a loss of power: time, the memories behind the ports and the host's, the images, the readings of the
environment, the lost ports, the failed parts with the rings moved off failed slots, what other devices hold. -/
def unpower (s : State) : State :=
  { State.reset with
    powered := false, grade20 := s.grade20, now := s.now, tempo := s.tempo, free := s.free, next := s.next, agenda := s.agenda
    mem := s.mem.filter (fun x => decide (x.1 < 2 ^ 48)), temps := s.temps, lostPorts := s.lostPorts, spares := s.spares
    rings := s.rings.filter (fun x => s.spares.any fun y => y.1 == 2 && y.2 / 17 == x.1 / 16), peers := s.peers
    narcy := { images := s.narcy.images }, deviceNumber := s.deviceNumber
    islands := List.replicate 16 { mode := .off } }
/-- THERMTRIP: a die above 115 °C; the power stage removes all rails. -/
def execThermtrip (s : State) : Out :=
  if s.powered && (List.range 4).any fun d => 115 * 16 < dieTemp s d then .next { unpower s with thermtrip := true } else .next s
/-- POWER_DOWN (R297, R298). -/
def execPowerDown (s : State) : Out := if s.powered then .next (unpower s) else .next s
/-- POWER_UP (R298, R300): Narcy measures the image of each die; a die whose image fails stays in reset, and the partitions
that hold islands of it report a fatal error. -/
def execPowerUp (s : State) : Out :=
  if s.powered then .next s else
  let ok (d : Nat) : Bool := match s.narcy.images[d]? with | none => true | some i => Config.imageVerifies i
  let bad := (List.range 4).filter fun d => !ok d
  .next { s with
    powered := true, thermtrip := false
    narcy := { s.narcy with log := s.narcy.log ++ s.narcy.images.flatMap Config.sha3, failed := bad }
    islands := (List.range 16).map fun i => { mode := if bad.contains (i / 4) then .reset else .running, baseTick := s.now }
    parts := s.parts.map fun p => { p with aer := p.aer ++ (bad.filter fun d => p.islands.any fun i => i / 4 == d).map fun _ => 2 } }

/-- PARTITION_RESET (R261, R273, R276): everything of the partition goes; its islands pass through Reset; its registers and its
functions' take their reset values; no function holds it. The lines it left dirty are written to memory. -/
def execPartitionReset (part : Nat) (s : State) : Out :=
  match s.part? part with
  | none => .next s
  | some p =>
    let mine (c : Nat) : Bool := s.cells.any fun x => x.id == c && x.part == part
    let qs := (s.queues.filter (·.part == part)).map (·.id)
    let ls := (s.launches.filter (·.part == part)).map (·.id)
    let cs := p.clusters
    let s := (s.lines.filter (·.part == part)).foldl writeBack s
    let s := { s with
      cells := s.cells.filter (·.part != part), accs := s.accs.filter (·.part != part), ops := s.ops.filter (fun o => !mine o.owner.cell)
      crosshatch := s.crosshatch.filter (fun e => !mine e.cell), pins := s.pins.filter (·.part != part)
      launches := s.launches.filter (·.part != part), draining := s.draining.filter (fun x => !ls.contains x.2)
      frames := s.frames.filter (·.part != part), queues := s.queues.filter (·.part != part)
      packets := s.packets.filter (fun x => !qs.contains x.queue), engines := s.engines.filter (fun e => !qs.contains e.queue)
      lines := s.lines.filter (·.part != part), tlb := s.tlb.filter (·.part != part)
      blocks := s.blocks.filter (fun b => !cs.contains b.cluster), invals := s.invals.filter (fun x => !cs.contains x.1)
      mxTiles := s.mxTiles.filter (fun x => !cs.contains (x.1 / 32)), mxStatus := s.mxStatus.filter (fun x => !cs.contains (x.1 / 4))
      mxBy := s.mxBy.filter (fun x => !cs.contains (x.1 / 4))
      leftScratch := s.leftScratch.filter (fun x => x.1.2.1 != part), splits := s.splits.filter (fun x => !cs.contains x.1)
      saved := s.saved.filter (·.part != part)
      fns := s.fns.map fun (f : Fn) => if f.part = part then { part := part, num := f.num } else f }
    let s := s.setPart part fun p => { id := part, islands := p.islands, share := p.share }
    .next (p.islands.foldl (fun s i => if (s.island i).mode = .running then setIslandMode s i .running else s) s)

/-! ### Narcy and the host (R192, R284 to R286, R300, R301) -/

/-- What CONFIG reports of: the islands of each partition, and how many virtual functions each carries (R301). -/
def partitionMap (s : State) : List (List Nat) := s.parts.map (·.islands)
def functionCounts (s : State) : List Nat := s.parts.map fun p => (s.fns.filter fun f => f.part == p.id && decide (f.num < 64)).length
/-- ATTESTATION_REQUEST (R301), through the mailbox (R286): NONCE, LOGDIG, CONFIG, SIG. -/
def execAttestationRequest (nonce : List Byte) (s : State) : Out :=
  if nonce.length ≠ 32 then .next s else
  let body := nonce ++ Config.sha3 s.narcy.log ++ Config.attestConfig (partitionMap s) (functionCounts s)
  .next { s with narcy := { s.narcy with reports := s.narcy.reports ++ [body ++ Config.identitySign (Config.sha3 body)] } }

/-- The vault address that an offset of BAR 2 names (R286). -/
def hostVaultAddr (s : State) (part off : Nat) : Option Nat :=
  (s.part? part).bind fun p => (p.clusters[off / vaultSize]?).map fun v => vaultBase + v * vaultSize + off % vaultSize
/-- What a host read of a vault byte returns (R286). -/
def hostVaultByte (s : State) (part off : Nat) : Option Byte :=
  (hostVaultAddr s part off).bind fun a => if heldBack s [] part 64 a 1 then none else some (bget s.mem a)
/-- HOST_VAULT_ACCESS (R286): a read changes nothing; a write is made at the vault's home. Either receives RETRY at a pinned
line (R199). -/
def execHostVaultAccess (part off : Nat) (write : Option (List Byte)) (len : Nat) (s : State) : Out :=
  match write, hostVaultAddr s part off with
  | some bs, some a =>
    if bs.length ≠ len ∨ vaultSize < off % vaultSize + len ∨ heldBack s [] part 64 a len then .next s else
    match homeWrite s ⟨part, 64, true⟩ none a bs with
    | .ok s => .next (afterAll s)
    | .error _ => .next s
  | _, _ => .next s
/-- HOST_LINK_TRAINING (R284): 64, 32, 16, 8, 5 or 2.5 GT/s, at x16, x8, x4 or x1; CXL.cache at the two highest rates only. 2
stands for 2.5 GT/s. -/
def execHostLinkTraining (gts width : Nat) (cxlCache : Bool) (s : State) : Out :=
  if [64, 32, 16, 8, 5, 2].contains gts && [16, 8, 4, 1].contains width then
    .next { s with link := (gts, width), cxlCache := cxlCache && (gts == 64 || gts == 32) }
  else .next s
/-- HOST_SNOOP (R192, R199, R285): a snoop of a line of host memory is answered from its home slice: dirty bytes reach memory
and the line leaves the slice. At a pinned line it receives RETRY. -/
def execHostSnoop (line : Nat) (s : State) : Out :=
  let hit (l : Line) : Bool := l.pa / 64 == line && decide (2 ^ 47 ≤ l.pa)
  let held (l : Line) : Bool := s.pins.any fun p => p.asid == some l.asid && p.line == l.line
  if s.lines.any (fun l => hit l && held l) then .next s else
  let ls := s.lines.filter hit
  let s := ls.foldl (fun s l => invalidate (writeBack s l) none (some l.asid) l.line) s
  .next { s with lines := s.lines.filter fun l => !hit l }

end Sys2Proof.Machine
end

