-- ==== Sys2Proof/Machine/Dispatch.lean ====
section
/-! DEFINITION. One arm for each row of the opcode table, a direct call of its meaning. -/
namespace Sys2Proof.Machine
def exec (i : Instr) (s : State) : Host.Outcome State Fault Refusal :=
  match i with
  | .nop => Sys2Proof.Machine.execNop s
  | .iadd x1 x2 x3 x4 => Sys2Proof.Machine.execIadd x1 x2 x3 x4 s
  | .isub x1 x2 x3 x4 => Sys2Proof.Machine.execIsub x1 x2 x3 x4 s
  | .imul x1 x2 x3 x4 => Sys2Proof.Machine.execImul x1 x2 x3 x4 s
  | .imulh x1 x2 x3 x4 => Sys2Proof.Machine.execImulh x1 x2 x3 x4 s
  | .imad x1 x2 x3 x4 => Sys2Proof.Machine.execImad x1 x2 x3 x4 s
  | .imin x1 x2 x3 x4 => Sys2Proof.Machine.execImin x1 x2 x3 x4 s
  | .imax x1 x2 x3 x4 => Sys2Proof.Machine.execImax x1 x2 x3 x4 s
  | .and x1 x2 x3 x4 => Sys2Proof.Machine.execAnd x1 x2 x3 x4 s
  | .or x1 x2 x3 x4 => Sys2Proof.Machine.execOr x1 x2 x3 x4 s
  | .xor x1 x2 x3 x4 => Sys2Proof.Machine.execXor x1 x2 x3 x4 s
  | .andn x1 x2 x3 x4 => Sys2Proof.Machine.execAndn x1 x2 x3 x4 s
  | .shl x1 x2 x3 x4 => Sys2Proof.Machine.execShl x1 x2 x3 x4 s
  | .shr x1 x2 x3 x4 => Sys2Proof.Machine.execShr x1 x2 x3 x4 s
  | .sar x1 x2 x3 x4 => Sys2Proof.Machine.execSar x1 x2 x3 x4 s
  | .popc x1 x2 x3 => Sys2Proof.Machine.execPopc x1 x2 x3 s
  | .clz x1 x2 x3 => Sys2Proof.Machine.execClz x1 x2 x3 s
  | .brev x1 x2 => Sys2Proof.Machine.execBrev x1 x2 s
  | .iabs x1 x2 x3 => Sys2Proof.Machine.execIabs x1 x2 x3 s
  | .bfx x1 x2 x3 x4 => Sys2Proof.Machine.execBfx x1 x2 x3 x4 s
  | .bfi x1 x2 x3 => Sys2Proof.Machine.execBfi x1 x2 x3 s
  | .icmp x1 x2 x3 x4 x5 => Sys2Proof.Machine.execIcmp x1 x2 x3 x4 x5 s
  | .sel x1 x2 x3 x4 => Sys2Proof.Machine.execSel x1 x2 x3 x4 s
  | .mov x1 x2 x3 => Sys2Proof.Machine.execMov x1 x2 x3 s
  | .movKw x1 x2 => Sys2Proof.Machine.execMovKw x1 x2 s
  | .movKr x1 x2 => Sys2Proof.Machine.execMovKr x1 x2 s
  | .movi x1 x2 x3 => Sys2Proof.Machine.execMovi x1 x2 x3 s
  | .lea x1 x2 x3 x4 => Sys2Proof.Machine.execLea x1 x2 x3 x4 s
  | .idot4 x1 x2 x3 x4 => Sys2Proof.Machine.execIdot4 x1 x2 x3 x4 s
  | .fadd x1 x2 x3 x4 => Sys2Proof.Machine.execFadd x1 x2 x3 x4 s
  | .fsub x1 x2 x3 x4 => Sys2Proof.Machine.execFsub x1 x2 x3 x4 s
  | .fmul x1 x2 x3 x4 => Sys2Proof.Machine.execFmul x1 x2 x3 x4 s
  | .ffma x1 x2 x3 x4 => Sys2Proof.Machine.execFfma x1 x2 x3 x4 s
  | .fmin x1 x2 x3 x4 => Sys2Proof.Machine.execFmin x1 x2 x3 x4 s
  | .fmax x1 x2 x3 x4 => Sys2Proof.Machine.execFmax x1 x2 x3 x4 s
  | .fcmp x1 x2 x3 x4 => Sys2Proof.Machine.execFcmp x1 x2 x3 x4 s
  | .frcp x1 x2 => Sys2Proof.Machine.execFrcp x1 x2 s
  | .frsq x1 x2 => Sys2Proof.Machine.execFrsq x1 x2 s
  | .fsqrt x1 x2 => Sys2Proof.Machine.execFsqrt x1 x2 s
  | .fexp2 x1 x2 => Sys2Proof.Machine.execFexp2 x1 x2 s
  | .flog2 x1 x2 => Sys2Proof.Machine.execFlog2 x1 x2 s
  | .frnd x1 x2 x3 => Sys2Proof.Machine.execFrnd x1 x2 x3 s
  | .fcvt x1 x2 x3 x4 => Sys2Proof.Machine.execFcvt x1 x2 x3 x4 s
  | .fdot2 x1 x2 x3 => Sys2Proof.Machine.execFdot2 x1 x2 x3 s
  | .qcvt x1 x2 x3 x4 x5 => Sys2Proof.Machine.execQcvt x1 x2 x3 x4 x5 s
  | .qdeq x1 x2 x3 x4 x5 => Sys2Proof.Machine.execQdeq x1 x2 x3 x4 x5 s
  | .draw x1 x2 => Sys2Proof.Machine.execDraw x1 x2 s
  | .sample x1 x2 x3 => Sys2Proof.Machine.execSample x1 x2 x3 s
  | .topk x1 x2 x3 => Sys2Proof.Machine.execTopk x1 x2 x3 s
  | .ld x1 x2 x3 x4 x5 => Sys2Proof.Machine.execLd x1 x2 x3 x4 x5 s
  | .st x1 x2 x3 x4 x5 => Sys2Proof.Machine.execSt x1 x2 x3 x4 x5 s
  | .ldx x1 x2 x3 x4 x5 => Sys2Proof.Machine.execLdx x1 x2 x3 x4 x5 s
  | .stc x1 x2 x3 x4 x5 => Sys2Proof.Machine.execStc x1 x2 x3 x4 x5 s
  | .atom x1 x2 x3 x4 x5 x6 => Sys2Proof.Machine.execAtom x1 x2 x3 x4 x5 x6 s
  | .cas x1 x2 x3 x4 x5 => Sys2Proof.Machine.execCas x1 x2 x3 x4 x5 s
  | .red x1 x2 x3 x4 x5 => Sys2Proof.Machine.execRed x1 x2 x3 x4 x5 s
  | .fence x1 x2 x3 => Sys2Proof.Machine.execFence x1 x2 x3 s
  | .trap x1 => Sys2Proof.Machine.execTrap x1 s
  | .eret => Sys2Proof.Machine.execEret s
  | .mfs x1 x2 => Sys2Proof.Machine.execMfs x1 x2 s
  | .mts x1 x2 => Sys2Proof.Machine.execMts x1 x2 s
  | .clk x1 => Sys2Proof.Machine.execClk x1 s
  | .spill x1 => Sys2Proof.Machine.execSpill x1 s
  | .fill x1 => Sys2Proof.Machine.execFill x1 s
  | .bkpt x1 => Sys2Proof.Machine.execBkpt x1 s
  | .tbegin x1 => Sys2Proof.Machine.execTbegin x1 s
  | .tend => Sys2Proof.Machine.execTend s
  | .tabort x1 => Sys2Proof.Machine.execTabort x1 s
  | .fenter x1 x2 x3 => Sys2Proof.Machine.execFenter x1 x2 x3 s
  | .fleave x1 => Sys2Proof.Machine.execFleave x1 s
  | .fld x1 x2 x3 x4 => Sys2Proof.Machine.execFld x1 x2 x3 x4 s
  | .fst x1 x2 x3 x4 => Sys2Proof.Machine.execFst x1 x2 x3 x4 s
  | .fork x1 x2 => Sys2Proof.Machine.execFork x1 x2 s
  | .quit => Sys2Proof.Machine.execQuit s
  | .yield => Sys2Proof.Machine.execYield s
  | .ballot x1 x2 => Sys2Proof.Machine.execBallot x1 x2 s
  | .matchv x1 x2 => Sys2Proof.Machine.execMatchv x1 x2 s
  | .compact x1 x2 x3 => Sys2Proof.Machine.execCompact x1 x2 x3 s
  | .regroup => Sys2Proof.Machine.execRegroup s
  | .bar => Sys2Proof.Machine.execBar s
  | .cbar => Sys2Proof.Machine.execCbar s
  | .reconv => Sys2Proof.Machine.execReconv s
  | .mdecl x1 x2 x3 => Sys2Proof.Machine.execMdecl x1 x2 x3 s
  | .mma x1 x2 x3 x4 => Sys2Proof.Machine.execMma x1 x2 x3 x4 s
  | .mmaHold x1 x2 x3 x4 => Sys2Proof.Machine.execMmaHold x1 x2 x3 x4 s
  | .mrd x1 x2 x3 => Sys2Proof.Machine.execMrd x1 x2 x3 s
  | .mwr x1 x2 x3 => Sys2Proof.Machine.execMwr x1 x2 x3 s
  | .mst x1 x2 x3 => Sys2Proof.Machine.execMst x1 x2 x3 s
  | .mzero x1 => Sys2Proof.Machine.execMzero x1 s
  | .resid x1 x2 => Sys2Proof.Machine.execResid x1 x2 s
  | .settle => Sys2Proof.Machine.execSettle s
  | .proof x1 x2 x3 => Sys2Proof.Machine.execProof x1 x2 x3 s
  | .sti x1 x2 => Sys2Proof.Machine.execSti x1 x2 s
  | .tqpush x1 x2 x3 => Sys2Proof.Machine.execTqpush x1 x2 x3 s
  | .tqpop x1 x2 x3 => Sys2Proof.Machine.execTqpop x1 x2 x3 s
  | .draft x1 x2 x3 => Sys2Proof.Machine.execDraft x1 x2 x3 s
  | .accept x1 x2 => Sys2Proof.Machine.execAccept x1 x2 s
  | .discard x1 => Sys2Proof.Machine.execDiscard x1 s
  | .qpost x1 x2 x3 => Sys2Proof.Machine.execQpost x1 x2 x3 s
  | .ecmd x1 x2 x3 => Sys2Proof.Machine.execEcmd x1 x2 x3 s
  | .ewait x1 x2 => Sys2Proof.Machine.execEwait x1 x2 s
  | .sgnl x1 x2 => Sys2Proof.Machine.execSgnl x1 x2 s
  | .waits x1 x2 x3 => Sys2Proof.Machine.execWaits x1 x2 x3 s
  | .gather x1 x2 x3 => Sys2Proof.Machine.execGather x1 x2 x3 s
  | .scatter x1 x2 x3 => Sys2Proof.Machine.execScatter x1 x2 x3 s
  | .sdef x1 x2 x3 => Sys2Proof.Machine.execSdef x1 x2 x3 s
  | .sstop x1 => Sys2Proof.Machine.execSstop x1 s
  | .send x1 x2 => Sys2Proof.Machine.execSend x1 x2 s
  | .recv x1 x2 => Sys2Proof.Machine.execRecv x1 x2 s
  | .jmp x1 => Sys2Proof.Machine.execJmp x1 s
  | .ret => Sys2Proof.Machine.execRet s
  | .bra x1 x2 => Sys2Proof.Machine.execBra x1 x2 s
  | .call x1 x2 => Sys2Proof.Machine.execCall x1 x2 s
  | .clause x1 x2 x3 x4 => Sys2Proof.Machine.execClause x1 x2 x3 x4 s
  | .hintImm x1 => Sys2Proof.Machine.execHintImm x1 s
  | .hintPerm x1 x2 => Sys2Proof.Machine.execHintPerm x1 x2 s
  | .hintMod x1 x2 x3 => Sys2Proof.Machine.execHintMod x1 x2 x3 s
  | .hintSched x1 => Sys2Proof.Machine.execHintSched x1 s
  | .leave x1 => Sys2Proof.Machine.execLeave x1 s
  | .forward x1 => Sys2Proof.Machine.execForward x1 s
  | .requestSend x1 => Sys2Proof.Machine.execRequestSend x1 s
  | .combine x1 x2 => Sys2Proof.Machine.execCombine x1 x2 s
  | .combineWindowExpiry x1 => Sys2Proof.Machine.execCombineWindowExpiry x1 s
  | .arrive x1 x2 x3 => Sys2Proof.Machine.execArrive x1 x2 x3 s
  | .reply x1 x2 => Sys2Proof.Machine.execReply x1 x2 s
  | .deliverInval x1 => Sys2Proof.Machine.execDeliverInval x1 s
  | .lineFill x1 => Sys2Proof.Machine.execLineFill x1 s
  | .tlbWalk x1 x2 => Sys2Proof.Machine.execTlbWalk x1 x2 s
  | .pinTimeout x1 => Sys2Proof.Machine.execPinTimeout x1 s
  | .fenceDone x1 x2 => Sys2Proof.Machine.execFenceDone x1 x2 s
  | .escape x1 => Sys2Proof.Machine.execEscape x1 s
  | .engineAcq x1 => Sys2Proof.Machine.execEngineAcq x1 s
  | .engineRel x1 => Sys2Proof.Machine.execEngineRel x1 s
  | .engineCompletion x1 => Sys2Proof.Machine.execEngineCompletion x1 s
  | .engineNop x1 => Sys2Proof.Machine.execEngineNop x1 s
  | .engineCopy x1 => Sys2Proof.Machine.execEngineCopy x1 s
  | .engineMcast x1 => Sys2Proof.Machine.execEngineMcast x1 s
  | .engineFill x1 => Sys2Proof.Machine.execEngineFill x1 s
  | .engineGather x1 => Sys2Proof.Machine.execEngineGather x1 s
  | .engineColl x1 x2 => Sys2Proof.Machine.execEngineColl x1 x2 s
  | .engineSgnl x1 => Sys2Proof.Machine.execEngineSgnl x1 s
  | .collMemberFailure x1 x2 => Sys2Proof.Machine.execCollMemberFailure x1 x2 s
  | .streamRunaheadRead x1 x2 x3 => Sys2Proof.Machine.execStreamRunaheadRead x1 x2 x3 s
  | .clauseWaitEnd x1 x2 => Sys2Proof.Machine.execClauseWaitEnd x1 x2 s
  | .longLatencyComplete x1 x2 => Sys2Proof.Machine.execLongLatencyComplete x1 x2 s
  | .matrixFault x1 => Sys2Proof.Machine.execMatrixFault x1 s
  | .proofSnapshot x1 => Sys2Proof.Machine.execProofSnapshot x1 s
  | .regroupTimeout x1 x2 x3 => Sys2Proof.Machine.execRegroupTimeout x1 x2 x3 s
  | .watchdog x1 x2 => Sys2Proof.Machine.execWatchdog x1 x2 s
  | .trapEntry x1 x2 => Sys2Proof.Machine.execTrapEntry x1 x2 s
  | .settleCommit x1 => Sys2Proof.Machine.execSettleCommit x1 s
  | .plateDispatch x1 x2 => Sys2Proof.Machine.execPlateDispatch x1 x2 s
  | .cellDispatch x1 x2 => Sys2Proof.Machine.execCellDispatch x1 x2 s
  | .fairtExpiry x1 x2 => Sys2Proof.Machine.execFairtExpiry x1 x2 s
  | .clusterSplitSwitch x1 => Sys2Proof.Machine.execClusterSplitSwitch x1 s
  | .packetRead x1 => Sys2Proof.Machine.execPacketRead x1 s
  | .packetBarRelease x1 => Sys2Proof.Machine.execPacketBarRelease x1 s
  | .gridPacket x1 => Sys2Proof.Machine.execGridPacket x1 s
  | .platePacket x1 => Sys2Proof.Machine.execPlatePacket x1 s
  | .barrierPacket x1 => Sys2Proof.Machine.execBarrierPacket x1 s
  | .barrierSignalRead x1 x2 => Sys2Proof.Machine.execBarrierSignalRead x1 x2 s
  | .unplatePacket x1 => Sys2Proof.Machine.execUnplatePacket x1 s
  | .packetNop x1 => Sys2Proof.Machine.execPacketNop x1 s
  | .packetComplete x1 => Sys2Proof.Machine.execPacketComplete x1 s
  | .dvfsSettled x1 => Sys2Proof.Machine.execDvfsSettled x1 s
  | .doorbellWrite x1 x2 x3 x4 x5 => Sys2Proof.Machine.execDoorbellWrite x1 x2 x3 x4 x5 s
  | .queueRegister x1 => Sys2Proof.Machine.execQueueRegister x1 s
  | .queueUnregister x1 => Sys2Proof.Machine.execQueueUnregister x1 s
  | .queueClearAbort x1 => Sys2Proof.Machine.execQueueClearAbort x1 s
  | .chainRegister x1 => Sys2Proof.Machine.execChainRegister x1 s
  | .chainUnregister x1 => Sys2Proof.Machine.execChainUnregister x1 s
  | .queueCmdComplete x1 => Sys2Proof.Machine.execQueueCmdComplete x1 s
  | .memShoot x1 x2 => Sys2Proof.Machine.execMemShoot x1 x2 s
  | .shootComplete x1 x2 => Sys2Proof.Machine.execShootComplete x1 x2 s
  | .frameRelease x1 x2 => Sys2Proof.Machine.execFrameRelease x1 x2 s
  | .frameReleaseComplete x1 x2 => Sys2Proof.Machine.execFrameReleaseComplete x1 x2 s
  | .arithStatusRc x1 => Sys2Proof.Machine.execArithStatusRc x1 s
  | .mxStatusRc x1 => Sys2Proof.Machine.execMxStatusRc x1 s
  | .ordPintoWrite x1 x2 => Sys2Proof.Machine.execOrdPintoWrite x1 x2 s
  | .vfQuantumWrite x1 x2 => Sys2Proof.Machine.execVfQuantumWrite x1 x2 s
  | .vfReset x1 x2 => Sys2Proof.Machine.execVfReset x1 x2 s
  | .pcieFunctionLevelReset x1 x2 => Sys2Proof.Machine.execPcieFunctionLevelReset x1 x2 s
  | .functionResetComplete x1 x2 => Sys2Proof.Machine.execFunctionResetComplete x1 x2 s
  | .collLoad x1 => Sys2Proof.Machine.execCollLoad x1 s
  | .collClear x1 => Sys2Proof.Machine.execCollClear x1 s
  | .photHeatWrite x1 x2 x3 => Sys2Proof.Machine.execPhotHeatWrite x1 x2 x3 s
  | .photMapWrite x1 x2 x3 => Sys2Proof.Machine.execPhotMapWrite x1 x2 x3 s
  | .photMpdSample x1 x2 => Sys2Proof.Machine.execPhotMpdSample x1 x2 s
  | .sysregWrite x1 x2 x3 => Sys2Proof.Machine.execSysregWrite x1 x2 x3 s
  | .hotThreshold x1 x2 x3 x4 x5 => Sys2Proof.Machine.execHotThreshold x1 x2 x3 x4 x5 s
  | .sliceExpiry x1 => Sys2Proof.Machine.execSliceExpiry x1 s
  | .contextSwap x1 => Sys2Proof.Machine.execContextSwap x1 s
  | .contextStaging x1 => Sys2Proof.Machine.execContextStaging x1 s
  | .partFailure x1 => Sys2Proof.Machine.execPartFailure x1 s
  | .poolDeviceLost x1 => Sys2Proof.Machine.execPoolDeviceLost x1 s
  | .islandStateChange x1 x2 => Sys2Proof.Machine.execIslandStateChange x1 x2 s
  | .currentThrottle => Sys2Proof.Machine.execCurrentThrottle s
  | .currentStepUp => Sys2Proof.Machine.execCurrentStepUp s
  | .thermalStepDown x1 => Sys2Proof.Machine.execThermalStepDown x1 s
  | .thermalStepUp x1 => Sys2Proof.Machine.execThermalStepUp x1 s
  | .thermalEmergency => Sys2Proof.Machine.execThermalEmergency s
  | .thermtrip => Sys2Proof.Machine.execThermtrip s
  | .powerUp => Sys2Proof.Machine.execPowerUp s
  | .attestationRequest x1 => Sys2Proof.Machine.execAttestationRequest x1 s
  | .hostVaultAccess x1 x2 x3 x4 => Sys2Proof.Machine.execHostVaultAccess x1 x2 x3 x4 s
  | .hostLinkTraining x1 x2 x3 => Sys2Proof.Machine.execHostLinkTraining x1 x2 x3 s
  | .hostSnoop x1 => Sys2Proof.Machine.execHostSnoop x1 s
  | .powerDown => Sys2Proof.Machine.execPowerDown s
  | .partitionReset x1 => Sys2Proof.Machine.execPartitionReset x1 s
end Sys2Proof.Machine
end

