-- ==== Sys2Proof/Machine/Policy.lean ====
section
/-! DEFINITION. Fetching a word (R155, R165, R311), the choice of the next hatch of a quadrant (R253), the inputs, and which move
comes next when nothing outside says it (R189: any enabled move may; this order is one of them). -/

namespace Sys2Proof.Machine

/-- What comes back from a meaning, with each blocked WAITS tested against the value that its signal now holds (R244). -/
def settled : Out → Out
  | .next s => .next (wakeWaits s)
  | r => r

/-! ### Fetch -/

/-- The cause that a failed fetch raises (R311); any other failure keeps its own. -/
def fetchTrap (a : Nat) (c : Cause) : Trap := { cause := c, detail := c.detail 4, faddr := a }
/-- The word at an address as fibres of one mode fetch it; none where a pin holds the fetch back (R199). -/
def fetchWord (s : State) (c : Cell) (sup : Bool) (at_ : DWord) : Option (Except Trap Word) :=
  let a := at_.toNat
  if heldBack s [] c.part c.fn a 4 then none else
  some (match homeRead s (c.who sup) a .fetch 4 with
    | .error (x, e) => .error (fetchTrap x e)
    | .ok bs => .ok (BitVec.ofNat 32 (natOfBytes bs)))
def causeOf : DecodeError → Cause
  | .illegalInstruction => .illegalInstruction
  | .illegalClause => .illegalClause
/-- A word that is none traps once its unit has begun, an implicit clause having waited (R116, R131, R132); a CLAUSE word with a
reserved value when it is reached, since no implicit clause begins at it (R116, R117). -/
def decodeTrap (s : State) (g : Grp) (e : DecodeError) : State :=
  match e with
  | .illegalClause => trapGroup s g { cause := causeOf e }
  | .illegalInstruction =>
    let (s, go) := beginUnit s g
    if go then trapGroup s g { cause := causeOf e } else s
/-- The next word of the open unit is fetched with the rights of its group's mode, decoded and run; a word that cannot be fetched or
is none traps (R131, R132, R311). -/
def fetchStep (s : State) : Out :=
  match s.grp? with
  | none => .next (stallUnit s)
  | some g =>
    match fetchWord s g.cell g.sup g.at_ with
    | none => .next (stallUnit s)
    | some (.error t) => .next (trapGroup s g t)
    | some (.ok w) =>
      let s := touchHomes s (g.cell.who g.sup) none false .fetch g.at_.toNat 4
      match decode w with
      | .error e => .next (decodeTrap s g e)
      | .ok i => exec i s

/-! ### The choice among ready hatches (R253) -/

/-- The unit a hatch or path stands at: its cell, its hatch, the address. -/
structure Ready where
  cell : Cell
  hatch : Nat
  pc : DWord
/-- May a cell's fibres issue: resident, and its context not halted (R269, R276)? -/
def mayIssue (s : State) (c : Cell) : Bool :=
  c.resident && !(((s.part? c.part).map fun p => p.swapping && p.holder == some c.fn).getD false)
    && (s.island (islandOf c.cluster)).mode == .running
/-- The ready hatches and paths of a quadrant. -/
def readyHatches (s : State) (quad : Nat) : List Ready :=
  (s.cells.filter fun c => c.cluster == quad / 4 && mayIssue s c).flatMap fun c =>
    let fs := c.fibres.filter fun f => f.mayRun && quadOf c.cluster f.idx == quad
    ((fs.map (·.hatch)).eraseDups).filterMap fun h =>
      let hs := fs.filter (·.hatch == h)
      match lowestPath hs with
      | none => none
      | some p => if c.heldAt h p.1 p.2 then none else some { cell := c, hatch := h, pc := p.1 }
/-- Does the next unit carry HINT.SCHED boost? Up to four hints stand before an instruction. -/
def boosted (s : State) (r : Ready) : Bool :=
  let word (k : Nat) : Option Instr :=
    match homeRead s (r.cell.who true) ((r.pc + BitVec.ofNat 64 (4 * k)).toNat) .fetch 4 with
    | .error _ => none
    | .ok bs => match decode (BitVec.ofNat 32 (natOfBytes bs)) with | .ok i => some i | .error _ => none
  let isHint : Option Instr → Bool
    | some (.hintImm _) | some (.hintPerm _ _) | some (.hintMod _ _ _) | some (.hintSched _) => true
    | _ => false
  (((List.range 4).map word).takeWhile isHint).any fun | some (.hintSched y) => !y | _ => false
/-- ρ for the issue order: a grid's cells count as +∞. -/
def issueRho (s : State) (c : Cell) : Nat := if kindOf s c = .grid then infWord.toNat else c.rho.toNat
/-- Does x go before y (points 1 to 4 of R253)? -/
def goesBefore (s : State) (x y : Ready) : Bool :=
  let (a, b) := (boosted s x, boosted s y)
  if a != b then a
  else if x.cell.prio != y.cell.prio then decide (x.cell.prio < y.cell.prio)
  else if issueRho s x.cell != issueRho s y.cell then decide (issueRho s y.cell < issueRho s x.cell)
  else decide (x.cell.dispatched < y.cell.dispatched)
/-- The first of some ready hatches by R253, in round-robin among equals: one that has not issued yet, the older before the younger,
else the one that stands longest in the list. -/
def firstReady (s : State) (quad : Nat) (rs : List Ready) : Option Ready :=
  let top := rs.filter fun x => rs.all fun y => !goesBefore s y x
  let since (x : Ready) : Nat := s.rr.findIdx (· == (quad, x.cell.id, x.hatch))
  top.foldl (fun m x =>
    match m with
    | none => some x
    | some y =>
      if since y < since x || (since x == since y && (decide (x.cell.id < y.cell.id) || (x.cell.id == y.cell.id && decide (x.hatch < y.hatch))))
      then some x else some y) none
/-- The state with a ready hatch's unit open. -/
def openAt (s : State) (r : Ready) : State :=
  { s with cur := { cell := r.cell.id, hatch := r.hatch, first := r.pc, at_ := r.pc, opened := true } }
/-- Run the open unit, its hints among its words, to its end. -/
def runUnit : Nat → State → State
  | 0, s => s
  | n + 1, s => if s.cur.opened then (match fetchStep s with | .next t => runUnit n t | _ => s) else s
/-- Is a hatch held up at its next unit (R27: such a fibre is issuing, not ready)? Its unit would change nothing. -/
def heldUp (s : State) (r : Ready) : Bool :=
  let t := runUnit 6 (openAt s r)
  t.cells == s.cells && t.accs == s.accs && t.ops == s.ops && t.mem == s.mem && t.lines == s.lines
/-- The first by R253 that is not held up; where all are, the first. -/
def firstFree (s : State) (quad : Nat) : Nat → List Ready → Option Ready
  | 0, _ => none
  | n + 1, rs =>
    match firstReady s quad rs with
    | none => none
    | some r =>
      if rs.length ≤ 1 || !heldUp s r then some r
      else (firstFree s quad n (rs.filter fun x => !(x.cell.id == r.cell.id && x.hatch == r.hatch))).or (some r)
/-- The hatch of a quadrant that issues next. -/
def chooseHatch (s : State) (quad : Nat) : Option Ready :=
  let rs := readyHatches s quad
  firstFree s quad rs.length rs
/-- Does a fibre of the quadrant wait in YIELD? -/
def yielding (s : State) (quad : Nat) : Bool :=
  s.cells.any fun c => c.fibres.any fun f => quadOf c.cluster f.idx == quad && match f.status with | .blocked (.yield _) => true | _ => false
/-- Open a unit on a quadrant. Where every hatch that could issue there is held up, none is Ready, and a YIELD is over (R27, R371). -/
def openUnit (s : State) (quad : Nat) : State :=
  let s := if yielding s quad && (readyHatches s quad).all (heldUp s) then releaseYield s quad none true else s
  match chooseHatch s quad with
  | none => s
  | some r => (openAt s r).toEnd quad r.cell.id r.hatch

/-! ### Inputs -/

/-- May a partition map be set: at most 16 partitions, each of some islands, no island in two (R14, R274, R284)? -/
def mapOk (l : List (List Nat)) : Bool :=
  decide (l.length ≤ 16) && l.all (!·.isEmpty) && l.flatten.all (fun i => decide (i < 16)) && l.flatten.eraseDups.length == l.flatten.length
/-- May a decoder be set (R289)? -/
def Decoder.ok (d : Decoder) : Bool :=
  d.base % 2 ^ 28 == 0 && d.size % 2 ^ 28 == 0 && [1, 2, 4, 8, 16].contains d.ways && d.ports.length == d.ways && d.ports.all (fun p => decide (p < 48))
/-- May an entry of the share table be set (R291)? -/
def shareOk (x : Nat × Nat × Nat) : Bool := x.1 % 2 ^ 28 == 0 && x.2.1 % 2 ^ 28 == 0 && decide (x.2.2 ≤ 254)
/-- The partition map that firmware sets while the device holds no work: one partition for each list of islands (R14, R274). One that
holds islands of a die whose image failed reports a fatal error (R300). -/
def setPartitions (s : State) (l : List (List Nat)) : State :=
  if s.cells.isEmpty && s.launches.isEmpty && s.queues.isEmpty && mapOk l then
    { s with parts := l.zipIdx.map fun (is, i) => { id := i, islands := is, aer := (s.narcy.failed.filter fun d => is.any fun j => j / 4 == d).map fun _ => 2 }
             fns := l.zipIdx.flatMap fun (_, i) => { part := i, num := 64 } :: (List.range 64).map fun v => { part := i, num := v } }
  else s
/-- A write by the host or a peer: in host memory, whose lines leave the slices first (R192); in a line shared over Grenfort, at its
home, which is a slice here or stands for another device's (R291). L1 blocks of the bytes are invalidated (R189). At a pinned line it
receives RETRY (R199). A pooled line in no entry of a partition's share table is private to the device: what it holds here stays. -/
def ownerWrite (s : State) (pa : Nat) (bs : List Byte) : State :=
  let meets (a n : Nat) : Bool := decide (a < pa + bs.length) && decide (pa < a + n)
  let reaches (part a n : Nat) : Bool := meets a n && (decide (2 ^ 47 ≤ a) || s.sharedAt part a)
  let partOf (cluster : Nat) : Nat := ((s.parts.find? fun p => p.clusters.contains cluster).map (·.id)).getD 0
  if s.lines.any (fun l => reaches l.part l.pa 64 && s.pins.any fun p => p.asid == some l.asid && p.line == l.line) then s else
  let lines := (List.range ((pa % 64 + bs.length + 63) / 64)).map (pa / 64 + ·)
  let s : State := lines.foldl (fun (s : State) l => match execHostSnoop l s with | .next s => s | _ => s) s
  if 2 ^ 48 < pa + bs.length then s else
  let s := { s with mem := putBytes s.mem pa bs
                    lines := s.lines.map fun (l : Line) => if reaches l.part l.pa 64 then { l with bytes := patchBytes l.pa l.bytes pa bs } else l }
  (s.blocks.filter fun b => b.asid.isSome && reaches (partOf b.cluster) b.pa b.bytes.length).foldl (fun s b =>
    ((List.range ((b.bytes.length + 63) / 64)).map (b.base / 64 + ·)).foldl (fun s l => invalidate s none b.asid l) s) s
/-- R280: a fibre about to issue meets data that cannot be corrected: UNCORRECTABLE at its unit. A register that fails parity again
after the replay gives DETAIL 2. -/
def fibreError (s : State) (cell fib detail : Nat) : State :=
  match s.cell? cell, s.fibre? ⟨cell, fib⟩ with
  | some c, some f =>
    if c.resident && f.mayRun then
      afterChange (takeTraps s cell f.hatch [⟨fib, { cause := .uncorrectable, detail := detail }, f.pc⟩]) cell
    else s
  | _, _ => s
/-- R280: an error of a slice line that ECC cannot correct: its consumers get UNCORRECTABLE. -/
def lineError (s : State) (asid line : Nat) : State :=
  { s with lines := s.lines.map fun l => if l.asid = asid ∧ l.line = line then { l with poison := true } else l }
/-- R280: data of any other SRAM that ECC cannot correct reaches its consumer: UNCORRECTABLE, DETAIL 1, at a unit about to issue, or
at the access or operation that reads it. -/
def sramError (s : State) : Consumer → State
  | .issue c f => fibreError s c f 1
  | .acc a => match s.acc? a with
    | none => s
    | some x => if x.kind == .load && (x.stage == .queued || x.stage == .inView || x.stage == .sent) then refuseAcc s x .uncorrectable else s
  | .op o => match s.op? o with
    | none => s
    | some x => if x.refused.isNone then afterAll (refuseOp s x { cause := .uncorrectable, detail := 1 }) else s
/-- An error in a partition's report (R287): 0 correctable, 1 uncorrectable and non-fatal, 2 fatal. -/
def report (s : State) (part e : Nat) : State := s.setPart part fun p => { p with aer := p.aer ++ [e] }
/-- One input to a powered package. A setting of the firmware that breaks its limits is not taken (R289 to R291), and a .RC alias
clears its word within its MFS alone (R141, R142). -/
def poweredInput (s : State) (i : Input) : Out :=
  match i with
  | .move (.arithStatusRc _) | .move (.mxStatusRc _) => .next s
  | .move m => exec m s
  | .issue q => .next (openUnit s q)
  | .decoders l => .next (if decide (l.length ≤ 16) && l.all Decoder.ok then { s with decoders := l } else s)
  | .shareTable p l => .next (if decide (l.length ≤ 16) && l.all shareOk then s.setPart p fun x => { x with share := l } else s)
  | .firmware n is => .next (if n ≤ 254 then { s with deviceNumber := n, narcy := { s.narcy with images := is } } else s)
  | .partitions l => .next (setPartitions s l)
  | .registerError c f => .next (fibreError s c f 2)
  | .lineError a l => .next (lineError s a l)
  | .sramError u => .next (sramError s u)
  | .eccCorrected p => .next (report s p 0)
  | .controlError p => .next (report s p 2)
  | .temperature d t => .next { s with temps := sput 0 s.temps d t.toNat }
  | .hostWrite pa bs => .next (ownerWrite s pa bs)
  | .peerGroup d g x => .next { s with peers := (d, g, x) :: s.peers.filter fun y => !(y.1 == d && y.2.1 == g) }
/-- One input. While the package is unpowered only its surroundings change, and power may return (R297). -/
def applyInput (s : State) (i : Input) : Out :=
  if s.powered then poweredInput s i else
  match i with
  | .move .powerUp => exec .powerUp s
  | .temperature _ _ | .hostWrite _ _ | .peerGroup _ _ _ => poweredInput s i
  | _ => .next s

/-! ### The moves that may come next -/

def accMoves (s : State) : List Instr :=
  s.accs.flatMap fun a =>
    match a.stage with
    | .queued => [.leave a.id]
    | .inView => [.forward a.id, .requestSend a.id]
    | .waiting _ => (s.accs.filterMap fun b => if s.pairs a b then some (Instr.combine b.id a.id) else none) ++ [.combineWindowExpiry a.id]
    | .sent => [.tlbWalk a.id true, .lineFill (.forAcc a.id), .arrive a.id 15 1]
    | .arrived => [.reply a.id 15]
    | _ => []
def fibreMoves (s : State) : List Instr :=
  (s.cells.filter (·.resident)).flatMap fun c =>
    Instr.settleCommit c.id :: c.fibres.flatMap fun f =>
      [.fenceDone c.id f.idx] ++ (f.recs.map fun x => .streamRunaheadRead c.id f.idx (Fin.ofNat 4 x.1))
      ++ match f.status with
        | .waitFlags _ => [.clauseWaitEnd c.id f.idx, .watchdog c.id f.idx]
        | .blocked _ => [.watchdog c.id f.idx]
        | .parked _ _ => [.trapEntry c.id f.idx]
        | _ => []
def launchMoves (s : State) : List Instr :=
  (s.launches.flatMap fun l =>
    (List.range 4).map (fun d => if l.kind = .grid then Instr.cellDispatch l.id d else .plateDispatch l.id d)
    ++ if l.kind = .expert then (List.range l.cells.length).map (.fairtExpiry l.id ·) else [])
  ++ s.draining.map fun x => .clusterSplitSwitch x.1
def packetMoves (s : State) : List Instr :=
  (s.packets.flatMap fun p =>
    [.packetBarRelease p.id, .gridPacket p.id, .platePacket p.id, .barrierPacket p.id, .unplatePacket p.id, .packetNop p.id]
    ++ (match p.stage with | .barrier ks => ks.map (.barrierSignalRead p.id ·) | _ => []) ++ [.packetComplete p.id])
  ++ s.queues.flatMap fun q => if q.chain then [] else [.packetRead q.id]
/-- Needs a COLL nothing from another device: a malformed one, one of no group, one whose only live member is this device? -/
def collAlone (s : State) (q : QueueReg) : Bool :=
  match chainView s q.id with
  | none => false
  | some v => match v.cmd with
    | .error _ => false
    | .ok c => malformed v.hdr.engine c || match (s.part? q.part).bind fun p => p.groups.find? (·.1 == c.group) with
      | none => true
      | some (_, members, _) => (members.filter fun m => !(s.engine q.id).failedMembers.contains m).length ≤ 1
def engineMoves (s : State) : List Instr :=
  (s.queues.filter (·.chain)).flatMap fun q =>
    (if collAlone s q then [Instr.engineColl q.id []] else []) ++
    [.engineAcq q.id, .engineNop q.id, .engineCopy q.id, .engineMcast q.id, .engineFill q.id, .engineGather q.id, .engineSgnl q.id
     , .engineRel q.id, .engineCompletion q.id]
def commandMoves (s : State) : List Instr :=
  s.parts.flatMap fun p =>
    (if p.queueBusy then [.queueRegister p.id, .queueUnregister p.id, .queueClearAbort p.id, .chainRegister p.id, .chainUnregister p.id, .queueCmdComplete p.id] else [])
    ++ (if p.collBusy then [.collLoad p.id, .collClear p.id] else [])
    ++ (s.fns.filter (·.part == p.id)).flatMap fun f =>
        (if f.shootBusy then [.shootComplete p.id f.num] else []) ++ (if f.relBusy then [.frameRelease p.id f.num, .frameReleaseComplete p.id f.num] else [])
        ++ (if f.resetting then [.functionResetComplete p.id f.num] else [])
def hotMoves (s : State) : List Instr :=
  s.hot.flatMap fun x =>
    let (src, page, port, asid) := (x.1 % 256, x.1 / 256 % 2 ^ 41, x.1 / 256 / 2 ^ 41 % 64, x.1 / 256 / 2 ^ 41 / 64)
    (s.fns.filter fun f => f.asid.toNat == asid).map fun f => .hotThreshold port page src f.part f.num
def partMoves (s : State) : List Instr :=
  if s.launches.isEmpty then [] else s.parts.flatMap fun p => [.sliceExpiry p.id, .contextSwap p.id, .contextStaging p.id]
/-- The photodiodes of the banks that somebody looks at: the host drivers, and fibres of the physical functions (R295). -/
def lightMoves (s : State) : List Instr :=
  let banks := ((s.parts.filter (·.grant)).flatMap fun p => p.hostBank.toNat :: (s.cells.filter (·.part == p.id)).flatMap fun c => c.fibres.map (·.bank.toNat)).eraseDups
  banks.flatMap fun b => (List.range 16).map (.photMpdSample b ·)
/-- Switches with an entry that has stood for ORD.DRTO (R203). -/
def escapeMoves (s : State) : List Instr := ((List.range 22).filter (escapeDue s)).map .escape
def environmentMoves (s : State) : List Instr :=
  [.thermtrip, .thermalEmergency] ++ (List.range 4).flatMap (fun d => [.thermalStepDown d, .thermalStepUp d])
  ++ (List.range 16).filterMap fun i => if (s.island i).settling then some (.dvfsSettled i) else none
/-- The moves of the machine itself that may be enabled. -/
def moves (s : State) : List Instr :=
  accMoves s ++ (s.invals.map fun x => .deliverInval x.1)
  ++ (s.ops.flatMap fun o => [.proofSnapshot o.id, .longLatencyComplete o.id (2 ^ 1025 - 1), .matrixFault o.id])
  ++ fibreMoves s ++ launchMoves s ++ packetMoves s ++ engineMoves s ++ commandMoves s ++ hotMoves s ++ partMoves s
  ++ (s.crosshatch.map fun e => .regroupTimeout e.cluster e.quad e.id) ++ (s.pins.map fun p => .pinTimeout p.rel) ++ escapeMoves s ++ lightMoves s ++ environmentMoves s
def changes (s : State) (i : Instr) : Bool :=
  match exec i s with
  | .next s' => s' != s
  | _ => true
/-- The quadrants with a ready hatch. -/
def readyQuads (s : State) : List Nat :=
  (((s.cells.filter (mayIssue s)).flatMap fun c => c.fibres.map fun f => quadOf c.cluster f.idx).eraseDups).filter fun q =>
    !(readyHatches s q).isEmpty
/-- The ready quadrant that issued longest ago. -/
def nextQuad (s : State) : Option Nat :=
  let qs := readyQuads s
  (qs.find? fun q => !s.rr.any (·.1 == q)).or (((s.rr.map (·.1)).eraseDups).reverse.find? qs.contains)
/-- The enabled move that comes next; the search starts further on from cycle to cycle, so that none is passed over for ever. -/
def nextMove (s : State) : Option Instr :=
  let ms := moves s
  let k := s.now / s.tempo / 2 % ms.length
  (ms.drop k ++ ms.take k).find? (changes s)
def later (s : State) : State := { s with now := s.now + s.tempo }
def onLater : Out → Out
  | .next s => .next (later s)
  | r => r
/-- What comes next when nothing outside says it, one cycle on: in turn a move that is enabled and a ready hatch that issues;
where there is neither, time passes. -/
def autoStep (s : State) : Out :=
  let issueNext (q : Nat) : Out := .next (later (openUnit s q))
  if s.now / s.tempo % 2 = 0 then
    match nextMove s with
    | some i => onLater (exec i s)
    | none => match nextQuad s with | some q => issueNext q | none => .next (later s)
  else
    match nextQuad s with
    | some q => issueNext q
    | none => match nextMove s with | some i => onLater (exec i s) | none => .next (later s)

/-! ### The next step's instruction -/

/-- A fresh cell of one fibre of the physical function on cluster 0, whose code is a word at the base of vault 0, about to
issue it: what a launch and a dispatch leave, in the least form. -/
def placeWord (s : State) (w : Word) : State :=
  let f : Fibre := { idx := 0, pc := BitVec.ofNat 64 vaultBase, hatch := s.next + 1, lane := 0, sup := true, joinSet := [0] }
  let c : Cell := { id := s.next, fn := 64, fibres := [f] }
  { s with
    powered := true, agenda := [], cells := s.cells ++ [c], next := s.next + 2, mem := putBytes s.mem vaultBase (bytesOfWord w)
    cur := { cell := s.next, hatch := s.next + 1, first := BitVec.ofNat 64 vaultBase, at_ := BitVec.ofNat 64 vaultBase, opened := true } }

end Sys2Proof.Machine
end

