-- ==== Sys2Proof/Machine/Step.lean ====
section
/-! DEFINITION. One step of the machine: the open unit's next word, else the next input, else a move of the machine's own. -/

namespace Sys2Proof.Machine

/-- One step. An unpowered package with no input due does nothing (R297). -/
def step (s : State) : Host.Outcome State Fault Refusal :=
  if s.powered && s.cur.opened then settled (fetchStep s)
  else
    match s.agenda with
    | i :: rest => settled (applyInput { s with agenda := rest } i)
    | [] => if s.powered then settled (autoStep s) else .fault .unpowered

/-- The state whose next step fetches and runs the instruction of nbits bits w. Every instruction is one 32-bit word. -/
def State.withFetchWord (s : State) (nbits w : Nat) : State := placeWord s (BitVec.ofNat 32 (w % 2 ^ nbits))

end Sys2Proof.Machine
end

