-- ==== Sys2Proof/Machine/View.lean ====
section
/-! DEFINITION. How statements speak of a state: what scheduling alone may change is left out, and the conditions under
which a unit issues have names. -/

namespace Sys2Proof.Machine

/-- A wait that the change of another fibre may end counts as Ready. -/
def Status.arch : Status → Status
  | .blocked .bar | .blocked .cbar | .blocked (.reconv _) | .blocked (.regroup _) | .blocked (.yield _)
  | .blocked (.ewait _ _ (some false)) => .ready
  | st => st
/-- A fibre but for its hatch, its lane, its join set, such a wait, and what the end of one leaves. -/
def Fibre.arch (f : Fibre) : Fibre :=
  { f with hatch := 0, lane := 0, joinSet := [], deferred := false, mate := none, seen := [], status := f.status.arch }
/-- An access, an operation, without the mark of the issue that made it. -/
def Acc.arch (a : Acc) : Acc := { a with issue := 0 }
def Op.arch (o : Op) : Op := { o with issue := 0 }
def Cell.arch (c : Cell) : Cell := { c with fibres := c.fibres.map Fibre.arch }
/-- A state without what scheduling alone changes: the open unit, the hatches and their order, the crosshatch entries, and
the model's own counters next and free. Every register, flag, byte, access and operation stays. -/
def State.arch (s : State) : State :=
  { s with cur := {}, next := 0, free := 0, rr := [], crosshatch := []
           cells := s.cells.map Cell.arch, accs := s.accs.map Acc.arch, ops := s.ops.map Op.arch }

/-- The open unit may issue: g is its group, every member's clause has begun, and the word accepts the hints before it
(R118, R121, R124). -/
structure Issues (s : State) (g : Grp) (k : Hints) : Prop where
  grp : s.grp? = some g
  begun : g.members.all (·.place.begun) = true
  hints : hintsFit k g.hints = true

/-- A long-latency word may issue too: it is no third one in its clause, and the flag that counts it is not full (R119). -/
structure RoomLL (s : State) (g : Grp) : Prop where
  third : g.members.any (fun f => 2 ≤ f.place.ll) = false
  full : (g.refresh (passed s g true)).active.any (fun f => match f.llFlag with | some n => 15 ≤ f.flag n | none => false) = false

/-- Does a fibre of a cluster wait, its wait being at its end, where that end does more than let it go on: a QUIT with nothing
pending any more (R28), a FLEAVE whose covers are met (R57), an EWAIT whose command failed (R317)? -/
def endsMore (s : State) (cluster : Nat) (r : FRef) : Status → Bool
  | .blocked .quit => s.idle r
  | .blocked (.fleave cov) => leaveDone s cluster (cov.map fun x => (x / 2, x % 2 == 1))
  | .blocked (.ewait _ _ (some true)) => true
  | _ => false
/-- No fibre of the cell waits so. -/
def NoQuitDue (s : State) (cell : Nat) : Prop :=
  ∀ c, s.cell? cell = some c → ∀ f ∈ c.fibres, endsMore s c.cluster ⟨cell, f.idx⟩ f.status = false

/-- The group past its word, as the instruction finds it. -/
def Grp.after (g : Grp) (s : State) (ll : Bool) : Grp := { g.refresh (passed s g ll) with ll := ll }

/-- Every active lane reads its source fields, with these values (R109 to R114). -/
def Reads (s : State) (g : Grp) (ll : Bool) (srcs : List Field) (vals : Fibre → List DWord) : Prop :=
  ∀ f ∈ (g.after s ll).active, operands (passed s g ll) (g.after s ll) f (g.after s ll).pats srcs = .ok (vals f)

/-- A frame-slot destination exists in every active lane and may be written now: no acquire is open (R52, R194), and a write that
leaves a store finds room in the refusal record (R266). -/
def SlotFits (s : State) (g : Grp) (d : Name) : Prop :=
  ∀ dep m, d = .slot dep m → ∀ f ∈ (g.after s false).active,
    checkSlot f (dep.val + 1) m.val = none ∧ s.acqPending ⟨g.cell.id, f.idx⟩ = false
    ∧ (slotStays (passed s g false) (g.after s false).cell f (dep.val + 1) = true ∨ s.recordFull ⟨g.cell.id, f.idx⟩ = false)

/-- The instruction that g issues completes in a state that is w but for scheduling. A wait of the
cell whose end does more (endsMore) ends with the issue: a w with one that is due is left out. -/
def Ends (i : Instr) (s : State) (g : Grp) (w : State) : Prop :=
  NoQuitDue w g.cell.id → ∃ t, exec i s = .next t ∧ t.arch = w.arch

/-- The same, named whole: the machine goes on from w as every issue ends (R28 to R39, R371). -/
def Completes (i : Instr) (s : State) (g : Grp) (w : State) : Prop :=
  exec i s = .next (closeUnit (sameIssue s.next w) (g.after s false))

/-- A state whose active lanes have read the source fields of these names: a fibre keeps whose pending writes it read by name
(R196). -/
def marked (s : State) (g : Grp) (ll : Bool) (names : List Name) (u : State) : State := markReads (passed s g ll) (g.after s ll) names u
/-- What a lane-by-lane instruction ends in: every active lane has read its sources and has its effect, every member stands past
the word. -/
def lanesTo (s : State) (g : Grp) (names : List Name) (eff : Fibre → Eff) : State :=
  marked s g false names
    (writeEffs (passed s g false) (g.after s false) ((g.after s false).active.map fun f => (f.idx, eff f)))

/-- One destination written: a window register, a pair, or a frame slot (R55, R111). -/
def written (w : Wd) (f : Fibre) (d : Name) (v : DWord) : Eff :=
  match w, d with
  | .b32, .w n => { fib := f.setReg n.val (loWord v) }
  | .b32, .slot dep m => { fib := f, slot := some (dep.val + 1, m.val, loWord v) }
  | .b64, .w n => { fib := f.setReg64 n.val v }
  | _, _ => { fib := f }

/-- What an instruction with VI-format sources and one destination asks of the state to complete: it issues, every lane
reads, a slot destination exists. -/
structure Lanes (s : State) (g : Grp) (k : Hints) (d : Name) (srcs : List Field) (vals : Fibre → List DWord) : Prop where
  issues : Issues s g k
  slot : SlotFits s g d
  reads : Reads s g false srcs vals
/-- The hints that a VI word takes with these sources (R123, R124). -/
def viHints (srcs : List Src) : Hints := { perm := srcs, vi := true }
/-- i writes v of each active lane to d, whose queues named by its sources have popped, and does nothing else. -/
def Writes (i : Instr) (s : State) (g : Grp) (w : Wd) (d : Name) (names : List Name) (v : Fibre → DWord) : Prop :=
  Ends i s g (lanesTo s g names fun f => written w (f.popAll names) d (v f))

/-- The state in which a word that is not lane by lane has read its sources: queues popped, slots read. -/
def readTo (s : State) (g : Grp) (ll : Bool) (names : List Name) : State :=
  marked s g ll names ((passed s g ll).mapFibres g.cell.id fun f =>
    match (g.after s ll).active.find? (·.idx == f.idx) with
    | some x => x.popAll names
    | none => f)
/-- Its active lanes in ascending order, each with the values it read. -/
def readVals (s : State) (g : Grp) (ll : Bool) (names : List Name) (vals : Fibre → List DWord) : List (Fibre × List DWord) :=
  (g.after s ll).active.map fun f => (f.popAll names, vals f)
/-- The group as it then stands. -/
def Grp.read (g : Grp) (s : State) (ll : Bool) (names : List Name) : Grp := (g.after s ll).refresh (readTo s g ll names)
/-- The same for a word that acts once (R306, R341): its fields as a lane reads them, what the lanes read, the state in which they
have, its lanes, its group. -/
def lowFields (g : Grp) (srcs : List (Field × Bool)) (f : Fibre) : List Field :=
  srcs.map fun x => lowField ((g.lowest.map (·.idx)) == some f.idx) x.2 x.1
def LowReads (s : State) (g : Grp) (ll : Bool) (srcs : List (Field × Bool)) (vals : Fibre → List DWord) : Prop :=
  ∀ f ∈ (g.after s ll).active,
    operands (passed s g ll) (g.after s ll) f (g.after s ll).pats (lowFields (g.after s ll) srcs f) = .ok (vals f)
def lowVals (s : State) (g : Grp) (ll : Bool) (srcs : List (Field × Bool)) (vals : Fibre → List DWord) : List (Fibre × List DWord) :=
  (g.after s ll).active.map fun f => (f.popAll ((lowFields (g.after s ll) srcs f).map (·.1.name)), vals f)
def lowTo (s : State) (g : Grp) (ll : Bool) (srcs : List (Field × Bool)) : State :=
  let a := g.after s ll
  let u := (passed s g ll).mapFibres g.cell.id fun f =>
    match a.active.find? (·.idx == f.idx) with
    | some x => x.popAll ((lowFields a srcs x).map (·.1.name))
    | none => f
  let u := markReads (passed s g ll) { a with members := a.members.filter fun f => (a.lowest.map (·.idx)) == some f.idx } (srcs.map (·.1.1.name)) u
  marked s g ll ((srcs.filter (·.2)).map (·.1.1.name)) u
def Grp.low (g : Grp) (s : State) (ll : Bool) (srcs : List (Field × Bool)) : Grp := (g.after s ll).refresh (lowTo s g ll srcs)
/-- Act in each lane in ascending order, on the fibre and the state that the lanes below left; none where a lane traps. -/
def laneRun (cell : Nat) (op : State → Fibre → List DWord → State × Option Trap) : State → List (Fibre × List DWord) → Option State
  | s, [] => some s
  | s, x :: r =>
    match op s ((s.fibre? ⟨cell, x.1.idx⟩).getD x.1) x.2 with
    | (s', none) => laneRun cell op s' r
    | (_, some _) => none
/-- The same where no lane can trap. -/
def eachLane (s : State) (cell : Nat) (xs : List (Fibre × List DWord)) (act : State → Fibre → List DWord → State) : State :=
  xs.foldl (fun s x => act s ((s.fibre? ⟨cell, x.1.idx⟩).getD x.1) x.2) s

/-- What an X or M word asks of the state to issue and read: g issues it, every active lane reads its sources (R118, R119,
R124, R305). -/
structure Words (s : State) (g : Grp) (k : Hints) (ll : Bool) (srcs : List Field) (vals : Fibre → List DWord) : Prop where
  issues : Issues s g k
  room : ll = true → RoomLL s g
  reads : Reads s g ll srcs vals
/-- No active lane is inside a transaction (R224). -/
def NoTx (s : State) (g : Grp) (ll : Bool) : Prop := ∀ f ∈ (g.after s ll).active, f.tx = none

/-- The instruction completes lane by lane: acting in turn in each of the lanes xs, none of which traps, it ends in u but for
scheduling. -/
def RunsOn (i : Instr) (s : State) (g : Grp) (from_ : State) (xs : List (Fibre × List DWord))
    (op : State → Fibre → List DWord → State × Option Trap) : Prop :=
  ∀ u, laneRun g.cell.id op from_ xs = some u → Ends i s g u
/-- The same for a word that acts in every active lane on the values it read. -/
def Runs (i : Instr) (s : State) (g : Grp) (ll : Bool) (srcs : List Field) (vals : Fibre → List DWord)
    (op : Grp → State → Fibre → List DWord → State × Option Trap) : Prop :=
  let names := srcs.map (·.1.name)
  RunsOn i s g (readTo s g ll names) (readVals s g ll names vals) (op (g.read s ll names))

end Sys2Proof.Machine
end

