-- ==== Sys2Proof/Certificates/Slice0/Obligations.lean ====
section
/-! DEFINITION. The statements about the model. A result statement names the whole next state, but for scheduling
(State.arch): so it gives the result, the completion and the frame at once. -/

open Sys2Proof Sys2Proof.Machine

namespace Sys2Proof.Rules

/-- An operand of 32 or 64 bits as a signed and as an unsigned integer. -/
def sint (w : Wd) (x : DWord) : Int := match w with | .b32 => (loWord x).toInt | .b64 => x.toInt
def uint (w : Wd) (x : DWord) : Int := match w with | .b32 => (loWord x).toNat | .b64 => x.toNat
/-- An integer modulo 2^32 or 2^64. -/
def wrap (w : Wd) (r : Int) : DWord := match w with | .b32 => (BitVec.ofInt 32 r).setWidth 64 | .b64 => BitVec.ofInt 64 r
def clamp (lo hi r : Int) : Int := max lo (min hi r)

/-- R330: the exact sum or difference, written by the form. -/
def sum (f : AddF) (sub : Bool) (x y : DWord) : DWord :=
  let r (i : DWord → Int) : Int := if sub then i x - i y else i x + i y
  match f with
  | .b32 => wrap .b32 (r (sint .b32))
  | .b64 => wrap .b64 (r (sint .b64))
  | .s32sat => wrap .b32 (clamp (-(2 ^ 31)) (2 ^ 31 - 1) (r (sint .b32)))
  | .z32sat => wrap .b32 (clamp 0 (2 ^ 32 - 1) (r (uint .b32)))
/-- R335. -/
def productLow (w : Wd) (x y : DWord) : DWord := wrap w (sint w x * sint w y)
def productHigh (f : Sgn) (x y : DWord) : DWord :=
  let i (v : DWord) : Int := match f with | .s => sint .b32 v | .z => uint .b32 v
  wrap .b32 (i x * i y / 2 ^ 32)
/-- R333. -/
def multiplyAdd (f : MadF) (x y z : DWord) : DWord :=
  match f with
  | .b32 => wrap .b32 (uint .b32 x * uint .b32 y + uint .b32 z)
  | .s32 => wrap .b64 (sint .b32 x * sint .b32 y + sint .b64 z)
  | .z32 => wrap .b64 (uint .b32 x * uint .b32 y + uint .b64 z)
/-- The order of IMIN, IMAX and ICMP: signed for .s32 and .s64. -/
def order (f : MinF) (x : DWord) : Int :=
  match f with | .s32 => sint .b32 x | .z32 => uint .b32 x | .s64 => sint .b64 x | .z64 => uint .b64 x
/-- R331. -/
def compare (f : MinF) (c : ICond) (x y : DWord) : Bool :=
  match c with
  | .eq => decide (order f x = order f y)
  | .ne => decide (order f x ≠ order f y)
  | .lt => decide (order f x < order f y)
  | .le => decide (order f x ≤ order f y)
  | .gt => decide (order f y < order f x)
  | .ge => decide (order f y ≤ order f x)
  | .test => match f.wd with | .b32 => decide (loWord (x &&& y) ≠ 0) | .b64 => decide (x &&& y ≠ 0)
/-- R361: the count is unsigned and never reduced. -/
def shifted (k : Sh) (w : Wd) (x y : DWord) : DWord :=
  let n := (loWord y).toNat
  let bitsOf : Nat := match w with | .b32 => 32 | .b64 => 64
  match k with
  | .l => if bitsOf ≤ n then 0 else wrap w (uint w x * 2 ^ n)
  | .r => if bitsOf ≤ n then 0 else wrap w (uint w x / 2 ^ n)
  | .a => if bitsOf ≤ n then (if sint w x < 0 then wrap w (-1) else 0) else wrap w (sint w x / 2 ^ n)
/-- R352: the number of one bits. R312: the number of zeros above the highest one bit. -/
def ones (w : Wd) (x : DWord) : Nat :=
  match w with
  | .b32 => (List.range 32).countP fun i => x.getLsbD i
  | .b64 => (List.range 64).countP fun i => x.getLsbD i
def leadingZeros (w : Wd) (x : DWord) : Nat :=
  match w with
  | .b32 => ((List.range 32).takeWhile fun i => !x.getLsbD (31 - i)).length
  | .b64 => ((List.range 64).takeWhile fun i => !x.getLsbD (63 - i)).length
/-- R310: the field of n = min(LEN, 32 − POS) bits at POS, LEN held to 32. -/
def fieldPos (ctl : Word) : Nat := ctl.toNat % 32
def fieldLen (ctl : Word) : Nat := min (min (ctl.toNat / 256 % 64) 32) (32 - fieldPos ctl)
/-- R332: byte j of a word, extended. -/
def byteInt (f : Sgn) (x : DWord) (j : Nat) : Int :=
  let b := x.toNat / 256 ^ j % 256
  match f with | .s => if b < 128 then b else (b : Int) - 256 | .z => b
def dot (f : Sgn) (x y : DWord) : Int :=
  byteInt f x 0 * byteInt f y 0 + byteInt f x 1 * byteInt f y 1 + byteInt f x 2 * byteInt f y 2 + byteInt f x 3 * byteInt f y 3

end Sys2Proof.Rules

open Sys2Proof.Rules

/-! ### Integer, logic, bit and move words -/

/-- R330: IADD and ISUB, every form, operand form and destination. -/
def Sys2Proof.Rules.AddSubtract : Prop :=
  ∀ (s : State) (g : Grp) (f : AddF) (d : Name) (a b : Src) (x y : Fibre → DWord),
    Lanes s g (viHints [a, b]) d [(a, f.wd), (b, f.wd)] (fun l => [x l, y l]) →
    Writes (.iadd f d a b) s g f.wd d [a.name, b.name] (fun l => sum f false (x l) (y l))
    ∧ Writes (.isub f d a b) s g f.wd d [a.name, b.name] (fun l => sum f true (x l) (y l))

/-- R335: IMUL and IMULH. -/
def Sys2Proof.Rules.Multiply : Prop :=
  ∀ (s : State) (g : Grp) (d : Name) (a b : Src) (x y : Fibre → DWord),
    (∀ w, Lanes s g (viHints [a, b]) d [(a, w), (b, w)] (fun l => [x l, y l]) →
      Writes (.imul w d a b) s g w d [a.name, b.name] (fun l => productLow w (x l) (y l)))
    ∧ (∀ f, Lanes s g (viHints [a, b]) d [(a, .b32), (b, .b32)] (fun l => [x l, y l]) →
      Writes (.imulh f d a b) s g .b32 d [a.name, b.name] (fun l => productHigh f (x l) (y l)))

/-- R333, R332: IMAD and IDOT4 read their destination at issue with the sources. -/
def Sys2Proof.Rules.MultiplyAddDot : Prop :=
  ∀ (s : State) (g : Grp) (d : Name) (a b : Src) (x y z : Fibre → DWord),
    (∀ f : MadF, let wd : Wd := if f = .b32 then .b32 else .b64
      Lanes s g (viHints [a, b]) d [(a, .b32), (b, .b32), plainSrc d wd] (fun l => [x l, y l, z l]) →
      Writes (.imad f d a b) s g wd d [a.name, b.name, d] (fun l => multiplyAdd f (x l) (y l) (z l)))
    ∧ (∀ f : Sgn, Lanes s g (viHints [a, b]) d [(a, .b32), (b, .b32), plainSrc d .b32] (fun l => [x l, y l, z l]) →
      Writes (.idot4 f d a b) s g .b32 d [a.name, b.name, d] (fun l => wrap .b32 (uint .b32 (z l) + dot f (x l) (y l))))

/-- R334: IMIN and IMAX write the smaller or the larger operand, in the order of the form. -/
def Sys2Proof.Rules.MinimumMaximum : Prop :=
  ∀ (s : State) (g : Grp) (f : MinF) (d : Name) (a b : Src) (x y : Fibre → DWord),
    Lanes s g (viHints [a, b]) d [(a, f.wd), (b, f.wd)] (fun l => [x l, y l]) →
    Writes (.imin f d a b) s g f.wd d [a.name, b.name] (fun l => if order f (x l) ≤ order f (y l) then x l else y l)
    ∧ Writes (.imax f d a b) s g f.wd d [a.name, b.name] (fun l => if order f (x l) ≤ order f (y l) then y l else x l)

/-- R331: ICMP writes one predicate in each active lane, and nothing else; a write to p0 is ignored. -/
def Sys2Proof.Rules.IntegerCompare : Prop :=
  ∀ (s : State) (g : Grp) (f : MinF) (c : ICond) (p : Fin 8) (a b : Src) (x y : Fibre → DWord),
    Lanes s g (viHints [a, b]) (.w 0) [(a, f.wd), (b, f.wd)] (fun l => [x l, y l]) →
    Ends (.icmp f c p a b) s g (lanesTo s g [a.name, b.name] fun l => { fib := (l.popAll [a.name, b.name]).setPred p.val (compare f c (x l) (y l)) })
    ∧ ∀ (l : Fibre) (v : Bool) (q : Nat), (l.setPred p.val v).pred q = if q = 0 then true else if q = p.val then v else l.pred q

/-- The traps of single lanes at the unit in hand, after what the other lanes did (R256). -/
def Sys2Proof.Rules.trapped (s : State) (g : Grp) (ts : List (Fibre × Trap)) : State :=
  if ts.isEmpty then s else takeTraps s g.cell.id g.hatch (ts.map fun t => ⟨t.1.idx, t.2, g.first⟩)

/-- R307, R364, R350, R339: the logic words, SEL, MOV between windows and from k, LEA. An index above 63 raises ILLEGAL_ADDRESS in its
lane, which writes nothing. -/
def Sys2Proof.Rules.LogicAndMoves : Prop :=
  ∀ (s : State) (g : Grp) (d : Name) (a b : Src) (x y : Fibre → DWord),
    (∀ w, Lanes s g (viHints [a, b]) d [(a, w), (b, w)] (fun l => [x l, y l]) →
      Writes (.and w d a b) s g w d [a.name, b.name] (fun l => x l &&& y l)
      ∧ Writes (.or w d a b) s g w d [a.name, b.name] (fun l => x l ||| y l)
      ∧ Writes (.xor w d a b) s g w d [a.name, b.name] (fun l => x l ^^^ y l)
      ∧ Writes (.andn w d a b) s g w d [a.name, b.name] (fun l => x l &&& ~~~(y l)))
    ∧ (∀ p : Fin 4, Lanes s g (viHints [a, b]) d [(a, .b32), (b, .b32)] (fun l => [x l, y l]) →
      Writes (.sel p d a b) s g .b32 d [a.name, b.name] (fun l => if l.pred (4 + p.val) then x l else y l))
    ∧ (∀ w, Lanes s g (viHints [a]) d [(a, w)] (fun l => [x l]) →
      Writes (.mov w d a) s g w d [a.name] x)
    ∧ (Lanes s g (viHints [a]) d [(a, .b32)] (fun l => [x l]) →
      (∀ l ∈ (g.after s false).active, (loWord (x l)).toNat ≤ 63) →
      Writes (.movKr d a) s g .b32 d [a.name] (fun l => (sget 0 g.cell.k (loWord (x l)).toNat).setWidth 64))
    ∧ (Lanes s g (viHints [a]) d [(a, .b32)] (fun l => [x l]) →
      let g' := g.after s false
      let out (l : Fibre) : Bool := decide (63 < (loWord (x l)).toNat)
      Ends (.movKr d a) s g (marked s g false [a.name] (trapped
        (writeEffs (passed s g false) g' ((g'.active.filter fun l => !out l).map fun l =>
          (l.idx, written .b32 (l.popAll [a.name]) d ((sget 0 g.cell.k (loWord (x l)).toNat).setWidth 64))))
        g ((g'.active.filter out).map fun l => (l, { cause := .illegalAddress })))))
    ∧ (∀ (sc : Fin 4) (n : Fin 32), Lanes s g (viHints [a, b]) (.w n) [(a, .b64), (b, .b32)] (fun l => [x l, y l]) →
      Writes (.lea sc (.w n) a b) s g .b64 (.w n) [a.name, b.name]
        (fun l => wrap .b64 (uint .b64 (x l) + sint .b32 (y l) * 2 ^ sc.val)))

/-- R361: SHL, SHR and SAR, whatever the count. -/
def Sys2Proof.Rules.Shifts : Prop :=
  ∀ (s : State) (g : Grp) (w : Wd) (d : Name) (a b : Src) (x y : Fibre → DWord),
    Lanes s g (viHints [a, b]) d [(a, w), (b, .b32)] (fun l => [x l, y l]) →
    Writes (.shl w d a b) s g w d [a.name, b.name] (fun l => shifted .l w (x l) (y l))
    ∧ Writes (.shr w d a b) s g w d [a.name, b.name] (fun l => shifted .r w (x l) (y l))
    ∧ Writes (.sar w d a b) s g w d [a.name, b.name] (fun l => shifted .a w (x l) (y l))

/-- R352, R312, R329: POPC, CLZ, BREV, IABS. -/
def Sys2Proof.Rules.BitCounts : Prop :=
  ∀ (s : State) (g : Grp) (d : Name) (a : Src) (x : Fibre → DWord),
    (∀ w, Lanes s g (viHints [a]) d [(a, w)] (fun l => [x l]) →
      Writes (.popc w d a) s g .b32 d [a.name] (fun l => BitVec.ofNat 64 (ones w (x l)))
      ∧ Writes (.clz w d a) s g .b32 d [a.name] (fun l => BitVec.ofNat 64 (leadingZeros w (x l)))
      ∧ Writes (.iabs w d a) s g w d [a.name] (fun l => wrap w (if sint w (x l) < 0 then -sint w (x l) else sint w (x l))))
    ∧ (Lanes s g (viHints [a]) d [(a, .b32)] (fun l => [x l]) →
      ∃ r : Fibre → DWord, (∀ l i, i < 32 → (r l).getLsbD i = (x l).getLsbD (31 - i))
        ∧ Writes (.brev d a) s g .b32 d [a.name] r)

/-- R310: BFX reads a bit field, extended by its form; BFI replaces one in its destination. -/
def Sys2Proof.Rules.BitFields : Prop :=
  ∀ (s : State) (g : Grp) (d : Name) (a b : Src) (x y z : Fibre → DWord),
    (∀ f, Lanes s g (viHints [a, b]) d [(a, .b32), (b, .b32)] (fun l => [x l, y l]) →
      ∃ r : Fibre → DWord, Writes (.bfx f d a b) s g .b32 d [a.name, b.name] r
        ∧ ∀ l i, let n := fieldLen (loWord (y l))
          i < 32 → (r l).getLsbD i =
            if i < n then (x l).getLsbD (fieldPos (loWord (y l)) + i)
            else decide (f = .s) && decide (0 < n) && (x l).getLsbD (fieldPos (loWord (y l)) + n - 1))
    ∧ (Lanes s g (viHints [a, b]) d [(a, .b32), (b, .b32), plainSrc d .b32] (fun l => [x l, y l, z l]) →
      ∃ r : Fibre → DWord, Writes (.bfi d a b) s g .b32 d [a.name, b.name, d] r
        ∧ ∀ l i, let p := fieldPos (loWord (y l))
          i < 32 → (r l).getLsbD i =
            if p ≤ i ∧ i < p + fieldLen (loWord (y l)) then (x l).getLsbD (i - p) else (z l).getLsbD i)

/-- R351: MOVI; HIGH is the payload of HINT.IMM, and without it the literal is extended from its 8 bits. .hi replaces the
top byte of its destination; .f writes sign, exponent and fraction of a small number. -/
def Sys2Proof.Rules.MoveImmediate : Prop :=
  ∀ (s : State) (g : Grp) (d : Name) (n : BitVec 8) (z : Fibre → DWord),
    (Lanes s g { vi := true, imm := true } d [] (fun _ => []) →
      Writes (.movi .z d n) s g .b32 d []
        (fun _ => BitVec.ofNat 64 (n.toNat + 256 * match (g.after s false).imm with | none => 0 | some h => h.toNat))
      ∧ Writes (.movi .s d n) s g .b32 d []
        (fun _ => wrap .b32 (match (g.after s false).imm with | none => n.toInt | some h => n.toNat + 256 * h.toInt)))
    ∧ (Lanes s g { vi := true } d [plainSrc d .b32] (fun l => [z l]) →
      Writes (.movi .hi d n) s g .b32 d [d] (fun l => BitVec.ofNat 64 (n.toNat * 2 ^ 24 + (z l).toNat % 2 ^ 24)))
    ∧ (Lanes s g { vi := true } d [] (fun _ => []) →
      Writes (.movi .f d n) s g .b32 d [] (fun _ =>
        BitVec.ofNat 64 (n.toNat / 128 * 2 ^ 31 + (n.toNat / 16 % 8 + 124) * 2 ^ 23 + n.toNat % 16 * 2 ^ 19)))

/-- R131, R350: NOP is one word of its clause and nothing else; MOV to k writes the cell's uniform register, lanes in
ascending order, and an index outside 48 to 63 raises ILLEGAL_ADDRESS in its lane, which writes nothing. -/
def Sys2Proof.Rules.NopAndUniformMove : Prop :=
  (∀ (s : State) (g : Grp), Issues s g {} → Ends .nop s g (passed s g false))
  ∧ (∀ (s : State) (g : Grp) (a b : Src) (x y : Fibre → DWord),
    Lanes s g (viHints [a, b]) (.w 0) [(a, .b32), (b, .b32)] (fun l => [x l, y l]) →
    (∀ l ∈ (g.after s false).active, 48 ≤ (loWord (y l)).toNat ∧ (loWord (y l)).toNat ≤ 63) →
    Ends (.movKw a b) s g (eachLane (readTo s g false [a.name, b.name]) g.cell.id
      (readVals s g false [a.name, b.name] fun l => [x l, y l]) fun s _ vs =>
        s.setCell g.cell.id fun c => { c with k := sput 0 c.k (loWord (vs.getD 1 0)).toNat (loWord (vs.getD 0 0)) }))
  ∧ (∀ (s : State) (g : Grp) (a b : Src) (x y : Fibre → DWord),
    Lanes s g (viHints [a, b]) (.w 0) [(a, .b32), (b, .b32)] (fun l => [x l, y l]) →
    let xs := readVals s g false [a.name, b.name] fun l => [x l, y l]
    let out (v : Fibre × List DWord) : Bool := decide ((loWord (v.2.getD 1 0)).toNat < 48 ∨ 63 < (loWord (v.2.getD 1 0)).toNat)
    Ends (.movKw a b) s g (trapped (eachLane (readTo s g false [a.name, b.name]) g.cell.id (xs.filter fun v => !out v) fun s _ vs =>
        s.setCell g.cell.id fun c => { c with k := sput 0 c.k (loWord (vs.getD 1 0)).toNat (loWord (vs.getD 0 0)) })
      g ((xs.filter out).map fun v => (v.1, { cause := .illegalAddress }))))

/-- R335: the low half does not depend on signedness; the high half by the rule's own examples; the fn values that no form has. -/
def Sys2Proof.Rules.MultiplyExamples : Prop :=
  (∀ w x y, productLow w x y = wrap w (uint w x * uint w y))
  ∧ productHigh .s 0xFFFFFFFE 3 = 0xFFFFFFFF ∧ productHigh .z 0xFFFFFFFE 3 = 2
  ∧ ∀ v : Word, fld v.toNat 26 6 = 0x03 ∨ fld v.toNat 26 6 = 0x04 → 2 ≤ fld v.toNat 0 2 → decode v = .error .illegalInstruction

/-- R334: the 64-bit forms are of pairs, into an even destination; the rule's examples. -/
def Sys2Proof.Rules.MinimumExamples : Prop :=
  (∀ (f : MinF) (d : Name) (a b : Src), f.wd = .b64 →
    (Instr.imin f d a b).wf = true ∨ (Instr.imax f d a b).wf = true →
      (∃ n : Fin 32, d = .w n ∧ n.val % 2 = 0) ∧ a.name.isPair = true ∧ b.name.isPair = true)
  ∧ (if order .s32 0xFFFFFFFF ≤ order .s32 1 then (0xFFFFFFFF : DWord) else 1) = 0xFFFFFFFF
  ∧ (if order .z32 0xFFFFFFFF ≤ order .z32 1 then (0xFFFFFFFF : DWord) else 1) = 1

/-- R331: eq, ne and test do not depend on signedness; the rule's examples. -/
def Sys2Proof.Rules.CompareExamples : Prop :=
  (∀ (c : ICond) (x y : DWord), c = .eq ∨ c = .ne ∨ c = .test → compare .s32 c x y = compare .z32 c x y ∧ compare .s64 c x y = compare .z64 c x y)
  ∧ compare .z32 .lt 0xFFFFFFFF 1 = false ∧ compare .s32 .lt 0xFFFFFFFF 1 = true

/-- R312, R329, R352: what the words of the BITS group refuse, and the rules' examples. -/
def Sys2Proof.Rules.BitCountWords : Prop :=
  (∀ v : Word, fld v.toNat 26 6 = 0x10 →
    (fld v.toNat 8 3 ≠ 0 ∨ 6 < fld v.toNat 2 6 ∨ fld v.toNat 0 2 ≠ 0 ∨ 32 ≤ fld v.toNat 20 6 → decode v = .error .illegalInstruction))
  ∧ (∀ (d : Name) (a : Src), (Instr.popc .b64 d a).wf = true ∨ (Instr.clz .b64 d a).wf = true ∨ (Instr.iabs .b64 d a).wf = true → a.name.isPair = true)
  ∧ (∀ (d : Name) (a : Src), (Instr.iabs .b64 d a).wf = true → ∃ n : Fin 32, d = .w n ∧ n.val % 2 = 0)
  ∧ leadingZeros .b32 0x0000FFFF = 16 ∧ leadingZeros .b64 1 = 63 ∧ leadingZeros .b32 0 = 32 ∧ leadingZeros .b64 0 = 64
  ∧ ones .b32 0x00000D59 = 7 ∧ ones .b64 0xFFFFFFFF00000001 = 33
  ∧ wrap .b32 (-sint .b32 0x80000000) = 0x80000000

/-! ### Floating-point, drawing and cross-lane words -/

namespace Sys2Proof.Rules

/-- i writes r's value of each active lane to d, ORs r's status into the cell's ARITH.STATUS, and where draws is set raises
each such lane's draw counter by one (R142, R152). -/
def FloatWrites (i : Instr) (s : State) (g : Grp) (d : Name) (names : List Name) (draws : Bool) (r : Fibre → Word × Word) : Prop :=
  Ends i s g (lanesTo s g names fun l =>
    let e := written .b32 (l.popAll names) d ((r l).1.setWidth 64)
    { e with status := (r l).2, fib := if draws then { e.fib with dc := e.fib.dc + 1 } else e.fib })
/-- The rounding in force: that of HINT.MOD, else to nearest even (R135). -/
def mode (s : State) (g : Grp) : RndMode := match (g.after s false).rnd with | .none => .rne | r => r
/-- One of several lanes' words, by lane. -/
def setEach (s : State) (cell : Nat) (xs : List (Fibre × List DWord)) (n : Nat) (v : Fibre → List DWord → Word) : State :=
  xs.foldl (fun s x => s.setFibre ⟨cell, x.1.idx⟩ fun f => f.setReg n (v x.1 x.2)) s

end Sys2Proof.Rules

/-- R318, R326, R321, R322, R354, R145, R153, R138: the floating-point words write the value of their operation (FloatValues) with its
status bits, and draw where they round stochastically, per BF16 element, or convert. -/
def Sys2Proof.Rules.FloatOperations : Prop :=
  ∀ (s : State) (g : Grp) (d : Name) (a b : Src) (x y z : Fibre → DWord),
    let v (k : Fibre → DWord) (l : Fibre) : Word := loWord (k l)
    let rnd : Hints := { perm := [a, b], vi := true, rnd := true }
    (∀ f : FF, Lanes s g rnd d [(a, .b32), (b, .b32)] (fun l => [x l, y l]) →
      let draws := f == .bf16x2 || mode s g == .sr
      FloatWrites (.fadd f d a b) s g d [a.name, b.name] draws (fun l => fopLane .add f (mode s g) g.cell l (v x l) (v y l) 0)
      ∧ FloatWrites (.fsub f d a b) s g d [a.name, b.name] draws (fun l => fopLane .sub f (mode s g) g.cell l (v x l) (v y l) 0)
      ∧ FloatWrites (.fmul f d a b) s g d [a.name, b.name] draws (fun l => fopLane .mul f (mode s g) g.cell l (v x l) (v y l) 0))
    ∧ (∀ f : FF, Lanes s g rnd d [(a, .b32), (b, .b32), plainSrc d .b32] (fun l => [x l, y l, z l]) →
      FloatWrites (.ffma f d a b) s g d [a.name, b.name, d] (f == .bf16x2 || mode s g == .sr)
        (fun l => fopLane .fma f (mode s g) g.cell l (v x l) (v y l) (v z l)))
    ∧ (Lanes s g rnd d [(a, .b32), (b, .b32), plainSrc d .b32] (fun l => [x l, y l, z l]) →
      FloatWrites (.fdot2 d a b) s g d [a.name, b.name, d] (mode s g == .sr)
        (fun l => round32 (mode s g) (drawWord g.cell l true 0) (fdot2Ex (mode s g) (v x l) (v y l) (v z l))))
    ∧ (∀ f : FF, Lanes s g (viHints [a, b]) d [(a, .b32), (b, .b32)] (fun l => [x l, y l]) →
      FloatWrites (.fmin f d a b) s g d [a.name, b.name] false (fun l => minmaxLane false f (v x l) (v y l))
      ∧ FloatWrites (.fmax f d a b) s g d [a.name, b.name] false (fun l => minmaxLane true f (v x l) (v y l)))
    ∧ (∀ r : RndDir, Lanes s g (viHints [a]) d [(a, .b32)] (fun l => [x l]) →
      FloatWrites (.frnd r d a) s g d [a.name] false (fun l => frnd32 (rndDir r) (v x l)))
    ∧ (∀ (c : Cvt) (sr : Bool), let narrows := c == .f2bl || c == .f2bh
      let m := if sr then RndMode.sr else mode s g
      Lanes s g { perm := [a], vi := true, rnd := !sr && (narrows || c == .s2f || c == .z2f) } d
        (if narrows then [(a, .b32), plainSrc d .b32] else [(a, .b32)]) (fun l => if narrows then [x l, z l] else [x l]) →
      FloatWrites (.fcvt c sr d a) s g d (if narrows then [a.name, d] else [a.name]) (narrows || m == .sr)
        (fun l => cvtLane c m (drawWord g.cell l true 0) (v x l) (if narrows then v z l else 0)))
    ∧ (∀ (n : Fin 4) (slot : Fin 8) (sc : Fin 32), let sym := fmtSYM (fmtSlot s g.cell slot.val)
      (Lanes s g (viHints [a]) d [(a, .b32), plainSrc (.w sc) .b32, plainSrc d .b32] (fun l => [x l, y l, z l]) →
        FloatWrites (.qcvt n d a slot sc) s g d [a.name, .w sc, d] true (fun l =>
          let r := qcvt8 sym (drawWord g.cell l true 0) (v x l) (v y l)
          (setByte (v z l) n.val r.1, r.2)))
      ∧ (Lanes s g (viHints [a]) d [(a, .b32), plainSrc (.w sc) .b32] (fun l => [x l, y l]) →
        FloatWrites (.qdeq n d a slot sc) s g d [a.name, .w sc] false (fun l => qdeq8 sym (getByte (v x l) n.val) (v y l))))
    ∧ (∀ n : Fin 4, Lanes s g { vi := true } d [] (fun _ => []) →
      FloatWrites (.draw n d) s g d [] true (fun l => (drawWord g.cell l false n.val, 0)))

/-- R320: FCMP writes one predicate and no flag but NV, which a signalling NaN sets. -/
def Sys2Proof.Rules.FloatCompare : Prop :=
  ∀ (s : State) (g : Grp) (c : FCond) (p : Fin 8) (a b : Src) (x y : Fibre → DWord),
    Lanes s g (viHints [a, b]) (.w 0) [(a, .b32), (b, .b32)] (fun l => [x l, y l]) →
    ∃ r : Fibre → Bool × Word,
      Ends (.fcmp c p a b) s g (lanesTo s g [a.name, b.name] fun l => { fib := (l.popAll [a.name, b.name]).setPred p.val (r l).1, status := (r l).2 })
      ∧ ∀ l, let (u, w) := (loWord (x l), loWord (y l))
        let num := !isNan u && !isNan w
        let key (t : Word) : Int := if t.toNat < 2 ^ 31 then t.toNat else (2 ^ 31 : Int) - t.toNat
        (r l).1 = (match c with
          | .eq => num && decide (key u = key w) | .ne => !num || decide (key u ≠ key w)
          | .lt => num && decide (key u < key w) | .le => num && decide (key u ≤ key w)
          | .gt => num && decide (key w < key u) | .ge => num && decide (key w ≤ key u)
          | .un => !num | .ord => num)
        ∧ (r l).2 = if val32 u = .nan true ∨ val32 w = .nan true then stNV else 0

/-- R138: what FMIN and FMAX return for NaNs and signed zeros, in FP32; they return one of their operands otherwise. -/
def Sys2Proof.Rules.MinMaxOfNans : Prop :=
  ∀ a b : Word,
    (isNan a = true → isNan b = true → ∀ m, (minmaxLane m .f32 a b).1 = 0x7FC00000)
    ∧ (isNan a = true → isNan b = false → ∀ m, (minmaxLane m .f32 a b).1 = b)
    ∧ (isNan a = false → isNan b = true → ∀ m, (minmaxLane m .f32 a b).1 = a)
    ∧ (isNan a = false → isNan b = false → ∀ m, (minmaxLane m .f32 a b).1 = a ∨ (minmaxLane m .f32 a b).1 = b)
    ∧ (minmaxLane false .f32 0x80000000 0).1 = 0x80000000 ∧ (minmaxLane true .f32 0x80000000 0).1 = 0
    ∧ (minmaxLane false .f32 0 0x80000000).1 = 0x80000000 ∧ (minmaxLane true .f32 0 0x80000000).1 = 0

/-! ### The values of the floating-point operations, over the rationals -/

namespace Sys2Proof.Rules

/-- The magnitude that the low 31 bits of an FP32 word hold (R133); at 0x7F800000 it is 2^128, which stands for infinity when a result
is rounded (R135). A BF16 value is the upper half of an FP32 word (R134). -/
def mag (k : Nat) : Rat :=
  if k < 2 ^ 23 then (k : Rat) / (2 : Rat) ^ 149 else ((2 ^ 23 + k % 2 ^ 23 : Nat) : Rat) * (2 : Rat) ^ (k / 2 ^ 23) / (2 : Rat) ^ 150
def low31 (w : Word) : Nat := w.toNat % 2 ^ 31
def minus (w : Word) : Bool := decide (2 ^ 31 ≤ w.toNat)
def inf31 : Nat := 0x7F800000
/-- A NaN, and one that is signalling: its quiet bit is zero. -/
def NaN (w : Word) : Bool := decide (inf31 < low31 w)
def Signals (w : Word) : Bool := decide (inf31 < low31 w ∧ low31 w < 0x7FC00000)
def signed (neg : Bool) (m : Rat) : Rat := if neg then -m else m
/-- The number that a finite word holds. -/
def num (w : Word) : Rat := signed (minus w) (mag (low31 w))
/-- A term of an exact sum: its sign, and its magnitude, none for an infinity. -/
def term (neg : Bool) (w : Word) : Bool × Option Rat := (neg != minus w, if low31 w < inf31 then some (mag (low31 w)) else none)
/-- The uniform of a drawn word (R151). -/
def uniform (w : Word) : Rat := ((w.toNat / 256 : Nat) : Rat) / (2 : Rat) ^ 24 + 1 / (2 : Rat) ^ 25

/-- Does a value that lies t of the way from the neighbour nearer zero to the other one go to the other (R135, R136)? -/
def Away (m : RndMode) (u t : Rat) (neg odd : Bool) : Prop :=
  match m with
  | .none | .rne => 1 / 2 < t ∨ (t = 1 / 2 ∧ odd = true)
  | .rz => False | .dn => neg = true | .up => neg = false
  | .sr => u < t
/-- m, of a magnitude of at least 2^128, overflows (R319). step is 1 for FP32 and 2^16 for BF16, whose largest finite value is a step
below infinity. -/
def overflowed (step : Nat) (m : RndMode) (neg : Bool) : Nat :=
  match m with
  | .rz => inf31 - step
  | .up => if neg then inf31 - step else inf31
  | .dn => if neg then inf31 else inf31 - step
  | _ => inf31
/-- A magnitude x between neighbours k and k + step is rounded to the word r with the status st (R133, R135, R136, R141, R319); vec
selects the rule of R137. -/
def RoundedAt (step : Nat) (vec : Bool) (m : RndMode) (u : Rat) (neg : Bool) (x : Rat) (k : Nat) (r : Nat) (st : Word) : Prop :=
  let sg := if neg then 2 ^ 31 else 0
  let t := (x - mag k) / (mag (k + step) - mag k)
  let m := if vec ∧ k = 0 then .sr else m
  let tiny : Word := if x < 1 / (2 : Rat) ^ 126 then stUF else 0
  (x = mag k → r = sg + k ∧ st = 0)
  ∧ (mag k < x →
    (Away m u t neg (k / step % 2 == 1) → r = sg + (k + step) ∧ st = (stIX ||| tiny) ||| (if k + step = inf31 then stOF else 0))
    ∧ (¬ Away m u t neg (k / step % 2 == 1) → r = sg + k ∧ st = stIX ||| tiny))
def Rounded (step : Nat) (vec : Bool) (m : RndMode) (u : Rat) (neg : Bool) (x : Rat) (r : Nat) (st : Word) : Prop :=
  ((2 : Rat) ^ 128 ≤ x → r = (if neg then 2 ^ 31 else 0) + overflowed step m neg ∧ st = stOF ||| stIX)
  ∧ ∀ k, k % step = 0 → k < inf31 → mag k ≤ x → x < mag (k + step) → RoundedAt step vec m u neg x k r st
/-- The sum of the terms, rounded once (R318, R319, R322): a NaN operand or an invalid operation gives the canonical NaN; an infinite
term the infinity; an exact zero sum is −0 where every term is −0, or under dn unless every term is +0. -/
def Narrows (step : Nat) (vec : Bool) (m : RndMode) (u : Rat) (ops : List Word) (bad : Bool) (ts : List (Bool × Option Rat)) (r : Nat) (st : Word) : Prop :=
  let invalid := bad || (ts.contains (true, none) && ts.contains (false, none))
  let sum := ts.foldl (fun s t => s + signed t.1 (t.2.getD 0)) (0 : Rat)
  let all0 (neg : Bool) : Bool := ts.all (· == (neg, some 0))
  ((invalid || ops.any NaN) = true → r = 0x7FC00000 ∧ st = if invalid || ops.any Signals then stNV else 0)
  ∧ ((invalid || ops.any NaN) = false →
    (∀ neg, (neg, none) ∈ ts → r = (if neg then 2 ^ 31 else 0) + inf31 ∧ st = 0)
    ∧ (ts.all (·.2.isSome) = true →
      (sum = 0 → r = (if all0 true || (m == .dn && !all0 false) then 2 ^ 31 else 0) ∧ st = 0)
      ∧ (sum ≠ 0 → Rounded step vec m u (decide (sum < 0)) (if sum < 0 then -sum else sum) r st)))
/-- The terms that an operand and a product give: none for a NaN, and for 0 × ∞, which is invalid. -/
def termOf (neg : Bool) (w : Word) : List (Bool × Option Rat) := if NaN w then [] else [term neg w]
def zeroInf (a b : Word) : Bool := !NaN a && !NaN b && ((low31 a == 0 && low31 b == inf31) || (low31 a == inf31 && low31 b == 0))
def productOf (a b : Word) : List (Bool × Option Rat) :=
  if NaN a || NaN b || zeroInf a b then [] else
  [(minus a != minus b, if low31 a < inf31 ∧ low31 b < inf31 then some (mag (low31 a) * mag (low31 b)) else none)]
/-- FADD, FSUB, FMUL and FFMA of one element, as an FP32 word, and the step of a chain of an MMA (R149, R318, R319). An FFMA of a finite
product and the infinity of the other sign is invalid. -/
def Operates (o : FOp) (step : Nat) (vec : Bool) (m : RndMode) (u : Rat) (a b c : Word) (r : Nat) (st : Word) : Prop :=
  match o with
  | .add => Narrows step vec m u [a, b] false (termOf false a ++ termOf false b) r st
  | .sub => Narrows step vec m u [a, b] false (termOf false a ++ termOf true b) r st
  | .mul => Narrows step vec m u [a, b] (zeroInf a b) (productOf a b) r st
  | .fma => Narrows step vec m u [a, b, c]
      (zeroInf a b || (!NaN a && !NaN b && low31 a < inf31 && low31 b < inf31 && low31 c == inf31 && (minus a != minus b) != minus c))
      (productOf a b ++ termOf false c) r st
  | .mac => Narrows step vec m u [a, b, c] (zeroInf a b) (productOf a b ++ termOf false c) r st
/-- An element of a packed pair as an FP32 word (R134). -/
def element (w : Word) (e : Nat) : Word := BitVec.ofNat 32 (w.toNat / 2 ^ (16 * e) % 2 ^ 16 * 2 ^ 16)
/-- n is the integer that the rounding direction makes of x (R326, R140, R145). -/
def RoundsTo (m : RndMode) (x : Rat) (n : Int) : Prop :=
  ∀ k : Int, (k : Rat) ≤ x → x < k + 1 → (x = k → n = k)
    ∧ ((k : Rat) < x → match m with
      | .rz => n = if 0 ≤ k then k else k + 1
      | .dn => n = k
      | .up => n = k + 1
      | _ => (x - k < 1 / 2 → n = k) ∧ (1 / 2 < x - k → n = k + 1) ∧ (x - k = 1 / 2 → n = k + k % 2))
/-- FCVT to an integer in [lo, hi] (R140). -/
def ToInteger (m : RndMode) (lo hi : Int) (a r st : Word) : Prop :=
  (NaN a = true → r = 0 ∧ st = stNV)
  ∧ (low31 a = inf31 → r = BitVec.ofInt 32 (if minus a then lo else hi) ∧ st = stNV)
  ∧ (low31 a < inf31 → ∀ n, RoundsTo m (num a) n →
    (n < lo → r = BitVec.ofInt 32 lo ∧ st = stNV) ∧ (hi < n → r = BitVec.ofInt 32 hi ∧ st = stNV)
    ∧ (lo ≤ n → n ≤ hi → r = BitVec.ofInt 32 n ∧ st = if num a = n then 0 else stIX))
/-- A byte of residues of v (R144). -/
def residues (v : Int) : Nat := (v % 7).toNat * 32 + (v % 8).toNat * 4 + (v % 3).toNat

/-- R133 to R137, R149, R318, R319, R322: the values of FADD, FSUB, FMUL, FFMA and FDOT2, and of a step of an MMA's chain: exact, and
rounded once. w is the word drawn. -/
def ArithmeticValues : Prop :=
  ∀ (m : RndMode) (w a b c : Word),
    (∀ o, let r := fop32 o m w a b c
      Operates o 1 false m (uniform w) a b c r.1.toNat r.2)
    ∧ (∀ o (x y z : BitVec 16), let r := fop16 o m w x y z
      let wide (h : BitVec 16) : Word := h.setWidth 32 <<< 16
      Operates o (2 ^ 16) true m (uniform w) (wide x) (wide y) (wide z) (wide r.1).toNat r.2)
    ∧ (∀ o (cell : Cell) (l : Fibre), fopLane o .f32 m cell l a b c = fop32 o m (drawWord cell l true 0) a b c
      ∧ let r (e : Nat) := fop16 o m (drawWord cell l true e) (half a e) (half b e) (half c e)
        fopLane o .bf16x2 m cell l a b c = ((r 1).1 ++ (r 0).1, (r 0).2 ||| (r 1).2))
    ∧ (let r := round32 m w (fdot2Ex m a b c)
      Narrows 1 false m (uniform w) [element a 0, element b 0, element a 1, element b 1, c]
        (zeroInf (element a 0) (element b 0) || zeroInf (element a 1) (element b 1))
        (productOf (element a 0) (element b 0) ++ productOf (element a 1) (element b 1) ++ termOf false c) r.1.toNat r.2)
    ∧ ∀ (neg : Bool) (n : Nat) (e : Int), let r := rne32 (.fin neg n 1 e)
      Narrows 1 false .rne 0 [] false
        [(neg, some ((n : Rat) * (if 0 ≤ e then (2 : Rat) ^ e.toNat else 1 / (2 : Rat) ^ (-e).toNat)))] r.1.toNat r.2

/-- R138: FMIN and FMAX return the smaller or the larger of two numbers, in FP32 and in each BF16 element; a signalling NaN alone
raises NV. -/
def MinMaxValues : Prop :=
  ∀ (isMax : Bool) (a b : Word), let r := minmaxLane isMax .f32 a b
    (r.2 = if Signals a || Signals b then stNV else 0)
    ∧ (NaN a = false → NaN b = false → (r.1 = a ∨ r.1 = b)
      ∧ (isMax = false → num r.1 ≤ num a ∧ num r.1 ≤ num b) ∧ (isMax = true → num a ≤ num r.1 ∧ num b ≤ num r.1))
    ∧ (∀ e, e < 2 → element (minmaxLane isMax .bf16x2 a b).1 e = (minmaxLane isMax .f32 (element a e) (element b e)).1)
    ∧ (minmaxLane isMax .bf16x2 a b).2
      = ((minmaxLane isMax .f32 (element a 0) (element b 0)).2 ||| (minmaxLane isMax .f32 (element a 1) (element b 1)).2)

/-- R326, R140, R321, R347: the values of FRND and FCVT, and the narrowing of MST. -/
def ConversionValues : Prop :=
  ∀ (a old u : Word),
    (∀ d : RndDir, let r := frnd32 (rndDir d) a
      (NaN a = true → r = (0x7FC00000, if Signals a then stNV else 0)) ∧ (low31 a = inf31 → r = (a, 0))
      ∧ (low31 a < inf31 → r.2 = 0 ∧ low31 r.1 < inf31 ∧ minus r.1 = minus a ∧ ∀ n, RoundsTo (rndDir d) (num a) n → num r.1 = n))
    ∧ (∀ m, let lo := cvtLane .f2bl m u a old
      let hi := cvtLane .f2bh m u a old
      Narrows (2 ^ 16) true m (uniform u) [a] false (termOf false a) (element lo.1 0).toNat lo.2 ∧ element lo.1 1 = element old 1
      ∧ Narrows (2 ^ 16) true m (uniform u) [a] false (termOf false a) (element hi.1 1).toNat hi.2 ∧ element hi.1 0 = element old 0)
    ∧ (∀ m, let lo := cvtLane .bl2f m u a old
      let hi := cvtLane .bh2f m u a old
      lo = (if NaN (element a 0) then (0x7FC00000, if Signals (element a 0) then stNV else 0) else (element a 0, 0))
      ∧ hi = (if NaN (element a 1) then (0x7FC00000, if Signals (element a 1) then stNV else 0) else (element a 1, 0)))
    ∧ (∀ m, let s := cvtLane .f2s m u a old
      let t := cvtLane .f2sz m u a old
      let z := cvtLane .f2z m u a old
      ToInteger .rne (-2 ^ 31) (2 ^ 31 - 1) a s.1 s.2 ∧ ToInteger .rz (-2 ^ 31) (2 ^ 31 - 1) a t.1 t.2
      ∧ ToInteger .rz 0 (2 ^ 32 - 1) a z.1 z.2)
    ∧ (∀ m, let s := cvtLane .s2f m u a old
      let z := cvtLane .z2f m u a old
      Narrows 1 false m (uniform u) [] false [(decide (a.toInt < 0), some (a.toInt.natAbs : Rat))] s.1.toNat s.2
      ∧ Narrows 1 false m (uniform u) [] false [(false, some (a.toNat : Rat))] z.1.toNat z.2)
    ∧ ∀ clp : Bool, ∃ (r : Nat) (st : Word), Narrows (2 ^ 16) false .rne 0 [a] false (termOf false a) r st
      ∧ narrow clp a = (BitVec.ofNat 32 ((if clp ∧ st &&& stOF ≠ 0 then (if minus a then 2 ^ 31 else 0) + 0x7F7F0000 else r) / 2 ^ 16), st)

/-- R144, R145, R354: the values of QCVT and QDEQ. -/
def ResidueValues : Prop :=
  ∀ (sym : Bool) (u x sc : Word) (b : Byte),
    let lo : Int := if sym then -83 else -84
    let r := qcvt8 sym u x sc
    ((NaN x || NaN sc || low31 sc == 0 || low31 sc == inf31) = true → r = (0xFF, stNV))
    ∧ ((NaN x || NaN sc || low31 sc == 0 || low31 sc == inf31) = false →
      (low31 x = inf31 → r = (BitVec.ofNat 8 (residues (if minus x != minus sc then lo else 83)), stOF ||| stIX))
      ∧ (low31 x < inf31 → let q := num x / num sc
        ∀ n : Int, (1 ≤ q ∨ q ≤ -1 → RoundsTo .rne q n) →
          (-1 < q → q < 1 → n = if 0 < q ∧ uniform u < q then 1 else if q < 0 ∧ uniform u < -q then -1 else 0) →
          let v := min 83 (max lo n)
          r = (BitVec.ofNat 8 (residues v), (if v = n then 0 else stOF) ||| (if q = v then 0 else stIX))))
    ∧ ((7 ≤ b.toNat / 32 ∨ b.toNat % 4 = 3 ∨ (sym = true ∧ b = 0x10)) → qdeq8 sym b sc = (0x7FC00000, stNV))
    ∧ ∀ v : Int, lo ≤ v → v ≤ 83 → b.toNat = residues v →
      let y := qdeq8 sym b sc
      Narrows 1 false .rne 0 [sc] (!NaN sc && v == 0 && low31 sc == inf31)
        (if NaN sc || (v == 0 && low31 sc == inf31) then [] else
          [(decide (v < 0) != minus sc, if low31 sc < inf31 then some ((v.natAbs : Rat) * mag (low31 sc)) else none)]) y.1.toNat y.2

/-- The word of one of the two magnitudes adjacent to an exact one, the farther from zero where pick is set, and its status (R139): le q
says that q is at most the exact magnitude, eq that it is equal to it. -/
def Adjoins (neg pick : Bool) (le eq : Rat → Bool) (r : Nat) (st : Word) : Prop :=
  let sg := if neg then 2 ^ 31 else 0
  (le ((2 : Rat) ^ 128) = true → r = sg + inf31 ∧ st = stOF ||| stIX)
  ∧ ∀ k, k < inf31 → le (mag k) = true → le (mag (k + 1)) = false →
    (eq (mag k) = true → r = sg + k ∧ st = 0)
    ∧ (eq (mag k) = false → r = sg + (if pick then k + 1 else k)
      ∧ st = (stIX ||| (if le (1 / (2 : Rat) ^ 126) then 0 else stUF)) ||| (if pick ∧ k + 1 = inf31 then stOF else 0))
/-- R139: the values of FRCP, FRSQ, FSQRT, FEXP2 and FLOG2: the special operands, the exact results, the two neighbours of a reciprocal
and of a reciprocal root, and the root rounded to nearest even. Of FEXP2 and FLOG2 at other operands it says the powers of two, or the
integers, between which the result lies. -/
def FunctionValues : Prop :=
  ∀ (a : Word) (pick : Bool),
    let f (fn : Fun) : Nat × Word := ((fun32 fn pick a).1.toNat, (fun32 fn pick a).2)
    (NaN a = true → ∀ fn, f fn = (0x7FC00000, if Signals a then stNV else 0))
    ∧ (a = 0 → f .rcp = (inf31, stDZ) ∧ f .rsq = (inf31, stDZ) ∧ f .sqrt = (0, 0) ∧ f .exp2 = (0x3F800000, 0) ∧ f .log2 = (0xFF800000, stDZ))
    ∧ (a = 0x80000000 → f .rcp = (0xFF800000, stDZ) ∧ f .rsq = (0xFF800000, stDZ) ∧ f .sqrt = (0x80000000, 0) ∧ f .exp2 = (0x3F800000, 0)
      ∧ f .log2 = (0xFF800000, stDZ))
    ∧ (a = 0x7F800000 → f .rcp = (0, 0) ∧ f .rsq = (0, 0) ∧ f .sqrt = (inf31, 0) ∧ f .exp2 = (inf31, 0) ∧ f .log2 = (inf31, 0))
    ∧ (a = 0xFF800000 → f .rcp = (0x80000000, 0) ∧ f .rsq = (0x7FC00000, stNV) ∧ f .sqrt = (0x7FC00000, stNV) ∧ f .exp2 = (0, 0)
      ∧ f .log2 = (0x7FC00000, stNV))
    ∧ (0 < low31 a → low31 a < inf31 →
      let x := mag (low31 a)
      Adjoins (minus a) pick (fun q => decide (q * x ≤ 1)) (fun q => decide (q * x = 1)) (f .rcp).1 (f .rcp).2
      ∧ (minus a = true → f .rsq = (0x7FC00000, stNV) ∧ f .sqrt = (0x7FC00000, stNV) ∧ f .log2 = (0x7FC00000, stNV))
      ∧ (minus a = false →
        Adjoins false pick (fun q => decide (q * q * x ≤ 1)) (fun q => decide (q * q * x = 1)) (f .rsq).1 (f .rsq).2
        ∧ (∀ k, mag k * mag k ≤ x → x < mag (k + 1) * mag (k + 1) →
          let mid := (mag k + mag (k + 1)) / 2
          (x = mag k * mag k → f .sqrt = (k, 0)) ∧ (x ≠ mag k * mag k → x < mid * mid → f .sqrt = (k, stIX))
          ∧ (mid * mid < x → f .sqrt = (k + 1, stIX)) ∧ (x = mid * mid → f .sqrt = (k + k % 2, stIX)))
        ∧ ∀ n : Nat, ∀ y, (y = mag (n * 2 ^ 23) ∧ 0 < n ∨ ∃ j, j < 23 ∧ n = 0 ∧ y = mag (2 ^ j)) → y ≤ x → x < y + y →
          low31 (fun32 .log2 pick a).1 < inf31
          ∧ ∀ e : Int, y = (if 0 ≤ e then (2 : Rat) ^ e.toNat else 1 / (2 : Rat) ^ (-e).toNat) →
            (x = y → num (fun32 .log2 pick a).1 = e ∧ (f .log2).2 = 0)
            ∧ (e : Rat) ≤ num (fun32 .log2 pick a).1 ∧ num (fun32 .log2 pick a).1 ≤ e + 1)
      ∧ ∀ n : Int, (n : Rat) ≤ num a → num a < n + 1 →
        (128 ≤ n → f .exp2 = (inf31, stOF ||| stIX)) ∧ (n < -149 → f .exp2 = (if pick then 1 else 0, stIX ||| stUF))
        ∧ (-149 ≤ n → n < 128 →
          let at_ (n : Int) : Nat := if -126 ≤ n then ((n + 127) * 2 ^ 23).toNat else 2 ^ (n + 149).toNat
          (num a = n → f .exp2 = (at_ n, 0)) ∧ at_ n ≤ (f .exp2).1 ∧ (f .exp2).1 ≤ at_ (n + 1)))
end Sys2Proof.Rules

/-- R325, R119, R139: FRCP, FRSQ, FSQRT, FEXP2 and FLOG2 become pending in each active lane, counted by its flag; their value
is one of those that R139 permits (FunctionValues), chosen freely; their status goes to the cell at issue. Log entries 6 and 32: the
reading taken. -/
def Obligations.LongFunctions : Prop :=
  ∀ (s : State) (g : Grp) (n : Fin 32) (a : Src) (x : Fibre → DWord),
    Words s g (viHints [a]) true [(a, .b32)] (fun l => [x l]) →
    let goal (fn : Fun) : State := eachLane (readTo s g true [a.name]) g.cell.id (readVals s g true [a.name] fun l => [x l]) fun s l vs =>
      let r := fun32 fn (Config.freeBit s.free) (loWord (vs.getD 0 0))
      (pendAll { s with free := s.free + 1 } g.cell.id [l] (.value [(l.base + n.val, r.1)])).orArith g.cell.id r.2
    Ends (.frcp (.w n) a) s g (goal .rcp) ∧ Ends (.frsq (.w n) a) s g (goal .rsq) ∧ Ends (.fsqrt (.w n) a) s g (goal .sqrt)
    ∧ Ends (.fexp2 (.w n) a) s g (goal .exp2) ∧ Ends (.flog2 (.w n) a) s g (goal .log2)

/-- R226, R340, R315: BALLOT, MATCH and COMPACT read the active lanes and write one word to each of them. -/
def Sys2Proof.Rules.CrossLane : Prop :=
  ∀ (s : State) (g : Grp) (n : Fin 32),
    (∀ p : Fin 8, Issues s g {} →
      ∃ m : Word, Ends (.ballot (.w n) p) s g (lanesTo s g [] fun l => { fib := l.setReg n.val m })
        ∧ ∀ j, j < 32 → (m.getLsbD j = true ↔ ∃ l ∈ (g.after s false).active, l.lane = j ∧ l.pred p.val = true))
    ∧ (∀ (a : Name) (x : Fibre → DWord), Words s g {} false [plainSrc a .b32] (fun l => [x l]) →
      let s' := readTo s g false [a]
      let xs := readVals s g false [a] fun l => [x l]
      (∃ m : DWord → Word, Ends (.matchv (.w n) a) s g (setEach s' g.cell.id xs n.val fun _ vs => m (vs.getD 0 0))
        ∧ ∀ v j, j < 32 → ((m v).getLsbD j = true ↔ ∃ l ∈ (g.after s false).active, l.lane = j ∧ loWord (x l) = loWord v))
      ∧ ∀ p : Fin 8, Ends (.compact (.w n) a p) s g (setEach s' g.cell.id xs n.val fun l _ =>
          ((xs.filter fun y => y.1.pred p.val).map fun y => loWord (y.2.getD 0 0)).getD (xs.findIdx fun y => y.1.idx == l.idx) 0))

/-- R153, R360: TOPK keeps a lane's value while fewer than K lanes come before it, else −∞: those of a larger value, and the lower lanes
of the same one, a NaN after every number (that the lower lane of two NaNs comes first is the model's choice, log entry 32). SAMPLE
writes the lane of the largest z that is no NaN, the first of equals, or 0xFFFF_FFFF where there is none; it draws in every active
lane. The logarithms inside z are taken to 192 bits, the model's reading (log entry 32). -/
def Sys2Proof.Rules.SampleAndTopk : Prop :=
  ∀ (s : State) (g : Grp) (n : Fin 32) (a b : Src) (x y : Fibre → DWord),
    Words s g (viHints [a, b]) false [(a, .b32), (b, .b32)] (fun l => [x l, y l]) →
    let s' := readTo s g false [a.name, b.name]
    let xs := readVals s g false [a.name, b.name] fun l => [x l, y l]
    let act := (g.after s false).active
    let before (m : Word) (ml : Nat) (v : Word) (vl : Nat) : Bool :=
      if isNan m then isNan v && decide (ml < vl)
      else isNan v || decide (ordKey fp32 v.toNat < ordKey fp32 m.toNat) || (ordKey fp32 v.toNat == ordKey fp32 m.toNat && decide (ml < vl))
    Ends (.topk (.w n) a b) s g (setEach s' g.cell.id xs n.val fun l vs =>
      let v := loWord (vs.getD 0 0)
      if (act.countP fun m => before (loWord (x m)) m.lane v l.lane) < (loWord (vs.getD 1 0)).toNat then v else 0xFF800000)
    ∧ ∃ v : Word,
        Ends (.sample (.w n) a b) s g (eachLane s' g.cell.id xs fun s l vs =>
          let s := s.setFibre ⟨g.cell.id, l.idx⟩ fun f => { f.setReg n.val v with dc := f.dc + 1 }
          let bad := match val32 (loWord (vs.getD 1 0)) with | .nan _ => true | .inf neg => neg | .fin neg k _ _ => neg || k == 0
          if bad then s.orArith g.cell.id stNV else s)
        ∧ let z (l : Fibre) : Option Word :=
            (sampleZ (drawWord g.cell l false 0) (loWord (x l)) (loWord (y l))).filter fun w => !isNan w
          ((v = 0xFFFFFFFF ∧ ∀ l ∈ act, z l = none)
          ∨ ∃ (i : Nat) (l : Fibre), act[i]? = some l ∧ v = BitVec.ofNat 32 l.lane ∧ ∃ w, z l = some w
            ∧ ∀ (j : Nat) (m : Fibre) (u : Word), act[j]? = some m → z m = some u →
              ordKey fp32 u.toNat ≤ ordKey fp32 w.toNat ∧ (j < i → ordKey fp32 u.toNat < ordKey fp32 w.toNat))

/-- R327, R52, R53, R169, R196, R266: FLD reads the slot that sub plus the index names, a line that it is read at taking the touch of a
read, and its fibre keeps whose pending write it read; FST writes it by name where a store finds room in the refusal record. That FLD
reads in all its lanes at the issue, at one instant, and that a pending write which answers it counts as read are the model's readings
(log entry 16). -/
def Sys2Proof.Rules.FrameWords : Prop :=
  ∀ (s : State) (g : Grp) (depth : Fin 8) (idx : Option (Fin 32)) (slot : BitVec 8),
    (∀ (n : Fin 32) (v : Fibre → Word), Issues s g {} →
      (∀ l ∈ (g.after s false).active, readSlot s g.cell l depth.val (fldSlot l idx slot) = .ok (v l)) →
      Ends (.fld (.w n) depth idx slot) s g ((g.after s false).active.foldl (fun u l =>
        touchEach u (g.cell.who l.sup) .read (slotHomes s g.cell l depth.val (fldSlot l idx slot))) (lanesTo s g [] fun l =>
        { fib := { l.setReg n.val (v l) with readFrom := l.readFrom ++ slotWriters s g.cell l depth.val (fldSlot l idx slot) } })))
    ∧ (∀ (a : Name) (x : Fibre → DWord), Lanes s g {} (.w 0) [plainSrc a .b32] (fun l => [x l]) →
      (∀ l ∈ (g.after s false).active, checkSlot l depth.val (fldSlot l idx slot) = none
        ∧ s.acqPending ⟨g.cell.id, l.idx⟩ = false
        ∧ (slotStays s g.cell l depth.val = true ∨ s.recordFull ⟨g.cell.id, l.idx⟩ = false)) →
      Ends (.fst a depth idx slot) s g (lanesTo s g [a] fun l =>
        { fib := l.popAll [a], slot := some (depth.val, fldSlot l idx slot, loWord (x l)) }))

/-- R48, R52, R53, R55, R190: a slot of a frame in scratch is its four bytes at the frame's base plus four times its number, once no
access of the lane's own to them waits; a lane with no frame at the depth, and a slot past its size, trap with FRAME_FAULT
details 1 and 4. A write by name to a frame elsewhere, or to scratch behind a store of the lane's own to those bytes or that frame,
is one plain store, refused where it overlaps a refused one (R266); another to scratch is done in place. That such a write takes its
turn behind an own store still queued, or an own GATHER that may still read those bytes, is the model's reading (log entry 16). -/
def Sys2Proof.Rules.ScratchSlots : Prop :=
  ∀ (s : State) (c : Cell) (f : Fibre) (depth slot : Nat),
    (f.desc depth = none → readSlot s c f depth slot = .trap { cause := .frameFault, detail := 1 }
      ∧ checkSlot f depth slot = some { cause := .frameFault, detail := 1 })
    ∧ ∀ d, f.desc depth = some d →
      (d.size < slot → readSlot s c f depth slot = .trap { cause := .frameFault, detail := 4 }
        ∧ checkSlot f depth slot = some { cause := .frameFault, detail := 4 })
      ∧ (slot ≤ d.size → checkSlot f depth slot = none)
      ∧ let r : FRef := ⟨c.id, f.idx⟩
        let a := d.base + 4 * slot
        let waits (q : Acc) : Prop := q.of r = true ∧ q.kind.isStore = true ∧ q.stage = .queued ∧ q.va < a + 4 ∧ a < q.va + q.len
        let behind : Prop := (∃ q ∈ s.accs, waits q ∨ q.of r = true ∧ q.stage = .queued ∧ q.kind = .slotWrite (sget 0 f.refs depth))
          ∨ ∃ o ∈ s.ops, o.owner = r ∧ o.mayRead a 4 = true
        (slot ≤ d.size → d.plc = 0 → s.acqPending r = false → s.ownBefore r a 4 = false → s.seenBlocks r false a 4 = false →
          (∀ q ∈ s.accs, ¬ waits q) →
          readSlot s c f depth slot = .ok (BitVec.ofNat 32 (natOfBytes (bytesAt c.scratch (a - scratchBase) 4))))
        ∧ (d.plc = 0 → ¬ behind → ∀ v, postSlot s c f depth slot v =
          (settleScratch s c r (a - scratchBase) 4).setCell c.id fun c => { c with scratch := putBytes c.scratch (a - scratchBase) (bytesOfNat 4 v.toNat) })
        ∧ (d.plc = 0 ∧ behind ∨ d.plc ≠ 0 ∧ depth ≠ 1 → ∀ v, (postSlot s c f depth slot v).accs = s.accs ++
          [{ mkAcc s c f (.slotWrite (sget 0 f.refs depth)) a 4 (bytesOfNat 4 v.toNat) .plain with
            relDone := true
            stage := match (s.refusedStores r).find? fun q => decide (q.va < a + 4) && decide (a < q.va + q.len) with
              | some q => q.stage
              | none => .queued }])

/-- R53, R205, R266: a slot of a frame in a vault or in global memory, where its cell holds nothing back and no read before it is pending: the
bytes of the fibre's own refused store that covers it; else its own latest write by name that is still pending; else the newest store
of its cluster's pending store set; else the four bytes at the home, whose refusal the reading unit raises (DETAIL 1). That a write
whose word has made its ARRIVE answers no more is the model's reading (log entry 16). -/
def Sys2Proof.Rules.MemorySlots : Prop :=
  ∀ (s : State) (c : Cell) (f : Fibre) (d : Desc) (depth slot : Nat), f.desc depth = some d → slot ≤ d.size → d.plc ≠ 0 →
    let r : FRef := ⟨c.id, f.idx⟩
    let a := d.base + 4 * slot
    let meets (q : Acc) : Prop := q.kind ≠ .load ∧ q.part = c.part ∧ (q.fn = c.fn ∨ vaultBase ≤ a) ∧ q.pendsIn a 4 = true
    let mine (q : Acc) : Prop := q.of r = true ∧ meets q ∧ (q.stage = .queued ∨ q.inFlight = true)
    let near (q : Acc) : Prop := meets q ∧ q.kind.isStore = true ∧ q.cluster = c.cluster ∧ q.inFlight = true
      ∧ (q.owner.cell = c.id ∨ tentative s q = false)
    c.held = [] → s.acqPending r = false → s.ownBefore r a 4 = false → s.seenBlocks r false a 4 = false →
    (∀ q ∈ s.refusedStores r, q.id < s.next → q.kind.isStore = true → q.va ≤ a → a + 4 ≤ q.va + q.len →
      (∀ b ∈ s.refusedStores r, b = q ∨ b.id < q.id) → readSlot s c f depth slot = .ok (BitVec.ofNat 32 (natOfBytes (q.bytesFrom a 4))))
    ∧ (s.refusedStores r = [] →
      (∀ q x, q ∈ s.accs → mine q → q.kind = .slotWrite x → q.pendsAll a 4 = true → (∀ b ∈ s.accs, mine b → b = q ∨ b.id < q.id) →
        readSlot s c f depth slot = .ok (BitVec.ofNat 32 (natOfBytes (q.bytesFrom a 4))))
      ∧ ((∀ q ∈ s.accs, ¬ mine q) →
        (∀ l q m, s.accs = l ++ q :: m → near q → (∀ b ∈ m, ¬ near b) → q.pendsAll a 4 = true →
          readSlot s c f depth slot = .ok (BitVec.ofNat 32 (natOfBytes (q.bytesFrom a 4))))
        ∧ ((∀ q ∈ s.accs, ¬ near q) → heldBack s [] c.part c.fn a 4 = false → c.drafts = [] →
          (∀ bs, homeRead s (c.who f.sup) a .read 4 = .ok bs → readSlot s c f depth slot = .ok (BitVec.ofNat 32 (natOfBytes bs)))
          ∧ ∀ x e, homeRead s (c.who f.sup) a .read 4 = .error (x, e) → readSlot s c f depth slot = .trap { cause := e, detail := 1, faddr := x })))

/-- R314, R181: CLK reads its island's cycle count, one value for every lane; SSTOP empties and stops the stream. -/
def Sys2Proof.Rules.ClockAndStreamStop : Prop :=
  ∀ (s : State) (g : Grp), Issues s g {} →
    (∀ n : Fin 32, Ends (.clk (.w n)) s g (lanesTo s g [] fun l =>
      { fib := l.setReg64 n.val (BitVec.ofNat 64 (s.cycles (islandOf g.cell.cluster))) }))
    ∧ ∀ q : Fin 4, Ends (.sstop q) s g (lanesTo s g [] fun l => { fib := l.setStream q.val {} })

/-! ### Memory words -/

namespace Sys2Proof.Rules

/-- The lanes of a load or store with their addresses; the rank of a lane counts the active lanes below it (R338). -/
def addresses (g : Grp) (imm : BitVec 8) (w : Nat) (ranked : Bool) (xs : List (Fibre × List DWord)) : List (Fibre × Nat) :=
  xs.map fun y => (y.1, memAddr (y.2.getD 0 0) imm g.imm w (if ranked then (xs.map (·.1.idx)).idxOf y.1.idx else 0))

end Sys2Proof.Rules

/-- R337, R338: LD and LDX act in each active lane at its address. -/
def Sys2Proof.Rules.LoadsComplete : Prop :=
  ∀ (s : State) (g : Grp) (ord : Scope) (d base : Name) (imm : BitVec 8) (x : Fibre → DWord),
    let go (i : Instr) (w : Nat) (ranked : Bool) : Prop :=
      let g' := g.read s true [base]
      let as := addresses g' imm w ranked (readVals s g true [base] fun l => [x l])
      Words s g { imm := !ranked, cache := true } true [plainSrc base .b64] (fun l => [x l]) →
      txWaits (readTo s g true [base]) g' as w = false →
      RunsOn i s g (readTo s g true [base]) (as.map fun y => (y.1, [BitVec.ofNat 64 y.2])) fun s f vs =>
        loadLane w ord (nameWin d) g' (vs.getD 0 0).toNat s f
    (∀ w : Width, go (.ld w ord d base imm) (widthBytes w) false)
    ∧ ∀ w : Wd, go (.ldx w ord d base imm) w.bytes true

/-- R366, R338: ST and STC act in each active lane at its address, with the data of the width. -/
def Sys2Proof.Rules.StoresComplete : Prop :=
  ∀ (s : State) (g : Grp) (ord : Scope) (d base : Name) (imm : BitVec 8) (vals : Fibre → List DWord),
    let go (i : Instr) (w : Nat) (ranked : Bool) : Prop :=
      let data : List Field := if w = 16 then (List.range 4).map fun i => plainSrc (.w (Fin.ofNat 32 (nameWin d + i))) .b32
        else [plainSrc d (if w = 8 then .b64 else .b32)]
      let names := base :: data.map (·.1.name)
      let g' := g.read s false names
      let xs := readVals s g false names vals
      Words s g { imm := !ranked, cache := true } false (plainSrc base .b64 :: data) vals →
      (∀ y ∈ addresses g' imm w ranked xs, s.acqPending ⟨g.cell.id, y.1.idx⟩ = false ∨ y.2 < scratchBase) →
      RunsOn i s g (readTo s g false names) xs fun s f vs =>
        storeLane w ord ranked g' (memAddr (vs.getD 0 0) imm g'.imm w (if ranked then (xs.map (·.1.idx)).idxOf f.idx else 0)) (storeData w vs) s f
    (∀ w : Width, go (.st w ord d base imm) (widthBytes w) false)
    ∧ ∀ w : Wd, go (.stc w ord d base imm) w.bytes true

/-- R207 to R211, R365, R367: ATOM, CAS, RED, SGNL and STI send one request for each active lane. -/
def Sys2Proof.Rules.AtomicsComplete : Prop :=
  ∀ (s : State) (g : Grp) (op : AtomOp) (w : Wd) (cmb : Bool) (ord : Scope) (d addr v : Name) (x y z : Fibre → DWord),
    (NoTx s g true → Words s g { cache := true } true [plainSrc addr .b64, plainSrc v op.wd] (fun l => [x l, y l]) →
      Runs (.atom op cmb ord d addr v) s g true [plainSrc addr .b64, plainSrc v op.wd] (fun l => [x l, y l]) fun g s f vs =>
        atomLane (.atom op) op.wd.bytes cmb ord (some (nameWin d)) g (vs.getD 0 0).toNat (bytesOfNat op.wd.bytes (vs.getD 1 0).toNat) s f)
    ∧ (NoTx s g true → Words s g { cache := true } true [plainSrc addr .b64, plainSrc v w, plainSrc d w] (fun l => [x l, y l, z l]) →
      Runs (.cas w ord d addr v) s g true [plainSrc addr .b64, plainSrc v w, plainSrc d w] (fun l => [x l, y l, z l]) fun g s f vs =>
        atomLane (.cas (vs.getD 2 0).toNat) w.bytes false ord (some (nameWin d)) g (vs.getD 0 0).toNat (bytesOfNat w.bytes (vs.getD 1 0).toNat) s f)
    ∧ (NoTx s g false → Words s g { cache := true } false [plainSrc addr .b64, plainSrc v op.wd] (fun l => [x l, y l]) →
      Runs (.red op cmb ord addr v) s g false [plainSrc addr .b64, plainSrc v op.wd] (fun l => [x l, y l]) fun g s f vs =>
        atomLane (.red op) op.wd.bytes cmb ord none g (vs.getD 0 0).toNat (bytesOfNat op.wd.bytes (vs.getD 1 0).toNat) s f)
    ∧ (NoTx s g false → Words s g {} false [plainSrc addr .b64, plainSrc v .b64] (fun l => [x l, y l]) →
      Runs (.sgnl addr v) s g false [plainSrc addr .b64, plainSrc v .b64] (fun l => [x l, y l]) fun g s f vs =>
        atomLane .sgnl 8 false .dev none g (vs.getD 0 0).toNat (bytesOfNat 8 (vs.getD 1 0).toNat) s f)
    ∧ (NoTx s g false → Words s g {} false [plainSrc addr .b64, plainSrc v .b32] (fun l => [x l, y l]) →
      Runs (.sti v addr) s g false [plainSrc addr .b64, plainSrc v .b32] (fun l => [x l, y l]) fun g s f vs =>
        stiLane g (vs.getD 0 0).toNat (loWord (vs.getD 1 0)) s f)

/-- R196, R265: FENCE holds each active lane, with what its fence covers, and ends the cell's pins at cohort scope or wider;
a lane with a refused request parks there instead. -/
def Sys2Proof.Rules.FenceHolds : Prop :=
  ∀ (s : State) (g : Grp) (eng mx : Bool) (sc : Scope), Issues s g {} → NoTx s g false →
    (∀ l ∈ (g.after s false).active, ∀ a ∈ s.accs, a.of ⟨g.cell.id, l.idx⟩ = true → ∀ c, a.stage ≠ .refused c) →
    (∀ l ∈ (g.after s false).active, ∀ o ∈ s.ops, o.fibres.any (·.1 == ⟨g.cell.id, l.idx⟩) = true → o.refused = none) →
    Ends (.fence eng mx sc) s g (eachLane (readTo s g false []) g.cell.id (readVals s g false [] fun _ => []) fun s l _ =>
      let s := if wide sc then endPins s (·.cell == g.cell.id) else s
      s.setFibre ⟨g.cell.id, l.idx⟩ fun f =>
        { f with status := .fence eng mx sc (s.coverage ⟨g.cell.id, l.idx⟩), since := s.now, waitAt := g.first })

/-- R367, R74, R265: STI in one lane: the checks that trap, a refused request that parks it, and else one store of 4 bytes with
release at device scope, which ends the cell's pins (R199). -/
def Sys2Proof.Rules.StiLanes : Prop :=
  ∀ (s : State) (g : Grp) (c : Cell) (f : Fibre) (a : Nat) (v : Word), s.cell? g.cell.id = some c →
    let r : FRef := ⟨c.id, f.idx⟩
    (∀ t, checkAddr s c a 4 2 true = some t → stiLane g a v s f = (s, some t))
    ∧ (checkAddr s c a 4 2 true = none →
      (inDraft c a = true → stiLane g a v s f = (s, some { cause := .illegalAddress, detail := 2, faddr := a }))
      ∧ (inDraft c a = false → (∀ t, parkDue s r .stores = some t → stiLane g a v s f = (s, some t))
        ∧ (parkDue s r .stores = none → s.refusedStores r = [] →
          let u := endPins s (·.cell == c.id)
          stiLane g a v s f = (u.post { mkAcc u c f .sti a 4 (bytesOfNat 4 v.toNat) .dev with relDone := false, covers := u.coverage r }, none))))

/-- R265, R266, R280: a lane with a refused store parks at FENCE, with the cause of its earliest and the address of that store. -/
def Sys2Proof.Rules.FenceParks : Prop :=
  ∀ (s : State) (g : Grp) (eng mx : Bool) (sc : Scope) (l : Fibre) (a : Acc) (c : Cause), Issues s g {} → NoTx s g false →
    (g.after s false).active = [l] → a ∈ s.accs → a.of ⟨g.cell.id, l.idx⟩ = true → a.kind = .store → a.stage = .refused c →
    s.kept ⟨g.cell.id, l.idx⟩ = [] → (∀ o ∈ s.ops, o.refused = none) →
    (∀ b ∈ s.accs, b.of ⟨g.cell.id, l.idx⟩ = true → b.kind.posted = true → b.refused = true → a.id < b.id ∨ b = a) →
    Ends (.fence eng mx sc) s g (takeTraps (passed s g false) g.cell.id g.hatch
      [⟨l.idx, { cause := c, detail := if c = .uncorrectable then 1 else 2, faddr := a.va }, g.first⟩])

namespace Sys2Proof.Rules

/-- A fibre of a cell reads these n bytes at a: its scratch's, or those at their homes, where no write of its own or its cell's is
tentative, held or refused. -/
def BytesRead (s : State) (c : Cell) (f : Fibre) (a n : Nat) (bs : List Byte) : Prop :=
  s.refusedStores ⟨c.id, f.idx⟩ = []
  ∧ ((∃ o, o < 0xA0000 ∧ a = scratchBase + o ∧ o + n ≤ c.scratchSize ∧ bs = bytesAt c.scratch o n)
    ∨ a < scratchBase ∧ homeRead s (c.who f.sup) a .read n = .ok bs ∧ c.drafts = [] ∧ c.held = [])
/-- n bits of a header, from bit lo. -/
def field (bs : List Byte) (lo n : Nat) : Nat := natOfBytes bs / 2 ^ lo % 2 ^ n
/-- R174, R176: a list header within its limits, for a count. -/
def ListOk (bs : List Byte) (count : Nat) : Prop :=
  let base := field bs 0 64
  let esz := field bs 96 8
  field bs 120 136 = 0 ∧ 2 ≤ esz ∧ esz ≤ 6 ∧ base < vaultBase ∧ base % 2 ^ esz = 0
  ∧ (field bs 104 8 = 0 ∧ field bs 112 8 = 0 ∨ field bs 104 8 = 1 ∧ 1 ≤ field bs 112 8 ∧ field bs 112 8 ≤ 32 ∧ count ≠ 0)
/-- R175: the list at hdr that a lane reads has this header, n entries, and head bytes before the first: a dense one count entries, a
stipple one H times the sum of its widths. -/
def ListIs (s : State) (c : Cell) (f : Fibre) (hdr count : Nat) (bs : List Byte) (n head : Nat) : Prop :=
  let h := field bs 112 8
  BytesRead s c f hdr 32 bs
  ∧ (field bs 104 8 = 0 ∧ n = count ∧ head = 32
    ∨ field bs 104 8 = 1 ∧ ∃ ws : List Nat, ws.length = (count + h - 1) / h ∧ n = h * ws.foldl (· + ·) 0 ∧ head = 32 + 4 * ws.length
      ∧ ∀ i w, ws[i]? = some w → w < 2 ^ 32 ∧ BytesRead s c f (hdr + 32 + 4 * i) 4 (bytesOfNat 4 w))
/-- R176: the list passes every check at scratch offset off. -/
def ListPasses (s : State) (c : Cell) (f : Fibre) (off hdr count d : Nat) : Prop :=
  checkAddr s c hdr 32 d false = none
  ∧ ∃ bs n head, ListIs s c f hdr count bs n head ∧ ListOk bs count ∧ n ≤ 4096 ∧ off % 2 ^ field bs 96 8 = 0
    ∧ off + n * 2 ^ field bs 96 8 ≤ c.scratchSize
/-- R180: a stream descriptor at a passes its checks. -/
def StreamPasses (s : State) (c : Cell) (f : Fibre) (a : Nat) : Prop :=
  a % 32 = 0 ∧ ∃ bs, BytesRead s c f a 32 bs ∧ field bs 137 55 = 0 ∧ field bs 128 8 ≤ 2
/-- Lanes whose addresses lie in vaults and scratch, or one lane alone: what one lane reads there the lanes before it do not change. -/
def Apart (xs : List (Fibre × List DWord)) (addr : List DWord → Nat) : Prop := (∀ x ∈ xs, vaultBase ≤ addr x.2) ∨ xs.length = 1

end Sys2Proof.Rules

/-- R174 to R176, R155, R265: GATHER and SCATTER in one lane: the checks, in their order, that trap; the read of the list that is
refused at translation, which the lane then owes; else the operation that becomes pending, with the list it read. -/
def Sys2Proof.Rules.ListLanes : Prop :=
  ∀ (s : State) (g : Grp) (f : Fibre) (off hdr count : Nat) (isGather : Bool),
    let d := if isGather then 1 else 2
    let go := listLane isGather g off hdr count s f
    let fails (k : Cause) (a : Nat) : Prop := go = (s, some { cause := k, detail := d, faddr := a })
    let pends (u : State) (t : Option Trap) (l : Option ListInfo) : Prop :=
      go = ((pendAll u g.cell.id [f] (if isGather then .gather off hdr count l else .scatter off hdr count l)).setOp u.next fun o =>
        { o with refused := t, cls := g.cls, nt := g.nt }, none)
    (∀ t, checkAddr s g.cell hdr 32 d false = some t → go = (s, some t))
    ∧ (checkAddr s g.cell hdr 32 d false = none →
      (∀ x e, hdr < scratchBase → homeRead s (g.cell.who f.sup) hdr .read 32 = .error (x, e) →
        pends s (some { cause := e, detail := 1, faddr := x }) none)
      ∧ (∀ bs, BytesRead s g.cell f hdr 32 bs → ¬ ListOk bs count → fails .illegalAddress hdr)
      ∧ ∀ bs n head, ListIs s g.cell f hdr count bs n head → ListOk bs count →
        let size := 2 ^ field bs 96 8
        (4096 < n → fails .illegalAddress hdr)
        ∧ (n ≤ 4096 →
          (off % size ≠ 0 → fails .misaligned off)
          ∧ (off % size = 0 → g.cell.scratchSize < off + n * size → fails .illegalAddress off)
          ∧ (off % size = 0 → off + n * size ≤ g.cell.scratchSize →
            pends (touchHomes s (g.cell.who f.sup) g.cls g.nt .read hdr head) none (some
              ⟨field bs 0 64, field bs 64 32, field bs 96 8, (List.range n).map fun k => hdr + head + 4 * k, head⟩))))

/-- R180, R363: SDEF in one lane: the checks that trap, and the stream record that the descriptor gives, which restarts. -/
def Sys2Proof.Rules.StreamLanes : Prop :=
  ∀ (s : State) (g : Grp) (f : Fibre) (n flag a : Nat),
    let go := sdefLane n flag g a s f
    let fails (k : Cause) (x : Nat) : Prop := go = (s, some { cause := k, detail := 1, faddr := x })
    (window a = none → fails .illegalAddress a)
    ∧ (window a ≠ none → a % 32 ≠ 0 → fails .misaligned a)
    ∧ (∀ o, o < 0xA0000 → a = scratchBase + o → a % 32 = 0 → g.cell.scratchSize < o + 32 → fails .illegalAddress a)
    ∧ (∀ x e, window a ≠ none → a < scratchBase → a % 32 = 0 → homeRead s (g.cell.who f.sup) a .read 32 = .error (x, e) → fails e x)
    ∧ ∀ bs, BytesRead s g.cell f a 32 bs → a % 32 = 0 →
      (field bs 137 55 ≠ 0 ∨ 2 < field bs 128 8 → fails .illegalAddress a)
      ∧ (field bs 137 55 = 0 → field bs 128 8 ≤ 2 →
        go = ((touchHomes s (g.cell.who f.sup) none false .read a 32).setFibre ⟨g.cell.id, f.idx⟩ fun f => f.setStream n
          { active := true, flag := flag, base := BitVec.ofNat 64 (field bs 0 64), stride := BitVec.ofNat 32 (field bs 64 32)
            count := field bs 96 32, idx := BitVec.ofNat 64 (field bs 192 64), esz := field bs 128 8, sx := decide (field bs 136 1 = 1)
            late := f.handler.isSome }, none))

/-- R174 to R176, R180: GATHER, SCATTER and SDEF act in each active lane once no acquire and no store of its own to what they
read is pending, and no pin and no frame release holds the list or the descriptor back. Where every lane's list or descriptor passes
its checks they complete, each lane with its operation or its record (ListLanes, StreamLanes). Log entries 18 and 31: the reading
taken. -/
def Sys2Proof.Rules.ListWords : Prop :=
  ∀ (s : State) (g : Grp) (off addr c : Name) (x y z : Fibre → DWord),
    (let srcs : List Field := [plainSrc off .b32, plainSrc addr .b64, plainSrc c .b32];
      NoTx s g true → Words s g { cache := true } true srcs (fun l => [x l, y l, z l]) →
      (∀ l ∈ (g.after s true).active, s.acqPending ⟨g.cell.id, l.idx⟩ = false
        ∧ s.ownPosted ⟨g.cell.id, l.idx⟩ (y l).toNat (32 + 4 * (loWord (z l)).toNat) = false
        ∧ heldBack (readTo s g true (srcs.map (·.1.name))) [] g.cell.part g.cell.fn (y l).toNat (32 + 4 * (loWord (z l)).toNat) = false) →
      let lane (isGather : Bool) (g : Grp) (s : State) (f : Fibre) (vs : List DWord) : State × Option Trap :=
        listLane isGather g (loWord (vs.getD 0 0)).toNat (vs.getD 1 0).toNat (loWord (vs.getD 2 0)).toNat s f
      Runs (.gather off addr c) s g true srcs (fun l => [x l, y l, z l]) (lane true)
      ∧ Runs (.scatter off addr c) s g true srcs (fun l => [x l, y l, z l]) (lane false)
      ∧ let names := srcs.map (·.1.name)
        let r := readTo s g true names
        let g' := g.read s true names
        let xs := readVals s g true names fun l => [x l, y l, z l]
        let passes (d : Nat) : Prop := Apart xs (fun vs => (vs.getD 1 0).toNat) ∧ ∀ v ∈ xs,
          ListPasses r g'.cell ((r.fibre? ⟨g.cell.id, v.1.idx⟩).getD v.1) (loWord (v.2.getD 0 0)).toNat (v.2.getD 1 0).toNat (loWord (v.2.getD 2 0)).toNat d
        let ends (isGather : Bool) : Host.Outcome State Fault Refusal :=
          .next (closeUnit (sameIssue s.next (eachLane r g.cell.id xs fun s f vs => (lane isGather g' s f vs).1)) (g.after s true))
        (passes 1 → exec (.gather off addr c) s = ends true) ∧ (passes 2 → exec (.scatter off addr c) s = ends false))
    ∧ ∀ (n : Fin 4) (flag : Fin 12), NoTx s g false → Words s g {} false [plainSrc addr .b64] (fun l => [y l]) →
      (∀ l ∈ (g.after s false).active, s.acqPending ⟨g.cell.id, l.idx⟩ = false
        ∧ s.ownPosted ⟨g.cell.id, l.idx⟩ (y l).toNat 32 = false
        ∧ heldBack (readTo s g false [addr]) [] g.cell.part g.cell.fn (y l).toNat 32 = false) →
      Runs (.sdef n addr flag) s g false [plainSrc addr .b64] (fun l => [y l]) (fun g s f vs =>
        sdefLane n.val flag.val g (vs.getD 0 0).toNat s f)
      ∧ let r := readTo s g false [addr]
        let g' := g.read s false [addr]
        let xs := readVals s g false [addr] fun l => [y l]
        (Apart xs (fun vs => (vs.getD 0 0).toNat) →
          (∀ v ∈ xs, StreamPasses r g'.cell ((r.fibre? ⟨g.cell.id, v.1.idx⟩).getD v.1) (v.2.getD 0 0).toNat) →
          Completes (.sdef n addr flag) s g (eachLane r g.cell.id xs fun s f vs => (sdefLane n.val flag.val g' (vs.getD 0 0).toNat s f).1))

/-- R155: the checks on an address, in their order: its window, its alignment, the partition of a vault, the size of the
scratch. -/
def Sys2Proof.Rules.AddressChecks : Prop :=
  ∀ (s : State) (c : Cell) (a w detail : Nat) (noScratch : Bool),
    let fails (k : Cause) : Prop := checkAddr s c a w detail noScratch = some { cause := k, detail := detail, faddr := a }
    (2 ^ 57 ≤ a → fails .illegalAddress)
    ∧ (vaultBase + 192 * vaultSize ≤ a → a < scratchBase → fails .illegalAddress)
    ∧ (scratchBase + 0xA0000 ≤ a → fails .illegalAddress)
    ∧ (window a ≠ none → a % w ≠ 0 → fails .misaligned)
    ∧ (∀ v, v < 192 → ∀ o, o < vaultSize → a = vaultBase + v * vaultSize + o → a % w = 0 →
        if s.hasVault c.part v then checkAddr s c a w detail noScratch = none else fails .protectionFault)
    ∧ (∀ o, o < 0xA0000 → a = scratchBase + o → a % w = 0 →
        if noScratch = true ∨ c.scratchSize < o + w then fails .illegalAddress else checkAddr s c a w detail noScratch = none)
    ∧ (a < vaultBase → a % w = 0 → checkAddr s c a w detail noScratch = none)

/-- R337: a memory word's address: the base plus the scaled offset, which is the sign-extended literal or, with HINT.IMM,
the 30-bit value that HIGH and it make; R338: plus the scaled rank; modulo 2^64. -/
def Sys2Proof.Rules.MemoryAddress : Prop :=
  ∀ (base : DWord) (imm : BitVec 8) (w k : Nat), k < 32 → w ≤ 16 →
    (memAddr base imm none w k : Int) = ((base.toNat : Int) + imm.toInt * w + w * k) % 2 ^ 64
    ∧ ∀ h : BitVec 22, (memAddr base imm (some h) w k : Int) = ((base.toNat : Int) + (imm.toNat + 256 * h.toInt) * w + w * k) % 2 ^ 64

/-- R189, R190, R337, R366, R207, R221: what one lane of a load, a store and an atomic does where its address passes the checks and
no transaction holds it: it issues one access with its fields, and a scratch store is done in place; a failed check traps. That a
scratch store waits behind a store of a lane of its instruction to those bytes that is still queued is the model's reading (log
entry 20). -/
def Sys2Proof.Rules.LaneAccesses : Prop :=
  ∀ (s : State) (g : Grp) (c : Cell) (f : Fibre) (a w dst : Nat) (ord : Scope) (data : List Byte),
    s.cell? g.cell.id = some c →
    let r : FRef := ⟨c.id, f.idx⟩
    (∀ t, checkAddr s c a w 1 false = some t → loadLane w ord dst g a s f = (s, some t))
    ∧ (checkAddr s c a w 1 false = none → f.tx = none →
      loadLane w ord dst g a s f = ((s.setFibre r (·.countFlag)).post { mkAcc s c f .load a w [] ord with
        flag := f.llFlag, counted := f.llFlag.isSome, dst := (List.range ((w + 3) / 4)).map (fun i => f.base + dst + i),
        cls := g.cls, nt := g.nt }, none))
    ∧ (∀ ranked t, checkAddr s c a w 2 false = some t → storeLane w ord ranked g a data s f = (s, some t))
    ∧ let behind : Prop := ∃ q ∈ s.accs, q.kind.isStore = true ∧ q.stage = .queued ∧ q.va < a + w ∧ a < q.va + q.len ∧ ∃ m ∈ g.members, q.of ⟨c.id, m.idx⟩ = true
      (∀ ranked, checkAddr s c a w 2 false = none → scratchBase ≤ a → ord = .plain → ¬ behind →
      ∃ t, storeLane w ord ranked g a data s f = (t, none) ∧ t.mem = s.mem ∧ ∀ c', t.cell? c.id = some c' → c'.scratch = putBytes c.scratch (a - scratchBase) data)
    ∧ (checkAddr s c a w 2 false = none → a < scratchBase ∨ ord ≠ .plain ∨ behind → f.tx = none → s.refusedStores r = [] →
      (ord = .plain ∨ parkDue s r .stores = none) → data.length = w →
      let s' := if wide ord then endPins s (·.cell == c.id) else s
      let u := s'.post { mkAcc s' c f .store a w data ord with
        cls := g.cls, nt := g.nt, relDone := ord == .plain, covers := if ord == .plain then [] else s'.coverage r }
      storeLane w ord false g a data s f = (u, none)
      ∧ storeLane w ord true g a data s f = (u.setAcc s'.next fun q => { q with ranked := true }, none))
    ∧ (∀ k t, checkAddr s c a w 3 true = some t → atomLane k w false ord (some dst) g a data s f = (s, some t))
    ∧ (∀ k cmb, checkAddr s c a w 3 true = none → inDraft c a = false → (ord = .plain ∨ parkDue s r .stores = none) →
      let s' := if wide ord then endPins s (·.cell == c.id) else s
      atomLane k w cmb ord (some dst) g a data s f = ((s'.setFibre r (·.countFlag)).post { mkAcc s' c f k a w data ord with
        comb := cmb, flag := f.llFlag, counted := f.llFlag.isSome, dst := (List.range (w / 4)).map (fun i => f.base + dst + i),
        cls := g.cls, nt := g.nt, relDone := ord == .plain, covers := if ord == .plain then [] else s'.coverage r }, none))

/-! ### Clauses, hints and control transfers -/

namespace Sys2Proof.Rules

/-- A control transfer over the members of a group: next gives an active lane's new fibre; every other lane continues at
the next word, where a clause begins (R115). -/
def goTo (s : State) (g : Grp) (next : Fibre → Option Fibre) : State :=
  g.members.foldl (fun s m =>
    match (if m.place.active then next m else none) with
    | some f => s.setFibre ⟨g.cell.id, m.idx⟩ fun _ => f
    | none => s.setFibre ⟨g.cell.id, m.idx⟩ fun f => { f with pc := g.at_ + 4, place := {} }) s
/-- R130: the address of the branch word plus four times the signed offset. -/
def target (at_ : DWord) (off : BitVec 22) : DWord := BitVec.ofInt 64 (at_.toNat + 4 * off.toInt)
def standAt (f : Fibre) (pc : DWord) : Fibre := { f with pc := pc, place := {} }
/-- Every member of the group changed by f. -/
def members (s : State) (g : Grp) (f : Fibre → Fibre) : State :=
  s.mapFibres g.cell.id fun x => if g.members.any (·.idx == x.idx) then f x else x

end Sys2Proof.Rules

/-- R130, R115, R336, R359, R313: BRA, JMP, RET and CALL transfer the active lanes that they name; the rest continue at the
next word. CALL opens the next window and keeps the return address, RET goes back to it. A JMP to an address that is no multiple of 4
raises MISALIGNED in its lane, which goes nowhere. -/
def Sys2Proof.Rules.ControlTransfers : Prop :=
  ∀ (s : State) (g : Grp) (c : Cond) (off : BitVec 22), Issues s g {} →
    let here := passed s g false
    let g' := g.after s false
    Ends (.bra c off) s g (goTo here g' fun m => if condHolds c m then some (standAt m (target g.at_ off)) else none)
    ∧ ((∀ m ∈ g'.active, condHolds c m = true → m.base ≠ 96) →
      Ends (.call c off) s g (goTo here g' fun m => if condHolds c m then
        some (standAt (callWindow (s.free + 24 * m.lane) { m with rets := sput 0 m.rets (m.base + 24) (g.at_ + 4), base := m.base + 24 })
          (target g.at_ off)) else none))
    ∧ ((∀ m ∈ g'.active, m.base ≠ 0 ∧ ∀ h, m.handler = some h → m.base ≠ h.trapBase) →
      Ends .ret s g (goTo here g' fun m => some (standAt { m with base := m.base - 24 } (sget 0 m.rets m.base))))
    ∧ ∀ (a : Name) (x : Fibre → DWord), Reads s g false [plainSrc a .b64] (fun l => [x l]) →
      (∀ m ∈ g'.active, (x m).toNat % 4 = 0) →
      Ends (.jmp a) s g (goTo (readTo s g false [a]) (g.read s false [a]) fun m =>
        ((readVals s g false [a] fun l => [x l]).find? (·.1.idx == m.idx)).map fun y => standAt m (y.2.getD 0 0))
    ∧ ∀ (a : Name) (x : Fibre → DWord), Reads s g false [plainSrc a .b64] (fun l => [x l]) →
      let r := g.read s false [a]
      let goal (m : Fibre) : Option DWord := ((readVals s g false [a] fun l => [x l]).find? (·.1.idx == m.idx)).map (·.2.getD 0 0)
      let out (m : Fibre) : Bool := m.place.active && (goal m).any fun t => t.toNat % 4 != 0
      Ends (.jmp a) s g (trapped (goTo (readTo s g false [a]) { r with members := r.members.filter fun m => !out m }
        fun m => (goal m).map (standAt m)) g ((r.members.filter out).map fun m => (m, { cause := .misaligned })))

/-- R313, R359: where a CALL or RET traps, and what the callee's window holds: w0 to w7 are the caller's w24 to w31, and
each of w8 to w31 is zero or what the fibre last left there, freely. -/
def Sys2Proof.Rules.CallWindows : Prop :=
  ∀ (f : Fibre) (free : Nat) (at_ : DWord) (off : BitVec 22),
    (f.base = 96 → callOne free at_ off f = .error { cause := .windowSpill })
    ∧ (f.base ≠ 96 → ∃ t, callOne free at_ off f = .ok t ∧ t.base = f.base + 24 ∧ sget 0 t.rets (f.base + 24) = sget 0
        (sput 0 f.rets (f.base + 24) (at_ + 4)) (f.base + 24) ∧ t.pc = target at_ off
        ∧ (swf (0 : Word) f.stack = true → (∀ n, n < 8 → t.reg n = f.reg (24 + n)) ∧ (∀ n, n < 24 → f.reg n = sget 0 t.stack (f.base + n))
          ∧ ∀ n, 8 ≤ n → n < 32 → t.reg n = 0 ∨ t.reg n = f.reg (24 + n)))
    ∧ (f.base = 0 → retOne f = .error { cause := .windowFill, detail := if 0 < f.spilled then 0 else 1 })
    ∧ (∀ h, f.handler = some h → f.base = h.trapBase → retOne f = .error { cause := .windowFill, detail := if 0 < f.spilled then 0 else 1 })

/-- R117, R118, R121: CLAUSE begins its clause when its wait mask's flags are zero in every fibre, with the guard latched
at once; until then its fibres wait at it. After a hint it is illegal. -/
def Sys2Proof.Rules.ClauseStarts : Prop :=
  ∀ (s : State) (g : Grp) (mask : BitVec 12) (fa fb : Option (Fin 12)) (guard : Cond), s.grp? = some g →
    let p : Place := { fa := fa, fb := fb, guard := guard }
    (g.hints ≠ [] → exec (.clause mask fa fb guard) s = .next (trapGroup s g { cause := .illegalClause }))
    ∧ (g.hints = [] → (∀ m ∈ g.members, parkDue s ⟨g.cell.id, m.idx⟩ (.clause mask) = none) →
      ((∀ m ∈ g.members, m.flagsClear mask = true) →
        Ends (.clause mask fa fb guard) s g (members s g fun f =>
          { f with pc := g.at_ + 4, place := { p with begun := true, active := condHolds guard f } }))
      ∧ ((∃ m ∈ g.members, m.flagsClear mask = false) →
        Ends (.clause mask fa fb guard) s g (members s g fun f =>
          { f with status := .waitFlags mask, since := s.now, waitAt := g.first, place := p })))

/-- R116, R118: a word whose clause has not begun starts an implicit one, once every flag of its fibres is zero, with every
fibre active: NOP then leaves its fibres there, past the word. -/
def Sys2Proof.Rules.ImplicitClause : Prop :=
  ∀ (s : State) (g : Grp), s.grp? = some g → g.hints = [] → (∀ m ∈ g.members, m.place.begun = false) →
    (∀ m ∈ g.members, parkDue s ⟨g.cell.id, m.idx⟩ (.clause 0xFFF) = none) →
    ((∀ m ∈ g.members, m.flagsClear 0xFFF = true) →
      Ends .nop s g (members s g fun f => { f with pc := g.at_ + 4, place := { begun := true } }))
    ∧ ((∃ m ∈ g.members, m.flagsClear 0xFFF = false) →
      Ends .nop s g (members s g fun f => { f with status := .waitFlags 0xFFF, since := s.now, waitAt := g.first, place := {} }))

/-- R116, R121, R124: a hint word is kept for the word that ends its unit, which is fetched next; a second one of its kind is
illegal. Between clauses the implicit clause begins with it, or its fibres wait for their flags there. -/
def Sys2Proof.Rules.HintWords : Prop :=
  ∀ (s : State) (g : Grp) (h : Instr) (same : Instr → Bool),
    ((∃ v, h = .hintImm v ∧ same = fun | .hintImm _ => true | _ => false)
      ∨ (∃ a b, h = .hintPerm a b ∧ same = fun | .hintPerm _ _ => true | _ => false)
      ∨ (∃ r c n, h = .hintMod r c n ∧ same = fun | .hintMod _ _ _ => true | _ => false)
      ∨ (∃ y, h = .hintSched y ∧ same = fun | .hintSched _ => true | _ => false)) →
    s.grp? = some g →
    let kept (u : State) : State := { u with cur := { s.cur with hints := s.cur.hints ++ [h], at_ := s.cur.at_ + 4 } }
    (g.members.all (·.place.begun) = true →
      (g.hints.any same = false → exec h s = .next (kept s))
      ∧ (g.hints.any same = true → exec h s = .next (trapGroup s g { cause := .illegalInstruction })))
    ∧ (g.hints = [] → (∀ m ∈ g.members, m.place.begun = false) →
      (∀ m ∈ g.members, parkDue s ⟨g.cell.id, m.idx⟩ (.clause 0xFFF) = none) →
      ((∀ m ∈ g.members, m.flagsClear 0xFFF = true) →
        exec h s = .next (kept (members s g fun f => { f with place := { begun := true } })))
      ∧ ((∃ m ∈ g.members, m.flagsClear 0xFFF = false) →
        Ends h s g (members s g fun f => { f with status := .waitFlags 0xFFF, since := s.now, waitAt := g.first, place := {} })))

/-- R119, R256: a third long-latency word in a clause raises ILLEGAL_CLAUSE; a privileged word in user mode PRIVILEGED; a
word that does not accept its hints ILLEGAL_INSTRUCTION (R131): in every fibre of the group, and with no other effect. -/
def Sys2Proof.Rules.GroupTraps : Prop :=
  ∀ (s : State) (g : Grp) (d a b : Name) (x : Src) (n : Fin 4096), s.grp? = some g → g.members.all (·.place.begun) = true →
    ((hintsFit {} g.hints = true → g.members.any (fun f => !f.sup) = true →
      exec .eret s = .next (trapGroup s g { cause := .privileged })
      ∧ exec (.mts a n) s = .next (trapGroup s g { cause := .privileged })
      ∧ exec (.spill a) s = .next (trapGroup s g { cause := .privileged })
      ∧ exec (.fill a) s = .next (trapGroup s g { cause := .privileged })
      ∧ (tenantReg n.val = false → exec (.mfs d n) s = .next (trapGroup s g { cause := .privileged })))
    ∧ (g.members.any (fun f => decide (2 ≤ f.place.ll)) = true →
      (hintsFit {} g.hints = true →
        exec (.qpost d a b) s = .next (trapGroup s g { cause := .illegalClause })
        ∧ exec (.ecmd d a b) s = .next (trapGroup s g { cause := .illegalClause })
        ∧ exec (.proof d a b) s = .next (trapGroup s g { cause := .illegalClause })
        ∧ exec (.tqpush d a b) s = .next (trapGroup s g { cause := .illegalClause })
        ∧ exec (.tqpop d a b) s = .next (trapGroup s g { cause := .illegalClause })
        ∧ (∀ slot tile, exec (.mma slot tile a b) s = .next (trapGroup s g { cause := .illegalClause })
          ∧ exec (.mmaHold slot tile a b) s = .next (trapGroup s g { cause := .illegalClause })
          ∧ exec (.mrd d tile a) s = .next (trapGroup s g { cause := .illegalClause })
          ∧ exec (.mst tile a b) s = .next (trapGroup s g { cause := .illegalClause })
          ∧ exec (.recv d slot) s = .next (trapGroup s g { cause := .illegalClause })))
      ∧ (hintsFit { cache := true } g.hints = true →
        exec (.gather d a b) s = .next (trapGroup s g { cause := .illegalClause })
        ∧ exec (.scatter d a b) s = .next (trapGroup s g { cause := .illegalClause })
        ∧ ∀ w o op cmb i, exec (.atom op cmb o d a b) s = .next (trapGroup s g { cause := .illegalClause })
          ∧ exec (.cas w o d a b) s = .next (trapGroup s g { cause := .illegalClause })
          ∧ exec (.ldx w o d a i) s = .next (trapGroup s g { cause := .illegalClause }))
      ∧ (hintsFit { perm := [x], vi := true } g.hints = true →
        exec (.frcp d x) s = .next (trapGroup s g { cause := .illegalClause })
        ∧ exec (.flog2 d x) s = .next (trapGroup s g { cause := .illegalClause })
        ∧ exec (.frsq d x) s = .next (trapGroup s g { cause := .illegalClause })
        ∧ exec (.fsqrt d x) s = .next (trapGroup s g { cause := .illegalClause })
        ∧ exec (.fexp2 d x) s = .next (trapGroup s g { cause := .illegalClause }))
      ∧ (∀ w o i, hintsFit { imm := true, cache := true } g.hints = true →
        exec (.ld w o d a i) s = .next (trapGroup s g { cause := .illegalClause })))
    ∧ (hintsFit {} g.hints = false →
      exec .nop s = .next (trapGroup s g { cause := .illegalInstruction })
      ∧ exec .quit s = .next (trapGroup s g { cause := .illegalInstruction })
      ∧ exec (.sgnl a b) s = .next (trapGroup s g { cause := .illegalInstruction })))

/-! ### Exceptions, modes, special registers -/

/-- R370, R263: TRAP's own effect is the exception of each active lane, with the address of the unit after it; BKPT's, with
its own. -/
def Sys2Proof.Rules.TrapWords : Prop :=
  ∀ (s : State) (g : Grp) (n : Fin 64), Issues s g {} → (g.after s false).active ≠ [] →
    Ends (.trap n) s g (takeTraps (passed s g false) g.cell.id g.hatch
      ((g.after s false).active.map fun l => ⟨l.idx, { cause := .trapCall, code := n.val }, g.at_ + 4⟩))
    ∧ Ends (.bkpt n) s g (takeTraps (passed s g false) g.cell.id g.hatch
      ((g.after s false).active.map fun l => ⟨l.idx, { cause := .breakpoint, code := n.val }, g.first⟩))

/-- R260, R258: one drained fibre enters its handler: its record is written, its window holds the cause and detail in w0 and
the record's address in x2 and zero elsewhere, its mode is supervisor, its flags are zero and it stands at TRAP.VEC; what it
left is kept for ERET. No other byte of memory and no other fibre changes. -/
def Sys2Proof.Rules.HandlerEntry : Prop :=
  ∀ (s : State) (c : Cell) (f : Fibre) (t : Trap) (p : Partition),
    s.part? c.part = some p → s.cell? c.id = some c → c.fibre? f.idx = some f → swf (0 : Word) f.stack = true →
    let a := recordAddr p c.cluster f.slot
    let u := enterOne s c f t
    u.mem = putBytes s.mem a (recordBytes s ⟨c.id, f.idx⟩ f t)
    ∧ (∀ i, i ≠ f.idx → u.fibre? ⟨c.id, i⟩ = s.fibre? ⟨c.id, i⟩) ∧ u.accs = s.accs ∧ u.ops = s.ops
    ∧ ∃ h, u.fibre? ⟨c.id, f.idx⟩ = some h
      ∧ h.pc = p.trapVec ∧ h.sup = true ∧ h.status = .ready ∧ h.flags = [] ∧ h.base = f.base ∧ h.preds = f.preds ∧ h.disp = f.disp
      ∧ h.reg 0 = BitVec.ofNat 32 (t.cause.code + 256 * t.detail) ∧ h.reg64 2 = BitVec.ofNat 64 a
      ∧ (∀ n, n < 32 → n ≠ 0 → n ≠ 2 → n ≠ 3 → h.reg n = 0)
      ∧ h.handler = some { record := a, trapBase := f.base, place := f.place, mode := f.sup, flags := f.flags
                           owed := s.own ⟨c.id, f.idx⟩ }

/-- R258: the 256 bytes of a trap record: the window, the address, the predicates, the mode, cause, detail, the literal and
the lane, the number of refused stores, the flags, four bits each, the fault address, MXROW, the spilled blocks, and zero above. -/
def Sys2Proof.Rules.TrapRecord : Prop :=
  ∀ (s : State) (r : FRef) (f : Fibre) (t : Trap),
    let b := recordBytes s r f t
    let word (off n : Nat) : Nat := natOfBytes ((b.drop off).take n)
    b.length = 256
    ∧ (∀ i, i < 32 → word (4 * i) 4 = (f.reg i).toNat)
    ∧ word 0x80 4 = (loWord f.pc).toNat ∧ word 0xA8 4 = (hiWord f.pc).toNat
    ∧ word 0x84 1 = (f.preds ||| 1).toNat ∧ word 0x85 1 = (if f.sup then 1 else 0)
    ∧ word 0x86 1 = t.cause.code ∧ (t.detail < 256 → word 0x87 1 = t.detail)
    ∧ (t.code < 64 → f.lane < 32 → word 0x88 1 = t.code ∧ word 0x89 1 = f.lane)
    ∧ word 0x8C 4 = min 16 (s.refusedStores r).length
    ∧ (∀ n, n < 12 → word 0x90 8 / 16 ^ n % 16 = sget 0 f.flags n % 16) ∧ word 0x96 2 = 0
    ∧ (∀ i, 0xAC ≤ i → i < 256 → b.getD i 0 = 0)
    ∧ (t.faddr < 2 ^ 64 → word 0x98 8 = t.faddr) ∧ (t.mxrow < 2 ^ 32 → word 0xA0 4 = t.mxrow)
    ∧ (f.spilled < 2 ^ 32 → word 0xA4 4 = f.spilled)

/-- R262: ERET of one fibre puts back from the record its window, predicates and address, and from what was kept its mode,
window base, flags and place; requests owed go out again. Log entries 14 and 19: the reading taken. -/
def Sys2Proof.Rules.HandlerReturn : Prop :=
  ∀ (s : State) (r : FRef) (f : Fibre) (h : Handler), s.fibre? r = some f → f.handler = some h → swf (0 : Word) f.stack = true →
    let u := eretOne s r h
    let word (off n : Nat) : Nat := natOfBytes (((bytesAt s.mem h.record 256).drop off).take n)
    u.mem = s.mem ∧ u.accs = (reissue s r h.owed).accs
    ∧ ∃ x, u.fibre? r = some x
      ∧ (∀ i, i < 32 → x.reg i = BitVec.ofNat 32 (word (4 * i) 4)) ∧ x.base = h.trapBase
      ∧ x.preds = BitVec.ofNat 8 (word 0x84 1) ||| 1 ∧ x.sup = h.mode ∧ x.flags = h.flags ∧ x.place = h.place ∧ x.handler = none
      ∧ x.pc.toNat = (word 0x80 4 + 2 ^ 32 * word 0xA8 4) / 4 * 4
      ∧ (s.refusedStores r = [] → x.status = .ready)

/-- R262, R316: ERET completes in supervisor mode for the active lanes that run a handler and have nothing of it pending;
the clause begins anew for the lanes that stayed out. The issue then ends (closeUnit), whatever waits that ends. -/
def Sys2Proof.Rules.EretCompletes : Prop :=
  ∀ (s : State) (g : Grp), Issues s g {} → (∀ m ∈ g.members, m.sup = true) →
    (∀ l ∈ (g.after s false).active, ∃ h, l.handler = some h ∧ eretReady s ⟨g.cell.id, l.idx⟩ h = true) →
    let hs := (g.after s false).active.filterMap fun f => f.handler.map fun h => (f, h)
    Completes .eret s g ((hs.foldl (fun s x => eretOne s ⟨g.cell.id, x.1.idx⟩ x.2) (passed s g false)).mapFibres g.cell.id fun f =>
      if (g.after s false).members.any fun m => m.idx == f.idx && !m.place.active then { f with place := {} } else f)

/-- R128, R141, R348: MFS writes what its register reads to the destination of every active lane, and an .RC name then clears
its register. A tenant register needs no mode. Log entry 40: the reading taken. -/
def Sys2Proof.Rules.ReadSpecial : Prop :=
  ∀ (s : State) (g : Grp) (d : Name) (n : Fin 4096), Issues s g {} → SlotFits s g d →
    (tenantReg n.val = false → ∀ m ∈ g.members, m.sup = true) → (photReg n.val = true → granted s g.cell.part = true) →
    let u := lanesTo s g [] fun l => written (if isReg64 n.val then .b64 else .b32) l d
      (BitVec.ofNat 64 (readReg (passed s g false) (.fibre (g.after s false).cell l) n.val))
    Ends (.mfs d n) s g (match (g.after s false).active with
      | [] => u
      | f :: _ => if n.val = 0x011 then u.setCell g.cell.id fun c => { c with arith := 0 }
        else if n.val = 0x013 then u.setMx (quadOf g.cell.cluster f.idx) 0 else u)

/-- R349, R282: MTS writes its register once for each active lane, in ascending order, when no command in progress holds a
lane up. -/
def Sys2Proof.Rules.WriteSpecial : Prop :=
  ∀ (s : State) (g : Grp) (a : Name) (n : Fin 4096) (x : Fibre → DWord) (u : State),
    Words s g {} false [plainSrc a (if isReg64 n.val then .b64 else .b32)] (fun l => [x l]) →
    (∀ m ∈ g.members, m.sup = true) → (∀ m ∈ (g.after s false).members, m.wrote = false) →
    (photReg n.val = true → granted s g.cell.part = true) →
    mtsLanes n.val (g.after s false) (passed s g false) (readTo s g false [a]) (readVals s g false [a] fun l => [x l]) = (u, false, false) →
    Ends (.mts a n) s g (members u (g.after s false) fun f => { f with wrote := false })

/-- R349 and the register tables (R167, R168, R172, R186, R197, R231, R275, R277, R293, R295, R296, R303): what a write of a fibre to
the registers of its partition and function does. An alias that clears on a read is written as its register (log entry 40). A write of
PHOT.MAP that names a failed slot, which is refused, is the model's choice (log entry 44). Log entry 40: the reading taken. -/
def Sys2Proof.Rules.RegisterWrites : Prop :=
  ∀ (s : State) (c : Cell) (f : Fibre) (p : Partition) (k : Fn) (x : DWord),
    s.part? c.part = some p → s.fn? c.part c.fn = some k →
    let w (n : Nat) : Wrote := writeReg s (.fibre c f) n x
    let v := loWord x
    w 0x010 = .done (s.setCell c.id fun c => { c with arith := v &&& 0x1F })
    ∧ w 0x012 = .done ((s.setMx (quadOf c.cluster f.idx) (v &&& 1)).setMxBy (quadOf c.cluster f.idx) c.part c.fn)
    ∧ w 0x011 = w 0x010 ∧ w 0x013 = w 0x012
    ∧ w 0x040 = .done s ∧ w 0x080 = .done s ∧ w 0x088 = .done s ∧ w 0x08A = .done s
    ∧ w 0x041 = .done (s.setFn c.part c.fn fun f => { f with ptroot := v })
    ∧ w 0x043 = (if k.shootBusy then .stall else .done (s.setFn c.part c.fn fun f => { f with shoot := v &&& 0x7FF, shootBusy := true, shootAt := k.shootVa }))
    ∧ w 0x045 = (if k.relBusy then .stall else .done (s.setFn c.part c.fn fun f => { f with rel := v &&& 3, relBusy := true, released := false, relAt := k.relPa }))
    ∧ w 0x081 = .done (s.setPart c.part fun p => { p with trapSave := v &&& 0xFF07FFFF })
    ∧ w 0x083 = .done (s.setPart c.part fun p => { p with wdog := v })
    ∧ w 0x085 = .done (s.setPart c.part fun p => { p with vfSel := bits v.toNat 5 0 })
    ∧ w 0x086 = .done (s.setFn c.part p.vfSel fun f => { f with weight := bits v.toNat 7 0 })
    ∧ (p.queueBusy = true → w 0x071 = .stall) ∧ (p.collBusy = true → w 0x091 = .stall)
    ∧ w 0x042 = .done (s.setFn c.part c.fn fun f => { f with shootVa := v })
    ∧ w 0x044 = .done (s.setFn c.part c.fn fun f => { f with relPa := v })
    ∧ (∀ j, j < 8 → w (0x050 + j) = .done (s.setPart c.part fun p =>
        let old := sget 0xFFFF p.rclass j
        { p with rclass := sput 0xFFFF p.rclass j (if v.toNat / 2 ^ 18 % 4 = 3 then (v &&& 0x3FFFF) ||| (old &&& 0xC0000) else v &&& 0xFFFFF) }))
    ∧ w 0x058 = .done (s.setPart c.part fun p => { p with hotBase := v })
    ∧ w 0x059 = .done (s.setPart c.part fun p => { p with hotSize := v }) ∧ w 0x05A = .done s
    ∧ w 0x05B = .done (s.setPart c.part fun p => { p with hotTail := v })
    ∧ w 0x05C = .done (s.setPart c.part fun p => { p with hotThr := v })
    ∧ w 0x05D = .done (s.setPart c.part fun p => { p with hotDrop := v })
    ∧ w 0x060 = .done (freePins (endPins (s.setPart c.part fun p => { p with pinto := v.toNat % 2 ^ 20 }) fun q => q.part == c.part))
    ∧ w 0x061 = .done (s.setPart c.part fun p => { p with drto := if v.toNat % 2 ^ 16 = 0 then p.drto else v.toNat % 2 ^ 16 })
    ∧ w 0x062 = .done (s.setPart c.part fun p => { p with cw := v.toNat % 2 ^ 8 })
    ∧ w 0x070 = .done (s.setPart c.part fun p => { p with queueAddr := x })
    ∧ (p.queueBusy = false → w 0x071 = .done (s.setPart c.part fun p =>
        { p with queueCmd := v &&& 0xBF07, queueBusy := decide (1 ≤ v.toNat % 8 ∧ v.toNat % 8 ≤ 5), queueRan := false }))
    ∧ w 0x087 = .done (s.setFn c.part p.vfSel fun f => if v = 0 then { f with last := 1 } else { f with quantum := max v.toNat (saveTime s p), last := 0 })
    ∧ w 0x089 = (if v.getLsbD 0 = false then .done s else if c.fn = p.vfSel then .halted (startReset s c.part p.vfSel) else .done (startReset s c.part p.vfSel))
    ∧ w 0x090 = .done (s.setPart c.part fun p => { p with collAddr := x })
    ∧ (p.collBusy = false → w 0x091 = .done (s.setPart c.part fun p =>
        { p with collGroup := v.toNat / 2 ^ 16 % 2 ^ 12, collCmd := v.toNat % 4, collFn := c.fn, collBusy := v.toNat % 4 == 1 || v.toNat % 4 == 2 }))
    ∧ w 0x100 = .done (s.setFibre ⟨c.id, f.idx⟩ fun f => { f with bank := BitVec.ofNat 8 v.toNat, perr := f.perr && !v.getLsbD 30 })
    ∧ (∀ j, j < 16 → w (0x110 + j) = .done { s with heaters := sput 0 s.heaters (16 * f.bank.toNat + j) (v.toNat % 2 ^ 12 + 1) })
    ∧ (∀ j, j < 16 → let b := f.bank.toNat; let slot := v.toNat % 2 ^ 5
        (slot = ringSlot s b j → w (0x130 + j) = .done s)
        ∧ (slot ≠ ringSlot s b j → (16 < slot ∨ slotFailed s b slot = true ∨ ∃ m, m < 16 ∧ m ≠ j ∧ ringSlot s b m = slot) →
          w (0x130 + j) = .done (s.setFibre ⟨c.id, f.idx⟩ fun f => { f with perr := true }))
        ∧ (slot ≠ ringSlot s b j → slot ≤ 16 → slotFailed s b slot = false → (∀ m, m < 16 → m ≠ j → ringSlot s b m ≠ slot) →
          w (0x130 + j) = .done { s with rings := sput 0 s.rings (16 * b + j) (slot + 1) }))

namespace Sys2Proof.Rules

/-- n bytes at a lie in the cell's scratch, or in one vault of its partition. -/
def InReach (s : State) (c : Cell) (a n : Nat) : Prop :=
  (∃ o, o < 0xA0000 ∧ a = scratchBase + o ∧ o + n ≤ c.scratchSize)
  ∨ ∃ v o, v < 192 ∧ a = vaultBase + v * vaultSize + o ∧ o + n ≤ vaultSize ∧ s.hasVault c.part v = true
/-- R268: what SPILL writes: the 24 words of the block, its return address, six zeros. -/
def blockBytes (f : Fibre) : List Byte :=
  ((List.range 24).map (fun i => sget 0 f.stack i) ++ [loWord (sget 0 f.rets 0), hiWord (sget 0 f.rets 0), 0, 0, 0, 0, 0, 0]).flatMap
    fun w => bytesOfNat 4 w.toNat

end Sys2Proof.Rules

/-- R268, R190, R194: SPILL and FILL act in each active lane of a handler, in supervisor mode, once no acquire and no own access to the
block that stands before them is pending. Where every lane's block is an aligned one of its cell's scratch or of a vault of its
partition, or one lane alone has a readable or writable block, they complete whatever the lanes' windows hold (SpillLanes, FillLanes). -/
def Sys2Proof.Rules.SpillAndFillWords : Prop :=
  ∀ (s : State) (g : Grp) (a : Name) (x : Fibre → DWord), Words s g {} false [plainSrc a .b64] (fun l => [x l]) →
    (∀ m ∈ g.members, m.sup = true) →
    (∀ l ∈ (g.after s false).active, s.acqPending ⟨g.cell.id, l.idx⟩ = false ∧ s.ownPosted ⟨g.cell.id, l.idx⟩ (x l).toNat 128 = false
      ∧ s.ownReads ⟨g.cell.id, l.idx⟩ (x l).toNat 128 = false
      ∧ heldBack (readTo s g false [a]) [] g.cell.part g.cell.fn (x l).toNat 128 = false) →
    Runs (.spill a) s g false [plainSrc a .b64] (fun l => [x l]) (fun g s f vs => spillLane g (vs.getD 0 0).toNat s f)
    ∧ Runs (.fill a) s g false [plainSrc a .b64] (fun l => [x l]) (fun g s f vs => fillLane g (vs.getD 0 0).toNat s f)
    ∧ let r := readTo s g false [a]
      let xs := readVals s g false [a] fun l => [x l]
      let g' := g.read s false [a]
      let spilled := Completes (.spill a) s g (eachLane r g.cell.id xs fun s f vs => (spillLane g' (vs.getD 0 0).toNat s f).1)
      let filled := Completes (.fill a) s g (eachLane r g.cell.id xs fun s f vs => (fillLane g' (vs.getD 0 0).toNat s f).1)
      ((∀ l ∈ (g.after s false).active, (∃ f, s.fibre? ⟨g.cell.id, l.idx⟩ = some f ∧ f.handler.isSome = true)
        ∧ (x l).toNat % 128 = 0 ∧ InReach s g.cell (x l).toNat 128) → spilled ∧ filled)
      ∧ ∀ l f, (g.after s false).active = [l] → r.fibre? ⟨g.cell.id, l.idx⟩ = some f → f.handler.isSome = true →
        checkAddr r g'.cell (x l).toNat 128 2 false = none →
        ((∃ t, homeWrite (touchHomes r (g.cell.who f.sup) none false .write (x l).toNat 128) (g.cell.who f.sup) (some g.cell.cluster) (x l).toNat
          (blockBytes f) = .ok t) → spilled)
        ∧ ((∃ bs, homeRead r (g.cell.who f.sup) (x l).toNat .read 128 = .ok bs) → filled)

/-- R268: what SPILL does in one lane, and where it does nothing or traps: its block takes the 32 words, the register stack and the
return addresses move down by 24, the record's SPILLED follows. Log entry 19: the reading taken. -/
def Sys2Proof.Rules.SpillLanes : Prop :=
  ∀ (s : State) (g : Grp) (a : Nat) (f : Fibre),
    (f.handler = none → spillLane g a s f = (s, some { cause := .illegalInstruction }))
    ∧ ∀ h, f.handler = some h →
      (h.trapBase = 0 → spillLane g a s f = (s, none))
      ∧ (h.trapBase ≠ 0 → (∀ t, checkAddr s g.cell a 128 2 false = some t → spillLane g a s f = (s, some t))
        ∧ ∀ c, s.cell? g.cell.id = some c → c.fibre? f.idx = some f → a % 128 = 0 → InReach s g.cell a 128 →
        ∃ u x c', spillLane g a s f = (u, none) ∧ u.cell? g.cell.id = some c' ∧ c'.fibre? f.idx = some x
          ∧ (∀ p, sget 0 x.stack p = sget 0 f.stack (p + 24)) ∧ (∀ p, sget 0 x.rets p = sget 0 f.rets (p + 24))
          ∧ x = { f with stack := x.stack, rets := x.rets, base := f.base - 24, spilled := f.spilled + 1
                         handler := some { h with trapBase := h.trapBase - 24 } }
          ∧ (∀ i, i ≠ f.idx → c'.fibre? i = c.fibre? i)
          ∧ c'.scratch = (if scratchBase ≤ a then putBytes c.scratch (a - scratchBase) (blockBytes f) else c.scratch)
          ∧ u.mem = putBytes (if scratchBase ≤ a then s.mem else putBytes s.mem a (blockBytes f)) (h.record + 0xA4) (bytesOfNat 4 (f.spilled + 1)))

/-- R268: what FILL does in one lane, and where it does nothing or traps: the register stack and the return addresses move up by 24,
and the block's words are their first; the record's SPILLED follows. Log entry 19: the reading taken. -/
def Sys2Proof.Rules.FillLanes : Prop :=
  ∀ (s : State) (g : Grp) (a : Nat) (f : Fibre),
    (f.handler = none → fillLane g a s f = (s, some { cause := .illegalInstruction }))
    ∧ ∀ h, f.handler = some h →
      (f.spilled = 0 ∨ 72 < f.base → fillLane g a s f = (s, none))
      ∧ (f.spilled ≠ 0 → f.base ≤ 72 → (∀ t, checkAddr s g.cell a 128 1 false = some t → fillLane g a s f = (s, some t))
        ∧ (∀ e y, checkAddr s g.cell a 128 1 false = none → a < scratchBase → homeRead s (g.cell.who f.sup) a .read 128 = .error (y, e) →
          fillLane g a s f = (s, some { cause := e, detail := 1, faddr := y }))
        ∧ ∀ c, s.cell? g.cell.id = some c → c.fibre? f.idx = some f → a % 128 = 0 → InReach s g.cell a 128 →
        let bs := if scratchBase ≤ a then bytesAt g.cell.scratch (a - scratchBase) 128 else bytesAt s.mem a 128
        let word (i : Nat) : Word := BitVec.ofNat 32 (natOfBytes ((bs.drop (4 * i)).take 4))
        ∃ u x c', fillLane g a s f = (u, none) ∧ u.cell? g.cell.id = some c' ∧ c'.fibre? f.idx = some x
          ∧ (∀ p, p < 24 → sget 0 x.stack p = word p) ∧ (∀ p, 24 ≤ p → p < 128 → sget 0 x.stack p = sget 0 f.stack (p - 24))
          ∧ (sget 0 x.rets 0).toNat = ((word 24).toNat + 2 ^ 32 * (word 25).toNat) / 4 * 4
          ∧ (∀ p, 24 ≤ p → p < 128 → sget 0 x.rets p = sget 0 f.rets (p - 24))
          ∧ x = { f with stack := x.stack, rets := x.rets, base := f.base + 24, spilled := f.spilled - 1
                         handler := some { h with trapBase := h.trapBase + 24 } }
          ∧ (∀ i, i ≠ f.idx → c'.fibre? i = c.fibre? i) ∧ c'.scratch = c.scratch
          ∧ u.mem = putBytes s.mem (h.record + 0xA4) (bytesOfNat 4 (f.spilled - 1)))

/-! ### Transactions -/

/-- R220, R223, R368: TBEGIN opens a transaction with a zero in its destination, or nests one in the one open, which a count above 255
aborts with cause 3; TABORT ends the lane's transaction at its resume point with the code shifted above the cause, and does nothing
outside one (TransactionAbort). Log entry 29: the reading taken. -/
def Sys2Proof.Rules.TransactionWords : Prop :=
  ∀ (s : State) (g : Grp) (n : Fin 32), Issues s g {} →
    Ends (.tbegin (.w n)) s g ((g.after s false).active.foldl (fun s l =>
      let u := s.setFibre ⟨g.cell.id, l.idx⟩ fun _ => { l.setReg n.val 0 with tx := some (match l.tx with
        | none => { resume := g.at_ + 4, dst := l.base + n.val, nest := 0, reads := [], writes := [] }
        | some x => { x with nest := x.nest + 1 }) }
      if (l.tx.any fun x => decide (255 ≤ x.nest)) = true then abortTx u ⟨g.cell.id, l.idx⟩ 3 else u) (passed s g false))
    ∧ ∀ (a : Name) (x : Fibre → DWord), Reads s g false [plainSrc a .b32] (fun l => [x l]) →
      Ends (.tabort a) s g ((readVals s g false [a] fun l => [x l]).foldl
        (fun s y => abortTx s ⟨g.cell.id, y.1.idx⟩ ((loWord (y.2.getD 0 0)) * 256 + 6)) (readTo s g false [a]))

/-- R220, R222, R223, R224: an abort drops both sets, writes the cause, and the fibre goes on at its resume point, at once when
nothing of its own is pending; outside a transaction there is nothing to abort. Log entry 29: the reading taken. -/
def Sys2Proof.Rules.TransactionAbort : Prop :=
  (∀ (s : State) (r : FRef) (f : Fibre) (w : Word), s.fibre? r = some f → f.tx = none → abortTx s r w = s)
  ∧ ∀ (s : State) (r : FRef) (f : Fibre) (x : Tx) (w : Word), s.fibre? r = some f → f.tx = some x →
    (abortTx s r w).mem = s.mem ∧ (abortTx s r w).accs = s.accs
    ∧ ∃ u, (abortTx s r w).fibre? r = some u ∧ u.tx = none ∧ u.pc = x.resume ∧ u.place = {} ∧ u.stack = sput 0 f.stack x.dst w
      ∧ ((∀ a ∈ s.accs, a.owner = r → a.kind.posted = true) → (∀ o ∈ s.ops, o.fibres.any (·.1 == r) = false) → u.status = .ready)

/-- R222: TEND commits: when step 1 holds for the lanes that commit and no line of theirs is held back, inner levels close one
level, lanes in conflict with a lower lane abort with cause 1 (LaneConflicts), and the others commit in ascending order
(TransactionCommit), one that consumes bad data trapping. Outside every transaction it does nothing. Log entry 29: the reading taken. -/
def Sys2Proof.Rules.TransactionEnd : Prop :=
  (∀ (s : State) (g : Grp), Issues s g {} → (∀ l ∈ (g.after s false).active, l.tx = none) → Completes .tend s g (passed s g false))
  ∧ ∀ (s : State) (g : Grp), Issues (tendPins s) g {} →
    let here := passed (tendPins s) g false
    let inTx := (g.after (tendPins s) false).active.filterMap fun f => f.tx.map fun x => (f, x)
    let outer := inTx.filter (·.2.nest == 0)
    (∀ y ∈ outer, parkDue here ⟨g.cell.id, y.1.idx⟩ .stores = none
      ∧ (here.coverage ⟨g.cell.id, y.1.idx⟩).all (here.performed .dev) = true
      ∧ ∀ l ∈ y.2.readLines ++ y.2.writeLines, heldBack here [] g.cell.part g.cell.fn (64 * l) 64 = false) →
    s.invalsClear g.cell.cluster = true →
    let g' := g.after (tendPins s) false
    let s1 := (inTx.filter (0 < ·.2.nest)).foldl (fun s y =>
      s.setFibre ⟨g.cell.id, y.1.idx⟩ fun f => { f with tx := some { y.2 with nest := y.2.nest - 1 } }) here
    let s2 := (txSplit outer).2.foldl (fun s y => abortTx s ⟨g.cell.id, y.1.idx⟩ 1) s1
    let w := (txSplit outer).1.foldl (fun (w : State × List (Nat × Trap)) y =>
      let r := txCommit w.1 g' y.1 y.2
      (r.1, w.2 ++ (r.2.map fun t => (y.1.idx, t)).toList)) (s2, [])
    exec .tend s = .next (closeUnit (sameIssue (tendPins s).next (raiseLanes w.1 g' w.2)) g')

/-- R222, step 2: of the lanes that commit, each in turn stands beside those below it that do, unless they share a line that one of the
two writes. -/
def Sys2Proof.Rules.LaneConflicts : Prop :=
  let inLine (x : Tx) (l : Nat) : Prop := ∃ b ∈ x.writes, b.1 / 64 = l
  let reads (x : Tx) (l : Nat) : Prop := ∃ b ∈ x.reads, b.1 = l
  let clash (low x : Tx) : Prop := ∃ l, (inLine x l ∧ (inLine low l ∨ reads low l)) ∨ (reads x l ∧ inLine low l)
  txSplit [] = ([], [])
  ∧ ∀ (xs : List (Fibre × Tx)) (y : Fibre × Tx),
    ((∃ low ∈ (txSplit xs).1, clash low.2 y.2) → txSplit (xs ++ [y]) = ((txSplit xs).1, (txSplit xs).2 ++ [y]))
    ∧ ((∀ low ∈ (txSplit xs).1, ¬ clash low.2 y.2) → txSplit (xs ++ [y]) = ((txSplit xs).1 ++ [y], (txSplit xs).2))

/-- R222, steps 4 to 6, for one lane of a cell without drafts: where each line that it read still reads as recorded and each byte of its
write set lies in a vault of its partition, these take their values, its transaction is over, and it goes on once the invalidations
queued to its cluster are delivered; the first line that reads otherwise aborts it with cause 2, and one that its home refuses with cause
4, or traps it where the data are bad. Log entry 29: the reading taken. -/
def Sys2Proof.Rules.TransactionCommit : Prop :=
  ∀ (s : State) (g : Grp) (c : Cell) (f : Fibre) (x : Tx), s.cell? g.cell.id = some c → c.fibre? f.idx = some f → c.drafts = [] →
    let r : FRef := ⟨g.cell.id, f.idx⟩
    let line (l : Nat × List Byte) : Except (Nat × Cause) (List Byte) := homeRead s (c.who f.sup) (64 * l.1) .read 64
    ((∀ l ∈ x.reads, line l = .ok l.2) →
      (∀ b ∈ x.writes, ∃ v o, v < 192 ∧ o < vaultSize ∧ b.1 = vaultBase + v * vaultSize + o ∧ s.hasVault c.part v = true) →
      ∃ u y, txCommit s g f x = (u, none) ∧ u.mem = x.writes.foldl (fun m b => putBytes m b.1 [b.2]) s.mem ∧ u.fibre? r = some y
        ∧ y.tx = none ∧ y.stack = f.stack
        ∧ y.status = if u.invalsClear c.cluster then .ready else .fence false false .coh [])
    ∧ ∀ pre l post, x.reads = pre ++ l :: post → (∀ p ∈ pre, line p = .ok p.2) →
      (∀ bs, line l = .ok bs → bs ≠ l.2 → txCommit s g f x = (abortTx s r 2, none))
      ∧ ∀ a e, line l = .error (a, e) → txCommit s g f x =
          if e = .uncorrectable then (s, some { cause := e, detail := 1, faddr := a }) else (abortTx s r (BitVec.ofNat 32 (4 + 256 * e.code)), none)

/-! ### Fibres, barriers, frames -/

namespace Sys2Proof.Rules

/-- The members of a group wait at the word in hand. -/
def waiting (s : State) (g : Grp) (ms : List Fibre) (w : Wait) : State :=
  s.mapFibres g.cell.id fun f =>
    if ms.any (·.idx == f.idx) then { f with status := .blocked w, since := s.now, waitAt := g.first } else f
/-- The same at REGROUP, with the cycle count at which its time there begins (R34). -/
def regrouping (s : State) (g : Grp) (ms : List Fibre) (e : Nat) : State :=
  (waiting s g ms (.regroup e)).mapFibres g.cell.id fun f =>
    if (ms.map (·.idx)).contains f.idx then { f with mark := s.cycles (islandOf g.cell.cluster) } else f
/-- Every fibre of a group is outside transactions (R224). -/
def AllOutside (s : State) (g : Grp) : Prop := ∀ m ∈ (g.after s false).members, m.tx = none
/-- A crosshatch entry that a group at REGROUP joins: one of its cell and its word, whose fibres are in its mode (R34, R132). -/
def joins (g : Grp) (e : HatchEntry) : Bool :=
  e.cell == g.cell.id && e.pc == g.at_ && g.cell.fibres.any fun f => e.members.contains f.idx && f.sup == g.sup

end Sys2Proof.Rules

/-- R308, R33, R34, R356, R371, R37, R39: BAR, CBAR, RECONV, REGROUP and YIELD block every fibre present at the word, whatever
the guard, and then whatever this completes goes on. REGROUP takes or joins a crosshatch entry of its quadrant, and acts as
RECONV in a locked cell or where the quadrant has no entry free. Log entry 12: the reading taken. -/
def Sys2Proof.Rules.BarrierWords : Prop :=
  ∀ (s : State) (g : Grp), Issues s g {} →
    let g' := g.after s false
    let here := passed s g false
    let at_ (w : Wait) : Host.Outcome State Fault Refusal := .next (closeUnit (sameIssue s.next (waiting here g' g'.members w)) g')
    exec .yield s = at_ (.yield g.at_.toNat)
    ∧ (AllOutside s g → exec .bar s = at_ .bar ∧ exec .reconv s = at_ (.reconv g.at_.toNat)
      ∧ (g'.members ≠ [] → (∀ m ∈ g'.members, parkDue here ⟨g.cell.id, m.idx⟩ .stores = none) →
        exec .cbar s = .next (closeUnit (sameIssue s.next (waiting (endPins here (·.cell == g.cell.id)) g' g'.members .cbar)) g'))
      ∧ (g'.members ≠ [] →
        let mine := s.crosshatch.filter fun e => e.cluster == g.cell.cluster && e.quad == g'.quad
        ((g.cell.locked = true ∨ 8 ≤ mine.length ∧ mine.find? (joins g') = none) → exec .regroup s = at_ (.reconv g.at_.toNat))
        ∧ (g.cell.locked = false → ∀ e, mine.find? (joins g') = some e →
          exec .regroup s = .next (closeUnit (sameIssue s.next (regrouping { here with crosshatch := s.crosshatch.map fun x =>
            if x.id = e.id then { x with members := x.members ++ g'.members.map (·.idx) } else x } g' g'.members e.id)) g'))
        ∧ (g.cell.locked = false → mine.length < 8 → mine.find? (joins g') = none →
          exec .regroup s = .next (closeUnit (sameIssue s.next (regrouping { here with
            crosshatch := s.crosshatch ++ [{ id := s.next, cell := g.cell.id, cluster := g.cell.cluster, quad := g'.quad, pc := g.at_
                                             members := g'.members.map (·.idx) }]
            next := s.next + 1 } g' g'.members s.next)) g'))))

/-- R37, R308: BAR completes in a cell once every fibre of it has arrived and all that they issued is performed at cell
scope: every one of them is Ready again. -/
def Sys2Proof.Rules.BarrierCompletes : Prop :=
  ∀ (s : State) (c : Cell), s.cell? c.id = some c → c.fibres ≠ [] → (∀ f ∈ c.fibres, f.status = .blocked .bar) →
    (covered s c.id .cell c.fibres = true →
      ∃ d, (releaseBar s c.id).cell? c.id = some d ∧ d.fibres.map (·.idx) = c.fibres.map (·.idx) ∧ ∀ f ∈ d.fibres, f.status = .ready)
    ∧ (covered s c.id .cell c.fibres = false → releaseBar s c.id = s)

namespace Sys2Proof.Rules
/-- R28, R223, R224: a fibre that quits: its streams stop, its transaction aborts with cause 4 and 0x01 in its destination. -/
def quitting (s : State) (g : Grp) (f : Fibre) : Fibre :=
  { f with recs := [], tx := none, status := .blocked .quit, since := s.now, waitAt := g.first, pc := g.first
           stack := match f.tx with | none => f.stack | some x => sput 0 f.stack x.dst 0x0104 }
end Sys2Proof.Rules

/-- R28, R355: QUIT stops the streams and the transaction of each active fibre and blocks it; the others go on at the next
word, where a clause begins. A fibre with nothing pending is at its end at once (FibreEnds). That the destination of its
transaction takes the word of cause 4 is read from R223 and R224 (log entry 29). Log entries 14 and 29: the reading taken. -/
def Sys2Proof.Rules.QuitWord : Prop :=
  ∀ (s : State) (g : Grp), Issues s g {} →
    (∀ l ∈ (g.after s false).active, ∀ a ∈ s.accs, a.of ⟨g.cell.id, l.idx⟩ = true → ∀ c, a.stage ≠ .refused c) →
    (∀ l ∈ (g.after s false).active, ∀ o ∈ s.ops, o.fibres.any (·.1 == ⟨g.cell.id, l.idx⟩) = true → o.refused = none) →
    let g' := g.after s false
    let out := g'.members.filter fun m => !g'.active.any (·.idx == m.idx)
    exec .quit s = .next (closeUnit (sameIssue s.next (eachLane
      ((passed s g false).mapFibres g.cell.id fun f =>
        if out.any (·.idx == f.idx) then { f with pc := g.at_ + 4, place := {} } else f)
      g.cell.id (g'.active.map fun f => (f, [])) fun s l _ => s.setFibre ⟨g.cell.id, l.idx⟩ fun f => quitting s g f)) g')

/-- R28, R50, R58: steps 2 and 3 of a quit, for a fibre that has left no frame and is not the last of its cell: its index and its slot
are free, and nothing of any other fibre changes. Where it holds no frame every frame stays; the one that it holds loses a reference
where others hold it, and retires where none does. -/
def Sys2Proof.Rules.FibreEnds : Prop :=
  ∀ (s : State) (c : Cell) (f : Fibre), s.cell? c.id = some c → c.fibre? f.idx = some f →
    s.own ⟨c.id, f.idx⟩ = [] → (∀ e ∈ s.frames, e.leaver ≠ some ⟨c.id, f.idx⟩) → (∃ x ∈ c.fibres, x.idx ≠ f.idx) →
    let u := finishQuit s ⟨c.id, f.idx⟩
    let ends : Prop := u.fibre? ⟨c.id, f.idx⟩ = none ∧ u.accs = s.accs ∧ u.launches = s.launches
      ∧ ∀ i, i ≠ f.idx → ∀ x, c.fibre? i = some x → ∃ y, u.fibre? ⟨c.id, i⟩ = some y ∧ y.arch = x.arch
    ((∀ d, 0 < d → d < 8 → f.desc d = none) → ends ∧ u.mem = s.mem ∧ u.frames = s.frames)
    ∧ ∀ n e, 0 < n → n < 8 → f.desc n ≠ none → (∀ d, d ≠ n → d < 8 → f.desc d = none) → s.frameOf f n = some e →
      ends
      ∧ (1 < e.count → u.mem = s.mem ∧ u.frames = s.frames.map fun x => if x.id = e.id then { x with count := x.count - 1 } else x)
      ∧ (e.count ≤ 1 → u.frames = s.frames.filter (·.id != e.id))

/-- R28, R199, R308, R355, R358: the last fibre of a cell ends the cell: it is gone with its scratch frames and its crosshatch entries,
its pins are ended, and a grid's entry is ended; a plate's cell runs no more, its residual stays and its arrivals are zero (R72); of the
other cells no more changes than that a CBAR may end by it. Log entry 30: the reading taken. -/
def Sys2Proof.Rules.CellEnds : Prop :=
  ∀ (s : State) (c : Cell), s.cell? c.id = some c →
    (endCell s c.id).cell? c.id = none
    ∧ (∀ d, d ≠ c.id → ((endCell s c.id).cell? d).map Cell.arch = (s.cell? d).map Cell.arch)
    ∧ (∀ e ∈ (endCell s c.id).crosshatch, e.cell ≠ c.id)
    ∧ (∀ p ∈ (endCell s c.id).pins, p.cell = c.id → p.rel = 0)
    ∧ (∀ f ∈ (endCell s c.id).frames, ¬ (f.plc = .scratch ∧ f.cell = c.id))
    ∧ (endCell s c.id).mem = s.mem
    ∧ (∀ l ∈ (endCell s c.id).launches, l.id = c.launch → l.kind = .grid → ∀ e, l.cells[c.index]? = some e → e.ended = true ∧ e.rho = 0)
    ∧ ∀ l e, s.launch? c.launch = some l → l.kind ≠ .grid → l.cells[c.index]? = some e →
      ((endCell s c.id).launch? c.launch).bind (·.cells[c.index]?) = some { e with arrivals := 0, running := false }

/-- R328, R29: FORK acts in each active lane, and completes where every lane's address is a multiple of four. R24, R26, R29, R50: one
lane's child has the lowest free index, window 0 and the parent's display, each frame that this names gains a reference, it waits for
what the parent issued, and its index is the parent's result; without a free index, in a full quadrant or without a free slot (log entry
42) the result is all ones; an address that is no multiple of four traps. Log entry 17: the reading taken. -/
def Sys2Proof.Rules.ForkWord : Prop :=
  (∀ (s : State) (g : Grp) (n : Fin 32) (a : Name) (x : Fibre → DWord), NoTx s g false →
    Words s g {} false [plainSrc a .b64] (fun l => [x l]) →
    Runs (.fork (.w n) a) s g false [plainSrc a .b64] (fun l => [x l]) (fun g s f vs => forkLane n.val g (vs.getD 0 0) s f)
    ∧ ((∀ l ∈ (g.after s false).active, (x l).toNat % 4 = 0) →
      let g' := g.read s false [a]
      Completes (.fork (.w n) a) s g (eachLane (readTo s g false [a]) g.cell.id (readVals s g false [a] fun l => [x l])
        fun s f vs => (forkLane n.val g' (vs.getD 0 0) s f).1)))
  ∧ ∀ (s : State) (g : Grp) (d : Nat) (t : DWord) (f : Fibre) (c : Cell), s.cell? g.cell.id = some c → c.fibre? f.idx = some f →
    (t.toNat % 4 ≠ 0 → forkLane d g t s f = (s, some { cause := .misaligned }))
    ∧ (t.toNat % 4 = 0 → (∀ i, i < 1024 → (c.fibre? i).isSome = true) →
      forkLane d g t s f = (s.setFibre ⟨g.cell.id, f.idx⟩ fun f => f.setReg d 0xFFFFFFFF, none))
    ∧ ∀ i, t.toNat % 4 = 0 → i < 1024 → c.fibre? i = none → (∀ j, j < i → (c.fibre? j).isSome = true) →
      (512 ≤ quadLoad s c.cluster (i / 32 % 4) ∨ freeSlot s c.cluster (i / 32 % 4) c.fn = none →
        forkLane d g t s f = (s.setFibre ⟨g.cell.id, f.idx⟩ fun f => f.setReg d 0xFFFFFFFF, none))
      ∧ ∀ slot, quadLoad s c.cluster (i / 32 % 4) < 512 → freeSlot s c.cluster (i / 32 % 4) c.fn = some slot →
      ∃ u child parent, forkLane d g t s f = (u, none) ∧ u.fibre? ⟨c.id, i⟩ = some child ∧ u.fibre? ⟨c.id, f.idx⟩ = some parent
        ∧ parent = f.setReg d (BitVec.ofNat 32 i)
        ∧ child.pc = t ∧ child.slot = slot ∧ child.base = 0 ∧ child.sup = f.sup ∧ child.tx = none ∧ child.handler = none ∧ child.flags = []
        ∧ child.disp = f.disp ∧ child.refs = f.refs
        ∧ (u.frames = s.frames.map fun e => { e with count := e.count + (f.refs.filter fun x => x.2 == e.id).length })
        ∧ child.reg 0 = BitVec.ofNat 32 i ∧ child.reg 1 = BitVec.ofNat 32 c.index ∧ (∀ n, 2 ≤ n → n < 32 → child.reg n = 0)
        ∧ child.status = .fence false false .cell (s.coverage ⟨c.id, f.idx⟩)
        ∧ u.mem = s.mem ∧ u.accs = s.accs

/-- R323, R324: FENTER and FLEAVE act in each active lane, FENTER once no acquire of its lanes is pending, no own access to a block of
its pool stands before its zero fill, and none is held back (R190, R194, R199). -/
def Sys2Proof.Rules.FrameEnterLeave : Prop :=
  ∀ (s : State) (g : Grp) (d cnt : Name) (pool : Fin 3) (x : Fibre → DWord),
    (Words s g {} false [plainSrc cnt .b32] (fun l => [x l]) →
      (let p := poolOf g.cell (((s.launch? g.cell.launch).map (·.rcd)).getD {}) pool.val
        ∀ l ∈ (g.after s false).active, s.acqPending ⟨g.cell.id, l.idx⟩ = false ∧ ∀ b ∈ p.blocks, s.ownPosted ⟨g.cell.id, l.idx⟩ b p.blk = false
          ∧ s.ownReads ⟨g.cell.id, l.idx⟩ b p.blk = false
          ∧ heldBack (readTo s g false [cnt]) [] g.cell.part g.cell.fn b p.blk = false) →
      Runs (.fenter d cnt pool) s g false [plainSrc cnt .b32] (fun l => [x l]) fun g s f vs =>
        fenterLane pool.val (nameWin d) g (loWord (vs.getD 0 0)).toNat s f)
    ∧ ∀ n : Fin 8, Issues s g {} →
      RunsOn (.fleave n) s g (passed s g false) ((g.after s false).active.map fun f => (f, [])) fun s f _ =>
        fleaveLane n.val (g.after s false) s f

/-- R323, R46, R51, R47: FENTER of n slots from a pool in one lane: it traps at depth 7, for no slots or too many, and with no block
free; else the first free block is zeroed, and the new frame, one deeper than the deepest, has it. A home that refuses the zeros of a
global block traps the lane instead, with DETAIL 2. Log entry 17: the reading taken. -/
def Sys2Proof.Rules.FrameEnters : Prop :=
  ∀ (s : State) (g : Grp) (c : Cell) (f : Fibre) (pool d n : Nat), s.cell? g.cell.id = some c → c.fibre? f.idx = some f → d < 32 → pool < 3 →
    let p := poolOf c (((s.launch? c.launch).map (·.rcd)).getD {}) pool
    let go := fenterLane pool d g n s f
    let fault (k : Nat) : Prop := go = (s, some { cause := .frameFault, detail := k })
    let zeros : List Byte := List.replicate (4 * n) 0
    ((f.desc 7).isSome = true → fault 2)
    ∧ (f.desc 7 = none → (n = 0 ∨ p.blk / 4 < n) → fault 6)
    ∧ (f.desc 7 = none → 0 < n → n ≤ p.blk / 4 →
      (p.blocks.find? (fun b => !blockTaken s c pool b) = none → fault 5)
      ∧ ∀ b, p.blocks.find? (fun b => !blockTaken s c pool b) = some b →
        let enters (mem scratch : SMap Byte) : Prop :=
          ∃ u e x c', go = (u, none) ∧ u.frames = s.frames ++ [e] ∧ e.base = b ∧ e.slots = n ∧ e.count = 1 ∧ e.plc = plcOf pool
          ∧ e.depth = nextDepth f ∧ u.fibre? ⟨c.id, f.idx⟩ = some x ∧ x.reg d = BitVec.ofNat 32 (nextDepth f)
          ∧ x.disp = sput 0 f.disp (nextDepth f) (mkDesc pool (if pool = 0 then 0 else 2) n b) ∧ u.mem = mem
          ∧ u.cell? c.id = some c' ∧ c'.scratch = scratch
        (∀ o, o < 0xA0000 → b = scratchBase + o → enters s.mem (putBytes c.scratch o zeros))
        ∧ (∀ v o, v < 192 → b = vaultBase + v * vaultSize + o → o + 4 * n ≤ vaultSize → s.hasVault c.part v = true →
          enters (putBytes s.mem b zeros) c.scratch)
        ∧ (b < vaultBase →
          let home := homeWrite (touchHomes s (c.who f.sup) none false .write b (4 * n)) (c.who f.sup) (some c.cluster) b zeros
          (∀ x k, home = .error (x, k) → go = (s, some { cause := k, detail := k.detail 2, faddr := x }))
          ∧ ∀ t, home = .ok t → enters t.mem c.scratch))

/-- R324, R50, R57, R196, R265: FLEAVE in one lane that holds one frame at the depth or deeper: none there is FRAME_FAULT detail 3. One
that others share loses a reference, and the lane goes on; the last leave's frame retires once its release is done, at device scope
unless the frame stands in scratch, and until then the lane waits and the frame keeps its storage; a refused store parks the lane. Its
display register is cleared in each case but the last. -/
def Sys2Proof.Rules.FrameLeaves : Prop :=
  ∀ (s : State) (g : Grp) (f : Fibre) (n : Nat),
    let r : FRef := ⟨g.cell.id, f.idx⟩
    let go := fleaveLane n g s f
    let clear (f : Fibre) : Fibre := { f with disp := sput 0 f.disp n 0, refs := sput 0 f.refs n 0 }
    f.again = none → (f.desc n = none → go = (s, some { cause := .frameFault, detail := 3 }))
    ∧ ∀ e, s.fibre? r = some f → n < 8 → f.desc n ≠ none → (∀ d, n < d → d < 8 → f.desc d = none) → s.frameOf f n = some e →
      (∀ x ∈ s.frames, x.leaver ≠ some r) →
      (1 < e.count → (∀ a ∈ s.accs, a.of r = false) →
        go = ((s.setFibre r clear).setFrame e.id fun x => { x with count := x.count - 1 }, none))
      ∧ (e.count = 1 → ∀ t, parkDue s r .stores = some t → go = (s, some t))
      ∧ (e.count = 1 → parkDue s r .stores = none →
        (s.coverage r = [] → e.handed = [] → (∀ a ∈ s.accs, a.id ≠ 0) → (∀ o ∈ s.ops, o.id ≠ 0) → e.plc = .scratch ∨ s.invalsClear g.cell.cluster = true →
          ∃ u, go = (u, none) ∧ u.fibre? r = some (clear f) ∧ ∀ x ∈ u.frames, x.id ≠ e.id)
        ∧ (e.plc ≠ .scratch → s.invalsClear g.cell.cluster = false ∨ (∃ a ∈ s.coverage r, s.performed .dev a = false) →
          ∃ u y x w, go = (u, none) ∧ u.fibre? r = some y ∧ y = { clear f with status := .blocked (.fleave w), since := s.now, waitAt := g.first }
            ∧ x ∈ u.frames ∧ x = { e with count := 0, leaver := some r } ∧ ∀ p ∈ u.pins, p.cell = g.cell.id → p.rel = 0))

/-! ### Matrix words -/

namespace Sys2Proof.Rules

/-- A word that acts once issues, and its lanes read: the lowest active one every field, the others their own data and the
queues that pop in every active lane (R305, R341). -/
structure Once (s : State) (g : Grp) (k : Hints) (ll : Bool) (srcs : List (Field × Bool)) (vals : Fibre → List DWord) : Prop where
  issues : Issues s g k
  room : ll = true → RoomLL s g
  reads : LowReads s g ll srcs vals

end Sys2Proof.Rules

/-- R343, R341: MDECL checks its tile and takes the next entry of the cell's table; every active lane gets its number, and a
refused tile traps in every active lane. The operands are those of the lowest active lane. -/
def Sys2Proof.Rules.MatrixDeclare : Prop :=
  ∀ (s : State) (g : Grp) (n : Fin 32) (b d : Name) (vals : Fibre → List DWord) (l : Fibre) (rest : List Fibre),
    let srcs := [(plainSrc b .b64, false), (plainSrc d .b32, false)]
    Once s g {} false srcs vals → (g.after s false).active = l :: rest →
    let base := (vals l).getD 0 0
    let dsc := loWord ((vals l).getD 1 0)
    let s' := lowTo s g false srcs
    let xs := lowVals s g false srcs vals
    let c := (g.low s false srcs).cell
    (mdeclCheck s' c base dsc = none →
      let k := c.mdecls % 2 ^ 32
      Ends (.mdecl (.w n) b d) s g (xs.foldl (fun s z => s.setFibre ⟨g.cell.id, z.1.idx⟩ fun f => f.setReg n.val (BitVec.ofNat 32 k))
        (s'.setCell g.cell.id fun c => { c with mdecls := (k + 1) % 2 ^ 32
                                                tiles := (k % 64, { base := base, dsc := dsc, num := BitVec.ofNat 32 k }) :: c.tiles.filter (·.1 != k % 64) })))
    ∧ ∀ t, mdeclCheck s' c base dsc = some t →
      Ends (.mdecl (.w n) b d) s g (takeTraps s' g.cell.id g.hatch (xs.map fun z => ⟨z.1.idx, t, g.first⟩))

namespace Sys2Proof.Rules
/-- The bytes of an element of a format, and the greatest k extent of a tile of it (R343). -/
def elemBytes (fmt : Nat) : Nat := if fmt = 0 then 1 else if fmt = 1 then 2 else 4
def kLimit (fmt : Nat) : Nat := if fmt = 0 then 64 else if fmt = 1 then 32 else 8
/-- n bits of a descriptor, from bit lo. -/
def bitsOf (w : Word) (lo n : Nat) : Nat := w.toNat / 2 ^ lo % 2 ^ n
/-- R343: a descriptor that breaks its table, for a greatest k extent. -/
def Breaks (w : Word) (K : Nat) : Prop :=
  bitsOf w 29 2 = 3 ∨ K < bitsOf w 18 6 + 1 ∨ bitsOf w 6 12 = 0 ∨ 16 * bitsOf w 6 12 < (bitsOf w 18 6 + 1) * elemBytes (bitsOf w 29 2)
    ∨ bitsOf w 0 5 ≠ 0
end Sys2Proof.Rules

/-- R155, checks 1, 3 and 4, on a span of bytes: it lies in the global window, in vaults, or in scratch, as a whole; its vaults are all of
the partition; it ends within the cell's scratch. -/
def Sys2Proof.Rules.SpanChecks : Prop :=
  ∀ (s : State) (c : Cell) (a n detail : Nat), 1 ≤ n →
    let fails (k : Cause) : Prop := checkSpan s c a n detail = some { cause := k, detail := detail, faddr := a }
    let vaults : Prop := vaultBase ≤ a ∧ a + n ≤ vaultBase + 192 * vaultSize
    let own : Prop := ∀ v, v < 192 → vaultBase + v * vaultSize < a + n → a < vaultBase + (v + 1) * vaultSize → s.hasVault c.part v = true
    (a + n ≤ vaultBase → checkSpan s c a n detail = none)
    ∧ (vaults → (own → checkSpan s c a n detail = none) ∧ (¬ own → fails .protectionFault))
    ∧ (scratchBase ≤ a → a + n ≤ scratchBase + 0xA0000 →
      if a + n ≤ scratchBase + c.scratchSize then checkSpan s c a n detail = none else fails .illegalAddress)
    ∧ (¬ a + n ≤ vaultBase → ¬ vaults → ¬ (scratchBase ≤ a ∧ a + n ≤ scratchBase + 0xA0000) → fails .illegalAddress)

/-- R343, R344, R347: what MDECL, MMA and MST refuse, in the order of their checks: a descriptor that breaks the table, a base that is no
multiple of 16, a span that R155 refuses, for MDECL that of its scale bytes too; handles that no longer hold, roles and formats that do
not fit the slot, scales that are missing. -/
def Sys2Proof.Rules.MatrixChecks : Prop :=
  ∀ (s : State) (c : Cell) (base : DWord) (w : Word),
    let b := base.toNat
    let (fmt, E, EK, step) := (bitsOf w 29 2, bitsOf w 24 5 + 1, bitsOf w 18 6 + 1, 16 * bitsOf w 6 12)
    ((Breaks w (kLimit fmt) → mdeclCheck s c base w = some { cause := .illegalAddress })
      ∧ (¬ Breaks w (kLimit fmt) → b % 16 ≠ 0 → mdeclCheck s c base w = some { cause := .misaligned, detail := 1, faddr := b })
      ∧ (¬ Breaks w (kLimit fmt) → b % 16 = 0 → mdeclCheck s c base w =
        match checkSpan s c b (step * (E - 1) + EK * elemBytes fmt) 1 with
        | some t => some t
        | none => if bitsOf w 5 1 = 1 then checkSpan s c (b + step * E) E 1 else none))
    ∧ (∀ (slot : Nat) (ha hb : Word) (ea eb : Tile), mmaCheck s c slot ha hb = some (ea, eb) ↔
      c.tileOf ha = some ea ∧ c.tileOf hb = some eb ∧ bitsOf ea.dsc 31 1 = 0 ∧ bitsOf eb.dsc 31 1 = 1
        ∧ bitsOf ea.dsc 29 2 = bitsOf eb.dsc 29 2 ∧ bitsOf ea.dsc 29 2 = (fmtSlot s c slot).toNat / 2 ^ 14
        ∧ ((fmtSlot s c slot).toNat / 2 ^ 10 % 4 = 1 → bitsOf ea.dsc 5 1 = 1 ∧ bitsOf eb.dsc 5 1 = 1))
    ∧ (∀ (h : Word) (e : Tile), c.tileOf h = some e ↔
      c.tiles.find? (·.1 == h.toNat % 64) = some (h.toNat % 64, e) ∧ e.num = h)
    ∧ ∀ t : TileState,
      let refused : Prop := bitsOf w 31 1 ≠ 0 ∨ (fmt ≠ 1 ∧ fmt ≠ 2) ∨ bitsOf w 5 1 ≠ 0 ∨ Breaks w 32
      (refused → mstCheck s c base w t = some { cause := .illegalAddress })
      ∧ (¬ refused → b % 16 ≠ 0 → mstCheck s c base w t = some { cause := .misaligned, detail := 2, faddr := b })
      ∧ (¬ refused → b % 16 = 0 →
        mstCheck s c base w t = checkSpan s c b (step * (min E t.rows - 1) + min EK t.cols * elemBytes fmt) 2)

/-- R344 to R347, R341, R342: MMA, MMA.hold, MRD and MST become one pending operation of the group, on its quadrant's unit,
with the operands of the lowest active lane; MWR and MZERO take their place in the order of their tile and hold no flag; MWR
carries the word of every active lane. What their checks refuse (MatrixChecks), and a row of 32 or more, traps in every active lane.
Log entry 33: the reading taken. -/
def Sys2Proof.Rules.MatrixWords : Prop :=
  ∀ (s : State) (g : Grp) (slot tile : Fin 8) (n : Fin 32) (a b : Name) (vals : Fibre → List DWord) (l : Fibre) (rest : List Fibre),
    let v (i : Nat) : DWord := (vals l).getD i 0
    (let srcs := [(plainSrc a .b32, false), (plainSrc b .b32, false)];
      NoTx s g true → Once s g {} true srcs vals → (g.after s true).active = l :: rest →
      let r := lowTo s g true srcs
      let g' := g.low s true srcs
      let xs := lowVals s g true srcs vals
      (∀ ea eb, mmaCheck r g'.cell slot.val (loWord (v 0)) (loWord (v 1)) = some (ea, eb) →
        let u (hold : Bool) : State := pendAll r g.cell.id (xs.map (·.1)) (.mma g'.quad tile.val slot.val hold ea eb 0)
        Ends (.mma slot tile a b) s g (u false) ∧ Ends (.mmaHold slot tile a b) s g (u true))
      ∧ (mmaCheck r g'.cell slot.val (loWord (v 0)) (loWord (v 1)) = none →
        let u := raiseLanes r g' (xs.map fun z => (z.1.idx, { cause := .illegalAddress }))
        Ends (.mma slot tile a b) s g u ∧ Ends (.mmaHold slot tile a b) s g u))
    ∧ (let srcs := [(plainSrc a .b32, false)];
      Once s g {} true srcs vals → (g.after s true).active = l :: rest →
      let xs := lowVals s g true srcs vals
      ((loWord (v 0)).toNat < 32 → Ends (.mrd (.w n) tile a) s g (pendAll (lowTo s g true srcs) g.cell.id (xs.map (·.1))
        (.mrd (g.low s true srcs).quad tile.val (loWord (v 0)).toNat (xs.map fun z => (⟨g.cell.id, z.1.idx⟩, z.1.base + n.val, z.1.lane)))))
      ∧ (32 ≤ (loWord (v 0)).toNat → Ends (.mrd (.w n) tile a) s g
        (raiseLanes (lowTo s g true srcs) (g.low s true srcs) (xs.map fun z => (z.1.idx, { cause := .illegalAddress })))))
    ∧ (let srcs := [(plainSrc a .b64, false), (plainSrc b .b32, false)];
      NoTx s g true → Once s g {} true srcs vals → (g.after s true).active = l :: rest →
      let r := lowTo s g true srcs
      let g' := g.low s true srcs
      let check := mstCheck r g'.cell (v 0) (loWord (v 1)) (tileExtents r g'.quad tile.val)
      (check = none →
        Ends (.mst tile a b) s g (pendAll r g.cell.id ((lowVals s g true srcs vals).map (·.1)) (.mst g'.quad tile.val (v 0) (loWord (v 1)) 0)))
      ∧ ∀ t, check = some t → Ends (.mst tile a b) s g (raiseLanes r g' ((lowVals s g true srcs vals).map fun z => (z.1.idx, t))))
    ∧ (let srcs := [(plainSrc a .b32, true), (plainSrc b .b32, false)];
      Once s g {} false srcs vals → (g.after s false).active = l :: rest →
      let g' := g.low s false srcs
      let xs := lowVals s g false srcs vals
      ((loWord (v 1)).toNat < 32 → Ends (.mwr tile a b) s g (postTile (lowTo s g false srcs) g' (.mwr g'.quad tile.val (loWord (v 1)).toNat
        (xs.map fun z => (z.1.lane, loWord (z.2.getD 0 0))) (g'.cell.part, g'.cell.fn)) tile.val))
      ∧ (32 ≤ (loWord (v 1)).toNat → Ends (.mwr tile a b) s g
        (raiseLanes (lowTo s g false srcs) g' (xs.map fun z => (z.1.idx, { cause := .illegalAddress })))))
    ∧ (Issues s g {} → (g.after s false).active = l :: rest →
      Ends (.mzero tile) s g (postTile (passed s g false) (g.after s false) (.mzero (g.after s false).quad tile.val (g.cell.part, g.cell.fn)) tile.val))

namespace Sys2Proof.Rules

/-- The residues of N modulo 251, 253 and 255 (R147). -/
def channels (N : Int) : Nat × Nat × Nat := ((N % 251).toNat, (N % 253).toNat, (N % 255).toNat)
/-- The term that a closing run adds to element n of its tile (R147). -/
def runTerm (t : TileState) (n : Nat) (ch : Nat × Nat × Nat) : Word × Word :=
  let scale (k : Nat) : Nat := if t.runScales = [] then 127 else (t.runScales.getD k 0).toNat
  let (ea, eb) := (scale (n / 32), scale (t.runRows + n % 32))
  if n / 32 ∈ t.voidRows ∨ n % 32 ∈ t.voidCols ∨ ea = 255 ∨ eb = 255 then (0x7FC00000, 0)
  else rne32 (.fin (decide (crt ch < 0)) (crt ch).natAbs 1 ((ea : Int) + eb - 254))

/-- R144, R147, R148: a row of an RN8 MMA adds the products of its valid bytes to the residue channels of the row and keeps which rows
and columns read a void; the integer comes back from its residues; the close of a run scales each one, rounds once, and adds it to
its element. -/
def ResidueRuns : Prop :=
  (∀ N : Int, -8096632 ≤ N → N ≤ 8096632 → crt (channels N) = N)
  ∧ (∀ (sym : Bool) (eb kk i : Nat) (m : List (Nat × Word)) (t : TileState) (A : Nat → Int) (B : Nat → Nat → Int),
    i < 32 → eb ≤ 32 → kk ≤ 64 → swf noChan t.chans = true →
    let byteA (k : Nat) : Byte := (wordOf m (64 * i + k)).setWidth 8
    let byteB (j k : Nat) : Byte := (wordOf m (4096 + 64 * j + k)).setWidth 8
    let void (b : Byte) : Prop := 7 ≤ b.toNat / 32 ∨ b.toNat % 4 = 3 ∨ (sym = true ∧ b = 0x10)
    let holds (b : Byte) (v : Int) : Prop := (void b → v = 0) ∧ (¬ void b → -84 ≤ v ∧ v ≤ 83 ∧ b.toNat = residues v)
    (∀ k, k < kk → holds (byteA k) (A k)) → (∀ j k, j < eb → k < kk → holds (byteB j k) (B j k)) →
    let u := rn8Row sym eb kk m i t
    (∀ j N, j < eb → sget noChan t.chans (32 * i + j) = channels N ∨ (sget noChan t.chans (32 * i + j) = noChan ∧ N = 0) →
      sget noChan u.chans (32 * i + j) = channels (N + ((List.range kk).map fun k => A k * B j k).sum))
    ∧ (∀ n, n < 32 * i ∨ 32 * i + eb ≤ n → sget noChan u.chans n = sget noChan t.chans n)
    ∧ (∀ r, r ∈ u.voidRows ↔ r ∈ t.voidRows ∨ (r = i ∧ ∃ k, k < kk ∧ void (byteA k)))
    ∧ (∀ j, j ∈ u.voidCols ↔ j ∈ t.voidCols ∨ (j < eb ∧ ∃ k, k < kk ∧ void (byteB j k)))
    ∧ u = { t with chans := u.chans, voidRows := u.voidRows, voidCols := u.voidCols })
  ∧ ∀ t : TileState, swf noChan t.chans = true → swf (0 : Word) t.elems = true →
    let u := closeRun t
    let sum (n : Nat) (ch : Nat × Nat × Nat) := fop32 .add .rne 0 (sget 0 t.elems n) (runTerm t n ch).1 0
    (∀ n ch, (n, ch) ∈ t.chans → sget 0 u.1.elems n = (sum n ch).1)
    ∧ (∀ n, sget noChan t.chans n = noChan → sget 0 u.1.elems n = sget 0 t.elems n)
    ∧ u.1 = { t with elems := u.1.elems, wroteBy := u.1.wroteBy, runLen := 0, runSlot := 0, runScales := [], chans := []
                     voidRows := [], voidCols := [], runRows := 0, runCols := 0 }
    ∧ ∀ b, u.2.getLsbD b = true ↔ ∃ x ∈ t.chans, ((runTerm t x.1 x.2).2 ||| (sum x.1 x.2).2).getLsbD b = true

/-- R149, R150: a row of a BF16 or an FP32 MMA takes each element through two chains of exact products, the even k from the element,
the odd k from +0, and adds them; a k beyond an extent is a zero product. -/
def ChainRows : Prop :=
  ∀ (by_ : Option (Nat × Nat)) (fmt eb kk i : Nat) (m : List (Nat × Word)) (t : TileState) (e o : Nat → Nat → Word × Word),
    fmt = 1 ∨ fmt = 2 → i < 32 → eb ≤ 32 → swf (0 : Word) t.elems = true →
    let half := if fmt = 1 then 16 else 4
    let put (n k : Nat) : Word := if kk ≤ k then 0 else if fmt = 1 then wordOf m (n + k) <<< 16 else wordOf m (n + k)
    let step (j k : Nat) (x : Word × Word) : Word × Word :=
      let r := fop32 .mac .rne 0 (put (64 * i) k) (put (4096 + 64 * j) k) x.1
      (r.1, x.2 ||| r.2)
    (∀ j, j < eb → e j 0 = (sget 0 t.elems (32 * i + j), 0) ∧ o j 0 = (0, 0)
      ∧ ∀ k, k < half → e j (k + 1) = step j (2 * k) (e j k) ∧ o j (k + 1) = step j (2 * k + 1) (o j k)) →
    let sum (j : Nat) := fop32 .add .rne 0 (e j half).1 (o j half).1 0
    let u := chainRow by_ fmt eb kk m i t
    (∀ j, j < eb → sget 0 u.1.elems (32 * i + j) = (sum j).1)
    ∧ (∀ n, n < 32 * i ∨ 32 * i + eb ≤ n → sget 0 u.1.elems n = sget 0 t.elems n)
    ∧ u.1 = { t with elems := u.1.elems, wroteBy := u.1.wroteBy }
    ∧ ∀ b, u.2.getLsbD b = true ↔ ∃ j, j < eb ∧ ((e j half).2 ||| (o j half).2 ||| (sum j).2).getLsbD b = true

/-- R147, R148, R344: an MMA takes its rows in ascending order; an open run with another slot or other scales is closed before it; an
RN8 MMA joins the run, or opens one, and closes it unless it is held and not the sixteenth; slot and extents are recorded. -/
def MmaRuns : Prop :=
  ∀ (s : State) (c : Cell) (unit tile slot : Nat) (ea eb : Tile) (m : List (Nat × Word)) (lo hi : Nat),
    let t := s.tile unit tile
    let (da, db) := (dscOf ea.dsc, dscOf eb.dsc)
    let kk := min da.kext db.kext
    let scl : Bool := fmtSCL (fmtSlot s c slot) == 1
    let sym := fmtSYM (fmtSlot s c slot)
    let scales : List Byte := if scl then (List.range da.outer).map (fun i => (wordOf m (8192 + i)).setWidth 8)
      ++ (List.range db.outer).map fun j => (wordOf m (8224 + j)).setWidth 8 else []
    let differs : Prop := t.runSlot ≠ slot ∨ t.runScales ≠ scales ∨ (scl = true ∧ (t.runRows ≠ da.outer ∨ t.runCols ≠ db.outer))
    let rows := (List.range (hi - lo)).map (lo + ·)
    let go := mmaRows s c unit tile slot ea eb m lo hi
    (lo = 0 → 0 < t.runLen → differs →
      go = mmaRows (s.closeTile unit tile (some c.id)) c unit tile slot ea eb m lo hi)
    ∧ (lo ≠ 0 ∨ t.runLen = 0 ∨ ¬ differs →
      (da.fmt ≠ 0 → let w := rows.foldl (fun (w : TileState × Word) i =>
          let r := chainRow (some (c.part, c.fn)) da.fmt db.outer kk m i w.1
          (r.1, w.2 ||| r.2)) (t, 0)
        go = (s.setTile unit tile { w.1 with leftBy := some (c.part, c.fn) }).orArith c.id w.2)
      ∧ (da.fmt = 0 →
        let t0 : TileState := if lo = 0 ∧ t.runLen = 0 then
          { t with runSlot := slot, runScales := scales, runRows := da.outer, runCols := db.outer, chans := [], voidRows := [], voidCols := [] } else t
        let u := s.setTile unit tile { rows.foldl (fun t i => rn8Row sym db.outer kk m i t) t0 with leftBy := some (c.part, c.fn) }
        let void : Prop := ∃ i k, i ∈ rows ∧ k < kk ∧ (voidByte sym m (64 * i + k) = true ∨ ∃ j, j < db.outer ∧ voidByte sym m (4096 + 64 * j + k) = true)
        (void → go = (u.setMx unit (u.mx unit ||| 1)).setMxBy unit c.part c.fn) ∧ (¬ void → go = u)))
    ∧ ∀ hold : Bool,
      let noted (x : TileState) : TileState := { x with slot := slot, rows := da.outer, cols := db.outer, leftBy := some (c.part, c.fn) }
      let fin (u : State) : State := u.setTile unit tile (noted (u.tile unit tile))
      let counted := s.setTile unit tile { t with runLen := t.runLen + 1 }
      mmaEnd s c unit tile slot hold ea eb =
        if da.fmt ≠ 0 then fin s else if hold = true ∧ t.runLen + 1 < 16 then fin counted else fin (counted.closeTile unit tile (some c.id))

/-- R342, R344, R346, R347: an MMA whose elements are all read takes its rows when it is the first of its tile's order; MWR writes its
words and MZERO zeroes the tile, with recorded slot 0 and extents 32 by 32; MST closes the run and takes the elements within the
recorded extents, narrowed to BF16 or as they stand. The close of a run sets its status bits in the cell of an MMA or an MST, and for an
MRD or an MWR in none. Log entry 33: the reading taken. -/
def TileOrder : Prop :=
  (∀ (s : State) (o : Op) (c : Cell) (mask unit tile slot row : Nat) (hold : Bool) (ea eb : Tile) (m : List (Nat × Word)),
    s.op? o.id = some o → s.cell? o.owner.cell = some c → c.resident = true → o.refused = none → o.after = [] →
    o.kind = .mma unit tile slot hold ea eb row → o.result = some m → s.atHead o = true →
    (m.map (·.1)) = (mmaElems ea eb (fmtSCL (fmtSlot s c slot) == 1)).map (·.1) →
    exec (.longLatencyComplete o.id mask) s = .next (afterAll (drainAll (finishOp (mmaEnd
      (mmaRows (s.setOp o.id fun o => { o with result := some m }) c unit tile slot ea eb m row (dscOf ea.dsc).outer)
      c unit tile slot hold ea eb) o) unit tile)))
  ∧ (∀ (s : State) (unit t : Nat) (cell : Option Nat), let (x, st) := closeRun (s.tile unit t)
    s.closeTile unit t cell = (match cell with | some c => (s.setTile unit t x).orArith c st | none => s.setTile unit t x)
    ∧ (s.setTile unit t x).tile unit t = x)
  ∧ (∀ (s : State) (unit t row : Nat) (vals : List (Nat × Word)) (by_ : Option (Nat × Nat)), row < 32 → (∀ x ∈ vals, x.1 < 32) →
    (vals.map (·.1)).Nodup → swf (0 : Word) (closeRun (s.tile unit t)).1.elems = true →
    let u := (mwrTile s unit t row vals by_).tile unit t
    (∀ x ∈ vals, sget 0 u.elems (32 * row + x.1) = x.2)
    ∧ (∀ n, (∀ x ∈ vals, n ≠ 32 * row + x.1) → sget 0 u.elems n = sget 0 (closeRun (s.tile unit t)).1.elems n)
    ∧ u.slot = 0 ∧ u.rows = 32 ∧ u.cols = 32 ∧ u.runLen = 0)
  ∧ (∀ (s : State) (o : Op) (unit t fuel : Nat), (s.ops.find? fun x => x.tileTurn == some (unit, t) && !s.away x) = some o →
    let rest : State := { s with ops := s.ops.filter (·.id != o.id) }
    (∀ row vals b, o.kind = .mwr unit t row vals b → drainTile s unit t (fuel + 1) = drainTile (mwrTile rest unit t row vals (some b)) unit t fuel)
    ∧ ∀ b, o.kind = .mzero unit t b → ∃ z : TileState, drainTile s unit t (fuel + 1) = drainTile (rest.setTile unit t z) unit t fuel
      ∧ z.elems = [] ∧ z.slot = 0 ∧ z.rows = 32 ∧ z.cols = 32 ∧ z.runLen = 0)
  ∧ ∀ (t : TileState) (d : Dsc) (clp : Bool), t.cols ≤ 32 →
    let r (n : Nat) : Word × Word := if d.fmt = 1 then narrow clp (sget 0 t.elems n) else (sget 0 t.elems n, 0)
    let taken (n : Nat) : Prop := n / 32 < min d.outer t.rows ∧ n % 32 < min d.kext t.cols
    (∀ n w, (n, w) ∈ (mstWords t d clp).1 ↔ taken n ∧ w = (r n).1)
    ∧ ∀ b, (mstWords t d clp).2.getLsbD b = true ↔ ∃ n, taken n ∧ (r n).2.getLsbD b = true

end Sys2Proof.Rules

/-! ### Plate, draft and queue words -/

/-- R70, R353: in a plate's cell RESID folds the absolute values that every active lane reads into what the cell will
report, a NaN as +∞ with NV; in any other cell it changes nothing. -/
def Sys2Proof.Rules.ResidWord : Prop :=
  ∀ (s : State) (g : Grp) (a b : Name) (x y : Fibre → DWord),
    Words s g {} false [plainSrc a .b32, plainSrc b .b32] (fun l => [x l, y l]) →
    let r := readTo s g false [a, b]
    let fold (w : Word) : Word := if isNan w then 0x7F800000 else w &&& 0x7FFFFFFF
    let big (u v : Word) : Word := if u.toNat < v.toNat then v else u
    (kindOf s g.cell ≠ .plate → Ends (.resid a b) s g r)
    ∧ (kindOf s g.cell = .plate → Ends (.resid a b) s g ((readVals s g false [a, b] fun l => [x l, y l]).foldl (fun s z =>
        let v := loWord (z.2.getD 0 0)
        let d := loWord (z.2.getD 1 0)
        (s.setCell g.cell.id fun c => { c with repV := big c.repV (fold v), repD := big c.repD (fold d) }).orArith g.cell.id
          ((if isNan v then stNV else 0) ||| (if isNan d then stNV else 0))) r))

/-- R71, R358: SETTLE in an update blocks every fibre present until the commit, and ends the cell's pins; in a grid's cell, and
after the commit, it is a QUIT of every fibre present. -/
def Sys2Proof.Rules.SettleWord : Prop :=
  ∀ (s : State) (g : Grp), Issues s g {} → AllOutside s g → (g.after s false).members ≠ [] →
    (∀ m ∈ (g.after s false).members, ∀ a ∈ s.accs, a.of ⟨g.cell.id, m.idx⟩ = true → ∀ c, a.stage ≠ .refused c) →
    (∀ m ∈ (g.after s false).members, ∀ o ∈ s.ops, o.fibres.any (·.1 == ⟨g.cell.id, m.idx⟩) = true → o.refused = none) →
    let g' := g.after s false
    (kindOf s g.cell ≠ .grid → g.cell.settled = false →
      Ends .settle s g (waiting (endPins (passed s g false) (·.cell == g.cell.id)) g' g'.members .settle))
    ∧ ((kindOf s g.cell = .grid ∨ g.cell.settled = true) →
      exec .settle s = .next (closeUnit (sameIssue s.next (eachLane (passed s g false) g.cell.id (g'.members.map fun f => (f, []))
        fun s l _ => s.setFibre ⟨g.cell.id, l.idx⟩ fun f => quitting s g f)) g'))

namespace Sys2Proof.Rules
/-- R80: the operands of a PROOF pass its checks. -/
def ProofOk (s : State) (c : Cell) (dst a n : Nat) : Prop :=
  1 ≤ n ∧ n ≤ 64 ∧ dst % 16 = 0 ∧ checkAddr s c a 4 1 false = none ∧ dst + 4 * n + 16 ≤ c.scratchSize
/-- 64 bytes of a cell's scratch at an aligned offset. -/
def RecordAt (c : Cell) (off : Nat) : Prop := off % 64 = 0 ∧ off + 64 ≤ c.scratchSize
end Sys2Proof.Rules

/-- R80, R86, R87, R190, R242, R247: PROOF, TQPUSH, TQPOP, QPOST and ECMD act in each active lane, those that read scratch once no own
store of those 64 bytes and no acquire is pending (PendingLanes). Where every lane's operands pass the checks they complete, and each
lane has its operation pending. -/
def Sys2Proof.Rules.PlateAndPostWords : Prop :=
  ∀ (s : State) (g : Grp) (d a b c : Name) (x y z : Fibre → DWord), NoTx s g true →
    let each (i : Instr) (srcs : List Field) (vals : Fibre → List DWord) (op : State → Fibre → List DWord → OpKind) : Prop :=
      let names := srcs.map (·.1.name)
      exec i s = .next (closeUnit (sameIssue s.next (eachLane (readTo s g true names) g.cell.id (readVals s g true names vals)
        fun u f vs => pendAll u g.cell.id [f] (op u f vs))) (g.after s true))
    let bytes (u : State) (off : Nat) : List Byte := bytesAt (((u.cell? g.cell.id).map (·.scratch)).getD []) off 64
    (let srcs : List Field := [plainSrc a .b32, plainSrc b .b64, plainSrc c .b32];
      Words s g {} true srcs (fun l => [x l, y l, z l]) →
      Runs (.proof a b c) s g true srcs (fun l => [x l, y l, z l]) (fun g s f vs =>
        proofLane g (loWord (vs.getD 0 0)).toNat (vs.getD 1 0).toNat (loWord (vs.getD 2 0)).toNat s f)
      ∧ ((∀ l ∈ (g.after s true).active, ProofOk s g.cell (loWord (x l)).toNat (y l).toNat (loWord (z l)).toNat) →
        each (.proof a b c) srcs (fun l => [x l, y l, z l]) fun _ _ vs =>
          .proof (loWord (vs.getD 0 0)).toNat (vs.getD 1 0).toNat (loWord (vs.getD 2 0)).toNat))
    ∧ (let srcs : List Field := [plainSrc a .b32, plainSrc b .b64];
      Words s g {} true srcs (fun l => [x l, y l]) →
      (∀ l ∈ (g.after s true).active, scratchWaits s g.cell l (loWord (x l)).toNat = false) →
      Runs (.tqpush d a b) s g true srcs (fun l => [x l, y l]) (fun g s f vs =>
        tqpushLane (nameWin d) g (loWord (vs.getD 0 0)).toNat (vs.getD 1 0).toNat s f)
      ∧ ((∀ l ∈ (g.after s true).active, RecordAt g.cell (loWord (x l)).toNat ∧ checkAddr s g.cell (y l).toNat 1 3 false = none) →
        each (.tqpush d a b) srcs (fun l => [x l, y l]) fun u f vs =>
          .tqpush (vs.getD 1 0).toNat (bytes u (loWord (vs.getD 0 0)).toNat) (f.base + nameWin d)))
    ∧ (let srcs : List Field := [plainSrc a .b32, plainSrc b .b32];
      Words s g {} true srcs (fun l => [x l, y l]) →
      Runs (.tqpop d a b) s g true srcs (fun l => [x l, y l]) (fun g s f vs =>
        tqpopLane (nameWin d) g (loWord (vs.getD 0 0)).toNat (loWord (vs.getD 1 0)).toNat s f)
      ∧ ((∀ l ∈ (g.after s true).active, let n := (loWord (y l)).toNat
          1 ≤ n ∧ n ≤ 16 ∧ (loWord (x l)).toNat % 64 = 0 ∧ (loWord (x l)).toNat + 64 * n ≤ g.cell.scratchSize) →
        each (.tqpop d a b) srcs (fun l => [x l, y l]) fun _ f vs =>
          .tqpop (loWord (vs.getD 0 0)).toNat (loWord (vs.getD 1 0)).toNat (f.base + nameWin d)))
    ∧ (let srcs : List Field := [plainSrc a .b64, plainSrc b .b32];
      Words s g {} true srcs (fun l => [x l, y l]) →
      (∀ l ∈ (g.after s true).active, scratchWaits s g.cell l (loWord (y l)).toNat = false) →
      Runs (.qpost d a b) s g true srcs (fun l => [x l, y l]) (fun g s f vs =>
        postLane .qpost false (nameWin d) g (vs.getD 0 0).toNat (loWord (vs.getD 1 0)).toNat s f)
      ∧ Runs (.ecmd d a b) s g true srcs (fun l => [x l, y l]) (fun g s f vs =>
        postLane .ecmd true (nameWin d) g (vs.getD 0 0).toNat (loWord (vs.getD 1 0)).toNat s f)
      ∧ ((∀ l ∈ (g.after s true).active, RecordAt g.cell (loWord (y l)).toNat ∧ (x l).toNat % 64 = 0) →
        each (.qpost d a b) srcs (fun l => [x l, y l]) (fun u f vs =>
          .qpost (vs.getD 0 0).toNat (bytes u (loWord (vs.getD 1 0)).toNat) (f.base + nameWin d))
        ∧ ((∀ l ∈ (g.after s true).active, window (x l).toNat ≠ none) → each (.ecmd d a b) srcs (fun l => [x l, y l]) fun u f vs =>
          .ecmd (vs.getD 0 0).toNat (bytes u (loWord (vs.getD 1 0)).toNat) (f.base + nameWin d))))

/-- R80, R86, R87, R155, R242, R247: one lane of these words: the checks that trap, in their order, and the operation that becomes
pending, with the 64 bytes of scratch read at issue. ECMD makes check 1 of R155 on its header too; that the alignments and the scratch
come before it is a reading (log entry 52). -/
def Sys2Proof.Rules.PendingLanes : Prop :=
  ∀ (s : State) (g : Grp) (c : Cell) (f : Fibre) (d dst a n off : Nat), s.cell? g.cell.id = some c → c.scratchSize = g.cell.scratchSize →
    let size := g.cell.scratchSize
    let posts (go : State × Option Trap) (k : OpKind) (more : Prop) : Prop :=
      let fails (k : Cause) (d x : Nat) : Prop := go = (s, some { cause := k, detail := d, faddr := x })
      (a % 64 ≠ 0 → fails .misaligned 3 a)
      ∧ (a % 64 = 0 → off % 64 ≠ 0 → fails .misaligned 1 off)
      ∧ (a % 64 = 0 → off % 64 = 0 → size < off + 64 → fails .illegalAddress 1 off)
      ∧ (a % 64 = 0 → off % 64 = 0 → off + 64 ≤ size →
        (more → go = (pendAll s g.cell.id [f] k, none)) ∧ (¬ more → fails .illegalAddress 3 a))
    ((n < 1 ∨ 64 < n) → proofLane g dst a n s f = (s, some { cause := .illegalAddress }))
    ∧ (1 ≤ n → n ≤ 64 → dst % 16 ≠ 0 → proofLane g dst a n s f = (s, some { cause := .misaligned, detail := 2, faddr := dst }))
    ∧ (1 ≤ n → n ≤ 64 → dst % 16 = 0 → ∀ t, checkAddr s g.cell a 4 1 false = some t → proofLane g dst a n s f = (s, some t))
    ∧ (1 ≤ n → n ≤ 64 → dst % 16 = 0 → checkAddr s g.cell a 4 1 false = none → size < dst + 4 * n + 16 →
      proofLane g dst a n s f = (s, some { cause := .illegalAddress, detail := 2, faddr := dst }))
    ∧ (ProofOk s g.cell dst a n → proofLane g dst a n s f = (pendAll s g.cell.id [f] (.proof dst a n), none))
    ∧ (off % 64 ≠ 0 → tqpushLane d g off a s f = (s, some { cause := .misaligned, detail := 1, faddr := off }))
    ∧ (off % 64 = 0 → size < off + 64 → tqpushLane d g off a s f = (s, some { cause := .illegalAddress, detail := 1, faddr := off }))
    ∧ (off % 64 = 0 → off + 64 ≤ size → ∀ t, checkAddr s g.cell a 1 3 false = some t → tqpushLane d g off a s f = (s, some t))
    ∧ (off % 64 = 0 → off + 64 ≤ size → checkAddr s g.cell a 1 3 false = none →
      tqpushLane d g off a s f = (pendAll s g.cell.id [f] (.tqpush a (bytesAt c.scratch off 64) (f.base + d)), none))
    ∧ ((n < 1 ∨ 16 < n) → tqpopLane d g off n s f = (s, some { cause := .illegalAddress }))
    ∧ (1 ≤ n → n ≤ 16 → off % 64 ≠ 0 → tqpopLane d g off n s f = (s, some { cause := .misaligned, detail := 2, faddr := off }))
    ∧ (1 ≤ n → n ≤ 16 → off % 64 = 0 → size < off + 64 * n →
      tqpopLane d g off n s f = (s, some { cause := .illegalAddress, detail := 2, faddr := off }))
    ∧ (1 ≤ n → n ≤ 16 → off % 64 = 0 → off + 64 * n ≤ size →
      tqpopLane d g off n s f = (pendAll s g.cell.id [f] (.tqpop off n (f.base + d)), none))
    ∧ posts (postLane .qpost false d g a off s f) (.qpost a (bytesAt c.scratch off 64) (f.base + d)) True
    ∧ posts (postLane .ecmd true d g a off s f) (.ecmd a (bytesAt c.scratch off 64) (f.base + d)) (window a ≠ none)

/-- R182 to R184, R306: DRAFT, ACCEPT and DISCARD act once for the cell, with the operands of the lowest active lane. Log
entry 30: the reading taken. -/
def Sys2Proof.Rules.DraftWords : Prop :=
  ∀ (s : State) (g : Grp) (n : Fin 8) (a b : Name) (vals : Fibre → List DWord) (l : Fibre) (rest : List Fibre), NoTx s g false →
    (let srcs := [(plainSrc a .b64, false), (plainSrc b .b32, false)];
      Once s g {} false srcs vals → (g.after s false).active = l :: rest →
      s.acqPending ⟨g.cell.id, l.idx⟩ = false → s.ownPosted ⟨g.cell.id, l.idx⟩ ((vals l).getD 0 0).toNat 64 = false →
      heldBack (lowTo s g false srcs) [] g.cell.part g.cell.fn ((vals l).getD 0 0).toNat 64 = false →
      let c := (g.low s false srcs).cell
      openBusy s c l n.val = false →
      (∀ d, draftAt (lowTo s g false srcs) c l ((vals l).getD 0 0).toNat (loWord ((vals l).getD 1 0)).toNat = .ok d → draftBusy s c l d = false) →
      RunsOn (.draft n a b) s g (lowTo s g false srcs) ((lowVals s g false srcs vals).take 1) fun s f vs =>
        draftOpen n.val (vs.getD 0 0).toNat (loWord (vs.getD 1 0)).toNat f.pc s c f)
    ∧ (Issues s g {} → (g.after s false).active = l :: rest →
      ((g.after s false).cell.drafts.any (·.1 == n.val) = true → openBusy s (g.after s false).cell l n.val = false →
        Ends (.discard n) s g ((lowTo s g false []).setCell g.cell.id fun c => { c with drafts := c.drafts.filter (·.1 != n.val) }))
      ∧ ((g.after s false).cell.drafts.any (·.1 == n.val) = false →
        Ends (.discard n) s g (raiseLanes (lowTo s g false []) (g.low s false []) [(l.idx, { cause := .illegalAddress, detail := 2 })])))
    ∧ (∀ (u : State) (c : Cell) (f : Fibre), openBusy u c f n.val = c.drafts.any (fun x => x.1 == n.val && draftBusy u c f x.2)
      ∧ ∀ d, draftBusy u c f d = u.ownOver ⟨c.id, f.idx⟩ u.next (d.base + 64 + d.lc * d.sz) (d.cap * d.sz))
    ∧ (let srcs := [(plainSrc a .b32, false)];
      let sp := acceptPins n.val s;
      Once sp g {} false srcs vals → NoTx sp g false → (g.after sp false).active = l :: rest →
      let r := lowTo sp g false srcs
      let c := (g.low sp false srcs).cell
      parkDue r ⟨g.cell.id, l.idx⟩ .stores = none →
      (r.coverage ⟨g.cell.id, l.idx⟩).all (r.performed .dev) = true → r.invalsClear c.cluster = true → r.pins = [] →
      (∀ f ∈ r.fns, f.relBusy = false) →
      RunsOn (.accept n a) s g r ((lowVals sp g false srcs vals).take 1) fun s f vs => acceptNow n.val (loWord (vs.getD 0 0)).toNat s c f)

/-- R155, R183 to R185: what DRAFT and ACCEPT do in the one lane that acts: DRAFT checks the base and the header and opens the region
with an acquire at device scope; ACCEPT brings the tentative bytes of the slots it takes, and the new LC, to their homes and drops the
others. No L1 block of the cluster holds a slot that is tentative from then on. Log entry 30: the reading taken. -/
def Sys2Proof.Rules.DraftLanes : Prop :=
  ∀ (s : State) (c : Cell) (f : Fibre) (n : Nat), s.cell? c.id = some c → c.fibre? f.idx = some f →
    let traps (x : State × Option Trap) (k : Cause) (d a : Nat) : Prop := x = (s, some { cause := k, detail := d, faddr := a })
    let windowGone (u : State) (d : Draft) : Prop := ∀ b ∈ u.blocks, ¬ (b.cluster = c.cluster ∧ b.asid = some (s.asid c.part c.fn)
      ∧ b.base < d.base + 64 + (d.lc + d.cap) * d.sz ∧ d.base + 64 + d.lc * d.sz < b.base + b.bytes.length)
    let region (x : Cell) (d : Draft) : Prop := x.drafts.find? (·.1 == n) = some (n, d)
      ∧ ∀ k, k ≠ n → x.drafts.find? (·.1 == k) = c.drafts.find? (·.1 == k)
    (∀ (base cap : Nat) (at_ : DWord), let go := draftOpen n base cap at_ s c f
      (∀ t, checkAddr s c base 64 1 true = some t → go = (s, some t))
      ∧ (checkAddr s c base 64 1 true = none →
        (window base ≠ some .global → traps go .illegalAddress 1 base)
        ∧ (window base = some .global →
          (∀ y e, homeRead s (c.who f.sup) base .read 64 = .error (y, e) → traps go e 1 y)
          ∧ ∀ bs, homeRead s (c.who f.sup) base .read 64 = .ok bs →
            let (sz, lc) := (field bs 32 16, field bs 0 32)
            (field bs 48 464 ≠ 0 ∨ sz % 64 ≠ 0 ∨ sz < 64 ∨ 16384 < sz ∨ cap = 0 ∨ 65536 < cap * sz → traps go .illegalAddress 1 base)
            ∧ (field bs 48 464 = 0 → sz % 64 = 0 → 64 ≤ sz → sz ≤ 16384 → cap ≠ 0 → cap * sz ≤ 65536 →
              let d : Draft := { base := base, sz := sz, lc := lc, cap := cap }
              ∃ u x c', go = (u, none) ∧ u.cell? c.id = some c' ∧ c'.fibre? f.idx = some x ∧ region c' d ∧ windowGone u d
                ∧ c' = { c with drafts := c'.drafts, fibres := c'.fibres } ∧ (∀ i, i ≠ f.idx → c'.fibre? i = c.fibre? i)
                ∧ x = (if s.invalsClear c.cluster then { f with status := .ready }
                       else { f with status := .fence false false .coh [], since := s.now, waitAt := at_ })
                ∧ u = { touchHomes s (c.who f.sup) none false .read base 64 with cells := u.cells, blocks := u.blocks }))))
    ∧ ∀ count : Nat, let go := acceptNow n count s c f
      (c.drafts.find? (·.1 == n) = none → traps go .illegalAddress 2 0)
      ∧ ∀ d, c.drafts.find? (·.1 == n) = some (n, d) →
        (∀ t, parkDue s ⟨c.id, f.idx⟩ .stores = some t → go = (s, some t))
        ∧ (parkDue s ⟨c.id, f.idx⟩ .stores = none →
          let m := min count d.cap
          let put := landAll s c f.sup ((d.bytes.filter fun x => x.1 < d.base + 64 + (d.lc + m) * d.sz)
            ++ (bytesOfNat 4 (d.lc + m)).zipIdx.map fun x => (d.base + x.2, x.1))
          (∀ a e, put = .error (a, e) → traps go e (if e = .uncorrectable then 1 else 2) a)
          ∧ ∀ t, put = .ok t → ∃ u c', go = (u, none) ∧ u.cell? c.id = some c' ∧ region c' { d with lc := d.lc + m, bytes := [] }
            ∧ windowGone u { d with lc := d.lc + m } ∧ c' = { c with drafts := c'.drafts }
            ∧ u = { t with cells := u.cells, blocks := u.blocks })

/-- R317, R250, R244, R201: EWAIT and WAITS act in each active lane, once nothing holds back what they read; an EWAIT whose
lanes all know how their commands ended is then over (releaseEwaits). -/
def Sys2Proof.Rules.WaitWords : Prop :=
  ∀ (s : State) (g : Grp) (n : Fin 32) (a b : Name) (x y : Fibre → DWord), NoTx s g false →
    (Words s g {} false [plainSrc a .b64, plainSrc b .b32] (fun l => [x l, y l]) →
      (∀ l ∈ (g.after s false).active, heldBack (readTo s g false [a, b]) [] g.cell.part g.cell.fn (x l).toNat 64 = false
        ∧ s.acqPending ⟨g.cell.id, l.idx⟩ = false
        ∧ ∀ at_, ewaitStatus (readTo s g false [a, b]) (g.cell.who l.sup) (x l).toNat (loWord (y l)) = some at_ →
            heldBack (readTo s g false [a, b]) [] g.cell.part g.cell.fn at_ 1 = false) →
      let g' := g.read s false [a, b]
      ∀ u, laneRun g.cell.id (fun s f vs => ewaitLane g' (vs.getD 0 0).toNat (loWord (vs.getD 1 0)) s f)
          (readTo s g false [a, b]) (readVals s g false [a, b] fun l => [x l, y l]) = some u →
        Ends (.ewait a b) s g (releaseEwaits u g.cell.id))
    ∧ (Words s g {} false [plainSrc a .b64, plainSrc b .b64] (fun l => [x l, y l]) →
      (∀ l ∈ (g.after s false).active, heldBack (readTo s g false [a, b]) [] g.cell.part g.cell.fn (x l).toNat 8 = false
        ∧ s.ownPosted ⟨g.cell.id, l.idx⟩ (x l).toNat 8 = false ∧ s.acqPending ⟨g.cell.id, l.idx⟩ = false) →
      Runs (.waits (.w n) a b) s g false [plainSrc a .b64, plainSrc b .b64] (fun l => [x l, y l]) fun g s f vs =>
        waitsLane n.val g (vs.getD 0 0).toNat (vs.getD 1 0) s f)

/-- R317, R169, R250: EWAIT in one lane: the checks that trap; what it waits with: none while the command has yet to complete, else whether it
failed, which command 0 never does. -/
def Sys2Proof.Rules.EwaitLane : Prop :=
  ∀ (s : State) (g : Grp) (h : Nat) (n : Word) (f : Fibre), f.again = none →
    let go := ewaitLane g h n s f
    let fails (k : Cause) (a : Nat) : Prop := go = (s, some { cause := k, detail := 1, faddr := a })
    let who := g.cell.who f.sup
    (h % 64 ≠ 0 → fails .misaligned h)
    ∧ (h % 64 = 0 → regAt s g.cell.part g.cell.fn h true = none → fails .illegalAddress h)
    ∧ ∀ q, h % 64 = 0 → regAt s g.cell.part g.cell.fn h true = some q →
      let waits (reads : List Nat) (e : Option Bool) : Prop := go = (touchEach (s.setFibre ⟨g.cell.id, f.idx⟩ fun x =>
        { x with status := .blocked (.ewait q.id n e), since := s.now, waitAt := g.first, again := none }) who .read reads, none)
      (n = 0 → waits [] (some false))
      ∧ (n ≠ 0 → (∀ a e, homeRead s who h .read 64 = .error (a, e) → fails e a)
        ∧ ∀ bs, homeRead s who h .read 64 = .ok bs →
          let word (lo : Nat) : Word := BitVec.ofNat 32 (field bs lo 32)
          let size := field bs 64 32
          let slot := field bs 0 64 + 64 * ((n - 1).toNat % size) + 36
          let done : Prop := 0 ≤ (word 224 - n).toInt
          ((size : Int) ≤ (word 160 - n).toInt → fails .illegalAddress h)
          ∧ ((word 160 - n).toInt < size → ¬ done → waits [h] none)
          ∧ ((word 160 - n).toInt < size → done →
            (∀ a e, homeRead s who slot .read 1 = .error (a, e) → fails e a)
            ∧ ∀ st, homeRead s who slot .read 1 = .ok st → waits [h, slot] (some (natOfBytes st != 0))))

/-- R317, R250, R201: the fibres of a hatch that wait at one EWAIT go on together, once the commands of all have ended and no invalidation
is queued to their cluster; one whose command failed raises ENGINE_ERROR there. -/
def Sys2Proof.Rules.EwaitEnds : Prop :=
  ∀ (s : State) (c : Cell) (hatch : Nat) (at_ : DWord), s.cell? c.id = some c → c.fibres ≠ [] →
    (∀ f ∈ c.fibres, f.hatch = hatch ∧ f.waitAt = at_ ∧ ∃ q n e, f.status = .blocked (.ewait q n e)) →
    let u := releaseEwaits s c.id
    ((∃ f ∈ c.fibres, ∃ q n, f.status = .blocked (.ewait q n none)) ∨ s.invalsClear c.cluster = false → u = s)
    ∧ (s.invalsClear c.cluster = true → (∀ f ∈ c.fibres, ∃ q n, f.status = .blocked (.ewait q n (some false))) →
      u.mem = s.mem ∧ ∀ f ∈ c.fibres, ∃ y, u.fibre? ⟨c.id, f.idx⟩ = some y ∧ y.status = .ready)
    ∧ ∀ f q n, c.fibres = [f] → (∀ d ∈ s.cells, d.id = c.id → d = c) → f.status = .blocked (.ewait q n (some true)) → s.invalsClear c.cluster = true →
      u = takeTraps (settleHatch s c.id hatch) c.id hatch [⟨f.idx, { cause := .engineError }, at_⟩]

/-- R244, R169: WAITS in one lane reads the signal at its home and ends at once with its value when that is at most its operand, signed,
else the lane waits; a check that fails traps. -/
def Sys2Proof.Rules.WaitsLane : Prop :=
  ∀ (s : State) (g : Grp) (d a : Nat) (v : DWord) (f : Fibre) (c : Cell),
    s.cell? g.cell.id = some c → c.fibre? f.idx = some f → c.cluster = g.cell.cluster →
    (∀ t, checkAddr s g.cell a 8 1 true = some t → waitsLane d g a v s f = (s, some t))
    ∧ (checkAddr s g.cell a 8 1 true = none → ∀ bs, homeRead s (g.cell.who f.sup) a .read 8 = .ok bs →
      let x : DWord := BitVec.ofNat 64 (natOfBytes bs)
      let s' := touchHomes s (g.cell.who f.sup) none false .read a 8
      ((x.toInt ≤ v.toInt → s.invalsClear c.cluster = true → ∃ u y, waitsLane d g a v s f = (u, none) ∧ u.mem = s'.mem ∧ u.lines = s'.lines
          ∧ u.fibre? ⟨g.cell.id, f.idx⟩ = some y ∧ y.status = .ready ∧ y.stack = (f.setReg64 d x).stack)
        ∧ (v.toInt < x.toInt → waitsLane d g a v s f = (s'.setFibre ⟨g.cell.id, f.idx⟩ fun y =>
            { y with status := .blocked (.waits (f.base + d) a v), since := s.now, waitAt := g.first }, none))))

/-- R251, R357: SEND and RECV block each active lane at its channel, and then every word that can move moves; an undeclared
channel traps in each of them. -/
def Sys2Proof.Rules.ChannelWords : Prop :=
  ∀ (s : State) (g : Grp) (ch : Fin 8) (n : Fin 32) (a : Name) (x : Fibre → DWord),
    (NoTx s g false → Words s g {} false [plainSrc a .b32] (fun l => [x l]) → (∀ c ∈ s.cells, c.id = g.cell.id → ∀ f ∈ c.fibres, f.again = none) →
      g.cell.chans.any (·.1 == ch.val) = true →
      Ends (.send ch a) s g (chanSettle ((readVals s g false [a] fun l => [x l]).foldl (fun s z =>
        s.setFibre ⟨g.cell.id, z.1.idx⟩ fun f => { f with status := .blocked (.send ch.val [loWord (z.2.getD 0 0)]), since := s.now, waitAt := g.first })
        (readTo s g false [a])) g.cell.id ch.val))
    ∧ (NoTx s g true → Words s g {} true [] (fun _ => []) → (∀ c ∈ s.cells, c.id = g.cell.id → ∀ f ∈ c.fibres, f.again = none) →
      g.cell.chans.any (·.1 == ch.val) = true →
      Ends (.recv (.w n) ch) s g (chanSettle ((readVals s g true [] fun _ => []).foldl (fun s z =>
        s.setFibre ⟨g.cell.id, z.1.idx⟩ fun f => { f with status := .blocked (.recv ch.val (f.base + n.val) none), since := s.now, waitAt := g.first })
        (readTo s g true [])) g.cell.id ch.val))
    ∧ (NoTx s g false → Words s g {} false [plainSrc a .b32] (fun l => [x l]) → (g.after s false).active ≠ [] →
      g.cell.chans.any (·.1 == ch.val) = false →
      Ends (.send ch a) s g (takeTraps (readTo s g false [a]) g.cell.id g.hatch
        ((readVals s g false [a] fun l => [x l]).map fun z => ⟨z.1.idx, { cause := .channelFault }, g.first⟩)))
    ∧ (NoTx s g true → Words s g {} true [] (fun _ => []) → (g.after s true).active ≠ [] → g.cell.chans.any (·.1 == ch.val) = false →
      Ends (.recv (.w n) ch) s g (raiseLanes (readTo s g true []) (g.read s true [])
        ((readVals s g true [] fun _ => []).map fun z => (z.1.idx, { cause := .channelFault }))))

/-- R251: a word moves from its channel to the first waiting receiver, else from the first waiting sender into the channel while it has
room; with neither, nothing moves. First is who has waited longest, of one hatch the lowest lane. Log entry 38: the reading taken. -/
def Sys2Proof.Rules.ChannelMoves : Prop :=
  ∀ (s : State) (c : Cell) (ch : Nat) (k : Chan), s.cell? c.id = some c → c.chans.find? (·.1 == ch) = some (ch, k) →
    let sends (f : Fibre) : Prop := ∃ w ws, f.status = .blocked (.send ch (w :: ws))
    let receives (f : Fibre) : Prop := ∃ d, f.status = .blocked (.recv ch d none)
    let earlier (f x : Fibre) : Prop := f.since < x.since ∨ (f.since = x.since ∧ (f.hatch < x.hatch ∨ (f.hatch = x.hatch ∧ f.lane < x.lane)))
    let first (p : Fibre → Prop) (f : Fibre) : Prop := f ∈ c.fibres ∧ p f ∧ ∀ x ∈ c.fibres, p x → x = f ∨ earlier f x
    let put (words : List Word) : State :=
      s.setCell c.id fun c => { c with chans := c.chans.map fun x => if x.1 = ch then (ch, { k with words := words }) else x }
    let noRecv : Prop := k.words = [] ∨ ∀ x ∈ c.fibres, ¬ receives x
    (∀ f d w ws, first receives f → f.status = .blocked (.recv ch d none) → k.words = w :: ws →
      chanStep s c.id ch = some ((put ws).setFibre ⟨c.id, f.idx⟩ fun f => { f with status := .blocked (.recv ch d (some w)) }))
    ∧ (∀ f w ws, first sends f → f.status = .blocked (.send ch (w :: ws)) → noRecv → k.words.length < k.cap →
      chanStep s c.id ch = some ((put (k.words ++ [w])).setFibre ⟨c.id, f.idx⟩ fun f => { f with status := .blocked (.send ch ws) }))
    ∧ (noRecv → ((∀ x ∈ c.fibres, ¬ sends x) ∨ k.cap ≤ k.words.length) → chanStep s c.id ch = none)

/-! ### The moves of the ordering machine -/

/-- What a change anywhere may release is scheduling alone, while no QUIT comes to its end (R28 to R39). -/
def Obligations.ReleasesSchedule : Prop :=
  ∀ s : State, (∀ c ∈ s.cells, NoQuitDue s c.id) → (afterAll s).arch = s.arch

/-- R189, R195, R205, R185: LEAVE takes an access whose turn it is out of its lane queue: a scratch access is done at once on its cell's
scratch, a store's bytes going there; any other enters the view last, the bytes of a store, a write by name or an STI entering its
cluster's own blocks, unless they are tentative. Out of turn it does nothing. Log entry 22: the reading taken. -/
def Sys2Proof.Rules.LeaveMove : Prop :=
  ∀ (s : State) (a : Nat) (x : Acc), s.acc? a = some x →
    (leaveTurn s x = false → exec (.leave a) s = .next s)
    ∧ (leaveTurn s x = true →
      (∀ c, scratchBase ≤ x.va → s.cell? x.owner.cell = some c →
        exec (.leave a) s = .next (afterAll (if x.kind.isStore = true then
            (s.setCell x.owner.cell fun c => { c with scratch := putBytes c.scratch (x.va - scratchBase) x.data }).setAcc a fun q =>
              { q with stage := .arrived }
          else s.setAcc a fun q => { q with stage := .arrived, result := bytesAt c.scratch (x.va - scratchBase) x.len })))
      ∧ (x.va < scratchBase →
        let u : State := (moveLast s a).setAcc a fun q =>
          { q with stage := .inView, window := ((s.part? x.part).map (·.cw)).getD 0 }
        (x.kind.isStore = false ∨ tentative u x = true → exec (.leave a) s = .next (afterAll u))
        ∧ (x.kind.isStore = true → tentative u x = false →
          exec (.leave a) s = .next (afterAll (writeBlocks u x.cluster (accTag u x) x.va x.data)))))
    ∧ ∀ k : AccKind, k.isStore = true ↔ k = .store ∨ k = .sti ∨ ∃ i, k = .slotWrite i

/-- R55, R190, R194, R195: an access leaves only once every earlier acquire of its fibre is answered, no earlier access of
it that is queued overlaps it, writes a slot of the same frame or orders it, no earlier SCATTER may still store to its bytes, and no
earlier GATHER may still read those that it writes, but for what the fibre's handler keeps. Log entries 14, 20 and 26: the reading
taken. -/
def Sys2Proof.Rules.LeaveOrder : Prop :=
  ∀ (s : State) (x : Acc), leaveTurn s x = true → x.stage = .queued
    ∧ (∀ e ∈ s.accs, e.owner = x.owner → e.id < x.id → (s.kept x.owner).contains e.id = false →
      (e.isAcquire = true → e.refused = true)
      ∧ (e.stage = .queued → e.ord = .plain ∧ x.ord = .plain ∧ overlaps e x = false ∧ sameFrame e x = false))
    ∧ ∀ o ∈ s.ops, o.owner = x.owner → o.id < x.id → (s.kept x.owner).contains o.id = false →
      o.mayStore x.va x.len = false ∧ (x.kind.writes = true → o.mayRead x.va x.len = false)

/-- R191, R188: FORWARD answers a load from the newest pending store of its cluster whose words yet to ARRIVE cover it, when no older write of its
own and no held or refused byte answers it first; the fibre reads from that store. Where that store does not cover it, only a
valid L1 block of the cluster answers it. R193: an acquire at cell scope is a point of its fibre, and no load is so answered past
a write that such a point puts before it and that merges with what it finds. Log entry 21: the reading taken. -/
def Sys2Proof.Rules.ForwardMove : Prop :=
  ∀ (s : State) (a : Nat) (x : Acc), s.acc? a = some x →
    (mayForward s x = false → exec (.forward a) s = .next s)
    ∧ (mayForward s x = true → forwardBytes s x = none → exec (.forward a) s = .next s)
    ∧ (mayForward s x = true → ∀ bs from_, forwardBytes s x = some (bs, from_) →
      exec (.forward a) s = .next (finishAcc (deliverWords ((acquirePoints s x).setFibre x.owner fun f => { f with readFrom := f.readFrom ++ from_ }) x bs 15) x))
    ∧ (s.seenBlocks x.owner false x.va x.len = true → forwardBytes s x = none)
    ∧ (∀ c q, s.cell? x.owner.cell = some c → c.held = [] → s.refusedStores x.owner = [] → s.seenBlocks x.owner false x.va x.len = false →
      (∀ e ∈ s.accs, e.of x.owner = true → e.id = x.id) → 0 < x.len → (pendingStores s x).getLast? = some q →
      let covers : Prop := ∀ i, i < x.len → q.va ≤ x.va + i ∧ x.va + i < q.va + q.len ∧ q.got.testBit ((x.va + i - q.va) / 4) = false
      (covers → forwardBytes s x = some ((q.data.drop (x.va - q.va)).take x.len, [q.id]))
      ∧ (¬ covers → ∀ bs from_, forwardBytes s x = some (bs, from_) → ∃ b ∈ s.blocks, b.cluster = x.cluster ∧ b.asid = accTag s x ∧ b.base ≤ x.va
        ∧ x.va + x.len ≤ b.base + b.bytes.length ∧ (b.asid = none ∨ s.physOk b.pa = true) ∧ bs = (b.bytes.drop (x.va - b.base)).take x.len))
    ∧ (x.ord ≠ .cell → acquirePoints s x = s)
    ∧ (x.ord = .cell → x.kind = .load → x.members = [(x.id, [])] → (∀ e ∈ s.accs, e.id = x.id → e = x) →
      acquirePoints s x = s.setFibre x.owner fun f =>
        { f with seen := (s.accs.filter fun e => e.kind.writes && e.inFlight && e.cluster == x.cluster).map (·.id) })

/-- R189, R213, R219, R203: REQUEST_SEND sends an access of the view whose turn it is, a combinable one by way of its
switches; COMBINE_WINDOW_EXPIRY sends a waiting request on past its switch, once its window has passed by that switch's clock;
ESCAPE sends all that wait at one. A request that has a match beside it, with which its group could ARRIVE, makes COMBINE first. Log
entry 27: the reading taken. -/
def Sys2Proof.Rules.SendMoves : Prop :=
  ∀ (s : State) (a : Nat) (x : Acc), s.acc? a = some x →
    (sendTurn s x = false → exec (.requestSend a) s = .next s)
    ∧ (sendTurn s x = true → x.comb = false → exec (.requestSend a) s = .next (s.setAcc a fun q => { q with stage := .sent }))
    ∧ (sendTurn s x = true → x.comb = true → exec (.requestSend a) s = .next (enterSwitch s x (x.way s)))
    ∧ (∀ l, x.stage = .waiting l → parkedAt s (switchOf x.cluster l) x = false →
      s.accs.any (fun e => e.atSwitch (switchOf x.cluster l) && s.pairs x e) = false →
      x.waitStart + x.window ≤ switchCycles s (switchOf x.cluster l) →
      exec (.combineWindowExpiry a) s = .next (enterSwitch (s.setAcc a fun q => { q with stage := .inView }) x
        ((x.way s).filter (l < ·))))
    ∧ ∀ sw, exec (.escape sw) s = .next { s with
      accs := s.accs.map fun q =>
        if q.atSwitch sw && !parkedAt s sw q && !(s.accs.any fun e => e.atSwitch sw && s.pairs q e) then { q with stage := .sent } else q }

/-- R190, R195, R266: an access leaves the view only after the earlier overlapping accesses of its fibre, and never while a pin
holds it; it arrives after they have, or after one that was refused, unless both are posted. What its fibre's handler keeps holds it
back no more (log entry 14). R199: nothing that a pin which does not carry it holds back arrives. -/
def Sys2Proof.Rules.SendAndArriveOrder : Prop :=
  ∀ (s : State) (x e : Acc), e ∈ s.accs → e.owner = x.owner → e.id < x.id → overlaps e x = true →
    (sendTurn s x = true → x.pinned = none ∧ ((s.kept x.owner).contains e.id = false → e.stage ≠ .queued ∧ e.stage ≠ .inView))
    ∧ (arriveTurn s x = true → x.members = [(x.id, [])] → s.acc? x.id = some x → (∀ q ∈ s.accs, q.id = x.id → q = x) →
      (({ s with accs := s.accs.filter fun q => !([x.id] : List Nat).contains q.id } : State).kept x.owner).contains e.id = false →
      (e.stage = .arrived ∨ e.refused = true ∧ (e.kind.posted && x.kind.posted) = false) ∧ heldBack s [x.id] x.part x.fn x.va x.len = false)

/-- R214, R215: COMBINE joins a request that waits with one that arrives after it at the same switch and matches it: the first
carries both operands, the second waits in its group. The first is the earliest of its kind there, the second the earliest that
matches it and with which the group could ARRIVE. Log entry 27: the reading taken. -/
def Sys2Proof.Rules.CombineMove : Prop :=
  ∀ (s : State) (x y : Acc) (l : Nat) (op : AtomOp), s.acc? x.id = some x → s.acc? y.id = some y →
    x.stage = .waiting l → y.stage = .waiting l → switchOf x.cluster l = switchOf y.cluster l → x.kind = .atom op →
    parkedAt s (switchOf x.cluster l) x = false →
    (s.accs.find? fun e => e.atSwitch (switchOf x.cluster l) && s.pairs x e).map (·.id) = some y.id →
    exec (.combine x.id y.id) s = .next ((s.setAcc x.id fun a => { a with
        alone := if x.members.length = 1 then x.data else x.alone
        data := bytesOfNat x.len (oper op (natOfBytes x.data) (natOfBytes y.data))
        members := x.members ++ y.members.map fun m => (m.1, x.data ++ m.2) }).setAcc y.id fun a => { a with
        stage := .merged x.id, mergedAt := switchOf x.cluster l + 1, mergedInto := x.id, members := [(y.id, [])]
        data := if y.members.length = 1 then y.data else y.alone })

/-- R162, R166, R265, R285: TLB_WALK gives a request its translation, from a TLB entry or by a walk, which a TLB then keeps; a
walk that fails, or a host address without CXL.cache, refuses the request, one under a frame release waits. R168 to R170: LINE_FILL fills the line of a translated
request, or writes a dirty line to memory. Log entries 23 and 25: the reading taken. -/
def Sys2Proof.Rules.TranslationMoves : Prop :=
  ∀ (s : State) (a : Nat) (x : Acc), s.acc? a = some x → x.stage = .sent → x.va < vaultBase → s.line? x.asid x.va = none →
    (x.xlat = none →
      (∀ t, tlbFind s x.asid x.va = some t →
        exec (.tlbWalk a true) s = .next (if s.physOk t.pa then s.setAcc a fun q => { q with xlat := some t } else refuseAcc s x .illegalAddress))
      ∧ (walkReach s x.part x.fn x.va = .wait → exec (.tlbWalk a false) s = .next s)
      ∧ (∀ c, walkReach s x.part x.fn x.va = .fail c → exec (.tlbWalk a false) s = .next (refuseAcc s x c))
      ∧ (∀ t big, walkReach s x.part x.fn x.va = .ok t big →
        ∃ u, exec (.tlbWalk a false) s = .next (u.setAcc a fun q => { q with xlat := some t })
          ∧ u.accs = s.accs ∧ u.mem = s.mem ∧ u.cells = s.cells ∧ tlbFind u x.asid x.va = some { t with pa := t.pa - x.va % (if big then 2 ^ 21 else 2 ^ 16) + x.va % (if big then 2 ^ 21 else 2 ^ 16) }))
    ∧ (∀ t, x.xlat = some t → fills s x t = true → s.physOk t.pa = true →
      exec (.lineFill (.forAcc a)) s = .next (fillLine s x.asid x.part x.va t (x.cls.getD t.cls) x.nt x.kind.isAtomic))
    ∧ ∀ l asid line, s.lines.find? (fun l => l.asid == asid && l.line == line) = some l →
      exec (.lineFill (.writeBack asid line)) s = .next (writeBack s l)
      ∧ (l.dirty = true → (writeBack s l).mem = putBytes s.mem l.pa l.bytes)

/-- R162 to R164, R172, R289: the walk. An entry that may not be read is ILLEGAL_ADDRESS, one behind a lost port UNCORRECTABLE. A
valid bit that is clear, a table entry at level 0, a leaf above level 1, a set reserved bit and a misaligned NEXT are
TRANSLATION_FAULT; a table entry goes one level down; a leaf gives the frame plus the low 16 bits at level 0, and the low 21 bits at
level 1; a walk to a frame under release waits. That a 2 MiB leaf with PFN bits [20:16] set faults too is the model's choice. Log
entry 55: the reading taken. -/
def Sys2Proof.Rules.PageWalk : Prop :=
  ∀ (s : State) (va t fuel level : Nat), level ≤ 4 →
    let pa : Nat := t + 8 * (match level with | 4 => bits va 56 48 | 3 => bits va 47 39 | 2 => bits va 38 30 | 1 => bits va 29 21 | _ => bits va 20 16)
    let e := natOfBytes (bytesAt s.mem pa 8)
    let walked := walkFrom s va (fuel + 1) level t
    (s.physOk pa = false → walked = .fail .illegalAddress)
    ∧ (s.physOk pa = true → s.physLost pa = true → walked = .fail .uncorrectable)
    ∧ (s.physOk pa = true → s.physLost pa = false →
      (bits e 0 0 = 0 → walked = .fail .translationFault)
      ∧ (bits e 0 0 = 1 → bits e 1 1 = 1 → 2 ≤ level → walked = .fail .translationFault)
      ∧ (bits e 0 0 = 1 → bits e 1 1 = 0 → level = 0 → walked = .fail .translationFault)
      ∧ (bits e 0 0 = 1 → bits e 1 1 = 0 → 0 < level → bits e 63 48 = 0 → bits e 7 2 = 0 → (level = 1 ∨ bits e 47 8 * 256 % 4096 = 0) →
        walked = walkFrom s va fuel (level - 1) (bits e 47 8 * 256))
      ∧ (bits e 0 0 = 1 → bits e 1 1 = 1 → level = 0 → bits e 60 48 = 0 → bits e 15 5 = 0 →
        s.underRelease (bits e 47 16 * 65536) (2 ^ 16) = false →
        walked = .ok { pa := bits e 47 16 * 65536 + va % 2 ^ 16, u := bits e 4 4 = 1, w := bits e 2 2 = 1
                       x := bits e 3 3 = 1, cls := bits e 63 61 } false)
      ∧ (bits e 0 0 = 1 → bits e 1 1 = 0 → 0 < level →
        bits e 63 48 ≠ 0 ∨ bits e 7 2 ≠ 0 ∨ (1 < level ∧ bits e 47 8 * 256 % 4096 ≠ 0) → walked = .fail .translationFault)
      ∧ (bits e 0 0 = 1 → bits e 1 1 = 1 → level ≤ 1 → bits e 60 48 ≠ 0 ∨ bits e 15 5 ≠ 0 ∨ (level = 1 ∧ bits e 20 16 ≠ 0) →
        walked = .fail .translationFault)
      ∧ (bits e 0 0 = 1 → bits e 1 1 = 1 → level = 1 → bits e 60 48 = 0 → bits e 15 5 = 0 → bits e 20 16 = 0 →
        s.underRelease (bits e 47 16 * 65536) (2 ^ 21) = false →
        walked = .ok { pa := bits e 47 16 * 65536 + va % 2 ^ 21, u := bits e 4 4 = 1, w := bits e 2 2 = 1
                       x := bits e 3 3 = 1, cls := bits e 63 61 } true)
      ∧ (bits e 0 0 = 1 → bits e 1 1 = 1 → level ≤ 1 → bits e 60 48 = 0 → bits e 15 5 = 0 → (level = 1 → bits e 20 16 = 0) →
        s.underRelease (bits e 47 16 * 65536) (if level = 1 then 2 ^ 21 else 2 ^ 16) = true → walked = .wait))

/-- R165: the permission check: U or supervisor, and W to write, X to fetch. -/
def Sys2Proof.Rules.Permissions : Prop :=
  ∀ (u w x sup : Bool),
    permitted u w x sup .read = (u || sup) ∧ permitted u w x sup .write = ((u || sup) && w)
    ∧ permitted u w x sup .fetch = ((u || sup) && x)

/-- R188, R189: ARRIVE, when it is the request's turn, takes a load's words at its home, puts the words of a store, a write by name or an
STI there, and performs any other request, an atomic; out of turn it does nothing. Log entry 20: the reading taken. -/
def Sys2Proof.Rules.ArriveMove : Prop :=
  ∀ (s : State) (a mask blk : Nat) (x : Acc), s.acc? a = some x →
    let u := acquirePoints (passPort s x) x
    (arriveTurn s x = false → exec (.arrive a mask blk) s = .next s)
    ∧ (arriveTurn s x = true →
      (x.kind = .load → exec (.arrive a mask blk) s = .next (afterAll (arriveLoad u x mask blk)))
      ∧ (x.kind.isStore = true → exec (.arrive a mask blk) s = .next (afterAll (arriveStore u x mask)))
      ∧ (x.kind ≠ .load → x.kind.isStore = false → exec (.arrive a mask blk) s = .next (afterAll (arriveAtomic u x))))

namespace Sys2Proof.Rules
/-- R207, R209, R244: what an atomic request writes over an old value; none where a CAS fails. -/
def newValue (k : AccKind) (old v : Nat) : Option Nat :=
  match k with
  | .atom o | .red o => some (oper o old v)
  | .cas e => if old = e then some v else none
  | .sgnl => some ((old + v) % 2 ^ 64)
  | _ => none
end Sys2Proof.Rules

/-- R188, R189, R6, R74: a store of 4 bytes to a vault of its partition, arriving with its one word, leaves exactly its bytes changed, and
an STI raises the subscribers of what it changed; an atomic of 4 or 8 bytes there, SGNL among them, writes the result of its operation, a
CAS that fails nothing, and takes the old value. -/
def Sys2Proof.Rules.ArriveAtVault : Prop :=
  ∀ (s : State) (x : Acc) (c : Cell) (v : Nat), Memory.wf s.mem = true → s.cell? x.owner.cell = some c → c.drafts = [] → v < 192 →
    s.hasVault x.part v = true → vaultBase + v * vaultSize ≤ x.va → x.va + x.len ≤ vaultBase + (v + 1) * vaultSize →
    x.len = 4 ∨ x.len = 8 → x.va % x.len = 0 →
    let old := natOfBytes (bytesAt s.mem x.va x.len)
    (x.kind.isStore = true → x.len = 4 → x.data.length = 4 → x.got = 0 →
      (∀ j, bget (arriveStore s x 1).mem j = if x.va ≤ j ∧ j < x.va + 4 then x.data.getD (j - x.va) 0 else bget s.mem j)
      ∧ (arriveStore s x 1).launches = if x.kind = .sti then
          (stiRaise s x.part x.fn x.va (BitVec.ofNat 32 (natOfBytes x.data)) (BitVec.ofNat 32 old)).launches else s.launches)
    ∧ (x.kind.isAtomic = true → x.members = [(x.id, [])] →
      (∀ j, bget (arriveAtomic s x).mem j = match newValue x.kind old (natOfBytes x.data) with
        | some n => if x.va ≤ j ∧ j < x.va + x.len then (bytesOfNat x.len n).getD (j - x.va) 0 else bget s.mem j
        | none => bget s.mem j)
      ∧ ∀ y ∈ (arriveAtomic s x).accs, y.id = x.id → y.stage = .arrived ∧ y.result = bytesOfNat x.len old)

/-- R188, R189, R265: the same wherever the home is, the global window among them, for a cell that holds nothing back of it: a load of
4 bytes takes those at the home, a store's go there, an atomic reads and writes there; what the home refuses is refused. -/
def Sys2Proof.Rules.ArriveAtHome : Prop :=
  ∀ (s : State) (x : Acc) (c : Cell) (blk : Nat), s.cell? x.owner.cell = some c → c.drafts = [] → c.held = [] → s.refusedStores x.owner = [] →
    (x.kind = .load → x.len = 4 → x.got = 0 → x.result = [] →
      (∀ a e, homeRead s x.who x.va .read 4 = .error (a, e) → arriveLoad s x 1 blk = refuseAcc s x e)
      ∧ ∀ bs, homeRead s x.who x.va .read 4 = .ok bs → bs.length = 4 → ∀ y ∈ (arriveLoad s x 1 blk).accs, y.id = x.id → y.stage = .arrived ∧ y.result = bs)
    ∧ (x.kind.isStore = true → x.len = 4 → x.got = 0 → x.data.length = 4 →
      let put := homeWrite (touchLine s x) x.who (some x.cluster) x.va x.data
      (∀ a e, put = .error (a, e) → arriveStore s x 1 = refuseAcc s x e)
      ∧ ∀ t, put = .ok t → (arriveStore s x 1).mem = t.mem ∧ (arriveStore s x 1).lines = t.lines
        ∧ ∀ y ∈ (arriveStore s x 1).accs, y.id = x.id → y.stage = .arrived)
    ∧ (x.kind.isAtomic = true → x.members = [(x.id, [])] →
      (∀ a e, homeNat s x.who x.va x.len = .error (a, e) → arriveAtomic s x = refuseAcc s x e)
      ∧ ∀ old, homeNat s x.who x.va x.len = .ok old → ∀ n, newValue x.kind old (natOfBytes x.data) = some n →
        let put := homeWrite (touchLine s x) x.who (some x.cluster) x.va (bytesOfNat x.len n)
        (∀ a e, put = .error (a, e) → arriveAtomic s x = refuseAcc (touchLine s x) x e)
        ∧ ∀ t, put = .ok t → (arriveAtomic s x).mem = t.mem ∧ (arriveAtomic s x).lines = t.lines)

/-- R74, R374: an STI that changed a word of a subscribed region of a plate of its function raises the residual of each subscriber by its
share of the change; where no region holds the word nothing is raised. -/
def Sys2Proof.Rules.StiRaises : Prop :=
  ∀ (s : State) (part fn addr : Nat) (new old : Word),
    let u := stiRaise s part fn addr new old
    (∀ l : Launch, ∀ r ∈ l.regions, s.launches = [l] → l.part = part → l.fn = fn → l.kind = .plate → l.installed = true → l.regions = [r] →
      r.base ≤ addr → addr < r.base + r.len → ∀ i w, r.subs = [(i, w)] →
      u.launches = [checkConverged (l.setEntry i fun e => e.raise (share w (change new old)))])
    ∧ ((∀ l ∈ s.launches, l.part ≠ part ∨ l.fn ≠ fn ∨ l.kind ≠ .plate ∨ l.installed = false
        ∨ ∀ r ∈ l.regions, addr < r.base ∨ r.base + r.len ≤ addr) → u = s)

/-- R207: what an atomic writes to memory from the old value and its operand. -/
def Sys2Proof.Rules.AtomicOperations : Prop :=
  (∀ a b : DWord, oper .add64 a.toNat b.toNat = (a.toNat + b.toNat) % 2 ^ 64 ∧ oper .and64 a.toNat b.toNat = (a &&& b).toNat
    ∧ oper .or64 a.toNat b.toNat = (a ||| b).toNat ∧ oper .xor64 a.toNat b.toNat = (a ^^^ b).toNat ∧ oper .exch64 a.toNat b.toNat = b.toNat)
  ∧ (∀ a b : Word, oper .addf32 a.toNat b.toNat = (fop32 .add .rne 0 a b 0).1.toNat)
  ∧ ∀ a b : Word,
    oper .add32 a.toNat b.toNat = (a.toNat + b.toNat) % 2 ^ 32 ∧ oper .and32 a.toNat b.toNat = (a &&& b).toNat
    ∧ oper .or32 a.toNat b.toNat = (a ||| b).toNat ∧ oper .xor32 a.toNat b.toNat = (a ^^^ b).toNat
    ∧ oper .exch32 a.toNat b.toNat = b.toNat
    ∧ (BitVec.ofNat 32 (oper .mins32 a.toNat b.toNat)).toInt = min a.toInt b.toInt
    ∧ (BitVec.ofNat 32 (oper .maxs32 a.toNat b.toNat)).toInt = max a.toInt b.toInt
    ∧ oper .minz32 a.toNat b.toNat = min a.toNat b.toNat ∧ oper .maxz32 a.toNat b.toNat = max a.toNat b.toNat

/-- R189, R194, R270: REPLY writes the words that its mask selects and ends the access with the last; an acknowledgement ends a
posted access; a reply to an older context is dropped; an acquire at cohort scope or wider waits for the invalidations queued
before it arrived. -/
def Sys2Proof.Rules.ReplyMove : Prop :=
  ∀ (s : State) (a mask : Nat) (x : Acc) (c : Cell), s.acc? a = some x → s.cell? x.owner.cell = some c →
    (replyTurn s x = false → exec (.reply a mask) s = .next s)
    ∧ (replyTurn s x = true → c.saveTag ≠ x.tag → exec (.reply a mask) s = .next (s.dropAcc a))
    ∧ (replyTurn s x = true → c.saveTag = x.tag →
      (x.kind = .store → exec (.reply a mask) s = .next (finishAcc s x))
      ∧ (x.kind = .load → x.got = 0 → (∀ i, i < (x.len + 3) / 4 → mask.testBit i = true) →
        exec (.reply a mask) s = .next (finishAcc (deliverWords s x x.result mask) x)))
    ∧ (x.ord = .dev → x.kind = .load → ∀ q ∈ s.invals, q.1 = x.cluster → ∀ v ∈ q.2, v.num < x.invBefore → replyTurn s x = false)

/-- R189, R159: DELIVER_INVAL takes the oldest invalidation of a cluster, whose blocks of that line leave L1. -/
def Sys2Proof.Rules.DeliverInvalidation : Prop :=
  ∀ (s : State) (cl : Nat) (v : Inval) (rest : List Inval), s.invals.find? (·.1 == cl) = some (cl, v :: rest) →
    ∃ u, exec (.deliverInval cl) s = .next (afterAll u)
      ∧ (∀ b ∈ u.blocks, ¬ (b.cluster = cl ∧ b.asid = v.asid ∧ b.base < 64 * v.line + 64 ∧ 64 * v.line < b.base + b.bytes.length))
      ∧ (∀ b ∈ s.blocks, b.cluster ≠ cl → b ∈ u.blocks)
      ∧ (u.invals.find? (·.1 == cl)).map (·.2) = (if rest = [] then none else some rest)
      ∧ u.mem = s.mem ∧ u.accs = s.accs ∧ u.cells = s.cells

/-- R199, R196: PIN_TIMEOUT ends the pins of a release that have stood for ORD.PINTO; FENCE_DONE lets a fibre go on whose
fence has what it covers performed, and no release of its own before it; at system scope dirty lines reach memory with it (R192),
at cell scope it is a point of its fibre (R193). Log entry 28: the reading taken. -/
def Obligations.PinAndFenceMoves : Prop :=
  ∀ s : State,
    (∀ rel p k, p ∈ s.pins → p.rel = rel → rel ≠ 0 → s.part? p.part = some k → p.since + k.pinto * ticksPerMicro ≤ s.now →
      exec (.pinTimeout rel) s = .next (afterAll (freePins (endPins s (·.rel == rel)))))
    ∧ (∀ c f eng mx sc cov, s.cell? c.id = some c → c.fibre? f.idx = some f → c.resident = true → f.status = .fence eng mx sc cov →
      (∀ a ∈ s.accs, a.owner = ⟨c.id, f.idx⟩ → a.relDone = true) →
      (fenceMet s c.cluster eng mx sc cov = false → exec (.fenceDone c.id f.idx) s = .next s)
      ∧ (fenceMet s c.cluster eng mx sc cov = true →
        let u : State := if sc = .sys then writeBackAll s (s.asid c.part c.fn) else if sc = .cell then s.setFibre ⟨c.id, f.idx⟩ fun f =>
          { f with seen := (s.accs.filter fun e => e.kind.writes && e.inFlight && e.cluster == c.cluster).map (·.id) } else s
        exec (.fenceDone c.id f.idx) s = .next (afterChange (settleHatch (u.setFibre ⟨c.id, f.idx⟩ fun f =>
          { f with status := .ready }) c.id f.hatch) c.id)))

/-! ### Operations, streams, waits -/

/-- R119, R262, R342: LONG_LATENCY_COMPLETE takes a pending operation its next stage, once the stores replayed before it are over; a
value operation's words are written, and its flag falls with the last; a posted MWR or MZERO takes effect at the head of its tile's order,
wherever its cell is. R345, R347: MATRIX_FAULT refuses an MMA or an MST whose element faults. -/
def Sys2Proof.Rules.PendingOperations : Prop :=
  ∀ (s : State) (o : Op) (c : Cell) (mask : Nat), s.op? o.id = some o → s.cell? o.owner.cell = some c →
    let posted : Prop := (∃ u t row vals b, o.kind = .mwr u t row vals b) ∨ ∃ u t b, o.kind = .mzero u t b
    (∀ u t, (∃ row vals b, o.kind = .mwr u t row vals b) ∨ (∃ b, o.kind = .mzero u t b) →
      exec (.longLatencyComplete o.id mask) s = .next (afterAll (drainAll s u t)))
    ∧ (o.refused.isSome = true ∨ c.resident = false →
      (¬ posted → exec (.longLatencyComplete o.id mask) s = .next s) ∧ exec (.matrixFault o.id) s = .next s)
    ∧ (o.refused = none → c.resident = true →
      (¬ posted → (∃ a ∈ o.after, s.acc? a ≠ none) → exec (.longLatencyComplete o.id mask) s = .next s)
      ∧ (¬ posted → (∀ a ∈ o.after, s.acc? a = none) → exec (.longLatencyComplete o.id mask) s = .next (afterAll (advanceOp s c o mask)))
      ∧ (∀ pos v, o.after = [] → o.kind = .value [(pos, v)] → o.got = 0 → mask.testBit 0 = true →
        exec (.longLatencyComplete o.id mask) s = .next (afterAll (finishOp (s.setFibre o.owner fun f => { f with stack := sput 0 f.stack pos v }) o)))
      ∧ (∀ u t sl h ea eb row, o.kind = .mma u t sl h ea eb row →
        exec (.matrixFault o.id) s = .next (afterAll (faultMma s o c u t sl h ea eb row)))
      ∧ (∀ u t b d row, o.kind = .mst u t b d row → exec (.matrixFault o.id) s = .next (afterAll (faultMst s o c u t b d row))))

/-- R80, R81, R194, R353: PROOF_SNAPSHOT takes one lane's point, once no earlier acquire of the fibre awaits its answer: the words of the
frame of the plate that holds them with BOUND, GEN and CONV, or zeros with NOPLATE where no plate does. Log entry 34: the reading taken. -/
def Sys2Proof.Rules.ProofPoint : Prop :=
  ∀ (s : State) (o : Op) (c : Cell) (dst addr n : Nat), s.op? o.id = some o → s.cell? o.owner.cell = some c → c.resident = true →
    o.kind = .proof dst addr n → o.result = none → o.refused = none →
    (acqBefore s o = true ∨ pointTurn s o = false → exec (.proofSnapshot o.id) s = .next s)
    ∧ (acqBefore s o = false → pointTurn s o = true → plateOf s c.part c.fn addr n = none →
      exec (.proofSnapshot o.id) s = .next (s.setOp o.id fun o => { o with
        result := some ((List.replicate n (0 : Word) ++ [0x7F800000, 0, 0, 2]).zipIdx.map fun (x : Word × Nat) => (x.2, x.1)) }))
    ∧ (acqBefore s o = false → pointTurn s o = true → ∀ l bs, plateOf s c.part c.fn addr n = some l → heldBack s [] c.part c.fn addr (4 * n) = false →
      homeRead s (c.who (ownerSup s o)) addr .read (4 * n) = .ok bs →
      exec (.proofSnapshot o.id) s = .next ((touchHomes s (c.who (ownerSup s o)) none false .read addr (4 * n)).setOp o.id fun o => { o with
        result := some (((List.range n).map (fun k => BitVec.ofNat 32 (natOfBytes ((bs.drop (4 * k)).take 4))) ++ proofTrailer l).zipIdx.map
          fun (x : Word × Nat) => (x.2, x.1)) }))

/-- R166, R180, R191: STREAM_RUNAHEAD_READ puts a stream's next element in its queue, or discards it where its position was
consumed; a full queue, a stream at its end and one that is stopped stay as they are. An element that an ERET asks for again is
read first, into its place. The reads of a handler's trapped code go on with the rights of that code's mode (log entry 18). Log entry
18: the reading taken. -/
def Sys2Proof.Rules.StreamMove : Prop :=
  ∀ (s : State) (c : Cell) (f : Fibre) (n : Fin 4), s.cell? c.id = some c → c.fibre? f.idx = some f → c.resident = true →
    let st := f.stream n.val
    let go := exec (.streamRunaheadRead c.id f.idx n) s
    let goal (s : State) (y : Stream) : Host.Outcome State Fault Refusal := .next (s.setFibre ⟨c.id, f.idx⟩ fun f => f.setStream n.val y)
    let reads (k : Nat) (put : Elem → Stream) : Prop :=
      (streamElem s c f st k = none → go = .next s)
      ∧ ∀ e r, streamElem s c f st k = some (e, r) → go = goal (noteReads s c (f.streamSup st) ⟨c.id, f.idx⟩ none false r.from_ r.addrs) (put e)
    (st.active = false → go = .next s)
    ∧ (st.active = true → ∀ k, st.queue[k]? = some .again → (∀ j, j < k → st.queue[j]? ≠ some .again) →
      reads (st.popped + k) fun e => { st with queue := st.queue.set k e })
    ∧ (st.active = true → Elem.again ∉ st.queue →
      (st.count ≤ st.fetched ∨ st.popped + 16 ≤ st.fetched → go = .next s)
      ∧ (st.fetched < st.count → st.fetched < st.popped → go = goal s { st with fetched := st.fetched + 1 })
      ∧ (st.fetched < st.count → st.fetched < st.popped + 16 → st.popped ≤ st.fetched →
        reads st.fetched fun e => { st with fetched := st.fetched + 1, queue := st.queue ++ [e] }))

/-- R118, R34, R280, R260: CLAUSE_WAIT_END lets the fibres of a hatch that wait at one clause in one mode go on together, once the
flags of each are zero; REGROUP_TIMEOUT lets an entry go after 256 cycles of its island; WATCHDOG raises its exception at the wait after WDOG
microseconds; TRAP_ENTRY lets parked fibres enter their handler. Log entries 14 and 50: the reading taken. -/
def Sys2Proof.Rules.WaitEvents : Prop :=
  ∀ (s : State) (c : Cell) (f : Fibre), s.cell? c.id = some c → c.fibre? f.idx = some f → c.resident = true →
    exec (.trapEntry c.id f.idx) s = .next (afterChange (enterHandler s c.id f.hatch) c.id)
    ∧ (∀ m, f.status = .waitFlags m →
      let mate (x : Fibre) : Bool := x.hatch == f.hatch && x.pc == f.pc && x.sup == f.sup && match x.status with | .waitFlags _ => true | _ => false
      ((∀ x ∈ c.fibres, mate x = true → ∀ m, x.status = .waitFlags m → x.flagsClear m = true) →
        exec (.clauseWaitEnd c.id f.idx) s = .next (afterChange (settleHatch
          (s.mapFibres c.id fun x => if mate x then { x with status := .ready } else x) c.id f.hatch) c.id))
      ∧ ((∃ x ∈ c.fibres, mate x = true ∧ ∃ m, x.status = .waitFlags m ∧ x.flagsClear m = false) →
        exec (.clauseWaitEnd c.id f.idx) s = .next s))
    ∧ (∀ p m, s.part? c.part = some p → f.status = .waitFlags m → p.wdog.toNat ≠ 0 →
      (s.now < f.since + p.wdog.toNat * ticksPerMicro → exec (.watchdog c.id f.idx) s = .next s)
      ∧ (f.since + p.wdog.toNat * ticksPerMicro ≤ s.now →
        exec (.watchdog c.id f.idx) s = .next (afterChange (takeTraps s c.id f.hatch [⟨f.idx, { cause := .watchdog }, f.pc⟩]) c.id)))
    ∧ (∀ e quad, s.crosshatch.find? (fun x => x.id == e.id && x.cluster == e.cluster && x.quad == quad) = some e → e.cell = c.id →
      (∃ m ∈ c.fibres, m.idx ∈ e.members ∧ m.mark + 256 ≤ s.cycles (islandOf e.cluster)) →
      exec (.regroupTimeout e.cluster quad e.id) s = .next (afterChange (leaveRegroup s e.id true) c.id))

/-! ### Engine chains -/

namespace Sys2Proof.Rules
/-- The engine of a chain past its command, with a status and a mask of failed destinations. -/
def performed (s : State) (ch st mask : Nat) : Host.Outcome State Fault Refusal :=
  .next (s.setEngine { queue := ch, stage := .performed st mask })
/-- A chain's engine holds a well-formed command c of q's, with nothing that holds the bytes back that it moves. -/
structure Holds (s : State) (ch : Nat) (v : ChainView) (c : Cmd) (kind : Nat) : Prop where
  view : chainView s ch = some v
  cmd : v.cmd = .ok c
  stage : (s.engine ch).stage = .acquired
  kind : c.kind = kind
  formed : malformed v.hdr.engine c = false
/-- No pin and no frame release holds n bytes at a back from q's function. -/
def Free (s : State) (q : QueueReg) (a n : Nat) : Prop := heldBack s [] q.part q.fn a n = false

/-- R200, R248, R278: ENGINE_ACQ takes the next command; one whose entry cannot be read ends with STATUS 2, one whose issuer's
cluster is retired with STATUS 4. An engine that is busy, or a chain that is empty, stays. -/
def EngineTakes : Prop :=
  ∀ (s : State) (ch : Nat) (v : ChainView), chainView s ch = some v →
    ((s.engine ch).stage ≠ .idle ∨ v.hdr.head = v.hdr.tail → exec (.engineAcq ch) s = .next s)
    ∧ ((s.engine ch).stage = .idle → v.hdr.head ≠ v.hdr.tail →
      (∀ e, v.cmd = .error e → exec (.engineAcq ch) s = performed s ch 2 0)
      ∧ (∀ c, v.cmd = .ok c →
        ((∀ x ∈ v.reg.posted, x.1 = (v.hdr.head + 1) % 2 ^ 32 → x.2.2 ≠ 0) →
          exec (.engineAcq ch) s = .next (s.setEngine { queue := ch, stage := .acquired }))
        ∧ ((∃ x ∈ v.reg.posted, x.1 = (v.hdr.head + 1) % 2 ^ 32 ∧ x.2.2 = 0) → exec (.engineAcq ch) s = performed s ch 4 0)))
/-- R246: a malformed entry completes with STATUS 1 and no effect, whichever its kind. -/
def MalformedCommand : Prop :=
  ∀ (s : State) (ch : Nat) (v : ChainView) (c : Cmd), chainView s ch = some v → v.cmd = .ok c → (s.engine ch).stage = .acquired →
    malformed v.hdr.engine c = true →
    (c.kind = 0 ∨ 6 < c.kind → exec (.engineNop ch) s = performed s ch 1 0)
    ∧ (c.kind = 1 → exec (.engineCopy ch) s = performed s ch 1 0) ∧ (c.kind = 2 → exec (.engineMcast ch) s = performed s ch 1 0)
    ∧ (c.kind = 3 → exec (.engineFill ch) s = performed s ch 1 0) ∧ (c.kind = 4 → exec (.engineGather ch) s = performed s ch 1 0)
    ∧ (c.kind = 5 → ∀ o, exec (.engineColl ch o) s = performed s ch 1 0) ∧ (c.kind = 6 → exec (.engineSgnl ch) s = performed s ch 1 0)
/-- R246, R375: NOP, COPY, FILL and SGNL. Log entry 37: the reading taken. -/
def SimpleCommands : Prop :=
  ∀ (s : State) (ch : Nat) (v : ChainView) (c : Cmd),
    let who := v.reg.cmdWho
    (Holds s ch v c 0 → exec (.engineNop ch) s = performed s ch 0 0)
    ∧ (Holds s ch v c 1 → Free s v.reg c.src c.len → Free s v.reg c.dst c.len →
      (∀ e, homeRead s who c.src .read c.len = .error e → exec (.engineCopy ch) s = performed s ch 2 0)
      ∧ (∀ bs, homeRead s who c.src .read c.len = .ok bs →
        let r := enginePut (touchHomes s who none false .read c.src c.len) who c.dst bs
        exec (.engineCopy ch) s = performed r.1 ch (if r.2 then 0 else 2) 0))
    ∧ (Holds s ch v c 3 → Free s v.reg c.dst c.len →
      let r := enginePut s who c.dst ((List.range c.len).map fun i => BitVec.ofNat 8 (c.src / 2 ^ (8 * (i % 8))))
      exec (.engineFill ch) s = performed r.1 ch (if r.2 then 0 else 2) 0)
    ∧ (Holds s ch v c 6 → Free s v.reg c.dst 8 →
      (∀ e, homeNat s who c.dst 8 = .error e → exec (.engineSgnl ch) s = performed s ch 2 0)
      ∧ (∀ old t, homeNat s who c.dst 8 = .ok old → homeWrite (touchHomes s who none false .write c.dst 8) who none c.dst (bytesOfNat 8 ((old + c.src) % 2 ^ 64)) = .ok t →
        exec (.engineSgnl ch) s = performed t ch 0 0))
/-- R249: MCAST writes the source's bytes into the scratch of each cell that its mask names and that can take them; the others
fail, and FMASK names them. Log entry 37: the reading taken. -/
def Multicast : Prop :=
  ∀ (s : State) (ch : Nat) (v : ChainView) (c : Cmd), Holds s ch v c 2 → Free s v.reg c.src c.len →
    (∀ e, homeRead s v.reg.cmdWho c.src .read c.len = .error e → exec (.engineMcast ch) s = performed s ch 2 0)
    ∧ ∀ bs, homeRead s v.reg.cmdWho c.src .read c.len = .ok bs →
      let u := touchHomes s v.reg.cmdWho none false .read c.src c.len
      let js := (List.range 8).filter fun j => c.dmask.testBit j
      let bad := js.filter fun j => (mcastDst u v.reg c j).isNone
      let t := js.foldl (fun s j => match mcastDst s v.reg c j with
        | none => s
        | some x => s.setCell x.id fun x => { x with scratch := putBytes x.scratch c.dst bs }) u
      exec (.engineMcast ch) s = performed t ch (if bad = [] then 0 else 3) (bad.foldl (fun m j => m + 2 ^ j) 0)
/-- R246, R174 to R178: GATHER writes the elements that its list names, one after another; zero for a void entry and for one
that is noted, which makes the status 2. Log entries 31 and 37: the reading taken. -/
def GatherCommand : Prop :=
  ∀ (s : State) (ch : Nat) (v : ChainView) (c : Cmd) (l : ListInfo), Holds s ch v c 4 →
    Free s v.reg c.src (32 + 4 * c.len) →
    let list := readList (fun a n => homeRead s v.reg.cmdWho a .read n) (2 ^ 40) 0 c.src c.len 1
    (∀ e, list = .error e → exec (.engineGather ch) s = performed s ch 2 0)
    ∧ (list = .ok l →
      (c.dst % 2 ^ l.esz ≠ 0 → exec (.engineGather ch) s = performed s ch 1 0)
      ∧ (c.dst % 2 ^ l.esz = 0 → Free s v.reg c.dst (2 ^ l.esz * l.entries.length) →
        ∀ elem : Nat → List Byte × Bool,
          (∀ a ∈ l.entries, Free s v.reg a 4
            ∧ (∀ e, homeNat s v.reg.cmdWho a 4 = .error e → elem a = (List.replicate (2 ^ l.esz) 0, true))
            ∧ (homeNat s v.reg.cmdWho a 4 = .ok 0xFFFFFFFF → elem a = (List.replicate (2 ^ l.esz) 0, false))
            ∧ ∀ i, i ≠ 0xFFFFFFFF → homeNat s v.reg.cmdWho a 4 = .ok i →
              (l.limit ≤ i → elem a = (List.replicate (2 ^ l.esz) 0, true))
              ∧ (i < l.limit → Free s v.reg (elemAddr l i) (2 ^ l.esz)
                ∧ (∀ e, homeRead s v.reg.cmdWho (elemAddr l i) .read (2 ^ l.esz) = .error e → elem a = (List.replicate (2 ^ l.esz) 0, true))
                ∧ ∀ bs, homeRead s v.reg.cmdWho (elemAddr l i) .read (2 ^ l.esz) = .ok bs → elem a = (bs, false))) →
          let seen (s : State) (a n : Nat) : State := touchHomes s v.reg.cmdWho none false .read a n
          let u := l.entries.foldl (fun s a => match homeNat s v.reg.cmdWho a 4 with
            | .ok i => seen (if i < l.limit then seen s (elemAddr l i) (2 ^ l.esz) else s) a 4
            | .error _ => s) (seen s c.src l.head)
          let r := enginePut u v.reg.cmdWho c.dst (l.entries.flatMap fun a => (elem a).1)
          exec (.engineGather ch) s = performed r.1 ch (if r.2 && l.entries.all (fun a => !(elem a).2) then 0 else 2) 0))
/-- R292, R293: a COLL reduces its operands chunk by chunk; a device that is the only member left copies its own source. A
member's failure excludes it from the chunk in progress on. Log entries 10 and 48: the reading taken. -/
def CollectiveCommand : Prop :=
  ∀ (s : State) (ch : Nat) (v : ChainView) (c : Cmd) (others : List DWord), Holds s ch v c 5 →
    (∀ t e, collChunk s v.reg c (s.engine ch) others = some (t, e) → exec (.engineColl ch others) s = .next (t.setEngine e))
    ∧ (collChunk s v.reg c (s.engine ch) others = none → exec (.engineColl ch others) s = .next s)
    ∧ (∀ p op w fan bs, s.part? v.reg.part = some p → combOp c.opc = some (op, w) →
      p.groups.find? (·.1 == c.group) = some (c.group, [s.deviceNumber], fan) → (s.engine ch).failedMembers = [] → (s.engine ch).at_ = 0 →
      c.len ≤ 4096 → Free s v.reg c.src c.len → Free s v.reg c.dst c.len → homeRead s v.reg.cmdWho c.src .read c.len = .ok bs →
      let r := enginePut (touchHomes s v.reg.cmdWho none false .read c.src c.len) v.reg.cmdWho c.dst bs
      r.2 = true → exec (.engineColl ch []) s = performed r.1 ch 0 0)
    ∧ (∀ dev p g, s.part? v.reg.part = some p → p.groups.find? (·.1 == c.group) = some g → dev ∈ g.2.1 → dev ≠ s.deviceNumber →
      dev ∉ (s.engine ch).failedMembers →
      exec (.collMemberFailure ch dev) s = .next (s.setEngine { s.engine ch with failedMembers := (s.engine ch).failedMembers ++ [dev] }))
/-- R200, R248: ENGINE_REL releases a performed command, at system scope through to memory. ENGINE_COMPLETION writes STATUS
and FMASK into the entry, DONE and the error fields into the header, updates SIG, tells the waiters and moves HEAD; while SIG's
line is held back it does none of it. Log entry 37: the reading taken. -/
def EngineEnds : Prop :=
  ∀ (s : State) (ch : Nat) (v : ChainView) (c : Cmd) (st mask : Nat), chainView s ch = some v → v.cmd = .ok c →
    ((s.engine ch).stage = .performed st mask →
      exec (.engineRel ch) s = .next ((if c.rels = 4 then writeBackAll s (s.asid v.reg.part v.reg.fn) else s).setEngine
        { queue := ch, stage := .released st mask }))
    ∧ ((s.engine ch).stage = .released st mask →
      let q := v.reg
      let seq := (v.hdr.head + 1) % 2 ^ 32
      let a := devPut (devPut s q (v.slot + 36) (bytesOfNat 1 st ++ bytesOfNat 1 mask)) q (q.addr + 28) (bytesOfNat 4 seq)
      let a := if st = 0 then a else devPut a q (q.addr + 32) (bytesOfNat 4 seq ++ bytesOfNat 1 st ++ bytesOfNat 1 mask)
      let done (a : State) : Host.Outcome State Fault Refusal :=
        .next (afterAll (((devPut (wakeEwaits a ch (BitVec.ofNat 32 seq) (st != 0)) q (q.addr + 24) (bytesOfNat 4 seq)).setQueue ch
          fun q => { q with posted := q.posted.filter (·.1 != seq) }).setEngine { queue := ch }))
      (c.sig = 0 → exec (.engineCompletion ch) s = done a)
      ∧ (c.sig ≠ 0 → inWindows c.sig = true → c.sig % 8 = 0 →
        (Free s q c.sig 8 → exec (.engineCompletion ch) s = done (addSignal a q.cmdWho c.sig (2 ^ 64 - 1)).1)
        ∧ (¬ Free s q c.sig 8 → exec (.engineCompletion ch) s = .next s)))
end Sys2Proof.Rules


/-! ### Dispatch -/

namespace Sys2Proof.Rules
/-- The head h of launch l on a die is next, and its function may run (R76, R78, R276). -/
structure HeadNext (s : State) (l : Launch) (die : Nat) (h : Nat × Bool × Word) : Prop where
  launch : s.launch? l.id = some l
  runs : maySchedule s l.part l.fn = true
  head : l.head s.now die = some h
  next : isNext s l die h = true
/-- R36, R38, R77, R158, R172: the head is placed where it fits, unless its cohort's frame is held back; where it does not fit it
waits at the head, and a cluster may begin to drain for it. Log entry 35: the reading taken. -/
def DispatchOfHead : Prop :=
  ∀ (s : State) (l : Launch) (die : Nat) (h : Nat × Bool × Word), HeadNext s l die h →
    let go := exec (if l.kind = .grid then .cellDispatch l.id die else .plateDispatch l.id die) s
    let t := s.setLaunch l.id fun l => { l with waiting := sput 0 l.waiting die (h.1 + 1) }
    (∀ ps, placesFor s l die h.1 = some ps → go = .next (if frameHeld s l ps then s else dispatchAt s l die ps))
    ∧ (placesFor s l die h.1 = none → ∀ c, drainChoice t l die = some c → go = .next { t with draining := s.draining ++ [(c, l.id)] })
    ∧ (placesFor s l die h.1 = none → drainChoice t l die = none → go = .next t)
/-- R75, R77, R78, R84: which cell is at the head: one that waits there; else of a grid the lowest index not yet dispatched, of a
plate a due cell, else one of the largest residual. -/
def HeadOfLaunch : Prop :=
  ∀ (l : Launch) (now die i : Nat) (due : Bool) (rho : Word), l.head now die = some (i, due, rho) →
    (sget 0 l.waiting die ≠ 0 → i + 1 = sget 0 l.waiting die)
    ∧ (sget 0 l.waiting die = 0 → ∃ e, l.cells[i]? = some e ∧ l.inShare die i = true ∧ e.running = false
      ∧ (l.kind = .grid → e.ended = false ∧ ∀ j x, j < i → l.cells[j]? = some x → l.inShare die j = true → x.running = true ∨ x.ended = true)
      ∧ (l.kind ≠ .grid → l.candidate now e = true ∧ due = l.isDue e ∧ rho = e.rho
        ∧ (due = true → ∀ j x, l.cells[j]? = some x → l.inShare die j = true → l.candidate now x = true → l.isDue x = true → x.passed ≤ e.passed)
        ∧ (due = false → ∀ j x, l.cells[j]? = some x → l.inShare die j = true → l.candidate now x = true →
          l.isDue x = false ∧ x.rho.toNat ≤ e.rho.toNat)))
/-- R25, R48, R152: a placed cell's fibres begin at the entry address, w0 their index and w1 the cell's; k0 to k47 hold the
constants, k48 to k59 zero, k60 to k63 the generator words. Log entries 2 and 6: the reading taken. -/
def PlacedCell : Prop :=
  ∀ (s : State) (l : Launch) (i c home : Nat) (hold : Bool), l.rcd.gen.length = 4 → l.consts.length ≤ 48 →
    ∃ x ∈ (placeCell s l i c home hold).cells, x.id = s.next ∧ x.launch = l.id ∧ x.index = i ∧ x.part = l.part ∧ x.fn = l.fn ∧ x.cluster = c
      ∧ x.fibres.length = l.rcd.fibres
      ∧ (∀ j, j < 48 → sget 0 x.k j = l.consts.getD j 0) ∧ (∀ j, 48 ≤ j → j < 60 → sget 0 x.k j = 0)
      ∧ (∀ j, j < 4 → sget 0 x.k (60 + j) = l.rcd.gen.getD j 0)
      ∧ ∀ n, n < l.rcd.fibres → ∃ f ∈ x.fibres, f.idx = n ∧ f.lane = n % 32 ∧ f.preds = 1
          ∧ f.pc = (if l.kind = .grid ∨ l.rcd.entryTab = 0 then l.rcd.entry else ((l.cells[i]?).getD {}).entry)
          ∧ sget 0 f.stack 0 = BitVec.ofNat 32 n ∧ sget 0 f.stack 1 = BitVec.ofNat 32 i
          ∧ f.disp = dispatchDisp l.rcd home
/-- R85: FAIRT_EXPIRY makes a cell runnable when its oldest record has waited FAIRT microseconds, and does nothing before. -/
def FairnessTime : Prop :=
  ∀ (s : State) (l : Launch) (i : Nat) (e : Entry), s.launch? l.id = some l → l.cells[i]? = some e →
    (l.kind = .expert → l.rcd.fairT ≠ 0 → 0 < e.occ → e.stamps.headD s.now + l.rcd.fairT * ticksPerMicro ≤ s.now →
      exec (.fairtExpiry l.id i) s = .next (s.setLaunch l.id fun l => l.setEntry i fun e => { e with runnableByTime := true }))
    ∧ (l.kind ≠ .expert ∨ l.rcd.fairT = 0 ∨ e.occ = 0 ∨ s.now < e.stamps.headD s.now + l.rcd.fairT * ticksPerMicro →
      exec (.fairtExpiry l.id i) s = .next s)
/-- R16, R157, R158: a drained cluster, on which no cell takes room from the one that waits for it (log entry 42), takes that one's split,
which is then placed there. The split leaves L1 768 KiB less 128 KiB for each unit, and the blocks that no longer fit leave it. Log entry
35: the reading taken. -/
def SplitSwitch : Prop :=
  (∀ (s : State) (cl split : Nat), let t := s.setSplit cl split
    t = { s with splits := sput 0 s.splits cl split, blocks := t.blocks } ∧ t.blocks.Sublist s.blocks
      ∧ t.blocks.filter (fun b => b.cluster != cl) = s.blocks.filter (fun b => b.cluster != cl)
      ∧ ((t.blocks.filter fun b => b.cluster == cl).map (·.bytes.length)).sum ≤ 768 * 1024 - 128 * 1024 * split)
  ∧ ∀ (s : State) (cl : Nat) (l : Launch), s.draining.find? (·.1 == cl) = some (cl, l.id) →
    s.launch? l.id = some l →
    (occupants s cl l.fn ≠ [] → exec (.clusterSplitSwitch cl) s = .next s)
    ∧ (occupants s cl l.fn = [] →
      let t : State := ({ s with draining := s.draining.filter (·.1 != cl) } : State).setSplit cl l.rcd.split
      (l.head s.now (dieOf cl) = none → exec (.clusterSplitSwitch cl) s = .next t)
      ∧ (∀ h, l.head s.now (dieOf cl) = some h → maySchedule t l.part l.fn = true → isNext t l (dieOf cl) h = true → l.rcd.cohort ≤ 1 →
        roomOn t cl l.fn l.rcd = true → exec (.clusterSplitSwitch cl) s =
          .next (if frameHeld t l [(h.1, cl)] then t else dispatchAt t l (dieOf cl) [(h.1, cl)])))
/-- R71, R79: what the commit of an update changes in its plate: the residual of its own cell becomes its report plus the arrivals,
rounded up, and each dependent's rises by its share, an edge after another; in an expert-queue plate neither. The cell runs no more. A
plate whose residuals are then all within ε, or whose queues are all empty, with no update running, is converged, in a new generation
where it was not; a residual above ε withdraws that. -/
def CommitEntries : Prop :=
  ∀ (l : Launch) (i : Nat) (v d : Word) (e : Entry), l.cells[i]? = some e →
    let u := commitEntries l i v d
    (l.kind = .plate → (∀ x ∈ e.edges, x.1 ≠ i) →
      u.cells[i]? = some { e with rho := upAdd v e.arrivals, arrivals := 0, running := false }
      ∧ ∀ j x, j ≠ i → l.cells[j]? = some x →
        ((∀ y ∈ e.edges, y.1 ≠ j) → u.cells[j]? = some x)
        ∧ ∀ pre w post, e.edges = pre ++ (j, w) :: post → (∀ y ∈ pre ++ post, y.1 ≠ j) →
          u.cells[j]? = some { x with rho := upAdd x.rho (share w d), arrivals := if x.running then upAdd x.arrivals (share w d) else x.arrivals })
    ∧ (l.kind = .expert → u.cells[i]? = some { e with running := false } ∧ ∀ j, j ≠ i → u.cells[j]? = l.cells[j]?)
    ∧ (l.kind ≠ .grid →
      let calm : Prop := ∀ x ∈ u.cells, x.running = false ∧ (l.kind = .plate → settledRho x.rho l.rcd.eps = true) ∧ (l.kind = .expert → x.tail - x.head = 0)
      (calm → u.conv = true ∧ u.gen = if l.conv then l.gen else l.gen + 1)
      ∧ (¬ calm → u.gen = l.gen
        ∧ ((∃ x ∈ u.cells, if l.kind = .expert then x.tail - x.head ≠ 0 else settledRho x.rho l.rcd.eps = false) → u.conv = false)
        ∧ ((∀ x ∈ u.cells, if l.kind = .expert then x.tail - x.head = 0 else settledRho x.rho l.rcd.eps = true) → u.conv = l.conv)))
/-- R28, R71, R196: SETTLE_COMMIT of a plate cell whose fibres all stand at SETTLE with nothing pending and every flag
zero, their release at device scope done, writes the held bytes,
passes the residual on (CommitEntries), and ends the cell's fibres; a held byte that cannot be written traps instead. Any other does
nothing. Log entries 15 and 34: the reading taken. -/
def SettleCommits : Prop :=
  ∀ (s : State) (c : Cell) (f : Fibre) (fs : List Fibre), s.cell? c.id = some c → c.fibres = f :: fs →
    (c.settled = true ∨ kindOf s c = .grid ∨ c.resident = false ∨ (∃ f ∈ c.fibres, f.status ≠ .blocked .settle ∨ s.idle ⟨c.id, f.idx⟩ = false)
      ∨ covered s c.id .dev c.fibres = false ∨ s.invalsClear c.cluster = false ∨ heldReady s c = false → exec (.settleCommit c.id) s = .next s)
    ∧ ((∃ f ∈ c.fibres, ∃ n, n < 12 ∧ f.flag n ≠ 0) → exec (.settleCommit c.id) s = .next s)
    ∧ (c.resident = true → kindOf s c ≠ .grid → c.settled = false → allAt c isSettle = true → c.fibres.all (fun f => s.idle ⟨c.id, f.idx⟩) = true →
      (∀ f ∈ c.fibres, ∀ n, n < 12 → f.flag n = 0) →
      covered s c.id .dev c.fibres = true → s.invalsClear c.cluster = true → heldReady s c = true →
      let put := landAll s c true c.held
      (∀ a e, put = .error (a, e) → exec (.settleCommit c.id) s = .next (takeTraps s c.id f.hatch [⟨f.idx, { cause := e, detail := if e = .uncorrectable then 1 else 2, faddr := a }, f.waitAt⟩]))
      ∧ (∀ t, put = .ok t →
        exec (.settleCommit c.id) s = .next (c.fibres.foldl (fun s f => finishQuit s ⟨c.id, f.idx⟩)
          ((t.setCell c.id fun c => { c with settled := true, held := [] }).setLaunch c.launch fun l => commitEntries l c.index c.repV c.repD))))
end Sys2Proof.Rules


/-! ### Queues and packets -/

namespace Sys2Proof.Rules
/-- R231, R235, R277, R372, R373: PACKET_READ takes the packet that READ names, with the checks made as it is read, and moves
READ; while its function resets it completes ABORTED. A queue that is inactive, empty, or has a packet not yet launched reads
nothing. Log entry 36: the reading taken. -/
def PacketReads : Prop :=
  ∀ (s : State) (r : QueueReg) (fn : Fn) (bs : List Byte), s.queues.find? (fun x => x.id == r.id && !x.chain) = some r →
    s.fn? r.part r.fn = some fn → closing s r = false → Free s r r.addr 64 → homeRead s r.who r.addr .read 64 = .ok bs →
    let h := qHdrOf bs
    let slot := h.ring + 64 * (h.read % h.size)
    (h.write ≤ h.read ∨ h.st = 0 ∨ (∃ p ∈ s.packets, p.queue = r.id ∧ p.stage ≠ .launched) → exec (.packetRead r.id) s = .next s)
    ∧ (h.read < h.write → h.st ≠ 0 → (∀ p ∈ s.packets, p.queue = r.id → p.stage = .launched) → Free s r slot 64 →
      let aborted : Prop := h.st = 2 ∨ fn.resetting = true
      let read (p : Packet) (st : PStage) : Host.Outcome State Fault Refusal :=
        let u := (devPut (touchHomes s r.who none false .read slot 64) r (r.addr + 24) (bytesOfNat 8 (h.read + 1))).setQueue r.id fun x =>
          { x with posted := x.posted.filter (·.1 != h.read) }
        .next { u with packets := u.packets ++ [{ p with id := s.next, queue := r.id, index := h.read, stage := st, held := p.field 4 4 == 1
                                                         parent := (r.posted.find? (·.1 == h.read)).map (·.2) }], next := u.next + 1 }
      (∀ e, homeRead s r.who slot .read 64 = .error e →
        let p : Packet := { id := 0, queue := 0, index := 0, bytes := [], known := false }
        (aborted → exec (.packetRead r.id) s = read p (.done 3)) ∧ (¬ aborted → exec (.packetRead r.id) s = read p (.done 6)))
      ∧ (∀ b, homeRead s r.who slot .read 64 = .ok b →
        let p : Packet := { id := 0, queue := 0, index := 0, bytes := b }
        (aborted → exec (.packetRead r.id) s = read p (.done 3))
        ∧ (¬ aborted → exec (.packetRead r.id) s = read p (if p.badIn s r.part then .done 1 else .read))))
/-- A packet that has passed its checks, with its queue, and may start (R236). -/
def Starts (s : State) (p : Packet) (q : QueueReg) (type : Nat) : Prop := startable s p.id type = some (p, q)
/-- R236: what it takes to start: read, of its type, not held by BAR, its poster complete. PACKET_BAR_RELEASE ends the hold once
every earlier packet of the queue is complete. -/
def PacketStarts : Prop :=
  ∀ (s : State) (p : Packet) (q : QueueReg) (type : Nat), s.packet? p.id = some p → s.queueOf p = some q →
    (Starts s p q type ↔ p.stage = .read ∧ p.held = false ∧ p.type = type ∧ parentDone s p = true)
    ∧ (p.held = true →
      ((∀ y ∈ s.packets, y.queue = p.queue → p.index ≤ y.index) →
        exec (.packetBarRelease p.id) s = .next (s.setPacket p.id fun x => { x with held := false }))
      ∧ ((∃ y ∈ s.packets, y.queue = p.queue ∧ y.index < p.index) → exec (.packetBarRelease p.id) s = .next s))
/-- R42, R60, R66, R79, R235, R236, R238: GRID and PLATE packets install a launch, a plate of empty queues as converged, or
complete with the status of their check. -/
def LaunchPackets : Prop :=
  ∀ (s : State) (p : Packet) (q : QueueReg) (plate : Bool), Starts s p q (if plate then 2 else 1) →
    let go := exec (if plate then .platePacket p.id else .gridPacket p.id) s
    (∀ st, st ≠ 0 → prepare s p q plate = .error st → go = .next (s.packetDone p.id st))
    ∧ (∀ l, prepare s p q plate = .ok l →
      let u := l.spans.foldl (fun s x => touchHomes s q.cmdWho none false .read x.1 x.2) s
      go = .next (launchNow { u with next := u.next + 1 } p l)
      ∧ (l.n = 0 → p.field 15 13 = 0 → go = .next ({ u with next := u.next + 1 }.packetDone p.id 0))
      ∧ (l.n ≠ 0 → p.field 15 13 = 0 → l.rcd.pfSize = 0 → ∃ t, go = .next t ∧ checkConverged { l with dvfsWait := false } ∈ t.launches
          ∧ t.cells = s.cells ∧ t.mem = u.mem ∧ t.accs = s.accs ∧ t.frames = s.frames ∧ t.queues = s.queues))
/-- R235, R241, R42: a record that breaks a limit, and a vector that does, give CFG_INVALID; a launch of a grid holds what its
record says. Log entry 36: the reading taken. -/
def PreparedLaunch : Prop :=
  ∀ (s : State) (p : Packet) (q : QueueReg) (bs : List Byte), Free s q p.record 256 → homeRead s q.cmdWho p.record .read 256 = .ok bs →
    let r := recordOf bs
    let b := [p.field 223 192, p.field 255 224, p.field 287 256]
    (∀ plate, recordBad bs plate = true ∨ vectorBad s q.part (p.field 63 32) r.cohort b = true → prepare s p q plate = .error 1)
    ∧ (recordBad bs false = false → vectorBad s q.part (p.field 63 32) r.cohort b = false → r.const = 0 → p.field 63 32 ≠ 0 →
      prepare s p q false = .ok { id := s.next, kind := .grid, part := q.part, fn := q.fn, packet := p.id, recAddr := BitVec.ofNat 64 p.record
                                  n := p.field 63 32, bounds := b, rcd := r, consts := [], prio := p.field 12 11, seq := s.next
                                  cells := List.replicate (p.field 63 32) { rho := infWord } })
/-- R88, R236, R237, R239, R240: NOP completes; BARRIER reads each nonzero signal until it is 0, and aborts at one below 0;
UNPLATE stops the plate's dispatch and removes it once no update runs. Log entries 34 and 36: the reading taken. -/
def OtherPackets : Prop :=
  ∀ (s : State) (p : Packet) (q : QueueReg),
    (Starts s p q 0 → exec (.packetNop p.id) s = .next (s.packetDone p.id 0))
    ∧ (Starts s p q 3 → exec (.barrierPacket p.id) s = .next (s.setPacket p.id fun x => { x with stage := .barrier ((List.range 5).filter fun k => p.signal k != 0) }))
    ∧ (∀ ks k v, s.packet? p.id = some p → s.queueOf p = some q → p.stage = .barrier ks → k ∈ ks → Free s q (p.signal k) 8 →
      (∀ e, homeNat s q.cmdWho (p.signal k) 8 = .error e → exec (.barrierSignalRead p.id k) s = .next (s.packetDone p.id 6))
      ∧ (homeNat s q.cmdWho (p.signal k) 8 = .ok v →
        let u := touchHomes s q.cmdWho none false .read (p.signal k) 8
        (v = 0 → exec (.barrierSignalRead p.id k) s = .next (u.setPacket p.id fun x => { x with stage := .barrier (ks.filter (· != k)) }))
        ∧ (0 < v → v < 2 ^ 63 → exec (.barrierSignalRead p.id k) s = .next u)
        ∧ (2 ^ 63 ≤ v → exec (.barrierSignalRead p.id k) s = .next (u.packetDone p.id 3))))
    ∧ (Starts s p q 4 →
      let plate (l : Launch) : Bool := l.kind != .grid && l.part == q.part && l.fn == q.fn && l.recAddr.toNat == p.record
      (s.launches.find? plate = none → exec (.unplatePacket p.id) s = .next (s.packetDone p.id 5))
      ∧ ∀ l, s.launches.find? plate = some l →
        exec (.unplatePacket p.id) s = .next ((s.setLaunch l.id fun l => { l with unplating := true }).setPacket p.id fun x => { x with stage := .unplating, launch := l.id }))
    ∧ (∀ l, s.packet? p.id = some p → p.stage = .unplating → s.launch? p.launch = some l →
      ((∃ e ∈ l.cells, e.running = true) → exec (.unplatePacket p.id) s = .next s)
      ∧ ((∀ e ∈ l.cells, e.running = false) →
        exec (.unplatePacket p.id) s = .next ((removePlate s l).setPacket l.packet fun y => { y with stage := .done y.failed })))
/-- R237, R240, R372: PACKET_COMPLETE of a packet that can complete with a status: the release at system scope, the completion
signal, LAST on a failure, the abort state; the packet is gone. One that cannot complete stays. Log entry 36: the reading
taken. -/
def PacketCompletes : Prop :=
  ∀ (s : State) (p : Packet) (q : QueueReg), s.packet? p.id = some p → s.queueOf p = some q →
    (completionStatus s p = none → exec (.packetComplete p.id) s = .next s)
    ∧ (∀ st, completionStatus s p = some st → p.stage ≠ .launched → p.known = true → (p.field 127 64 = 0 ∨ Free s q (p.field 127 64) 8) →
      Free s q q.addr 64 →
      let a := if p.field 10 8 = 4 then writeBackAll s (s.asid q.part q.fn) else s
      let r := raiseSignal a q (p.field 127 64) st
      let st' := if r.2 then st else 6
      let b := if st' = 0 then r.1 else devPut r.1 q (q.addr + 36) (bytesOfNat 1 st')
      let b := if p.type = 3 ∧ st' = 3 then putQueueState b q 2 else b
      exec (.packetComplete p.id) s = .next (afterAll { b with packets := b.packets.filter (·.id != p.id) }))
    ∧ (∀ l, p.stage = .launched → s.launch? p.launch = some l → l.kind = .grid → (∀ e ∈ l.cells, e.ended = true) → completionStatus s p = some p.failed)
/-- R237: the completion signal of a packet that succeeds is lowered by 1, modulo 2^64; of one that fails, it takes minus the
status. Log entry 36: the reading taken. -/
def CompletionSignal : Prop :=
  ∀ (s : State) (q : QueueReg) (a st : Nat), a ≠ 0 →
    let u := touchHomes s q.cmdWho none false .write a 8
    (a % 8 ≠ 0 → raiseSignal s q a st = (s, false))
    ∧ (a % 8 = 0 → st = 0 → ∀ old t, homeNat s q.cmdWho a 8 = .ok old → homeWrite u q.cmdWho none a (bytesOfNat 8 ((old + (2 ^ 64 - 1)) % 2 ^ 64)) = .ok t →
      raiseSignal s q a st = (t, true))
    ∧ (a % 8 = 0 → 0 < st → ∀ t, homeWrite u q.cmdWho none a (bytesOfNat 8 (2 ^ 64 - st)) = .ok t → raiseSignal s q a st = (t, true))
/-- R232: a host write of 8 bytes at the start of a doorbell stores WRITE of a store-fed queue; another width, another byte, and
a queue that the device feeds store nothing. -/
def Doorbell : Prop :=
  ∀ (s : State) (part fn off width : Nat) (v : DWord) (q : QueueReg) (k : Nat) (bs : List Byte), doorbellAt s part fn off = some (q, k) →
    Free s q q.addr 64 → homeRead s q.who q.addr .read 64 = .ok bs →
    (k ≠ 0 ∨ width ≠ 8 ∨ (qHdrOf bs).dev = true → exec (.doorbellWrite part fn off width v) s = .next s)
    ∧ (k = 0 → width = 8 → (qHdrOf bs).dev = false → exec (.doorbellWrite part fn off width v) s = .next (devPut s q (q.addr + 16) (bytesOfNat 8 v.toNat)))
/-- A command that QUEUE.CMD of partition p holds and that has not run (R230). -/
def Commanded (s : State) (p : Partition) (cmd : Nat) : Prop :=
  s.part? p.id = some p ∧ p.queueBusy = true ∧ p.queueRan = false ∧ bits p.queueCmd.toNat 2 0 = cmd
/-- The command has run: FAIL says how, IDX keeps or takes its value. -/
def ran (s : State) (part : Nat) (fail : Bool) (idx : Option Nat) : Host.Outcome State Fault Refusal :=
  .next (s.setPart part fun p => { p with queueRan := true, queueFail := fail, queueIdx := idx.getD p.queueIdx })
/-- R230: registering and unregistering a queue or a chain, command 3, and the fall of BUSY, with which a new queue or chain counts
as registered. What stands at its address already, of either kind, makes a registration fail. Log entry 37: the reading taken. -/
def QueueCommands : Prop :=
  ∀ (s : State) (p : Partition),
    (∀ chain, Commanded s p (if chain then 4 else 1) →
      let go := exec (if chain then .chainRegister p.id else .queueRegister p.id) s
      (register chain s p = .fail → go = ran s p.id true none)
      ∧ (∀ t i, register chain s p = .ok t i → go = ran t p.id false i ∧ t.queues = s.queues ∧ ∃ x, t.part? p.id = some x ∧ x.queueNew.isSome = true)
      ∧ ∀ kind, (regAt s p.id p.cmdFn p.queueAddr.toNat kind).isSome = true → register chain s p = .fail)
    ∧ (∀ chain, Commanded s p (if chain then 5 else 2) → regAt s p.id p.cmdFn p.queueAddr.toNat chain = none →
      exec (if chain then .chainUnregister p.id else .queueUnregister p.id) s = ran s p.id true none)
    ∧ (∀ q, Commanded s p 2 → regAt s p.id p.cmdFn p.queueAddr.toNat false = some q → Free s q q.addr 64 → (∀ x ∈ s.packets, x.queue ≠ q.id) →
      exec (.queueUnregister p.id) s = ran { putQueueState s q 0 with queues := s.queues.filter (·.id != q.id) } p.id false none)
    ∧ (∀ q bs, Commanded s p 5 → regAt s p.id p.cmdFn p.queueAddr.toNat true = some q → (s.engine q.id).stage = .idle →
      homeRead s q.who q.addr .read 64 = .ok bs → (cHdrOf bs).head = (cHdrOf bs).tail →
      exec (.chainUnregister p.id) s = ran { s with queues := s.queues.filter (·.id != q.id), engines := s.engines.filter (·.queue != q.id) } p.id false none)
    ∧ (∀ q b, Commanded s p 3 → regAt s p.id p.cmdFn p.queueAddr.toNat false = some q → Free s q q.addr 64 → homeNat s q.who (q.addr + 13) 1 = .ok b →
      exec (.queueClearAbort p.id) s = ran (if b % 4 = 2 then putQueueState s q 1 else s) p.id false none)
    ∧ (s.part? p.id = some p → p.queueBusy = true →
      (p.queueRan = true → exec (.queueCmdComplete p.id) s = .next ({ s with queues := s.queues ++ p.queueNew.toList }.setPart p.id fun p =>
        { p with queueBusy := false, queueRan := false, queueNew := none }))
      ∧ (p.queueRan = false → exec (.queueCmdComplete p.id) s = .next s))
end Sys2Proof.Rules


/-! ### Registers and their events -/

namespace Sys2Proof.Rules
/-- R141: a read through an .RC alias is followed by the clearing of its register: the cell's arithmetic status, a matrix unit's. -/
def StatusClears : Prop :=
  ∀ (s : State) (c q : Nat), swf 0 s.mxStatus = true →
    (exec (.arithStatusRc c) s = .next (s.setCell c fun c => { c with arith := 0 }))
    ∧ (exec (.mxStatusRc q) s = .next (s.setMx q 0) ∧ (s.setMx q 0).mx q = 0 ∧ ∀ u, u ≠ q → (s.setMx q 0).mx u = s.mx u)
/-- R197, R199: a write of ORD.PINTO sets the 20 bits of its timeout and ends every pin of the partition. R275: a write of
VF.QUANTUM of 0 is refused with CFG_INVALID, another is raised to SAVE.TIME at least. -/
def PartitionWrites : Prop :=
  ∀ (s : State) (p : Partition) (v : Word), s.part? p.id = some p →
    exec (.ordPintoWrite p.id v) s = .next (afterAll (freePins (endPins (s.setPart p.id fun p => { p with pinto := v.toNat % 2 ^ 20 }) (·.part == p.id))))
    ∧ (v = 0 → exec (.vfQuantumWrite p.id v) s = .next (afterAll (s.setFn p.id p.vfSel fun f => { f with last := 1 })))
    ∧ (v ≠ 0 → exec (.vfQuantumWrite p.id v) s = .next (afterAll (s.setFn p.id p.vfSel fun f => { f with quantum := max v.toNat (saveTime s p), last := 0 })))
/-- R295, R296, R303: a heater's write takes effect in the host's bank; a ring moves to a slot from 0 to 16 that no other ring
of its bank takes (at reset the free one is 16), and a refused move sets ERR; a photodiode sample takes the ring's light by the optical model.
A slot that has failed takes no ring (log entry 44). Log entry 7: the reading taken. -/
def PhotonicWrites : Prop :=
  ∀ (s : State) (p : Partition) (n : Nat) (v : Word), s.part? p.id = some p → n < 16 →
    let b := p.hostBank.toNat
    let slot := v.toNat % 32
    let goal (t : State) : Host.Outcome State Fault Refusal := .next (afterAll t)
    exec (.photHeatWrite p.id n v) s = goal { s with heaters := sput 0 s.heaters (16 * b + n) (v.toNat % 4096 + 1) }
    ∧ (slot = ringSlot s b n → exec (.photMapWrite p.id n v) s = goal s)
    ∧ (slot ≠ ringSlot s b n → slot ≤ 16 → slotFailed s b slot = false → (∀ m, m < 16 → m ≠ n → ringSlot s b m ≠ slot) →
      exec (.photMapWrite p.id n v) s = goal { s with rings := sput 0 s.rings (16 * b + n) (slot + 1) })
    ∧ (slot ≠ ringSlot s b n → 16 < slot ∨ slotFailed s b slot = true ∨ (∃ m, m < 16 ∧ m ≠ n ∧ ringSlot s b m = slot) →
      exec (.photMapWrite p.id n v) s = goal (s.setPart p.id fun p => { p with hostErr := true }))
    ∧ ∀ k, k < 256 → exec (.photMpdSample k n) s = .next { s with diodes := sput 0 s.diodes (16 * k + n) (ringLevel s k n) }
/-- R286: SYSREG_WRITE reaches register n at 0x1000 + 8n, and a virtual function's copies of 0x040 to 0x045, where a read of the
host's finds them too; no other offset writes anything. R165, R171: MEM.PTROOT is each function's own. -/
def HostRegisterWrites : Prop :=
  ∀ (s : State) (part : Nat) (v : DWord),
    (∀ n, n < 4096 → exec (.sysregWrite part (0x1000 + 8 * n) v) s = hostWrite part 64 n v s
      ∧ hostRegRead s part (0x1000 + 8 * n) = some (readReg s (.host part 64) n))
    ∧ (∀ f n, f < 64 → n < 6 → exec (.sysregWrite part (0x100000 + 0x1000 * f + 8 * n) v) s = hostWrite part f (0x040 + n) v s
      ∧ hostRegRead s part (0x100000 + 0x1000 * f + 8 * n) = some (readReg s (.host part f) (0x040 + n)))
    ∧ (∀ off, off % 8 ≠ 0 ∨ off < 0x1000 ∨ 0x140000 ≤ off ∨ (0x9000 ≤ off ∧ off < 0x100000) ∨ (0x100000 ≤ off ∧ 0x30 ≤ off % 0x1000) → exec (.sysregWrite part off v) s = .next s)
    ∧ (∀ fn, hostWrite part fn 0x041 v s = .next (afterAll (s.setFn part fn fun f => { f with ptroot := loWord v })))
    ∧ exec (.sysregWrite part (0x1000 + 8 * 0x041) v) s = .next (afterAll (s.setFn part 64 fun f => { f with ptroot := loWord v }))
/-- R277, R284: a function-level reset, by VF.RESET or by PCIe, starts the reset of the function, a virtual one or the physical
one: its cells end, its launches go, its tiles are scrubbed; BUSY falls once no packet of its queues is left, read or unread. A
function already in reset is not reset again. Log entry 41: the reading taken. -/
def FunctionReset : Prop :=
  ∀ (s : State) (f : Fn), s.fn? f.part f.num = some f →
    exec (.vfReset f.part f.num) s = .next (afterAll (startReset s f.part f.num))
    ∧ exec (.pcieFunctionLevelReset f.part f.num) s = .next (afterAll (startReset s f.part f.num))
    ∧ (f.resetting = true → startReset s f.part f.num = s)
    ∧ (f.resetting = false →
      let t := startReset s f.part f.num
      (∀ c ∈ t.cells, ¬ (c.part = f.part ∧ c.fn = f.num)) ∧ (∀ l ∈ t.launches, ¬ (l.part = f.part ∧ l.fn = f.num))
      ∧ (∀ a ∈ t.accs, ¬ (a.part = f.part ∧ a.fn = f.num)) ∧ (∀ x ∈ t.frames, ¬ (x.part = f.part ∧ x.fn = f.num))
      ∧ (∀ x ∈ t.mxTiles, x.2.leftBy ≠ some (f.part, f.num)) ∧ (∀ x ∈ t.saved, ¬ (x.part = f.part ∧ x.fn = f.num))
      ∧ (∀ c ∈ s.cells, ¬ (c.part = f.part ∧ c.fn = f.num) → c ∈ t.cells)
      ∧ ∀ g, t.fn? f.part f.num = some g → g = { f with resetting := true })
    ∧ (f.resetting = true →
      let own (q : QueueReg) : Bool := q.part == f.part && q.fn == f.num && !q.chain
      ((∀ q ∈ s.queues, own q = true → unread s q = false ∧ ∀ p ∈ s.packets, q.id ≠ p.queue) →
        exec (.functionResetComplete f.part f.num) s = .next (s.setFn f.part f.num fun f => { f with resetting := false }))
      ∧ ((∃ q ∈ s.queues, own q = true ∧ (unread s q = true ∨ ∃ p ∈ s.packets, q.id = p.queue)) →
        exec (.functionResetComplete f.part f.num) s = .next s))
/-- R167: a shoot-down removes the pages that its command named from the TLBs, the slices, and the L1s; then BUSY falls. Log entry 25: the
reading taken. -/
def ShootDown : Prop :=
  ∀ (s : State) (f : Fn), s.fn? f.part f.num = some f →
    (f.shootBusy = false → exec (.memShoot f.part f.num) s = .next s ∧ exec (.shootComplete f.part f.num) s = .next s)
    ∧ (f.shootBusy = true → exec (.memShoot f.part f.num) s = .next (purge s f.part f.num f)
      ∧ exec (.shootComplete f.part f.num) s = .next ((purge s f.part f.num f).setFn f.part f.num fun f => { f with shootBusy := false }))
    ∧ (∀ b z, shootRange f = some (b, z) →
      let t := purge s f.part f.num f
      (∀ l ∈ t.lines, ¬ (l.asid = f.asid.toNat ∧ 64 * l.line < b + z ∧ b < 64 * l.line + 64))
      ∧ (∀ e ∈ t.tlb, e.asid = f.asid.toNat → e.big = false → ¬ (65536 * e.page < b + z ∧ b < 65536 * e.page + 65536))
      ∧ (∀ k ∈ t.blocks, k.asid = some f.asid.toNat → ¬ (k.base < b + z ∧ b < k.base + k.bytes.length)))
    ∧ (bits f.shoot.toNat 9 9 = 1 →
      let t := purge s f.part f.num f
      (∀ l ∈ t.lines, l.asid ≠ f.asid.toNat) ∧ (∀ e ∈ t.tlb, e.asid ≠ f.asid.toNat) ∧ ∀ k ∈ t.blocks, k.asid ≠ some f.asid.toNat)
/-- R172: a frame release takes the lines and translations of the frame that its command named out, and the blocks filled from
it, and fills it with zero; then BUSY falls; until then walks into the frame wait. A 2 MiB release takes the frame that holds its
address, a reading (log entry 55). Log entry 25: the reading taken. -/
def ReleasedFrame : Prop :=
  ∀ (s : State) (f : Fn), s.fn? f.part f.num = some f →
    (f.relBusy = true → f.released = false →
      let z := if bits f.rel.toNat 0 0 = 1 then 2 ^ 21 else 2 ^ 16
      let pa := f.relAt.toNat * 65536 / z * z
      ∃ t, exec (.frameRelease f.part f.num) s = .next t
        ∧ (∀ a, pa ≤ a → a < pa + z → bget t.mem a = 0) ∧ (∀ l ∈ t.lines, ¬ (pa ≤ l.pa ∧ l.pa < pa + z))
        ∧ (∀ e ∈ t.tlb, ¬ (e.xlat.pa < pa + z ∧ pa < e.xlat.pa + (if e.big then 2 ^ 21 else 2 ^ 16)))
        ∧ (∀ b ∈ t.blocks, b.asid ≠ none → ¬ (pa ≤ b.pa ∧ b.pa < pa + z))
        ∧ (∀ g, t.fn? f.part f.num = some g → g = { f with released := true }) ∧ t.cells = s.cells)
    ∧ (f.relBusy = true → f.released = true →
      exec (.frameRelease f.part f.num) s = .next s
      ∧ exec (.frameReleaseComplete f.part f.num) s = .next (s.setFn f.part f.num fun f => { f with relBusy := false }))
    ∧ (f.relBusy = false → exec (.frameRelease f.part f.num) s = .next s ∧ exec (.frameReleaseComplete f.part f.num) s = .next s)
    ∧ (f ∈ s.fns → f.relBusy = true →
      let z := if bits f.rel.toNat 0 0 = 1 then 2 ^ 21 else 2 ^ 16
      let pa := f.relAt.toNat * 65536 / z * z
      ∀ a n, a < pa + z → pa < a + n → s.underRelease a n = true)
/-- R293: the group table: a descriptor that keeps its limits is loaded, another fails; a clear removes an entry; either waits
while a collective uses the entry. -/
def GroupTable : Prop :=
  ∀ (s : State) (p : Partition), s.part? p.id = some p → p.collBusy = true →
    (groupInUse s p.id p.collGroup = true → exec (.collLoad p.id) s = .next s ∧ exec (.collClear p.id) s = .next s)
    ∧ (groupInUse s p.id p.collGroup = false →
      (p.collCmd = 2 → exec (.collClear p.id) s = .next (s.setPart p.id fun p =>
        { p with collBusy := false, collFail := false, groups := p.groups.filter (·.1 != p.collGroup) }))
      ∧ (p.collCmd = 1 → heldBack s [] p.id p.collFn p.collAddr.toNat 128 = false →
        (p.collAddr.toNat % 64 ≠ 0 → exec (.collLoad p.id) s = .next (s.setPart p.id fun p => { p with collBusy := false, collFail := true }))
        ∧ (p.collAddr.toNat % 64 = 0 → ∀ bs, homeRead s ⟨p.id, p.collFn, true⟩ p.collAddr.toNat .read 128 = .ok bs →
          (groupOf s.deviceNumber bs = none → exec (.collLoad p.id) s = .next (s.setPart p.id fun p => { p with collBusy := false, collFail := true }))
          ∧ ∀ g, groupOf s.deviceNumber bs = some g → exec (.collLoad p.id) s = .next (s.setPart p.id fun p =>
            { p with collBusy := false, collFail := false, groups := (p.collGroup, g) :: p.groups.filter (·.1 != p.collGroup) }))))
/-- R186: a counter that reaches HOT.THR is reset and logged; in a full log it is counted in HOT.DROP; with HOT.THR 0, and
below it, nothing happens. Log entry 47: the reading taken. -/
def Hotness : Prop :=
  ∀ (s : State) (p : Partition) (port page src fn : Nat), s.part? p.id = some p →
    let k := hotKey (s.asid p.id fn) port page src
    let n := sget 0 s.hot k
    let t : State := { s with hot := sput 0 s.hot k 0 }
    let a := p.hotBase.toNat * 65536 + 16 * (p.hotHead.toNat % p.hotSize.toNat)
    (p.hotThr = 0 ∨ n < p.hotThr.toNat → exec (.hotThreshold port page src p.id fn) s = .next s)
    ∧ (p.hotThr ≠ 0 → p.hotThr.toNat ≤ n →
      (p.hotHead - p.hotTail = p.hotSize → exec (.hotThreshold port page src p.id fn) s = .next (t.setPart p.id fun p => { p with hotDrop := p.hotDrop + 1 }))
      ∧ (p.hotHead - p.hotTail ≠ p.hotSize → heldBack s [] p.id 64 a 16 = false →
        ∀ u, homeWrite t ⟨p.id, 64, true⟩ none a (hotRecord n src (s.asid p.id fn) page) = .ok u →
          exec (.hotThreshold port page src p.id fn) s = .next (u.setPart p.id fun p => { p with hotHead := p.hotHead + 1 })))
end Sys2Proof.Rules


/-! ### Functions, parts, islands, power -/

namespace Sys2Proof.Rules
/-- R276: at the end of a holder's slice the swap to the next holder begins; where the next is the holder itself, its next
slice begins at once. A slice that is not over, and a swap in progress, stay. Log entry 43: the reading taken. -/
def SliceEnds : Prop :=
  ∀ (s : State) (p : Partition) (h : Nat),
    let a := admitFns s p.id
    a.part? p.id = some p → p.holder = some h →
    (p.swapping = true ∨ sliceOver a p h = false → exec (.sliceExpiry p.id) s = .next a)
    ∧ (p.swapping = false → sliceOver a p h = true →
      (nextHolder a p.id = some h → exec (.sliceExpiry p.id) s = .next (beginSlice a p.id h))
      ∧ ∀ n, nextHolder a p.id = some n → n ≠ h →
        exec (.sliceExpiry p.id) s = .next (endPins (a.setPart p.id fun p => { p with swapping := true })
          fun q => (functionCells a p.id h).any (·.id == q.cell)))
/-- R269 to R271: once the outgoing context has drained, it is saved and the next holder's is restored; a partition without a
holder goes to the next with work. R276: a slice lasts QUANTUM times WEIGHT cycles. Log entries 42 and 43: the reading taken. -/
def ContextSwaps : Prop :=
  ∀ (s : State) (p : Partition),
    let a := admitFns s p.id
    a.part? p.id = some p →
    (∀ h, p.holder = some h →
      (p.swapping = false ∨ contextDrained a p.id h = false → exec (.contextSwap p.id) s = .next a)
      ∧ (p.swapping = true → contextDrained a p.id h = true → ∀ n, nextHolder a p.id = some n → n ≠ h →
        exec (.contextSwap p.id) s = .next (afterAll (beginSlice (restoreContext (saveContext (if p.staged = some n then a else stageFor a p) p h) p.id n) p.id n))))
    ∧ (p.holder = none →
      (nextHolder a p.id = none → exec (.contextSwap p.id) s = .next a)
      ∧ ∀ n, nextHolder a p.id = some n → exec (.contextSwap p.id) s = .next (afterAll (beginSlice (restoreContext a p.id n) p.id n)))
    ∧ (∀ n f, s.part? p.id = some p → s.fn? p.id n = some f →
      beginSlice s p.id n = s.setPart p.id fun x => { x with holder := some n, lastHolder := n, swapping := false, staged := none
                                                             sliceLeft := s.cycles p.clockIsland + f.quantum * max f.weight 1 })
    ∧ (s.part? p.id = some p → (p.ctxBase = 0 ∨ p.swapping = true → exec (.contextStaging p.id) s = .next s)
      ∧ (p.ctxBase ≠ 0 → p.swapping = false →
        exec (.contextStaging p.id) s = .next ((stageFor s p).setPart p.id fun x => { x with staged := nextHolder s p.id })
        ∧ ∀ x ∈ (stageFor s p).saved, x.part = p.id → x.inArea = true))
/-- R225, R269, R270, R353: a saved context's cells stop, its loads are sent again, its transactions abort with cause 5, a PROOF takes
another snapshot; restored, its cells run again under a tag one higher, which its requests carry, and at their split (R16). R302, R342,
R142: of each tile what other functions wrote stays, and what the function wrote comes back with it, as do its status words. Log entry 42:
the reading taken. -/
def SavedContext : Prop :=
  ∀ (s : State) (p : Partition) (fn : Nat),
    (∀ c ∈ (saveContext s p fn).cells, c.part = p.id → c.fn = fn → c.resident = false)
    ∧ (∀ c ∈ s.cells, c.resident = true → c.part = p.id → c.fn = fn → ∀ a ∈ (saveContext s p fn).accs, a.owner.cell = c.id → a.refused = false →
      a.stage = .queued ∧ a.got = 0 ∧ a.xlat = none)
    ∧ (∀ c ∈ s.cells, ¬ (c.part = p.id ∧ c.fn = fn) → (∀ d ∈ s.cells, d.part = p.id → d.fn = fn → d.id ≠ c.id) → c ∈ (saveContext s p fn).cells)
    ∧ (∀ c f x, s.cell? c.id = some c → c.resident = true → c.part = p.id → c.fn = fn → c.fibre? f.idx = some f → f.tx = some x →
      ∃ u, (saveContext s p fn).fibre? ⟨c.id, f.idx⟩ = some u ∧ u.tx = none ∧ u.pc = x.resume ∧ u.stack = sput 0 f.stack x.dst 5)
    ∧ (∀ c ∈ s.cells, c.resident = true → c.part = p.id → c.fn = fn → ∀ o ∈ (saveContext s p fn).ops, o.owner.cell = c.id → o.refused = none →
      ∀ dst a n, o.kind = .proof dst a n → o.result = none ∧ o.got = 0)
    ∧ ((functionCells s p.id fn).all (fun c => !c.resident) = true →
      let u := saveContext s p fn
      u = { s with mxTiles := u.mxTiles, mxStatus := u.mxStatus, mxBy := u.mxBy })
    ∧ (saveContext s p fn).mxStatus = s.mxStatus.filter (fun t => sget 0 s.mxBy t.1 != mxOwner p.id fn)
    ∧ (saveContext s p fn).mxBy = s.mxBy.filter (fun t => t.2 != mxOwner p.id fn)
    ∧ (∀ n t, (n, t) ∈ s.mxTiles → ∃ u, (n, u) ∈ (saveContext s p fn).mxTiles
      ∧ (∀ e v, (e, v) ∈ u.elems ↔ (e, v) ∈ t.elems ∧ t.writer e ≠ mxOwner p.id fn)
      ∧ (t.leftBy ≠ some (p.id, fn) → u.leftBy = t.leftBy ∧ u.slot = t.slot ∧ u.rows = t.rows ∧ u.cols = t.cols ∧ u.runLen = t.runLen ∧ u.chans = t.chans))
    ∧ (∀ y, s.saved.find? (fun z => z.part == p.id && z.fn == fn) = some y →
      (restoreContext s p.id fn).cells.map (fun d => (d.id, d.resident, d.saveTag))
        = s.cells.map (fun c => if c.part = p.id ∧ c.fn = fn then (c.id, true, c.saveTag + 1) else (c.id, c.resident, c.saveTag))
      ∧ (restoreContext s p.id fn).accs.map (fun a => (a.id, a.tag)) = s.accs.map (fun a =>
        (a.id, if s.cells.any (fun c => c.id == a.owner.cell && c.part == p.id && c.fn == fn) then a.tag + 1 else a.tag))
      ∧ ∀ n t, (n, t) ∈ y.tiles → (∀ z ∈ s.mxTiles, z.1 ≠ n) → swf 0 t.elems = true → t.leftBy ≠ none →
        ∃ u, (n, u) ∈ (restoreContext s p.id fn).mxTiles ∧ (∀ e, sget 0 u.elems e = sget 0 t.elems e)
          ∧ u.leftBy = t.leftBy ∧ u.slot = t.slot ∧ u.rows = t.rows ∧ u.cols = t.cols ∧ u.runLen = t.runLen ∧ u.chans = t.chans)
    ∧ (∀ y n w, s.saved.find? (fun z => z.part == p.id && z.fn == fn) = some y → y.mx = [(n, w)] → swf 0 s.mxStatus = true →
      sget 0 (restoreContext s p.id fn).mxStatus n = sget 0 s.mxStatus n ||| w)
    ∧ (∀ y c, s.saved.find? (fun z => z.part == p.id && z.fn == fn) = some y → c ∈ s.cells → c.part = p.id → c.fn = fn → swf 0 s.splits = true →
      (∀ d ∈ s.cells, d.part = p.id → d.fn = fn → d.cluster = c.cluster → d.scratchSize = c.scratchSize) →
      sget 0 (restoreContext s p.id fn).splits c.cluster = c.scratchSize / 131072)
    ∧ ((s.saved.all fun x => !(x.part == p.id && x.fn == fn)) = true → restoreContext s p.id fn = s)
/-- R278, R289: the loss of a part: a cluster's cells fail, of their requests only those that lead a group with other cells' going on,
as requests of no fibre (log entry 44); its blocks go and a spare stands in; a slice's clean lines go; the
ring on a failed slot moves to the slot left over; a lost port is remembered. R15, R20: where no spare is left nothing changes,
which is the model's choice. Log entry 44: the reading taken. -/
def FailedParts : Prop :=
  ∀ (s : State) (n : Nat),
    (∀ p, spareLeft s p = false → exec (.partFailure p) s = .next s)
    ∧ (spareLeft s (.cluster n) = true → ∃ t, exec (.partFailure (.cluster n)) s = .next (afterAll t)
      ∧ t.spares = s.spares ++ [(0, n)] ∧ (∀ b ∈ t.blocks, b.cluster ≠ n) ∧ (∀ x ∈ t.mxTiles, x.1 / 32 ≠ n) ∧ (∀ x ∈ t.mxStatus, x.1 / 4 ≠ n)
      ∧ ∀ c ∈ s.cells, c.resident = true → c.cluster = n → (∀ a ∈ t.accs, a.owner.cell = c.id → a.owner.idx = 1024) ∧ ∀ q ∈ t.pins, q.cell ≠ c.id)
    ∧ (spareLeft s (.slice n) = true → ∃ t, exec (.partFailure (.slice n)) s = .next t
      ∧ t.spares = s.spares ++ [(1, n)] ∧ t.mem = s.mem ∧ t.cells = s.cells
      ∧ (∀ l ∈ t.lines, homeSlice (64 * l.line) = n → l.dirty = true) ∧ ∀ l ∈ s.lines, homeSlice (64 * l.line) ≠ n → l ∈ t.lines)
    ∧ (spareLeft s (.wavelength n) = true →
      (∀ m k, (List.range 16).find? (fun m => ringSlot s (n / 17) m == n % 17) = some m →
        (List.range 17).find? (fun k => (List.range 16).all fun m => ringSlot s (n / 17) m != k) = some k →
        exec (.partFailure (.wavelength n)) s
          = .next { s with rings := sput 0 s.rings (16 * (n / 17) + m) (k + 1), spares := s.spares ++ [(2, n)] })
      ∧ ((List.range 16).find? (fun m => ringSlot s (n / 17) m == n % 17) = none →
        exec (.partFailure (.wavelength n)) s = .next { s with spares := s.spares ++ [(2, n)] }))
    ∧ exec (.partFailure (.fibreLane n)) s = .next { s with spares := s.spares ++ [(3, n)] }
    ∧ (s.lostPorts.contains n = false → exec (.poolDeviceLost n) s = .next { s with lostPorts := s.lostPorts ++ [n] })
    ∧ (s.lostPorts.contains n = true → exec (.poolDeviceLost n) s = .next s)
/-- R273: an island changes its state; one that runs for a partition does not; in Off its vaults, tiles and L1 blocks lose what they
held. R300: the islands of a die whose image failed stay in reset. R238: DVFS_SETTLED makes the hinted point the island's. Log
entries 39 and 45: the reading taken. -/
def IslandStates : Prop :=
  ∀ (s : State) (i : Nat) (m : IslandMode), i < 16 → s.islands.length = 16 →
    ((s.island i).mode = m → exec (.islandStateChange i m) s = .next s)
    ∧ ((s.island i).mode = .running → (∃ p ∈ s.parts, i ∈ p.islands) → exec (.islandStateChange i m) s = .next s)
    ∧ (m = .running → i / 4 ∈ s.narcy.failed → exec (.islandStateChange i m) s = .next s)
    ∧ ((s.island i).mode ≠ m → ((s.island i).mode ≠ .running ∨ ∀ p ∈ s.parts, i ∉ p.islands) → ¬ (m = .running ∧ i / 4 ∈ s.narcy.failed) →
      exec (.islandStateChange i m) s = .next (setIslandMode s i m) ∧ ((setIslandMode s i m).island i).mode = m
      ∧ (m ≠ .off → (setIslandMode s i m).mem = s.mem)
      ∧ (m = .off → (∀ a, bget (setIslandMode s i m).mem a = if inIsland i a then 0 else bget s.mem a)
        ∧ (∀ x ∈ (setIslandMode s i m).mxTiles, islandOf (x.1 / 32) ≠ i) ∧ ∀ b ∈ (setIslandMode s i m).blocks, islandOf b.cluster ≠ i))
    ∧ ((s.island i).settling = false → exec (.dvfsSettled i) s = .next s)
    ∧ ((s.island i).settling = true → ∃ t, exec (.dvfsSettled i) s = .next t ∧ (t.island i).point = (s.island i).hint
      ∧ (t.island i).settling = false ∧ (t.island i).cycles s.grade20 s.now = (s.island i).cycles s.grade20 s.now
      ∧ t.cells = s.cells ∧ t.mem = s.mem ∧ ∀ j, j ≠ i → t.island j = s.island j)
/-- R299: a step down lowers each running island it reaches by one point, to 5/8 at the lowest; a step up raises by one point an island
that an action of its own kind holds, as far as the point last hinted at, and as long as that kind has points to give back or it alone
holds the island; the emergency sends every running island to 5/8. Log entry 39: the reading taken. -/
def ThrottleSteps : Prop :=
  ∀ (s : State) (i : Nat), i < 16 → s.islands.length = 16 → (s.island i).mode = .running →
    let x := s.island i
    let temp := dieTemp s (i / 4)
    let lower : Nat := max 5 (x.point - 1)
    (∃ t, exec .currentThrottle s = .next t ∧ (t.island i).point = lower ∧ (t.island i).amps = x.amps + (x.point - lower)
        ∧ (t.island i).heat = x.heat ∧ t.cells = s.cells ∧ t.mem = s.mem)
    ∧ (∃ t, exec .currentStepUp s = .next t ∧ t.cells = s.cells ∧ t.mem = s.mem ∧
        (t.island i).point = if x.ampsAt + 1000 * ticksPerMicro ≤ s.now ∧ x.current = true ∧ (0 < x.amps ∨ x.hot = false) ∧ x.point < x.hint then x.point + 1 else x.point)
    ∧ (∃ t, exec (.thermalStepDown (i / 4)) s = .next t ∧ t.cells = s.cells ∧ t.mem = s.mem ∧
        (t.island i).point = (if 95 * 16 < temp ∧ (x.heatAt = 0 ∨ x.heatAt + 100 * ticksPerMicro ≤ s.now) then lower else x.point)
        ∧ (t.island i).amps = x.amps)
    ∧ (∃ t, exec (.thermalStepUp (i / 4)) s = .next t ∧ t.cells = s.cells ∧ t.mem = s.mem ∧
        (t.island i).point = if temp ≤ 90 * 16 ∧ x.heatAt + 100 * ticksPerMicro ≤ s.now ∧ x.hot = true ∧ (0 < x.heat ∨ x.current = false) ∧ x.point < x.hint then x.point + 1 else x.point)
    ∧ (∃ t, exec .thermalEmergency s = .next t ∧ t.cells = s.cells ∧ t.mem = s.mem ∧
        (t.island i).point = if (List.range 4).any (fun d => decide (105 * 16 < dieTemp s d)) then 5 else x.point)
/-- R297 to R300: above 115 °C the rails go, as at a power-down: nothing that runs is left, and the memories behind the ports
and the host's stay. At power-up a die whose image verifies starts, another stays in reset. Log entries 7 and 45: the reading
taken. -/
def Power : Prop :=
  ∀ s : State,
    (s.powered = true →
      (∃ t, exec .powerDown s = .next t ∧ t.powered = false ∧ t.cells = [] ∧ t.launches = [] ∧ t.queues = [] ∧ t.accs = [] ∧ t.lines = []
        ∧ ∀ a, bget t.mem a = if a < 2 ^ 48 then bget s.mem a else 0)
      ∧ exec .powerUp s = .next s
      ∧ ((∃ d, d < 4 ∧ 115 * 16 < dieTemp s d) → ∃ t, exec .powerDown s = .next t ∧ exec .thermtrip s = .next { t with thermtrip := true })
      ∧ ((∀ d, d < 4 → dieTemp s d ≤ 115 * 16) → exec .thermtrip s = .next s))
    ∧ (s.powered = false → exec .powerDown s = .next s ∧ exec .thermtrip s = .next s
      ∧ ∃ t, exec .powerUp s = .next t ∧ t.powered = true ∧ t.thermtrip = false ∧ t.mem = s.mem
        ∧ ∀ i, i < 16 → (t.island i).mode = (match s.narcy.images[i / 4]? with | some b => if Config.imageVerifies b then .running else .reset | none => .running)
          ∧ (i / 4 ∈ t.narcy.failed ↔ (t.island i).mode = .reset))
/-- R273, R276: a reset of a partition leaves nothing of it: no cell, launch, queue, frame, access or line; its functions and
its registers take their reset values; no function holds it. The others stay. Log entry 45: the reading taken. -/
def PartitionResets : Prop :=
  ∀ (s : State) (p : Partition), s.part? p.id = some p →
    ∃ t, exec (.partitionReset p.id) s = .next t ∧ t.part? p.id = some { id := p.id, islands := p.islands, share := p.share }
      ∧ (∀ c ∈ t.cells, c.part ≠ p.id) ∧ (∀ l ∈ t.launches, l.part ≠ p.id) ∧ (∀ q ∈ t.queues, q.part ≠ p.id) ∧ (∀ f ∈ t.frames, f.part ≠ p.id)
      ∧ (∀ a ∈ t.accs, a.part ≠ p.id) ∧ (∀ l ∈ t.lines, l.part ≠ p.id)
      ∧ (∀ f ∈ t.fns, f.part = p.id → f = { part := p.id, num := f.num })
      ∧ (∀ c ∈ s.cells, c.part ≠ p.id → c ∈ t.cells) ∧ (∀ l ∈ s.launches, l.part ≠ p.id → l ∈ t.launches) ∧ ∀ f ∈ s.frames, f.part ≠ p.id → f ∈ t.frames
/-- R192, R199, R284 to R286, R301: Narcy's report; the host's accesses to vaults, its link, its snoops. Log entries 7 and 46
and 49: the reading taken. -/
def HostEvents : Prop :=
  ∀ s : State,
    (∀ nonce : List Byte, nonce.length = 32 →
      let body := nonce ++ Config.sha3 s.narcy.log ++ Config.attestConfig (partitionMap s) (functionCounts s)
      exec (.attestationRequest nonce) s = .next { s with
        narcy := { s.narcy with reports := s.narcy.reports ++ [body ++ Config.identitySign (Config.sha3 body)] } })
    ∧ (∀ nonce : List Byte, nonce.length ≠ 32 → exec (.attestationRequest nonce) s = .next s)
    ∧ (∀ part off n, exec (.hostVaultAccess part off none n) s = .next s)
    ∧ (∀ p off bs v t, s.part? p.id = some p → p.clusters[off / vaultSize]? = some v → off % vaultSize + bs.length ≤ vaultSize →
      let a := vaultBase + v * vaultSize + off % vaultSize
      heldBack s [] p.id 64 a bs.length = false → homeWrite s ⟨p.id, 64, true⟩ none a bs = .ok t →
      exec (.hostVaultAccess p.id off (some bs) bs.length) s = .next (afterAll t))
    ∧ (∀ rate width cache, rate ∈ [64, 32, 16, 8, 5, 2] → width ∈ [16, 8, 4, 1] →
      exec (.hostLinkTraining rate width cache) s = .next { s with link := (rate, width), cxlCache := cache && (rate == 64 || rate == 32) })
    ∧ (∀ line, (∀ l ∈ s.lines, l.pa / 64 = line → 2 ^ 47 ≤ l.pa → ∀ p ∈ s.pins, ¬ (p.asid = some l.asid ∧ p.line = l.line)) →
      ∃ t, exec (.hostSnoop line) s = .next t ∧ (∀ l ∈ t.lines, ¬ (l.pa / 64 = line ∧ 2 ^ 47 ≤ l.pa))
        ∧ (∀ l ∈ s.lines, ¬ (l.pa / 64 = line ∧ 2 ^ 47 ≤ l.pa) → (∀ m ∈ s.lines, m.asid = l.asid → m.line = l.line → m.pa = l.pa) → l ∈ t.lines) ∧ t.cells = s.cells ∧ t.accs = s.accs)
    ∧ (∀ line, (∃ l ∈ s.lines, l.pa / 64 = line ∧ 2 ^ 47 ≤ l.pa ∧ ∃ p ∈ s.pins, p.asid = some l.asid ∧ p.line = l.line) →
      exec (.hostSnoop line) s = .next s)
end Sys2Proof.Rules


/-! ### The step, the encoding, reset, invariants -/

/-- R107, R118, R131, R132, R311: while a unit is open, a step fetches the word that its group stands at, all of whose lanes are in one mode,
and runs the instruction that the word decodes to: the step is exec of it, in the state in which the fetch has aged or filled a slice line, with each blocked
WAITS tested against its signal afterwards. A word of no instruction traps once its unit has begun, a CLAUSE word with a reserved
value at once (R117), and a fetch that fails traps. A fetch that a pin holds back stalls the unit. The model's own readings in it: lanes
of both modes at one word, of which the tenant's go first (log entry 13), the line that the fetch ages
or fills (log entry 23), the held fetch (log entry 24), and the WAITS tested after the step (log entry 38). -/
def Obligations.StepRunsTheDecodedInstruction : Prop :=
  ∀ (s : State) (g : Grp), s.powered = true → s.cur.opened = true → s.grp? = some g →
    let sup := g.members.any (·.sup)
    let own := fetchWord s g.cell sup g.at_
    let u := touchHomes s (g.cell.who sup) none false .fetch g.at_.toNat 4
    (∀ w i, own = some (.ok w) → decode w = .ok i →
      (∀ t, exec i u = .next t → step s = .next (wakeWaits t)) ∧ (∀ f, exec i u = .fault f → step s = .fault f)
      ∧ ∀ r, exec i u = .refused r → step s = .refused r)
    ∧ (∀ m ∈ g.members, m.sup = sup)
    ∧ u = { s with mem := u.mem, lines := u.lines, hot := u.hot }
    ∧ (isGlobal g.at_.toNat = false → u = s)
    ∧ (∀ bs, heldBack s [] g.cell.part g.cell.fn g.at_.toNat 4 = false →
      homeRead s (g.cell.who sup) g.at_.toNat .fetch 4 = .ok bs → own = some (.ok (BitVec.ofNat 32 (natOfBytes bs))))
    ∧ (∀ w e, own = some (.ok w) → decode w = .error e →
      (e = .illegalClause → step s = .next (wakeWaits (trapGroup u g { cause := .illegalClause })))
      ∧ (e = .illegalInstruction →
        (g.members.all (·.place.begun) = true → step s = .next (wakeWaits (trapGroup u g { cause := .illegalInstruction })))
        ∧ ((beginUnit u g).2 = true → step s = .next (wakeWaits (trapGroup (beginUnit u g).1 g { cause := .illegalInstruction })))
        ∧ ((beginUnit u g).2 = false → step s = .next (wakeWaits (beginUnit u g).1))))
    ∧ (∀ t, own = some (.error t) →
      t.detail = (if t.cause = .uncorrectable then 1 else 4) ∧ step s = .next (wakeWaits (trapGroup s g t)))
    ∧ (own = none → step s = .next (wakeWaits (stallUnit s)))

/-- R189, R297: between units a step takes the next input, a move of the outside or a choice of quadrant; an unpowered package
with none due does nothing, which the model says by a fault. The clearing of a status word by its .RC alias is a part of the MFS
and never a move of its own. R280: a register that fails parity again raises UNCORRECTABLE with DETAIL 2 in the fibre about to
issue, at its unit. Log entries 4 and 8 and 53: the reading taken. -/
def Sys2Proof.Rules.StepTakesInputs : Prop :=
  ∀ s : State,
    (s.powered = false → s.agenda = [] → step s = .fault .unpowered)
    ∧ (s.powered = true → s.cur.opened = false →
      (∀ m rest t, (∀ c, m ≠ .arithStatusRc c) → (∀ q, m ≠ .mxStatusRc q) → s.agenda = .move m :: rest →
        exec m { s with agenda := rest } = .next t → step s = .next (wakeWaits t))
      ∧ (∀ m rest, ((∃ c, m = .arithStatusRc c) ∨ ∃ q, m = .mxStatusRc q) → s.agenda = .move m :: rest →
        step s = .next (wakeWaits { s with agenda := rest }))
      ∧ (∀ q rest, s.agenda = .issue q :: rest → step s = .next (wakeWaits (openUnit { s with agenda := rest } q)))
      ∧ (∀ q r, chooseHatch s q = some r →
        (openUnit s q).cur = { cell := r.cell.id, hatch := r.hatch, first := r.pc, at_ := r.pc, opened := true })
      ∧ ∀ (c : Cell) (f : Fibre) rest, s.agenda = .registerError c.id f.idx :: rest → s.cell? c.id = some c → c.fibre? f.idx = some f →
        c.resident = true → f.status = .ready → f.deferred = false → f.mate = none →
        step s = .next (wakeWaits (afterChange (takeTraps { s with agenda := rest } c.id f.hatch
          [⟨f.idx, { cause := .uncorrectable, detail := 2 }, f.pc⟩]) c.id)))
    ∧ (s.powered = false → ∀ i rest, s.agenda = i :: rest → (i ≠ .move .powerUp) → (∀ d x, i ≠ .temperature d x) → (∀ a bs, i ≠ .hostWrite a bs) →
      (∀ d g x, i ≠ .peerGroup d g x) → step s = .next (wakeWaits { s with agenda := rest }))

/-- R253: of two ready hatches the boosted one goes first, then the one of the higher class, then the larger residual, then the
earlier dispatched. -/
def Sys2Proof.Rules.IssueOrder : Prop :=
  ∀ (s : State) (x y : Ready),
    (boosted s x = true → boosted s y = false → goesBefore s x y = true ∧ goesBefore s y x = false)
    ∧ (boosted s x = boosted s y →
      (x.cell.prio < y.cell.prio → goesBefore s x y = true ∧ goesBefore s y x = false)
      ∧ (x.cell.prio = y.cell.prio →
        (issueRho s y.cell < issueRho s x.cell → goesBefore s x y = true ∧ goesBefore s y x = false)
        ∧ (issueRho s x.cell = issueRho s y.cell → (goesBefore s x y = true ↔ x.cell.dispatched < y.cell.dispatched))))

/-- R107, R108, R125 to R130: every well-formed instruction is one 32-bit word, which decodes to it. -/
def Obligations.DecodeOfEncode : Prop :=
  ∀ i : Instr, i.isWord = true → i.wf = true → decode (encode i) = .ok i

/-- R125, R131: a word that decodes is the encoding of what it decodes to, a well-formed instruction: no word is a second
spelling, and no bit of a word is ignored. -/
def Sys2Proof.Rules.EncodeOfDecode0 : Prop :=
  ∀ (w : Word) (i : Instr), decode w = .ok i → i.isWord = true ∧ i.wf = true ∧ encode i = w

/-- R107, R6: an instruction's bytes, little-endian, are read back as its word. -/
def Sys2Proof.Rules.BytesOfWords : Prop :=
  ∀ (w : Word) (rest : List Byte), wordOfBytes (bytesOfWord w ++ rest) = some (w, rest)
    ∧ ∀ i, decode w = .ok i → decodeBytes (bytesOfWord w ++ rest) = .ok (i, rest)

/-- R108, R125 to R130: words written out from the encoding tables. -/
def Obligations.DecodedWords : Prop :=
  decode 0x00000000 = .ok .nop
  ∧ decode 0x04C05C2C = .ok (.iadd .b32 (.w 12) ⟨.none, .w 11⟩ ⟨.x1, .w 11⟩)
  ∧ decode 0x6CD0502C = .ok (.fmul .f32 (.w 13) ⟨.none, .w 10⟩ ⟨.none, .w 11⟩)
  ∧ decode 0x58500500 = .ok (.movi .z (.w 5) 160)
  ∧ decode 0xA0C10413 = .ok (.ld .b32 .dev (.w 12) (.w 4) 16)
  ∧ decode 0xB0710653 = .ok (.atom .mins32 false .dev (.w 7) (.w 4) (.w 6))
  ∧ decode 0xBC00001C = .ok (.fence true true .sys)
  ∧ decode 0x20604003 = .ok (.mfs (.w 6) 0x040)
  ∧ decode 0xEE7FFFF9 = .ok (.bra (.ifFalse 1) 0x3FFFF9)
  ∧ decode 0xF80047C0 = .ok (.clause 1 (some 1) none .always)
  ∧ decode 0xFC4000A8 = .ok (.hintPerm none (some ⟨.xor, 8⟩))
  ∧ decode 0xE8918C02 = .ok (.ecmd (.w 9) (.w 6) (.w 12))
  ∧ decode 0xF8003FC1 = .error .illegalClause ∧ decode 0x00000001 = .error .illegalInstruction

/-- R168, R197, R212, R230, R257, R275, R293, R295: the registers as reset leaves them, read by the host. SAVE.TIME is 20 µs of
2.4 GHz, the clock of the grade that the model's reset names (a DESIGN CHOICE, log entry 2). -/
def Sys2Proof.Rules.ResetRegisters : Prop :=
  let reg (n : Nat) : Nat := readReg State.reset (.host 0 64) n
  (∀ n, n < 8 → reg (0x050 + n) = 0xFFFF)
  ∧ reg 0x060 = 100 ∧ reg 0x061 = 8 ∧ reg 0x062 = 16
  ∧ reg 0x070 = 0 ∧ reg 0x071 = 0 ∧ reg 0x080 = 0 ∧ reg 0x081 = 0 ∧ reg 0x083 = 0 ∧ reg 0x084 = 48000
  ∧ reg 0x085 = 0 ∧ reg 0x086 = 1 ∧ reg 0x087 = 100000 ∧ reg 0x088 = 0 ∧ reg 0x08A = 0
  ∧ reg 0x090 = 0 ∧ reg 0x091 = 0 ∧ reg 0x100 = 0 ∧ ∀ n, n < 16 → reg (0x130 + n) = n

/-- R276, R300: after reset nothing is resident, no queue is registered and no function holds the partition, whose physical and 64
virtual functions are there. The partition of all islands, and that memory lists nothing, every byte reading as 0, are the model's
choice (log entries 2 and 3). -/
def Sys2Proof.Rules.ResetMachine : Prop :=
  let s := State.reset
  s.powered = true ∧ s.cells = [] ∧ s.launches = [] ∧ s.queues = [] ∧ s.packets = [] ∧ s.accs = [] ∧ s.lines = [] ∧ s.mem = []
  ∧ (∀ n, n ≤ 64 → (s.fn? 0 n).isSome = true) ∧ ∃ p, s.part? 0 = some p ∧ p.holder = none ∧ p.islands = List.range 16

/-- The memory of the machine is in its canonical form: addresses strictly rise, and no byte is listed that reads as an unlisted
one does. Every step keeps it. The form, and that an unlisted byte reads as 0, are the model's choice (log entry 3). -/
def Obligations.StepKeepsMemoryCanonical : Prop :=
  ∀ s t : State, Memory.wf s.mem = true → step s = .next t → Memory.wf t.mem = true

namespace Sys2Proof.Rules
/-- The registers of a partition keep what their fields admit: reserved bits 0, ORD.DRTO from 1, TRAP.VEC a word address below
2^57, CTX.BASE a 2 MiB-aligned physical address (R171, R197, R212, R257, R272, R275, R293). -/
def Legal (p : Partition) : Prop :=
  p.pinto < 2 ^ 20 ∧ 1 ≤ p.drto ∧ p.drto < 2 ^ 16 ∧ p.cw < 2 ^ 8 ∧ p.vfSel < 64 ∧ p.collGroup < 2 ^ 12
  ∧ p.trapSave &&& 0x00F80000 = 0 ∧ p.trapVec.toNat % 4 = 0 ∧ p.trapVec.toNat < 2 ^ 57
  ∧ p.ctxBase.toNat % 2 ^ 21 = 0 ∧ p.ctxBase.toNat < 2 ^ 48
/-- There are 16 islands, and each partition's registers are legal. -/
def Registers (s : State) : Prop := s.islands.length = 16 ∧ ∀ p ∈ s.parts, Legal p
end Sys2Proof.Rules

/-- R171, R197, R212, R257, R272, R275, R293: no step leaves a partition's registers with a value that their fields do not
admit. -/
def Obligations.StepKeepsRegistersLegal : Prop :=
  ∀ s t : State, Rules.Registers s → step s = .next t → Rules.Registers t

/-- Reset has both invariants: memory in its canonical form, which is the model's choice (log entry 3), registers legal. -/
def Obligations.ResetHasInvariants : Prop := Memory.wf State.reset.mem = true ∧ Rules.Registers State.reset

/-! ### The obligations -/

/-- R335: IMUL and IMULH. -/
def Obligations.Multiplication : Prop :=
  Rules.Multiply ∧ Rules.MultiplyExamples

/-- R334: IMIN and IMAX. -/
def Obligations.MinimumAndMaximum : Prop :=
  Rules.MinimumMaximum ∧ Rules.MinimumExamples

/-- R331: ICMP. -/
def Obligations.IntegerComparison : Prop :=
  Rules.IntegerCompare ∧ Rules.CompareExamples

/-- R312, R329, R352: POPC, CLZ, BREV, IABS, and the words they refuse. -/
def Obligations.BitCounting : Prop :=
  Rules.BitCounts ∧ Rules.BitCountWords

/-- R307, R310, R330, R332, R333, R339, R350, R351, R361, R364: IADD, ISUB, IMAD, IDOT4, the logic words, the shifts, the bit
fields, SEL, MOV, LEA, MOVI, NOP, MOV to k. -/
def Obligations.IntegerWords : Prop :=
  Rules.AddSubtract ∧ Rules.MultiplyAddDot ∧ Rules.LogicAndMoves ∧ Rules.Shifts ∧ Rules.BitFields
  ∧ Rules.MoveImmediate ∧ Rules.NopAndUniformMove

/-- The values of FADD, FSUB, FMUL, FFMA, FDOT2, FMIN, FMAX, FRND, FCVT, QCVT and QDEQ. -/
def Obligations.FloatValues : Prop :=
  Rules.ArithmeticValues ∧ Rules.MinMaxValues ∧ Rules.ConversionValues ∧ Rules.ResidueValues

/-- The values of FRCP, FRSQ, FSQRT, FEXP2 and FLOG2. -/
def Obligations.FunctionValues : Prop :=
  Rules.FunctionValues

/-- The float words and DRAW (R133 to R148, R315 to R323). -/
def Obligations.FloatWords : Prop :=
  Rules.FloatOperations ∧ Rules.FloatCompare ∧ Rules.MinMaxOfNans

/-- SAMPLE, TOPK, and the words that look across lanes. -/
def Obligations.CrossLaneWords : Prop :=
  Rules.CrossLane ∧ Rules.SampleAndTopk

/-- FLD and FST, the slots of a frame, CLK, SSTOP. -/
def Obligations.FrameSlotWords : Prop :=
  Rules.FrameWords ∧ Rules.ScratchSlots ∧ Rules.MemorySlots ∧ Rules.ClockAndStreamStop

/-- The loads and the stores complete, and what they leave to the ordering machine. -/
def Obligations.LoadsAndStores : Prop :=
  Rules.LoadsComplete ∧ Rules.StoresComplete

/-- ATOM, RED, CAS, SGNL, STI; FENCE. Log entry 15: the reading taken. -/
def Obligations.AtomicsAndFence : Prop :=
  Rules.AtomicsComplete ∧ Rules.StiLanes ∧ Rules.FenceHolds ∧ Rules.FenceParks

/-- GATHER, SCATTER, SDEF. -/
def Obligations.ListAndStreamWords : Prop :=
  Rules.ListWords ∧ Rules.ListLanes ∧ Rules.StreamLanes

/-- The address of a memory word, its checks, the accesses it makes. -/
def Obligations.MemoryAddresses : Prop :=
  Rules.AddressChecks ∧ Rules.MemoryAddress ∧ Rules.LaneAccesses

/-- BRA, CALL, JMP, RET and the windows. -/
def Obligations.ControlFlow : Prop :=
  Rules.ControlTransfers ∧ Rules.CallWindows

/-- CLAUSE, the words outside a clause, HINT. -/
def Obligations.ClausesAndHints : Prop :=
  Rules.ClauseStarts ∧ Rules.ImplicitClause ∧ Rules.HintWords

/-- Which lanes a trap takes; TRAP and BKPT. -/
def Obligations.Traps : Prop :=
  Rules.GroupTraps ∧ Rules.TrapWords

/-- Taking an exception: the record, the handler, the return. -/
def Obligations.TrapEntryAndReturn : Prop :=
  Rules.HandlerEntry ∧ Rules.TrapRecord ∧ Rules.HandlerReturn ∧ Rules.EretCompletes

/-- MFS and MTS. -/
def Obligations.SpecialRegisters : Prop :=
  Rules.ReadSpecial ∧ Rules.WriteSpecial ∧ Rules.RegisterWrites

/-- SPILL and FILL. -/
def Obligations.SpillAndFill : Prop :=
  Rules.SpillAndFillWords ∧ Rules.SpillLanes ∧ Rules.FillLanes

/-- TBEGIN, TEND, TABORT. -/
def Obligations.Transactions : Prop :=
  Rules.TransactionWords ∧ Rules.TransactionAbort ∧ Rules.TransactionEnd ∧ Rules.LaneConflicts ∧ Rules.TransactionCommit

/-- BAR, CBAR, RECONV, REGROUP, YIELD. -/
def Obligations.Barriers : Prop :=
  Rules.BarrierWords ∧ Rules.BarrierCompletes

/-- QUIT, the end of a fibre, the end of a cell. -/
def Obligations.FibresEnd : Prop :=
  Rules.QuitWord ∧ Rules.FibreEnds ∧ Rules.CellEnds

/-- R26, R328: FORK. -/
def Obligations.Fork : Prop :=
  Rules.ForkWord

/-- FENTER and FLEAVE. -/
def Obligations.Frames : Prop :=
  Rules.FrameEnterLeave ∧ Rules.FrameEnters ∧ Rules.FrameLeaves

/-- The matrix words, and the arithmetic of the tiles. -/
def Obligations.Matrix : Prop :=
  Rules.MatrixDeclare ∧ Rules.MatrixWords ∧ Rules.SpanChecks ∧ Rules.MatrixChecks ∧ Rules.ResidueRuns ∧ Rules.ChainRows ∧ Rules.MmaRuns ∧ Rules.TileOrder

/-- RESID, SETTLE, PROOF, TQPUSH, TQPOP, QPOST, ECMD. -/
def Obligations.PlateWords : Prop :=
  Rules.ResidWord ∧ Rules.SettleWord ∧ Rules.PlateAndPostWords ∧ Rules.PendingLanes

/-- R71, R72, R79: the commit of a plate cell. -/
def Obligations.PlateUpdateCommits : Prop :=
  Rules.SettleCommits ∧ Rules.CommitEntries

/-- R182 to R185, R306: DRAFT, ACCEPT, DISCARD. -/
def Obligations.Drafts : Prop :=
  Rules.DraftWords ∧ Rules.DraftLanes

/-- EWAIT, WAITS, SEND, RECV. -/
def Obligations.WaitsAndChannels : Prop :=
  Rules.WaitWords ∧ Rules.EwaitLane ∧ Rules.EwaitEnds ∧ Rules.WaitsLane ∧ Rules.ChannelWords ∧ Rules.ChannelMoves

/-- The moves of the ordering machine up to a home. -/
def Obligations.ViewMoves : Prop :=
  Rules.LeaveMove ∧ Rules.ForwardMove ∧ Rules.SendMoves ∧ Rules.CombineMove

/-- What those moves keep in order. -/
def Obligations.ViewOrder : Prop :=
  Rules.LeaveOrder ∧ Rules.SendAndArriveOrder

/-- R162 to R170: TLB_WALK and LINE_FILL. -/
def Obligations.Translation : Prop :=
  Rules.TranslationMoves ∧ Rules.PageWalk ∧ Rules.Permissions

/-- R188, R189, R207: ARRIVE. -/
def Obligations.Arrivals : Prop :=
  Rules.ArriveMove ∧ Rules.ArriveAtVault ∧ Rules.ArriveAtHome ∧ Rules.StiRaises ∧ Rules.AtomicOperations

/-- R189: REPLY and DELIVER_INVAL. -/
def Obligations.Replies : Prop :=
  Rules.ReplyMove ∧ Rules.DeliverInvalidation

/-- LONG_LATENCY_COMPLETE, MATRIX_FAULT, PROOF_SNAPSHOT. -/
def Obligations.OperationEvents : Prop :=
  Rules.PendingOperations ∧ Rules.ProofPoint

/-- STREAM_RUNAHEAD_READ and the ends of waits. -/
def Obligations.StreamsAndWaits : Prop :=
  Rules.StreamMove ∧ Rules.WaitEvents

/-- R200, R246, R248: an engine takes its commands, ends the malformed ones without effect, and completes the others. -/
def Obligations.EngineCycle : Prop :=
  Rules.EngineTakes ∧ Rules.MalformedCommand ∧ Rules.EngineEnds

/-- R246, R249, R292, R375: what each command does. -/
def Obligations.EngineCommands : Prop :=
  Rules.SimpleCommands ∧ Rules.Multicast ∧ Rules.GatherCommand ∧ Rules.CollectiveCommand

/-- R25, R36, R38, R48, R75 to R78, R84, R85, R152, R158: what is dispatched next, where, and what it begins with. -/
def Obligations.Dispatch : Prop :=
  Rules.DispatchOfHead ∧ Rules.HeadOfLaunch ∧ Rules.PlacedCell ∧ Rules.FairnessTime ∧ Rules.SplitSwitch

/-- R42, R60, R66, R231, R235 to R238, R241, R372: packets are read, and launch. -/
def Obligations.Packets : Prop :=
  Rules.PacketReads ∧ Rules.PacketStarts ∧ Rules.LaunchPackets ∧ Rules.PreparedLaunch

/-- R88, R236, R237, R239, R240, R372: the other packets, and completion. -/
def Obligations.PacketsComplete : Prop :=
  Rules.OtherPackets ∧ Rules.PacketCompletes ∧ Rules.CompletionSignal

/-- R230, R232: doorbells and the commands of QUEUE.CMD. -/
def Obligations.QueueControl : Prop :=
  Rules.Doorbell ∧ Rules.QueueCommands

/-- R141, R186, R197, R199, R275, R286, R293, R295, R296, R303: what the writes of registers do, the group table, the hotness log. -/
def Obligations.RegisterEvents : Prop :=
  Rules.StatusClears ∧ Rules.PartitionWrites ∧ Rules.PhotonicWrites ∧ Rules.HostRegisterWrites ∧ Rules.GroupTable ∧ Rules.Hotness

/-- R167, R172, R277: function-level reset, shoot-down, frame release. -/
def Obligations.FunctionResetAndPages : Prop :=
  Rules.FunctionReset ∧ Rules.ShootDown ∧ Rules.ReleasedFrame

/-- R269 to R272, R276, R278, R289: slices, context swaps, failed parts. -/
def Obligations.FunctionsAndParts : Prop :=
  Rules.SliceEnds ∧ Rules.ContextSwaps ∧ Rules.SavedContext ∧ Rules.FailedParts

/-- R238, R273, R276, R297 to R300: islands, operating points, power, the reset of a partition. -/
def Obligations.IslandsAndPower : Prop :=
  Rules.IslandStates ∧ Rules.ThrottleSteps ∧ Rules.Power ∧ Rules.PartitionResets

/-- R192, R199, R284 to R286, R301: the host and Narcy. -/
def Obligations.HostAndNarcy : Prop :=
  Rules.HostEvents

/-- R189, R253, R280, R297: what a step does between units. -/
def Obligations.StepChooses : Prop :=
  Rules.StepTakesInputs ∧ Rules.IssueOrder

/-- R107, R125, R131: no word is a second spelling, and no bit of a word is ignored. -/
def Obligations.EncodeOfDecode : Prop :=
  Rules.EncodeOfDecode0 ∧ Rules.BytesOfWords

/-- What reset leaves. -/
def Obligations.Reset : Prop :=
  Rules.ResetRegisters ∧ Rules.ResetMachine
end

