-- ==== Sys2Proof/Laws/State.lean ====
section
/-! SUPPORT. One lemma for each field of State under each named update: what the update writes, and that it leaves every
other field. -/

namespace Sys2Proof.Machine

/-! ### State.setCell -/

@[simp] theorem State.setCell_powered (s : State) (c : Nat) (f : Cell → Cell) : (s.setCell c f).powered = s.powered := rfl
@[simp] theorem State.setCell_grade20 (s : State) (c : Nat) (f : Cell → Cell) : (s.setCell c f).grade20 = s.grade20 := rfl
@[simp] theorem State.setCell_now (s : State) (c : Nat) (f : Cell → Cell) : (s.setCell c f).now = s.now := rfl
@[simp] theorem State.setCell_tempo (s : State) (c : Nat) (f : Cell → Cell) : (s.setCell c f).tempo = s.tempo := rfl
@[simp] theorem State.setCell_free (s : State) (c : Nat) (f : Cell → Cell) : (s.setCell c f).free = s.free := rfl
@[simp] theorem State.setCell_next (s : State) (c : Nat) (f : Cell → Cell) : (s.setCell c f).next = s.next := rfl
@[simp] theorem State.setCell_agenda (s : State) (c : Nat) (f : Cell → Cell) : (s.setCell c f).agenda = s.agenda := rfl
@[simp] theorem State.setCell_cur (s : State) (c : Nat) (f : Cell → Cell) : (s.setCell c f).cur = s.cur := rfl
@[simp] theorem State.setCell_mem (s : State) (c : Nat) (f : Cell → Cell) : (s.setCell c f).mem = s.mem := rfl
@[simp] theorem State.setCell_lines (s : State) (c : Nat) (f : Cell → Cell) : (s.setCell c f).lines = s.lines := rfl
@[simp] theorem State.setCell_blocks (s : State) (c : Nat) (f : Cell → Cell) : (s.setCell c f).blocks = s.blocks := rfl
@[simp] theorem State.setCell_invals (s : State) (c : Nat) (f : Cell → Cell) : (s.setCell c f).invals = s.invals := rfl
@[simp] theorem State.setCell_tlb (s : State) (c : Nat) (f : Cell → Cell) : (s.setCell c f).tlb = s.tlb := rfl
@[simp] theorem State.setCell_pins (s : State) (c : Nat) (f : Cell → Cell) : (s.setCell c f).pins = s.pins := rfl
@[simp] theorem State.setCell_accs (s : State) (c : Nat) (f : Cell → Cell) : (s.setCell c f).accs = s.accs := rfl
@[simp] theorem State.setCell_ops (s : State) (c : Nat) (f : Cell → Cell) : (s.setCell c f).ops = s.ops := rfl
@[simp] theorem State.setCell_cells (s : State) (c : Nat) (f : Cell → Cell) : (s.setCell c f).cells = s.cells.map fun x => if x.id = c then f x else x := rfl
@[simp] theorem State.setCell_launches (s : State) (c : Nat) (f : Cell → Cell) : (s.setCell c f).launches = s.launches := rfl
@[simp] theorem State.setCell_frames (s : State) (c : Nat) (f : Cell → Cell) : (s.setCell c f).frames = s.frames := rfl
@[simp] theorem State.setCell_mxTiles (s : State) (c : Nat) (f : Cell → Cell) : (s.setCell c f).mxTiles = s.mxTiles := rfl
@[simp] theorem State.setCell_mxStatus (s : State) (c : Nat) (f : Cell → Cell) : (s.setCell c f).mxStatus = s.mxStatus := rfl
@[simp] theorem State.setCell_mxBy (s : State) (c : Nat) (f : Cell → Cell) : (s.setCell c f).mxBy = s.mxBy := rfl
@[simp] theorem State.setCell_crosshatch (s : State) (c : Nat) (f : Cell → Cell) : (s.setCell c f).crosshatch = s.crosshatch := rfl
@[simp] theorem State.setCell_rr (s : State) (c : Nat) (f : Cell → Cell) : (s.setCell c f).rr = s.rr := rfl
@[simp] theorem State.setCell_queues (s : State) (c : Nat) (f : Cell → Cell) : (s.setCell c f).queues = s.queues := rfl
@[simp] theorem State.setCell_packets (s : State) (c : Nat) (f : Cell → Cell) : (s.setCell c f).packets = s.packets := rfl
@[simp] theorem State.setCell_engines (s : State) (c : Nat) (f : Cell → Cell) : (s.setCell c f).engines = s.engines := rfl
@[simp] theorem State.setCell_fns (s : State) (c : Nat) (f : Cell → Cell) : (s.setCell c f).fns = s.fns := rfl
@[simp] theorem State.setCell_parts (s : State) (c : Nat) (f : Cell → Cell) : (s.setCell c f).parts = s.parts := rfl
@[simp] theorem State.setCell_islands (s : State) (c : Nat) (f : Cell → Cell) : (s.setCell c f).islands = s.islands := rfl
@[simp] theorem State.setCell_splits (s : State) (c : Nat) (f : Cell → Cell) : (s.setCell c f).splits = s.splits := rfl
@[simp] theorem State.setCell_draining (s : State) (c : Nat) (f : Cell → Cell) : (s.setCell c f).draining = s.draining := rfl
@[simp] theorem State.setCell_leftScratch (s : State) (c : Nat) (f : Cell → Cell) : (s.setCell c f).leftScratch = s.leftScratch := rfl
@[simp] theorem State.setCell_spares (s : State) (c : Nat) (f : Cell → Cell) : (s.setCell c f).spares = s.spares := rfl
@[simp] theorem State.setCell_decoders (s : State) (c : Nat) (f : Cell → Cell) : (s.setCell c f).decoders = s.decoders := rfl
@[simp] theorem State.setCell_lostPorts (s : State) (c : Nat) (f : Cell → Cell) : (s.setCell c f).lostPorts = s.lostPorts := rfl
@[simp] theorem State.setCell_rings (s : State) (c : Nat) (f : Cell → Cell) : (s.setCell c f).rings = s.rings := rfl
@[simp] theorem State.setCell_heaters (s : State) (c : Nat) (f : Cell → Cell) : (s.setCell c f).heaters = s.heaters := rfl
@[simp] theorem State.setCell_diodes (s : State) (c : Nat) (f : Cell → Cell) : (s.setCell c f).diodes = s.diodes := rfl
@[simp] theorem State.setCell_temps (s : State) (c : Nat) (f : Cell → Cell) : (s.setCell c f).temps = s.temps := rfl
@[simp] theorem State.setCell_hot (s : State) (c : Nat) (f : Cell → Cell) : (s.setCell c f).hot = s.hot := rfl
@[simp] theorem State.setCell_saved (s : State) (c : Nat) (f : Cell → Cell) : (s.setCell c f).saved = s.saved := rfl
@[simp] theorem State.setCell_narcy (s : State) (c : Nat) (f : Cell → Cell) : (s.setCell c f).narcy = s.narcy := rfl
@[simp] theorem State.setCell_cxlCache (s : State) (c : Nat) (f : Cell → Cell) : (s.setCell c f).cxlCache = s.cxlCache := rfl
@[simp] theorem State.setCell_link (s : State) (c : Nat) (f : Cell → Cell) : (s.setCell c f).link = s.link := rfl
@[simp] theorem State.setCell_thermtrip (s : State) (c : Nat) (f : Cell → Cell) : (s.setCell c f).thermtrip = s.thermtrip := rfl
@[simp] theorem State.setCell_deviceNumber (s : State) (c : Nat) (f : Cell → Cell) : (s.setCell c f).deviceNumber = s.deviceNumber := rfl
@[simp] theorem State.setCell_peers (s : State) (c : Nat) (f : Cell → Cell) : (s.setCell c f).peers = s.peers := rfl

/-! ### State.setFibre -/

@[simp] theorem State.setFibre_powered (s : State) (r : FRef) (f : Fibre → Fibre) : (s.setFibre r f).powered = s.powered := rfl
@[simp] theorem State.setFibre_grade20 (s : State) (r : FRef) (f : Fibre → Fibre) : (s.setFibre r f).grade20 = s.grade20 := rfl
@[simp] theorem State.setFibre_now (s : State) (r : FRef) (f : Fibre → Fibre) : (s.setFibre r f).now = s.now := rfl
@[simp] theorem State.setFibre_tempo (s : State) (r : FRef) (f : Fibre → Fibre) : (s.setFibre r f).tempo = s.tempo := rfl
@[simp] theorem State.setFibre_free (s : State) (r : FRef) (f : Fibre → Fibre) : (s.setFibre r f).free = s.free := rfl
@[simp] theorem State.setFibre_next (s : State) (r : FRef) (f : Fibre → Fibre) : (s.setFibre r f).next = s.next := rfl
@[simp] theorem State.setFibre_agenda (s : State) (r : FRef) (f : Fibre → Fibre) : (s.setFibre r f).agenda = s.agenda := rfl
@[simp] theorem State.setFibre_cur (s : State) (r : FRef) (f : Fibre → Fibre) : (s.setFibre r f).cur = s.cur := rfl
@[simp] theorem State.setFibre_mem (s : State) (r : FRef) (f : Fibre → Fibre) : (s.setFibre r f).mem = s.mem := rfl
@[simp] theorem State.setFibre_lines (s : State) (r : FRef) (f : Fibre → Fibre) : (s.setFibre r f).lines = s.lines := rfl
@[simp] theorem State.setFibre_blocks (s : State) (r : FRef) (f : Fibre → Fibre) : (s.setFibre r f).blocks = s.blocks := rfl
@[simp] theorem State.setFibre_invals (s : State) (r : FRef) (f : Fibre → Fibre) : (s.setFibre r f).invals = s.invals := rfl
@[simp] theorem State.setFibre_tlb (s : State) (r : FRef) (f : Fibre → Fibre) : (s.setFibre r f).tlb = s.tlb := rfl
@[simp] theorem State.setFibre_pins (s : State) (r : FRef) (f : Fibre → Fibre) : (s.setFibre r f).pins = s.pins := rfl
@[simp] theorem State.setFibre_accs (s : State) (r : FRef) (f : Fibre → Fibre) : (s.setFibre r f).accs = s.accs := rfl
@[simp] theorem State.setFibre_ops (s : State) (r : FRef) (f : Fibre → Fibre) : (s.setFibre r f).ops = s.ops := rfl
@[simp] theorem State.setFibre_cells (s : State) (r : FRef) (f : Fibre → Fibre) : (s.setFibre r f).cells = s.cells.map fun x => if x.id = r.cell then x.setFibre r.idx f else x := rfl
@[simp] theorem State.setFibre_launches (s : State) (r : FRef) (f : Fibre → Fibre) : (s.setFibre r f).launches = s.launches := rfl
@[simp] theorem State.setFibre_frames (s : State) (r : FRef) (f : Fibre → Fibre) : (s.setFibre r f).frames = s.frames := rfl
@[simp] theorem State.setFibre_mxTiles (s : State) (r : FRef) (f : Fibre → Fibre) : (s.setFibre r f).mxTiles = s.mxTiles := rfl
@[simp] theorem State.setFibre_mxStatus (s : State) (r : FRef) (f : Fibre → Fibre) : (s.setFibre r f).mxStatus = s.mxStatus := rfl
@[simp] theorem State.setFibre_mxBy (s : State) (r : FRef) (f : Fibre → Fibre) : (s.setFibre r f).mxBy = s.mxBy := rfl
@[simp] theorem State.setFibre_crosshatch (s : State) (r : FRef) (f : Fibre → Fibre) : (s.setFibre r f).crosshatch = s.crosshatch := rfl
@[simp] theorem State.setFibre_rr (s : State) (r : FRef) (f : Fibre → Fibre) : (s.setFibre r f).rr = s.rr := rfl
@[simp] theorem State.setFibre_queues (s : State) (r : FRef) (f : Fibre → Fibre) : (s.setFibre r f).queues = s.queues := rfl
@[simp] theorem State.setFibre_packets (s : State) (r : FRef) (f : Fibre → Fibre) : (s.setFibre r f).packets = s.packets := rfl
@[simp] theorem State.setFibre_engines (s : State) (r : FRef) (f : Fibre → Fibre) : (s.setFibre r f).engines = s.engines := rfl
@[simp] theorem State.setFibre_fns (s : State) (r : FRef) (f : Fibre → Fibre) : (s.setFibre r f).fns = s.fns := rfl
@[simp] theorem State.setFibre_parts (s : State) (r : FRef) (f : Fibre → Fibre) : (s.setFibre r f).parts = s.parts := rfl
@[simp] theorem State.setFibre_islands (s : State) (r : FRef) (f : Fibre → Fibre) : (s.setFibre r f).islands = s.islands := rfl
@[simp] theorem State.setFibre_splits (s : State) (r : FRef) (f : Fibre → Fibre) : (s.setFibre r f).splits = s.splits := rfl
@[simp] theorem State.setFibre_draining (s : State) (r : FRef) (f : Fibre → Fibre) : (s.setFibre r f).draining = s.draining := rfl
@[simp] theorem State.setFibre_leftScratch (s : State) (r : FRef) (f : Fibre → Fibre) : (s.setFibre r f).leftScratch = s.leftScratch := rfl
@[simp] theorem State.setFibre_spares (s : State) (r : FRef) (f : Fibre → Fibre) : (s.setFibre r f).spares = s.spares := rfl
@[simp] theorem State.setFibre_decoders (s : State) (r : FRef) (f : Fibre → Fibre) : (s.setFibre r f).decoders = s.decoders := rfl
@[simp] theorem State.setFibre_lostPorts (s : State) (r : FRef) (f : Fibre → Fibre) : (s.setFibre r f).lostPorts = s.lostPorts := rfl
@[simp] theorem State.setFibre_rings (s : State) (r : FRef) (f : Fibre → Fibre) : (s.setFibre r f).rings = s.rings := rfl
@[simp] theorem State.setFibre_heaters (s : State) (r : FRef) (f : Fibre → Fibre) : (s.setFibre r f).heaters = s.heaters := rfl
@[simp] theorem State.setFibre_diodes (s : State) (r : FRef) (f : Fibre → Fibre) : (s.setFibre r f).diodes = s.diodes := rfl
@[simp] theorem State.setFibre_temps (s : State) (r : FRef) (f : Fibre → Fibre) : (s.setFibre r f).temps = s.temps := rfl
@[simp] theorem State.setFibre_hot (s : State) (r : FRef) (f : Fibre → Fibre) : (s.setFibre r f).hot = s.hot := rfl
@[simp] theorem State.setFibre_saved (s : State) (r : FRef) (f : Fibre → Fibre) : (s.setFibre r f).saved = s.saved := rfl
@[simp] theorem State.setFibre_narcy (s : State) (r : FRef) (f : Fibre → Fibre) : (s.setFibre r f).narcy = s.narcy := rfl
@[simp] theorem State.setFibre_cxlCache (s : State) (r : FRef) (f : Fibre → Fibre) : (s.setFibre r f).cxlCache = s.cxlCache := rfl
@[simp] theorem State.setFibre_link (s : State) (r : FRef) (f : Fibre → Fibre) : (s.setFibre r f).link = s.link := rfl
@[simp] theorem State.setFibre_thermtrip (s : State) (r : FRef) (f : Fibre → Fibre) : (s.setFibre r f).thermtrip = s.thermtrip := rfl
@[simp] theorem State.setFibre_deviceNumber (s : State) (r : FRef) (f : Fibre → Fibre) : (s.setFibre r f).deviceNumber = s.deviceNumber := rfl
@[simp] theorem State.setFibre_peers (s : State) (r : FRef) (f : Fibre → Fibre) : (s.setFibre r f).peers = s.peers := rfl

/-! ### State.mapFibres -/

@[simp] theorem State.mapFibres_powered (s : State) (c : Nat) (f : Fibre → Fibre) : (s.mapFibres c f).powered = s.powered := rfl
@[simp] theorem State.mapFibres_grade20 (s : State) (c : Nat) (f : Fibre → Fibre) : (s.mapFibres c f).grade20 = s.grade20 := rfl
@[simp] theorem State.mapFibres_now (s : State) (c : Nat) (f : Fibre → Fibre) : (s.mapFibres c f).now = s.now := rfl
@[simp] theorem State.mapFibres_tempo (s : State) (c : Nat) (f : Fibre → Fibre) : (s.mapFibres c f).tempo = s.tempo := rfl
@[simp] theorem State.mapFibres_free (s : State) (c : Nat) (f : Fibre → Fibre) : (s.mapFibres c f).free = s.free := rfl
@[simp] theorem State.mapFibres_next (s : State) (c : Nat) (f : Fibre → Fibre) : (s.mapFibres c f).next = s.next := rfl
@[simp] theorem State.mapFibres_agenda (s : State) (c : Nat) (f : Fibre → Fibre) : (s.mapFibres c f).agenda = s.agenda := rfl
@[simp] theorem State.mapFibres_cur (s : State) (c : Nat) (f : Fibre → Fibre) : (s.mapFibres c f).cur = s.cur := rfl
@[simp] theorem State.mapFibres_mem (s : State) (c : Nat) (f : Fibre → Fibre) : (s.mapFibres c f).mem = s.mem := rfl
@[simp] theorem State.mapFibres_lines (s : State) (c : Nat) (f : Fibre → Fibre) : (s.mapFibres c f).lines = s.lines := rfl
@[simp] theorem State.mapFibres_blocks (s : State) (c : Nat) (f : Fibre → Fibre) : (s.mapFibres c f).blocks = s.blocks := rfl
@[simp] theorem State.mapFibres_invals (s : State) (c : Nat) (f : Fibre → Fibre) : (s.mapFibres c f).invals = s.invals := rfl
@[simp] theorem State.mapFibres_tlb (s : State) (c : Nat) (f : Fibre → Fibre) : (s.mapFibres c f).tlb = s.tlb := rfl
@[simp] theorem State.mapFibres_pins (s : State) (c : Nat) (f : Fibre → Fibre) : (s.mapFibres c f).pins = s.pins := rfl
@[simp] theorem State.mapFibres_accs (s : State) (c : Nat) (f : Fibre → Fibre) : (s.mapFibres c f).accs = s.accs := rfl
@[simp] theorem State.mapFibres_ops (s : State) (c : Nat) (f : Fibre → Fibre) : (s.mapFibres c f).ops = s.ops := rfl
@[simp] theorem State.mapFibres_cells (s : State) (c : Nat) (f : Fibre → Fibre) : (s.mapFibres c f).cells = s.cells.map fun x => if x.id = c then { x with fibres := x.fibres.map f } else x := rfl
@[simp] theorem State.mapFibres_launches (s : State) (c : Nat) (f : Fibre → Fibre) : (s.mapFibres c f).launches = s.launches := rfl
@[simp] theorem State.mapFibres_frames (s : State) (c : Nat) (f : Fibre → Fibre) : (s.mapFibres c f).frames = s.frames := rfl
@[simp] theorem State.mapFibres_mxTiles (s : State) (c : Nat) (f : Fibre → Fibre) : (s.mapFibres c f).mxTiles = s.mxTiles := rfl
@[simp] theorem State.mapFibres_mxStatus (s : State) (c : Nat) (f : Fibre → Fibre) : (s.mapFibres c f).mxStatus = s.mxStatus := rfl
@[simp] theorem State.mapFibres_mxBy (s : State) (c : Nat) (f : Fibre → Fibre) : (s.mapFibres c f).mxBy = s.mxBy := rfl
@[simp] theorem State.mapFibres_crosshatch (s : State) (c : Nat) (f : Fibre → Fibre) : (s.mapFibres c f).crosshatch = s.crosshatch := rfl
@[simp] theorem State.mapFibres_rr (s : State) (c : Nat) (f : Fibre → Fibre) : (s.mapFibres c f).rr = s.rr := rfl
@[simp] theorem State.mapFibres_queues (s : State) (c : Nat) (f : Fibre → Fibre) : (s.mapFibres c f).queues = s.queues := rfl
@[simp] theorem State.mapFibres_packets (s : State) (c : Nat) (f : Fibre → Fibre) : (s.mapFibres c f).packets = s.packets := rfl
@[simp] theorem State.mapFibres_engines (s : State) (c : Nat) (f : Fibre → Fibre) : (s.mapFibres c f).engines = s.engines := rfl
@[simp] theorem State.mapFibres_fns (s : State) (c : Nat) (f : Fibre → Fibre) : (s.mapFibres c f).fns = s.fns := rfl
@[simp] theorem State.mapFibres_parts (s : State) (c : Nat) (f : Fibre → Fibre) : (s.mapFibres c f).parts = s.parts := rfl
@[simp] theorem State.mapFibres_islands (s : State) (c : Nat) (f : Fibre → Fibre) : (s.mapFibres c f).islands = s.islands := rfl
@[simp] theorem State.mapFibres_splits (s : State) (c : Nat) (f : Fibre → Fibre) : (s.mapFibres c f).splits = s.splits := rfl
@[simp] theorem State.mapFibres_draining (s : State) (c : Nat) (f : Fibre → Fibre) : (s.mapFibres c f).draining = s.draining := rfl
@[simp] theorem State.mapFibres_leftScratch (s : State) (c : Nat) (f : Fibre → Fibre) : (s.mapFibres c f).leftScratch = s.leftScratch := rfl
@[simp] theorem State.mapFibres_spares (s : State) (c : Nat) (f : Fibre → Fibre) : (s.mapFibres c f).spares = s.spares := rfl
@[simp] theorem State.mapFibres_decoders (s : State) (c : Nat) (f : Fibre → Fibre) : (s.mapFibres c f).decoders = s.decoders := rfl
@[simp] theorem State.mapFibres_lostPorts (s : State) (c : Nat) (f : Fibre → Fibre) : (s.mapFibres c f).lostPorts = s.lostPorts := rfl
@[simp] theorem State.mapFibres_rings (s : State) (c : Nat) (f : Fibre → Fibre) : (s.mapFibres c f).rings = s.rings := rfl
@[simp] theorem State.mapFibres_heaters (s : State) (c : Nat) (f : Fibre → Fibre) : (s.mapFibres c f).heaters = s.heaters := rfl
@[simp] theorem State.mapFibres_diodes (s : State) (c : Nat) (f : Fibre → Fibre) : (s.mapFibres c f).diodes = s.diodes := rfl
@[simp] theorem State.mapFibres_temps (s : State) (c : Nat) (f : Fibre → Fibre) : (s.mapFibres c f).temps = s.temps := rfl
@[simp] theorem State.mapFibres_hot (s : State) (c : Nat) (f : Fibre → Fibre) : (s.mapFibres c f).hot = s.hot := rfl
@[simp] theorem State.mapFibres_saved (s : State) (c : Nat) (f : Fibre → Fibre) : (s.mapFibres c f).saved = s.saved := rfl
@[simp] theorem State.mapFibres_narcy (s : State) (c : Nat) (f : Fibre → Fibre) : (s.mapFibres c f).narcy = s.narcy := rfl
@[simp] theorem State.mapFibres_cxlCache (s : State) (c : Nat) (f : Fibre → Fibre) : (s.mapFibres c f).cxlCache = s.cxlCache := rfl
@[simp] theorem State.mapFibres_link (s : State) (c : Nat) (f : Fibre → Fibre) : (s.mapFibres c f).link = s.link := rfl
@[simp] theorem State.mapFibres_thermtrip (s : State) (c : Nat) (f : Fibre → Fibre) : (s.mapFibres c f).thermtrip = s.thermtrip := rfl
@[simp] theorem State.mapFibres_deviceNumber (s : State) (c : Nat) (f : Fibre → Fibre) : (s.mapFibres c f).deviceNumber = s.deviceNumber := rfl
@[simp] theorem State.mapFibres_peers (s : State) (c : Nat) (f : Fibre → Fibre) : (s.mapFibres c f).peers = s.peers := rfl

/-! ### State.setAcc -/

@[simp] theorem State.setAcc_powered (s : State) (a : Nat) (f : Acc → Acc) : (s.setAcc a f).powered = s.powered := rfl
@[simp] theorem State.setAcc_grade20 (s : State) (a : Nat) (f : Acc → Acc) : (s.setAcc a f).grade20 = s.grade20 := rfl
@[simp] theorem State.setAcc_now (s : State) (a : Nat) (f : Acc → Acc) : (s.setAcc a f).now = s.now := rfl
@[simp] theorem State.setAcc_tempo (s : State) (a : Nat) (f : Acc → Acc) : (s.setAcc a f).tempo = s.tempo := rfl
@[simp] theorem State.setAcc_free (s : State) (a : Nat) (f : Acc → Acc) : (s.setAcc a f).free = s.free := rfl
@[simp] theorem State.setAcc_next (s : State) (a : Nat) (f : Acc → Acc) : (s.setAcc a f).next = s.next := rfl
@[simp] theorem State.setAcc_agenda (s : State) (a : Nat) (f : Acc → Acc) : (s.setAcc a f).agenda = s.agenda := rfl
@[simp] theorem State.setAcc_cur (s : State) (a : Nat) (f : Acc → Acc) : (s.setAcc a f).cur = s.cur := rfl
@[simp] theorem State.setAcc_mem (s : State) (a : Nat) (f : Acc → Acc) : (s.setAcc a f).mem = s.mem := rfl
@[simp] theorem State.setAcc_lines (s : State) (a : Nat) (f : Acc → Acc) : (s.setAcc a f).lines = s.lines := rfl
@[simp] theorem State.setAcc_blocks (s : State) (a : Nat) (f : Acc → Acc) : (s.setAcc a f).blocks = s.blocks := rfl
@[simp] theorem State.setAcc_invals (s : State) (a : Nat) (f : Acc → Acc) : (s.setAcc a f).invals = s.invals := rfl
@[simp] theorem State.setAcc_tlb (s : State) (a : Nat) (f : Acc → Acc) : (s.setAcc a f).tlb = s.tlb := rfl
@[simp] theorem State.setAcc_pins (s : State) (a : Nat) (f : Acc → Acc) : (s.setAcc a f).pins = s.pins := rfl
@[simp] theorem State.setAcc_accs (s : State) (a : Nat) (f : Acc → Acc) : (s.setAcc a f).accs = s.accs.map fun x => if x.id = a then f x else x := rfl
@[simp] theorem State.setAcc_ops (s : State) (a : Nat) (f : Acc → Acc) : (s.setAcc a f).ops = s.ops := rfl
@[simp] theorem State.setAcc_cells (s : State) (a : Nat) (f : Acc → Acc) : (s.setAcc a f).cells = s.cells := rfl
@[simp] theorem State.setAcc_launches (s : State) (a : Nat) (f : Acc → Acc) : (s.setAcc a f).launches = s.launches := rfl
@[simp] theorem State.setAcc_frames (s : State) (a : Nat) (f : Acc → Acc) : (s.setAcc a f).frames = s.frames := rfl
@[simp] theorem State.setAcc_mxTiles (s : State) (a : Nat) (f : Acc → Acc) : (s.setAcc a f).mxTiles = s.mxTiles := rfl
@[simp] theorem State.setAcc_mxStatus (s : State) (a : Nat) (f : Acc → Acc) : (s.setAcc a f).mxStatus = s.mxStatus := rfl
@[simp] theorem State.setAcc_mxBy (s : State) (a : Nat) (f : Acc → Acc) : (s.setAcc a f).mxBy = s.mxBy := rfl
@[simp] theorem State.setAcc_crosshatch (s : State) (a : Nat) (f : Acc → Acc) : (s.setAcc a f).crosshatch = s.crosshatch := rfl
@[simp] theorem State.setAcc_rr (s : State) (a : Nat) (f : Acc → Acc) : (s.setAcc a f).rr = s.rr := rfl
@[simp] theorem State.setAcc_queues (s : State) (a : Nat) (f : Acc → Acc) : (s.setAcc a f).queues = s.queues := rfl
@[simp] theorem State.setAcc_packets (s : State) (a : Nat) (f : Acc → Acc) : (s.setAcc a f).packets = s.packets := rfl
@[simp] theorem State.setAcc_engines (s : State) (a : Nat) (f : Acc → Acc) : (s.setAcc a f).engines = s.engines := rfl
@[simp] theorem State.setAcc_fns (s : State) (a : Nat) (f : Acc → Acc) : (s.setAcc a f).fns = s.fns := rfl
@[simp] theorem State.setAcc_parts (s : State) (a : Nat) (f : Acc → Acc) : (s.setAcc a f).parts = s.parts := rfl
@[simp] theorem State.setAcc_islands (s : State) (a : Nat) (f : Acc → Acc) : (s.setAcc a f).islands = s.islands := rfl
@[simp] theorem State.setAcc_splits (s : State) (a : Nat) (f : Acc → Acc) : (s.setAcc a f).splits = s.splits := rfl
@[simp] theorem State.setAcc_draining (s : State) (a : Nat) (f : Acc → Acc) : (s.setAcc a f).draining = s.draining := rfl
@[simp] theorem State.setAcc_leftScratch (s : State) (a : Nat) (f : Acc → Acc) : (s.setAcc a f).leftScratch = s.leftScratch := rfl
@[simp] theorem State.setAcc_spares (s : State) (a : Nat) (f : Acc → Acc) : (s.setAcc a f).spares = s.spares := rfl
@[simp] theorem State.setAcc_decoders (s : State) (a : Nat) (f : Acc → Acc) : (s.setAcc a f).decoders = s.decoders := rfl
@[simp] theorem State.setAcc_lostPorts (s : State) (a : Nat) (f : Acc → Acc) : (s.setAcc a f).lostPorts = s.lostPorts := rfl
@[simp] theorem State.setAcc_rings (s : State) (a : Nat) (f : Acc → Acc) : (s.setAcc a f).rings = s.rings := rfl
@[simp] theorem State.setAcc_heaters (s : State) (a : Nat) (f : Acc → Acc) : (s.setAcc a f).heaters = s.heaters := rfl
@[simp] theorem State.setAcc_diodes (s : State) (a : Nat) (f : Acc → Acc) : (s.setAcc a f).diodes = s.diodes := rfl
@[simp] theorem State.setAcc_temps (s : State) (a : Nat) (f : Acc → Acc) : (s.setAcc a f).temps = s.temps := rfl
@[simp] theorem State.setAcc_hot (s : State) (a : Nat) (f : Acc → Acc) : (s.setAcc a f).hot = s.hot := rfl
@[simp] theorem State.setAcc_saved (s : State) (a : Nat) (f : Acc → Acc) : (s.setAcc a f).saved = s.saved := rfl
@[simp] theorem State.setAcc_narcy (s : State) (a : Nat) (f : Acc → Acc) : (s.setAcc a f).narcy = s.narcy := rfl
@[simp] theorem State.setAcc_cxlCache (s : State) (a : Nat) (f : Acc → Acc) : (s.setAcc a f).cxlCache = s.cxlCache := rfl
@[simp] theorem State.setAcc_link (s : State) (a : Nat) (f : Acc → Acc) : (s.setAcc a f).link = s.link := rfl
@[simp] theorem State.setAcc_thermtrip (s : State) (a : Nat) (f : Acc → Acc) : (s.setAcc a f).thermtrip = s.thermtrip := rfl
@[simp] theorem State.setAcc_deviceNumber (s : State) (a : Nat) (f : Acc → Acc) : (s.setAcc a f).deviceNumber = s.deviceNumber := rfl
@[simp] theorem State.setAcc_peers (s : State) (a : Nat) (f : Acc → Acc) : (s.setAcc a f).peers = s.peers := rfl

/-! ### State.dropAcc -/

@[simp] theorem State.dropAcc_powered (s : State) (a : Nat) : (s.dropAcc a).powered = s.powered := rfl
@[simp] theorem State.dropAcc_grade20 (s : State) (a : Nat) : (s.dropAcc a).grade20 = s.grade20 := rfl
@[simp] theorem State.dropAcc_now (s : State) (a : Nat) : (s.dropAcc a).now = s.now := rfl
@[simp] theorem State.dropAcc_tempo (s : State) (a : Nat) : (s.dropAcc a).tempo = s.tempo := rfl
@[simp] theorem State.dropAcc_free (s : State) (a : Nat) : (s.dropAcc a).free = s.free := rfl
@[simp] theorem State.dropAcc_next (s : State) (a : Nat) : (s.dropAcc a).next = s.next := rfl
@[simp] theorem State.dropAcc_agenda (s : State) (a : Nat) : (s.dropAcc a).agenda = s.agenda := rfl
@[simp] theorem State.dropAcc_cur (s : State) (a : Nat) : (s.dropAcc a).cur = s.cur := rfl
@[simp] theorem State.dropAcc_mem (s : State) (a : Nat) : (s.dropAcc a).mem = s.mem := rfl
@[simp] theorem State.dropAcc_lines (s : State) (a : Nat) : (s.dropAcc a).lines = s.lines := rfl
@[simp] theorem State.dropAcc_blocks (s : State) (a : Nat) : (s.dropAcc a).blocks = s.blocks := rfl
@[simp] theorem State.dropAcc_invals (s : State) (a : Nat) : (s.dropAcc a).invals = s.invals := rfl
@[simp] theorem State.dropAcc_tlb (s : State) (a : Nat) : (s.dropAcc a).tlb = s.tlb := rfl
@[simp] theorem State.dropAcc_pins (s : State) (a : Nat) : (s.dropAcc a).pins = s.pins := rfl
@[simp] theorem State.dropAcc_accs (s : State) (a : Nat) : (s.dropAcc a).accs = s.accs.filter (·.id != a) := rfl
@[simp] theorem State.dropAcc_ops (s : State) (a : Nat) : (s.dropAcc a).ops = s.ops := rfl
@[simp] theorem State.dropAcc_cells (s : State) (a : Nat) : (s.dropAcc a).cells = s.cells := rfl
@[simp] theorem State.dropAcc_launches (s : State) (a : Nat) : (s.dropAcc a).launches = s.launches := rfl
@[simp] theorem State.dropAcc_frames (s : State) (a : Nat) : (s.dropAcc a).frames = s.frames := rfl
@[simp] theorem State.dropAcc_mxTiles (s : State) (a : Nat) : (s.dropAcc a).mxTiles = s.mxTiles := rfl
@[simp] theorem State.dropAcc_mxStatus (s : State) (a : Nat) : (s.dropAcc a).mxStatus = s.mxStatus := rfl
@[simp] theorem State.dropAcc_mxBy (s : State) (a : Nat) : (s.dropAcc a).mxBy = s.mxBy := rfl
@[simp] theorem State.dropAcc_crosshatch (s : State) (a : Nat) : (s.dropAcc a).crosshatch = s.crosshatch := rfl
@[simp] theorem State.dropAcc_rr (s : State) (a : Nat) : (s.dropAcc a).rr = s.rr := rfl
@[simp] theorem State.dropAcc_queues (s : State) (a : Nat) : (s.dropAcc a).queues = s.queues := rfl
@[simp] theorem State.dropAcc_packets (s : State) (a : Nat) : (s.dropAcc a).packets = s.packets := rfl
@[simp] theorem State.dropAcc_engines (s : State) (a : Nat) : (s.dropAcc a).engines = s.engines := rfl
@[simp] theorem State.dropAcc_fns (s : State) (a : Nat) : (s.dropAcc a).fns = s.fns := rfl
@[simp] theorem State.dropAcc_parts (s : State) (a : Nat) : (s.dropAcc a).parts = s.parts := rfl
@[simp] theorem State.dropAcc_islands (s : State) (a : Nat) : (s.dropAcc a).islands = s.islands := rfl
@[simp] theorem State.dropAcc_splits (s : State) (a : Nat) : (s.dropAcc a).splits = s.splits := rfl
@[simp] theorem State.dropAcc_draining (s : State) (a : Nat) : (s.dropAcc a).draining = s.draining := rfl
@[simp] theorem State.dropAcc_leftScratch (s : State) (a : Nat) : (s.dropAcc a).leftScratch = s.leftScratch := rfl
@[simp] theorem State.dropAcc_spares (s : State) (a : Nat) : (s.dropAcc a).spares = s.spares := rfl
@[simp] theorem State.dropAcc_decoders (s : State) (a : Nat) : (s.dropAcc a).decoders = s.decoders := rfl
@[simp] theorem State.dropAcc_lostPorts (s : State) (a : Nat) : (s.dropAcc a).lostPorts = s.lostPorts := rfl
@[simp] theorem State.dropAcc_rings (s : State) (a : Nat) : (s.dropAcc a).rings = s.rings := rfl
@[simp] theorem State.dropAcc_heaters (s : State) (a : Nat) : (s.dropAcc a).heaters = s.heaters := rfl
@[simp] theorem State.dropAcc_diodes (s : State) (a : Nat) : (s.dropAcc a).diodes = s.diodes := rfl
@[simp] theorem State.dropAcc_temps (s : State) (a : Nat) : (s.dropAcc a).temps = s.temps := rfl
@[simp] theorem State.dropAcc_hot (s : State) (a : Nat) : (s.dropAcc a).hot = s.hot := rfl
@[simp] theorem State.dropAcc_saved (s : State) (a : Nat) : (s.dropAcc a).saved = s.saved := rfl
@[simp] theorem State.dropAcc_narcy (s : State) (a : Nat) : (s.dropAcc a).narcy = s.narcy := rfl
@[simp] theorem State.dropAcc_cxlCache (s : State) (a : Nat) : (s.dropAcc a).cxlCache = s.cxlCache := rfl
@[simp] theorem State.dropAcc_link (s : State) (a : Nat) : (s.dropAcc a).link = s.link := rfl
@[simp] theorem State.dropAcc_thermtrip (s : State) (a : Nat) : (s.dropAcc a).thermtrip = s.thermtrip := rfl
@[simp] theorem State.dropAcc_deviceNumber (s : State) (a : Nat) : (s.dropAcc a).deviceNumber = s.deviceNumber := rfl
@[simp] theorem State.dropAcc_peers (s : State) (a : Nat) : (s.dropAcc a).peers = s.peers := rfl

/-! ### State.post -/

@[simp] theorem State.post_powered (s : State) (a : Acc) : (s.post a).powered = s.powered := rfl
@[simp] theorem State.post_grade20 (s : State) (a : Acc) : (s.post a).grade20 = s.grade20 := rfl
@[simp] theorem State.post_now (s : State) (a : Acc) : (s.post a).now = s.now := rfl
@[simp] theorem State.post_tempo (s : State) (a : Acc) : (s.post a).tempo = s.tempo := rfl
@[simp] theorem State.post_free (s : State) (a : Acc) : (s.post a).free = s.free := rfl
@[simp] theorem State.post_next (s : State) (a : Acc) : (s.post a).next = s.next + 1 := rfl
@[simp] theorem State.post_agenda (s : State) (a : Acc) : (s.post a).agenda = s.agenda := rfl
@[simp] theorem State.post_cur (s : State) (a : Acc) : (s.post a).cur = s.cur := rfl
@[simp] theorem State.post_mem (s : State) (a : Acc) : (s.post a).mem = s.mem := rfl
@[simp] theorem State.post_lines (s : State) (a : Acc) : (s.post a).lines = s.lines := rfl
@[simp] theorem State.post_blocks (s : State) (a : Acc) : (s.post a).blocks = s.blocks := rfl
@[simp] theorem State.post_invals (s : State) (a : Acc) : (s.post a).invals = s.invals := rfl
@[simp] theorem State.post_tlb (s : State) (a : Acc) : (s.post a).tlb = s.tlb := rfl
@[simp] theorem State.post_pins (s : State) (a : Acc) : (s.post a).pins = s.pins := rfl
@[simp] theorem State.post_accs (s : State) (a : Acc) : (s.post a).accs = s.accs ++ [a] := rfl
@[simp] theorem State.post_ops (s : State) (a : Acc) : (s.post a).ops = s.ops := rfl
@[simp] theorem State.post_cells (s : State) (a : Acc) : (s.post a).cells = s.cells := rfl
@[simp] theorem State.post_launches (s : State) (a : Acc) : (s.post a).launches = s.launches := rfl
@[simp] theorem State.post_frames (s : State) (a : Acc) : (s.post a).frames = s.frames := rfl
@[simp] theorem State.post_mxTiles (s : State) (a : Acc) : (s.post a).mxTiles = s.mxTiles := rfl
@[simp] theorem State.post_mxStatus (s : State) (a : Acc) : (s.post a).mxStatus = s.mxStatus := rfl
@[simp] theorem State.post_mxBy (s : State) (a : Acc) : (s.post a).mxBy = s.mxBy := rfl
@[simp] theorem State.post_crosshatch (s : State) (a : Acc) : (s.post a).crosshatch = s.crosshatch := rfl
@[simp] theorem State.post_rr (s : State) (a : Acc) : (s.post a).rr = s.rr := rfl
@[simp] theorem State.post_queues (s : State) (a : Acc) : (s.post a).queues = s.queues := rfl
@[simp] theorem State.post_packets (s : State) (a : Acc) : (s.post a).packets = s.packets := rfl
@[simp] theorem State.post_engines (s : State) (a : Acc) : (s.post a).engines = s.engines := rfl
@[simp] theorem State.post_fns (s : State) (a : Acc) : (s.post a).fns = s.fns := rfl
@[simp] theorem State.post_parts (s : State) (a : Acc) : (s.post a).parts = s.parts := rfl
@[simp] theorem State.post_islands (s : State) (a : Acc) : (s.post a).islands = s.islands := rfl
@[simp] theorem State.post_splits (s : State) (a : Acc) : (s.post a).splits = s.splits := rfl
@[simp] theorem State.post_draining (s : State) (a : Acc) : (s.post a).draining = s.draining := rfl
@[simp] theorem State.post_leftScratch (s : State) (a : Acc) : (s.post a).leftScratch = s.leftScratch := rfl
@[simp] theorem State.post_spares (s : State) (a : Acc) : (s.post a).spares = s.spares := rfl
@[simp] theorem State.post_decoders (s : State) (a : Acc) : (s.post a).decoders = s.decoders := rfl
@[simp] theorem State.post_lostPorts (s : State) (a : Acc) : (s.post a).lostPorts = s.lostPorts := rfl
@[simp] theorem State.post_rings (s : State) (a : Acc) : (s.post a).rings = s.rings := rfl
@[simp] theorem State.post_heaters (s : State) (a : Acc) : (s.post a).heaters = s.heaters := rfl
@[simp] theorem State.post_diodes (s : State) (a : Acc) : (s.post a).diodes = s.diodes := rfl
@[simp] theorem State.post_temps (s : State) (a : Acc) : (s.post a).temps = s.temps := rfl
@[simp] theorem State.post_hot (s : State) (a : Acc) : (s.post a).hot = s.hot := rfl
@[simp] theorem State.post_saved (s : State) (a : Acc) : (s.post a).saved = s.saved := rfl
@[simp] theorem State.post_narcy (s : State) (a : Acc) : (s.post a).narcy = s.narcy := rfl
@[simp] theorem State.post_cxlCache (s : State) (a : Acc) : (s.post a).cxlCache = s.cxlCache := rfl
@[simp] theorem State.post_link (s : State) (a : Acc) : (s.post a).link = s.link := rfl
@[simp] theorem State.post_thermtrip (s : State) (a : Acc) : (s.post a).thermtrip = s.thermtrip := rfl
@[simp] theorem State.post_deviceNumber (s : State) (a : Acc) : (s.post a).deviceNumber = s.deviceNumber := rfl
@[simp] theorem State.post_peers (s : State) (a : Acc) : (s.post a).peers = s.peers := rfl

/-! ### State.setOp -/

@[simp] theorem State.setOp_powered (s : State) (o : Nat) (f : Op → Op) : (s.setOp o f).powered = s.powered := rfl
@[simp] theorem State.setOp_grade20 (s : State) (o : Nat) (f : Op → Op) : (s.setOp o f).grade20 = s.grade20 := rfl
@[simp] theorem State.setOp_now (s : State) (o : Nat) (f : Op → Op) : (s.setOp o f).now = s.now := rfl
@[simp] theorem State.setOp_tempo (s : State) (o : Nat) (f : Op → Op) : (s.setOp o f).tempo = s.tempo := rfl
@[simp] theorem State.setOp_free (s : State) (o : Nat) (f : Op → Op) : (s.setOp o f).free = s.free := rfl
@[simp] theorem State.setOp_next (s : State) (o : Nat) (f : Op → Op) : (s.setOp o f).next = s.next := rfl
@[simp] theorem State.setOp_agenda (s : State) (o : Nat) (f : Op → Op) : (s.setOp o f).agenda = s.agenda := rfl
@[simp] theorem State.setOp_cur (s : State) (o : Nat) (f : Op → Op) : (s.setOp o f).cur = s.cur := rfl
@[simp] theorem State.setOp_mem (s : State) (o : Nat) (f : Op → Op) : (s.setOp o f).mem = s.mem := rfl
@[simp] theorem State.setOp_lines (s : State) (o : Nat) (f : Op → Op) : (s.setOp o f).lines = s.lines := rfl
@[simp] theorem State.setOp_blocks (s : State) (o : Nat) (f : Op → Op) : (s.setOp o f).blocks = s.blocks := rfl
@[simp] theorem State.setOp_invals (s : State) (o : Nat) (f : Op → Op) : (s.setOp o f).invals = s.invals := rfl
@[simp] theorem State.setOp_tlb (s : State) (o : Nat) (f : Op → Op) : (s.setOp o f).tlb = s.tlb := rfl
@[simp] theorem State.setOp_pins (s : State) (o : Nat) (f : Op → Op) : (s.setOp o f).pins = s.pins := rfl
@[simp] theorem State.setOp_accs (s : State) (o : Nat) (f : Op → Op) : (s.setOp o f).accs = s.accs := rfl
@[simp] theorem State.setOp_ops (s : State) (o : Nat) (f : Op → Op) : (s.setOp o f).ops = s.ops.map fun x => if x.id = o then f x else x := rfl
@[simp] theorem State.setOp_cells (s : State) (o : Nat) (f : Op → Op) : (s.setOp o f).cells = s.cells := rfl
@[simp] theorem State.setOp_launches (s : State) (o : Nat) (f : Op → Op) : (s.setOp o f).launches = s.launches := rfl
@[simp] theorem State.setOp_frames (s : State) (o : Nat) (f : Op → Op) : (s.setOp o f).frames = s.frames := rfl
@[simp] theorem State.setOp_mxTiles (s : State) (o : Nat) (f : Op → Op) : (s.setOp o f).mxTiles = s.mxTiles := rfl
@[simp] theorem State.setOp_mxStatus (s : State) (o : Nat) (f : Op → Op) : (s.setOp o f).mxStatus = s.mxStatus := rfl
@[simp] theorem State.setOp_mxBy (s : State) (o : Nat) (f : Op → Op) : (s.setOp o f).mxBy = s.mxBy := rfl
@[simp] theorem State.setOp_crosshatch (s : State) (o : Nat) (f : Op → Op) : (s.setOp o f).crosshatch = s.crosshatch := rfl
@[simp] theorem State.setOp_rr (s : State) (o : Nat) (f : Op → Op) : (s.setOp o f).rr = s.rr := rfl
@[simp] theorem State.setOp_queues (s : State) (o : Nat) (f : Op → Op) : (s.setOp o f).queues = s.queues := rfl
@[simp] theorem State.setOp_packets (s : State) (o : Nat) (f : Op → Op) : (s.setOp o f).packets = s.packets := rfl
@[simp] theorem State.setOp_engines (s : State) (o : Nat) (f : Op → Op) : (s.setOp o f).engines = s.engines := rfl
@[simp] theorem State.setOp_fns (s : State) (o : Nat) (f : Op → Op) : (s.setOp o f).fns = s.fns := rfl
@[simp] theorem State.setOp_parts (s : State) (o : Nat) (f : Op → Op) : (s.setOp o f).parts = s.parts := rfl
@[simp] theorem State.setOp_islands (s : State) (o : Nat) (f : Op → Op) : (s.setOp o f).islands = s.islands := rfl
@[simp] theorem State.setOp_splits (s : State) (o : Nat) (f : Op → Op) : (s.setOp o f).splits = s.splits := rfl
@[simp] theorem State.setOp_draining (s : State) (o : Nat) (f : Op → Op) : (s.setOp o f).draining = s.draining := rfl
@[simp] theorem State.setOp_leftScratch (s : State) (o : Nat) (f : Op → Op) : (s.setOp o f).leftScratch = s.leftScratch := rfl
@[simp] theorem State.setOp_spares (s : State) (o : Nat) (f : Op → Op) : (s.setOp o f).spares = s.spares := rfl
@[simp] theorem State.setOp_decoders (s : State) (o : Nat) (f : Op → Op) : (s.setOp o f).decoders = s.decoders := rfl
@[simp] theorem State.setOp_lostPorts (s : State) (o : Nat) (f : Op → Op) : (s.setOp o f).lostPorts = s.lostPorts := rfl
@[simp] theorem State.setOp_rings (s : State) (o : Nat) (f : Op → Op) : (s.setOp o f).rings = s.rings := rfl
@[simp] theorem State.setOp_heaters (s : State) (o : Nat) (f : Op → Op) : (s.setOp o f).heaters = s.heaters := rfl
@[simp] theorem State.setOp_diodes (s : State) (o : Nat) (f : Op → Op) : (s.setOp o f).diodes = s.diodes := rfl
@[simp] theorem State.setOp_temps (s : State) (o : Nat) (f : Op → Op) : (s.setOp o f).temps = s.temps := rfl
@[simp] theorem State.setOp_hot (s : State) (o : Nat) (f : Op → Op) : (s.setOp o f).hot = s.hot := rfl
@[simp] theorem State.setOp_saved (s : State) (o : Nat) (f : Op → Op) : (s.setOp o f).saved = s.saved := rfl
@[simp] theorem State.setOp_narcy (s : State) (o : Nat) (f : Op → Op) : (s.setOp o f).narcy = s.narcy := rfl
@[simp] theorem State.setOp_cxlCache (s : State) (o : Nat) (f : Op → Op) : (s.setOp o f).cxlCache = s.cxlCache := rfl
@[simp] theorem State.setOp_link (s : State) (o : Nat) (f : Op → Op) : (s.setOp o f).link = s.link := rfl
@[simp] theorem State.setOp_thermtrip (s : State) (o : Nat) (f : Op → Op) : (s.setOp o f).thermtrip = s.thermtrip := rfl
@[simp] theorem State.setOp_deviceNumber (s : State) (o : Nat) (f : Op → Op) : (s.setOp o f).deviceNumber = s.deviceNumber := rfl
@[simp] theorem State.setOp_peers (s : State) (o : Nat) (f : Op → Op) : (s.setOp o f).peers = s.peers := rfl

/-! ### State.setPart -/

@[simp] theorem State.setPart_powered (s : State) (p : Nat) (f : Partition → Partition) : (s.setPart p f).powered = s.powered := rfl
@[simp] theorem State.setPart_grade20 (s : State) (p : Nat) (f : Partition → Partition) : (s.setPart p f).grade20 = s.grade20 := rfl
@[simp] theorem State.setPart_now (s : State) (p : Nat) (f : Partition → Partition) : (s.setPart p f).now = s.now := rfl
@[simp] theorem State.setPart_tempo (s : State) (p : Nat) (f : Partition → Partition) : (s.setPart p f).tempo = s.tempo := rfl
@[simp] theorem State.setPart_free (s : State) (p : Nat) (f : Partition → Partition) : (s.setPart p f).free = s.free := rfl
@[simp] theorem State.setPart_next (s : State) (p : Nat) (f : Partition → Partition) : (s.setPart p f).next = s.next := rfl
@[simp] theorem State.setPart_agenda (s : State) (p : Nat) (f : Partition → Partition) : (s.setPart p f).agenda = s.agenda := rfl
@[simp] theorem State.setPart_cur (s : State) (p : Nat) (f : Partition → Partition) : (s.setPart p f).cur = s.cur := rfl
@[simp] theorem State.setPart_mem (s : State) (p : Nat) (f : Partition → Partition) : (s.setPart p f).mem = s.mem := rfl
@[simp] theorem State.setPart_lines (s : State) (p : Nat) (f : Partition → Partition) : (s.setPart p f).lines = s.lines := rfl
@[simp] theorem State.setPart_blocks (s : State) (p : Nat) (f : Partition → Partition) : (s.setPart p f).blocks = s.blocks := rfl
@[simp] theorem State.setPart_invals (s : State) (p : Nat) (f : Partition → Partition) : (s.setPart p f).invals = s.invals := rfl
@[simp] theorem State.setPart_tlb (s : State) (p : Nat) (f : Partition → Partition) : (s.setPart p f).tlb = s.tlb := rfl
@[simp] theorem State.setPart_pins (s : State) (p : Nat) (f : Partition → Partition) : (s.setPart p f).pins = s.pins := rfl
@[simp] theorem State.setPart_accs (s : State) (p : Nat) (f : Partition → Partition) : (s.setPart p f).accs = s.accs := rfl
@[simp] theorem State.setPart_ops (s : State) (p : Nat) (f : Partition → Partition) : (s.setPart p f).ops = s.ops := rfl
@[simp] theorem State.setPart_cells (s : State) (p : Nat) (f : Partition → Partition) : (s.setPart p f).cells = s.cells := rfl
@[simp] theorem State.setPart_launches (s : State) (p : Nat) (f : Partition → Partition) : (s.setPart p f).launches = s.launches := rfl
@[simp] theorem State.setPart_frames (s : State) (p : Nat) (f : Partition → Partition) : (s.setPart p f).frames = s.frames := rfl
@[simp] theorem State.setPart_mxTiles (s : State) (p : Nat) (f : Partition → Partition) : (s.setPart p f).mxTiles = s.mxTiles := rfl
@[simp] theorem State.setPart_mxStatus (s : State) (p : Nat) (f : Partition → Partition) : (s.setPart p f).mxStatus = s.mxStatus := rfl
@[simp] theorem State.setPart_mxBy (s : State) (p : Nat) (f : Partition → Partition) : (s.setPart p f).mxBy = s.mxBy := rfl
@[simp] theorem State.setPart_crosshatch (s : State) (p : Nat) (f : Partition → Partition) : (s.setPart p f).crosshatch = s.crosshatch := rfl
@[simp] theorem State.setPart_rr (s : State) (p : Nat) (f : Partition → Partition) : (s.setPart p f).rr = s.rr := rfl
@[simp] theorem State.setPart_queues (s : State) (p : Nat) (f : Partition → Partition) : (s.setPart p f).queues = s.queues := rfl
@[simp] theorem State.setPart_packets (s : State) (p : Nat) (f : Partition → Partition) : (s.setPart p f).packets = s.packets := rfl
@[simp] theorem State.setPart_engines (s : State) (p : Nat) (f : Partition → Partition) : (s.setPart p f).engines = s.engines := rfl
@[simp] theorem State.setPart_fns (s : State) (p : Nat) (f : Partition → Partition) : (s.setPart p f).fns = s.fns := rfl
@[simp] theorem State.setPart_parts (s : State) (p : Nat) (f : Partition → Partition) : (s.setPart p f).parts = s.parts.map fun x => if x.id = p then f x else x := rfl
@[simp] theorem State.setPart_islands (s : State) (p : Nat) (f : Partition → Partition) : (s.setPart p f).islands = s.islands := rfl
@[simp] theorem State.setPart_splits (s : State) (p : Nat) (f : Partition → Partition) : (s.setPart p f).splits = s.splits := rfl
@[simp] theorem State.setPart_draining (s : State) (p : Nat) (f : Partition → Partition) : (s.setPart p f).draining = s.draining := rfl
@[simp] theorem State.setPart_leftScratch (s : State) (p : Nat) (f : Partition → Partition) : (s.setPart p f).leftScratch = s.leftScratch := rfl
@[simp] theorem State.setPart_spares (s : State) (p : Nat) (f : Partition → Partition) : (s.setPart p f).spares = s.spares := rfl
@[simp] theorem State.setPart_decoders (s : State) (p : Nat) (f : Partition → Partition) : (s.setPart p f).decoders = s.decoders := rfl
@[simp] theorem State.setPart_lostPorts (s : State) (p : Nat) (f : Partition → Partition) : (s.setPart p f).lostPorts = s.lostPorts := rfl
@[simp] theorem State.setPart_rings (s : State) (p : Nat) (f : Partition → Partition) : (s.setPart p f).rings = s.rings := rfl
@[simp] theorem State.setPart_heaters (s : State) (p : Nat) (f : Partition → Partition) : (s.setPart p f).heaters = s.heaters := rfl
@[simp] theorem State.setPart_diodes (s : State) (p : Nat) (f : Partition → Partition) : (s.setPart p f).diodes = s.diodes := rfl
@[simp] theorem State.setPart_temps (s : State) (p : Nat) (f : Partition → Partition) : (s.setPart p f).temps = s.temps := rfl
@[simp] theorem State.setPart_hot (s : State) (p : Nat) (f : Partition → Partition) : (s.setPart p f).hot = s.hot := rfl
@[simp] theorem State.setPart_saved (s : State) (p : Nat) (f : Partition → Partition) : (s.setPart p f).saved = s.saved := rfl
@[simp] theorem State.setPart_narcy (s : State) (p : Nat) (f : Partition → Partition) : (s.setPart p f).narcy = s.narcy := rfl
@[simp] theorem State.setPart_cxlCache (s : State) (p : Nat) (f : Partition → Partition) : (s.setPart p f).cxlCache = s.cxlCache := rfl
@[simp] theorem State.setPart_link (s : State) (p : Nat) (f : Partition → Partition) : (s.setPart p f).link = s.link := rfl
@[simp] theorem State.setPart_thermtrip (s : State) (p : Nat) (f : Partition → Partition) : (s.setPart p f).thermtrip = s.thermtrip := rfl
@[simp] theorem State.setPart_deviceNumber (s : State) (p : Nat) (f : Partition → Partition) : (s.setPart p f).deviceNumber = s.deviceNumber := rfl
@[simp] theorem State.setPart_peers (s : State) (p : Nat) (f : Partition → Partition) : (s.setPart p f).peers = s.peers := rfl

/-! ### State.setFn -/

@[simp] theorem State.setFn_powered (s : State) (p n : Nat) (f : Fn → Fn) : (s.setFn p n f).powered = s.powered := rfl
@[simp] theorem State.setFn_grade20 (s : State) (p n : Nat) (f : Fn → Fn) : (s.setFn p n f).grade20 = s.grade20 := rfl
@[simp] theorem State.setFn_now (s : State) (p n : Nat) (f : Fn → Fn) : (s.setFn p n f).now = s.now := rfl
@[simp] theorem State.setFn_tempo (s : State) (p n : Nat) (f : Fn → Fn) : (s.setFn p n f).tempo = s.tempo := rfl
@[simp] theorem State.setFn_free (s : State) (p n : Nat) (f : Fn → Fn) : (s.setFn p n f).free = s.free := rfl
@[simp] theorem State.setFn_next (s : State) (p n : Nat) (f : Fn → Fn) : (s.setFn p n f).next = s.next := rfl
@[simp] theorem State.setFn_agenda (s : State) (p n : Nat) (f : Fn → Fn) : (s.setFn p n f).agenda = s.agenda := rfl
@[simp] theorem State.setFn_cur (s : State) (p n : Nat) (f : Fn → Fn) : (s.setFn p n f).cur = s.cur := rfl
@[simp] theorem State.setFn_mem (s : State) (p n : Nat) (f : Fn → Fn) : (s.setFn p n f).mem = s.mem := rfl
@[simp] theorem State.setFn_lines (s : State) (p n : Nat) (f : Fn → Fn) : (s.setFn p n f).lines = s.lines := rfl
@[simp] theorem State.setFn_blocks (s : State) (p n : Nat) (f : Fn → Fn) : (s.setFn p n f).blocks = s.blocks := rfl
@[simp] theorem State.setFn_invals (s : State) (p n : Nat) (f : Fn → Fn) : (s.setFn p n f).invals = s.invals := rfl
@[simp] theorem State.setFn_tlb (s : State) (p n : Nat) (f : Fn → Fn) : (s.setFn p n f).tlb = s.tlb := rfl
@[simp] theorem State.setFn_pins (s : State) (p n : Nat) (f : Fn → Fn) : (s.setFn p n f).pins = s.pins := rfl
@[simp] theorem State.setFn_accs (s : State) (p n : Nat) (f : Fn → Fn) : (s.setFn p n f).accs = s.accs := rfl
@[simp] theorem State.setFn_ops (s : State) (p n : Nat) (f : Fn → Fn) : (s.setFn p n f).ops = s.ops := rfl
@[simp] theorem State.setFn_cells (s : State) (p n : Nat) (f : Fn → Fn) : (s.setFn p n f).cells = s.cells := rfl
@[simp] theorem State.setFn_launches (s : State) (p n : Nat) (f : Fn → Fn) : (s.setFn p n f).launches = s.launches := rfl
@[simp] theorem State.setFn_frames (s : State) (p n : Nat) (f : Fn → Fn) : (s.setFn p n f).frames = s.frames := rfl
@[simp] theorem State.setFn_mxTiles (s : State) (p n : Nat) (f : Fn → Fn) : (s.setFn p n f).mxTiles = s.mxTiles := rfl
@[simp] theorem State.setFn_mxStatus (s : State) (p n : Nat) (f : Fn → Fn) : (s.setFn p n f).mxStatus = s.mxStatus := rfl
@[simp] theorem State.setFn_mxBy (s : State) (p n : Nat) (f : Fn → Fn) : (s.setFn p n f).mxBy = s.mxBy := rfl
@[simp] theorem State.setFn_crosshatch (s : State) (p n : Nat) (f : Fn → Fn) : (s.setFn p n f).crosshatch = s.crosshatch := rfl
@[simp] theorem State.setFn_rr (s : State) (p n : Nat) (f : Fn → Fn) : (s.setFn p n f).rr = s.rr := rfl
@[simp] theorem State.setFn_queues (s : State) (p n : Nat) (f : Fn → Fn) : (s.setFn p n f).queues = s.queues := rfl
@[simp] theorem State.setFn_packets (s : State) (p n : Nat) (f : Fn → Fn) : (s.setFn p n f).packets = s.packets := rfl
@[simp] theorem State.setFn_engines (s : State) (p n : Nat) (f : Fn → Fn) : (s.setFn p n f).engines = s.engines := rfl
@[simp] theorem State.setFn_fns (s : State) (p n : Nat) (f : Fn → Fn) : (s.setFn p n f).fns = s.fns.map fun x => if x.part = p ∧ x.num = n then f x else x := rfl
@[simp] theorem State.setFn_parts (s : State) (p n : Nat) (f : Fn → Fn) : (s.setFn p n f).parts = s.parts := rfl
@[simp] theorem State.setFn_islands (s : State) (p n : Nat) (f : Fn → Fn) : (s.setFn p n f).islands = s.islands := rfl
@[simp] theorem State.setFn_splits (s : State) (p n : Nat) (f : Fn → Fn) : (s.setFn p n f).splits = s.splits := rfl
@[simp] theorem State.setFn_draining (s : State) (p n : Nat) (f : Fn → Fn) : (s.setFn p n f).draining = s.draining := rfl
@[simp] theorem State.setFn_leftScratch (s : State) (p n : Nat) (f : Fn → Fn) : (s.setFn p n f).leftScratch = s.leftScratch := rfl
@[simp] theorem State.setFn_spares (s : State) (p n : Nat) (f : Fn → Fn) : (s.setFn p n f).spares = s.spares := rfl
@[simp] theorem State.setFn_decoders (s : State) (p n : Nat) (f : Fn → Fn) : (s.setFn p n f).decoders = s.decoders := rfl
@[simp] theorem State.setFn_lostPorts (s : State) (p n : Nat) (f : Fn → Fn) : (s.setFn p n f).lostPorts = s.lostPorts := rfl
@[simp] theorem State.setFn_rings (s : State) (p n : Nat) (f : Fn → Fn) : (s.setFn p n f).rings = s.rings := rfl
@[simp] theorem State.setFn_heaters (s : State) (p n : Nat) (f : Fn → Fn) : (s.setFn p n f).heaters = s.heaters := rfl
@[simp] theorem State.setFn_diodes (s : State) (p n : Nat) (f : Fn → Fn) : (s.setFn p n f).diodes = s.diodes := rfl
@[simp] theorem State.setFn_temps (s : State) (p n : Nat) (f : Fn → Fn) : (s.setFn p n f).temps = s.temps := rfl
@[simp] theorem State.setFn_hot (s : State) (p n : Nat) (f : Fn → Fn) : (s.setFn p n f).hot = s.hot := rfl
@[simp] theorem State.setFn_saved (s : State) (p n : Nat) (f : Fn → Fn) : (s.setFn p n f).saved = s.saved := rfl
@[simp] theorem State.setFn_narcy (s : State) (p n : Nat) (f : Fn → Fn) : (s.setFn p n f).narcy = s.narcy := rfl
@[simp] theorem State.setFn_cxlCache (s : State) (p n : Nat) (f : Fn → Fn) : (s.setFn p n f).cxlCache = s.cxlCache := rfl
@[simp] theorem State.setFn_link (s : State) (p n : Nat) (f : Fn → Fn) : (s.setFn p n f).link = s.link := rfl
@[simp] theorem State.setFn_thermtrip (s : State) (p n : Nat) (f : Fn → Fn) : (s.setFn p n f).thermtrip = s.thermtrip := rfl
@[simp] theorem State.setFn_deviceNumber (s : State) (p n : Nat) (f : Fn → Fn) : (s.setFn p n f).deviceNumber = s.deviceNumber := rfl
@[simp] theorem State.setFn_peers (s : State) (p n : Nat) (f : Fn → Fn) : (s.setFn p n f).peers = s.peers := rfl

/-! ### State.setLaunch -/

@[simp] theorem State.setLaunch_powered (s : State) (l : Nat) (f : Launch → Launch) : (s.setLaunch l f).powered = s.powered := rfl
@[simp] theorem State.setLaunch_grade20 (s : State) (l : Nat) (f : Launch → Launch) : (s.setLaunch l f).grade20 = s.grade20 := rfl
@[simp] theorem State.setLaunch_now (s : State) (l : Nat) (f : Launch → Launch) : (s.setLaunch l f).now = s.now := rfl
@[simp] theorem State.setLaunch_tempo (s : State) (l : Nat) (f : Launch → Launch) : (s.setLaunch l f).tempo = s.tempo := rfl
@[simp] theorem State.setLaunch_free (s : State) (l : Nat) (f : Launch → Launch) : (s.setLaunch l f).free = s.free := rfl
@[simp] theorem State.setLaunch_next (s : State) (l : Nat) (f : Launch → Launch) : (s.setLaunch l f).next = s.next := rfl
@[simp] theorem State.setLaunch_agenda (s : State) (l : Nat) (f : Launch → Launch) : (s.setLaunch l f).agenda = s.agenda := rfl
@[simp] theorem State.setLaunch_cur (s : State) (l : Nat) (f : Launch → Launch) : (s.setLaunch l f).cur = s.cur := rfl
@[simp] theorem State.setLaunch_mem (s : State) (l : Nat) (f : Launch → Launch) : (s.setLaunch l f).mem = s.mem := rfl
@[simp] theorem State.setLaunch_lines (s : State) (l : Nat) (f : Launch → Launch) : (s.setLaunch l f).lines = s.lines := rfl
@[simp] theorem State.setLaunch_blocks (s : State) (l : Nat) (f : Launch → Launch) : (s.setLaunch l f).blocks = s.blocks := rfl
@[simp] theorem State.setLaunch_invals (s : State) (l : Nat) (f : Launch → Launch) : (s.setLaunch l f).invals = s.invals := rfl
@[simp] theorem State.setLaunch_tlb (s : State) (l : Nat) (f : Launch → Launch) : (s.setLaunch l f).tlb = s.tlb := rfl
@[simp] theorem State.setLaunch_pins (s : State) (l : Nat) (f : Launch → Launch) : (s.setLaunch l f).pins = s.pins := rfl
@[simp] theorem State.setLaunch_accs (s : State) (l : Nat) (f : Launch → Launch) : (s.setLaunch l f).accs = s.accs := rfl
@[simp] theorem State.setLaunch_ops (s : State) (l : Nat) (f : Launch → Launch) : (s.setLaunch l f).ops = s.ops := rfl
@[simp] theorem State.setLaunch_cells (s : State) (l : Nat) (f : Launch → Launch) : (s.setLaunch l f).cells = s.cells := rfl
@[simp] theorem State.setLaunch_launches (s : State) (l : Nat) (f : Launch → Launch) : (s.setLaunch l f).launches = s.launches.map fun x => if x.id = l then f x else x := rfl
@[simp] theorem State.setLaunch_frames (s : State) (l : Nat) (f : Launch → Launch) : (s.setLaunch l f).frames = s.frames := rfl
@[simp] theorem State.setLaunch_mxTiles (s : State) (l : Nat) (f : Launch → Launch) : (s.setLaunch l f).mxTiles = s.mxTiles := rfl
@[simp] theorem State.setLaunch_mxStatus (s : State) (l : Nat) (f : Launch → Launch) : (s.setLaunch l f).mxStatus = s.mxStatus := rfl
@[simp] theorem State.setLaunch_mxBy (s : State) (l : Nat) (f : Launch → Launch) : (s.setLaunch l f).mxBy = s.mxBy := rfl
@[simp] theorem State.setLaunch_crosshatch (s : State) (l : Nat) (f : Launch → Launch) : (s.setLaunch l f).crosshatch = s.crosshatch := rfl
@[simp] theorem State.setLaunch_rr (s : State) (l : Nat) (f : Launch → Launch) : (s.setLaunch l f).rr = s.rr := rfl
@[simp] theorem State.setLaunch_queues (s : State) (l : Nat) (f : Launch → Launch) : (s.setLaunch l f).queues = s.queues := rfl
@[simp] theorem State.setLaunch_packets (s : State) (l : Nat) (f : Launch → Launch) : (s.setLaunch l f).packets = s.packets := rfl
@[simp] theorem State.setLaunch_engines (s : State) (l : Nat) (f : Launch → Launch) : (s.setLaunch l f).engines = s.engines := rfl
@[simp] theorem State.setLaunch_fns (s : State) (l : Nat) (f : Launch → Launch) : (s.setLaunch l f).fns = s.fns := rfl
@[simp] theorem State.setLaunch_parts (s : State) (l : Nat) (f : Launch → Launch) : (s.setLaunch l f).parts = s.parts := rfl
@[simp] theorem State.setLaunch_islands (s : State) (l : Nat) (f : Launch → Launch) : (s.setLaunch l f).islands = s.islands := rfl
@[simp] theorem State.setLaunch_splits (s : State) (l : Nat) (f : Launch → Launch) : (s.setLaunch l f).splits = s.splits := rfl
@[simp] theorem State.setLaunch_draining (s : State) (l : Nat) (f : Launch → Launch) : (s.setLaunch l f).draining = s.draining := rfl
@[simp] theorem State.setLaunch_leftScratch (s : State) (l : Nat) (f : Launch → Launch) : (s.setLaunch l f).leftScratch = s.leftScratch := rfl
@[simp] theorem State.setLaunch_spares (s : State) (l : Nat) (f : Launch → Launch) : (s.setLaunch l f).spares = s.spares := rfl
@[simp] theorem State.setLaunch_decoders (s : State) (l : Nat) (f : Launch → Launch) : (s.setLaunch l f).decoders = s.decoders := rfl
@[simp] theorem State.setLaunch_lostPorts (s : State) (l : Nat) (f : Launch → Launch) : (s.setLaunch l f).lostPorts = s.lostPorts := rfl
@[simp] theorem State.setLaunch_rings (s : State) (l : Nat) (f : Launch → Launch) : (s.setLaunch l f).rings = s.rings := rfl
@[simp] theorem State.setLaunch_heaters (s : State) (l : Nat) (f : Launch → Launch) : (s.setLaunch l f).heaters = s.heaters := rfl
@[simp] theorem State.setLaunch_diodes (s : State) (l : Nat) (f : Launch → Launch) : (s.setLaunch l f).diodes = s.diodes := rfl
@[simp] theorem State.setLaunch_temps (s : State) (l : Nat) (f : Launch → Launch) : (s.setLaunch l f).temps = s.temps := rfl
@[simp] theorem State.setLaunch_hot (s : State) (l : Nat) (f : Launch → Launch) : (s.setLaunch l f).hot = s.hot := rfl
@[simp] theorem State.setLaunch_saved (s : State) (l : Nat) (f : Launch → Launch) : (s.setLaunch l f).saved = s.saved := rfl
@[simp] theorem State.setLaunch_narcy (s : State) (l : Nat) (f : Launch → Launch) : (s.setLaunch l f).narcy = s.narcy := rfl
@[simp] theorem State.setLaunch_cxlCache (s : State) (l : Nat) (f : Launch → Launch) : (s.setLaunch l f).cxlCache = s.cxlCache := rfl
@[simp] theorem State.setLaunch_link (s : State) (l : Nat) (f : Launch → Launch) : (s.setLaunch l f).link = s.link := rfl
@[simp] theorem State.setLaunch_thermtrip (s : State) (l : Nat) (f : Launch → Launch) : (s.setLaunch l f).thermtrip = s.thermtrip := rfl
@[simp] theorem State.setLaunch_deviceNumber (s : State) (l : Nat) (f : Launch → Launch) : (s.setLaunch l f).deviceNumber = s.deviceNumber := rfl
@[simp] theorem State.setLaunch_peers (s : State) (l : Nat) (f : Launch → Launch) : (s.setLaunch l f).peers = s.peers := rfl

/-! ### State.setFrame -/

@[simp] theorem State.setFrame_powered (s : State) (i : Nat) (f : Frame → Frame) : (s.setFrame i f).powered = s.powered := rfl
@[simp] theorem State.setFrame_grade20 (s : State) (i : Nat) (f : Frame → Frame) : (s.setFrame i f).grade20 = s.grade20 := rfl
@[simp] theorem State.setFrame_now (s : State) (i : Nat) (f : Frame → Frame) : (s.setFrame i f).now = s.now := rfl
@[simp] theorem State.setFrame_tempo (s : State) (i : Nat) (f : Frame → Frame) : (s.setFrame i f).tempo = s.tempo := rfl
@[simp] theorem State.setFrame_free (s : State) (i : Nat) (f : Frame → Frame) : (s.setFrame i f).free = s.free := rfl
@[simp] theorem State.setFrame_next (s : State) (i : Nat) (f : Frame → Frame) : (s.setFrame i f).next = s.next := rfl
@[simp] theorem State.setFrame_agenda (s : State) (i : Nat) (f : Frame → Frame) : (s.setFrame i f).agenda = s.agenda := rfl
@[simp] theorem State.setFrame_cur (s : State) (i : Nat) (f : Frame → Frame) : (s.setFrame i f).cur = s.cur := rfl
@[simp] theorem State.setFrame_mem (s : State) (i : Nat) (f : Frame → Frame) : (s.setFrame i f).mem = s.mem := rfl
@[simp] theorem State.setFrame_lines (s : State) (i : Nat) (f : Frame → Frame) : (s.setFrame i f).lines = s.lines := rfl
@[simp] theorem State.setFrame_blocks (s : State) (i : Nat) (f : Frame → Frame) : (s.setFrame i f).blocks = s.blocks := rfl
@[simp] theorem State.setFrame_invals (s : State) (i : Nat) (f : Frame → Frame) : (s.setFrame i f).invals = s.invals := rfl
@[simp] theorem State.setFrame_tlb (s : State) (i : Nat) (f : Frame → Frame) : (s.setFrame i f).tlb = s.tlb := rfl
@[simp] theorem State.setFrame_pins (s : State) (i : Nat) (f : Frame → Frame) : (s.setFrame i f).pins = s.pins := rfl
@[simp] theorem State.setFrame_accs (s : State) (i : Nat) (f : Frame → Frame) : (s.setFrame i f).accs = s.accs := rfl
@[simp] theorem State.setFrame_ops (s : State) (i : Nat) (f : Frame → Frame) : (s.setFrame i f).ops = s.ops := rfl
@[simp] theorem State.setFrame_cells (s : State) (i : Nat) (f : Frame → Frame) : (s.setFrame i f).cells = s.cells := rfl
@[simp] theorem State.setFrame_launches (s : State) (i : Nat) (f : Frame → Frame) : (s.setFrame i f).launches = s.launches := rfl
@[simp] theorem State.setFrame_frames (s : State) (i : Nat) (f : Frame → Frame) : (s.setFrame i f).frames = s.frames.map fun x => if x.id = i then f x else x := rfl
@[simp] theorem State.setFrame_mxTiles (s : State) (i : Nat) (f : Frame → Frame) : (s.setFrame i f).mxTiles = s.mxTiles := rfl
@[simp] theorem State.setFrame_mxStatus (s : State) (i : Nat) (f : Frame → Frame) : (s.setFrame i f).mxStatus = s.mxStatus := rfl
@[simp] theorem State.setFrame_mxBy (s : State) (i : Nat) (f : Frame → Frame) : (s.setFrame i f).mxBy = s.mxBy := rfl
@[simp] theorem State.setFrame_crosshatch (s : State) (i : Nat) (f : Frame → Frame) : (s.setFrame i f).crosshatch = s.crosshatch := rfl
@[simp] theorem State.setFrame_rr (s : State) (i : Nat) (f : Frame → Frame) : (s.setFrame i f).rr = s.rr := rfl
@[simp] theorem State.setFrame_queues (s : State) (i : Nat) (f : Frame → Frame) : (s.setFrame i f).queues = s.queues := rfl
@[simp] theorem State.setFrame_packets (s : State) (i : Nat) (f : Frame → Frame) : (s.setFrame i f).packets = s.packets := rfl
@[simp] theorem State.setFrame_engines (s : State) (i : Nat) (f : Frame → Frame) : (s.setFrame i f).engines = s.engines := rfl
@[simp] theorem State.setFrame_fns (s : State) (i : Nat) (f : Frame → Frame) : (s.setFrame i f).fns = s.fns := rfl
@[simp] theorem State.setFrame_parts (s : State) (i : Nat) (f : Frame → Frame) : (s.setFrame i f).parts = s.parts := rfl
@[simp] theorem State.setFrame_islands (s : State) (i : Nat) (f : Frame → Frame) : (s.setFrame i f).islands = s.islands := rfl
@[simp] theorem State.setFrame_splits (s : State) (i : Nat) (f : Frame → Frame) : (s.setFrame i f).splits = s.splits := rfl
@[simp] theorem State.setFrame_draining (s : State) (i : Nat) (f : Frame → Frame) : (s.setFrame i f).draining = s.draining := rfl
@[simp] theorem State.setFrame_leftScratch (s : State) (i : Nat) (f : Frame → Frame) : (s.setFrame i f).leftScratch = s.leftScratch := rfl
@[simp] theorem State.setFrame_spares (s : State) (i : Nat) (f : Frame → Frame) : (s.setFrame i f).spares = s.spares := rfl
@[simp] theorem State.setFrame_decoders (s : State) (i : Nat) (f : Frame → Frame) : (s.setFrame i f).decoders = s.decoders := rfl
@[simp] theorem State.setFrame_lostPorts (s : State) (i : Nat) (f : Frame → Frame) : (s.setFrame i f).lostPorts = s.lostPorts := rfl
@[simp] theorem State.setFrame_rings (s : State) (i : Nat) (f : Frame → Frame) : (s.setFrame i f).rings = s.rings := rfl
@[simp] theorem State.setFrame_heaters (s : State) (i : Nat) (f : Frame → Frame) : (s.setFrame i f).heaters = s.heaters := rfl
@[simp] theorem State.setFrame_diodes (s : State) (i : Nat) (f : Frame → Frame) : (s.setFrame i f).diodes = s.diodes := rfl
@[simp] theorem State.setFrame_temps (s : State) (i : Nat) (f : Frame → Frame) : (s.setFrame i f).temps = s.temps := rfl
@[simp] theorem State.setFrame_hot (s : State) (i : Nat) (f : Frame → Frame) : (s.setFrame i f).hot = s.hot := rfl
@[simp] theorem State.setFrame_saved (s : State) (i : Nat) (f : Frame → Frame) : (s.setFrame i f).saved = s.saved := rfl
@[simp] theorem State.setFrame_narcy (s : State) (i : Nat) (f : Frame → Frame) : (s.setFrame i f).narcy = s.narcy := rfl
@[simp] theorem State.setFrame_cxlCache (s : State) (i : Nat) (f : Frame → Frame) : (s.setFrame i f).cxlCache = s.cxlCache := rfl
@[simp] theorem State.setFrame_link (s : State) (i : Nat) (f : Frame → Frame) : (s.setFrame i f).link = s.link := rfl
@[simp] theorem State.setFrame_thermtrip (s : State) (i : Nat) (f : Frame → Frame) : (s.setFrame i f).thermtrip = s.thermtrip := rfl
@[simp] theorem State.setFrame_deviceNumber (s : State) (i : Nat) (f : Frame → Frame) : (s.setFrame i f).deviceNumber = s.deviceNumber := rfl
@[simp] theorem State.setFrame_peers (s : State) (i : Nat) (f : Frame → Frame) : (s.setFrame i f).peers = s.peers := rfl

/-! ### State.setLine -/

@[simp] theorem State.setLine_powered (s : State) (a l : Nat) (f : Line → Line) : (s.setLine a l f).powered = s.powered := rfl
@[simp] theorem State.setLine_grade20 (s : State) (a l : Nat) (f : Line → Line) : (s.setLine a l f).grade20 = s.grade20 := rfl
@[simp] theorem State.setLine_now (s : State) (a l : Nat) (f : Line → Line) : (s.setLine a l f).now = s.now := rfl
@[simp] theorem State.setLine_tempo (s : State) (a l : Nat) (f : Line → Line) : (s.setLine a l f).tempo = s.tempo := rfl
@[simp] theorem State.setLine_free (s : State) (a l : Nat) (f : Line → Line) : (s.setLine a l f).free = s.free := rfl
@[simp] theorem State.setLine_next (s : State) (a l : Nat) (f : Line → Line) : (s.setLine a l f).next = s.next := rfl
@[simp] theorem State.setLine_agenda (s : State) (a l : Nat) (f : Line → Line) : (s.setLine a l f).agenda = s.agenda := rfl
@[simp] theorem State.setLine_cur (s : State) (a l : Nat) (f : Line → Line) : (s.setLine a l f).cur = s.cur := rfl
@[simp] theorem State.setLine_mem (s : State) (a l : Nat) (f : Line → Line) : (s.setLine a l f).mem = s.mem := rfl
@[simp] theorem State.setLine_lines (s : State) (a l : Nat) (f : Line → Line) : (s.setLine a l f).lines = s.lines.map fun x => if x.asid = a ∧ x.line = l then f x else x := rfl
@[simp] theorem State.setLine_blocks (s : State) (a l : Nat) (f : Line → Line) : (s.setLine a l f).blocks = s.blocks := rfl
@[simp] theorem State.setLine_invals (s : State) (a l : Nat) (f : Line → Line) : (s.setLine a l f).invals = s.invals := rfl
@[simp] theorem State.setLine_tlb (s : State) (a l : Nat) (f : Line → Line) : (s.setLine a l f).tlb = s.tlb := rfl
@[simp] theorem State.setLine_pins (s : State) (a l : Nat) (f : Line → Line) : (s.setLine a l f).pins = s.pins := rfl
@[simp] theorem State.setLine_accs (s : State) (a l : Nat) (f : Line → Line) : (s.setLine a l f).accs = s.accs := rfl
@[simp] theorem State.setLine_ops (s : State) (a l : Nat) (f : Line → Line) : (s.setLine a l f).ops = s.ops := rfl
@[simp] theorem State.setLine_cells (s : State) (a l : Nat) (f : Line → Line) : (s.setLine a l f).cells = s.cells := rfl
@[simp] theorem State.setLine_launches (s : State) (a l : Nat) (f : Line → Line) : (s.setLine a l f).launches = s.launches := rfl
@[simp] theorem State.setLine_frames (s : State) (a l : Nat) (f : Line → Line) : (s.setLine a l f).frames = s.frames := rfl
@[simp] theorem State.setLine_mxTiles (s : State) (a l : Nat) (f : Line → Line) : (s.setLine a l f).mxTiles = s.mxTiles := rfl
@[simp] theorem State.setLine_mxStatus (s : State) (a l : Nat) (f : Line → Line) : (s.setLine a l f).mxStatus = s.mxStatus := rfl
@[simp] theorem State.setLine_mxBy (s : State) (a l : Nat) (f : Line → Line) : (s.setLine a l f).mxBy = s.mxBy := rfl
@[simp] theorem State.setLine_crosshatch (s : State) (a l : Nat) (f : Line → Line) : (s.setLine a l f).crosshatch = s.crosshatch := rfl
@[simp] theorem State.setLine_rr (s : State) (a l : Nat) (f : Line → Line) : (s.setLine a l f).rr = s.rr := rfl
@[simp] theorem State.setLine_queues (s : State) (a l : Nat) (f : Line → Line) : (s.setLine a l f).queues = s.queues := rfl
@[simp] theorem State.setLine_packets (s : State) (a l : Nat) (f : Line → Line) : (s.setLine a l f).packets = s.packets := rfl
@[simp] theorem State.setLine_engines (s : State) (a l : Nat) (f : Line → Line) : (s.setLine a l f).engines = s.engines := rfl
@[simp] theorem State.setLine_fns (s : State) (a l : Nat) (f : Line → Line) : (s.setLine a l f).fns = s.fns := rfl
@[simp] theorem State.setLine_parts (s : State) (a l : Nat) (f : Line → Line) : (s.setLine a l f).parts = s.parts := rfl
@[simp] theorem State.setLine_islands (s : State) (a l : Nat) (f : Line → Line) : (s.setLine a l f).islands = s.islands := rfl
@[simp] theorem State.setLine_splits (s : State) (a l : Nat) (f : Line → Line) : (s.setLine a l f).splits = s.splits := rfl
@[simp] theorem State.setLine_draining (s : State) (a l : Nat) (f : Line → Line) : (s.setLine a l f).draining = s.draining := rfl
@[simp] theorem State.setLine_leftScratch (s : State) (a l : Nat) (f : Line → Line) : (s.setLine a l f).leftScratch = s.leftScratch := rfl
@[simp] theorem State.setLine_spares (s : State) (a l : Nat) (f : Line → Line) : (s.setLine a l f).spares = s.spares := rfl
@[simp] theorem State.setLine_decoders (s : State) (a l : Nat) (f : Line → Line) : (s.setLine a l f).decoders = s.decoders := rfl
@[simp] theorem State.setLine_lostPorts (s : State) (a l : Nat) (f : Line → Line) : (s.setLine a l f).lostPorts = s.lostPorts := rfl
@[simp] theorem State.setLine_rings (s : State) (a l : Nat) (f : Line → Line) : (s.setLine a l f).rings = s.rings := rfl
@[simp] theorem State.setLine_heaters (s : State) (a l : Nat) (f : Line → Line) : (s.setLine a l f).heaters = s.heaters := rfl
@[simp] theorem State.setLine_diodes (s : State) (a l : Nat) (f : Line → Line) : (s.setLine a l f).diodes = s.diodes := rfl
@[simp] theorem State.setLine_temps (s : State) (a l : Nat) (f : Line → Line) : (s.setLine a l f).temps = s.temps := rfl
@[simp] theorem State.setLine_hot (s : State) (a l : Nat) (f : Line → Line) : (s.setLine a l f).hot = s.hot := rfl
@[simp] theorem State.setLine_saved (s : State) (a l : Nat) (f : Line → Line) : (s.setLine a l f).saved = s.saved := rfl
@[simp] theorem State.setLine_narcy (s : State) (a l : Nat) (f : Line → Line) : (s.setLine a l f).narcy = s.narcy := rfl
@[simp] theorem State.setLine_cxlCache (s : State) (a l : Nat) (f : Line → Line) : (s.setLine a l f).cxlCache = s.cxlCache := rfl
@[simp] theorem State.setLine_link (s : State) (a l : Nat) (f : Line → Line) : (s.setLine a l f).link = s.link := rfl
@[simp] theorem State.setLine_thermtrip (s : State) (a l : Nat) (f : Line → Line) : (s.setLine a l f).thermtrip = s.thermtrip := rfl
@[simp] theorem State.setLine_deviceNumber (s : State) (a l : Nat) (f : Line → Line) : (s.setLine a l f).deviceNumber = s.deviceNumber := rfl
@[simp] theorem State.setLine_peers (s : State) (a l : Nat) (f : Line → Line) : (s.setLine a l f).peers = s.peers := rfl

/-! ### State.setIsland -/

@[simp] theorem State.setIsland_powered (s : State) (i : Nat) (f : Island → Island) : (s.setIsland i f).powered = s.powered := rfl
@[simp] theorem State.setIsland_grade20 (s : State) (i : Nat) (f : Island → Island) : (s.setIsland i f).grade20 = s.grade20 := rfl
@[simp] theorem State.setIsland_now (s : State) (i : Nat) (f : Island → Island) : (s.setIsland i f).now = s.now := rfl
@[simp] theorem State.setIsland_tempo (s : State) (i : Nat) (f : Island → Island) : (s.setIsland i f).tempo = s.tempo := rfl
@[simp] theorem State.setIsland_free (s : State) (i : Nat) (f : Island → Island) : (s.setIsland i f).free = s.free := rfl
@[simp] theorem State.setIsland_next (s : State) (i : Nat) (f : Island → Island) : (s.setIsland i f).next = s.next := rfl
@[simp] theorem State.setIsland_agenda (s : State) (i : Nat) (f : Island → Island) : (s.setIsland i f).agenda = s.agenda := rfl
@[simp] theorem State.setIsland_cur (s : State) (i : Nat) (f : Island → Island) : (s.setIsland i f).cur = s.cur := rfl
@[simp] theorem State.setIsland_mem (s : State) (i : Nat) (f : Island → Island) : (s.setIsland i f).mem = s.mem := rfl
@[simp] theorem State.setIsland_lines (s : State) (i : Nat) (f : Island → Island) : (s.setIsland i f).lines = s.lines := rfl
@[simp] theorem State.setIsland_blocks (s : State) (i : Nat) (f : Island → Island) : (s.setIsland i f).blocks = s.blocks := rfl
@[simp] theorem State.setIsland_invals (s : State) (i : Nat) (f : Island → Island) : (s.setIsland i f).invals = s.invals := rfl
@[simp] theorem State.setIsland_tlb (s : State) (i : Nat) (f : Island → Island) : (s.setIsland i f).tlb = s.tlb := rfl
@[simp] theorem State.setIsland_pins (s : State) (i : Nat) (f : Island → Island) : (s.setIsland i f).pins = s.pins := rfl
@[simp] theorem State.setIsland_accs (s : State) (i : Nat) (f : Island → Island) : (s.setIsland i f).accs = s.accs := rfl
@[simp] theorem State.setIsland_ops (s : State) (i : Nat) (f : Island → Island) : (s.setIsland i f).ops = s.ops := rfl
@[simp] theorem State.setIsland_cells (s : State) (i : Nat) (f : Island → Island) : (s.setIsland i f).cells = s.cells := rfl
@[simp] theorem State.setIsland_launches (s : State) (i : Nat) (f : Island → Island) : (s.setIsland i f).launches = s.launches := rfl
@[simp] theorem State.setIsland_frames (s : State) (i : Nat) (f : Island → Island) : (s.setIsland i f).frames = s.frames := rfl
@[simp] theorem State.setIsland_mxTiles (s : State) (i : Nat) (f : Island → Island) : (s.setIsland i f).mxTiles = s.mxTiles := rfl
@[simp] theorem State.setIsland_mxStatus (s : State) (i : Nat) (f : Island → Island) : (s.setIsland i f).mxStatus = s.mxStatus := rfl
@[simp] theorem State.setIsland_mxBy (s : State) (i : Nat) (f : Island → Island) : (s.setIsland i f).mxBy = s.mxBy := rfl
@[simp] theorem State.setIsland_crosshatch (s : State) (i : Nat) (f : Island → Island) : (s.setIsland i f).crosshatch = s.crosshatch := rfl
@[simp] theorem State.setIsland_rr (s : State) (i : Nat) (f : Island → Island) : (s.setIsland i f).rr = s.rr := rfl
@[simp] theorem State.setIsland_queues (s : State) (i : Nat) (f : Island → Island) : (s.setIsland i f).queues = s.queues := rfl
@[simp] theorem State.setIsland_packets (s : State) (i : Nat) (f : Island → Island) : (s.setIsland i f).packets = s.packets := rfl
@[simp] theorem State.setIsland_engines (s : State) (i : Nat) (f : Island → Island) : (s.setIsland i f).engines = s.engines := rfl
@[simp] theorem State.setIsland_fns (s : State) (i : Nat) (f : Island → Island) : (s.setIsland i f).fns = s.fns := rfl
@[simp] theorem State.setIsland_parts (s : State) (i : Nat) (f : Island → Island) : (s.setIsland i f).parts = s.parts := rfl
@[simp] theorem State.setIsland_islands (s : State) (i : Nat) (f : Island → Island) : (s.setIsland i f).islands = s.islands.zipIdx.map fun x => if x.2 = i then f x.1 else x.1 := rfl
@[simp] theorem State.setIsland_splits (s : State) (i : Nat) (f : Island → Island) : (s.setIsland i f).splits = s.splits := rfl
@[simp] theorem State.setIsland_draining (s : State) (i : Nat) (f : Island → Island) : (s.setIsland i f).draining = s.draining := rfl
@[simp] theorem State.setIsland_leftScratch (s : State) (i : Nat) (f : Island → Island) : (s.setIsland i f).leftScratch = s.leftScratch := rfl
@[simp] theorem State.setIsland_spares (s : State) (i : Nat) (f : Island → Island) : (s.setIsland i f).spares = s.spares := rfl
@[simp] theorem State.setIsland_decoders (s : State) (i : Nat) (f : Island → Island) : (s.setIsland i f).decoders = s.decoders := rfl
@[simp] theorem State.setIsland_lostPorts (s : State) (i : Nat) (f : Island → Island) : (s.setIsland i f).lostPorts = s.lostPorts := rfl
@[simp] theorem State.setIsland_rings (s : State) (i : Nat) (f : Island → Island) : (s.setIsland i f).rings = s.rings := rfl
@[simp] theorem State.setIsland_heaters (s : State) (i : Nat) (f : Island → Island) : (s.setIsland i f).heaters = s.heaters := rfl
@[simp] theorem State.setIsland_diodes (s : State) (i : Nat) (f : Island → Island) : (s.setIsland i f).diodes = s.diodes := rfl
@[simp] theorem State.setIsland_temps (s : State) (i : Nat) (f : Island → Island) : (s.setIsland i f).temps = s.temps := rfl
@[simp] theorem State.setIsland_hot (s : State) (i : Nat) (f : Island → Island) : (s.setIsland i f).hot = s.hot := rfl
@[simp] theorem State.setIsland_saved (s : State) (i : Nat) (f : Island → Island) : (s.setIsland i f).saved = s.saved := rfl
@[simp] theorem State.setIsland_narcy (s : State) (i : Nat) (f : Island → Island) : (s.setIsland i f).narcy = s.narcy := rfl
@[simp] theorem State.setIsland_cxlCache (s : State) (i : Nat) (f : Island → Island) : (s.setIsland i f).cxlCache = s.cxlCache := rfl
@[simp] theorem State.setIsland_link (s : State) (i : Nat) (f : Island → Island) : (s.setIsland i f).link = s.link := rfl
@[simp] theorem State.setIsland_thermtrip (s : State) (i : Nat) (f : Island → Island) : (s.setIsland i f).thermtrip = s.thermtrip := rfl
@[simp] theorem State.setIsland_deviceNumber (s : State) (i : Nat) (f : Island → Island) : (s.setIsland i f).deviceNumber = s.deviceNumber := rfl
@[simp] theorem State.setIsland_peers (s : State) (i : Nat) (f : Island → Island) : (s.setIsland i f).peers = s.peers := rfl

/-! ### State.setMx -/

@[simp] theorem State.setMx_powered (s : State) (q : Nat) (v : Word) : (s.setMx q v).powered = s.powered := rfl
@[simp] theorem State.setMx_grade20 (s : State) (q : Nat) (v : Word) : (s.setMx q v).grade20 = s.grade20 := rfl
@[simp] theorem State.setMx_now (s : State) (q : Nat) (v : Word) : (s.setMx q v).now = s.now := rfl
@[simp] theorem State.setMx_tempo (s : State) (q : Nat) (v : Word) : (s.setMx q v).tempo = s.tempo := rfl
@[simp] theorem State.setMx_free (s : State) (q : Nat) (v : Word) : (s.setMx q v).free = s.free := rfl
@[simp] theorem State.setMx_next (s : State) (q : Nat) (v : Word) : (s.setMx q v).next = s.next := rfl
@[simp] theorem State.setMx_agenda (s : State) (q : Nat) (v : Word) : (s.setMx q v).agenda = s.agenda := rfl
@[simp] theorem State.setMx_cur (s : State) (q : Nat) (v : Word) : (s.setMx q v).cur = s.cur := rfl
@[simp] theorem State.setMx_mem (s : State) (q : Nat) (v : Word) : (s.setMx q v).mem = s.mem := rfl
@[simp] theorem State.setMx_lines (s : State) (q : Nat) (v : Word) : (s.setMx q v).lines = s.lines := rfl
@[simp] theorem State.setMx_blocks (s : State) (q : Nat) (v : Word) : (s.setMx q v).blocks = s.blocks := rfl
@[simp] theorem State.setMx_invals (s : State) (q : Nat) (v : Word) : (s.setMx q v).invals = s.invals := rfl
@[simp] theorem State.setMx_tlb (s : State) (q : Nat) (v : Word) : (s.setMx q v).tlb = s.tlb := rfl
@[simp] theorem State.setMx_pins (s : State) (q : Nat) (v : Word) : (s.setMx q v).pins = s.pins := rfl
@[simp] theorem State.setMx_accs (s : State) (q : Nat) (v : Word) : (s.setMx q v).accs = s.accs := rfl
@[simp] theorem State.setMx_ops (s : State) (q : Nat) (v : Word) : (s.setMx q v).ops = s.ops := rfl
@[simp] theorem State.setMx_cells (s : State) (q : Nat) (v : Word) : (s.setMx q v).cells = s.cells := rfl
@[simp] theorem State.setMx_launches (s : State) (q : Nat) (v : Word) : (s.setMx q v).launches = s.launches := rfl
@[simp] theorem State.setMx_frames (s : State) (q : Nat) (v : Word) : (s.setMx q v).frames = s.frames := rfl
@[simp] theorem State.setMx_mxTiles (s : State) (q : Nat) (v : Word) : (s.setMx q v).mxTiles = s.mxTiles := rfl
@[simp] theorem State.setMx_mxStatus (s : State) (q : Nat) (v : Word) : (s.setMx q v).mxStatus = sput 0 s.mxStatus q v := rfl
@[simp] theorem State.setMx_mxBy (s : State) (q : Nat) (v : Word) : (s.setMx q v).mxBy = s.mxBy := rfl
@[simp] theorem State.setMx_crosshatch (s : State) (q : Nat) (v : Word) : (s.setMx q v).crosshatch = s.crosshatch := rfl
@[simp] theorem State.setMx_rr (s : State) (q : Nat) (v : Word) : (s.setMx q v).rr = s.rr := rfl
@[simp] theorem State.setMx_queues (s : State) (q : Nat) (v : Word) : (s.setMx q v).queues = s.queues := rfl
@[simp] theorem State.setMx_packets (s : State) (q : Nat) (v : Word) : (s.setMx q v).packets = s.packets := rfl
@[simp] theorem State.setMx_engines (s : State) (q : Nat) (v : Word) : (s.setMx q v).engines = s.engines := rfl
@[simp] theorem State.setMx_fns (s : State) (q : Nat) (v : Word) : (s.setMx q v).fns = s.fns := rfl
@[simp] theorem State.setMx_parts (s : State) (q : Nat) (v : Word) : (s.setMx q v).parts = s.parts := rfl
@[simp] theorem State.setMx_islands (s : State) (q : Nat) (v : Word) : (s.setMx q v).islands = s.islands := rfl
@[simp] theorem State.setMx_splits (s : State) (q : Nat) (v : Word) : (s.setMx q v).splits = s.splits := rfl
@[simp] theorem State.setMx_draining (s : State) (q : Nat) (v : Word) : (s.setMx q v).draining = s.draining := rfl
@[simp] theorem State.setMx_leftScratch (s : State) (q : Nat) (v : Word) : (s.setMx q v).leftScratch = s.leftScratch := rfl
@[simp] theorem State.setMx_spares (s : State) (q : Nat) (v : Word) : (s.setMx q v).spares = s.spares := rfl
@[simp] theorem State.setMx_decoders (s : State) (q : Nat) (v : Word) : (s.setMx q v).decoders = s.decoders := rfl
@[simp] theorem State.setMx_lostPorts (s : State) (q : Nat) (v : Word) : (s.setMx q v).lostPorts = s.lostPorts := rfl
@[simp] theorem State.setMx_rings (s : State) (q : Nat) (v : Word) : (s.setMx q v).rings = s.rings := rfl
@[simp] theorem State.setMx_heaters (s : State) (q : Nat) (v : Word) : (s.setMx q v).heaters = s.heaters := rfl
@[simp] theorem State.setMx_diodes (s : State) (q : Nat) (v : Word) : (s.setMx q v).diodes = s.diodes := rfl
@[simp] theorem State.setMx_temps (s : State) (q : Nat) (v : Word) : (s.setMx q v).temps = s.temps := rfl
@[simp] theorem State.setMx_hot (s : State) (q : Nat) (v : Word) : (s.setMx q v).hot = s.hot := rfl
@[simp] theorem State.setMx_saved (s : State) (q : Nat) (v : Word) : (s.setMx q v).saved = s.saved := rfl
@[simp] theorem State.setMx_narcy (s : State) (q : Nat) (v : Word) : (s.setMx q v).narcy = s.narcy := rfl
@[simp] theorem State.setMx_cxlCache (s : State) (q : Nat) (v : Word) : (s.setMx q v).cxlCache = s.cxlCache := rfl
@[simp] theorem State.setMx_link (s : State) (q : Nat) (v : Word) : (s.setMx q v).link = s.link := rfl
@[simp] theorem State.setMx_thermtrip (s : State) (q : Nat) (v : Word) : (s.setMx q v).thermtrip = s.thermtrip := rfl
@[simp] theorem State.setMx_deviceNumber (s : State) (q : Nat) (v : Word) : (s.setMx q v).deviceNumber = s.deviceNumber := rfl
@[simp] theorem State.setMx_peers (s : State) (q : Nat) (v : Word) : (s.setMx q v).peers = s.peers := rfl

/-! ### State.setMxBy -/

@[simp] theorem State.setMxBy_powered (s : State) (q part fn : Nat) : (s.setMxBy q part fn).powered = s.powered := rfl
@[simp] theorem State.setMxBy_grade20 (s : State) (q part fn : Nat) : (s.setMxBy q part fn).grade20 = s.grade20 := rfl
@[simp] theorem State.setMxBy_now (s : State) (q part fn : Nat) : (s.setMxBy q part fn).now = s.now := rfl
@[simp] theorem State.setMxBy_tempo (s : State) (q part fn : Nat) : (s.setMxBy q part fn).tempo = s.tempo := rfl
@[simp] theorem State.setMxBy_free (s : State) (q part fn : Nat) : (s.setMxBy q part fn).free = s.free := rfl
@[simp] theorem State.setMxBy_next (s : State) (q part fn : Nat) : (s.setMxBy q part fn).next = s.next := rfl
@[simp] theorem State.setMxBy_agenda (s : State) (q part fn : Nat) : (s.setMxBy q part fn).agenda = s.agenda := rfl
@[simp] theorem State.setMxBy_cur (s : State) (q part fn : Nat) : (s.setMxBy q part fn).cur = s.cur := rfl
@[simp] theorem State.setMxBy_mem (s : State) (q part fn : Nat) : (s.setMxBy q part fn).mem = s.mem := rfl
@[simp] theorem State.setMxBy_lines (s : State) (q part fn : Nat) : (s.setMxBy q part fn).lines = s.lines := rfl
@[simp] theorem State.setMxBy_blocks (s : State) (q part fn : Nat) : (s.setMxBy q part fn).blocks = s.blocks := rfl
@[simp] theorem State.setMxBy_invals (s : State) (q part fn : Nat) : (s.setMxBy q part fn).invals = s.invals := rfl
@[simp] theorem State.setMxBy_tlb (s : State) (q part fn : Nat) : (s.setMxBy q part fn).tlb = s.tlb := rfl
@[simp] theorem State.setMxBy_pins (s : State) (q part fn : Nat) : (s.setMxBy q part fn).pins = s.pins := rfl
@[simp] theorem State.setMxBy_accs (s : State) (q part fn : Nat) : (s.setMxBy q part fn).accs = s.accs := rfl
@[simp] theorem State.setMxBy_ops (s : State) (q part fn : Nat) : (s.setMxBy q part fn).ops = s.ops := rfl
@[simp] theorem State.setMxBy_cells (s : State) (q part fn : Nat) : (s.setMxBy q part fn).cells = s.cells := rfl
@[simp] theorem State.setMxBy_launches (s : State) (q part fn : Nat) : (s.setMxBy q part fn).launches = s.launches := rfl
@[simp] theorem State.setMxBy_frames (s : State) (q part fn : Nat) : (s.setMxBy q part fn).frames = s.frames := rfl
@[simp] theorem State.setMxBy_mxTiles (s : State) (q part fn : Nat) : (s.setMxBy q part fn).mxTiles = s.mxTiles := rfl
@[simp] theorem State.setMxBy_mxStatus (s : State) (q part fn : Nat) : (s.setMxBy q part fn).mxStatus = s.mxStatus := rfl
@[simp] theorem State.setMxBy_mxBy (s : State) (q part fn : Nat) : (s.setMxBy q part fn).mxBy = sput 0 s.mxBy q (mxOwner part fn) := rfl
@[simp] theorem State.setMxBy_crosshatch (s : State) (q part fn : Nat) : (s.setMxBy q part fn).crosshatch = s.crosshatch := rfl
@[simp] theorem State.setMxBy_rr (s : State) (q part fn : Nat) : (s.setMxBy q part fn).rr = s.rr := rfl
@[simp] theorem State.setMxBy_queues (s : State) (q part fn : Nat) : (s.setMxBy q part fn).queues = s.queues := rfl
@[simp] theorem State.setMxBy_packets (s : State) (q part fn : Nat) : (s.setMxBy q part fn).packets = s.packets := rfl
@[simp] theorem State.setMxBy_engines (s : State) (q part fn : Nat) : (s.setMxBy q part fn).engines = s.engines := rfl
@[simp] theorem State.setMxBy_fns (s : State) (q part fn : Nat) : (s.setMxBy q part fn).fns = s.fns := rfl
@[simp] theorem State.setMxBy_parts (s : State) (q part fn : Nat) : (s.setMxBy q part fn).parts = s.parts := rfl
@[simp] theorem State.setMxBy_islands (s : State) (q part fn : Nat) : (s.setMxBy q part fn).islands = s.islands := rfl
@[simp] theorem State.setMxBy_splits (s : State) (q part fn : Nat) : (s.setMxBy q part fn).splits = s.splits := rfl
@[simp] theorem State.setMxBy_draining (s : State) (q part fn : Nat) : (s.setMxBy q part fn).draining = s.draining := rfl
@[simp] theorem State.setMxBy_leftScratch (s : State) (q part fn : Nat) : (s.setMxBy q part fn).leftScratch = s.leftScratch := rfl
@[simp] theorem State.setMxBy_spares (s : State) (q part fn : Nat) : (s.setMxBy q part fn).spares = s.spares := rfl
@[simp] theorem State.setMxBy_decoders (s : State) (q part fn : Nat) : (s.setMxBy q part fn).decoders = s.decoders := rfl
@[simp] theorem State.setMxBy_lostPorts (s : State) (q part fn : Nat) : (s.setMxBy q part fn).lostPorts = s.lostPorts := rfl
@[simp] theorem State.setMxBy_rings (s : State) (q part fn : Nat) : (s.setMxBy q part fn).rings = s.rings := rfl
@[simp] theorem State.setMxBy_heaters (s : State) (q part fn : Nat) : (s.setMxBy q part fn).heaters = s.heaters := rfl
@[simp] theorem State.setMxBy_diodes (s : State) (q part fn : Nat) : (s.setMxBy q part fn).diodes = s.diodes := rfl
@[simp] theorem State.setMxBy_temps (s : State) (q part fn : Nat) : (s.setMxBy q part fn).temps = s.temps := rfl
@[simp] theorem State.setMxBy_hot (s : State) (q part fn : Nat) : (s.setMxBy q part fn).hot = s.hot := rfl
@[simp] theorem State.setMxBy_saved (s : State) (q part fn : Nat) : (s.setMxBy q part fn).saved = s.saved := rfl
@[simp] theorem State.setMxBy_narcy (s : State) (q part fn : Nat) : (s.setMxBy q part fn).narcy = s.narcy := rfl
@[simp] theorem State.setMxBy_cxlCache (s : State) (q part fn : Nat) : (s.setMxBy q part fn).cxlCache = s.cxlCache := rfl
@[simp] theorem State.setMxBy_link (s : State) (q part fn : Nat) : (s.setMxBy q part fn).link = s.link := rfl
@[simp] theorem State.setMxBy_thermtrip (s : State) (q part fn : Nat) : (s.setMxBy q part fn).thermtrip = s.thermtrip := rfl
@[simp] theorem State.setMxBy_deviceNumber (s : State) (q part fn : Nat) : (s.setMxBy q part fn).deviceNumber = s.deviceNumber := rfl
@[simp] theorem State.setMxBy_peers (s : State) (q part fn : Nat) : (s.setMxBy q part fn).peers = s.peers := rfl

/-! ### State.setQueue -/

@[simp] theorem State.setQueue_powered (s : State) (q : Nat) (f : QueueReg → QueueReg) : (s.setQueue q f).powered = s.powered := rfl
@[simp] theorem State.setQueue_grade20 (s : State) (q : Nat) (f : QueueReg → QueueReg) : (s.setQueue q f).grade20 = s.grade20 := rfl
@[simp] theorem State.setQueue_now (s : State) (q : Nat) (f : QueueReg → QueueReg) : (s.setQueue q f).now = s.now := rfl
@[simp] theorem State.setQueue_tempo (s : State) (q : Nat) (f : QueueReg → QueueReg) : (s.setQueue q f).tempo = s.tempo := rfl
@[simp] theorem State.setQueue_free (s : State) (q : Nat) (f : QueueReg → QueueReg) : (s.setQueue q f).free = s.free := rfl
@[simp] theorem State.setQueue_next (s : State) (q : Nat) (f : QueueReg → QueueReg) : (s.setQueue q f).next = s.next := rfl
@[simp] theorem State.setQueue_agenda (s : State) (q : Nat) (f : QueueReg → QueueReg) : (s.setQueue q f).agenda = s.agenda := rfl
@[simp] theorem State.setQueue_cur (s : State) (q : Nat) (f : QueueReg → QueueReg) : (s.setQueue q f).cur = s.cur := rfl
@[simp] theorem State.setQueue_mem (s : State) (q : Nat) (f : QueueReg → QueueReg) : (s.setQueue q f).mem = s.mem := rfl
@[simp] theorem State.setQueue_lines (s : State) (q : Nat) (f : QueueReg → QueueReg) : (s.setQueue q f).lines = s.lines := rfl
@[simp] theorem State.setQueue_blocks (s : State) (q : Nat) (f : QueueReg → QueueReg) : (s.setQueue q f).blocks = s.blocks := rfl
@[simp] theorem State.setQueue_invals (s : State) (q : Nat) (f : QueueReg → QueueReg) : (s.setQueue q f).invals = s.invals := rfl
@[simp] theorem State.setQueue_tlb (s : State) (q : Nat) (f : QueueReg → QueueReg) : (s.setQueue q f).tlb = s.tlb := rfl
@[simp] theorem State.setQueue_pins (s : State) (q : Nat) (f : QueueReg → QueueReg) : (s.setQueue q f).pins = s.pins := rfl
@[simp] theorem State.setQueue_accs (s : State) (q : Nat) (f : QueueReg → QueueReg) : (s.setQueue q f).accs = s.accs := rfl
@[simp] theorem State.setQueue_ops (s : State) (q : Nat) (f : QueueReg → QueueReg) : (s.setQueue q f).ops = s.ops := rfl
@[simp] theorem State.setQueue_cells (s : State) (q : Nat) (f : QueueReg → QueueReg) : (s.setQueue q f).cells = s.cells := rfl
@[simp] theorem State.setQueue_launches (s : State) (q : Nat) (f : QueueReg → QueueReg) : (s.setQueue q f).launches = s.launches := rfl
@[simp] theorem State.setQueue_frames (s : State) (q : Nat) (f : QueueReg → QueueReg) : (s.setQueue q f).frames = s.frames := rfl
@[simp] theorem State.setQueue_mxTiles (s : State) (q : Nat) (f : QueueReg → QueueReg) : (s.setQueue q f).mxTiles = s.mxTiles := rfl
@[simp] theorem State.setQueue_mxStatus (s : State) (q : Nat) (f : QueueReg → QueueReg) : (s.setQueue q f).mxStatus = s.mxStatus := rfl
@[simp] theorem State.setQueue_mxBy (s : State) (q : Nat) (f : QueueReg → QueueReg) : (s.setQueue q f).mxBy = s.mxBy := rfl
@[simp] theorem State.setQueue_crosshatch (s : State) (q : Nat) (f : QueueReg → QueueReg) : (s.setQueue q f).crosshatch = s.crosshatch := rfl
@[simp] theorem State.setQueue_rr (s : State) (q : Nat) (f : QueueReg → QueueReg) : (s.setQueue q f).rr = s.rr := rfl
@[simp] theorem State.setQueue_queues (s : State) (q : Nat) (f : QueueReg → QueueReg) : (s.setQueue q f).queues = s.queues.map fun x => if x.id = q then f x else x := rfl
@[simp] theorem State.setQueue_packets (s : State) (q : Nat) (f : QueueReg → QueueReg) : (s.setQueue q f).packets = s.packets := rfl
@[simp] theorem State.setQueue_engines (s : State) (q : Nat) (f : QueueReg → QueueReg) : (s.setQueue q f).engines = s.engines := rfl
@[simp] theorem State.setQueue_fns (s : State) (q : Nat) (f : QueueReg → QueueReg) : (s.setQueue q f).fns = s.fns := rfl
@[simp] theorem State.setQueue_parts (s : State) (q : Nat) (f : QueueReg → QueueReg) : (s.setQueue q f).parts = s.parts := rfl
@[simp] theorem State.setQueue_islands (s : State) (q : Nat) (f : QueueReg → QueueReg) : (s.setQueue q f).islands = s.islands := rfl
@[simp] theorem State.setQueue_splits (s : State) (q : Nat) (f : QueueReg → QueueReg) : (s.setQueue q f).splits = s.splits := rfl
@[simp] theorem State.setQueue_draining (s : State) (q : Nat) (f : QueueReg → QueueReg) : (s.setQueue q f).draining = s.draining := rfl
@[simp] theorem State.setQueue_leftScratch (s : State) (q : Nat) (f : QueueReg → QueueReg) : (s.setQueue q f).leftScratch = s.leftScratch := rfl
@[simp] theorem State.setQueue_spares (s : State) (q : Nat) (f : QueueReg → QueueReg) : (s.setQueue q f).spares = s.spares := rfl
@[simp] theorem State.setQueue_decoders (s : State) (q : Nat) (f : QueueReg → QueueReg) : (s.setQueue q f).decoders = s.decoders := rfl
@[simp] theorem State.setQueue_lostPorts (s : State) (q : Nat) (f : QueueReg → QueueReg) : (s.setQueue q f).lostPorts = s.lostPorts := rfl
@[simp] theorem State.setQueue_rings (s : State) (q : Nat) (f : QueueReg → QueueReg) : (s.setQueue q f).rings = s.rings := rfl
@[simp] theorem State.setQueue_heaters (s : State) (q : Nat) (f : QueueReg → QueueReg) : (s.setQueue q f).heaters = s.heaters := rfl
@[simp] theorem State.setQueue_diodes (s : State) (q : Nat) (f : QueueReg → QueueReg) : (s.setQueue q f).diodes = s.diodes := rfl
@[simp] theorem State.setQueue_temps (s : State) (q : Nat) (f : QueueReg → QueueReg) : (s.setQueue q f).temps = s.temps := rfl
@[simp] theorem State.setQueue_hot (s : State) (q : Nat) (f : QueueReg → QueueReg) : (s.setQueue q f).hot = s.hot := rfl
@[simp] theorem State.setQueue_saved (s : State) (q : Nat) (f : QueueReg → QueueReg) : (s.setQueue q f).saved = s.saved := rfl
@[simp] theorem State.setQueue_narcy (s : State) (q : Nat) (f : QueueReg → QueueReg) : (s.setQueue q f).narcy = s.narcy := rfl
@[simp] theorem State.setQueue_cxlCache (s : State) (q : Nat) (f : QueueReg → QueueReg) : (s.setQueue q f).cxlCache = s.cxlCache := rfl
@[simp] theorem State.setQueue_link (s : State) (q : Nat) (f : QueueReg → QueueReg) : (s.setQueue q f).link = s.link := rfl
@[simp] theorem State.setQueue_thermtrip (s : State) (q : Nat) (f : QueueReg → QueueReg) : (s.setQueue q f).thermtrip = s.thermtrip := rfl
@[simp] theorem State.setQueue_deviceNumber (s : State) (q : Nat) (f : QueueReg → QueueReg) : (s.setQueue q f).deviceNumber = s.deviceNumber := rfl
@[simp] theorem State.setQueue_peers (s : State) (q : Nat) (f : QueueReg → QueueReg) : (s.setQueue q f).peers = s.peers := rfl

end Sys2Proof.Machine
end

