-- ==== Sys2Proof/Laws/Arch.lean ====
section
/-! SUPPORT. What scheduling does: no operation that divides, forms, wakes or schedules hatches changes a state but for
its scheduling (State.arch), and so neither does closing an issue while no QUIT comes to its end. -/

namespace Sys2Proof.Machine

theorem find?_map_key {α β : Type} (l : List α) (g : α → β) (p : β → Bool) :
    (l.map g).find? p = (l.find? fun x => p (g x)).map g := by
  induction l with
  | nil => rfl
  | cons x r ih => by_cases h : p (g x) <;> simp [h, ih]

@[simp] theorem Cell.arch_id (c : Cell) : c.arch.id = c.id := rfl
@[simp] theorem Cell.arch_arch (c : Cell) : c.arch.fibres = c.fibres.map Fibre.arch := rfl
@[simp] theorem Fibre.arch_idx (f : Fibre) : f.arch.idx = f.idx := rfl
@[simp] theorem Fibre.arch_handler (f : Fibre) : f.arch.handler = f.handler := rfl

/-! ### The operations that change hatches -/

theorem arch_setCell (s : State) (c : Nat) (f : Cell → Cell) (h : ∀ x, (f x).arch = x.arch) :
    (s.setCell c f).arch = s.arch := by
  have : (s.setCell c f).cells.map Cell.arch = s.cells.map Cell.arch := by
    simp only [State.setCell_cells, List.map_map]
    apply List.map_congr_left
    intro x _
    by_cases hx : x.id = c <;> simp [hx, h]
  simp only [State.arch, this]
  rfl

theorem arch_mapFibres (s : State) (c : Nat) (f : Fibre → Fibre) (h : ∀ x, (f x).arch = x.arch) :
    (s.mapFibres c f).arch = s.arch := by
  apply arch_setCell
  intro x
  simp only [Cell.arch, List.map_map]
  congr 1
  exact List.map_congr_left fun y _ => h y

theorem arch_setFibre (s : State) (r : FRef) (f : Fibre → Fibre) (h : ∀ x, (f x).arch = x.arch) :
    (s.setFibre r f).arch = s.arch := by
  apply arch_setCell
  intro x
  simp only [Cell.arch, Cell.setFibre, List.map_map]
  congr 1
  apply List.map_congr_left
  intro y _
  by_cases hy : y.idx = r.idx <;> simp [hy, h]

theorem arch_next (s : State) (n : Nat) : { s with next := n }.arch = s.arch := rfl
theorem arch_free (s : State) (n : Nat) : { s with free := n }.arch = s.arch := rfl
theorem arch_rr (s : State) (l : List (Nat × Nat × Nat)) : { s with rr := l }.arch = s.arch := rfl
theorem arch_cur (s : State) (c : Cur) : { s with cur := c }.arch = s.arch := rfl
theorem arch_crosshatch (s : State) (l : List HatchEntry) : { s with crosshatch := l }.arch = s.arch := rfl

theorem arch_foldl {α : Type} (op : State → α → State) (h : ∀ s x, (op s x).arch = s.arch) :
    ∀ (l : List α) (s : State), (l.foldl op s).arch = s.arch
  | [], _ => rfl
  | x :: r, s => (arch_foldl op h r _).trans (h s x)

theorem splitHatch_arch (s : State) (cell hatch : Nat) : (splitHatch s cell hatch).arch = s.arch := by
  unfold splitHatch
  split
  · rfl
  · dsimp only
    split
    · rfl
    · rw [arch_next]
      apply arch_mapFibres
      intro x
      split <;> rfl

theorem schedulePaths_arch (s : State) (cell hatch : Nat) : (schedulePaths s cell hatch).arch = s.arch := by
  unfold schedulePaths
  simp only
  split
  · rfl
  · apply arch_mapFibres
    intro x
    split <;> rfl

theorem Fibre.unmate_arch (fs : List Fibre) (f : Fibre) : (f.unmate fs).arch = f.arch := by
  unfold Fibre.unmate
  split
  · rfl
  · split <;> rfl

theorem freeMates_arch (s : State) (cell : Nat) : (freeMates s cell).arch = s.arch := by
  unfold freeMates
  split
  · rfl
  · exact arch_mapFibres _ _ _ fun x => Fibre.unmate_arch _ x

theorem markMates_arch (s : State) (g : Grp) : (markMates s g).arch = s.arch := by
  unfold markMates
  split
  · rfl
  · dsimp only
    split
    · apply arch_mapFibres
      intro x
      split <;> rfl
    · rfl

theorem toEnd_arch (s : State) (quad cell hatch : Nat) : (s.toEnd quad cell hatch).arch = s.arch := rfl

theorem settleHatch_arch (s : State) (cell hatch : Nat) : (settleHatch s cell hatch).arch = s.arch := by
  unfold settleHatch
  split
  · rfl
  · split
    · exact (schedulePaths_arch ..).trans (freeMates_arch ..)
    · exact (splitHatch_arch ..).trans (freeMates_arch ..)

/-- Waking a fibre from a wait that scheduling ends. -/
theorem Fibre.wake_arch (c : Cell) (f : Fibre) (h : f.status.arch = .ready) : (f.wake c).arch = f.arch := by
  simp only [Fibre.wake, Fibre.arch, h]
  rfl

theorem arch_of_atHatchWait {f : Fibre} (h : f.atHatchWait = true) : f.status.arch = .ready := by
  unfold Fibre.atHatchWait at h
  split at h <;> simp_all [Status.arch]

theorem formHatches_arch (s : State) (cell : Nat) (idxs : List Nat) (join : Bool) :
    (formHatches s cell idxs join).arch = s.arch := by
  unfold formHatches
  simp only
  rw [arch_next]
  apply arch_mapFibres
  intro x
  split
  · rename_i h
    have hw := arch_of_atHatchWait (Bool.and_eq_true _ _ ▸ h).2
    split <;> simp only [Fibre.arch, hw] <;> rfl
  · rfl

theorem releaseReconv_arch (s : State) (cell : Nat) : (releaseReconv s cell).arch = s.arch := by
  unfold releaseReconv
  split
  · rfl
  · apply arch_foldl
    intro s p
    simp only
    split
    · exact formHatches_arch ..
    · split
      · exact (arch_foldl _ (fun s h => schedulePaths_arch s cell h) _ _).trans (formHatches_arch ..)
      · exact formHatches_arch ..

theorem leaveRegroup_arch (s : State) (entry : Nat) (part : Bool) : (leaveRegroup s entry part).arch = s.arch := by
  unfold leaveRegroup
  split
  · rfl
  · dsimp only
    generalize (if 32 ≤ _ then 32 else _ : Nat) = n
    split
    · rfl
    · rw [arch_crosshatch]
      exact formHatches_arch ..

theorem releaseRegroup_arch (s : State) (cell : Nat) : (releaseRegroup s cell).arch = s.arch := by
  unfold releaseRegroup
  apply arch_foldl
  intro s e
  simp only
  split
  · exact leaveRegroup_arch ..
  · split
    · exact leaveRegroup_arch ..
    · exact (leaveRegroup_arch ..).trans (leaveRegroup_arch ..)

theorem wakeWhere_arch (s : State) (cell : Nat) (p : Wait → Bool) (hp : ∀ w, p w = true → (Status.blocked w).arch = .ready) :
    (wakeWhere s cell p).arch = s.arch := by
  unfold wakeWhere
  split
  · rfl
  · simp only
    refine (arch_foldl _ (fun s h => settleHatch_arch s cell h) _ _).trans ?_
    apply arch_mapFibres
    intro x
    split
    · rename_i w hw
      split
      · rename_i hp'
        exact Fibre.wake_arch _ x (by rw [hw]; exact hp w hp')
      · rfl
    · rfl

theorem isBar_arch (w : Wait) (h : isBar w = true) : (Status.blocked w).arch = .ready := by cases w <;> simp_all [isBar, Status.arch]
theorem isCbar_arch (w : Wait) (h : isCbar w = true) : (Status.blocked w).arch = .ready := by cases w <;> simp_all [isCbar, Status.arch]

theorem releaseBar_arch (s : State) (cell : Nat) : (releaseBar s cell).arch = s.arch := by
  unfold releaseBar
  split
  · rfl
  · split
    · exact (wakeWhere_arch _ _ _ isBar_arch).trans (arch_mapFibres _ _ _ fun _ => rfl)
    · rfl

theorem releaseCohort_arch (s : State) (l c : Nat) : (releaseCohort s l c).arch = s.arch := by
  unfold releaseCohort
  simp only
  split
  · exact arch_foldl _ (fun s (x : Cell) => wakeWhere_arch s x.id _ isCbar_arch) _ _
  · rfl
theorem releaseCbar_arch (s : State) (cell : Nat) : (releaseCbar s cell).arch = s.arch := by
  unfold releaseCbar
  split
  · rfl
  · exact releaseCohort_arch ..

theorem hatchesToEnd_arch (s : State) (quad cell : Nat) (idxs : List Nat) : (s.hatchesToEnd quad cell idxs).arch = s.arch := by
  unfold State.hatchesToEnd
  split
  · rfl
  · exact arch_foldl _ (fun s h => toEnd_arch s quad cell h) _ _
theorem releaseYield_arch (s : State) (quad : Nat) (issued : Option (Nat × Nat)) (free : Bool) :
    (releaseYield s quad issued free).arch = s.arch := by
  unfold releaseYield
  dsimp only
  refine Eq.trans (arch_foldl _ ?_ _ _) (arch_foldl _ (fun s (x : Nat × Nat) => toEnd_arch s quad x.1 x.2) _ _)
  intro s cp
  split
  · rw [hatchesToEnd_arch, formHatches_arch, arch_free]
  · refine (arch_foldl _ (fun s h => settleHatch_arch s cp.1 h) _ _).trans ?_
    split
    · rfl
    · rw [arch_mapFibres]
      · rfl
      · intro x
        split
        · rename_i h
          exact Fibre.wake_arch _ x (arch_of_atHatchWait (Bool.and_eq_true _ _ ▸ h).2)
        · rfl

/-! ### QUIT stays where it waits -/

theorem arch_cell? (s : State) (c : Nat) : s.arch.cell? c = (s.cell? c).map Cell.arch := by
  simp only [State.cell?, State.arch, find?_map_key]
  rfl
theorem arch_fibre? (c : Cell) (i : Nat) : c.arch.fibre? i = (c.fibre? i).map Fibre.arch := by
  simp only [Cell.fibre?, Cell.arch, find?_map_key]
  rfl
theorem arch_fibre (s : State) (r : FRef) : s.arch.fibre? r = (s.fibre? r).map Fibre.arch := by
  simp only [State.fibre?, arch_cell?]
  cases s.cell? r.cell with
  | none => rfl
  | some c => exact arch_fibre? c r.idx

theorem own_arch (s : State) (r : FRef) : s.arch.own r = s.own r := by
  simp only [State.own, State.arch, List.filter_map, List.map_map]
  rfl
theorem performed_arch (s : State) (sc : Scope) (a : Nat) : s.arch.performed sc a = s.performed sc a := by
  have e : s.arch.acc? a = (s.acc? a).map Acc.arch := by
    simp only [State.acc?, State.arch, find?_map_key]
    rfl
  unfold State.performed
  rw [e]
  cases s.acc? a with
  | none => simp only [State.arch, List.all_map]; rfl
  | some x => simp only [State.arch, List.all_map]; rfl
theorem leaveDone_arch (s : State) (cluster : Nat) (cov : List (Nat × Bool)) : leaveDone s.arch cluster cov = leaveDone s cluster cov := by
  simp only [leaveDone, performed_arch]
  rfl
theorem away_arch (s : State) (o : Op) : s.arch.away o = s.away o := by
  simp only [State.away, arch_cell?]
  cases s.cell? o.owner.cell <;> rfl
theorem owed_arch (s : State) (r : FRef) (i : Nat) : s.arch.owed r i = s.owed r i := by
  simp only [State.owed, arch_fibre]
  cases s.fibre? r <;> rfl
theorem waitsOn_arch (s : State) (st : List Nat) (i : Nat) : s.arch.waitsOn st i = s.waitsOn st i := by
  simp only [State.waitsOn, State.behindHalt, State.behindEvent, away_arch, owed_arch]
  simp only [State.arch, List.any_map]
  rfl
theorem stuck_arch (s : State) (a : Nat) : s.arch.stuck a = s.stuck a := by
  have h : s.arch.stuckIds = s.stuckIds := by
    simp only [State.stuckIds, waitsOn_arch]
    simp only [State.arch, List.map_map]
    rfl
  simp only [State.stuck, h]
theorem kept_arch (s : State) (r : FRef) : s.arch.kept r = s.kept r := by
  simp only [State.kept, arch_fibre]
  cases s.fibre? r with
  | none => rfl
  | some f =>
    simp only [Option.map_some, Option.bind_some, Fibre.arch_handler]
    cases f.handler with
    | none => rfl
    | some h => exact List.filter_congr fun a _ => stuck_arch s a
theorem idle_arch (s : State) (r : FRef) : s.arch.idle r = s.idle r := by
  simp only [State.idle, own_arch, kept_arch]

theorem endsMore_arch (s : State) (cluster : Nat) (r : FRef) (st : Status) : endsMore s.arch cluster r st = endsMore s cluster r st := by
  unfold endsMore
  split <;> simp only [idle_arch, leaveDone_arch]
theorem endsMore_status (s : State) (cluster : Nat) (r : FRef) (st : Status) : endsMore s cluster r st.arch = endsMore s cluster r st := by
  unfold Status.arch
  split <;> rfl

theorem noQuitDue_of {s : State} {cell : Nat}
    (h : (s.cell? cell).all (fun c => c.fibres.all fun f => !endsMore s c.cluster ⟨cell, f.idx⟩ f.status) = true) :
    NoQuitDue s cell := by
  intro c hc f hf
  rw [hc] at h
  simp only [Option.all_some, List.all_eq_true, Bool.not_eq_true'] at h
  exact h f hf

theorem noQuitDue_arch {s t : State} (h : s.arch = t.arch) {cell : Nat} (hs : NoQuitDue s cell) : NoQuitDue t cell := by
  intro c hc f hf
  have h1 : t.arch.cell? cell = some c.arch := by rw [arch_cell?, hc]; rfl
  rw [← h, arch_cell?] at h1
  cases hs0 : s.cell? cell with
  | none => rw [hs0] at h1; cases h1
  | some c0 =>
    rw [hs0] at h1
    simp only [Option.map_some, Option.some.injEq] at h1
    have h2 : f.arch ∈ c0.arch.fibres := by rw [h1]; exact List.mem_map_of_mem hf
    obtain ⟨f0, hf0, he⟩ := List.mem_map.1 h2
    have hst : f0.status.arch = f.status.arch := congrArg Fibre.status he
    have hi : f0.idx = f.idx := by rw [← Fibre.arch_idx f0, he]; rfl
    have hc0 : c0.cluster = c.cluster := by
      have := congrArg Cell.cluster h1
      exact this
    have := hs c0 hs0 f0 hf0
    rw [← endsMore_status, ← endsMore_arch, ← h, endsMore_arch, ← hst, endsMore_status, ← hi, ← hc0]
    exact this

theorem cell?_id {s : State} {n : Nat} {c : Cell} (h : s.cell? n = some c) : c.id = n := by
  have := List.find?_some h
  simpa using this

theorem releaseQuits_arch (s : State) (cell : Nat) (h : NoQuitDue s cell) : (releaseQuits s cell).arch = s.arch := by
  unfold releaseQuits
  split
  · rfl
  · rename_i c hc
    have key : ∀ (l : List Fibre) (u : State), (∀ f ∈ l, f ∈ c.fibres) → u.arch = s.arch →
        (l.foldl (fun s f =>
          match f.status with
          | .blocked .quit =>
            let s := if s.idle ⟨cell, f.idx⟩ && (leaveFrames s ⟨cell, f.idx⟩ 1).2.any (·.2) then endPins s (·.cell == cell) else s
            if quitReady s ⟨cell, f.idx⟩ then finishQuit s ⟨cell, f.idx⟩ else s
          | .blocked (.fleave cov) =>
            if leaveDone s c.cluster (cov.map fun x => (x / 2, x % 2 == 1)) then
              settleHatch ((retireLeft s ⟨cell, f.idx⟩).setFibre ⟨cell, f.idx⟩ fun f => match f.status with | .blocked (.fleave _) => f.wake c | _ => f) cell f.hatch
            else s
          | _ => s) u).arch = s.arch := by
      intro l
      induction l with
      | nil => intro u _ hu; exact hu
      | cons f r ih =>
        intro u hl hu
        refine ih _ (fun x hx => hl x (List.mem_cons_of_mem _ hx)) ?_
        have hm := h c hc f (hl f List.mem_cons_self)
        rw [← endsMore_arch, ← hu, endsMore_arch] at hm
        dsimp only
        split
        · rename_i hq
          rw [hq] at hm
          have h1 : u.idle ⟨cell, f.idx⟩ = false := hm
          simp only [h1, Bool.false_and, Bool.false_eq_true, if_false]
          rw [if_neg (by simp [quitReady, h1])]
          exact hu
        · rename_i cov hq
          rw [hq] at hm
          have h1 : leaveDone u c.cluster (cov.map fun x => (x / 2, x % 2 == 1)) = false := hm
          rw [if_neg (by simp [h1])]
          exact hu
        · exact hu
    exact key c.fibres s (fun _ h => h) rfl

theorem takeTraps_nil (s : State) (cell hatch : Nat) : takeTraps s cell hatch [] = s := by
  unfold takeTraps
  cases s.cell? cell with
  | none => rfl
  | some c =>
    have e : ∀ l : List Fibre, l.filter (fun _ => false) = [] := fun l => by simp
    simp [e]
theorem releaseEwaits_arch (s : State) (cell : Nat) (h : NoQuitDue s cell) : (releaseEwaits s cell).arch = s.arch := by
  unfold releaseEwaits
  split
  · rfl
  · rename_i c hc
    dsimp only
    have none_ : ∀ (p : Fibre × Option Bool → Bool),
        ((c.fibres.filterMap fun f => match f.status with | .blocked (.ewait _ _ e) => some (f, e) | _ => none).filter p).filter
          (fun x => x.2 == some true) = [] := by
      intro p
      rw [List.filter_eq_nil_iff]
      intro x hx he
      obtain ⟨f, hf, hfx⟩ := List.mem_filterMap.1 (List.mem_filter.1 hx).1
      have hm := h c hc f hf
      split at hfx
      · rename_i a b e hst
        cases hfx
        simp only [beq_iff_eq] at he
        rw [hst, he] at hm
        exact absurd hm (by simp [endsMore])
      · cases hfx
    apply arch_foldl
    intro u k
    split
    · rfl
    · refine (congrArg (fun l => State.arch (takeTraps _ cell k.1 l)) (congrArg (List.map _) (none_ _))).trans ?_
      rw [List.map_nil, takeTraps_nil, settleHatch_arch]
      apply arch_mapFibres
      intro x
      split
      · rename_i hx
        split
        · exact Fibre.wake_arch _ x (by rw [hx]; rfl)
        · rfl
      · rfl

/-- What a change in a cell releases is scheduling alone. -/
theorem afterChange_arch (s : State) (cell : Nat) (h : NoQuitDue s cell) : (afterChange s cell).arch = s.arch := by
  unfold afterChange
  have h3 : (releaseCbar (releaseBar (releaseQuits s cell) cell) cell).arch = s.arch := by
    rw [releaseCbar_arch, releaseBar_arch, releaseQuits_arch s cell h]
  have hbase : (releaseRegroup (releaseReconv (releaseEwaits (releaseCbar (releaseBar (releaseQuits s cell) cell) cell) cell) cell) cell).arch
      = s.arch := by
    rw [releaseRegroup_arch, releaseReconv_arch, releaseEwaits_arch _ _ (noQuitDue_arch h3.symm h), h3]
  simp only
  split
  · exact hbase
  · refine (arch_foldl _ (fun s q => releaseYield_arch s _ _ _) _ _).trans ?_
    split
    · exact (arch_foldl _ (fun s h => schedulePaths_arch s cell h) _ _).trans ((freeMates_arch ..).trans hbase)
    · exact (freeMates_arch ..).trans hbase

/-- Closing an issue is scheduling alone. -/
theorem closeUnit_arch (s : State) (g : Grp) (h : NoQuitDue s g.cell.id) : (closeUnit s g).arch = s.arch := by
  unfold closeUnit
  simp only
  have hb : (releaseYield (settleHatch (markMates { s with cur := { s.cur with opened := false, hints := [] } } g) g.cell.id g.hatch) g.quad
      (some (g.cell.id, g.hatch))).arch = s.arch := by
    rw [releaseYield_arch, settleHatch_arch, markMates_arch]; rfl
  split
  · rw [afterChange_arch]
    · exact hb
    · exact noQuitDue_arch (Eq.symm hb) h
  · rw [afterChange_arch]
    · exact hb
    · exact noQuitDue_arch (Eq.symm hb) h

theorem sameIssue_arch (n : Nat) (s : State) : (sameIssue n s).arch = s.arch := by
  have h1 : (sameIssue n s).accs.map Acc.arch = s.accs.map Acc.arch := by
    simp only [sameIssue, List.map_map]
    apply List.map_congr_left
    intro a _
    by_cases h : n ≤ a.id <;> simp [h, Acc.arch]
  have h2 : (sameIssue n s).ops.map Op.arch = s.ops.map Op.arch := by
    simp only [sameIssue, List.map_map]
    apply List.map_congr_left
    intro a _
    by_cases h : n ≤ a.id <;> simp [h, Op.arch]
  simp only [State.arch, h1, h2]
  rfl

/-! ### One issue of a unit -/

/-- A unit that issues answers what its body answers, closed. -/
theorem unit_eq {s u : State} {g : Grp} {k : Hints} {ll priv : Bool} {body : State → Grp → Option State}
    (h : Issues s g k) (hll : ll = true → RoomLL s g) (hp : priv = true → g.members.any (!·.sup) = false)
    (hb : body (passed s g ll) (g.after s ll) = some u) :
    unit s k ll priv body = .next (closeUnit (sameIssue s.next u) (g.after s ll)) := by
  unfold unit beginUnit
  rw [h.grp]
  simp only [h.begun, if_true, h.hints, Bool.not_true, Bool.false_eq_true, if_false]
  have e2 : (priv && g.members.any (!·.sup)) = false := by
    cases priv with
    | false => rfl
    | true => simp [hp rfl]
  cases ll with
  | false =>
    simp only [Bool.false_and, Bool.false_eq_true, if_false, e2]
    have : body (passed s g false) { g.refresh (passed s g false) with ll := false } = some u := hb
    rw [this]
    rfl
  | true =>
    have r := hll rfl
    have r2 := r.full
    simp only [Bool.true_and, r.third, Bool.false_eq_true, if_false, e2]
    have : body (passed s g true) { g.refresh (passed s g true) with ll := true } = some u := hb
    rw [this, if_neg]
    · rfl
    · rw [Bool.not_eq_true]
      exact r2

theorem refresh_cell_id (g : Grp) (s : State) : (g.refresh s).cell.id = g.cell.id := by
  unfold Grp.refresh
  split
  · rfl
  · rename_i c hc
    exact cell?_id hc

/-- A unit that issues, in a cell where no QUIT comes to its end, ends in what its body answers but for scheduling. -/
theorem unit_arch {s u : State} {g : Grp} {k : Hints} {ll priv : Bool} {body : State → Grp → Option State}
    (h : Issues s g k) (hll : ll = true → RoomLL s g) (hp : priv = true → g.members.any (!·.sup) = false)
    (hb : body (passed s g ll) (g.after s ll) = some u) (hq : NoQuitDue u g.cell.id) :
    ∃ t, unit s k ll priv body = .next t ∧ t.arch = u.arch := by
  refine ⟨_, unit_eq h hll hp hb, ?_⟩
  have e : (g.after s ll).cell.id = g.cell.id := refresh_cell_id ..
  rw [closeUnit_arch, sameIssue_arch]
  rw [e]
  exact noQuitDue_arch (sameIssue_arch ..).symm hq

theorem readRefused_none {s : State} {g : Grp} {f : Fibre} {pats : List (Option Pat)} {srcs : List Field} {v : List DWord}
    (h : operands s g f pats srcs = .ok v) : readRefused s g f pats srcs = none := by
  unfold readRefused
  rw [h]
  simp
theorem refusedReads_nil {s : State} {g : Grp} {srcs : List Field} {vals : Fibre → List DWord}
    (h : ∀ f ∈ g.active, operands s g f g.pats srcs = .ok (vals f)) : refusedReads s g srcs = [] := by
  unfold refusedReads
  rw [List.filterMap_eq_nil_iff]
  intro f hf
  rw [readRefused_none (h f hf)]
  rfl
theorem slotRoom_ok {s : State} {g : Grp} {i : Nat} {x : Eff}
    (h : ∀ w, x.slot = some w → slotStays s g.cell x.fib w.1 = true ∨ s.recordFull ⟨g.cell.id, i⟩ = false) :
    slotRoom s g (i, .ok x) = (i, .ok x) := by
  unfold slotRoom
  cases hx : x.slot with
  | none => simp [hx]
  | some w =>
    rcases h w hx with h | h <;> simp [hx, h]

/-- The body of a lane-by-lane instruction, when every lane reads its sources and has its effect. -/
theorem laneBody_eq {srcs : List Field} {op : State → Grp → Fibre → List DWord → Res Eff} {s : State} {g : Grp}
    {vals : Fibre → List DWord} {eff : Fibre → Eff}
    (hr : ∀ f ∈ g.active, operands s g f g.pats srcs = .ok (vals f))
    (ho : ∀ f ∈ g.active, op s g (f.popAll (srcs.map (·.1.name))) (vals f) = .ok (eff f))
    (hs : ∀ f ∈ g.active, ∀ w, (eff f).slot = some w → s.acqPending ⟨g.cell.id, f.idx⟩ = false
      ∧ (slotStays s g.cell (eff f).fib w.1 = true ∨ s.recordFull ⟨g.cell.id, f.idx⟩ = false)) :
    laneBody srcs op s g
      = some (markReads s g (srcs.map (·.1.name)) (writeEffs s g (g.active.map fun f => (f.idx, eff f)))) := by
  unfold laneBody
  have e : (g.active.map fun f => (f.idx, (operands s g f g.pats srcs).bind fun vs => op s g (f.popAll (srcs.map (·.1.name))) vs))
      = g.active.map fun f => (f.idx, Res.ok (eff f)) := by
    apply List.map_congr_left
    intro f hf
    simp only [hr f hf, Res.bind, ho f hf]
  rw [e, refusedReads_nil hr]
  unfold commitLanes
  have e0 : (g.active.map fun f => (f.idx, Res.ok (eff f))).map (slotRoom s g) = g.active.map fun f => (f.idx, Res.ok (eff f)) := by
    rw [List.map_map]
    apply List.map_congr_left
    intro f hf
    exact slotRoom_ok fun w hw => (hs f hf w hw).2
  have e1 : (g.active.map fun f => (f.idx, Res.ok (eff f))).any (fun e => match e.2 with
      | .stall => true
      | .ok x => x.slot.isSome && s.acqPending ⟨g.cell.id, e.1⟩
      | _ => false) = false := by
    rw [List.any_map, List.any_eq_false]
    intro f hf
    simp only [Function.comp, Bool.and_eq_true, not_and, Bool.not_eq_true]
    intro hsl
    obtain ⟨w, hw⟩ := Option.isSome_iff_exists.1 hsl
    exact (hs f hf w hw).1
  have e2 : List.filterMap ((fun e : Nat × Res Eff => match e.2 with | .ok x => some (e.1, x) | _ => none)
      ∘ fun f : Fibre => (f.idx, Res.ok (eff f))) g.active = g.active.map fun f => (f.idx, eff f) := by
    rw [← List.filterMap_eq_map]; rfl
  have e3 : List.filterMap ((fun e : Nat × Res Eff => match e.2 with | .trap t => some (e.1, t) | _ => none)
      ∘ fun f : Fibre => (f.idx, Res.ok (eff f))) g.active = [] := by
    rw [List.filterMap_eq_nil_iff]; intro f _; rfl
  have hA : ∀ (a b : List _) (c : List (Nat × Trap)), a = b → c = [] → raiseLanes (writeEffs s g a) g c = writeEffs s g b := by
    rintro a b c rfl rfl; rfl
  dsimp only
  rw [if_neg (by simp), if_neg (by rw [Bool.not_eq_true]; exact e1), e0]
  exact congrArg (fun u => some (markReads s g _ u))
    (hA _ _ _ (by rw [List.filterMap_map]; exact e2) (by rw [List.filterMap_map]; exact e3))

/-! ### Words that read their sources and then act lane by lane -/

@[simp] theorem popAll_idx (f : Fibre) (ns : List Name) : (f.popAll ns).idx = f.idx := by
  unfold Fibre.popAll
  induction ns generalizing f with
  | nil => rfl
  | cons n r ih =>
    rw [List.foldl_cons, ih]
    cases n <;> rfl

/-- A word that is not lane by lane goes on with its lanes once every one has read its sources. -/
theorem withLanes_eq {srcs : List Field} {s : State} {g : Grp} {ll : Bool} {vals : Fibre → List DWord}
    {k : State → Grp → List (Fibre × List DWord) → Option State} (h : Reads s g ll srcs vals) :
    withLanes srcs (passed s g ll) (g.after s ll) k
      = k (readTo s g ll (srcs.map (·.1.name))) (g.read s ll (srcs.map (·.1.name))) (readVals s g ll (srcs.map (·.1.name)) vals) := by
  have e : ((g.after s ll).active.map fun f => (f, operands (passed s g ll) (g.after s ll) f (g.after s ll).pats srcs))
      = (g.after s ll).active.map fun f => (f, Res.ok (vals f)) := by
    apply List.map_congr_left
    intro f hf
    rw [h f hf]
  unfold withLanes
  rw [refusedReads_nil h, e]
  have e1 : ((g.after s ll).active.map fun f => (f, Res.ok (vals f))).any
      (fun r : Fibre × Res (List DWord) => match r.2 with | .stall => true | _ => false) = false := by
    rw [List.any_map, List.any_eq_false]; intro f _; simp
  have e2 : ((g.after s ll).active.map fun f => (f, Res.ok (vals f))).filterMap
      (fun r : Fibre × Res (List DWord) => match r.2 with | .trap t => some (r.1.idx, t) | _ => none) = [] := by
    rw [List.filterMap_map, List.filterMap_eq_nil_iff]; intro f _; rfl
  have e3 : ((g.after s ll).active.map fun f => (f, Res.ok (vals f))).filterMap
      (fun r : Fibre × Res (List DWord) => match r.2 with | .ok v => some (r.1.popAll (srcs.map (·.1.name)), v) | _ => none)
        = readVals s g ll (srcs.map (·.1.name)) vals := by
    rw [List.filterMap_map, readVals]
    generalize List.map (fun x : Field => x.1.name) srcs = ns
    rw [← List.filterMap_eq_map]
    rfl
  have e4 : markReads (passed s g ll) (g.after s ll) (srcs.map (·.1.name)) ((passed s g ll).mapFibres (g.after s ll).cell.id fun f =>
      (((readVals s g ll (srcs.map (·.1.name)) vals).find? (·.1.idx == f.idx)).map (·.1)).getD f)
        = readTo s g ll (srcs.map (·.1.name)) := by
    unfold readTo marked
    rw [show (g.after s ll).cell.id = g.cell.id from refresh_cell_id ..]
    congr 2
    funext f
    simp only [readVals, find?_map_key, popAll_idx]
    cases (g.after s ll).active.find? (·.idx == f.idx) <;> rfl
  have key : ∀ (b : Bool) (ts : List (Nat × Trap)) (vs : List (Fibre × List DWord)), b = false → ts = [] →
      vs = readVals s g ll (srcs.map (·.1.name)) vals →
      (if b = true then none else
        let u := (passed s g ll).mapFibres (g.after s ll).cell.id fun f => ((vs.find? (·.1.idx == f.idx)).map (·.1)).getD f
        let u := raiseLanes (markReads (passed s g ll) (g.after s ll) (srcs.map (·.1.name)) u) (g.after s ll) ts
        k u ((g.after s ll).refresh u) vs)
      = k (readTo s g ll (srcs.map (·.1.name))) (g.read s ll (srcs.map (·.1.name))) (readVals s g ll (srcs.map (·.1.name)) vals) := by
    rintro b ts vs rfl rfl rfl
    rw [if_neg (by simp)]
    show k (raiseLanes _ _ []) ((g.after s ll).refresh (raiseLanes _ _ [])) _ = _
    rw [e4]
    rfl
  dsimp only
  rw [if_neg (by simp)]
  exact key _ _ _ e1 e2 e3

/-- A word that acts once goes on with its lanes once they have read their fields. -/
theorem withLowest_eq {all : Bool} {srcs : List (Field × Bool)} {s : State} {g : Grp} {ll : Bool} {vals : Fibre → List DWord}
    {k : State → Grp → List (Fibre × List DWord) → Option State} (h : LowReads s g ll srcs vals) :
    withLowest all srcs (passed s g ll) (g.after s ll) k = k (lowTo s g ll srcs) (g.low s ll srcs) (lowVals s g ll srcs vals) := by
  have e : ((g.after s ll).active.map fun f => (f, operands (passed s g ll) (g.after s ll) f (g.after s ll).pats (lowFields (g.after s ll) srcs f)))
      = (g.after s ll).active.map fun f => (f, Res.ok (vals f)) := by
    apply List.map_congr_left
    intro f hf
    rw [h f hf]
  have e1 : ((g.after s ll).active.map fun f => (f, Res.ok (vals f))).any
      (fun r : Fibre × Res (List DWord) => match r.2 with | .stall => true | _ => false) = false := by
    rw [List.any_map, List.any_eq_false]; intro f _; simp
  have e2 : ((g.after s ll).active.map fun f => (f, Res.ok (vals f))).filterMap
      (fun r : Fibre × Res (List DWord) => match r.2 with | .trap t => some (r.1.idx, t) | _ => none) = [] := by
    rw [List.filterMap_map, List.filterMap_eq_nil_iff]; intro f _; rfl
  have e3 : ((g.after s ll).active.map fun f => (f, Res.ok (vals f))).filterMap
      (fun r : Fibre × Res (List DWord) => match r.2 with
        | .ok v => some (r.1.popAll ((lowFields (g.after s ll) srcs r.1).map (·.1.name)), v) | _ => none)
        = lowVals s g ll srcs vals := by
    rw [List.filterMap_map]
    exact congrFun (List.filterMap_eq_map (f := fun f : Fibre => (f.popAll ((lowFields (g.after s ll) srcs f).map (·.1.name)), vals f))) _
  have e4 : ((passed s g ll).mapFibres (g.after s ll).cell.id fun f =>
      (((lowVals s g ll srcs vals).find? (·.1.idx == f.idx)).map (·.1)).getD f)
        = (passed s g ll).mapFibres g.cell.id fun f =>
          match (g.after s ll).active.find? (·.idx == f.idx) with
          | some x => x.popAll ((lowFields (g.after s ll) srcs x).map (·.1.name))
          | none => f := by
    rw [show (g.after s ll).cell.id = g.cell.id from refresh_cell_id ..]
    congr 1
    funext f
    simp only [lowVals, find?_map_key, popAll_idx]
    cases (g.after s ll).active.find? (·.idx == f.idx) <;> rfl
  have low0 : ∀ x, (lowVals s g ll srcs vals).head? = some x → ((g.after s ll).lowest.map (·.idx) == some x.1.idx) = true := by
    intro x hx
    simp only [lowVals, List.head?_map, Option.map_eq_some_iff] at hx
    obtain ⟨f, hf, rfl⟩ := hx
    simp [Grp.lowest, hf]
  have key : ∀ (b : Bool) (ts : List (Nat × Trap)) (vs : List (Fibre × List DWord)) (u0 : State), b = false → ts = [] →
      vs = lowVals s g ll srcs vals →
      u0 = ((passed s g ll).mapFibres (g.after s ll).cell.id fun f => ((vs.find? (·.1.idx == f.idx)).map (·.1)).getD f) →
      (if b = true then none else
        match all, ts with
        | true, t :: _ => some (raiseLanes (passed s g ll) (g.after s ll) ((g.after s ll).active.map fun f => (f.idx, t.2)))
        | _, _ =>
          let u := markReads (passed s g ll) { g.after s ll with members := (g.after s ll).members.filter fun f => ((g.after s ll).lowest.map (·.idx)) == some f.idx } (srcs.map (·.1.1.name)) u0
          let u := markReads (passed s g ll) (g.after s ll) ((srcs.filter (·.2)).map (·.1.1.name)) u
          let u := raiseLanes u (g.after s ll) ts
          match vs with
          | x :: _ => if ((g.after s ll).lowest.map (·.idx)) == some x.1.idx then k u ((g.after s ll).refresh u) vs else some u
          | [] => k u ((g.after s ll).refresh u) vs)
      = k (lowTo s g ll srcs) (g.low s ll srcs) (lowVals s g ll srcs vals) := by
    intro b ts vs u0 hb ht hv hu
    subst hb; subst ht
    rw [if_neg (by simp)]
    have hu' : u0 = (passed s g ll).mapFibres g.cell.id fun f =>
          match (g.after s ll).active.find? (·.idx == f.idx) with
          | some x => x.popAll ((lowFields (g.after s ll) srcs x).map (·.1.name))
          | none => f := by rw [hu, hv]; exact e4
    rw [hu']
    have fin : ∀ (w : State), w = lowTo s g ll srcs →
        (match vs with
          | x :: _ => if ((g.after s ll).lowest.map (·.idx)) == some x.1.idx then k w ((g.after s ll).refresh w) vs else some w
          | [] => k w ((g.after s ll).refresh w) vs) = k (lowTo s g ll srcs) (g.low s ll srcs) (lowVals s g ll srcs vals) := by
      rintro w rfl
      cases hvs : vs with
      | nil => rw [← hv, hvs]; rfl
      | cons x r =>
        have := low0 x (by rw [← hv, hvs]; rfl)
        simp only [this, if_true]
        rw [← hv, hvs]; rfl
    cases all
    · exact fin _ rfl
    · exact fin _ rfl
  unfold withLowest
  dsimp only
  have e' := e
  unfold lowFields at e'
  rw [e']
  exact key _ _ _ _ e1 e2 e3 rfl

theorem barTx_none {s : State} {g : Grp} {ms : List Fibre} (h : ∀ f ∈ ms, f.tx = none) : barTx s g ms = (s, ms) := by
  have h1 : ms.filter (·.tx.isSome) = [] := by
    rw [List.filter_eq_nil_iff]; intro f hf; simp [h f hf]
  have h2 : ms.filter (·.tx.isNone) = ms := by
    rw [List.filter_eq_self]; intro f hf; simp [h f hf]
  simp only [barTx, h1, h2, List.foldl_nil]

theorem only_all (g : Grp) : g.only (g.members.filter fun f => !f.place.active || g.active.any (·.idx == f.idx)) = g := by
  have e : g.members.filter (fun f => !f.place.active || g.active.any (·.idx == f.idx)) = g.members := by
    rw [List.filter_eq_self]
    intro f hf
    cases ha : f.place.active with
    | false => rfl
    | true =>
      simp only [Bool.not_true, Bool.false_or, List.any_eq_true]
      exact ⟨f, by simp [Grp.active, hf, ha], by simp⟩
  rw [e]
  rfl

theorem barredLanes_eq {srcs : List Field} {s : State} {g : Grp} {ll : Bool} {vals : Fibre → List DWord}
    {k : State → Grp → List (Fibre × List DWord) → Option State}
    (h : Reads s g ll srcs vals) (hn : NoTx s g ll) :
    barredLanes srcs (passed s g ll) (g.after s ll) k
      = k (readTo s g ll (srcs.map (·.1.name))) (g.read s ll (srcs.map (·.1.name))) (readVals s g ll (srcs.map (·.1.name)) vals) := by
  unfold barredLanes
  rw [barTx_none hn]
  dsimp only
  rw [only_all]
  exact withLanes_eq h
theorem barredLowest_eq {all : Bool} {srcs : List (Field × Bool)} {s : State} {g : Grp} {ll : Bool} {vals : Fibre → List DWord}
    {k : State → Grp → List (Fibre × List DWord) → Option State} (h : LowReads s g ll srcs vals) (hn : NoTx s g ll) :
    barredLowest all srcs (passed s g ll) (g.after s ll) k = k (lowTo s g ll srcs) (g.low s ll srcs) (lowVals s g ll srcs vals) := by
  unfold barredLowest
  rw [barTx_none hn]
  dsimp only
  rw [only_all]
  exact withLowest_eq h

theorem foldLanes_eq {s u : State} {g : Grp} {xs : List (Fibre × List DWord)}
    {op : State → Fibre → List DWord → State × Option Trap} (h : laneRun g.cell.id op s xs = some u) :
    foldLanes s g xs op = u := by
  have key : ∀ (xs : List (Fibre × List DWord)) (s : State), laneRun g.cell.id op s xs = some u →
      xs.foldl (fun (y : State × List (Nat × Trap)) x =>
        let r := op y.1 ((y.1.fibre? ⟨g.cell.id, x.1.idx⟩).getD x.1) x.2
        (r.1, match r.2 with | some t => y.2 ++ [(x.1.idx, t)] | none => y.2)) (s, []) = (u, []) := by
    intro xs
    induction xs with
    | nil => intro s h; simp only [laneRun, Option.some.injEq] at h; rw [h]; rfl
    | cons x r ih =>
      intro s h
      simp only [laneRun] at h
      split at h
      · rename_i s' hs
        rw [List.foldl_cons]
        simp only [hs]
        exact ih s' h
      · cases h
  have := key xs s h
  have fin : ∀ p : State × List (Nat × Trap), p = (u, []) → (match p with | (s, ts) => raiseLanes s g ts) = u := by
    rintro _ rfl; rfl
  exact fin _ this

/-- What holds an access back lies outside the cells, the open unit, and the accesses and operations in flight. -/
theorem heldBack_of_cells (s : State) (cells : List Cell) (cur : Cur) (accs : List Acc) (ops : List Op) (next free : Nat)
    (mine : List Nat) (part fn va len : Nat) :
    heldBack { s with cells := cells, cur := cur, accs := accs, ops := ops, next := next, free := free } mine part fn va len
      = heldBack s mine part fn va len := rfl

end Sys2Proof.Machine
end

