-- ==== Sys2Proof/Laws/Memory.lean ====
section
/-! SUPPORT. Sparse maps and memory: read after write, and that every write keeps the canonical form. -/

namespace Sys2Proof.Machine

variable {α : Type} [DecidableEq α]

/-- Reading after a write: the value written at its key, the old value elsewhere. -/
theorem swfFrom_mono {d : α} {m : SMap α} : ∀ {lo lo' : Nat}, lo' ≤ lo → swfFrom d lo m = true → swfFrom d lo' m = true := by
  cases m with
  | nil => intros; rfl
  | cons x r =>
    obtain ⟨k, v⟩ := x
    intro lo lo' h hw
    simp only [swfFrom, Bool.and_eq_true, decide_eq_true_eq] at hw ⊢
    exact ⟨⟨by omega, hw.1.2⟩, hw.2⟩

/-- Below its first key a canonical map reads as the default. -/
theorem sget_of_lt {d : α} : ∀ {m : SMap α} {lo k : Nat}, swfFrom d lo m = true → k < lo → sget d m k = d
  | [], _, _, _, _ => rfl
  | (k', v) :: r, lo, k, hw, hk => by
    simp only [swfFrom, Bool.and_eq_true, decide_eq_true_eq] at hw
    simp only [sget]
    rw [if_neg (by omega)]
    exact sget_of_lt hw.2 (by omega)

theorem sget_sput_from {d : α} : ∀ {m : SMap α} {lo : Nat} (k j : Nat) (v : α), swfFrom d lo m = true →
    sget d (sput d m k v) j = if j = k then v else sget d m j
  | [], _, k, j, v, _ => by
    simp only [sput]
    by_cases hv : v = d <;> by_cases hj : j = k <;> simp [sget, hv, hj]
  | (k', v') :: r, lo, k, j, v, hw => by
    have hw' := hw
    simp only [swfFrom, Bool.and_eq_true, decide_eq_true_eq] at hw
    simp only [sput]
    by_cases h1 : k < k'
    · by_cases hv : v = d
      · by_cases hj : j = k
        · subst hj
          simp only [h1, hv, if_true, sget]
          rw [if_neg (by omega)]
          exact sget_of_lt hw.2 (by omega)
        · simp [h1, hv, hj]
      · by_cases hj : j = k <;> simp [h1, hv, hj, sget]
    · by_cases h2 : k = k'
      · subst h2
        by_cases hv : v = d
        · by_cases hj : j = k
          · subst hj
            simp only [h1, hv, if_true, if_false]
            exact sget_of_lt hw.2 (by omega)
          · simp [hv, hj, sget]
        · by_cases hj : j = k <;> simp [hv, hj, sget]
      · have ih := sget_sput_from k j v hw.2
        by_cases hj : j = k'
        · subst hj
          have : j ≠ k := by omega
          simp [h1, h2, sget, this]
        · simp [h1, h2, sget, hj, ih]

/-- Reading after a write of a canonical map. -/
theorem sget_sput {d : α} {m : SMap α} (k j : Nat) (v : α) (h : swf d m = true) :
    sget d (sput d m k v) j = if j = k then v else sget d m j := sget_sput_from k j v h

/-- A write keeps the canonical form. -/
theorem swfFrom_sput {d : α} : ∀ {m : SMap α} {lo : Nat} (k : Nat) (v : α), swfFrom d lo m = true → lo ≤ k →
    swfFrom d lo (sput d m k v) = true
  | [], lo, k, v, _, hk => by
    by_cases hv : v = d <;> simp [sput, swfFrom, hv, hk]
  | (k', v') :: r, lo, k, v, hw, hk => by
    have hw' := hw
    simp only [swfFrom, Bool.and_eq_true, decide_eq_true_eq] at hw
    simp only [sput]
    by_cases h1 : k < k'
    · by_cases hv : v = d
      · simpa [h1, hv] using hw'
      · simp only [h1, hv, if_true, if_false, swfFrom, Bool.and_eq_true, decide_eq_true_eq]
        exact ⟨⟨hk, hv⟩, ⟨⟨by omega, hw.1.2⟩, hw.2⟩⟩
    · by_cases h2 : k = k'
      · subst h2
        by_cases hv : v = d
        · simpa [h1, hv] using swfFrom_mono (by omega) hw.2
        · simp only [h1, hv, if_true, if_false, swfFrom, Bool.and_eq_true, decide_eq_true_eq]
          exact ⟨⟨hk, hv⟩, hw.2⟩
      · simp only [h1, h2, if_false, swfFrom, Bool.and_eq_true, decide_eq_true_eq]
        exact ⟨⟨hw.1.1, hw.1.2⟩, swfFrom_sput k v hw.2 (by omega)⟩

theorem swf_sput {d : α} {m : SMap α} (k : Nat) (v : α) (h : swf d m = true) : swf d (sput d m k v) = true :=
  swfFrom_sput k v h (by omega)

/-- Leaving entries out keeps the canonical form. -/
theorem swfFrom_filter {d : α} (p : Nat × α → Bool) : ∀ {m : SMap α} {lo : Nat}, swfFrom d lo m = true →
    swfFrom d lo (m.filter p) = true
  | [], _, _ => rfl
  | (k, v) :: r, lo, hw => by
    simp only [swfFrom, Bool.and_eq_true, decide_eq_true_eq] at hw
    by_cases hp : p (k, v)
    · simp only [List.filter_cons, hp, if_true, swfFrom, Bool.and_eq_true, decide_eq_true_eq]
      exact ⟨hw.1, swfFrom_filter p hw.2⟩
    · simp only [List.filter_cons, hp]
      exact swfFrom_mono (by omega) (swfFrom_filter p hw.2)

theorem swf_filter {d : α} {m : SMap α} (p : Nat × α → Bool) (h : swf d m = true) : swf d (m.filter p) = true :=
  swfFrom_filter p h

/-! ### Memory -/

theorem wf_bput {m : List Host.Cell} (a : Nat) (b : Byte) (h : Memory.wf m = true) : Memory.wf (bput m a b) = true :=
  swf_sput a b h
theorem wf_filter {m : List Host.Cell} (p : Host.Cell → Bool) (h : Memory.wf m = true) : Memory.wf (m.filter p) = true :=
  swf_filter p h
theorem bget_bput {m : List Host.Cell} (a j : Nat) (b : Byte) (h : Memory.wf m = true) :
    bget (bput m a b) j = if j = a then b else bget m j := sget_sput a j b h

theorem wf_putBytes : ∀ (bs : List Byte) {m : List Host.Cell} (a : Nat), Memory.wf m = true → Memory.wf (putBytes m a bs) = true
  | [], _, _, h => h
  | b :: r, _, a, h => wf_putBytes r (a + 1) (wf_bput a b h)

/-- A run of bytes written reads back, and no other address changes. -/
theorem bget_putBytes : ∀ (bs : List Byte) {m : List Host.Cell} (a j : Nat), Memory.wf m = true →
    bget (putBytes m a bs) j = if a ≤ j ∧ j < a + bs.length then bs.getD (j - a) 0 else bget m j
  | [], _, a, j, _ => by simp only [putBytes, List.length_nil]; rw [if_neg (by omega)]
  | b :: r, m, a, j, h => by
    simp only [putBytes]
    rw [bget_putBytes r (a + 1) j (wf_bput a b h), bget_bput a j b h]
    by_cases h1 : j = a
    · subst h1; rw [if_neg (by omega)]; simp
    · by_cases h2 : a + 1 ≤ j ∧ j < a + 1 + r.length
      · obtain ⟨h3, h4⟩ := h2
        have h5 : a ≤ j ∧ j < a + (r.length + 1) := by omega
        have h6 : j - a = (j - (a + 1)) + 1 := by omega
        simp [h3, h4, h5, h6]
      · have h5 : ¬ (a ≤ j ∧ j < a + (r.length + 1)) := by omega
        rw [if_neg h2, if_neg h1, List.length_cons, if_neg h5]

theorem bytesAt_length (m : SMap Byte) : ∀ (n a : Nat), (bytesAt m a n).length = n
  | 0, _ => rfl
  | n + 1, a => by simp [bytesAt, bytesAt_length m n]
theorem bytesOfNat_length : ∀ (n v : Nat), (bytesOfNat n v).length = n
  | 0, _ => rfl
  | n + 1, v => by simp [bytesOfNat, bytesOfNat_length n]

/-- The number that n bytes of v make is v, cut to n bytes. -/
theorem natOfBytes_bytesOfNat : ∀ (n v : Nat), natOfBytes (bytesOfNat n v) = v % 256 ^ n
  | 0, v => by simp [bytesOfNat, natOfBytes, Nat.mod_one]
  | n + 1, v => by
    simp only [bytesOfNat, natOfBytes, natOfBytes_bytesOfNat n]
    rw [Nat.pow_succ, Nat.mul_comm (256 ^ n) 256, Nat.mod_mul]
    simp

/-! ### Writes at a home -/

theorem homePutByte_wf {s t : State} {who : Who} {va : Nat} {b : Byte} (h : homePutByte s who va b = .ok t)
    (hw : Memory.wf s.mem = true) : Memory.wf t.mem = true := by
  unfold homePutByte at h
  cases hs : spot s who va .write with
  | error e => simp [hs, Except.map] at h
  | ok x =>
    simp only [hs, Except.map, Except.ok.injEq] at h
    subst h
    cases x with
    | vault => exact wf_bput _ _ hw
    | phys x => exact wf_bput _ _ hw
    | line l =>
      simp only
      split
      · exact wf_bput _ _ hw
      · exact hw

theorem homePut_wf : ∀ (bs : List Byte) {s : State} {who : Who} {va : Nat}, Memory.wf s.mem = true →
    Memory.wf (homePut s who va bs).1.mem = true
  | [], _, _, _, h => h
  | b :: r, s, who, va, h => by
    simp only [homePut]
    cases hb : homePutByte s who va b with
    | error e => exact h
    | ok t => exact homePut_wf r (homePutByte_wf hb h)

/-- Queueing invalidations changes no memory. -/
theorem invalidate_mem (s : State) (but : Option Nat) (asid : Option Nat) (line : Nat) :
    (invalidate s but asid line).mem = s.mem := by
  unfold invalidate
  simp only
  generalize List.filter _ _ = cs
  induction cs generalizing s with
  | nil => rfl
  | cons c r ih => exact (ih _)

theorem homeWrite_wf {s t : State} {who : Who} {but : Option Nat} {va : Nat} {bs : List Byte}
    (h : homeWrite s who but va bs = .ok t) (hw : Memory.wf s.mem = true) : Memory.wf t.mem = true := by
  unfold homeWrite at h
  have hp := homePut_wf bs (who := who) (va := va) hw
  generalize homePut s who va bs = q at h hp
  obtain ⟨u, e⟩ := q
  cases e with
  | some e => cases h
  | none =>
    simp only at h hp
    split at h
    · cases h; rw [invalidate_mem]; exact hp
    · cases h
      generalize List.map _ _ = ls
      have : ∀ (ls : List Nat) (v : State), (ls.foldl (fun y l => invalidate y but (tagOf s who.part who.fn va) l) v).mem = v.mem := by
        intro ls
        induction ls with
        | nil => intro v; rfl
        | cons x r ih => intro v; exact (ih _).trans (invalidate_mem ..)
      rw [this, invalidate_mem]; exact hp

theorem writeBack_wf {s : State} (l : Line) (hw : Memory.wf s.mem = true) : Memory.wf (writeBack s l).mem = true := by
  unfold writeBack countPort
  split
  · simp only
    apply wf_putBytes
    split
    · exact hw
    · split <;> exact hw
  · exact hw

end Sys2Proof.Machine
end

