-- ==== Sys2Proof/Laws/PerInstr.lean ====
section
/-! SUPPORT. One lemma for each instruction about its word: a word of the instruction set has a code of 32 bits, an event has
none. -/

namespace Sys2Proof

theorem Name.code_lt (n : Name) : n.code < 64 := by cases n <;> simp only [Name.code] <;> omega
theorem Perm.code_lt (p : Perm) : p.code < 8 := by cases p <;> decide
theorem Src.code_lt (s : Src) : s.code < 512 := by
  have h := s.name.code_lt
  have k := s.perm.code_lt
  simp only [Src.code]
  omega
theorem Wd.code_lt (w : Wd) : w.code < 2 := by cases w <;> decide
theorem Wd.mcode_lt (w : Wd) : w.mcode < 4 := by cases w <;> decide
theorem AddF.code_lt (f : AddF) : f.code < 4 := by cases f <;> decide
theorem Sgn.code_lt (f : Sgn) : f.code < 2 := by cases f <;> decide
theorem MadF.code_lt (f : MadF) : f.code < 4 := by cases f <;> decide
theorem MinF.code_lt (f : MinF) : f.code < 4 := by cases f <;> decide
theorem ICond.code_lt (c : ICond) : c.code < 8 := by cases c <;> decide
theorem FCond.code_lt (c : FCond) : c.code < 8 := by cases c <;> decide
theorem FF.code_lt (f : FF) : f.code < 2 := by cases f <;> decide
theorem MoviF.code_lt (f : MoviF) : f.code < 4 := by cases f <;> decide
theorem RndDir.code_lt (r : RndDir) : r.code < 16 := by cases r <;> decide
theorem Cvt.code_lt (c : Cvt) : c.code < 16 := by cases c <;> decide
theorem RndMode.code_lt (r : RndMode) : r.code < 8 := by cases r <;> decide
theorem Width.code_lt (w : Width) : w.code < 8 := by cases w <;> decide
theorem Scope.code_lt (s : Scope) : s.code < 8 := by cases s <;> decide
theorem AtomOp.code_lt (o : AtomOp) : o.code < 15 := by cases o <;> decide
theorem Cond.code_lt (c : Cond) : c.code < 16 := by cases c <;> simp only [Cond.code] <;> omega
theorem flagCode_lt (f : Option (Fin 12)) : flagCode f < 16 := by cases f <;> simp only [flagCode] <;> omega
theorem PatKind.code_lt (k : PatKind) : k.code < 4 := by cases k <;> decide
theorem patCode_lt (p : Option Pat) : patCode p < 256 := by
  cases p with
  | none => decide
  | some p =>
    have h := p.kind.code_lt
    simp only [patCode]
    omega
theorem idxCode_lt (i : Option (Fin 32)) : idxCode i < 32 := by cases i <;> simp only [idxCode] <;> omega
theorem idxBit_lt (i : Option (Fin 32)) : idxBit i < 2 := by cases i <;> simp only [idxBit] <;> omega
theorem clsCode_lt (c : Option (Fin 8)) : clsCode c < 16 := by cases c <;> simp only [clsCode] <;> omega
/-- A flag of an encoding as a number. -/
theorem bit_le (b : Bool) (n : Nat) : (if b then n else 0) ≤ n := by cases b <;> simp

namespace Laws.Encoded

/-- What holds of every instruction as syntax. -/
def Statement (i : Instr) : Prop :=
  (i.isWord = true → ∃ n, i.code = some n ∧ n < 2 ^ 32) ∧ (i.isWord = false → i.code = none)

theorem nop : Statement (.nop) := by
  refine ⟨fun _ => ⟨_, rfl, ?_⟩, fun h => (nomatch h)⟩
  decide
theorem iadd (f : AddF) (d : Name) (a : Src) (b : Src) : Statement (.iadd f d a b) := by
  have h0 := f.code_lt
  have h1 := d.code_lt
  have h2 := a.code_lt
  have h3 := b.code_lt
  refine ⟨fun _ => ⟨_, rfl, ?_⟩, fun h => (nomatch h)⟩
  simp only [encV3]
  omega
theorem isub (f : AddF) (d : Name) (a : Src) (b : Src) : Statement (.isub f d a b) := by
  have h0 := f.code_lt
  have h1 := d.code_lt
  have h2 := a.code_lt
  have h3 := b.code_lt
  refine ⟨fun _ => ⟨_, rfl, ?_⟩, fun h => (nomatch h)⟩
  simp only [encV3]
  omega
theorem imul (f : Wd) (d : Name) (a : Src) (b : Src) : Statement (.imul f d a b) := by
  have h0 := f.code_lt
  have h1 := d.code_lt
  have h2 := a.code_lt
  have h3 := b.code_lt
  refine ⟨fun _ => ⟨_, rfl, ?_⟩, fun h => (nomatch h)⟩
  simp only [encV3]
  omega
theorem imulh (f : Sgn) (d : Name) (a : Src) (b : Src) : Statement (.imulh f d a b) := by
  have h0 := f.code_lt
  have h1 := d.code_lt
  have h2 := a.code_lt
  have h3 := b.code_lt
  refine ⟨fun _ => ⟨_, rfl, ?_⟩, fun h => (nomatch h)⟩
  simp only [encV3]
  omega
theorem imad (f : MadF) (d : Name) (a : Src) (b : Src) : Statement (.imad f d a b) := by
  have h0 := f.code_lt
  have h1 := d.code_lt
  have h2 := a.code_lt
  have h3 := b.code_lt
  refine ⟨fun _ => ⟨_, rfl, ?_⟩, fun h => (nomatch h)⟩
  simp only [encV3]
  omega
theorem imin (f : MinF) (d : Name) (a : Src) (b : Src) : Statement (.imin f d a b) := by
  have h0 := f.code_lt
  have h1 := d.code_lt
  have h2 := a.code_lt
  have h3 := b.code_lt
  refine ⟨fun _ => ⟨_, rfl, ?_⟩, fun h => (nomatch h)⟩
  simp only [encV3]
  omega
theorem imax (f : MinF) (d : Name) (a : Src) (b : Src) : Statement (.imax f d a b) := by
  have h0 := f.code_lt
  have h1 := d.code_lt
  have h2 := a.code_lt
  have h3 := b.code_lt
  refine ⟨fun _ => ⟨_, rfl, ?_⟩, fun h => (nomatch h)⟩
  simp only [encV3]
  omega
theorem and (f : Wd) (d : Name) (a : Src) (b : Src) : Statement (.and f d a b) := by
  have h0 := f.code_lt
  have h1 := d.code_lt
  have h2 := a.code_lt
  have h3 := b.code_lt
  refine ⟨fun _ => ⟨_, rfl, ?_⟩, fun h => (nomatch h)⟩
  simp only [encV3]
  omega
theorem or (f : Wd) (d : Name) (a : Src) (b : Src) : Statement (.or f d a b) := by
  have h0 := f.code_lt
  have h1 := d.code_lt
  have h2 := a.code_lt
  have h3 := b.code_lt
  refine ⟨fun _ => ⟨_, rfl, ?_⟩, fun h => (nomatch h)⟩
  simp only [encV3]
  omega
theorem xor (f : Wd) (d : Name) (a : Src) (b : Src) : Statement (.xor f d a b) := by
  have h0 := f.code_lt
  have h1 := d.code_lt
  have h2 := a.code_lt
  have h3 := b.code_lt
  refine ⟨fun _ => ⟨_, rfl, ?_⟩, fun h => (nomatch h)⟩
  simp only [encV3]
  omega
theorem andn (f : Wd) (d : Name) (a : Src) (b : Src) : Statement (.andn f d a b) := by
  have h0 := f.code_lt
  have h1 := d.code_lt
  have h2 := a.code_lt
  have h3 := b.code_lt
  refine ⟨fun _ => ⟨_, rfl, ?_⟩, fun h => (nomatch h)⟩
  simp only [encV3]
  omega
theorem shl (f : Wd) (d : Name) (a : Src) (b : Src) : Statement (.shl f d a b) := by
  have h0 := f.code_lt
  have h1 := d.code_lt
  have h2 := a.code_lt
  have h3 := b.code_lt
  refine ⟨fun _ => ⟨_, rfl, ?_⟩, fun h => (nomatch h)⟩
  simp only [encV3]
  omega
theorem shr (f : Wd) (d : Name) (a : Src) (b : Src) : Statement (.shr f d a b) := by
  have h0 := f.code_lt
  have h1 := d.code_lt
  have h2 := a.code_lt
  have h3 := b.code_lt
  refine ⟨fun _ => ⟨_, rfl, ?_⟩, fun h => (nomatch h)⟩
  simp only [encV3]
  omega
theorem sar (f : Wd) (d : Name) (a : Src) (b : Src) : Statement (.sar f d a b) := by
  have h0 := f.code_lt
  have h1 := d.code_lt
  have h2 := a.code_lt
  have h3 := b.code_lt
  refine ⟨fun _ => ⟨_, rfl, ?_⟩, fun h => (nomatch h)⟩
  simp only [encV3]
  omega
theorem popc (f : Wd) (d : Name) (a : Src) : Statement (.popc f d a) := by
  have h0 := f.code_lt
  have h1 := d.code_lt
  have h2 := a.code_lt
  refine ⟨fun _ => ⟨_, rfl, ?_⟩, fun h => (nomatch h)⟩
  simp only [encV3]
  omega
theorem clz (f : Wd) (d : Name) (a : Src) : Statement (.clz f d a) := by
  have h0 := f.code_lt
  have h1 := d.code_lt
  have h2 := a.code_lt
  refine ⟨fun _ => ⟨_, rfl, ?_⟩, fun h => (nomatch h)⟩
  simp only [encV3]
  omega
theorem brev (d : Name) (a : Src) : Statement (.brev d a) := by
  have h0 := d.code_lt
  have h1 := a.code_lt
  refine ⟨fun _ => ⟨_, rfl, ?_⟩, fun h => (nomatch h)⟩
  simp only [encV3]
  omega
theorem iabs (f : Wd) (d : Name) (a : Src) : Statement (.iabs f d a) := by
  have h0 := f.code_lt
  have h1 := d.code_lt
  have h2 := a.code_lt
  refine ⟨fun _ => ⟨_, rfl, ?_⟩, fun h => (nomatch h)⟩
  simp only [encV3]
  omega
theorem bfx (f : Sgn) (d : Name) (a : Src) (b : Src) : Statement (.bfx f d a b) := by
  have h0 := f.code_lt
  have h1 := d.code_lt
  have h2 := a.code_lt
  have h3 := b.code_lt
  refine ⟨fun _ => ⟨_, rfl, ?_⟩, fun h => (nomatch h)⟩
  simp only [encV3]
  omega
theorem bfi (d : Name) (a : Src) (b : Src) : Statement (.bfi d a b) := by
  have h0 := d.code_lt
  have h1 := a.code_lt
  have h2 := b.code_lt
  refine ⟨fun _ => ⟨_, rfl, ?_⟩, fun h => (nomatch h)⟩
  simp only [encV3]
  omega
theorem icmp (f : MinF) (c : ICond) (p : Fin 8) (a : Src) (b : Src) : Statement (.icmp f c p a b) := by
  have h0 := f.code_lt
  have h1 := c.code_lt
  have h2 := p.isLt
  have h3 := a.code_lt
  have h4 := b.code_lt
  refine ⟨fun _ => ⟨_, rfl, ?_⟩, fun h => (nomatch h)⟩
  simp only [encV3]
  omega
theorem sel (p : Fin 4) (d : Name) (a : Src) (b : Src) : Statement (.sel p d a b) := by
  have h0 := p.isLt
  have h1 := d.code_lt
  have h2 := a.code_lt
  have h3 := b.code_lt
  refine ⟨fun _ => ⟨_, rfl, ?_⟩, fun h => (nomatch h)⟩
  simp only [encV3]
  omega
theorem mov (f : Wd) (d : Name) (a : Src) : Statement (.mov f d a) := by
  have h0 := f.code_lt
  have h1 := d.code_lt
  have h2 := a.code_lt
  refine ⟨fun _ => ⟨_, rfl, ?_⟩, fun h => (nomatch h)⟩
  simp only [encV3]
  omega
theorem movKw (a : Src) (idx : Src) : Statement (.movKw a idx) := by
  have h0 := a.code_lt
  have h1 := idx.code_lt
  refine ⟨fun _ => ⟨_, rfl, ?_⟩, fun h => (nomatch h)⟩
  simp only [encV3]
  omega
theorem movKr (d : Name) (idx : Src) : Statement (.movKr d idx) := by
  have h0 := d.code_lt
  have h1 := idx.code_lt
  refine ⟨fun _ => ⟨_, rfl, ?_⟩, fun h => (nomatch h)⟩
  simp only [encV3]
  omega
theorem movi (f : MoviF) (d : Name) (imm : BitVec 8) : Statement (.movi f d imm) := by
  have h0 := f.code_lt
  have h1 := d.code_lt
  have h2 := imm.isLt
  refine ⟨fun _ => ⟨_, rfl, ?_⟩, fun h => (nomatch h)⟩
  simp only [encVI]
  omega
theorem lea (sc : Fin 4) (d : Name) (a : Src) (b : Src) : Statement (.lea sc d a b) := by
  have h0 := sc.isLt
  have h1 := d.code_lt
  have h2 := a.code_lt
  have h3 := b.code_lt
  refine ⟨fun _ => ⟨_, rfl, ?_⟩, fun h => (nomatch h)⟩
  simp only [encV3]
  omega
theorem idot4 (f : Sgn) (d : Name) (a : Src) (b : Src) : Statement (.idot4 f d a b) := by
  have h0 := f.code_lt
  have h1 := d.code_lt
  have h2 := a.code_lt
  have h3 := b.code_lt
  refine ⟨fun _ => ⟨_, rfl, ?_⟩, fun h => (nomatch h)⟩
  simp only [encV3]
  omega
theorem fadd (f : FF) (d : Name) (a : Src) (b : Src) : Statement (.fadd f d a b) := by
  have h0 := f.code_lt
  have h1 := d.code_lt
  have h2 := a.code_lt
  have h3 := b.code_lt
  refine ⟨fun _ => ⟨_, rfl, ?_⟩, fun h => (nomatch h)⟩
  simp only [encV3]
  omega
theorem fsub (f : FF) (d : Name) (a : Src) (b : Src) : Statement (.fsub f d a b) := by
  have h0 := f.code_lt
  have h1 := d.code_lt
  have h2 := a.code_lt
  have h3 := b.code_lt
  refine ⟨fun _ => ⟨_, rfl, ?_⟩, fun h => (nomatch h)⟩
  simp only [encV3]
  omega
theorem fmul (f : FF) (d : Name) (a : Src) (b : Src) : Statement (.fmul f d a b) := by
  have h0 := f.code_lt
  have h1 := d.code_lt
  have h2 := a.code_lt
  have h3 := b.code_lt
  refine ⟨fun _ => ⟨_, rfl, ?_⟩, fun h => (nomatch h)⟩
  simp only [encV3]
  omega
theorem ffma (f : FF) (d : Name) (a : Src) (b : Src) : Statement (.ffma f d a b) := by
  have h0 := f.code_lt
  have h1 := d.code_lt
  have h2 := a.code_lt
  have h3 := b.code_lt
  refine ⟨fun _ => ⟨_, rfl, ?_⟩, fun h => (nomatch h)⟩
  simp only [encV3]
  omega
theorem fmin (f : FF) (d : Name) (a : Src) (b : Src) : Statement (.fmin f d a b) := by
  have h0 := f.code_lt
  have h1 := d.code_lt
  have h2 := a.code_lt
  have h3 := b.code_lt
  refine ⟨fun _ => ⟨_, rfl, ?_⟩, fun h => (nomatch h)⟩
  simp only [encV3]
  omega
theorem fmax (f : FF) (d : Name) (a : Src) (b : Src) : Statement (.fmax f d a b) := by
  have h0 := f.code_lt
  have h1 := d.code_lt
  have h2 := a.code_lt
  have h3 := b.code_lt
  refine ⟨fun _ => ⟨_, rfl, ?_⟩, fun h => (nomatch h)⟩
  simp only [encV3]
  omega
theorem fcmp (c : FCond) (p : Fin 8) (a : Src) (b : Src) : Statement (.fcmp c p a b) := by
  have h0 := c.code_lt
  have h1 := p.isLt
  have h2 := a.code_lt
  have h3 := b.code_lt
  refine ⟨fun _ => ⟨_, rfl, ?_⟩, fun h => (nomatch h)⟩
  simp only [encV3]
  omega
theorem frcp (d : Name) (a : Src) : Statement (.frcp d a) := by
  have h0 := d.code_lt
  have h1 := a.code_lt
  refine ⟨fun _ => ⟨_, rfl, ?_⟩, fun h => (nomatch h)⟩
  simp only [encV3]
  omega
theorem frsq (d : Name) (a : Src) : Statement (.frsq d a) := by
  have h0 := d.code_lt
  have h1 := a.code_lt
  refine ⟨fun _ => ⟨_, rfl, ?_⟩, fun h => (nomatch h)⟩
  simp only [encV3]
  omega
theorem fsqrt (d : Name) (a : Src) : Statement (.fsqrt d a) := by
  have h0 := d.code_lt
  have h1 := a.code_lt
  refine ⟨fun _ => ⟨_, rfl, ?_⟩, fun h => (nomatch h)⟩
  simp only [encV3]
  omega
theorem fexp2 (d : Name) (a : Src) : Statement (.fexp2 d a) := by
  have h0 := d.code_lt
  have h1 := a.code_lt
  refine ⟨fun _ => ⟨_, rfl, ?_⟩, fun h => (nomatch h)⟩
  simp only [encV3]
  omega
theorem flog2 (d : Name) (a : Src) : Statement (.flog2 d a) := by
  have h0 := d.code_lt
  have h1 := a.code_lt
  refine ⟨fun _ => ⟨_, rfl, ?_⟩, fun h => (nomatch h)⟩
  simp only [encV3]
  omega
theorem frnd (r : RndDir) (d : Name) (a : Src) : Statement (.frnd r d a) := by
  have h0 := r.code_lt
  have h1 := d.code_lt
  have h2 := a.code_lt
  refine ⟨fun _ => ⟨_, rfl, ?_⟩, fun h => (nomatch h)⟩
  simp only [encV3]
  omega
theorem fcvt (c : Cvt) (sr : Bool) (d : Name) (a : Src) : Statement (.fcvt c sr d a) := by
  have h0 := c.code_lt
  have h1 := d.code_lt
  have h2 := a.code_lt
  refine ⟨fun _ => ⟨_, rfl, ?_⟩, fun h => (nomatch h)⟩
  cases sr <;> simp only [encV3, Bool.false_eq_true, if_true, if_false] <;> omega
theorem fdot2 (d : Name) (a : Src) (b : Src) : Statement (.fdot2 d a b) := by
  have h0 := d.code_lt
  have h1 := a.code_lt
  have h2 := b.code_lt
  refine ⟨fun _ => ⟨_, rfl, ?_⟩, fun h => (nomatch h)⟩
  simp only [encV3]
  omega
theorem qcvt (byte : Fin 4) (d : Name) (a : Src) (slot : Fin 8) (sc : Fin 32) : Statement (.qcvt byte d a slot sc) := by
  have h0 := byte.isLt
  have h1 := d.code_lt
  have h2 := a.code_lt
  have h3 := slot.isLt
  have h4 := sc.isLt
  refine ⟨fun _ => ⟨_, rfl, ?_⟩, fun h => (nomatch h)⟩
  simp only [encVI]
  omega
theorem qdeq (byte : Fin 4) (d : Name) (a : Src) (slot : Fin 8) (sc : Fin 32) : Statement (.qdeq byte d a slot sc) := by
  have h0 := byte.isLt
  have h1 := d.code_lt
  have h2 := a.code_lt
  have h3 := slot.isLt
  have h4 := sc.isLt
  refine ⟨fun _ => ⟨_, rfl, ?_⟩, fun h => (nomatch h)⟩
  simp only [encVI]
  omega
theorem draw (o : Fin 4) (d : Name) : Statement (.draw o d) := by
  have h0 := o.isLt
  have h1 := d.code_lt
  refine ⟨fun _ => ⟨_, rfl, ?_⟩, fun h => (nomatch h)⟩
  simp only [encV3]
  omega
theorem sample (d : Name) (a : Src) (b : Src) : Statement (.sample d a b) := by
  have h0 := d.code_lt
  have h1 := a.code_lt
  have h2 := b.code_lt
  refine ⟨fun _ => ⟨_, rfl, ?_⟩, fun h => (nomatch h)⟩
  simp only [encV3]
  omega
theorem topk (d : Name) (a : Src) (b : Src) : Statement (.topk d a b) := by
  have h0 := d.code_lt
  have h1 := a.code_lt
  have h2 := b.code_lt
  refine ⟨fun _ => ⟨_, rfl, ?_⟩, fun h => (nomatch h)⟩
  simp only [encV3]
  omega
theorem ld (wd : Width) (ord : Scope) (data : Name) (base : Name) (imm : BitVec 8) : Statement (.ld wd ord data base imm) := by
  have h0 := wd.code_lt
  have h1 := ord.code_lt
  have h2 := data.code_lt
  have h3 := base.code_lt
  have h4 := imm.isLt
  refine ⟨fun _ => ⟨_, rfl, ?_⟩, fun h => (nomatch h)⟩
  simp only [encM]
  omega
theorem st (wd : Width) (ord : Scope) (data : Name) (base : Name) (imm : BitVec 8) : Statement (.st wd ord data base imm) := by
  have h0 := wd.code_lt
  have h1 := ord.code_lt
  have h2 := data.code_lt
  have h3 := base.code_lt
  have h4 := imm.isLt
  refine ⟨fun _ => ⟨_, rfl, ?_⟩, fun h => (nomatch h)⟩
  simp only [encM]
  omega
theorem ldx (wd : Wd) (ord : Scope) (data : Name) (base : Name) (imm : BitVec 8) : Statement (.ldx wd ord data base imm) := by
  have h0 := wd.mcode_lt
  have h1 := ord.code_lt
  have h2 := data.code_lt
  have h3 := base.code_lt
  have h4 := imm.isLt
  refine ⟨fun _ => ⟨_, rfl, ?_⟩, fun h => (nomatch h)⟩
  simp only [encM]
  omega
theorem stc (wd : Wd) (ord : Scope) (data : Name) (base : Name) (imm : BitVec 8) : Statement (.stc wd ord data base imm) := by
  have h0 := wd.mcode_lt
  have h1 := ord.code_lt
  have h2 := data.code_lt
  have h3 := base.code_lt
  have h4 := imm.isLt
  refine ⟨fun _ => ⟨_, rfl, ?_⟩, fun h => (nomatch h)⟩
  simp only [encM]
  omega
theorem atom (op : AtomOp) (cmb : Bool) (ord : Scope) (d : Name) (addr : Name) (v : Name) : Statement (.atom op cmb ord d addr v) := by
  have h0 := op.code_lt
  have h1 := ord.code_lt
  have h2 := d.code_lt
  have h3 := addr.code_lt
  have h4 := v.code_lt
  refine ⟨fun _ => ⟨_, rfl, ?_⟩, fun h => (nomatch h)⟩
  cases cmb <;> simp only [encX, Bool.false_eq_true, if_true, if_false] <;> omega
theorem cas (wd : Wd) (ord : Scope) (d : Name) (addr : Name) (v : Name) : Statement (.cas wd ord d addr v) := by
  have h0 := wd.code_lt
  have h1 := ord.code_lt
  have h2 := d.code_lt
  have h3 := addr.code_lt
  have h4 := v.code_lt
  refine ⟨fun _ => ⟨_, rfl, ?_⟩, fun h => (nomatch h)⟩
  simp only [encX]
  omega
theorem red (op : AtomOp) (cmb : Bool) (ord : Scope) (addr : Name) (v : Name) : Statement (.red op cmb ord addr v) := by
  have h0 := op.code_lt
  have h1 := ord.code_lt
  have h2 := addr.code_lt
  have h3 := v.code_lt
  refine ⟨fun _ => ⟨_, rfl, ?_⟩, fun h => (nomatch h)⟩
  cases cmb <;> simp only [encX, Bool.false_eq_true, if_true, if_false] <;> omega
theorem fence (eng : Bool) (mx : Bool) (scope : Scope) : Statement (.fence eng mx scope) := by
  have h0 := scope.code_lt
  refine ⟨fun _ => ⟨_, rfl, ?_⟩, fun h => (nomatch h)⟩
  cases eng <;> cases mx <;> simp only [encX, Bool.false_eq_true, if_true, if_false] <;> omega
theorem trap (n : Fin 64) : Statement (.trap n) := by
  have h0 := n.isLt
  refine ⟨fun _ => ⟨_, rfl, ?_⟩, fun h => (nomatch h)⟩
  simp only [encX]
  omega
theorem eret : Statement (.eret) := by
  refine ⟨fun _ => ⟨_, rfl, ?_⟩, fun h => (nomatch h)⟩
  decide
theorem mfs (d : Name) (n : Fin 4096) : Statement (.mfs d n) := by
  have h0 := d.code_lt
  have h1 := n.isLt
  refine ⟨fun _ => ⟨_, rfl, ?_⟩, fun h => (nomatch h)⟩
  simp only [encX]
  omega
theorem mts (a : Name) (n : Fin 4096) : Statement (.mts a n) := by
  have h0 := a.code_lt
  have h1 := n.isLt
  refine ⟨fun _ => ⟨_, rfl, ?_⟩, fun h => (nomatch h)⟩
  simp only [encX]
  omega
theorem clk (d : Name) : Statement (.clk d) := by
  have h0 := d.code_lt
  refine ⟨fun _ => ⟨_, rfl, ?_⟩, fun h => (nomatch h)⟩
  simp only [encX]
  omega
theorem spill (addr : Name) : Statement (.spill addr) := by
  have h0 := addr.code_lt
  refine ⟨fun _ => ⟨_, rfl, ?_⟩, fun h => (nomatch h)⟩
  simp only [encX]
  omega
theorem fill (addr : Name) : Statement (.fill addr) := by
  have h0 := addr.code_lt
  refine ⟨fun _ => ⟨_, rfl, ?_⟩, fun h => (nomatch h)⟩
  simp only [encX]
  omega
theorem bkpt (n : Fin 64) : Statement (.bkpt n) := by
  have h0 := n.isLt
  refine ⟨fun _ => ⟨_, rfl, ?_⟩, fun h => (nomatch h)⟩
  simp only [encX]
  omega
theorem tbegin (d : Name) : Statement (.tbegin d) := by
  have h0 := d.code_lt
  refine ⟨fun _ => ⟨_, rfl, ?_⟩, fun h => (nomatch h)⟩
  simp only [encX]
  omega
theorem tend : Statement (.tend) := by
  refine ⟨fun _ => ⟨_, rfl, ?_⟩, fun h => (nomatch h)⟩
  decide
theorem tabort (a : Name) : Statement (.tabort a) := by
  have h0 := a.code_lt
  refine ⟨fun _ => ⟨_, rfl, ?_⟩, fun h => (nomatch h)⟩
  simp only [encX]
  omega
theorem fenter (d : Name) (cnt : Name) (pool : Fin 3) : Statement (.fenter d cnt pool) := by
  have h0 := d.code_lt
  have h1 := cnt.code_lt
  have h2 := pool.isLt
  refine ⟨fun _ => ⟨_, rfl, ?_⟩, fun h => (nomatch h)⟩
  simp only [encX]
  omega
theorem fleave (n : Fin 8) : Statement (.fleave n) := by
  have h0 := n.isLt
  refine ⟨fun _ => ⟨_, rfl, ?_⟩, fun h => (nomatch h)⟩
  simp only [encX]
  omega
theorem fld (d : Name) (depth : Fin 8) (idx : Option (Fin 32)) (slot : BitVec 8) : Statement (.fld d depth idx slot) := by
  have h0 := d.code_lt
  have h1 := depth.isLt
  have h2 := idxCode_lt idx
  have h3 := idxBit_lt idx
  have h4 := slot.isLt
  refine ⟨fun _ => ⟨_, rfl, ?_⟩, fun h => (nomatch h)⟩
  simp only [encX]
  omega
theorem fst (a : Name) (depth : Fin 8) (idx : Option (Fin 32)) (slot : BitVec 8) : Statement (.fst a depth idx slot) := by
  have h0 := a.code_lt
  have h1 := depth.isLt
  have h2 := idxCode_lt idx
  have h3 := idxBit_lt idx
  have h4 := slot.isLt
  refine ⟨fun _ => ⟨_, rfl, ?_⟩, fun h => (nomatch h)⟩
  simp only [encX]
  omega
theorem fork (d : Name) (addr : Name) : Statement (.fork d addr) := by
  have h0 := d.code_lt
  have h1 := addr.code_lt
  refine ⟨fun _ => ⟨_, rfl, ?_⟩, fun h => (nomatch h)⟩
  simp only [encX]
  omega
theorem quit : Statement (.quit) := by
  refine ⟨fun _ => ⟨_, rfl, ?_⟩, fun h => (nomatch h)⟩
  decide
theorem yield : Statement (.yield) := by
  refine ⟨fun _ => ⟨_, rfl, ?_⟩, fun h => (nomatch h)⟩
  decide
theorem ballot (d : Name) (p : Fin 8) : Statement (.ballot d p) := by
  have h0 := d.code_lt
  have h1 := p.isLt
  refine ⟨fun _ => ⟨_, rfl, ?_⟩, fun h => (nomatch h)⟩
  simp only [encX]
  omega
theorem matchv (d : Name) (a : Name) : Statement (.matchv d a) := by
  have h0 := d.code_lt
  have h1 := a.code_lt
  refine ⟨fun _ => ⟨_, rfl, ?_⟩, fun h => (nomatch h)⟩
  simp only [encX]
  omega
theorem compact (d : Name) (a : Name) (p : Fin 8) : Statement (.compact d a p) := by
  have h0 := d.code_lt
  have h1 := a.code_lt
  have h2 := p.isLt
  refine ⟨fun _ => ⟨_, rfl, ?_⟩, fun h => (nomatch h)⟩
  simp only [encX]
  omega
theorem regroup : Statement (.regroup) := by
  refine ⟨fun _ => ⟨_, rfl, ?_⟩, fun h => (nomatch h)⟩
  decide
theorem bar : Statement (.bar) := by
  refine ⟨fun _ => ⟨_, rfl, ?_⟩, fun h => (nomatch h)⟩
  decide
theorem cbar : Statement (.cbar) := by
  refine ⟨fun _ => ⟨_, rfl, ?_⟩, fun h => (nomatch h)⟩
  decide
theorem reconv : Statement (.reconv) := by
  refine ⟨fun _ => ⟨_, rfl, ?_⟩, fun h => (nomatch h)⟩
  decide
theorem mdecl (d : Name) (base : Name) (dsc : Name) : Statement (.mdecl d base dsc) := by
  have h0 := d.code_lt
  have h1 := base.code_lt
  have h2 := dsc.code_lt
  refine ⟨fun _ => ⟨_, rfl, ?_⟩, fun h => (nomatch h)⟩
  simp only [encX]
  omega
theorem mma (slot : Fin 8) (tile : Fin 8) (a : Name) (b : Name) : Statement (.mma slot tile a b) := by
  have h0 := slot.isLt
  have h1 := tile.isLt
  have h2 := a.code_lt
  have h3 := b.code_lt
  refine ⟨fun _ => ⟨_, rfl, ?_⟩, fun h => (nomatch h)⟩
  simp only [encX]
  omega
theorem mmaHold (slot : Fin 8) (tile : Fin 8) (a : Name) (b : Name) : Statement (.mmaHold slot tile a b) := by
  have h0 := slot.isLt
  have h1 := tile.isLt
  have h2 := a.code_lt
  have h3 := b.code_lt
  refine ⟨fun _ => ⟨_, rfl, ?_⟩, fun h => (nomatch h)⟩
  simp only [encX]
  omega
theorem mrd (d : Name) (tile : Fin 8) (row : Name) : Statement (.mrd d tile row) := by
  have h0 := d.code_lt
  have h1 := tile.isLt
  have h2 := row.code_lt
  refine ⟨fun _ => ⟨_, rfl, ?_⟩, fun h => (nomatch h)⟩
  simp only [encX]
  omega
theorem mwr (tile : Fin 8) (a : Name) (row : Name) : Statement (.mwr tile a row) := by
  have h0 := tile.isLt
  have h1 := a.code_lt
  have h2 := row.code_lt
  refine ⟨fun _ => ⟨_, rfl, ?_⟩, fun h => (nomatch h)⟩
  simp only [encX]
  omega
theorem mst (tile : Fin 8) (addr : Name) (dsc : Name) : Statement (.mst tile addr dsc) := by
  have h0 := tile.isLt
  have h1 := addr.code_lt
  have h2 := dsc.code_lt
  refine ⟨fun _ => ⟨_, rfl, ?_⟩, fun h => (nomatch h)⟩
  simp only [encX]
  omega
theorem mzero (tile : Fin 8) : Statement (.mzero tile) := by
  have h0 := tile.isLt
  refine ⟨fun _ => ⟨_, rfl, ?_⟩, fun h => (nomatch h)⟩
  simp only [encX]
  omega
theorem resid (a : Name) (b : Name) : Statement (.resid a b) := by
  have h0 := a.code_lt
  have h1 := b.code_lt
  refine ⟨fun _ => ⟨_, rfl, ?_⟩, fun h => (nomatch h)⟩
  simp only [encX]
  omega
theorem settle : Statement (.settle) := by
  refine ⟨fun _ => ⟨_, rfl, ?_⟩, fun h => (nomatch h)⟩
  decide
theorem proof (a : Name) (addr : Name) (c : Name) : Statement (.proof a addr c) := by
  have h0 := a.code_lt
  have h1 := addr.code_lt
  have h2 := c.code_lt
  refine ⟨fun _ => ⟨_, rfl, ?_⟩, fun h => (nomatch h)⟩
  simp only [encX]
  omega
theorem sti (a : Name) (addr : Name) : Statement (.sti a addr) := by
  have h0 := a.code_lt
  have h1 := addr.code_lt
  refine ⟨fun _ => ⟨_, rfl, ?_⟩, fun h => (nomatch h)⟩
  simp only [encX]
  omega
theorem tqpush (d : Name) (off : Name) (addr : Name) : Statement (.tqpush d off addr) := by
  have h0 := d.code_lt
  have h1 := off.code_lt
  have h2 := addr.code_lt
  refine ⟨fun _ => ⟨_, rfl, ?_⟩, fun h => (nomatch h)⟩
  simp only [encX]
  omega
theorem tqpop (d : Name) (off : Name) (c : Name) : Statement (.tqpop d off c) := by
  have h0 := d.code_lt
  have h1 := off.code_lt
  have h2 := c.code_lt
  refine ⟨fun _ => ⟨_, rfl, ?_⟩, fun h => (nomatch h)⟩
  simp only [encX]
  omega
theorem draft (n : Fin 8) (base : Name) (c : Name) : Statement (.draft n base c) := by
  have h0 := n.isLt
  have h1 := base.code_lt
  have h2 := c.code_lt
  refine ⟨fun _ => ⟨_, rfl, ?_⟩, fun h => (nomatch h)⟩
  simp only [encX]
  omega
theorem accept (n : Fin 8) (c : Name) : Statement (.accept n c) := by
  have h0 := n.isLt
  have h1 := c.code_lt
  refine ⟨fun _ => ⟨_, rfl, ?_⟩, fun h => (nomatch h)⟩
  simp only [encX]
  omega
theorem discard (n : Fin 8) : Statement (.discard n) := by
  have h0 := n.isLt
  refine ⟨fun _ => ⟨_, rfl, ?_⟩, fun h => (nomatch h)⟩
  simp only [encX]
  omega
theorem qpost (d : Name) (addr : Name) (off : Name) : Statement (.qpost d addr off) := by
  have h0 := d.code_lt
  have h1 := addr.code_lt
  have h2 := off.code_lt
  refine ⟨fun _ => ⟨_, rfl, ?_⟩, fun h => (nomatch h)⟩
  simp only [encX]
  omega
theorem ecmd (d : Name) (addr : Name) (off : Name) : Statement (.ecmd d addr off) := by
  have h0 := d.code_lt
  have h1 := addr.code_lt
  have h2 := off.code_lt
  refine ⟨fun _ => ⟨_, rfl, ?_⟩, fun h => (nomatch h)⟩
  simp only [encX]
  omega
theorem ewait (addr : Name) (c : Name) : Statement (.ewait addr c) := by
  have h0 := addr.code_lt
  have h1 := c.code_lt
  refine ⟨fun _ => ⟨_, rfl, ?_⟩, fun h => (nomatch h)⟩
  simp only [encX]
  omega
theorem sgnl (addr : Name) (c : Name) : Statement (.sgnl addr c) := by
  have h0 := addr.code_lt
  have h1 := c.code_lt
  refine ⟨fun _ => ⟨_, rfl, ?_⟩, fun h => (nomatch h)⟩
  simp only [encX]
  omega
theorem waits (d : Name) (addr : Name) (c : Name) : Statement (.waits d addr c) := by
  have h0 := d.code_lt
  have h1 := addr.code_lt
  have h2 := c.code_lt
  refine ⟨fun _ => ⟨_, rfl, ?_⟩, fun h => (nomatch h)⟩
  simp only [encX]
  omega
theorem gather (off : Name) (addr : Name) (c : Name) : Statement (.gather off addr c) := by
  have h0 := off.code_lt
  have h1 := addr.code_lt
  have h2 := c.code_lt
  refine ⟨fun _ => ⟨_, rfl, ?_⟩, fun h => (nomatch h)⟩
  simp only [encX]
  omega
theorem scatter (off : Name) (addr : Name) (c : Name) : Statement (.scatter off addr c) := by
  have h0 := off.code_lt
  have h1 := addr.code_lt
  have h2 := c.code_lt
  refine ⟨fun _ => ⟨_, rfl, ?_⟩, fun h => (nomatch h)⟩
  simp only [encX]
  omega
theorem sdef (s : Fin 4) (addr : Name) (flag : Fin 12) : Statement (.sdef s addr flag) := by
  have h0 := s.isLt
  have h1 := addr.code_lt
  have h2 := flag.isLt
  refine ⟨fun _ => ⟨_, rfl, ?_⟩, fun h => (nomatch h)⟩
  simp only [encX]
  omega
theorem sstop (s : Fin 4) : Statement (.sstop s) := by
  have h0 := s.isLt
  refine ⟨fun _ => ⟨_, rfl, ?_⟩, fun h => (nomatch h)⟩
  simp only [encX]
  omega
theorem send (ch : Fin 8) (a : Name) : Statement (.send ch a) := by
  have h0 := ch.isLt
  have h1 := a.code_lt
  refine ⟨fun _ => ⟨_, rfl, ?_⟩, fun h => (nomatch h)⟩
  simp only [encX]
  omega
theorem recv (d : Name) (ch : Fin 8) : Statement (.recv d ch) := by
  have h0 := d.code_lt
  have h1 := ch.isLt
  refine ⟨fun _ => ⟨_, rfl, ?_⟩, fun h => (nomatch h)⟩
  simp only [encX]
  omega
theorem jmp (addr : Name) : Statement (.jmp addr) := by
  have h0 := addr.code_lt
  refine ⟨fun _ => ⟨_, rfl, ?_⟩, fun h => (nomatch h)⟩
  simp only [encX]
  omega
theorem ret : Statement (.ret) := by
  refine ⟨fun _ => ⟨_, rfl, ?_⟩, fun h => (nomatch h)⟩
  decide
theorem bra (c : Cond) (off : BitVec 22) : Statement (.bra c off) := by
  have h0 := c.code_lt
  have h1 := off.isLt
  refine ⟨fun _ => ⟨_, rfl, ?_⟩, fun h => (nomatch h)⟩
  simp only [encC]
  omega
theorem call (c : Cond) (off : BitVec 22) : Statement (.call c off) := by
  have h0 := c.code_lt
  have h1 := off.isLt
  refine ⟨fun _ => ⟨_, rfl, ?_⟩, fun h => (nomatch h)⟩
  simp only [encC]
  omega
theorem clause (wait : BitVec 12) (fa : Option (Fin 12)) (fb : Option (Fin 12)) (guard : Cond) : Statement (.clause wait fa fb guard) := by
  have h0 := wait.isLt
  have h1 := flagCode_lt fa
  have h2 := flagCode_lt fb
  have h3 := guard.code_lt
  refine ⟨fun _ => ⟨_, rfl, ?_⟩, fun h => (nomatch h)⟩
  simp only [encK]
  omega
theorem hintImm (high : BitVec 22) : Statement (.hintImm high) := by
  have h0 := high.isLt
  refine ⟨fun _ => ⟨_, rfl, ?_⟩, fun h => (nomatch h)⟩
  simp only [encH]
  omega
theorem hintPerm (pa : Option Pat) (pb : Option Pat) : Statement (.hintPerm pa pb) := by
  have h0 := patCode_lt pa
  have h1 := patCode_lt pb
  refine ⟨fun _ => ⟨_, rfl, ?_⟩, fun h => (nomatch h)⟩
  simp only [encH]
  omega
theorem hintMod (rnd : RndMode) (cls : Option (Fin 8)) (nt : Bool) : Statement (.hintMod rnd cls nt) := by
  have h0 := rnd.code_lt
  have h1 := clsCode_lt cls
  refine ⟨fun _ => ⟨_, rfl, ?_⟩, fun h => (nomatch h)⟩
  cases nt <;> simp only [encH, Bool.false_eq_true, if_true, if_false] <;> omega
theorem hintSched (yld : Bool) : Statement (.hintSched yld) := by
  refine ⟨fun _ => ⟨_, rfl, ?_⟩, fun h => (nomatch h)⟩
  cases yld <;> decide
theorem leave (a : Nat) : Statement (.leave a) := ⟨fun h => (nomatch h), fun _ => rfl⟩
theorem forward (a : Nat) : Statement (.forward a) := ⟨fun h => (nomatch h), fun _ => rfl⟩
theorem requestSend (a : Nat) : Statement (.requestSend a) := ⟨fun h => (nomatch h), fun _ => rfl⟩
theorem combine (x : Nat) (y : Nat) : Statement (.combine x y) := ⟨fun h => (nomatch h), fun _ => rfl⟩
theorem combineWindowExpiry (a : Nat) : Statement (.combineWindowExpiry a) := ⟨fun h => (nomatch h), fun _ => rfl⟩
theorem arrive (a : Nat) (mask : Nat) (blk : Nat) : Statement (.arrive a mask blk) := ⟨fun h => (nomatch h), fun _ => rfl⟩
theorem reply (a : Nat) (mask : Nat) : Statement (.reply a mask) := ⟨fun h => (nomatch h), fun _ => rfl⟩
theorem deliverInval (cluster : Nat) : Statement (.deliverInval cluster) := ⟨fun h => (nomatch h), fun _ => rfl⟩
theorem lineFill (op : FillOp) : Statement (.lineFill op) := ⟨fun h => (nomatch h), fun _ => rfl⟩
theorem tlbWalk (a : Nat) (useTlb : Bool) : Statement (.tlbWalk a useTlb) := ⟨fun h => (nomatch h), fun _ => rfl⟩
theorem pinTimeout (rel : Nat) : Statement (.pinTimeout rel) := ⟨fun h => (nomatch h), fun _ => rfl⟩
theorem fenceDone (cell : Nat) (fib : Nat) : Statement (.fenceDone cell fib) := ⟨fun h => (nomatch h), fun _ => rfl⟩
theorem escape (switch : Nat) : Statement (.escape switch) := ⟨fun h => (nomatch h), fun _ => rfl⟩
theorem engineAcq (ch : Nat) : Statement (.engineAcq ch) := ⟨fun h => (nomatch h), fun _ => rfl⟩
theorem engineRel (ch : Nat) : Statement (.engineRel ch) := ⟨fun h => (nomatch h), fun _ => rfl⟩
theorem engineCompletion (ch : Nat) : Statement (.engineCompletion ch) := ⟨fun h => (nomatch h), fun _ => rfl⟩
theorem engineNop (ch : Nat) : Statement (.engineNop ch) := ⟨fun h => (nomatch h), fun _ => rfl⟩
theorem engineCopy (ch : Nat) : Statement (.engineCopy ch) := ⟨fun h => (nomatch h), fun _ => rfl⟩
theorem engineMcast (ch : Nat) : Statement (.engineMcast ch) := ⟨fun h => (nomatch h), fun _ => rfl⟩
theorem engineFill (ch : Nat) : Statement (.engineFill ch) := ⟨fun h => (nomatch h), fun _ => rfl⟩
theorem engineGather (ch : Nat) : Statement (.engineGather ch) := ⟨fun h => (nomatch h), fun _ => rfl⟩
theorem engineColl (ch : Nat) (others : List (BitVec 64)) : Statement (.engineColl ch others) := ⟨fun h => (nomatch h), fun _ => rfl⟩
theorem engineSgnl (ch : Nat) : Statement (.engineSgnl ch) := ⟨fun h => (nomatch h), fun _ => rfl⟩
theorem collMemberFailure (ch : Nat) (dev : Nat) : Statement (.collMemberFailure ch dev) := ⟨fun h => (nomatch h), fun _ => rfl⟩
theorem streamRunaheadRead (cell : Nat) (fib : Nat) (s : Fin 4) : Statement (.streamRunaheadRead cell fib s) := ⟨fun h => (nomatch h), fun _ => rfl⟩
theorem clauseWaitEnd (cell : Nat) (fib : Nat) : Statement (.clauseWaitEnd cell fib) := ⟨fun h => (nomatch h), fun _ => rfl⟩
theorem longLatencyComplete (op : Nat) (mask : Nat) : Statement (.longLatencyComplete op mask) := ⟨fun h => (nomatch h), fun _ => rfl⟩
theorem matrixFault (op : Nat) : Statement (.matrixFault op) := ⟨fun h => (nomatch h), fun _ => rfl⟩
theorem proofSnapshot (op : Nat) : Statement (.proofSnapshot op) := ⟨fun h => (nomatch h), fun _ => rfl⟩
theorem regroupTimeout (cluster : Nat) (quad : Nat) (entry : Nat) : Statement (.regroupTimeout cluster quad entry) := ⟨fun h => (nomatch h), fun _ => rfl⟩
theorem watchdog (cell : Nat) (fib : Nat) : Statement (.watchdog cell fib) := ⟨fun h => (nomatch h), fun _ => rfl⟩
theorem trapEntry (cell : Nat) (fib : Nat) : Statement (.trapEntry cell fib) := ⟨fun h => (nomatch h), fun _ => rfl⟩
theorem settleCommit (cell : Nat) : Statement (.settleCommit cell) := ⟨fun h => (nomatch h), fun _ => rfl⟩
theorem plateDispatch (launch : Nat) (die : Nat) : Statement (.plateDispatch launch die) := ⟨fun h => (nomatch h), fun _ => rfl⟩
theorem cellDispatch (launch : Nat) (die : Nat) : Statement (.cellDispatch launch die) := ⟨fun h => (nomatch h), fun _ => rfl⟩
theorem fairtExpiry (launch : Nat) (cell : Nat) : Statement (.fairtExpiry launch cell) := ⟨fun h => (nomatch h), fun _ => rfl⟩
theorem clusterSplitSwitch (cluster : Nat) : Statement (.clusterSplitSwitch cluster) := ⟨fun h => (nomatch h), fun _ => rfl⟩
theorem packetRead (q : Nat) : Statement (.packetRead q) := ⟨fun h => (nomatch h), fun _ => rfl⟩
theorem packetBarRelease (p : Nat) : Statement (.packetBarRelease p) := ⟨fun h => (nomatch h), fun _ => rfl⟩
theorem gridPacket (p : Nat) : Statement (.gridPacket p) := ⟨fun h => (nomatch h), fun _ => rfl⟩
theorem platePacket (p : Nat) : Statement (.platePacket p) := ⟨fun h => (nomatch h), fun _ => rfl⟩
theorem barrierPacket (p : Nat) : Statement (.barrierPacket p) := ⟨fun h => (nomatch h), fun _ => rfl⟩
theorem barrierSignalRead (p : Nat) (k : Nat) : Statement (.barrierSignalRead p k) := ⟨fun h => (nomatch h), fun _ => rfl⟩
theorem unplatePacket (p : Nat) : Statement (.unplatePacket p) := ⟨fun h => (nomatch h), fun _ => rfl⟩
theorem packetNop (p : Nat) : Statement (.packetNop p) := ⟨fun h => (nomatch h), fun _ => rfl⟩
theorem packetComplete (p : Nat) : Statement (.packetComplete p) := ⟨fun h => (nomatch h), fun _ => rfl⟩
theorem dvfsSettled (island : Nat) : Statement (.dvfsSettled island) := ⟨fun h => (nomatch h), fun _ => rfl⟩
theorem doorbellWrite (part : Nat) (fn : Nat) (off : Nat) (width : Nat) (val : BitVec 64) : Statement (.doorbellWrite part fn off width val) := ⟨fun h => (nomatch h), fun _ => rfl⟩
theorem queueRegister (part : Nat) : Statement (.queueRegister part) := ⟨fun h => (nomatch h), fun _ => rfl⟩
theorem queueUnregister (part : Nat) : Statement (.queueUnregister part) := ⟨fun h => (nomatch h), fun _ => rfl⟩
theorem queueClearAbort (part : Nat) : Statement (.queueClearAbort part) := ⟨fun h => (nomatch h), fun _ => rfl⟩
theorem chainRegister (part : Nat) : Statement (.chainRegister part) := ⟨fun h => (nomatch h), fun _ => rfl⟩
theorem chainUnregister (part : Nat) : Statement (.chainUnregister part) := ⟨fun h => (nomatch h), fun _ => rfl⟩
theorem queueCmdComplete (part : Nat) : Statement (.queueCmdComplete part) := ⟨fun h => (nomatch h), fun _ => rfl⟩
theorem memShoot (part : Nat) (fn : Nat) : Statement (.memShoot part fn) := ⟨fun h => (nomatch h), fun _ => rfl⟩
theorem shootComplete (part : Nat) (fn : Nat) : Statement (.shootComplete part fn) := ⟨fun h => (nomatch h), fun _ => rfl⟩
theorem frameRelease (part : Nat) (fn : Nat) : Statement (.frameRelease part fn) := ⟨fun h => (nomatch h), fun _ => rfl⟩
theorem frameReleaseComplete (part : Nat) (fn : Nat) : Statement (.frameReleaseComplete part fn) := ⟨fun h => (nomatch h), fun _ => rfl⟩
theorem arithStatusRc (cell : Nat) : Statement (.arithStatusRc cell) := ⟨fun h => (nomatch h), fun _ => rfl⟩
theorem mxStatusRc (quadrant : Nat) : Statement (.mxStatusRc quadrant) := ⟨fun h => (nomatch h), fun _ => rfl⟩
theorem ordPintoWrite (part : Nat) (v : Word) : Statement (.ordPintoWrite part v) := ⟨fun h => (nomatch h), fun _ => rfl⟩
theorem vfQuantumWrite (part : Nat) (v : Word) : Statement (.vfQuantumWrite part v) := ⟨fun h => (nomatch h), fun _ => rfl⟩
theorem vfReset (part : Nat) (fn : Nat) : Statement (.vfReset part fn) := ⟨fun h => (nomatch h), fun _ => rfl⟩
theorem pcieFunctionLevelReset (part : Nat) (fn : Nat) : Statement (.pcieFunctionLevelReset part fn) := ⟨fun h => (nomatch h), fun _ => rfl⟩
theorem functionResetComplete (part : Nat) (fn : Nat) : Statement (.functionResetComplete part fn) := ⟨fun h => (nomatch h), fun _ => rfl⟩
theorem collLoad (part : Nat) : Statement (.collLoad part) := ⟨fun h => (nomatch h), fun _ => rfl⟩
theorem collClear (part : Nat) : Statement (.collClear part) := ⟨fun h => (nomatch h), fun _ => rfl⟩
theorem photHeatWrite (part : Nat) (n : Nat) (v : Word) : Statement (.photHeatWrite part n v) := ⟨fun h => (nomatch h), fun _ => rfl⟩
theorem photMapWrite (part : Nat) (n : Nat) (v : Word) : Statement (.photMapWrite part n v) := ⟨fun h => (nomatch h), fun _ => rfl⟩
theorem photMpdSample (bank : Nat) (n : Nat) : Statement (.photMpdSample bank n) := ⟨fun h => (nomatch h), fun _ => rfl⟩
theorem sysregWrite (part : Nat) (off : Nat) (v : BitVec 64) : Statement (.sysregWrite part off v) := ⟨fun h => (nomatch h), fun _ => rfl⟩
theorem hotThreshold (port : Nat) (page : Nat) (src : Nat) (part : Nat) (fn : Nat) : Statement (.hotThreshold port page src part fn) := ⟨fun h => (nomatch h), fun _ => rfl⟩
theorem sliceExpiry (part : Nat) : Statement (.sliceExpiry part) := ⟨fun h => (nomatch h), fun _ => rfl⟩
theorem contextSwap (part : Nat) : Statement (.contextSwap part) := ⟨fun h => (nomatch h), fun _ => rfl⟩
theorem contextStaging (part : Nat) : Statement (.contextStaging part) := ⟨fun h => (nomatch h), fun _ => rfl⟩
theorem partFailure (p : Part) : Statement (.partFailure p) := ⟨fun h => (nomatch h), fun _ => rfl⟩
theorem poolDeviceLost (port : Nat) : Statement (.poolDeviceLost port) := ⟨fun h => (nomatch h), fun _ => rfl⟩
theorem islandStateChange (island : Nat) (m : IslandMode) : Statement (.islandStateChange island m) := ⟨fun h => (nomatch h), fun _ => rfl⟩
theorem currentThrottle : Statement (.currentThrottle) := ⟨fun h => (nomatch h), fun _ => rfl⟩
theorem currentStepUp : Statement (.currentStepUp) := ⟨fun h => (nomatch h), fun _ => rfl⟩
theorem thermalStepDown (die : Nat) : Statement (.thermalStepDown die) := ⟨fun h => (nomatch h), fun _ => rfl⟩
theorem thermalStepUp (die : Nat) : Statement (.thermalStepUp die) := ⟨fun h => (nomatch h), fun _ => rfl⟩
theorem thermalEmergency : Statement (.thermalEmergency) := ⟨fun h => (nomatch h), fun _ => rfl⟩
theorem thermtrip : Statement (.thermtrip) := ⟨fun h => (nomatch h), fun _ => rfl⟩
theorem powerUp : Statement (.powerUp) := ⟨fun h => (nomatch h), fun _ => rfl⟩
theorem attestationRequest (nonce : List Byte) : Statement (.attestationRequest nonce) := ⟨fun h => (nomatch h), fun _ => rfl⟩
theorem hostVaultAccess (part : Nat) (off : Nat) (write : Option (List Byte)) (len : Nat) : Statement (.hostVaultAccess part off write len) := ⟨fun h => (nomatch h), fun _ => rfl⟩
theorem hostLinkTraining (gts : Nat) (width : Nat) (cxlCache : Bool) : Statement (.hostLinkTraining gts width cxlCache) := ⟨fun h => (nomatch h), fun _ => rfl⟩
theorem hostSnoop (line : Nat) : Statement (.hostSnoop line) := ⟨fun h => (nomatch h), fun _ => rfl⟩
theorem powerDown : Statement (.powerDown) := ⟨fun h => (nomatch h), fun _ => rfl⟩
theorem partitionReset (part : Nat) : Statement (.partitionReset part) := ⟨fun h => (nomatch h), fun _ => rfl⟩

end Laws.Encoded

end Sys2Proof
end

