-- ==== Sys2Proof/Safety.lean ====
section
/-! DEFINITION. What a safe run is: no step of it ends in a fault or a refusal. -/

namespace Sys2Proof

/-- k steps from a state stay in the machine. -/
def SafeFor (s : Machine.State) (k : Nat) : Prop := ∃ t, core.run k s = .next t
/-- Every number of steps does. -/
def Safe (s : Machine.State) : Prop := ∀ k, SafeFor s k

end Sys2Proof
end

