-- ==== Sys2Proof/Tests/Slice0.lean ====
section
/-! SUPPORT. The model's own tests: words written out from the encoding tables, ill-formed terms, single steps against the
spec's own examples, and for each statement with hypotheses a state and operands that meet them. -/

open Sys2Proof Sys2Proof.Machine

set_option maxRecDepth 4000
set_option exponentiation.threshold 600

namespace Sys2Proof.Tests

/-! ### Words of each family (R108 to R130) -/

theorem test_decode_integer :
    decode 0x00000000 = .ok .nop
    ∧ decode 0x07A82887 = .ok (.iadd .z32sat (.slot 1 2) ⟨.x1, .w 5⟩ ⟨.none, .k 1⟩)
    ∧ decode 0x08802189 = .ok (.isub .b64 (.w 8) ⟨.none, .w 4⟩ ⟨.mir, .k 2⟩)
    ∧ decode 0x0C782884 = .ok (.imul .b32 (.w 7) ⟨.x1, .w 5⟩ ⟨.none, .k 1⟩)
    ∧ decode 0x10782885 = .ok (.imulh .z (.w 7) ⟨.x1, .w 5⟩ ⟨.none, .k 1⟩)
    ∧ decode 0x14682886 = .ok (.imad .z32 (.w 6) ⟨.x1, .w 5⟩ ⟨.none, .k 1⟩)
    ∧ decode 0x18782885 = .ok (.imin .z32 (.w 7) ⟨.x1, .w 5⟩ ⟨.none, .k 1⟩)
    ∧ decode 0x1C782884 = .ok (.imax .s32 (.w 7) ⟨.x1, .w 5⟩ ⟨.none, .k 1⟩)
    ∧ decode 0x60782885 = .ok (.idot4 .z (.w 7) ⟨.x1, .w 5⟩ ⟨.none, .k 1⟩)
    ∧ decode 0x4DA82885 = .ok (.icmp .z32 .lt 3 ⟨.x1, .w 5⟩ ⟨.none, .k 1⟩)
    ∧ decode 0x5C803417 = .ok (.lea 3 (.w 8) ⟨.none, .w 6⟩ ⟨.x1, .w 5⟩) := by
  and_intros <;> rfl
theorem test_decode_logic :
    decode 0x24782884 = .ok (.and .b32 (.w 7) ⟨.x1, .w 5⟩ ⟨.none, .k 1⟩)
    ∧ decode 0x28782884 = .ok (.or .b32 (.w 7) ⟨.x1, .w 5⟩ ⟨.none, .k 1⟩)
    ∧ decode 0x2C601011 = .ok (.xor .b64 (.w 6) ⟨.none, .w 2⟩ ⟨.none, .w 4⟩)
    ∧ decode 0x30782884 = .ok (.andn .b32 (.w 7) ⟨.x1, .w 5⟩ ⟨.none, .k 1⟩)
    ∧ decode 0x34782884 = .ok (.shl .b32 (.w 7) ⟨.x1, .w 5⟩ ⟨.none, .k 1⟩)
    ∧ decode 0x38782884 = .ok (.shr .b32 (.w 7) ⟨.x1, .w 5⟩ ⟨.none, .k 1⟩)
    ∧ decode 0x3C782884 = .ok (.sar .b32 (.w 7) ⟨.x1, .w 5⟩ ⟨.none, .k 1⟩)
    ∧ decode 0x40782800 = .ok (.popc .b32 (.w 7) ⟨.x1, .w 5⟩)
    ∧ decode 0x4070200C = .ok (.clz .b64 (.w 7) ⟨.none, .w 4⟩)
    ∧ decode 0x40782810 = .ok (.brev (.w 7) ⟨.x1, .w 5⟩)
    ∧ decode 0x40782814 = .ok (.iabs .b32 (.w 7) ⟨.x1, .w 5⟩)
    ∧ decode 0x44782885 = .ok (.bfx .s (.w 7) ⟨.x1, .w 5⟩ ⟨.none, .k 1⟩)
    ∧ decode 0x48782884 = .ok (.bfi (.w 7) ⟨.x1, .w 5⟩ ⟨.none, .k 1⟩) := by
  and_intros <;> rfl
theorem test_decode_move :
    decode 0x50782886 = .ok (.sel 2 (.w 7) ⟨.x1, .w 5⟩ ⟨.none, .k 1⟩)
    ∧ decode 0x54782800 = .ok (.mov .b32 (.w 7) ⟨.x1, .w 5⟩)
    ∧ decode 0x54082886 = .ok (.movKw ⟨.x1, .w 5⟩ ⟨.none, .k 1⟩)
    ∧ decode 0x54782803 = .ok (.movKr (.w 7) ⟨.x1, .w 5⟩)
    ∧ decode 0x58700501 = .ok (.movi .s (.w 7) 0xA0) := by
  and_intros <;> rfl
theorem test_decode_float :
    decode 0x64723709 = .ok (.fadd .bf16x2 (.w 7) ⟨.mir, .w 6⟩ ⟨.ext, .w 2⟩)
    ∧ decode 0x68723708 = .ok (.fsub .f32 (.w 7) ⟨.mir, .w 6⟩ ⟨.ext, .w 2⟩)
    ∧ decode 0x6C723709 = .ok (.fmul .bf16x2 (.w 7) ⟨.mir, .w 6⟩ ⟨.ext, .w 2⟩)
    ∧ decode 0x70723708 = .ok (.ffma .f32 (.w 7) ⟨.mir, .w 6⟩ ⟨.ext, .w 2⟩)
    ∧ decode 0x74723709 = .ok (.fmin .bf16x2 (.w 7) ⟨.mir, .w 6⟩ ⟨.ext, .w 2⟩)
    ∧ decode 0x78723708 = .ok (.fmax .f32 (.w 7) ⟨.mir, .w 6⟩ ⟨.ext, .w 2⟩)
    ∧ decode 0x7D623708 = .ok (.fcmp .un 2 ⟨.mir, .w 6⟩ ⟨.ext, .w 2⟩)
    ∧ decode 0x80723000 = .ok (.frcp (.w 7) ⟨.mir, .w 6⟩)
    ∧ decode 0x80723004 = .ok (.frsq (.w 7) ⟨.mir, .w 6⟩)
    ∧ decode 0x80723008 = .ok (.fsqrt (.w 7) ⟨.mir, .w 6⟩)
    ∧ decode 0x8072300C = .ok (.fexp2 (.w 7) ⟨.mir, .w 6⟩)
    ∧ decode 0x80723010 = .ok (.flog2 (.w 7) ⟨.mir, .w 6⟩)
    ∧ decode 0x80723020 = .ok (.frnd .up (.w 7) ⟨.mir, .w 6⟩)
    ∧ decode 0x84503005 = .ok (.fcvt .f2bh true (.w 5) ⟨.none, .w 6⟩)
    ∧ decode 0x88723708 = .ok (.fdot2 (.w 7) ⟨.mir, .w 6⟩ ⟨.ext, .w 2⟩)
    ∧ decode 0x8C702A61 = .ok (.qcvt 1 (.w 7) ⟨.none, .w 5⟩ 2 12)
    ∧ decode 0x90803A61 = .ok (.qdeq 1 (.w 8) ⟨.none, .w 7⟩ 2 12)
    ∧ decode 0x94600002 = .ok (.draw 2 (.w 6))
    ∧ decode 0x98723708 = .ok (.sample (.w 7) ⟨.mir, .w 6⟩ ⟨.ext, .w 2⟩)
    ∧ decode 0x9C723708 = .ok (.topk (.w 7) ⟨.mir, .w 6⟩ ⟨.ext, .w 2⟩) := by
  and_intros <;> rfl
theorem test_decode_memory :
    decode 0xA0713F4C = .ok (.ld .b16 .sys (.w 7) (.w 4) 0xFD)
    ∧ decode 0xA4810162 = .ok (.st .b128 .coh (.w 8) (.w 4) 5)
    ∧ decode 0xA8610058 = .ok (.ldx .b64 .plain (.w 6) (.w 4) 1)
    ∧ decode 0xACA68010 = .ok (.stc .b32 .plain (.w 10) (.w 26) 0)
    ∧ decode 0xB0710653 = .ok (.atom .mins32 false .dev (.w 7) (.w 4) (.w 6))
    ∧ decode 0xB0710608 = .ok (.atom .add32 true .plain (.w 7) (.w 4) (.w 6))
    ∧ decode 0xB4A10C13 = .ok (.cas .b64 .dev (.w 10) (.w 4) (.w 12))
    ∧ decode 0xB80106B8 = .ok (.red .addf32 true .plain (.w 4) (.w 6))
    ∧ decode 0xBC00001C = .ok (.fence true true .sys) := by
  and_intros <;> rfl
theorem test_decode_system :
    decode 0x20000501 = .ok (.trap 5)
    ∧ decode 0x20000002 = .ok .eret
    ∧ decode 0x20604003 = .ok (.mfs (.w 6) 0x040)
    ∧ decode 0x20708504 = .ok (.mts (.w 7) 0x085)
    ∧ decode 0x20800005 = .ok (.clk (.w 8))
    ∧ decode 0x20400006 = .ok (.spill (.w 4))
    ∧ decode 0x20400007 = .ok (.fill (.w 4))
    ∧ decode 0x20000508 = .ok (.bkpt 5)
    ∧ decode 0xC0900001 = .ok (.tbegin (.w 9))
    ∧ decode 0xC0000002 = .ok .tend
    ∧ decode 0xC2800003 = .ok (.tabort (.k 8)) := by
  and_intros <;> rfl
theorem test_decode_fibre :
    decode 0xC4928101 = .ok (.fenter (.w 9) (.w 10) 1)
    ∧ decode 0xC4000402 = .ok (.fleave 4)
    ∧ decode 0xC890C011 = .ok (.fld (.w 9) 3 none 17)
    ∧ decode 0xCE1285C8 = .ok (.fst (.k 1) 2 (some 5) 200)
    ∧ decode 0xD0918001 = .ok (.fork (.w 9) (.w 6))
    ∧ decode 0xD0000002 = .ok .quit
    ∧ decode 0xD0000003 = .ok .yield
    ∧ decode 0xD4C08001 = .ok (.ballot (.w 12) 2)
    ∧ decode 0xD4C28002 = .ok (.matchv (.w 12) (.w 10))
    ∧ decode 0xD4C28203 = .ok (.compact (.w 12) (.w 10) 2)
    ∧ decode 0xD4000004 = .ok .regroup
    ∧ decode 0xD8000001 = .ok .bar
    ∧ decode 0xD8000002 = .ok .cbar
    ∧ decode 0xD8000003 = .ok .reconv := by
  and_intros <;> rfl
theorem test_decode_matrix :
    decode 0xDC918A01 = .ok (.mdecl (.w 9) (.w 6) (.w 10))
    ∧ decode 0xDD328B02 = .ok (.mma 2 3 (.w 10) (.w 11))
    ∧ decode 0xDD328B12 = .ok (.mmaHold 2 3 (.w 10) (.w 11))
    ∧ decode 0xDC90CA03 = .ok (.mrd (.w 9) 3 (.w 10))
    ∧ decode 0xDC324A04 = .ok (.mwr 3 (.w 9) (.w 10))
    ∧ decode 0xDC318A05 = .ok (.mst 3 (.w 6) (.w 10))
    ∧ decode 0xDC300006 = .ok (.mzero 3) := by
  and_intros <;> rfl
theorem test_decode_plate :
    decode 0xE0A2C001 = .ok (.resid (.w 10) (.w 11))
    ∧ decode 0xE0000002 = .ok .settle
    ∧ decode 0xE0C10D03 = .ok (.proof (.w 12) (.w 4) (.w 13))
    ∧ decode 0xE2818004 = .ok (.sti (.k 8) (.w 6))
    ∧ decode 0xE0C28405 = .ok (.tqpush (.w 12) (.w 10) (.w 4))
    ∧ decode 0xE0C28B06 = .ok (.tqpop (.w 12) (.w 10) (.w 11))
    ∧ decode 0xE4320901 = .ok (.draft 3 (.w 8) (.w 9))
    ∧ decode 0xE4324002 = .ok (.accept 3 (.w 9))
    ∧ decode 0xE4300003 = .ok (.discard 3) := by
  and_intros <;> rfl
theorem test_decode_queue :
    decode 0xE8910C01 = .ok (.qpost (.w 9) (.w 4) (.w 12))
    ∧ decode 0xE8918C02 = .ok (.ecmd (.w 9) (.w 6) (.w 12))
    ∧ decode 0xE8018C03 = .ok (.ewait (.w 6) (.w 12))
    ∧ decode 0xE8018C04 = .ok (.sgnl (.w 6) (.w 12))
    ∧ decode 0xE8C10E05 = .ok (.waits (.w 12) (.w 4) (.w 14))
    ∧ decode 0xE8C10D06 = .ok (.gather (.w 12) (.w 4) (.w 13))
    ∧ decode 0xE8C10D07 = .ok (.scatter (.w 12) (.w 4) (.w 13))
    ∧ decode 0xE8018208 = .ok (.sdef 0 (.w 6) 2)
    ∧ decode 0xE8300009 = .ok (.sstop 3)
    ∧ decode 0xE832800A = .ok (.send 3 (.w 10))
    ∧ decode 0xE8B0C00B = .ok (.recv (.w 11) 3) := by
  and_intros <;> rfl
theorem test_decode_control :
    decode 0xF4010001 = .ok (.jmp (.w 4))
    ∧ decode 0xF4000002 = .ok .ret
    ∧ decode 0xEE7FFFF9 = .ok (.bra (.ifFalse 1) 0x3FFFF9)
    ∧ decode 0xF0C00028 = .ok (.call (.ifTrue 3) 40)
    ∧ decode 0xFA004FF0 = .ok (.clause 0x801 (some 3) none (.ifFalse 4))
    ∧ decode 0xFC000186 = .ok (.hintImm 0x186)
    ∧ decode 0xFC4000A8 = .ok (.hintPerm none (some ⟨.xor, 8⟩))
    ∧ decode 0xFC40F000 = .ok (.hintPerm (some ⟨.mirg, 16⟩) none)
    ∧ decode 0xFCADC000 = .ok (.hintMod .sr (some 3) true)
    ∧ decode 0xFCC00001 = .ok (.hintSched true) := by
  and_intros <;> rfl
/-- Each check of WellFormed refuses a term that breaks it. -/
theorem test_illFormed :
    [Instr.iadd .b32 (.k 0) ⟨.none, .w 0⟩ ⟨.none, .w 0⟩,       -- a uniform register as a destination (R111)
     .iadd .b64 (.w 7) ⟨.none, .w 4⟩ ⟨.none, .w 4⟩,            -- an odd pair as a destination (R112)
     .iadd .b64 (.w 8) ⟨.none, .w 5⟩ ⟨.none, .w 4⟩,            -- an odd pair as a source
     .iadd .b64 (.w 8) ⟨.none, .q 0⟩ ⟨.none, .w 4⟩,            -- a queue as a pair
     .imul .b64 (.w 8) ⟨.none, .w 4⟩ ⟨.none, .slot 0 0⟩,       -- a slot as a pair
     .imulh .s (.q 1) ⟨.none, .w 4⟩ ⟨.none, .w 4⟩,
     .imad .s32 (.w 5) ⟨.none, .w 4⟩ ⟨.none, .w 4⟩,
     .imin .s64 (.w 4) ⟨.none, .w 4⟩ ⟨.none, .w 3⟩,
     .and .b32 (.slot 0 0) ⟨.none, .w 4⟩ ⟨.none, .w 4⟩,        -- a logic destination is a window register
     .shl .b64 (.w 4) ⟨.none, .w 3⟩ ⟨.none, .w 4⟩,
     .popc .b32 (.slot 0 0) ⟨.none, .w 4⟩, .brev (.k 2) ⟨.none, .w 4⟩, .iabs .b64 (.w 3) ⟨.none, .w 4⟩,
     .bfx .z (.slot 2 3) ⟨.none, .w 4⟩ ⟨.none, .w 4⟩, .icmp .z64 .eq 0 ⟨.none, .w 4⟩ ⟨.none, .w 5⟩,
     .sel 0 (.k 1) ⟨.none, .w 4⟩ ⟨.none, .w 4⟩, .mov .b64 (.slot 0 0) ⟨.none, .w 4⟩, .movi .z (.q 0) 0,
     .lea 0 (.w 3) ⟨.none, .w 4⟩ ⟨.none, .w 4⟩, .fadd .f32 (.k 0) ⟨.none, .w 4⟩ ⟨.none, .w 4⟩,
     .frcp (.slot 0 0) ⟨.none, .w 4⟩, .fcvt .f2s true (.w 4) ⟨.none, .w 4⟩, .draw 0 (.q 0),
     .ld .b64 .plain (.w 5) (.w 4) 0, .ld .b128 .plain (.w 6) (.w 4) 0, .ld .b8 .plain (.slot 0 0) (.w 4) 0,
     .ld .b32 .plain (.w 6) (.w 5) 0, .st .b128 .plain (.k 4) (.w 4) 0, .st .b64 .plain (.q 2) (.w 4) 0,
     .atom .exch32 true .plain (.w 6) (.w 4) (.w 8), .atom .add64 false .plain (.w 5) (.w 4) (.w 8),
     .red .exch64 false .plain (.w 4) (.w 8), .cas .b64 .plain (.w 6) (.w 4) (.w 9), .fence false false .plain,
     .mfs (.w 4) 0x046, .mfs (.w 5) 0x080, .mts (.w 5) 0x070, .clk (.w 5), .spill (.w 5), .tbegin (.k 0),
     .fenter (.slot 0 0) (.w 4) 0, .fleave 0, .fld (.q 0) 1 none 0, .fork (.w 4) (.w 5), .ballot (.k 0) 1,
     .mdecl (.w 4) (.w 5) (.w 6), .mrd (.k 0) 0 (.w 4), .proof (.w 4) (.w 5) (.w 6), .sti (.w 4) (.w 5),
     .draft 0 (.w 5) (.w 6), .waits (.w 5) (.w 4) (.w 6), .sgnl (.w 4) (.w 7), .recv (.k 0) 0, .jmp (.w 5),
     .bra (.ifTrue 0) 0, .call (.ifFalse 0) 0, .clause 0 none none (.ifFalse 0),
     .hintPerm (some ⟨.rot, 0⟩) none, .hintPerm none (some ⟨.mirg, 3⟩), .hintMod .none none false].all (fun i => !i.wf) = true := by
  decide
/-- Words that no instruction has: a field that must be zero, a reserved value, an odd pair, an unassigned selector. -/
theorem test_reservedWords :
    decode 0x00000004 = .error .illegalInstruction ∧ decode 0xF8003340 = .error .illegalClause
    ∧ decode 0xF8003FE0 = .error .illegalClause ∧ decode 0x0470200D = .error .illegalInstruction
    ∧ decode 0xEE000000 = .error .illegalInstruction ∧ decode 0x20000009 = .error .illegalInstruction
    ∧ decode 0xFD000000 = .error .illegalInstruction ∧ decode 0xBC000000 = .error .illegalInstruction := by
  and_intros <;> rfl

/-! ### Small states -/


/-- One fibre of the physical function, in a clause that counts on f1 and f2, at the base of vault 0. -/
def fib (stack : SMap Word) : Fibre :=
  { idx := 0, pc := BitVec.ofNat 64 vaultBase, hatch := 2, lane := 0, sup := true, joinSet := [0], stack := stack
    place := { begun := true, fa := some 1, fb := some 2 } }
/-- Cell 1 with these fibres and 4 KiB of scratch, its hatch 2 about to issue. -/
def cellOf (fs : List Fibre) : Cell := { id := 1, fn := 64, fibres := fs, scratchSize := 4096 }
def st (c : Cell) (hints : List Instr := []) : State :=
  { State.reset with
    cells := [c]
    next := 3
    cur := { cell := 1, hatch := 2, first := BitVec.ofNat 64 vaultBase, at_ := BitVec.ofNat 64 (vaultBase + 4 * hints.length)
             hints := hints, opened := true } }
/-- w4 = 5, w5 = 7, w6 = 63, w7 = 48; w8:w9 = 4 KiB into vault 0; w10:w11 = 128 bytes into scratch; w12 = 128, w14:w15 = 9; w16:w17 = 2 MiB. -/
def regs : SMap Word := [(4, 5), (5, 7), (6, 63), (7, 48), (8, 0x1000), (9, 0x1000000), (10, 128), (11, 0x1800000), (12, 128), (14, 9), (16, 0x200000)]
def ts : State := st (cellOf [fib regs])

/-- The open group. -/
def grp (s : State) : Grp := s.grp?.getD ⟨{ id := 0 }, 0, [], [], 0, 0, [], false⟩
def canIssue (s : State) (k : Hints) : Bool :=
  s.grp? == some (grp s) && (grp s).members.all (·.place.begun) && hintsFit k (grp s).hints
def roomOk (s : State) : Bool :=
  let g := (grp s).refresh (passed s (grp s) true)
  !(grp s).members.any (fun f => decide (2 ≤ f.place.ll)) && !g.active.any (fun f => match f.llFlag with | some n => decide (15 ≤ f.flag n) | none => false)
def readsOk (s : State) (ll : Bool) (srcs : List Field) (v : List DWord) : Bool :=
  ((grp s).after s ll).active.all fun f => operands (passed s (grp s) ll) ((grp s).after s ll) f ((grp s).after s ll).pats srcs == .ok v
def quietOk (s : State) (cell : Nat) : Bool :=
  (s.cell? cell).all fun c => c.fibres.all fun f => !endsMore s c.cluster ⟨cell, f.idx⟩ f.status

theorem issues_of {s : State} {k : Hints} (h : canIssue s k = true) : Issues s (grp s) k := by
  simp only [canIssue, Bool.and_eq_true, beq_iff_eq] at h
  exact ⟨h.1.1, h.1.2, h.2⟩
theorem reads_of {s : State} {ll : Bool} {srcs : List Field} {v : List DWord} (h : readsOk s ll srcs v = true) :
    Reads s (grp s) ll srcs (fun _ => v) := fun f hf => by
  simpa using List.all_eq_true.1 h f hf
theorem room_of {s : State} (h : roomOk s = true) : RoomLL s (grp s) := by
  simp only [roomOk, Bool.and_eq_true, Bool.not_eq_true'] at h
  exact ⟨h.1, h.2⟩
theorem lanes_of {s : State} {k : Hints} {n : Fin 32} {srcs : List Field} {v : List DWord}
    (h : canIssue s k = true) (hr : readsOk s false srcs v = true) : Lanes s (grp s) k (.w n) srcs (fun _ => v) :=
  ⟨issues_of h, fun _ _ hd => (Name.noConfusion hd), reads_of hr⟩
theorem words_of {s : State} {k : Hints} {ll : Bool} {srcs : List Field} {v : List DWord}
    (h : canIssue s k = true) (hm : roomOk s = true) (hr : readsOk s ll srcs v = true) : Words s (grp s) k ll srcs (fun _ => v) :=
  ⟨issues_of h, fun _ => room_of hm, reads_of hr⟩
/-- A word that acts once reads v in each active lane. -/
def lowOk (s : State) (ll : Bool) (srcs : List (Field × Bool)) (v : List DWord) : Bool :=
  ((grp s).after s ll).active.all fun f =>
    operands (passed s (grp s) ll) ((grp s).after s ll) f ((grp s).after s ll).pats (lowFields ((grp s).after s ll) srcs f) == .ok v
theorem once_of {s : State} {k : Hints} {ll : Bool} {srcs : List (Field × Bool)} {v : List DWord}
    (h : canIssue s k = true) (hm : roomOk s = true) (hr : lowOk s ll srcs v = true) : Rules.Once s (grp s) k ll srcs (fun _ => v) :=
  ⟨issues_of h, fun _ => room_of hm, fun f hf => by simpa using List.all_eq_true.1 hr f hf⟩
theorem quiet_of {s : State} {c : Nat} (h : quietOk s c = true) : NoQuitDue s c := noQuitDue_of h

/-! ### Witnesses: states and operands that meet the hypotheses of the statements -/

def src (n : Name) : Src := ⟨.none, n⟩
def w4 : Src := src (.w 4)
def w5 : Src := src (.w 5)
def x8 : Src := src (.w 8)

/-- Two sources of 32 bits (IADD, ISUB, IMUL, IMULH, IMIN, IMAX, ICMP, the logic words, SEL, BFX, SHL, SHR, SAR, FMIN, FMAX, FCMP). -/
theorem witness_twoWords : Lanes ts (grp ts) (viHints [w4, w5]) (.w 0) [(w4, .b32), (w5, .b32)] (fun _ => [5, 7])
    ∧ NoQuitDue (lanesTo ts (grp ts) [.w 4, .w 5] fun l => written .b32 (l.popAll [.w 4, .w 5]) (.w 0) (Rules.sum .b32 false 5 7)) 1 :=
  ⟨lanes_of (by decide) (by decide), quiet_of (by decide)⟩
/-- Two pairs (the 64-bit forms of the same words). -/
theorem witness_twoPairs : Lanes ts (grp ts) (viHints [x8, w4]) (.w 30) [(x8, .b64), (w4, .b64)]
    (fun _ => [0x0100000000001000, 0x700000005])
    ∧ NoQuitDue (lanesTo ts (grp ts) [.w 8, .w 4] fun l => written .b64 (l.popAll [.w 8, .w 4]) (.w 30) (Rules.sum .b64 true 5 7)) 1 :=
  ⟨lanes_of (by decide) (by decide), quiet_of (by decide)⟩
/-- A pair and a word (LEA, the 64-bit shifts). -/
theorem witness_pairAndWord :
    Lanes ts (grp ts) (viHints [x8, w5]) (.w 20) [(x8, .b64), (w5, .b32)] (fun _ => [0x0100000000001000, 7]) :=
  lanes_of (by decide) (by decide)
/-- One source of 32 or 64 bits (MOV, POPC, CLZ, BREV, IABS, FRND, FCVT of a value); MOV from k reads the last register, k63. -/
theorem witness_oneSource : Lanes ts (grp ts) (viHints [w4]) (.w 20) [(w4, .b32)] (fun _ => [5])
    ∧ Lanes ts (grp ts) (viHints [x8]) (.w 20) [(x8, .b64)] (fun _ => [0x0100000000001000])
    ∧ Lanes ts (grp ts) (viHints [src (.w 6)]) (.w 20) [(src (.w 6), .b32)] (fun _ => [63])
    ∧ ∀ l ∈ ((grp ts).after ts false).active, (loWord 63).toNat ≤ 63 :=
  ⟨lanes_of (by decide) (by decide), lanes_of (by decide) (by decide), lanes_of (by decide) (by decide), fun _ _ => by decide⟩
/-- A destination that is read with the sources (IMAD of 32 and 64 bits, IDOT4, BFI, FFMA, FDOT2). -/
theorem witness_accumulate :
    Lanes ts (grp ts) (viHints [w4, w5]) (.w 12) [(w4, .b32), (w5, .b32), plainSrc (.w 12) .b32] (fun _ => [5, 7, 128])
    ∧ Lanes ts (grp ts) (viHints [w4, w5]) (.w 14) [(w4, .b32), (w5, .b32), plainSrc (.w 14) .b64] (fun _ => [5, 7, 9]) :=
  ⟨lanes_of (by decide) (by decide), lanes_of (by decide) (by decide)⟩
/-- MOV to k with the lowest and the highest index that it admits. -/
theorem witness_movToUniform :
    Lanes ts (grp ts) (viHints [w4, src (.w 7)]) (.w 0) [(w4, .b32), (src (.w 7), .b32)] (fun _ => [5, 48])
    ∧ Lanes ts (grp ts) (viHints [w4, src (.w 6)]) (.w 0) [(w4, .b32), (src (.w 6), .b32)] (fun _ => [5, 63])
    ∧ 48 ≤ (loWord 48).toNat ∧ (loWord 63).toNat ≤ 63 :=
  ⟨lanes_of (by decide) (by decide), lanes_of (by decide) (by decide), by decide, by decide⟩
/-- MOVI with and without HINT.IMM, and MOVI.hi, which reads its destination. -/
theorem witness_movi :
    Lanes ts (grp ts) { vi := true, imm := true } (.w 12) [] (fun _ => [])
    ∧ (let s := st (cellOf [fib regs]) [.hintImm 0x2ABBCC]
       Lanes s (grp s) { vi := true, imm := true } (.w 12) [] (fun _ => []) ∧ ((grp s).after s false).imm = some 0x2ABBCC)
    ∧ Lanes ts (grp ts) { vi := true } (.w 12) [plainSrc (.w 12) .b32] (fun _ => [128]) :=
  ⟨lanes_of (by decide) (by decide), ⟨lanes_of (by decide) (by decide), by decide⟩, lanes_of (by decide) (by decide)⟩
/-- A frame of 4 slots in scratch at depth 1, named as source and as destination. -/
def frameFib : Fibre := { fib regs with disp := [(1, mkDesc 0 0 4 (scratchBase + 256))] }
def frameState : State := st (cellOf [frameFib])
theorem witness_slots :
    Lanes frameState (grp frameState) (viHints [src (.slot 0 1), w5]) (.slot 0 3) [(src (.slot 0 1), .b32), (w5, .b32)] (fun _ => [0, 7]) :=
  ⟨issues_of (by decide), fun dep m h f hf => by
    obtain ⟨rfl, rfl⟩ := Name.slot.inj h
    revert f; decide, reads_of (by decide)⟩
/-- HINT.PERM with an extended permutation, an absent lane reading zero; HINT.MOD with a rounding mode on a float word. -/
theorem witness_hints :
    (let s := st (cellOf [fib regs]) [.hintPerm none (some ⟨.xor, 8⟩)]
     Lanes s (grp s) (viHints [w4, ⟨.ext, .w 5⟩]) (.w 12) [(w4, .b32), (⟨.ext, .w 5⟩, .b32)] (fun _ => [5, 0]))
    ∧ (let s := st (cellOf [fib regs]) [.hintMod .sr none false]
       Lanes s (grp s) { perm := [w4, w5], vi := true, rnd := true } (.w 12) [(w4, .b32), (w5, .b32)] (fun _ => [5, 7]) ∧ Rules.mode s (grp s) = .sr) :=
  ⟨lanes_of (by decide) (by decide), lanes_of (by decide) (by decide), by decide⟩
/-- The float words: plain, with the destination read, QCVT and QDEQ, FCVT to a half, DRAW. -/
theorem witness_float :
    Lanes ts (grp ts) { perm := [w4, w5], vi := true, rnd := true } (.w 12) [(w4, .b32), (w5, .b32)] (fun _ => [5, 7])
    ∧ Lanes ts (grp ts) { perm := [w4, w5], vi := true, rnd := true } (.w 12) [(w4, .b32), (w5, .b32), plainSrc (.w 12) .b32] (fun _ => [5, 7, 128])
    ∧ Lanes ts (grp ts) { perm := [w4], vi := true, rnd := true } (.w 12) [(w4, .b32), plainSrc (.w 12) .b32] (fun _ => [5, 128])
    ∧ Lanes ts (grp ts) { perm := [w4], vi := true, rnd := false } (.w 12) [(w4, .b32)] (fun _ => [5])
    ∧ Lanes ts (grp ts) (viHints [w4]) (.w 12) [(w4, .b32), plainSrc (.w 5) .b32, plainSrc (.w 12) .b32] (fun _ => [5, 7, 128])
    ∧ Lanes ts (grp ts) (viHints [w4]) (.w 12) [(w4, .b32), plainSrc (.w 5) .b32] (fun _ => [5, 7])
    ∧ Lanes ts (grp ts) { vi := true } (.w 12) [] (fun _ => []) := by
  refine ⟨?_, ?_, ?_, ?_, ?_, ?_, ?_⟩ <;> exact lanes_of (by decide) (by decide)
/-- NaN operands of FMIN and FMAX in each place, and none. -/
theorem witness_nans : isNan 0x7FC00001 = true ∧ isNan 0xFF800001 = true ∧ isNan 0x7F800000 = false ∧ isNan 0 = false := by decide
/-- The words that read one source and become pending; BALLOT, NOP, CLK, SSTOP, which only issue; MATCH, COMPACT; TOPK, SAMPLE. -/
theorem witness_issue : Issues ts (grp ts) {} ∧ Words ts (grp ts) (viHints [w4]) true [(w4, .b32)] (fun _ => [5])
    ∧ Words ts (grp ts) {} false [plainSrc (.w 4) .b32] (fun _ => [5])
    ∧ Words ts (grp ts) (viHints [w4, w5]) false [(w4, .b32), (w5, .b32)] (fun _ => [5, 7]) :=
  ⟨issues_of (by decide), words_of (by decide) (by decide) (by decide), words_of (by decide) (by decide) (by decide),
   words_of (by decide) (by decide) (by decide)⟩
/-- FLD and FST of the last slot of a frame; a lane without a frame, a slot past the size. -/
theorem witness_frameWords : Issues frameState (grp frameState) {}
    ∧ Lanes frameState (grp frameState) {} (.w 0) [plainSrc (.w 4) .b32] (fun _ => [5])
    ∧ (∀ l ∈ ((grp frameState).after frameState false).active, readSlot frameState (grp frameState).cell l 1 (fldSlot l none 3) = .ok 0
      ∧ checkSlot l 1 (fldSlot l none 3) = none ∧ frameState.acqPending ⟨1, l.idx⟩ = false ∧ frameState.recordFull ⟨1, l.idx⟩ = false)
    ∧ (fib regs).desc 1 = none ∧ (frameFib.desc 1).map (fun d => (d.size, d.plc)) = some (3, 0)
    ∧ ((({ fib [] with disp := [(2, mkDesc 2 0 4 0x10000)] } : Fibre).desc 2).map (·.plc)) = some 2 := by
  refine ⟨issues_of (by decide), lanes_of (by decide) (by decide), by decide, by decide, by decide, by decide⟩
/-- Acting lane by lane with op on values v ends in a state where no fibre is at the end of a QUIT. -/
def runOk (s : State) (ll : Bool) (names : List Name) (v : List DWord) (op : Grp → State → Fibre → List DWord → State × Option Trap) : Bool :=
  match laneRun 1 (op ((grp s).read s ll names)) (readTo s (grp s) ll names) (readVals s (grp s) ll names fun _ => v) with
  | some u => quietOk u 1
  | none => false
def noTx (s : State) (ll : Bool) : Bool := ((grp s).after s ll).active.all fun f => f.tx == none
theorem noTx_of {s : State} {ll : Bool} (h : noTx s ll = true) : NoTx s (grp s) ll := fun f hf => by simpa using List.all_eq_true.1 h f hf
/-- The conditions of a Runs statement, on the values v. -/
def CanRun (s : State) (k : Hints) (ll : Bool) (srcs : List Field) (v : List DWord) (op : Grp → State → Fibre → List DWord → State × Option Trap) : Prop :=
  NoTx s (grp s) ll ∧ Words s (grp s) k ll srcs (fun _ => v) ∧ runOk s ll (srcs.map (·.1.name)) v op = true
theorem canRun_of {s : State} {k : Hints} {ll : Bool} {srcs : List Field} {v : List DWord} {op : Grp → State → Fibre → List DWord → State × Option Trap}
    (h1 : noTx s ll = true) (h2 : canIssue s k = true) (h3 : roomOk s = true) (h4 : readsOk s ll srcs v = true)
    (h5 : runOk s ll (srcs.map (·.1.name)) v op = true) : CanRun s k ll srcs v op := ⟨noTx_of h1, words_of h2 h3 h4, h5⟩

def va : DWord := 0x0100000000001000
def sa : DWord := 0x0180000000000080
def v8 : Field := plainSrc (.w 8) .b64
def s10 : Field := plainSrc (.w 10) .b64
def r4 : Field := plainSrc (.w 4) .b32
def r5 : Field := plainSrc (.w 5) .b32
def mem1 : Hints := { imm := true, cache := true }
def mem2 : Hints := { cache := true }

/-- LD and LDX at the least and the greatest offset. -/
theorem witness_loads :
    CanRun ts mem1 true [v8] [va] (fun g s f vs => loadLane 1 .plain 20 g (memAddr (vs.getD 0 0) 0x80 none 1 0) s f)
    ∧ CanRun ts mem1 true [v8] [va] (fun g s f vs => loadLane 16 .sys 20 g (memAddr (vs.getD 0 0) 0x7F none 16 0) s f)
    ∧ CanRun ts mem2 true [v8] [va] (fun g s f vs => loadLane 8 .coh 20 g (memAddr (vs.getD 0 0) 0 none 8 0) s f)
    ∧ txWaits (readTo ts (grp ts) true [.w 8]) ((grp ts).read ts true [.w 8]) [(fib regs, va.toNat)] 16 = false :=
  ⟨canRun_of (by decide) (by decide) (by decide) (by decide) (by decide), canRun_of (by decide) (by decide) (by decide) (by decide) (by decide),
   canRun_of (by decide) (by decide) (by decide) (by decide) (by decide), by decide⟩
/-- ST of 4 and 16 bytes, and STC. -/
theorem witness_stores :
    CanRun ts mem1 false [v8, r4] [va, 5] (fun g s f vs => storeLane 4 .dev false g (memAddr (vs.getD 0 0) 1 none 4 0) (storeData 4 vs) s f)
    ∧ CanRun ts mem1 false (v8 :: (List.range 4).map fun i => plainSrc (.w (Fin.ofNat 32 (4 + i))) .b32) [va, 5, 7, 63, 48]
      (fun g s f vs => storeLane 16 .plain false g (memAddr (vs.getD 0 0) 0 none 16 0) (storeData 16 vs) s f)
    ∧ CanRun ts mem2 false [s10, plainSrc (.w 14) .b64] [sa, 9] (fun g s f vs => storeLane 8 .plain true g (memAddr (vs.getD 0 0) 0 none 8 0) (storeData 8 vs) s f)
    ∧ ts.acqPending ⟨1, 0⟩ = false :=
  ⟨canRun_of (by decide) (by decide) (by decide) (by decide) (by decide), canRun_of (by decide) (by decide) (by decide) (by decide) (by decide),
   canRun_of (by decide) (by decide) (by decide) (by decide) (by decide), by decide⟩
/-- ATOM, CAS, RED, SGNL, STI. -/
theorem witness_atomics :
    CanRun ts mem2 true [v8, r4] [va, 5] (fun g s f vs => atomLane (.atom .add32) 4 true .dev (some 20) g (vs.getD 0 0).toNat (bytesOfNat 4 (vs.getD 1 0).toNat) s f)
    ∧ CanRun ts mem2 true [v8, r4, r5] [va, 5, 7] (fun g s f vs =>
      atomLane (.cas (vs.getD 2 0).toNat) 4 false .coh (some 5) g (vs.getD 0 0).toNat (bytesOfNat 4 (vs.getD 1 0).toNat) s f)
    ∧ CanRun ts mem2 false [v8, r4] [va, 5] (fun g s f vs => atomLane (.red .addf32) 4 true .plain none g (vs.getD 0 0).toNat (bytesOfNat 4 (vs.getD 1 0).toNat) s f)
    ∧ CanRun ts {} false [v8, plainSrc (.w 14) .b64] [va, 9] (fun g s f vs => atomLane .sgnl 8 false .dev none g (vs.getD 0 0).toNat (bytesOfNat 8 (vs.getD 1 0).toNat) s f)
    ∧ CanRun ts {} false [v8, r4] [va, 5] (fun g s f vs => stiLane g (vs.getD 0 0).toNat (loWord (vs.getD 1 0)) s f) :=
  ⟨canRun_of (by decide) (by decide) (by decide) (by decide) (by decide), canRun_of (by decide) (by decide) (by decide) (by decide) (by decide),
   canRun_of (by decide) (by decide) (by decide) (by decide) (by decide), canRun_of (by decide) (by decide) (by decide) (by decide) (by decide),
   canRun_of (by decide) (by decide) (by decide) (by decide) (by decide)⟩
/-- FENCE with a store in flight that it covers and nothing refused; the same state has a QUIT, a SETTLE and a CBAR whose fibre waits. -/
def storeAcc : Acc :=
  { id := 9, owner := ⟨1, 0⟩, part := 0, fn := 64, asid := 0, cluster := 0, quad := 0, sup := true, kind := .store, va := vaultBase + 0x1000, len := 4
    data := [1, 2, 3, 4], ord := .plain, members := [(9, [])] }
def storing : State := { ts with accs := [storeAcc], next := 10 }
theorem witness_fence : Issues storing (grp storing) {} ∧ NoTx storing (grp storing) false
    ∧ (∀ l ∈ ((grp storing).after storing false).active, ∀ a ∈ storing.accs, a.of ⟨1, l.idx⟩ = true → ∀ c, a.stage ≠ .refused c)
    ∧ (∀ l ∈ ((grp storing).after storing false).active, ∀ o ∈ storing.ops, o.fibres.any (·.1 == ⟨1, l.idx⟩) = true → o.refused = none) := by
  refine ⟨issues_of (by decide), noTx_of (by decide), ?_, ?_⟩
  · intro l _ a ha _ c
    rw [List.mem_singleton.1 ha]; exact Stage.noConfusion
  · intro l _ o ho; cases ho
/-- GATHER, SCATTER of a list of 5 words whose header says elements of 4 bytes; SDEF of an empty stream. -/
def listState : State := { ts with mem := [(vaultBase + 0x100C, 2)] }
theorem witness_lists :
    CanRun listState mem2 true [plainSrc (.w 12) .b32, v8, r4] [128, va, 5] (fun g s f vs =>
      listLane true g (loWord (vs.getD 0 0)).toNat (vs.getD 1 0).toNat (loWord (vs.getD 2 0)).toNat s f)
    ∧ CanRun listState mem2 true [plainSrc (.w 12) .b32, v8, r4] [128, va, 5] (fun g s f vs =>
      listLane false g (loWord (vs.getD 0 0)).toNat (vs.getD 1 0).toNat (loWord (vs.getD 2 0)).toNat s f)
    ∧ CanRun ts {} false [v8] [va] (fun g s f vs => sdefLane 3 11 g (vs.getD 0 0).toNat s f)
    ∧ listState.acqPending ⟨1, 0⟩ = false ∧ listState.ownPosted ⟨1, 0⟩ va.toNat 32 = false
    ∧ heldBack listState [] 0 64 va.toNat 52 = false ∧ heldBack ts [] 0 64 va.toNat 32 = false :=
  ⟨canRun_of (by decide) (by decide) (by decide) (by decide) (by decide), canRun_of (by decide) (by decide) (by decide) (by decide) (by decide),
   canRun_of (by decide) (by decide) (by decide) (by decide) (by decide), by decide, by decide, by decide, by decide⟩
/-- The clauses of the address checks at their boundaries. -/
def hit (a w : Nat) : Option Cause := (checkAddr ts (cellOf []) a w 1 false).map (·.cause)
theorem witness_addresses :
    hit (2 ^ 57) 1 = some .illegalAddress ∧ hit (2 ^ 57 - 1) 1 = some .illegalAddress
    ∧ hit (vaultBase + 192 * vaultSize) 4 = some .illegalAddress ∧ hit (scratchBase - 1) 1 = some .illegalAddress
    ∧ hit (vaultBase + 192 * vaultSize - 4) 4 = none ∧ hit (vaultBase - 1) 1 = none ∧ hit (vaultBase - 1) 2 = some .misaligned
    ∧ hit vaultBase 8 = none ∧ hit (vaultBase + 4) 8 = some .misaligned ∧ hit 0 4 = none
    ∧ hit scratchBase 16 = none ∧ hit (scratchBase + 4092) 4 = none ∧ hit (scratchBase + 4096) 4 = some .illegalAddress
    ∧ hit (scratchBase + 0xA0000) 4 = some .illegalAddress ∧ hit (scratchBase + 0x9FFFC) 4 = some .illegalAddress
    ∧ (checkAddr ts (cellOf []) scratchBase 4 1 true).map (·.cause) = some .illegalAddress
    ∧ (checkAddr ts { cellOf [] with part := 1 } vaultBase 4 1 false).map (·.cause) = some .protectionFault
    ∧ window vaultBase ≠ none ∧ (0 : Nat) < 32 ∧ memAddr va 0xFF none 16 0 = va.toNat - 16 ∧ memAddr 0 0xFF none 1 0 = 2 ^ 64 - 1
    ∧ memAddr va 0 (some 0x200000) 1 31 = va.toNat + 31 - 2 ^ 29 := by decide
/-- The lanes of loads, stores and atomics: a passed check and a failed one, in scratch and out of it, outside a transaction. -/
theorem witness_lanes : ts.cell? (grp ts).cell.id = some (cellOf [fib regs])
    ∧ checkAddr ts (cellOf [fib regs]) va.toNat 4 1 false = none ∧ checkAddr ts (cellOf [fib regs]) va.toNat 4 3 true = none
    ∧ checkAddr ts (cellOf [fib regs]) sa.toNat 4 2 false = none ∧ scratchBase ≤ sa.toNat ∧ va.toNat < scratchBase
    ∧ checkAddr ts (cellOf [fib regs]) 1 4 2 false = some { cause := .misaligned, detail := 2, faddr := 1 }
    ∧ (fib regs).tx = none ∧ ts.refusedStores ⟨1, 0⟩ = [] ∧ parkDue ts ⟨1, 0⟩ .stores = none ∧ inDraft (cellOf [fib regs]) va.toNat = false := by decide
/-! Clauses, control transfers, exceptions, special registers -/

def stF (f : Fibre) (hints : List Instr := []) : State := st (cellOf [f]) hints

theorem witness_transfers : Issues ts (grp ts) {} ∧ Reads ts (grp ts) false [v8] (fun _ => [va]) ∧ va.toNat % 4 = 0
    ∧ (∀ m ∈ ((grp ts).after ts false).active, condHolds (.ifTrue 0) m = true ∧ m.base ≠ 96)
    ∧ (let s := stF { fib regs with base := 24 }
       Issues s (grp s) {} ∧ ∀ m ∈ ((grp s).after s false).active, m.base ≠ 0 ∧ m.handler = none) :=
  ⟨issues_of (by decide), reads_of (by decide), by decide, by decide, issues_of (by decide), by decide⟩
/-- A CALL and a RET at the last and the first window, and at the window where a handler began; a stack in its form. -/
def handler : Handler := { record := vaultBase + 0x2000, trapBase := 24, place := {}, mode := false, flags := [], owed := [] }
theorem witness_windows : ({ fib [] with base := 96 } : Fibre).base = 96 ∧ ({ fib [] with base := 72 } : Fibre).base ≠ 96
    ∧ (fib []).base = 0 ∧ ({ fib [] with base := 24, handler := some handler } : Fibre).handler = some handler ∧ handler.trapBase = 24
    ∧ swf (0 : Word) regs = true := by decide
/-- CLAUSE with its flags zero and not, after a hint, and on a group with nothing refused; an implicit clause in both cases. -/
def flagFib : Fibre := { fib regs with flags := [(11, 1)], place := {} }
theorem witness_clauses :
    (let s := stF { fib regs with place := {} }
     s.grp? = some (grp s) ∧ (grp s).hints = [] ∧ (∀ m ∈ (grp s).members, parkDue s ⟨1, m.idx⟩ (.clause 0xFFF) = none)
      ∧ (∀ m ∈ (grp s).members, m.place.begun = false ∧ m.flagsClear 0xFFF = true))
    ∧ (let s := stF flagFib
       s.grp? = some (grp s) ∧ (grp s).hints = [] ∧ (∀ m ∈ (grp s).members, parkDue s ⟨1, m.idx⟩ (.clause 0x800) = none ∧ m.place.begun = false)
        ∧ (∃ m ∈ (grp s).members, m.flagsClear 0x800 = false) ∧ ∃ m ∈ (grp s).members, m.flagsClear 0xFFF = false)
    ∧ (let s := stF (fib regs) [.hintSched true]
       s.grp? = some (grp s) ∧ (grp s).hints ≠ []) := by decide
/-- A hint of a kind that the group has not and has; between clauses, see witness_clauses. -/
theorem witness_hintWords : ts.grp? = some (grp ts) ∧ (grp ts).hints.any (fun | .hintSched _ => true | _ => false) = false
    ∧ (grp ts).members.all (·.place.begun) = true
    ∧ (let s := stF (fib regs) [.hintSched true]
       s.grp? = some (grp s) ∧ (grp s).hints.any (fun | .hintSched _ => true | _ => false) = true) := by decide
/-- A user's group, a clause with two long-latency words, hints that no word of X format takes. -/
theorem witness_groupTraps :
    (let s := stF { fib regs with sup := false }
     s.grp? = some (grp s) ∧ (grp s).members.all (·.place.begun) = true ∧ hintsFit {} (grp s).hints = true ∧ (grp s).members.any (fun f => !f.sup) = true)
    ∧ (let s := stF { fib regs with place := { begun := true, ll := 2 } }
       s.grp? = some (grp s) ∧ (grp s).members.any (fun f => decide (2 ≤ f.place.ll)) = true ∧ hintsFit {} (grp s).hints = true
        ∧ hintsFit { perm := [w4], vi := true } (grp s).hints = true ∧ hintsFit { imm := true, cache := true } (grp s).hints = true)
    ∧ (let s := stF (fib regs) [.hintImm 1]
       s.grp? = some (grp s) ∧ hintsFit {} (grp s).hints = false) ∧ tenantReg 0x040 = false := by decide
/-- A user's fibre in a partition whose handler and save area are set: TRAP and BKPT; entering the handler. -/
def trapState : State := { stF { fib regs with sup := false } with
  parts := [{ id := 0, islands := List.range 16, trapVec := 0x0100000000000400, trapSave := 0x10 }] }
theorem witness_traps : Issues trapState (grp trapState) {} ∧ ((grp trapState).after trapState false).active ≠ []
    ∧ (∃ p, trapState.part? 0 = some p) ∧ trapState.cell? 1 = some (cellOf [{ fib regs with sup := false }])
    ∧ (cellOf [{ fib regs with sup := false }]).fibre? 0 = some { fib regs with sup := false } ∧ canVector trapState (cellOf []) { fib regs with sup := false } = true :=
  ⟨issues_of (by decide), by decide, ⟨_, rfl⟩, rfl, rfl, by decide⟩
/-- A fibre in its handler, with nothing refused and a store owed: ERET; SPILL and FILL. -/
def handlerFib : Fibre := { fib regs with base := 24, handler := some handler, spilled := 1 }
def handlerState : State := stF { handlerFib with stack := regs.map fun x => (x.1 + 24, x.2) }
theorem witness_eret : Issues handlerState (grp handlerState) {} ∧ (∀ m ∈ (grp handlerState).members, m.sup = true)
    ∧ (∀ l ∈ ((grp handlerState).after handlerState false).active, l.handler = some handler ∧ eretReady handlerState ⟨1, l.idx⟩ handler = true)
    ∧ handlerState.refusedStores ⟨1, 0⟩ = [] ∧ (handlerState.fibre? ⟨1, 0⟩).map (·.handler) = some (some handler) :=
  ⟨issues_of (by decide), by decide, by decide, by decide, by decide⟩

theorem witness_spill :
    CanRun handlerState {} false [s10] [sa] (fun g s f vs => spillLane g (vs.getD 0 0).toNat s f)
    ∧ CanRun handlerState {} false [s10] [sa] (fun g s f vs => fillLane g (vs.getD 0 0).toNat s f)
    ∧ CanRun handlerState {} false [v8] [va] (fun g s f vs => spillLane g (vs.getD 0 0).toNat s f)
    ∧ (handlerState.acqPending ⟨1, 0⟩ = false ∧ handlerState.ownPosted ⟨1, 0⟩ va.toNat 128 = false ∧ handlerState.ownReads ⟨1, 0⟩ va.toNat 128 = false) ∧ (heldBack handlerState [] 0 64 va.toNat 128 = false)
    ∧ (∀ l ∈ ((grp handlerState).after handlerState false).active, ((handlerState.fibre? ⟨1, l.idx⟩).map (·.handler.isSome)) = some true)
    ∧ sa.toNat = scratchBase + 128 ∧ sa.toNat % 128 = 0 ∧ 128 + 128 ≤ (grp handlerState).cell.scratchSize
    ∧ ((fib []).handler = none) ∧ handler.trapBase ≠ 0 ∧ (0x9FF80 : Nat) < 0xA0000 ∧ 0 % 128 = 0 ∧ 0 + 128 ≤ (cellOf []).scratchSize := by
  refine ⟨?_, ?_, canRun_of (by decide) (by decide) (by decide) (by decide) (by decide), by decide, rfl, by decide⟩
  · exact canRun_of (by decide) (by decide) (by decide) (by decide) (by decide)
  · exact canRun_of (by decide) (by decide) (by decide) (by decide) (by decide)
/-- MFS of a tenant's register in user mode and of others in supervisor mode; MTS; commands in progress and none. -/
theorem witness_registers :
    Issues trapState (grp trapState) {} ∧ tenantReg 0x011 = true ∧ SlotFits trapState (grp trapState) (.w 4)
    ∧ (∀ m ∈ (grp ts).members, m.sup = true) ∧ photReg 0x13F = true ∧ photReg 0x140 = false
    ∧ granted { ts with parts := [{ id := 0, islands := List.range 16, grant := true }] } 0 = true
    ∧ Words ts (grp ts) {} false [r4] (fun _ => [5]) ∧ (∀ m ∈ ((grp ts).after ts false).members, m.wrote = false)
    ∧ (∃ u, mtsLanes 0x083 ((grp ts).after ts false) (passed ts (grp ts) false) (readTo ts (grp ts) false [.w 4])
        (readVals ts (grp ts) false [.w 4] fun _ => [5]) = (u, false, false))
    ∧ (∃ p, ts.part? 0 = some p ∧ p.queueBusy = false ∧ p.collBusy = false) ∧ (∃ k, ts.fn? 0 64 = some k ∧ k.shootBusy = false)
    ∧ (let s := { ts with parts := [{ id := 0, islands := [0], queueBusy := true, collBusy := true }], fns := [{ part := 0, num := 64, shootBusy := true, relBusy := true }] }
       ∃ p k, s.part? 0 = some p ∧ s.fn? 0 64 = some k ∧ p.queueBusy = true ∧ p.collBusy = true ∧ k.shootBusy = true ∧ k.relBusy = true) := by
  refine ⟨issues_of (by decide), by decide, fun _ _ h => Name.noConfusion h, by decide, by decide, by decide, by decide,
    words_of (by decide) (by decide) (by decide), by decide, ⟨_, rfl⟩, ⟨_, rfl, rfl, rfl⟩, ⟨_, rfl, rfl⟩, ⟨_, _, rfl, rfl, rfl, rfl, rfl, rfl⟩⟩
/-- Transactions: none open, one at the deepest nest that may nest again, one that commits. -/
def tx (n : Nat) : Tx := { resume := 0x0100000000000100, dst := 9, nest := n, reads := [], writes := [(vaultBase + 0x1000, 1)] }
def txState (n : Nat) : State := stF { fib regs with tx := some (tx n) }
theorem witness_tx : Issues ts (grp ts) {} ∧ (∀ l ∈ ((grp ts).after ts false).active, l.tx = none)
    ∧ Issues (txState 254) (grp (txState 254)) {} ∧ (∀ l ∈ ((grp (txState 254)).after (txState 254) false).active, l.tx = some (tx 254) ∧ (tx 254).nest < 255)
    ∧ Issues (txState 255) (grp (txState 255)) {} ∧ (((grp (txState 255)).after (txState 255) false).active.all fun l => l.tx.any fun x => decide (255 ≤ x.nest)) = true
    ∧ Reads (txState 0) (grp (txState 0)) false [r4] (fun _ => [5])
    ∧ ((txState 0).fibre? ⟨1, 0⟩).map (·.tx) = some (some (tx 0)) :=
  ⟨issues_of (by decide), by decide, issues_of (by decide), by decide, issues_of (by decide), by decide, reads_of (by decide), by decide⟩
theorem witness_tend :
    let s := tendPins (txState 0)
    let g := grp (txState 0)
    Issues s g {} ∧ (txSplit ((g.after s false).active.filterMap fun f => f.tx.map fun x => (f, x))).1.length = 1
    ∧ (∀ y ∈ (g.after s false).active.filterMap fun f => f.tx.map fun x => (f, x), parkDue (passed s g false) ⟨1, y.1.idx⟩ .stores = none
        ∧ ((passed s g false).coverage ⟨1, y.1.idx⟩).all ((passed s g false).performed .dev) = true
        ∧ ∀ l ∈ y.2.readLines ++ y.2.writeLines, heldBack (passed s g false) [] 0 64 (64 * l) 64 = false) ∧ s.invalsClear 0 = true :=
  ⟨⟨by decide, by decide, by decide⟩, by decide, by decide, by decide⟩
/-! Fibres, barriers, frames -/

theorem witness_barriers : Issues ts (grp ts) {} ∧ Rules.AllOutside ts (grp ts) ∧ ((grp ts).after ts false).members ≠ []
    ∧ (∀ m ∈ ((grp ts).after ts false).members, parkDue (passed ts (grp ts) false) ⟨1, m.idx⟩ .stores = none)
    ∧ (grp ts).cell.locked = false ∧ ts.crosshatch = [] :=
  ⟨issues_of (by decide), by unfold Rules.AllOutside; decide, by decide, by decide, by decide, by decide⟩
/-- A fibre that waits beside another. -/
def second : Fibre := { fib regs with idx := 1, lane := 1, status := .blocked .bar }
/-- REGROUP in a locked cell, on a quadrant with an entry at its address of its mode and of the other mode, and on one with eight
entries at other addresses. -/
def entry (id pc : Nat) : HatchEntry := { id := id, cell := 1, cluster := 0, quad := 0, pc := BitVec.ofNat 64 pc, members := [1] }
theorem witness_regroup :
    (let s := st { cellOf [fib regs] with locked := true }
     Issues s (grp s) {} ∧ (grp s).cell.locked = true)
    ∧ (let s := { st (cellOf [fib regs, second]) with crosshatch := [entry 7 vaultBase] }
       Issues s (grp s) {} ∧ (grp s).cell.locked = false ∧ s.crosshatch.find? (Rules.joins ((grp s).after s false)) = some (entry 7 vaultBase))
    ∧ (let s := { st (cellOf [fib regs, { second with sup := false }]) with crosshatch := [entry 7 vaultBase] }
       Issues s (grp s) {} ∧ s.crosshatch.find? (Rules.joins ((grp s).after s false)) = none)
    ∧ (let s := { ts with crosshatch := (List.range 8).map fun i => entry i 64 }
       Issues s (grp s) {} ∧ (s.crosshatch.filter fun e => e.cluster == 0 && e.quad == ((grp s).after s false).quad).length = 8
        ∧ s.crosshatch.find? (Rules.joins ((grp s).after s false)) = none) :=
  ⟨⟨issues_of (by decide), by decide⟩, ⟨issues_of (by decide), by decide, by decide⟩, ⟨issues_of (by decide), by decide⟩, issues_of (by decide), by decide, by decide⟩
/-- All at BAR, with nothing in flight and with a store still in its lane queue. -/
def barCell : Cell := cellOf [{ fib regs with status := .blocked .bar }]
theorem witness_bar : (st barCell).cell? 1 = some barCell ∧ (∀ f ∈ barCell.fibres, f.status = .blocked .bar)
    ∧ covered (st barCell) 1 .cell barCell.fibres = true ∧ covered { st barCell with accs := [storeAcc] } 1 .cell barCell.fibres = false := by decide
/-- A fibre that ends beside another; the last one ends its cell. -/
theorem witness_ends : (st (cellOf [fib regs, second])).cell? 1 = some (cellOf [fib regs, second])
    ∧ (st (cellOf [fib regs, second])).own ⟨1, 0⟩ = [] ∧ (st (cellOf [fib regs, second])).frames = [] ∧ (fib regs).disp = [] ∧ (∃ x ∈ (cellOf [fib regs, second]).fibres, x.idx ≠ 0)
    ∧ ts.cell? 1 = some (cellOf [fib regs])
    ∧ (let s := { ts with launches := [{ id := 0, kind := .grid, part := 0, fn := 64, packet := 0, recAddr := 0, n := 1, bounds := [1, 1, 1], rcd := {}, consts := []
                                         prio := 0, cells := [{}] }] }
       ∃ l ∈ (endCell s 1).launches, l.id = 0 ∧ l.kind = .grid ∧ l.cells[0]?.isSome = true) := by decide
/-- FORK: a free index and slot, an address that is no multiple of four, and a cell that is full. -/
theorem witness_fork :
    CanRun ts {} false [v8] [va] (fun g s f vs => forkLane 20 g (vs.getD 0 0) s f)
    ∧ (cellOf [fib regs]).fibre? 0 = some (fib regs) ∧ (cellOf [fib regs]).fibre? 1 = none ∧ (∀ j, j < 1 → ((cellOf [fib regs]).fibre? j).isSome = true)
    ∧ quadLoad ts 0 0 < 512 ∧ (freeSlot ts 0 0 64).isSome = true ∧ (1 : DWord).toNat % 4 ≠ 0 ∧ va.toNat % 4 = 0 :=
  ⟨canRun_of (by decide) (by decide) (by decide) (by decide) (by decide), by decide, by decide, by decide, by decide, by decide, by decide, by decide⟩
theorem witness_forkFull : ∃ c : Cell, ∀ i, i < 1024 → (c.fibre? i).isSome = true := by
  refine ⟨{ id := 1, fibres := (List.range 1024).map fun i => { idx := i, pc := 0, hatch := 2, lane := 0 } }, fun i h => ?_⟩
  simp only [Cell.fibre?, List.find?_isSome, List.mem_map]
  exact ⟨_, ⟨i, List.mem_range.2 h, rfl⟩, by simp⟩
/-- FENTER: a scratch pool of one block of 64 bytes; deepest frame, no slots, too many, the last that fits; the block taken. FLEAVE. -/
def poolRecord : Record := { spBlk := 64, spCnt := 1 }
def poolLaunch : Launch := { id := 0, kind := .grid, part := 0, fn := 64, packet := 0, recAddr := 0, n := 1, bounds := [1, 1, 1], rcd := poolRecord, consts := [], prio := 0, cells := [{}] }
def poolState : State := { ts with launches := [poolLaunch] }
def deepFib : Fibre := { fib regs with disp := [(7, mkDesc 0 0 4 (scratchBase + 256))] }
theorem witness_frames :
    CanRun poolState {} false [r4] [5] (fun g s f vs => fenterLane 0 20 g (loWord (vs.getD 0 0)).toNat s f)
    ∧ runOk frameState false [] [] (fun g s f _ => fleaveLane 1 g s f) = true ∧ Issues frameState (grp frameState) {}
    ∧ (deepFib.desc 7).isSome = true ∧ (fib regs).desc 7 = none
    ∧ (poolOf (cellOf []) poolRecord 0).blk / 4 = 16
    ∧ (poolOf (cellOf []) poolRecord 0).blocks.find? (fun b => !blockTaken poolState (cellOf [fib regs]) 0 b) = some (scratchBase + 4032)
    ∧ (let s := { poolState with frames := [{ id := 0, plc := .scratch, cell := 1, part := 0, fn := 64, base := scratchBase + 4032, slots := 4, depth := 2, count := 1 }] }
       (poolOf (cellOf []) poolRecord 0).blocks.find? (fun b => !blockTaken s (cellOf [fib regs]) 0 b) = none) :=
  ⟨canRun_of (by decide) (by decide) (by decide) (by decide) (by decide), by decide, issues_of (by decide), by decide, by decide, by decide, by decide, by decide⟩

/-! Matrix, plate, draft, queue words -/

/-- A tile of one FP32 row of one element, stride 16 bytes: role A, and role B; a descriptor with a reserved bit. -/
def dscA : Word := 0x40000040
def matState : State := stF { fib regs with stack := [(4, dscA), (5, 1), (8, 0x1000), (9, 0x1000000), (12, 31)] }
def twoTiles : State :=
  { st { cellOf [fib [(5, 1), (8, 0x1000), (9, 0x1000000)]] with mdecls := 2, tiles := [(0, { base := va, dsc := dscA, num := 0 }), (1, { base := va, dsc := dscA + 0x80000000, num := 1 })] } with
    launches := [{ poolLaunch with rcd := { fmt := List.replicate 8 0x8000 } }] }
def baseAndDsc : List (Field × Bool) := [(v8, false), (r4, false)]
theorem witness_mdecl :
    Rules.Once matState (grp matState) {} false baseAndDsc (fun _ => [va, 0x40000040]) ∧ (∃ l, ((grp matState).after matState false).active = [l])
    ∧ mdeclCheck (lowTo matState (grp matState) false baseAndDsc) ((grp matState).low matState false baseAndDsc).cell va dscA = none
    ∧ (mdeclCheck (lowTo matState (grp matState) false baseAndDsc) ((grp matState).low matState false baseAndDsc).cell va (dscA + 1)).isSome = true :=
  ⟨once_of (by decide) (by decide) (by decide), ⟨_, rfl⟩, by decide, by decide⟩
theorem witness_matrix :
    (let srcs : List (Field × Bool) := [(r4, false), (r5, false)]
     NoTx twoTiles (grp twoTiles) true ∧ Rules.Once twoTiles (grp twoTiles) {} true srcs (fun _ => [0, 1])
      ∧ (mmaCheck (lowTo twoTiles (grp twoTiles) true srcs) ((grp twoTiles).low twoTiles true srcs).cell 7 0 1).isSome = true)
    ∧ Rules.Once matState (grp matState) {} true [(plainSrc (.w 12) .b32, false)] (fun _ => [31]) ∧ (loWord 31).toNat < 32
    ∧ Rules.Once matState (grp matState) {} true baseAndDsc (fun _ => [va, 0x40000040]) ∧ NoTx matState (grp matState) true
    ∧ (let r := lowTo matState (grp matState) true baseAndDsc
       let g' := (grp matState).low matState true baseAndDsc
       mstCheck r g'.cell va dscA (tileExtents r g'.quad 0) = none)
    ∧ Rules.Once matState (grp matState) {} false [(r5, true), (plainSrc (.w 12) .b32, false)] (fun _ => [1, 31]) ∧ Issues matState (grp matState) {} := by
  refine ⟨⟨noTx_of (by decide), once_of (by decide) (by decide) (by decide), by decide⟩, once_of (by decide) (by decide) (by decide), by decide,
    once_of (by decide) (by decide) (by decide), noTx_of (by decide), by decide, once_of (by decide) (by decide) (by decide), issues_of (by decide)⟩
/-- RESID and SETTLE in a grid's cell and in a plate's, before and after its commit. -/
def plateState (done : Bool) : State :=
  { st { cellOf [fib regs] with settled := done } with launches := [{ poolLaunch with kind := .plate }] }
theorem witness_plate :
    Words ts (grp ts) {} false [r4, r5] (fun _ => [5, 7]) ∧ kindOf ts (grp ts).cell ≠ .plate
    ∧ Words (plateState false) (grp (plateState false)) {} false [r4, r5] (fun _ => [5, 7]) ∧ kindOf (plateState false) (grp (plateState false)).cell = .plate
    ∧ Issues (plateState false) (grp (plateState false)) {} ∧ Rules.AllOutside (plateState false) (grp (plateState false))
    ∧ (grp (plateState false)).cell.settled = false ∧ (grp (plateState true)).cell.settled = true ∧ (plateState true).accs = [] ∧ (plateState true).ops = [] := by
  refine ⟨words_of (by decide) (by decide) (by decide), by decide, words_of (by decide) (by decide) (by decide), by decide, issues_of (by decide),
    by unfold Rules.AllOutside; decide, by decide, by decide, by decide, by decide⟩
/-- PROOF, TQPUSH, TQPOP, QPOST, ECMD, with counts and offsets at their limits. -/
def qRegs : SMap Word := [(4, 64), (5, 16), (6, 1), (8, 0x1000), (9, 0x1000000), (10, 0x1000), (12, 128), (14, 4032), (18, 3824)]
def qState : State := stF (fib qRegs)
def g10 : Field := plainSrc (.w 10) .b64
theorem witness_posts :
    CanRun qState {} true [plainSrc (.w 18) .b32, g10, r4] [3824, 0x1000, 64] (fun g s f vs => proofLane g (loWord (vs.getD 0 0)).toNat (vs.getD 1 0).toNat (loWord (vs.getD 2 0)).toNat s f)
    ∧ CanRun qState {} true [plainSrc (.w 14) .b32, g10] [4032, 0x1000] (fun g s f vs => tqpushLane 20 g (loWord (vs.getD 0 0)).toNat (vs.getD 1 0).toNat s f)
    ∧ CanRun qState {} true [r4, r5] [64, 16] (fun g s f vs => tqpopLane 20 g (loWord (vs.getD 0 0)).toNat (loWord (vs.getD 1 0)).toNat s f)
    ∧ CanRun qState {} true [g10, plainSrc (.w 14) .b32] [0x1000, 4032] (fun g s f vs => postLane .qpost false 20 g (vs.getD 0 0).toNat (loWord (vs.getD 1 0)).toNat s f)
    ∧ CanRun qState {} true [g10, plainSrc (.w 14) .b32] [0x1000, 4032] (fun g s f vs => postLane .ecmd true 20 g (vs.getD 0 0).toNat (loWord (vs.getD 1 0)).toNat s f)
    ∧ qState.cell? 1 = some (cellOf [fib qRegs]) := by
  refine ⟨?_, ?_, ?_, ?_, ?_, by decide⟩ <;> exact canRun_of (by decide) (by decide) (by decide) (by decide) (by decide)
/-- A page table of one 2 MiB page: virtual 2 MiB is physical 2^47 + 2 MiB, in the host's memory. -/
def host : Nat := 2 ^ 47
def paged (s : State) (bs : List (Nat × List Byte)) : State :=
  { s with
    fns := [{ part := 0, num := 64, ptroot := 0x80000000 }]
    mem := bs.foldl (fun m x => putBytes m x.1 x.2) (putBytes [] host (bytesOfNat 8 (host + 1) ++ bytesOfNat 8 (host + 2 ^ 21 + 31))) }

/-- DRAFT of a header of one 64-byte element, ACCEPT, DISCARD. -/
def draftState : State := paged ts [(host + 2 ^ 21, bytesOfNat 8 (64 * 2 ^ 32))]
def drafted : State := { draftState with cells := [{ cellOf [fib regs] with drafts := [(3, { base := 0x200000, sz := 64, lc := 0, cap := 1024 })] }] }
def v16 : Field := plainSrc (.w 16) .b64
/-- The lowest lane's act of a word that acts once, on the values v, ends in a state where no fibre is at the end of a wait. -/
def onceOk (s : State) (srcs : List (Field × Bool)) (v : List DWord) (op : State → Fibre → List DWord → State × Option Trap) : Bool :=
  match laneRun 1 op (lowTo s (grp s) false srcs) ((lowVals s (grp s) false srcs fun _ => v).take 1) with
  | some u => quietOk u 1
  | none => false
theorem witness_draft :
    (let srcs : List (Field × Bool) := [(v16, false), (r4, false)]
     NoTx draftState (grp draftState) false ∧ Rules.Once draftState (grp draftState) {} false srcs (fun _ => [0x200000, 5])
      ∧ onceOk draftState srcs [0x200000, 5] (fun s f vs =>
          draftOpen 3 (vs.getD 0 0).toNat (loWord (vs.getD 1 0)).toNat f.pc s ((grp draftState).low draftState false srcs).cell f) = true)
    ∧ (∃ l, ((grp draftState).after draftState false).active = [l]) ∧ draftState.acqPending ⟨1, 0⟩ = false
    ∧ draftState.ownPosted ⟨1, 0⟩ 0x200000 64 = false ∧ heldBack draftState [] 0 64 0x200000 64 = false
    ∧ Issues drafted (grp drafted) {} ∧ ((grp drafted).after drafted false).cell.drafts.any (·.1 == 3) = true
    ∧ (let srcs : List (Field × Bool) := [(r4, false)]
       let sp := acceptPins 3 drafted
       let r := lowTo sp (grp sp) false srcs
       NoTx sp (grp sp) false ∧ Rules.Once sp (grp sp) {} false srcs (fun _ => [5])
        ∧ onceOk sp srcs [5] (fun s f vs => acceptNow 3 (loWord (vs.getD 0 0)).toNat s ((grp sp).low sp false srcs).cell f) = true
        ∧ parkDue r ⟨1, 0⟩ .stores = none ∧ (r.coverage ⟨1, 0⟩).all (r.performed .dev) = true ∧ r.invalsClear 0 = true ∧ r.pins = []
        ∧ ∀ f ∈ r.fns, f.relBusy = false) := by
  refine ⟨⟨noTx_of (by decide), once_of (by decide) (by decide) (by decide), by decide⟩, ⟨_, rfl⟩, by decide, by decide, rfl, issues_of (by decide), by decide,
    ⟨noTx_of (by decide), once_of (by decide) (by decide) (by decide), by decide, by decide, by decide, by decide, by decide, by decide⟩⟩
/-- EWAIT of command 0 of a chain; WAITS on a signal at most its operand, above it, and where the check fails. -/
def chain : QueueReg := { id := 1, part := 0, fn := 64, addr := vaultBase + 0x1000, idx := 0, chain := true }
def waitState (v : Nat) : State := { ts with queues := [chain], mem := putBytes [] (vaultBase + 0x1000) (bytesOfNat 8 v) }
def zeroState : State := { stF (fib ([(8, 0x1000), (9, 0x1000000)])) with queues := [chain] }
theorem witness_waits :
    CanRun zeroState {} false [v8, r4] [va, 0] (fun g s f vs => ewaitLane g (vs.getD 0 0).toNat (loWord (vs.getD 1 0)) s f)
    ∧ CanRun (waitState 9) {} false [v8, plainSrc (.w 14) .b64] [va, 9] (fun g s f vs => waitsLane 20 g (vs.getD 0 0).toNat (vs.getD 1 0) s f)
    ∧ CanRun (waitState 10) {} false [v8, plainSrc (.w 14) .b64] [va, 9] (fun g s f vs => waitsLane 20 g (vs.getD 0 0).toNat (vs.getD 1 0) s f)
    ∧ heldBack ts [] 0 64 va.toNat 64 = false ∧ ts.acqPending ⟨1, 0⟩ = false ∧ ts.ownPosted ⟨1, 0⟩ va.toNat 8 = false
    ∧ checkAddr ts (cellOf []) va.toNat 8 1 true = none ∧ (checkAddr ts (cellOf []) 4 8 1 true).isSome = true ∧ ts.invalsClear 0 = true
    ∧ homeRead (waitState 9) ⟨0, 64, true⟩ va.toNat .read 8 = .ok (bytesOfNat 8 9)
    ∧ (∃ at_, ewaitStatus zeroState ⟨0, 64, true⟩ va.toNat 0 = some at_ ∧ heldBack zeroState [] 0 64 at_ 1 = false) := by
  refine ⟨?_, ?_, ?_, rfl, by decide, by decide, by decide, by decide, by decide, rfl, ⟨_, rfl, rfl⟩⟩ <;>
    exact canRun_of (by decide) (by decide) (by decide) (by decide) (by decide)
/-- SEND and RECV on a declared channel and on another; a channel with room, full, with a word, and empty. -/
def chanState : State := st { cellOf [fib regs] with chans := [(3, { cap := 1 })] }
def sender (k : Chan) (w : Wait) : Cell := { cellOf [{ fib regs with status := .blocked w }] with chans := [(3, k)] }
theorem witness_channels :
    NoTx chanState (grp chanState) false ∧ Words chanState (grp chanState) {} false [r4] (fun _ => [5]) ∧ Words chanState (grp chanState) {} true [] (fun _ => [])
    ∧ (∀ c ∈ chanState.cells, c.id = (grp chanState).cell.id → ∀ f ∈ c.fibres, f.again = none)
    ∧ (grp chanState).cell.chans.any (·.1 == 3) = true ∧ (grp ts).cell.chans.any (·.1 == 3) = false ∧ ((grp ts).after ts false).active ≠ []
    ∧ (st (sender { cap := 1 } (.send 3 [5]))).cell? 1 = some (sender { cap := 1 } (.send 3 [5]))
    ∧ (chanStep (st (sender { cap := 1 } (.send 3 [5]))) 1 3).isSome = true ∧ chanStep (st (sender { cap := 1, words := [6] } (.send 3 [5]))) 1 3 = none
    ∧ (chanStep (st (sender { cap := 1, words := [6] } (.recv 3 20 none))) 1 3).isSome = true ∧ chanStep (st (sender { cap := 1 } (.recv 3 20 none))) 1 3 = none := by
  refine ⟨noTx_of (by decide), words_of (by decide) (by decide) (by decide), words_of (by decide) (by decide) (by decide), by decide, by decide, by decide,
    by decide, by decide, by decide, by decide, by decide, by decide⟩
/-! The moves of the ordering machine -/

def moving (x : Acc) : State := { ts with accs := [x], next := 10 }
def loadAcc : Acc := { storeAcc with kind := .load, data := [], dst := [20] }
theorem witness_releases : ∀ c ∈ ts.cells, NoQuitDue ts c.id := by
  intro c hc
  rw [List.mem_singleton.1 hc]; exact quiet_of (by decide)
/-- LEAVE in turn and out of it; a load and a store, in scratch and out of it; two accesses of one fibre in their order. -/
theorem witness_leave :
    (moving storeAcc).acc? 9 = some storeAcc ∧ leaveTurn (moving storeAcc) storeAcc = true ∧ storeAcc.va < scratchBase ∧ tentative (moving storeAcc) storeAcc = false
    ∧ leaveTurn (moving loadAcc) loadAcc = true ∧ leaveTurn (moving { storeAcc with stage := .inView }) { storeAcc with stage := .inView } = false
    ∧ (let x := { loadAcc with va := scratchBase }
       leaveTurn (moving x) x = true ∧ scratchBase ≤ x.va ∧ (moving x).cell? x.owner.cell = some (cellOf [fib regs]))
    ∧ (let e : Acc := { storeAcc with id := 8, va := vaultBase + 0x2000, members := [(8, [])] }
       leaveTurn { ts with accs := [e, loadAcc] } loadAcc = true ∧ e.owner = loadAcc.owner ∧ e.id < loadAcc.id) := by decide
/-- FORWARD from a covering store of the cluster and from none; nothing that could forward. -/
def viewLoad : Acc := { loadAcc with owner := ⟨1, 1⟩, stage := .inView }
def viewStore : Acc := { storeAcc with id := 8, stage := .inView, members := [(8, [])] }
def viewState (l : List Acc) : State := { st (cellOf [fib regs, second]) with accs := l, next := 10 }
theorem witness_forward :
    (viewState [viewStore, viewLoad]).acc? 9 = some viewLoad ∧ mayForward (viewState [viewStore, viewLoad]) viewLoad = true
    ∧ forwardBytes (viewState [viewStore, viewLoad]) viewLoad = some ([1, 2, 3, 4], [8])
    ∧ mayForward (viewState [viewLoad]) viewLoad = true ∧ forwardBytes (viewState [viewLoad]) viewLoad = none
    ∧ mayForward (viewState [loadAcc]) loadAcc = false
    ∧ (∀ e ∈ [viewStore, viewLoad], e.owner = viewLoad.owner → e.id = viewLoad.id) ∧ 0 < viewLoad.len
    ∧ (viewState [viewStore, viewLoad]).refusedStores viewLoad.owner = [] ∧ (pendingStores (viewState [viewStore, viewLoad]) viewLoad).getLast? = some viewStore := by decide
/-- REQUEST_SEND of a plain and of a combinable access, and out of turn; a request that has waited its window out at a switch. -/
def redAcc : Acc := { viewStore with id := 9, kind := .atom .add32, comb := true, members := [(9, [])] }
def atSwitch (n : Nat) : Acc := { redAcc with id := n, stage := .waiting 0, members := [(n, [])] }
theorem witness_send :
    sendTurn (moving { storeAcc with stage := .inView }) { storeAcc with stage := .inView } = true ∧ storeAcc.comb = false
    ∧ sendTurn (moving redAcc) redAcc = true ∧ redAcc.comb = true ∧ sendTurn (moving storeAcc) storeAcc = false
    ∧ (let s := moving (atSwitch 9)
       s.acc? 9 = some (atSwitch 9) ∧ (atSwitch 9).stage = .waiting 0 ∧ parkedAt s (switchOf 0 0) (atSwitch 9) = false
         ∧ s.accs.any (fun e => e.atSwitch (switchOf 0 0) && s.pairs (atSwitch 9) e) = false
         ∧ (atSwitch 9).waitStart + (atSwitch 9).window ≤ switchCycles s (switchOf 0 0))
    ∧ (let e : Acc := { storeAcc with stage := .sent }
       let x : Acc := { storeAcc with id := 11, stage := .inView, members := [(11, [])] }
       sendTurn (viewState [e, x]) x = true ∧ overlaps e x = true ∧ e.id < x.id ∧ e.owner = x.owner)
    ∧ (let e : Acc := { storeAcc with stage := .arrived }
       let x : Acc := { storeAcc with id := 11, stage := .sent, members := [(11, [])] }
       arriveTurn (viewState [e, x]) x = true ∧ x.members = [(x.id, [])] ∧ (viewState [e, x]).acc? 11 = some x) := by decide
/-- Two requests that match at one switch. -/
theorem witness_combine :
    let s := viewState [atSwitch 8, atSwitch 9]
    s.acc? 8 = some (atSwitch 8) ∧ s.acc? 9 = some (atSwitch 9) ∧ (atSwitch 9).stage = .waiting 0 ∧ parkedAt s (switchOf 0 0) (atSwitch 8) = false
    ∧ (s.accs.find? fun e => e.atSwitch (switchOf 0 0) && s.pairs (atSwitch 8) e).map (·.id) = some 9 := by decide
/-- TLB_WALK: a walk that ends, one that fails, one under a frame release, a TLB entry; LINE_FILL of a translated request, of a dirty line. -/
def globalAcc : Acc := { loadAcc with va := 0x200000, stage := .sent }
def walkState : State := { paged ts [] with accs := [globalAcc] }
def page : Xlat := { pa := host + 2 ^ 21, u := true, w := true, x := true, cls := 0 }
def dirtyLine : Line := { asid := 0, part := 0, line := 0x8000, pa := host + 2 ^ 21, bytes := List.replicate 64 1, dirty := true }
theorem witness_translation :
    walkState.acc? 9 = some globalAcc ∧ globalAcc.va < vaultBase ∧ walkState.line? 0 0x200000 = none ∧ globalAcc.xlat = none
    ∧ walkReach walkState 0 64 0x200000 = .ok page true ∧ walkReach walkState 0 64 0 = .fail .translationFault
    ∧ walkReach { walkState with fns := [{ part := 0, num := 64, ptroot := 0x80000000, relAt := 0x80000020, rel := 1, relBusy := true }] } 0 64 0x200000 = .wait
    ∧ tlbFind { walkState with tlb := [{ asid := 0, part := 0, page := 1, big := true, xlat := page }] } 0 0x200000 = some page
    ∧ fills walkState { globalAcc with xlat := some page } page = true ∧ walkState.physOk page.pa = true
    ∧ ({ walkState with lines := [dirtyLine] } : State).lines.find? (fun l => l.asid == 0 && l.line == 0x8000) = some dirtyLine := by decide
/-- Entries of a page table that the clauses tell apart: invalid, a leaf at level 2, a table entry at level 0, a table entry, a leaf;
an address with no memory, one behind a lost port, one of the host's memory. -/
def lostState : State := { ts with decoders := [{ base := 0, size := host, ways := 1, ports := [0] }], lostPorts := [0] }
theorem witness_walk :
    bits 0 0 0 = 0 ∧ bits (host + 3) 0 0 = 1 ∧ bits (host + 3) 1 1 = 1 ∧ bits (host + 1) 1 1 = 0 ∧ bits (host + 1) 63 48 = 0 ∧ bits (host + 1) 7 2 = 0
    ∧ bits (host + 1) 47 8 * 256 % 4096 = 0 ∧ bits (host + 31) 60 48 = 0 ∧ bits (host + 31) 15 5 = 0
    ∧ ts.underRelease (bits (host + 31) 47 16 * 65536) (2 ^ 16) = false
    ∧ ts.physOk 0 = false ∧ lostState.physOk 0 = true ∧ lostState.physLost 0 = true ∧ ts.physOk host = true ∧ ts.physLost host = false := by decide
/-- ARRIVE of a load, a store and an atomic in turn, and out of it; a store and an atomic at a vault of the partition. -/
theorem witness_arrive :
    (let x : Acc := { storeAcc with stage := .sent }
     (moving x).acc? 9 = some x ∧ arriveTurn (moving x) x = true ∧ Memory.wf (moving x).mem = true ∧ (cellOf [fib regs]).drafts = []
      ∧ (moving x).hasVault x.part 0 = true ∧ vaultBase ≤ x.va ∧ x.va + 4 ≤ vaultBase + vaultSize ∧ x.va % 4 = 0 ∧ x.len = 4 ∧ x.data.length = 4 ∧ x.got = 0)
    ∧ (let x : Acc := { loadAcc with stage := .sent }
       arriveTurn (moving x) x = true)
    ∧ (let x : Acc := { redAcc with stage := .sent }
       arriveTurn (moving x) x = true ∧ x.members = [(x.id, [])] ∧ (moving x).hasVault x.part 191 = true)
    ∧ arriveTurn (moving storeAcc) storeAcc = false := by decide
/-- REPLY in turn and not, to the context of now and to an older one, before and after the invalidations it waits for. -/
theorem witness_reply :
    (let x : Acc := { loadAcc with stage := .arrived, result := [1, 2, 3, 4] }
     (moving x).acc? 9 = some x ∧ (moving x).cell? 1 = some (cellOf [fib regs]) ∧ replyTurn (moving x) x = true ∧ (cellOf []).saveTag = x.tag ∧ x.got = 0
      ∧ (cellOf []).saveTag ≠ ({ x with tag := 1 } : Acc).tag ∧ replyTurn (moving { x with tag := 1 }) { x with tag := 1 } = true)
    ∧ (let x : Acc := { storeAcc with stage := .arrived }
       replyTurn (moving x) x = true) ∧ replyTurn (moving loadAcc) loadAcc = false
    ∧ (let x : Acc := { loadAcc with stage := .arrived, ord := .dev, invBefore := 5 }
       let s := { moving x with invals := [(0, [{ num := 3, asid := none, line := 1 }])] }
       ∃ q ∈ s.invals, q.1 = x.cluster ∧ ∃ v ∈ q.2, v.num < x.invBefore) := by decide
/-- An invalidation at the head of a cluster's queue; a pin that has stood for ORD.PINTO; a fence whose cover is met and one whose is not. -/
def pin (t : Nat) : Pin := { rel := 4, cell := 1, cluster := 0, part := 0, asid := none, line := 9, since := t, accs := [] }
def fenced (cov : List Nat) : Cell := cellOf [{ fib regs with status := .fence false false .coh cov }]
theorem witness_ordering :
    ({ ts with invals := [(0, [{ num := 3, asid := none, line := 1 }])] } : State).invals.find? (·.1 == 0) = some (0, [{ num := 3, asid := none, line := 1 }])
    ∧ (let s := { ts with pins := [pin 0], now := 100 * ticksPerMicro }
       ∃ k, s.part? 0 = some k ∧ (pin 0).rel ≠ 0 ∧ (pin 0).since + k.pinto * ticksPerMicro ≤ s.now)
    ∧ (fenced []).fibre? 0 = some { fib regs with status := .fence false false .coh [] } ∧ (fenced []).resident = true
    ∧ fenceMet (st (fenced [])) 0 false false .coh [] = true ∧ fenceMet { st (fenced [9]) with accs := [storeAcc] } 0 false false .coh [9] = false
    ∧ storeAcc.relDone = true := by
  refine ⟨by decide, ⟨_, rfl, by decide, by decide⟩, by decide, by decide, by decide, by decide, by decide⟩

/-! Operations, streams, waits -/

def opOf (k : OpKind) : Op := { id := 5, owner := ⟨1, 0⟩, fibres := [(⟨1, 0⟩, some 1, true)], kind := k }
def opState (k : OpKind) : State := { ts with ops := [opOf k] }
theorem witness_operations :
    (opState (.value [(20, 7)])).op? 5 = some (opOf (.value [(20, 7)])) ∧ (opState (.value [(20, 7)])).cell? 1 = some (cellOf [fib regs])
    ∧ (let o := { opOf (.value [(20, 7)]) with after := [9] }
       let s := { ts with ops := [o], accs := [storeAcc] }
       s.op? 5 = some o ∧ ∃ a ∈ o.after, s.acc? a ≠ none)
    ∧ (opOf (.value [(20, 7)])).refused = none ∧ (opOf (.value [(20, 7)])).after = [] ∧ (cellOf []).resident = true ∧ (1 : Nat).testBit 0 = true
    ∧ ({ opOf (.mma 0 0 0 false {} {} 0) with refused := some { cause := .matrixFault } } : Op).refused.isSome = true
    ∧ (opState (.mma 0 0 0 false {} {} 0)).op? 5 = some (opOf (.mma 0 0 0 false {} {} 0)) ∧ (opState (.mst 0 0 0 0 0)).op? 5 = some (opOf (.mst 0 0 0 0 0)) := by decide
/-- PROOF's point in turn and behind an STI of its fibre, in no plate's frame and in one's. -/
def proofState (l : List Launch) : State := { opState (.proof 64 (vaultBase + 0x1000) 1) with launches := l }
def framed : Launch := { poolLaunch with kind := .plate, rcd := { pfBase := va, pfSize := 4 } }
theorem witness_proof :
    pointTurn (proofState []) (opOf (.proof 64 (vaultBase + 0x1000) 1)) = true ∧ plateOf (proofState []) 0 64 (vaultBase + 0x1000) 1 = none
    ∧ plateOf (proofState [framed]) 0 64 (vaultBase + 0x1000) 1 = some framed ∧ heldBack (proofState [framed]) [] 0 64 (vaultBase + 0x1000) 4 = false
    ∧ homeRead (proofState [framed]) ((cellOf []).who true) (vaultBase + 0x1000) .read 4 = .ok [0, 0, 0, 0]
    ∧ pointTurn { proofState [] with accs := [{ storeAcc with id := 4, kind := .sti }] } (opOf (.proof 64 (vaultBase + 0x1000) 1)) = false := by
  refine ⟨by decide, by decide, by decide, rfl, rfl, by decide⟩
/-- A stream with an element to read, one to discard, one with a full queue, one at its end, one with an element to read again,
in a state where a read can be made and in one where a posted store holds it back. -/
def stream (fetched popped count : Nat) : Stream := { active := true, base := va, stride := 4, count := count, idx := va, esz := 4, fetched := fetched, popped := popped }
def streamState (x : Stream) : State := stF { fib regs with recs := [(0, x)] }
def pinAt (line : Nat) : Pin := { rel := 4, cell := 1, cluster := 0, part := 0, asid := none, line := line, since := 0, accs := [] }
theorem witness_streams :
    ((streamState (stream 0 0 1)).fibre? ⟨1, 0⟩).map (fun f => f.stream 0) = some (stream 0 0 1)
    ∧ (stream 0 0 1).active = true ∧ (stream 0 0 1).fetched < (stream 0 0 1).count ∧ (stream 0 0 1).popped ≤ (stream 0 0 1).fetched
    ∧ (stream 0 1 2).fetched < (stream 0 1 2).popped ∧ (stream 16 0 20).popped + 16 ≤ (stream 16 0 20).fetched ∧ (stream 1 0 1).count ≤ (stream 1 0 1).fetched
    ∧ ({ stream 0 0 1 with fetched := 1, queue := [.again] } : Stream).queue[0]? = some .again ∧ Elem.again ∉ (stream 0 0 1).queue
    ∧ (let s := { streamState (stream 0 0 1) with mem := putBytes [] va.toNat [2, 0, 0, 0] }
       (streamElem s (cellOf [{ fib regs with recs := [(0, stream 0 0 1)] }]) { fib regs with recs := [(0, stream 0 0 1)] } (stream 0 0 1) 0).isSome = true)
    ∧ (let s := { streamState (stream 0 0 1) with pins := [pinAt (va.toNat / 64)] }
       streamElem s (cellOf [{ fib regs with recs := [(0, stream 0 0 1)] }]) { fib regs with recs := [(0, stream 0 0 1)] } (stream 0 0 1) 0 = none) := by decide
theorem witness_waitEvents :
    (let s := stF { flagFib with status := .waitFlags 0x800 }
     (∃ f, (cellOf [{ flagFib with status := .waitFlags 0x800 }]).fibre? 0 = some f ∧ f.status = .waitFlags 0x800 ∧ f.flagsClear 0x800 = false ∧ f.flagsClear 0x001 = true)
      ∧ s.cell? 1 = some (cellOf [{ flagFib with status := .waitFlags 0x800 }]))
    ∧ (let p : Partition := { id := 0, islands := [0], wdog := 3 }
       p.wdog.toNat ≠ 0 ∧ (3 * ticksPerMicro - 1 < 0 + p.wdog.toNat * ticksPerMicro) ∧ 0 + p.wdog.toNat * ticksPerMicro ≤ 3 * ticksPerMicro)
    ∧ (let e : HatchEntry := { entry 7 vaultBase with members := [0] }
       let s := { ts with crosshatch := [e], now := 256 * period false 8 }
       s.crosshatch.find? (fun x => x.id == e.id && x.cluster == e.cluster && x.quad == 0) = some e
        ∧ ∃ m ∈ (cellOf [fib regs]).fibres, m.idx ∈ e.members ∧ m.mark + 256 ≤ s.cycles (islandOf e.cluster)) := by
  refine ⟨⟨⟨_, rfl, rfl, by decide, by decide⟩, rfl⟩, by decide, by decide⟩
/-! Engines, dispatch, packets -/

/-- A chain of four entries at vault 0 with one command: its header, and the entry given. -/
def chainBytes (engine head tail kind len dmask src dst sig : Nat) : List (Nat × List Byte) :=
  [(vaultBase + 0x1000, bytesOfNat 8 (vaultBase + 0x1100) ++ bytesOfNat 8 4 ++ bytesOfNat 4 engine ++ bytesOfNat 4 tail ++ bytesOfNat 4 head ++ bytesOfNat 4 0),
   (vaultBase + 0x1100, bytesOfNat 4 (kind + dmask * 2 ^ 16) ++ bytesOfNat 4 len ++ bytesOfNat 8 src ++ bytesOfNat 8 dst ++ bytesOfNat 8 sig ++ bytesOfNat 4 1)]
def chainState (stage : EStage) (bs : List (Nat × List Byte)) : State :=
  { paged ts bs with queues := [chain], engines := [{ queue := 1, stage := stage }] }
/-- The view of a chain's engine, where it has one. -/
def viewOk (s : State) (kind : Nat) (bad : Bool) : Bool :=
  match chainView s 1 with
  | some v => match v.cmd with | .ok c => c.kind == kind && malformed v.hdr.engine c == bad && (s.engine 1).stage == .acquired && v.reg == chain | .error _ => false
  | none => false
theorem holds_of {s : State} {kind : Nat} (h : viewOk s kind false = true) : ∃ v c, Rules.Holds s 1 v c kind ∧ v.reg = chain := by
  simp only [viewOk] at h
  split at h
  · rename_i v hv
    split at h
    · rename_i c hc
      simp only [Bool.and_eq_true, beq_iff_eq] at h
      exact ⟨v, c, ⟨hv, hc, h.1.2, h.1.1.1, h.1.1.2⟩, h.2⟩
    · exact absurd h (by decide)
  · exact absurd h (by decide)
def command (kind len : Nat) (dmask : Nat := 0) (src : Nat := vaultBase + 0x2000) : State := chainState .acquired (chainBytes 0 0 1 kind len dmask src (vaultBase + 0x3000) 0)
theorem witness_engineTakes :
    (let s := chainState .idle (chainBytes 0 0 1 0 0 0 0 0 0)
     ∃ v, chainView s 1 = some v ∧ (s.engine 1).stage = .idle ∧ v.hdr.head ≠ v.hdr.tail ∧ (∃ c, v.cmd = .ok c) ∧ v.reg.posted = [])
    ∧ (let s := chainState .idle (chainBytes 0 4 4 0 0 0 0 0 0)
       ∃ v, chainView s 1 = some v ∧ v.hdr.head = v.hdr.tail) := ⟨⟨_, rfl, rfl, by decide, ⟨_, rfl⟩, rfl⟩, ⟨_, rfl, by decide⟩⟩
theorem witness_malformed :
    viewOk (command 9 0) 9 true = true ∧ viewOk (command 1 0) 1 true = true ∧ viewOk (command 2 7) 2 true = true ∧ viewOk (command 3 7) 3 true = true ∧ viewOk (command 4 7) 4 true = true ∧ viewOk (command 5 8) 5 true = true
    ∧ viewOk (chainState .acquired (chainBytes 0 0 1 6 0 0 0 4 0)) 6 true = true := by decide
theorem witness_commands :
    viewOk (command 0 0) 0 false = true ∧ viewOk (command 1 64) 1 false = true ∧ viewOk (command 3 64) 3 false = true ∧ viewOk (command 6 0) 6 false = true
    ∧ Rules.Free (command 1 64) chain (vaultBase + 0x2000) 64
    ∧ homeRead (command 1 4) chain.cmdWho (vaultBase + 0x2000) .read 4 = .ok [0, 0, 0, 0]
    ∧ (∃ e, homeRead (command 1 4) chain.cmdWho 0 .read 4 = .error e) ∧ homeNat (command 6 0) chain.cmdWho (vaultBase + 0x3000) 8 = .ok 0
    ∧ (∃ t, homeWrite (command 6 0) chain.cmdWho none (vaultBase + 0x3000) (bytesOfNat 8 1) = .ok t) ∧ ∃ e, homeNat (command 6 0) chain.cmdWho 0 8 = .error e :=
  ⟨by decide, by decide, by decide, by decide, rfl, rfl, ⟨_, rfl⟩, rfl, ⟨_, rfl⟩, ⟨_, rfl⟩⟩
theorem witness_multicast : viewOk (chainState .acquired (chainBytes 0 0 1 2 64 1 (vaultBase + 0x2000) 64 0)) 2 false = true := by decide
/-- GATHER of five elements of four bytes from a checked list, and from an address that cannot be read. -/
def gatherState : State :=
  chainState .acquired (chainBytes 0x100 0 1 4 5 0 0x200000 (vaultBase + 0x3000) 0 ++ [(host + 2 ^ 21 + 12, [2])])
theorem witness_gather : viewOk gatherState 4 false = true
    ∧ (match readList (fun a n => homeRead gatherState chain.cmdWho a .read n) (2 ^ 40) 0 0x200000 5 1 with
        | .ok l => l.entries.length == 5 && l.esz == 2 && l.limit == 0
            && l.entries.all fun a => !heldBack gatherState [] 0 64 a 4
              && match homeNat gatherState chain.cmdWho a 4 with | .ok v => v == 0 | .error _ => false
        | .error _ => false) = true
    ∧ (∃ e, readList (fun a n => homeRead gatherState chain.cmdWho a .read n) (2 ^ 40) 0 0 5 1 = .error e)
    ∧ heldBack gatherState [] 0 64 0x200000 52 = false := ⟨by decide, by decide, ⟨_, rfl⟩, by decide⟩
/-- COLL over a group of this device alone, and of two, one of which fails. -/
def collState (g : List Nat) : State :=
  { chainState .acquired (chainBytes 0x200 0 1 5 64 0 (vaultBase + 0x2000) (vaultBase + 0x3000) 0) with
    parts := [{ id := 0, islands := List.range 16, groups := [(0, g, 2)] }] }
theorem witness_collective : viewOk (collState [0]) 5 false = true ∧ (combOp 0).isSome = true
    ∧ (∃ p, (collState [0]).part? 0 = some p ∧ p.groups.find? (·.1 == 0) = some (0, [(collState [0]).deviceNumber], 2)) ∧ ((collState [0]).engine 1).at_ = 0
    ∧ (∃ p g, (collState [0, 3]).part? 0 = some p ∧ p.groups.find? (·.1 == 0) = some g ∧ 3 ∈ g.2.1 ∧ 3 ≠ (collState [0, 3]).deviceNumber)
    ∧ (∃ t, collChunk (collState [0]) chain (cmdOf (bytesAt (collState [0]).mem (vaultBase + 0x1100) 64)) ((collState [0]).engine 1) [] = some t)
    ∧ (enginePut (collState [0]) chain.cmdWho (vaultBase + 0x3000) [1]).2 = true :=
  ⟨by decide, by decide, ⟨_, rfl, by decide⟩, by decide, ⟨_, _, rfl, rfl, by decide, by decide⟩, ⟨_, rfl⟩, by decide⟩
theorem witness_engineEnds :
    (let s := chainState (.performed 2 0) (chainBytes 0 0 1 0 0 0 0 0 0)
     ∃ v c, chainView s 1 = some v ∧ v.cmd = .ok c ∧ (s.engine 1).stage = .performed 2 0)
    ∧ (let s := chainState (.released 0 0) (chainBytes 0 0 1 0 0 0 0 0 (vaultBase + 0x4000))
       (∃ v c, chainView s 1 = some v ∧ v.cmd = .ok c ∧ (s.engine 1).stage = .released 0 0 ∧ c.sig ≠ 0 ∧ inWindows c.sig = true ∧ c.sig % 8 = 0)
        ∧ Rules.Free s chain (vaultBase + 0x4000) 8 ∧ ¬ Rules.Free { s with pins := [pinAt ((vaultBase + 0x4000) / 64)] } chain (vaultBase + 0x4000) 8)
    ∧ (cmdOf (List.replicate 64 0)).sig = 0 := by
  refine ⟨⟨_, _, rfl, rfl, rfl⟩, ⟨⟨_, _, rfl, rfl, rfl, by decide, by decide, by decide⟩, rfl, by unfold Rules.Free; decide⟩, by decide⟩
/-- The head of a grid that fits its die; one that no cluster has room for; one for which a cluster drains. -/
def grid : Launch := { poolLaunch with id := 2, rcd := { fibres := 1, gen := [1, 2, 3, 4] }, n := 2, bounds := [2, 2, 2], cells := [{ running := true }, {}] }
def gridState : State := { State.reset with launches := [grid], next := 3, parts := [{ id := 0, islands := List.range 16, holder := some 64 }] }
theorem witness_dispatch : gridState.launch? 2 = some grid ∧ maySchedule gridState 0 64 = true ∧ grid.head 0 3 = none ∧ grid.rcd.gen.length = 4 ∧ grid.consts.length ≤ 48
    ∧ (∃ h, grid.head 0 0 = some h ∧ isNext gridState grid 0 h = true ∧ (placesFor gridState grid 0 h.1).isSome = true) :=
  ⟨by decide, by decide, by decide, by decide, by decide, ⟨_, rfl, by decide, by decide⟩⟩
/-- Every cluster of the die holds a cell under another split: one may drain, and one already drains. -/
def wide7 : Launch := { grid with rcd := { grid.rcd with split := 7 } }
def fullState (dr : List (Nat × Nat)) : State :=
  { gridState with launches := [wide7], draining := dr, cells := (List.range 48).map fun c => { id := 100 + c, cluster := c, fibres := [fib []] } }
theorem witness_drain : placesFor (fullState []) wide7 0 1 = none ∧ (drainChoice (fullState []) wide7 0).isSome = true
    ∧ placesFor (fullState [(5, 2)]) wide7 0 1 = none ∧ drainChoice (fullState [(5, 2)]) wide7 0 = none := by decide
/-- A record that has waited FAIRT, and one that has not. -/
def expert (stamp : Nat) : Launch := { poolLaunch with kind := .expert, rcd := { fairT := 1 }, cells := [{ tail := 1, cap := 4, stamps := [stamp] }] }
theorem witness_fairness : (expert 0).kind = .expert ∧ (expert 0).rcd.fairT ≠ 0 ∧ (∃ e, (expert 0).cells[0]? = some e ∧ 0 < e.occ ∧ e.stamps.headD 0 + 1 * ticksPerMicro ≤ ticksPerMicro)
    ∧ ticksPerMicro - 1 < ({ tail := 1, stamps := [0] } : Entry).stamps.headD 0 + 1 * ticksPerMicro :=
  ⟨by decide, by decide, ⟨_, rfl, by decide, by decide⟩, by decide⟩
theorem witness_splitSwitch :
    (let s := { gridState with draining := [(191, 2)] }
     s.draining.find? (·.1 == 191) = some (191, 2) ∧ occupants s 191 64 = [] ∧ s.launch? 2 = some grid ∧ grid.head 0 (dieOf 191) = none)
    ∧ (let s := { gridState with draining := [(0, 2)] }
       let t : State := { s with draining := [], splits := sput 0 s.splits 0 0 }
       grid.head 0 (dieOf 0) = some (1, false, infWord) ∧ maySchedule t 0 64 = true ∧ isNext t grid 0 (1, false, infWord) = true ∧ grid.rcd.cohort ≤ 1 ∧ roomOn t 0 grid.fn grid.rcd = true)
    ∧ occupants ts 0 64 ≠ [] := by decide
/-- A plate's cell whose fibre stands at SETTLE with nothing pending. -/
def settling : Cell := { cellOf [{ fib regs with status := .blocked .settle }] with launch := 3 }
def settleState : State := { st settling with launches := [{ poolLaunch with id := 3, kind := .plate }] }
theorem witness_commit : settleState.cell? 1 = some settling ∧ (∃ f fs, settling.fibres = f :: fs) ∧ settling.resident = true ∧ kindOf settleState settling ≠ .grid
    ∧ settling.settled = false ∧ allAt settling isSettle = true ∧ settling.fibres.all (fun f => settleState.idle ⟨1, f.idx⟩) = true ∧ heldReady settleState settling = true
    ∧ covered settleState 1 .dev settling.fibres = true ∧ settleState.invalsClear 0 = true ∧ kindOf ts (cellOf []) = .grid
    ∧ (∃ t, landAll settleState settling true [] = .ok t) ∧ (∃ a e, landAll settleState settling true [(0, 1)] = .error (a, e)) :=
  ⟨by decide, ⟨_, _, rfl⟩, by decide, by decide, by decide, by decide, by decide, by decide, by decide, by decide, by decide, ⟨_, rfl⟩, ⟨_, _, rfl⟩⟩
/-- A queue of one slot with a packet to read; packets of every type that may start. -/
def queue : QueueReg := { id := 4, part := 0, fn := 64, addr := vaultBase + 0x1000, idx := 0, chain := false }
def queueState (write read : Nat) (pkts : List Packet) : State :=
  { State.reset with queues := [queue], packets := pkts, next := 9
                     mem := putBytes [] (vaultBase + 0x1000) (bytesOfNat 8 (vaultBase + 0x1100) ++ bytesOfNat 4 1 ++ [0, 1, 0, 0] ++ bytesOfNat 8 write ++ bytesOfNat 8 read) }
theorem witness_packetRead :
    (let s := queueState 1 0 []
     s.queues.find? (fun x => x.id == 4 && !x.chain) = some queue ∧ (∃ f, s.fn? 0 64 = some f ∧ f.resetting = false) ∧ closing s queue = false
      ∧ Rules.Free s queue queue.addr 64 ∧ (∃ bs, homeRead s queue.who queue.addr .read 64 = .ok bs ∧ (qHdrOf bs).read < (qHdrOf bs).write ∧ (qHdrOf bs).st ≠ 0)
      ∧ (∃ b, homeRead s queue.who (vaultBase + 0x1100) .read 64 = .ok b))
    ∧ (∃ bs, homeRead (queueState 1 1 []) queue.who queue.addr .read 64 = .ok bs ∧ (qHdrOf bs).write ≤ (qHdrOf bs).read)
    ∧ (let s := { queueState 1 0 [] with mem := putBytes [] (vaultBase + 0x1000) (bytesOfNat 8 0x200000 ++ bytesOfNat 4 1 ++ [0, 2, 0, 0] ++ bytesOfNat 8 1) }
       ∃ bs, homeRead s queue.who queue.addr .read 64 = .ok bs ∧ (qHdrOf bs).st = 2 ∧ ∃ e, homeRead s queue.who 0x200000 .read 64 = .error e) :=
  ⟨⟨by decide, ⟨_, rfl, rfl⟩, by decide, rfl, ⟨_, rfl, by decide, by decide⟩, ⟨_, rfl⟩⟩, ⟨_, rfl, by decide⟩, ⟨_, rfl, by decide, ⟨_, rfl⟩⟩⟩
def packet (type : Nat) (rest : List Byte := []) (stage : PStage := .read) : Packet :=
  { id := 6, queue := 4, index := 0, bytes := BitVec.ofNat 8 type :: rest, stage := stage }
theorem witness_packets :
    Rules.Starts (queueState 1 1 [packet 0]) (packet 0) queue 0 ∧ Rules.Starts (queueState 1 1 [packet 1]) (packet 1) queue 1
    ∧ Rules.Starts (queueState 1 1 [packet 2]) (packet 2) queue 2 ∧ Rules.Starts (queueState 1 1 [packet 3]) (packet 3) queue 3
    ∧ Rules.Starts (queueState 1 1 [packet 4]) (packet 4) queue 4
    ∧ (queueState 1 1 [{ packet 0 with held := true }]).queueOf { packet 0 with held := true } = some queue ∧ (queueState 1 1 [packet 0]).packet? 6 = some (packet 0) := by
  refine ⟨?_, ?_, ?_, ?_, ?_, by decide, by decide⟩ <;> (unfold Rules.Starts; decide)
/-- A packet whose record is at 0x2000: all zeros, it breaks a limit (status 1); a record of one fibre keeps them. -/
def gridPkt : Packet := { packet 1 (List.replicate 3 0 ++ bytesOfNat 4 1 ++ bytesOfNat 8 0 ++ bytesOfNat 8 (vaultBase + 0x2000) ++ bytesOfNat 4 1 ++ bytesOfNat 4 1 ++ bytesOfNat 4 1) with id := 6 }
def recMem : SMap Byte := putBytes [] (vaultBase + 0x2000) (bytesOfNat 8 (vaultBase + 0x8000) ++ bytesOfNat 8 0 ++ [1, 0, 1, 0])
theorem witness_prepare :
    Rules.Free (queueState 1 1 [gridPkt]) queue gridPkt.record 256
    ∧ (∃ bs, homeRead (queueState 1 1 [gridPkt]) queue.cmdWho gridPkt.record .read 256 = .ok bs ∧ recordBad bs false = true)
    ∧ (prepare (queueState 1 1 [gridPkt]) gridPkt queue false).isOk = false
    ∧ (∃ bs, homeRead { queueState 1 1 [gridPkt] with mem := recMem } queue.cmdWho gridPkt.record .read 256 = .ok bs ∧ recordBad bs false = false
        ∧ vectorBad { queueState 1 1 [gridPkt] with mem := recMem } 0 1 (recordOf bs).cohort [1, 1, 1] = false ∧ (recordOf bs).const = 0)
    ∧ gridPkt.field 63 32 = 1 ∧ gridPkt.field 15 13 = 0 ∧ [gridPkt.field 223 192, gridPkt.field 255 224, gridPkt.field 287 256] = [1, 1, 1]
    ∧ (prepare { queueState 1 1 [gridPkt] with mem := recMem } gridPkt queue false).isOk = true
    ∧ (let p := { packet 1 (List.replicate 15 0 ++ bytesOfNat 8 (vaultBase + 0x2000)) with id := 6 }
       (match prepare { queueState 1 1 [p] with mem := recMem } p queue false with | .ok l => l.n == 0 && p.field 15 13 == 0 | .error _ => false) = true) := by
  refine ⟨rfl, ⟨_, rfl, by decide⟩, by decide, ⟨_, rfl, by decide, by decide, by decide⟩, by decide, by decide, by decide, by decide, by decide⟩
theorem witness_barrierAndUnplate :
    (let p : Packet := { packet 3 (List.replicate 15 0 ++ bytesOfNat 8 (vaultBase + 0x3000)) (.barrier [0]) with id := 6 }
     p.signal 0 = vaultBase + 0x3000 ∧ homeNat (queueState 1 1 [p]) queue.cmdWho (p.signal 0) 8 = .ok 0
      ∧ (∃ e, homeNat (queueState 1 1 [p]) queue.cmdWho 4 8 = .error e)
      ∧ homeNat { queueState 1 1 [p] with mem := putBytes [] (vaultBase + 0x3000) (bytesOfNat 8 (2 ^ 63)) } queue.cmdWho (p.signal 0) 8 = .ok (2 ^ 63))
    ∧ (let p := { packet 4 [] .unplating with launch := 3 }
       let s := { queueState 1 1 [p] with launches := [{ poolLaunch with id := 3, kind := .plate }] }
       s.packet? 6 = some p ∧ s.launch? p.launch = some { poolLaunch with id := 3, kind := .plate } ∧ (∀ e ∈ poolLaunch.cells, e.running = false)
        ∧ ∃ e ∈ ({ poolLaunch with cells := [{ running := true }] } : Launch).cells, e.running = true) :=
  ⟨⟨by decide, rfl, ⟨_, rfl⟩, rfl⟩, by decide⟩
theorem witness_complete :
    completionStatus (queueState 1 1 [packet 0 [] (.done 3)]) (packet 0 [] (.done 3)) = some 3 ∧ completionStatus (queueState 1 1 [packet 0]) (packet 0) = none
    ∧ (packet 0).known = true ∧ (packet 0).field 127 64 = 0
    ∧ (let p := { packet 1 [] .launched with launch := 3 }
       let s := { queueState 1 1 [p] with launches := [{ poolLaunch with id := 3, cells := [{ ended := true }] }] }
       s.packet? 6 = some p ∧ completionStatus s p = some 0)
    ∧ homeNat (queueState 1 1 []) queue.cmdWho (vaultBase + 0x3000) 8 = .ok 0
    ∧ (∃ t, homeWrite (queueState 1 1 []) queue.cmdWho none (vaultBase + 0x3000) (bytesOfNat 8 (2 ^ 64 - 1)) = .ok t) :=
  ⟨by decide, by decide, by decide, by decide, by decide, rfl, ⟨_, rfl⟩⟩
theorem witness_doorbell : doorbellAt (queueState 1 1 []) 0 64 0x400000 = some (queue, 0)
    ∧ doorbellAt (queueState 1 1 []) 0 64 0x400007 = some (queue, 7) := by decide
/-- QUEUE.CMD with each command, on a queue that is registered and one that is not. -/
def cmdPart (cmd : Nat) (at_ : Nat) : Partition :=
  { id := 0, islands := List.range 16, queueAddr := BitVec.ofNat 64 at_, queueCmd := BitVec.ofNat 32 (cmd + 2 ^ 15), queueBusy := true }
def cmdState (cmd at_ : Nat) : State := { queueState 1 1 [] with parts := [cmdPart cmd at_] }
theorem witness_queueCommands :
    (∀ c ∈ [1, 2, 3, 4, 5], Rules.Commanded (cmdState c 0) (cmdPart c 0) c ∧ regAt (cmdState c 0) 0 (cmdPart c 0).cmdFn 0 false = none
      ∧ regAt (cmdState c 0) 0 (cmdPart c 0).cmdFn 0 true = none)
    ∧ (match register false (cmdState 1 0) (cmdPart 1 0) with | .fail => true | _ => false) = true
    ∧ (∀ c ∈ [2, 3], regAt (cmdState c queue.addr) 0 (cmdPart c queue.addr).cmdFn (cmdPart c queue.addr).queueAddr.toNat false = some queue)
    ∧ Rules.Free (cmdState 3 queue.addr) queue queue.addr 64 ∧ homeNat (cmdState 3 queue.addr) queue.who (queue.addr + 13) 1 = .ok 1
    ∧ (∃ s q bs, Rules.Commanded s (cmdPart 5 chain.addr) 5 ∧ regAt s 0 (cmdPart 5 chain.addr).cmdFn (cmdPart 5 chain.addr).queueAddr.toNat true = some q
        ∧ (s.engine q.id).stage = .idle ∧ homeRead s q.who q.addr .read 64 = .ok bs ∧ (cHdrOf bs).head = (cHdrOf bs).tail) := by
  refine ⟨?_, by decide, by decide, rfl, rfl, { cmdState 5 chain.addr with queues := [chain], mem := [] }, _, _, ?_, rfl, by decide, rfl, by decide⟩ <;>
    (unfold Rules.Commanded; decide)
/-- A queue header at a mapped global address registers. -/
theorem witness_cmdComplete : (∃ p, (cmdState 1 0).part? 0 = some p ∧ p.queueBusy = true ∧ p.queueRan = false)
    ∧ (∃ p, ({ cmdState 1 0 with parts := [{ cmdPart 1 0 with queueRan := true, queueNew := some queue }] } : State).part? 0 = some p ∧ p.queueBusy = true ∧ p.queueRan = true)
    ∧ (regAt (cmdState 1 queue.addr) 0 (cmdPart 1 queue.addr).cmdFn (cmdPart 1 queue.addr).queueAddr.toNat false).isSome = true :=
  ⟨⟨_, rfl, rfl, rfl⟩, ⟨_, rfl, rfl, rfl⟩, by decide⟩
theorem witness_register :
    let s := { paged (cmdState 1 0x200000) [(host + 2 ^ 21, bytesOfNat 8 0x200100 ++ bytesOfNat 4 16)] with queues := [] }
    (match register false s (cmdPart 1 0x200000) with | .ok _ (some 0) => true | _ => false) = true := by decide
/-! Registers, functions, parts, islands, power -/

theorem witness_photonic : (∃ p, ts.part? 0 = some p ∧ ringSlot ts p.hostBank.toNat 15 = 15) ∧ ringSlot ts 0 3 ≠ 16 ∧ (∀ m, m < 16 → m ≠ 3 → ringSlot ts 0 m ≠ 16)
    ∧ (∃ m, m < 16 ∧ m ≠ 3 ∧ ringSlot ts 0 m = 4) ∧ ringSlot ts 0 3 ≠ 4 ∧ ringSlot ts 0 3 ≠ 17 ∧ ringSlot ts 0 3 = (3 : Word).toNat % 32
    ∧ slotFailed ts 0 16 = false ∧ slotFailed { ts with spares := [(2, 16)] } 0 16 = true
    ∧ swf (0 : Word) ts.mxStatus = true := ⟨⟨_, rfl, by decide⟩, by decide⟩
/-- The virtual function 63 in reset and not, the physical function; with and without a packet of its queue left. -/
def vf (r : Bool) : Fn := { part := 0, num := 63, resetting := r }
def vfQueue : QueueReg := { queue with fn := 63 }
def vfState (r : Bool) (pkts : List Packet) : State := { State.reset with fns := [vf r, { part := 0, num := 64 }], queues := [vfQueue], packets := pkts }
theorem witness_functionReset : (vfState false []).fn? 0 63 = some (vf false) ∧ (vfState true []).fn? 0 63 = some (vf true) ∧ (vf false).num < 64
    ∧ (vfState false []).fn? 0 64 = some { part := 0, num := 64 }
    ∧ (∃ p ∈ (vfState true [packet 0]).packets, ∃ q ∈ (vfState true [packet 0]).queues, q.part = 0 ∧ q.fn = 63 ∧ q.chain = false ∧ q.id = p.queue)
    ∧ (vfState true []).packets = [] ∧ (∀ q ∈ (vfState true []).queues, unread (vfState true []) q = false)
    ∧ (let s := { queueState 1 0 [] with fns := [{ part := 0, num := 64, resetting := true }] }
       ∃ q ∈ s.queues, q.part = 0 ∧ q.fn = 64 ∧ q.chain = false ∧ unread s q = true) := by decide
/-- A shoot-down of one 64 KiB page, of one of 2 MiB, of everything, and of another function's registers when none is busy. -/
theorem witness_shootDown : (shootRange { vf false with shootVa := 32, shoot := 0x000 }).isSome = true ∧ (shootRange { vf false with shootVa := 32, shoot := 0x100 }).isSome = true
    ∧ bits ({ vf false with shoot := 0x200, shootBusy := true } : Fn).shoot.toNat 9 9 = 1 ∧ (vf false).shootBusy = false ∧ ({ vf false with shootBusy := true } : Fn).shootBusy = true
    ∧ ({ vf false with relBusy := true } : Fn).released = false ∧ (vf false).relBusy = false ∧ ({ vf false with relBusy := true, released := true } : Fn).released = true := by decide
/-- COLL.CMD load of a group of this device and another, of one with nobody, at an address that is not aligned; the entry in use. -/
def groupState (addr : Nat) (desc : List Byte) (cmd : Nat) : State :=
  { State.reset with
    parts := [{ id := 0, islands := List.range 16, collAddr := BitVec.ofNat 64 addr, collCmd := cmd, collBusy := true }]
    mem := putBytes [] (vaultBase + 0x1000) desc }
theorem witness_groups :
    (∃ p, (groupState (vaultBase + 0x1000) [] 1).part? 0 = some p ∧ p.collBusy = true ∧ p.collCmd = 1 ∧ p.collAddr.toNat % 64 = 0 ∧ groupInUse (groupState 0 [] 1) 0 0 = false)
    ∧ heldBack (groupState (vaultBase + 0x1000) [] 1) [] 0 64 (vaultBase + 0x1000) 128 = false
    ∧ (∃ bs, homeRead (groupState (vaultBase + 0x1000) [] 1) ⟨0, 64, true⟩ (vaultBase + 0x1000) .read 128 = .ok bs)
    ∧ groupOf 0 (List.replicate 128 0) = none ∧ groupOf 0 ([0, 254] ++ List.replicate 62 255 ++ [2, 8] ++ List.replicate 62 0) = some ([0, 254], 8)
    ∧ (∃ p, (groupState 0 [] 2).part? 0 = some p ∧ p.collCmd = 2) ∧ (4 : DWord).toNat % 64 ≠ 0
    ∧ (let s : State := collState [0]
       groupInUse s 0 0 = true) := by
  refine ⟨⟨_, rfl, rfl, rfl, by decide, by decide⟩, rfl, ⟨_, rfl⟩, by decide, by decide, ⟨_, rfl, rfl⟩, by decide, by decide⟩
/-- A counter at HOT.THR with room in the log, with a full log, and below it. -/
def hotState (head : Word) : State :=
  { State.reset with parts := [{ id := 0, islands := List.range 16, hotThr := 2, hotSize := 1, hotHead := head, hotBase := 32 }]
                     hot := sput 0 [] (hotKey 0 0 5 1) 2 }
theorem witness_hotness : (∃ p, (hotState 0).part? 0 = some p ∧ p.hotThr ≠ 0 ∧ p.hotThr.toNat ≤ sget 0 (hotState 0).hot (hotKey ((hotState 0).asid 0 64) 0 5 1) ∧ p.hotHead - p.hotTail ≠ p.hotSize)
    ∧ (∃ p, (hotState 1).part? 0 = some p ∧ p.hotHead - p.hotTail = p.hotSize) ∧ sget 0 (hotState 0).hot (hotKey 0 0 6 1) < 2
    ∧ heldBack (hotState 0) [] 0 64 (32 * 65536) 16 = false
    ∧ (∃ u, homeWrite (paged (hotState 0) []) ⟨0, 64, true⟩ none (32 * 65536) (hotRecord 2 1 0 5) = .ok u) := by
  refine ⟨⟨_, rfl, by decide, by decide, by decide⟩, ⟨_, rfl, by decide⟩, by decide, rfl, ⟨_, rfl⟩⟩
/-- A slice that is over, one that is not, a swap in progress; the next holder the same and another. -/
def sliceState (left : Nat) (swapping : Bool) (work : List Launch) : State :=
  { State.reset with
    fns := [{ part := 0, num := 1, admitted := true }, { part := 0, num := 2, admitted := true }, { part := 0, num := 64 }]
    launches := work
    parts := [{ id := 0, islands := List.range 16, holder := some 1, lastHolder := 1, sliceLeft := left, swapping := swapping }] }
def workOf (fn : Nat) : Launch := { grid with id := fn, fn := fn, cells := [{}] }
theorem witness_slices :
    (let a := admitFns (sliceState 0 false [workOf 1, workOf 2]) 0
     ∃ p, a.part? 0 = some p ∧ p.holder = some 1 ∧ sliceOver a p 1 = true ∧ nextHolder a 0 = some 2 ∧ p.swapping = false)
    ∧ (let a := admitFns (sliceState 0 false [workOf 1]) 0
       ∃ p, a.part? 0 = some p ∧ sliceOver a p 1 = true ∧ nextHolder a 0 = some 1)
    ∧ (let a := admitFns (sliceState 5 true [workOf 1, workOf 2]) 0
       ∃ p, a.part? 0 = some p ∧ sliceOver a p 1 = false ∧ p.swapping = true ∧ contextDrained a 0 1 = true ∧ nextHolder a 0 = some 2)
    ∧ (∃ p, State.reset.part? 0 = some p ∧ (admitFns State.reset 0).part? 0 = some p ∧ p.holder = none ∧ nextHolder (admitFns State.reset 0) 0 = none ∧ p.ctxBase = 0)
    ∧ nextHolder (admitFns { sliceState 0 false [workOf 2] with parts := [{ id := 0, islands := List.range 16 }] } 0) 0 = some 2 := by
  refine ⟨⟨_, rfl, rfl, by decide, by decide, rfl⟩, ⟨_, rfl, by decide, by decide⟩, ⟨_, rfl, by decide, rfl, by decide, by decide⟩,
    ⟨_, rfl, rfl, rfl, by decide, rfl⟩, by decide⟩
/-- A resident cell of a function, with a load in flight, beside a cell of another; a lost port, a dirty line. -/
def swapState : State := { viewState [{ viewLoad with stage := .sent }] with cells := [cellOf [fib regs, second], { cellOf [fib []] with id := 2, fn := 3 }] }
theorem witness_contexts : (∃ c ∈ swapState.cells, c.resident = true ∧ c.part = 0 ∧ c.fn = 64)
    ∧ (∃ c ∈ swapState.cells, ¬ (c.part = 0 ∧ c.fn = 64) ∧ ∀ d ∈ swapState.cells, d.part = 0 → d.fn = 64 → d.id ≠ c.id)
    ∧ (functionCells State.reset 0 64).all (fun c => !c.resident) = true ∧ (State.reset.saved.all fun x => !(x.part == 0 && x.fn == 64)) = true
    ∧ (let x : Saved := { part := 0, fn := 3, tag := 0, inArea := false, records := [], tiles := [(0, {})], mx := [] }
       let s := { State.reset with saved := [x], mxTiles := [(8, { leftBy := some (0, 64) })] }
       s.saved.find? (fun z => z.part == 0 && z.fn == 3) = some x ∧ (∀ c ∈ s.cells, c.part = 0 → c.fn ≠ 64) ∧ (0, ({} : TileState)) ∈ x.tiles
        ∧ ∃ t ∈ s.mxTiles, t.2.leftBy ≠ some (0, 3))
    ∧ (∃ c ∈ swapState.cells, c.resident = true ∧ c.cluster = 0) ∧ spareLeft ts (.cluster 0) = true ∧ spareLeft { ts with spares := [(0, 5)] } (.cluster 0) = false
    ∧ spareLeft ts (.slice 255) = true ∧ spareLeft ts (.wavelength 16) = true ∧ (List.range 16).find? (fun m => ringSlot ts 0 m == 16) = none
    ∧ spareLeft ts (.wavelength 15) = true ∧ (List.range 16).find? (fun m => ringSlot ts 0 m == 15) = some 15
    ∧ (List.range 17).find? (fun k => (List.range 16).all fun m => ringSlot ts 0 m != k) = some 16 ∧ ({ ts with lostPorts := [3] } : State).lostPorts.contains 3 = true ∧ ts.lostPorts.contains 3 = false := by decide
/-- Islands: one that runs for a partition, one of no partition, one in another state, one whose point is settling. -/
def islandState (x : Island) (owned : Bool) : State := { State.reset with islands := x :: List.replicate 15 {}, parts := if owned then [{ id := 0, islands := [0] }] else [] }
theorem witness_islands : (islandState {} true).islands.length = 16 ∧ ((islandState {} true).island 0).mode = .running ∧ (∃ p ∈ (islandState {} true).parts, 0 ∈ p.islands)
    ∧ (∀ p ∈ (islandState {} false).parts, 0 ∉ p.islands) ∧ ((islandState { mode := .reset } true).island 0).mode ≠ .running
    ∧ ((islandState { settling := true, hint := 7 } true).island 0).settling = true ∧ ((islandState {} true).island 0).settling = false
    ∧ (0 / 4 : Nat) < 4 ∧ 0 / 4 ∈ ({ islandState { mode := .reset } true with narcy := { failed := [0] } } : State).narcy.failed ∧ 0 / 4 ∉ (islandState {} true).narcy.failed := by decide
/-- Power: on and off; a die above 115 °C and none; a partition to reset. -/
theorem witness_power : State.reset.powered = true ∧ ({ State.reset with powered := false } : State).powered = false
    ∧ (∃ d, d < 4 ∧ 115 * 16 < dieTemp { State.reset with temps := [(2, 116 * 16)] } d) ∧ (∀ d, d < 4 → dieTemp State.reset d ≤ 115 * 16)
    ∧ (∃ p, State.reset.part? 0 = some p) := by
  refine ⟨by decide, by decide, by decide, by decide, ⟨_, rfl⟩⟩
/-- The host: a nonce, a vault access within its vault, the rates and widths of the link, a snoop of a line that no pin holds and of one that is pinned. -/
def hostLine : Line := { asid := 0, part := 0, line := 0x8000, pa := host + 2 ^ 21, bytes := List.replicate 64 1 }
theorem witness_host : (List.replicate 32 (0 : Byte)).length = 32 ∧ (∃ p, State.reset.part? 0 = some p ∧ p.clusters[vaultSize / vaultSize]? = some 1 ∧ (vaultSize % vaultSize) + 4 ≤ vaultSize)
    ∧ heldBack State.reset [] 0 64 (vaultBase + vaultSize) 4 = false ∧ (∃ t, homeWrite State.reset ⟨0, 64, true⟩ none (vaultBase + vaultSize) [1, 2, 3, 4] = .ok t)
    ∧ 64 ∈ [64, 32, 16, 8, 5, 2] ∧ 1 ∈ [16, 8, 4, 1]
    ∧ (∃ l ∈ ({ State.reset with lines := [hostLine], pins := [{ pin 0 with asid := some 0, line := 0x8000 }] } : State).lines,
        l.pa / 64 = (host + 2 ^ 21) / 64 ∧ 2 ^ 47 ≤ l.pa ∧ ∃ p ∈ [{ pin 0 with asid := some 0, line := 0x8000 }], p.asid = some l.asid ∧ p.line = l.line)
    ∧ (∀ l ∈ [hostLine], l.pa / 64 = (host + 2 ^ 21) / 64 → 2 ^ 47 ≤ l.pa → ∀ p ∈ State.reset.pins, ¬ (p.asid = some l.asid ∧ p.line = l.line)) := by
  refine ⟨by decide, ⟨_, rfl, by decide, by decide⟩, rfl, ⟨_, rfl⟩, by decide, by decide, by decide, by decide⟩

/-! The step -/

/-- A word placed where the next fetch is: the step is exec of it. IADD w4, w4, w4 and a word that no instruction has, in a
clause that has begun and in one whose fibre waits for its flags; a fetch that fails. -/
def ownFetch (s : State) : Option (Except Trap Word) := fetchWord s (grp s).cell (grp s).sup (grp s).at_
def oddWord (f : Fibre) : State := { stF f with mem := putBytes [] vaultBase (bytesOfWord 4) }
/-- A handler's lane and a tenant's at one word of a locked cell, in a page that tenants may not read. -/
def mixedState : State :=
  { State.reset with
    cells := [{ cellOf [{ fib regs with pc := 0x200000 }, { fib regs with idx := 1, lane := 1, sup := false, pc := 0x200000 }] with locked := true }]
    mem := putBytes [] host (bytesOfNat 8 (host + 1) ++ bytesOfNat 8 (host + 2 ^ 21 + 15))
    fns := [{ part := 0, num := 64, ptroot := 0x80000000 }]
    cur := { cell := 1, hatch := 2, first := 0x200000, at_ := 0x200000, opened := true } }
theorem witness_step :
    (let s := State.reset.withFetchWord 32 0x04402004
     s.powered = true ∧ s.cur.opened = true ∧ s.grp? = some (grp s) ∧ ownFetch s = some (.ok 0x04402004)
      ∧ (grp s).members.all (·.sup) = true ∧ heldBack s [] 0 64 vaultBase 4 = false)
    ∧ (let s := oddWord (fib regs)
       s.grp? = some (grp s) ∧ ownFetch s = some (.ok 4) ∧ decode 4 = .error .illegalInstruction ∧ (grp s).members.all (·.place.begun) = true)
    ∧ (let s := oddWord flagFib
       s.grp? = some (grp s) ∧ ownFetch s = some (.ok 4) ∧ (beginUnit s (grp s)).2 = false)
    ∧ (let s := { State.reset.withFetchWord 32 0 with cells := [{ cellOf [{ fib [] with pc := 0 }] with id := 1 }], cur := { cell := 1, hatch := 2, opened := true } }
       s.grp? = some (grp s) ∧ ∃ t, ownFetch s = some (.error t)) :=
  ⟨⟨by decide, by decide, by decide, rfl, by decide, rfl⟩, ⟨by decide, rfl, rfl, by decide⟩, ⟨by decide, rfl, by decide⟩, by decide, ⟨_, rfl⟩⟩
/-- A fetch that a pin holds back; the tenants at a word where a handler's lane stands too, whose fetch is refused; inputs of both kinds between
units; an empty agenda; the clearing of a status word as a move, and an input to an unpowered package. -/
theorem witness_heldFetch :
    (let s := { ts with pins := [pinAt (vaultBase / 64)] }
     s.grp? = some (grp s) ∧ ownFetch s = none)
    ∧ mixedState.grp? = some (grp mixedState) ∧ (grp mixedState).members.map (·.idx) = [1] ∧ (grp mixedState).sup = false
    ∧ fetchWord mixedState (grp mixedState).cell true (grp mixedState).at_ = some (.ok 0) ∧ ∃ t, ownFetch mixedState = some (.error t) :=
  ⟨⟨by decide, rfl⟩, by decide, by decide, by decide, rfl, ⟨_, rfl⟩⟩
theorem witness_stepInputs :
    (∃ (s : State) (c : Nat), s.powered = true ∧ s.cur.opened = false ∧ s.agenda = [.move (.arithStatusRc c)])
    ∧ (∃ s : State, s.powered = false ∧ s.agenda = [.issue 0] ∧ Input.issue 0 ≠ .move .powerUp ∧ (∀ d x, Input.issue 0 ≠ .temperature d x)
        ∧ (∀ a bs, Input.issue 0 ≠ .hostWrite a bs) ∧ ∀ d g x, Input.issue 0 ≠ .peerGroup d g x)
    ∧ (let s := { State.reset with powered := false }
     s.powered = false ∧ s.agenda = []) ∧ State.reset.powered = true ∧ State.reset.cur.opened = false
    ∧ (let s := { ts with cur := {} }
       ∃ r, chooseHatch s 0 = some r ∧ r.cell.id = 1)
    ∧ (let s := { trapState with cur := {}, agenda := [.registerError 1 0] }
       s.powered = true ∧ s.cur.opened = false ∧ ∃ c f, s.agenda = .registerError c.id f.idx :: [] ∧ s.cell? c.id = some c
         ∧ c.fibre? f.idx = some f ∧ c.resident = true ∧ f.status = .ready ∧ f.deferred = false ∧ f.mate = none) :=
  ⟨⟨{ State.reset with agenda := [.move (.arithStatusRc 1)] }, 1, rfl, rfl, rfl⟩,
   ⟨{ State.reset with powered := false, agenda := [.issue 0] }, rfl, rfl, by decide, fun _ _ => Input.noConfusion, fun _ _ => Input.noConfusion, fun _ _ _ => Input.noConfusion⟩,
   by decide, by decide, by decide, ⟨_, rfl, by decide⟩, rfl, rfl, cellOf [{ fib regs with sup := false }], { fib regs with sup := false }, rfl, rfl, rfl, rfl, rfl, rfl, rfl⟩
/-- Two ready hatches of different and of equal class, residual and order. -/
def ready (prio : Nat) (rho : Word) (d : Nat) : Ready := { cell := { cellOf [] with prio := prio, rho := rho, dispatched := d }, hatch := 2, pc := BitVec.ofNat 64 vaultBase }
theorem witness_issueOrder : boosted ts (ready 0 0 0) = boosted ts (ready 1 0 1) ∧ (ready 0 0 0).cell.prio < (ready 1 0 1).cell.prio
    ∧ issueRho ts (ready 0 0 0).cell = issueRho ts (ready 0 0 1).cell
    ∧ boosted { ts with mem := putBytes [] vaultBase (bytesOfWord 0xFCC00002) } (ready 0 0 0) = true ∧ boosted ts (ready 0 0 0) = false := by decide
/-- DecodeOfEncode and EncodeOfDecode: an instruction whose word decodes to it. -/
theorem witness_encoding : (Instr.fleave 7).isWord = true ∧ (Instr.fleave 7).wf = true ∧ decode 0xC4000702 = .ok (.fleave 7) := ⟨rfl, rfl, rfl⟩
/-- The invariants of a step hold at reset, and a step answers. -/
theorem witness_invariants : Memory.wf State.reset.mem = true ∧ State.reset.islands.length = 16 ∧ (∃ t, step State.reset = .next t) :=
  ⟨by decide, by decide, ⟨_, rfl⟩⟩
/-- Words and terms of the clauses about encodings; a move and a choice of quadrant on the agenda. -/
theorem witness_words : fld 0x0C000002 26 6 = 0x03 ∧ 2 ≤ fld 0x10000003 0 2 ∧ fld 0x40000100 26 6 = 0x10 ∧ fld 0x40000100 8 3 ≠ 0
    ∧ (Instr.imin .s64 (.w 4) x8 x8).wf = true ∧ (Instr.imax .z64 (.w 4) x8 x8).wf = true ∧ (Instr.popc .b64 (.w 5) x8).wf = true
    ∧ (Instr.clz .b64 (.w 5) x8).wf = true ∧ (Instr.iabs .b64 (.w 4) x8).wf = true
    ∧ (∃ s : State, s.agenda = [.move (.escape 3)] ∧ s.powered = true ∧ s.cur.opened = false ∧ ∃ t, exec (.escape 3) { s with agenda := [] } = .next t)
    ∧ ∃ s : State, s.agenda = [.issue 0] ∧ s.powered = true ∧ s.cur.opened = false :=
  ⟨by decide, by decide, by decide, by decide, by decide, by decide, by decide, by decide, by decide,
   ⟨{ State.reset with agenda := [.move (.escape 3)] }, rfl, rfl, rfl, ⟨_, rfl⟩⟩, { State.reset with agenda := [.issue 0] }, rfl, rfl, rfl⟩

/-! ### Witnesses of further clauses -/

/-- A MOV from k past k63, MOV to k below k48; a JMP to an odd address. -/
theorem witness_outOfRange :
    Lanes ts (grp ts) (viHints [src (.w 12)]) (.w 20) [(src (.w 12), .b32)] (fun _ => [128]) ∧ 63 < (loWord 128).toNat
    ∧ Lanes ts (grp ts) (viHints [w5, w4]) (.w 0) [(w5, .b32), (w4, .b32)] (fun _ => [7, 5]) ∧ (loWord 5).toNat < 48
    ∧ Reads ts (grp ts) false [plainSrc (.w 4) .b64] (fun _ => [0x700000005]) ∧ (0x700000005 : DWord).toNat % 4 ≠ 0 :=
  ⟨lanes_of (by decide) (by decide), by decide, lanes_of (by decide) (by decide), by decide, reads_of (by decide), by decide⟩
/-- Magnitudes at the ends of the float clauses: a subnormal, the least and the greatest normal, 2^128, a value between two BF16
ones; operands of each kind; sums, products, ties; integers and halves; a root and a power of two; bytes of residues. -/
theorem witness_floatValues :
    Rules.mag 1 = 1 / 2 ^ 149 ∧ Rules.mag (2 ^ 23) = 1 / 2 ^ 126 ∧ Rules.mag 0x3F800000 = 1 ∧ Rules.mag Rules.inf31 = 2 ^ 128
    ∧ (0x3F800000 % 2 ^ 16 = 0 ∧ 0x3F800000 < Rules.inf31 ∧ Rules.mag 0x3F800000 ≤ 1 + 1 / 2 ^ 9 ∧ (1 : Rat) + 1 / 2 ^ 9 < Rules.mag (0x3F800000 + 2 ^ 16))
    ∧ Rules.NaN 0x7F800001 = true ∧ Rules.Signals 0x7F800001 = true ∧ Rules.NaN 0xFFC00000 = true ∧ Rules.Signals 0xFFC00000 = false
    ∧ Rules.NaN 0x7F800000 = false ∧ Rules.low31 0xFF800000 = Rules.inf31 ∧ Rules.num 0xC0200000 = -(5 / 2)
    ∧ Rules.zeroInf 0x80000000 0x7F800000 = true ∧ Rules.productOf 0x40000000 0xBF800000 = [(true, some 2)]
    ∧ Rules.mag 0x40000000 * Rules.mag 0x40000000 = Rules.mag 0x40800000 ∧ Rules.uniform 0x7FFFFFFF < 1 / 2 ∧ (1 : Rat) / 2 < Rules.uniform 0x80000000
    ∧ Rules.residues (-84) = 16 ∧ Rules.residues 83 = 206 := by
  decide +kernel
theorem witness_roundings : Rules.Away .none 0 (1 / 2) false true ∧ ¬ Rules.Away .none 0 (1 / 2) false false ∧ Rules.Away .sr (1 / 4) (1 / 2) true false
    ∧ Rules.RoundsTo .rne (5 / 2) 2 ∧ Rules.RoundsTo .dn (-(5 / 2)) (-3) := by
  refine ⟨.inr ⟨rfl, rfl⟩, ?_, ?_, ?_, ?_⟩
  · rintro (h | h)
    · exact absurd h (by decide +kernel)
    · exact Bool.noConfusion h.2
  · show (1 / 4 : Rat) < 1 / 2
    decide +kernel
  · intro k h h'
    have : k = 2 := by
      have h1 : (k : Rat) < (3 : Int) := by grind
      have h2 : ((1 : Int) : Rat) < k := by grind
      have := Rat.intCast_lt_intCast.1 h1
      have := Rat.intCast_lt_intCast.1 h2
      omega
    subst this; exact ⟨fun h => absurd h (by decide +kernel), fun _ => ⟨fun h => absurd h (by decide +kernel), fun h => absurd h (by decide +kernel), fun _ => rfl⟩⟩
  · intro k h h'
    have : k = -3 := by
      have h1 : (k : Rat) < (-2 : Int) := by grind
      have h2 : ((-4 : Int) : Rat) < k := by grind
      have := Rat.intCast_lt_intCast.1 h1
      have := Rat.intCast_lt_intCast.1 h2
      omega
    subst this; exact ⟨fun h => absurd h (by decide +kernel), fun _ => rfl⟩
/-- The headers of a dense and of a stipple list, elements of 2^esz bytes; one past its limits; offsets and counts at the ends of
the clauses. -/
def head (layout h esz : Nat) : List Byte := List.replicate 12 0 ++ bytesOfNat 4 (esz + 256 * layout + 65536 * h) ++ List.replicate 16 0
def inScratch (bs : List Byte) : State := st { cellOf [fib regs] with scratch := putBytes [] 256 bs }
theorem witness_listHeaders : Rules.ListOk (head 0 0 2) 0 ∧ Rules.ListOk (head 1 2 6) 3 ∧ ¬ Rules.ListOk (head 1 2 6) 0 ∧ ¬ Rules.ListOk (head 0 0 7) 5
    ∧ Rules.field (head 1 2 6) 112 8 = 2 ∧ (2 : Nat) % 4 ≠ 0 ∧ 128 % 2 ^ 2 = 0 ∧ (4096 : Nat) < 4080 + 5 * 4
    ∧ ∃ x e, homeRead ts ⟨0, 64, true⟩ 0x200000 .read 32 = .error (x, e) := by
  refine ⟨?_, ?_, ?_, ?_, by decide, by decide, by decide, by decide, ⟨_, _, rfl⟩⟩ <;> (unfold Rules.ListOk; decide)
/-- Lists that pass every check: a dense one in a vault, as the lane of a GATHER or SCATTER reads it; an empty list and one of six
entries in two slices of two rows, both in scratch, the last up to its end. -/
theorem witness_listPasses (d : Nat) (hd : d = 1 ∨ d = 2) :
    (let srcs := [plainSrc (.w 12) .b32, v8, r4].map (·.1.name)
     let r := readTo listState (grp listState) true srcs
     let xs := readVals listState (grp listState) true srcs fun _ => [128, va, 5]
     Rules.Apart xs (fun vs => (vs.getD 1 0).toNat) ∧ ∀ v ∈ xs, Rules.ListPasses r ((grp listState).read listState true srcs).cell
       ((r.fibre? ⟨1, v.1.idx⟩).getD v.1) (loWord (v.2.getD 0 0)).toNat (v.2.getD 1 0).toNat (loWord (v.2.getD 2 0)).toNat d)
    ∧ (let s := inScratch (head 0 0 2)
       Rules.ListPasses s (grp s).cell (fib regs) 4096 (scratchBase + 256) 0 d)
    ∧ (let s := inScratch (head 1 2 2 ++ bytesOfNat 4 1 ++ bytesOfNat 4 2)
       Rules.ListPasses s (grp s).cell (fib regs) 4072 (scratchBase + 256) 3 d) := by
  refine ⟨⟨.inr (by decide), ?_⟩, ?_, ?_⟩
  · intro v hv
    obtain rfl := List.mem_singleton.1 hv
    refine ⟨by rcases hd with rfl | rfl <;> decide, head 0 0 2, 5, 32, ⟨⟨by decide, .inr ⟨by decide, rfl, by decide, by decide⟩⟩, .inl (by decide)⟩, ?_, by decide, by decide, by decide⟩
    unfold Rules.ListOk; decide
  · refine ⟨by rcases hd with rfl | rfl <;> decide, head 0 0 2, 0, 32, ⟨⟨by decide, .inl ⟨256, by decide, by decide, by decide, by decide⟩⟩, .inl (by decide)⟩, ?_, by decide, by decide, by decide⟩
    unfold Rules.ListOk; decide
  · refine ⟨by rcases hd with rfl | rfl <;> decide, head 1 2 2, 6, 40, ⟨⟨by decide, .inl ⟨256, by decide, by decide, by decide, by decide⟩⟩,
      .inr ⟨by decide, [1, 2], by decide, by decide, by decide, ?_⟩⟩, ?_, by decide, by decide, by decide⟩
    · intro i w hw
      match i with
      | 0 => obtain rfl := Option.some.inj hw; exact ⟨by decide, by decide, .inl ⟨288, by decide, by decide, by decide, by decide⟩⟩
      | 1 => obtain rfl := Option.some.inj hw; exact ⟨by decide, by decide, .inl ⟨292, by decide, by decide, by decide, by decide⟩⟩
      | i + 2 => simp at hw
    · unfold Rules.ListOk; decide
/-- Stream descriptors that pass, in a vault and in scratch; one that names an element size too large; the faults of its address.
-/
theorem witness_streamDescriptors :
    (let r := readTo ts (grp ts) false [.w 8]
     Rules.StreamPasses r ((grp ts).read ts false [.w 8]).cell ((r.fibre? ⟨1, 0⟩).getD (fib regs)) va.toNat)
    ∧ (let s := inScratch (List.replicate 16 0 ++ [2])
       Rules.StreamPasses s (grp s).cell (fib regs) (scratchBase + 256))
    ∧ 2 < Rules.field (List.replicate 16 0 ++ [3] ++ List.replicate 15 0) 128 8 ∧ window (2 ^ 57) = none ∧ window (va.toNat + 16) ≠ none ∧ (va.toNat + 16) % 32 ≠ 0
    ∧ (cellOf []).scratchSize < 4096 + 32 ∧ ∃ x e, homeRead ts ⟨0, 64, true⟩ 0x200000 .read 32 = .error (x, e) :=
  ⟨⟨by decide, List.replicate 32 0, ⟨by decide, .inr ⟨by decide, rfl, by decide, by decide⟩⟩, by decide, by decide⟩,
   ⟨by decide, List.replicate 16 0 ++ [2] ++ List.replicate 15 0, ⟨by decide, .inl ⟨256, by decide, by decide, by decide, by decide⟩⟩, by decide, by decide⟩,
   by decide, by decide, by decide, by decide, by decide, ⟨_, _, rfl⟩⟩
/-- What a GATHER, a SCATTER and an SDEF ask of a state, over the whole of what they may read. -/
theorem witness_listRanges : listState.ownPosted ⟨1, 0⟩ va.toNat (32 + 4 * 5) = false
    ∧ heldBack (readTo listState (grp listState) true [.w 12, .w 8, .w 4]) [] 0 64 va.toNat (32 + 4 * 5) = false
    ∧ ts.ownPosted ⟨1, 0⟩ va.toNat 32 = false ∧ heldBack (readTo ts (grp ts) false [.w 8]) [] 0 64 va.toNat 32 = false ∧ ts.refusedStores ⟨1, 0⟩ = [] :=
  ⟨by decide, by decide, by decide, by decide, by decide⟩
/-- A store of the fibre's own to scratch that waits to leave, over the bytes of a store and of a slot and beside them, and one of
another fibre; nothing of the fibre's own before a read. -/
def waitingStore : Acc := { storeAcc with va := sa.toNat }
theorem witness_behind :
    (∃ q ∈ [waitingStore], q.kind.isStore = true ∧ q.stage = .queued ∧ q.va < sa.toNat + 4 ∧ sa.toNat < q.va + q.len
      ∧ ∃ m ∈ (grp ts).members, q.of ⟨1, m.idx⟩ = true)
    ∧ (∀ q ∈ ts.accs, ¬ (q.kind.isStore = true)) ∧ ¬ (sa.toNat + 4 < waitingStore.va + waitingStore.len)
    ∧ frameState.ownBefore ⟨1, 0⟩ (scratchBase + 256) 4 = false ∧ frameState.seenBlocks ⟨1, 0⟩ false (scratchBase + 256) 4 = false
    ∧ slotStays frameState (cellOf [frameFib]) frameFib 1 = true ∧ frameFib.desc 1 ≠ none ∧ (frameFib.desc 1).map (·.base) = some (scratchBase + 256)
    ∧ (let f : Fibre := { fib [] with disp := [(2, mkDesc 2 0 4 (vaultBase + 0x1000))] }
       (f.desc 2).map (fun d => (d.plc, d.base)) = some (2, vaultBase + 0x1000) ∧ (2 : Nat) ≠ 1)
    ∧ (let q := { storeAcc with stage := .refused .protectionFault }
       ({ ts with accs := [q] } : State).refusedStores ⟨1, 0⟩ = [q] ∧ ts.refusedStores ⟨1, 0⟩ = []) := by decide
/-- STI of a lane: an address that passes its check and one that fails it, inside an open draft region and outside; with a refused
store. -/
theorem witness_sti : ts.cell? (grp ts).cell.id = some (cellOf [fib regs]) ∧ checkAddr ts (cellOf [fib regs]) va.toNat 4 2 true = none
    ∧ checkAddr ts (cellOf [fib regs]) sa.toNat 4 2 true ≠ none ∧ inDraft (cellOf []) va.toNat = false
    ∧ (let c : Cell := { cellOf [] with drafts := [(3, { base := 0x200000, sz := 64, lc := 0, cap := 1 })] }
       inDraft c 0x20007C = true ∧ checkAddr ts c 0x20007C 4 2 true = none)
    ∧ parkDue ts ⟨1, 0⟩ .stores = none ∧ ts.refusedStores ⟨1, 0⟩ = []
    ∧ parkDue { ts with accs := [{ storeAcc with stage := .refused .protectionFault }] } ⟨1, 0⟩ .stores
      = some { cause := .protectionFault, detail := 2, faddr := va.toNat } := by decide
/-- A lane with two refused stores at FENCE. -/
def refusedState (c : Cause) : State :=
  { ts with accs := [{ storeAcc with stage := .refused c }, { storeAcc with id := 10, va := vaultBase + 0x2000, stage := .refused .protectionFault }], next := 11 }
theorem witness_fenceParks (k : Cause) (hk : k = .uncorrectable ∨ k = .illegalAddress) :
    let s := refusedState k
    let a : Acc := { storeAcc with stage := .refused k }
    Issues s (grp s) {} ∧ NoTx s (grp s) false ∧ (∃ l, ((grp s).after s false).active = [l] ∧ a.of ⟨(grp s).cell.id, l.idx⟩ = true)
    ∧ a ∈ s.accs ∧ a.kind = .store ∧ a.stage = .refused k ∧ s.kept a.owner = [] ∧ s.ops = []
    ∧ ∀ b ∈ s.accs, b.of a.owner = true → b.kind.posted = true → b.refused = true → a.id < b.id ∨ b = a := by
  rcases hk with rfl | rfl <;>
    exact ⟨issues_of (by decide), noTx_of (by decide), ⟨_, rfl, by decide⟩, by decide, by decide, by decide, by decide, by decide, by decide⟩
/-- A slot that a FLD reads at its home, and one that a pending write of the fibre's answers. -/
def vaultFrame : State := stF { fib regs with disp := [(1, mkDesc 2 0 4 (vaultBase + 0x1000))] }
theorem witness_slotHomes : slotHomes vaultFrame (grp vaultFrame).cell ((grp vaultFrame).members.headD (fib [])) 1 3 = [vaultBase + 0x100C]
    ∧ slotHomes { vaultFrame with accs := [{ storeAcc with va := vaultBase + 0x100C }] } (grp vaultFrame).cell ((grp vaultFrame).members.headD (fib [])) 1 3 = [] := by decide
/-- A block in reach of a handler's lane: the last one of its scratch, one of a vault; one lane alone with a global block; the
clauses of SPILL and FILL in one lane, and an address that cannot be read. -/
theorem witness_spillLanes :
    Rules.InReach handlerState (grp handlerState).cell (scratchBase + 3968) 128 ∧ Rules.InReach handlerState (grp handlerState).cell va.toNat 128
    ∧ (∀ l ∈ ((grp handlerState).after handlerState false).active, (handlerState.fibre? ⟨1, l.idx⟩).any (·.handler.isSome) = true)
    ∧ handlerState.cell? (grp handlerState).cell.id = some (grp handlerState).cell ∧ (grp handlerState).cell.fibre? 0 = some { handlerFib with stack := regs.map fun x => (x.1 + 24, x.2) }
    ∧ handlerFib.spilled ≠ 0 ∧ handlerFib.base ≤ 72 ∧ ({ handlerFib with base := 96 } : Fibre).base > 72 ∧ (checkAddr handlerState (cellOf []) 64 128 1 false).isSome = true
    ∧ (∃ y e, homeRead handlerState ⟨0, 64, true⟩ 0x200000 .read 128 = .error (y, e)) ∧ checkAddr handlerState (cellOf []) 0x200000 128 1 false = none
    ∧ (∃ l, ((grp handlerState).after handlerState false).active = [l])
    ∧ (∃ t, homeWrite (touchHomes handlerState ⟨0, 64, true⟩ none false .write va.toNat 128) ⟨0, 64, true⟩ (some 0) va.toNat (Rules.blockBytes handlerFib) = .ok t)
    ∧ ∃ bs, homeRead handlerState ⟨0, 64, true⟩ va.toNat .read 128 = .ok bs :=
  ⟨.inl ⟨3968, by decide, by decide, by decide⟩, .inr ⟨0, 0x1000, by decide, by decide, by decide, by decide⟩, by decide, by decide, by decide, by decide, by decide, by decide, by decide,
   ⟨_, _, rfl⟩, by decide, ⟨_, rfl⟩, ⟨_, rfl⟩, ⟨_, rfl⟩⟩
/-- FLEAVE of a frame with two references, of one with the last, in scratch and in a vault, with no cover, and behind a store or
an invalidation; of an empty display register. -/
def held (plc : Place3) (count : Nat) (s : State) : State :=
  { s with frames := [{ id := 3, plc := plc, cell := 1, part := 0, fn := 64, base := vaultBase + 0x1000, slots := 4, depth := 2, count := count }] }
def leaver : Fibre := { fib regs with disp := [(2, mkDesc 0 0 4 (scratchBase + 256))], refs := [(2, 3)] }
theorem witness_leaves :
    leaver.again = none ∧ leaver.desc 1 = none ∧ (∀ d, d < 8 → 2 < d → leaver.desc d = none)
    ∧ (∀ p c, let s := held p c (stF leaver)
        s.fibre? ⟨1, 0⟩ = some leaver ∧ (∃ e, s.frameOf leaver 2 = some e ∧ e.count = c ∧ e.plc = p ∧ e.handed = []) ∧ (∀ x ∈ s.frames, x.leaver ≠ some ⟨1, 0⟩) ∧ s.accs = [] ∧ s.ops = []
          ∧ s.invalsClear 0 = true ∧ parkDue s ⟨1, 0⟩ .stores = none ∧ s.coverage ⟨1, 0⟩ = [])
    ∧ (let s := held .vault 1 { stF leaver with accs := [storeAcc] }
       parkDue s ⟨1, 0⟩ .stores = none ∧ ∃ a ∈ s.coverage ⟨1, 0⟩, s.performed .dev a = false)
    ∧ ({ stF leaver with invals := [(0, [{ num := 3, asid := none, line := 1 }])] } : State).invalsClear 0 = false
    ∧ (let s := held .vault 1 { stF leaver with accs := [{ storeAcc with stage := .refused .protectionFault }] }
       (parkDue s ⟨1, 0⟩ .stores).isSome = true) := by
  refine ⟨by decide, by decide, by decide, fun p c => ⟨rfl, ⟨_, rfl, rfl, rfl, rfl⟩, ?_, rfl, rfl, rfl, rfl, rfl⟩, by decide, by decide, by decide⟩
  intro x hx; obtain rfl := List.mem_singleton.1 hx; exact fun h => nomatch h
/-- A fibre that owes a PROOF and holds a transaction quits; its fibres else have nothing refused. -/
theorem witness_quits : Issues (txState 0) (grp (txState 0)) {} ∧ (txState 0).accs = [] ∧ (txState 0).ops = [] ∧ ((grp (txState 0)).after (txState 0) false).active ≠ [] :=
  ⟨issues_of (by decide), rfl, rfl, by decide⟩
/-- A run of an RN8 tile: the integers at the ends of what its channels tell apart, two bytes of −84 and 83, one void; a run of
one product. -/
def runTile : TileState := { runLen := 1, runRows := 1, runCols := 1, chans := [(0, Rules.channels (-7))], rows := 1, cols := 1 }
def twoBytes : List (Nat × Word) := [(0, 16), (1, 206), (4096, 206), (4097, 16)]
theorem witness_residues : crt (Rules.channels 8096632) = 8096632 ∧ crt (Rules.channels (-8096632)) = -8096632
    ∧ (0 : Nat) < 32 ∧ swf noChan runTile.chans = true ∧ swf (0 : Word) runTile.elems = true ∧ (0, Rules.channels (-7)) ∈ runTile.chans
    ∧ sget noChan runTile.chans 0 = Rules.channels (-7) ∧ sget noChan runTile.chans 5 = noChan
    ∧ (16 = Rules.residues (-84) ∧ 206 = Rules.residues 83 ∧ wordOf twoBytes 1 = 206)
    ∧ (7 ≤ (0xE0 : Byte).toNat / 32 ∧ (3 : Byte).toNat % 4 = 3)
    ∧ runTile.runScales = [] ∧ (0 : Nat) ∉ runTile.voidRows := by decide
/-- The bytes of a row that are −84 and 83, and of a column that are 83 and −84. -/
theorem witness_rowBytes : ∀ k, k < 2 → (let b : Byte := (wordOf twoBytes (64 * 0 + k)).setWidth 8
      ¬ (7 ≤ b.toNat / 32 ∨ b.toNat % 4 = 3 ∨ (false = true ∧ b = 0x10)) ∧ b.toNat = Rules.residues ([-84, 83].getD k 0) ∧ -84 ≤ ([-84, 83] : List Int).getD k 0 ∧ ([-84, 83] : List Int).getD k 0 ≤ 83) := by
  decide
/-- The two chains of an element of a row, as ChainRows speaks of them. -/
theorem witness_chain (x : Word × Word) (step : Nat → Word × Word → Word × Word) :
    ∃ e o : Nat → Nat → Word × Word, ∀ j, e j 0 = x ∧ o j 0 = (0, 0) ∧ ∀ k, e j (k + 1) = step (2 * k) (e j k) ∧ o j (k + 1) = step (2 * k + 1) (o j k) :=
  ⟨fun _ k => Nat.rec x (fun k x => step (2 * k) x) k, fun _ k => Nat.rec (0, 0) (fun k x => step (2 * k + 1) x) k, fun _ => ⟨rfl, rfl, fun _ => ⟨rfl, rfl⟩⟩⟩
/-- MMA of a tile with a run open under another slot, under the same one with the sixteenth to come; MWR, MZERO at the head of
their tile; an MMA with its elements read. -/
theorem witness_tileOrder :
    (let t : TileState := { runTile with runSlot := 1 }
     0 < t.runLen ∧ t.runSlot ≠ 0) ∧ ¬ (runTile.runSlot ≠ 0) ∧ 15 + 1 = 16 ∧ (dscOf dscA).fmt ≠ 0 ∧ (dscOf 0x40000000).fmt ≠ 0
    ∧ (∀ k : OpKind, k ∈ [.mwr 0 3 31 [(31, 5)] (0, 64), .mzero 0 3 (0, 64)] →
        (opState k).ops.find? (fun x => x.tileTurn == some (0, 3) && !(opState k).away x) = some (opOf k))
    ∧ (31 < 32 ∧ (([(31, 5)] : List (Nat × Word)).map (·.1)).Nodup)
    ∧ (let ea : Tile := { base := va, dsc := dscA, num := 0 }
       let eb : Tile := { base := va, dsc := dscA + 0x80000000, num := 1 }
       let m : List (Nat × Word) := (mmaElems ea eb false).map fun x => (x.1, 0)
       let o : Op := { opOf (.mma 0 3 7 false ea eb 0) with result := some m }
       let s := { ts with ops := [o] }
       s.op? 5 = some o ∧ o.refused = none ∧ o.after = [] ∧ s.atHead o = true ∧ (cellOf []).resident = true ∧ m.map (·.1) = (mmaElems ea eb false).map (·.1)) := by decide
/-- DRAFT of a header that passes, of one whose capacity is too large, and at bases that fail each check; ACCEPT into a region
that is open and into none, of bytes that land and of one that cannot. -/
theorem witness_draftLanes :
    ts.cell? 1 = some (cellOf [fib regs]) ∧ (cellOf [fib regs]).fibre? 0 = some (fib regs)
    ∧ (checkAddr draftState (cellOf []) 0x200020 64 1 true).isSome = true ∧ checkAddr draftState (cellOf []) 0x200000 64 1 true = none
    ∧ checkAddr draftState (cellOf []) vaultBase 64 1 true = none ∧ window vaultBase ≠ some .global ∧ window 0x200000 = some .global
    ∧ (∃ y e, homeRead ts ⟨0, 64, true⟩ 0x200000 .read 64 = .error (y, e))
    ∧ (∃ bs, homeRead draftState ⟨0, 64, true⟩ 0x200000 .read 64 = .ok bs ∧ Rules.field bs 48 464 = 0 ∧ Rules.field bs 32 16 = 64 ∧ 1024 * 64 ≤ 65536 ∧ 65536 < 1025 * Rules.field bs 32 16)
    ∧ drafted.cell? 1 = drafted.cells.head? ∧ (cellOf []).drafts.find? (·.1 == 3) = none ∧ (drafted.cells.head?.bind fun c => c.drafts.find? (·.1 == 3)).isSome = true
    ∧ parkDue drafted ⟨1, 0⟩ .stores = none
    ∧ (∃ t, landAll drafted (cellOf []) true [(0x200000, 5)] = .ok t) ∧ (∃ a e, landAll drafted (cellOf []) true [(0, 1)] = .error (a, e)) ∧ drafted.invalsClear 0 = true :=
  ⟨by decide, by decide, by decide, by decide, by decide, by decide, by decide, ⟨_, _, rfl⟩, ⟨_, rfl, by decide, by decide, by decide, by decide⟩, by decide, by decide, by decide, by decide,
   ⟨_, rfl⟩, ⟨_, _, rfl⟩, by decide⟩
/-- Scratch that a TQPUSH reads while no store of its lane's own to it waits. -/
theorem witness_scratchReads : (∀ l ∈ ((grp qState).after qState true).active, scratchWaits qState (grp qState).cell l 4032 = false)
    ∧ scratchWaits { qState with accs := [{ storeAcc with va := scratchBase + 4092 }], next := 10 } (grp qState).cell (fib qRegs) 4032 = true
    ∧ (cellOf []).scratchSize = (grp qState).cell.scratchSize ∧ 4032 + 64 ≤ (grp qState).cell.scratchSize ∧ (grp qState).cell.scratchSize < 4096 + 64
    ∧ (checkAddr qState (cellOf []) (2 ^ 57) 1 3 true).isSome = true ∧ checkAddr qState (cellOf []) 0x1000 1 3 true = none := by
  decide
/-- A load that the fibre's last point of cell scope puts after a reduction of the cluster; a load with cell scope. -/
def seenState : State :=
  { st (cellOf [fib regs, { second with seen := [8] }]) with accs := [{ redAcc with id := 8, owner := ⟨1, 0⟩, members := [(8, [])] }, viewLoad], next := 10 }
theorem witness_points : seenState.seenBlocks viewLoad.owner false viewLoad.va viewLoad.len = true
    ∧ (viewState [viewStore, viewLoad]).seenBlocks viewLoad.owner false viewLoad.va viewLoad.len = false
    ∧ viewLoad.ord ≠ .cell ∧ (let x : Acc := { viewLoad with ord := .cell }
      x.kind = .load ∧ x.members = [(x.id, [])] ∧ ∀ e ∈ (moving x).accs, e.id = x.id → e = x)
    ∧ (let q : Acc := { viewStore with data := [1, 2], len := 2 }
       (pendingStores (viewState [q, viewLoad]) viewLoad).getLast? = some q ∧ ¬ (viewLoad.va + viewLoad.len ≤ q.va + q.len))
    ∧ (fenced []).fibre? 0 = some { fib regs with status := .fence false false .coh [] } ∧ fenceMet (st (fenced [])) 0 false false .cell [] = true := by decide
/-- Entries of a page table with a bit set that must be zero, in a table entry, a leaf and a 2 MiB leaf; a 2 MiB leaf; a leaf
whose frame is under release. -/
def leaf : Nat := host + 2 ^ 21 + 31
theorem witness_walkBits :
    bits (host + 1 + 4) 7 2 ≠ 0 ∧ bits (host + 1 + 2 ^ 48) 63 48 ≠ 0 ∧ bits (host + 1 + 256) 47 8 * 256 % 4096 ≠ 0 ∧ bits (leaf + 32) 15 5 ≠ 0 ∧ bits (leaf + 2 ^ 48) 60 48 ≠ 0
    ∧ bits (leaf + 65536) 20 16 ≠ 0 ∧ bits leaf 20 16 = 0 ∧ bits leaf 1 1 = 1 ∧ bits leaf 60 48 = 0 ∧ bits leaf 15 5 = 0 ∧ bits leaf 0 0 = 1
    ∧ walkState.physOk page.pa = true ∧ walkState.physOk 0 = false ∧ ts.underRelease (bits leaf 47 16 * 65536) (2 ^ 21) = false
    ∧ ({ ts with fns := [{ part := 0, num := 64, relAt := 0x80000020, rel := 1, relBusy := true }] } : State).underRelease (bits leaf 47 16 * 65536) (2 ^ 21) = true := by decide
/-- A plate cell's fibre at SETTLE with every flag zero, and one whose stream holds a flag at 1; a grid's cell. -/
def owing : Cell := cellOf [{ fib regs with status := .blocked .settle, recs := [(0, { active := true, flag := 3, base := va, stride := 4, count := 1, idx := va, esz := 4, fetched := 0, popped := 0 })] }]
theorem witness_settleFlags : (∀ f ∈ settling.fibres, ∀ n, n < 12 → f.flag n = 0) ∧ (∃ f ∈ owing.fibres, ∃ n, n < 12 ∧ f.flag n ≠ 0) ∧ (st owing).cell? 1 = some owing := by decide
/-- A CLAUSE word with a reserved value; a word of no instruction in a clause that begins now and in one that waits. -/
theorem witness_badWords :
    (let s := { stF { fib regs with place := {} } with mem := putBytes [] vaultBase (bytesOfWord 0xF8003FC1) }
     s.grp? = some (grp s) ∧ ownFetch s = some (.ok 0xF8003FC1) ∧ decode 0xF8003FC1 = .error .illegalClause)
    ∧ (let s := oddWord { fib regs with place := {} }
       s.grp? = some (grp s) ∧ ownFetch s = some (.ok 4) ∧ (beginUnit s (grp s)).2 = true) :=
  ⟨⟨by decide, rfl, rfl⟩, by decide, rfl, by decide⟩
/-- A write of the registers of a partition: each branch of VF.RESET, VF.QUANTUM, PHOT.MAP, QUEUE.CMD and COLL.CMD. -/
theorem witness_registerWrites : ∃ p k, ts.part? 0 = some p ∧ ts.fn? 0 64 = some k ∧ p.queueBusy = false ∧ p.collBusy = false ∧ k.shootBusy = false ∧ k.relBusy = false
    ∧ p.vfSel ≠ 64 ∧ (1 : Word).getLsbD 0 = true ∧ (2 : Word).getLsbD 0 = false ∧ (0xC0000 : Word).toNat / 2 ^ 18 % 4 = 3 ∧ (0x40000 : Word).toNat / 2 ^ 18 % 4 ≠ 3
    ∧ ringSlot ts (fib regs).bank.toNat 3 = 3 ∧ slotFailed ts 0 16 = false ∧ (∀ m, m < 16 → m ≠ 3 → ringSlot ts 0 m ≠ 16) ∧ (∃ m, m < 16 ∧ m ≠ 3 ∧ ringSlot ts 0 m = 4) :=
  ⟨_, _, rfl, rfl, by decide, by decide, by decide, by decide, by decide, by decide, by decide, by decide, by decide, by decide, by decide, by decide, by decide⟩
/-- A context swap that meets a transaction, and tiles of two functions. -/
def savedState : State :=
  { swapState with cells := [cellOf [{ fib regs with tx := some (tx 0) }]], mxTiles := [(8, { leftBy := some (0, 3) }), (9, { elems := [(5, 7)], leftBy := some (0, 64), wroteAll := mxOwner 0 64 })] }
theorem witness_saved : (∃ c f x, savedState.cell? c.id = some c ∧ c.resident = true ∧ c.part = 0 ∧ c.fn = 64 ∧ c.fibre? f.idx = some f ∧ f.tx = some x)
    ∧ (∃ t, (8, t) ∈ savedState.mxTiles ∧ t.leftBy ≠ some (0, 64)) ∧ (∃ t, (9, t) ∈ savedState.mxTiles ∧ t.writer 5 = mxOwner 0 64)
    ∧ (let x : Saved := { part := 0, fn := 3, tag := 0, inArea := false, records := [], tiles := [(0, { elems := [(5, 7)], leftBy := some (0, 3) })], mx := [] }
       let s := { savedState with saved := [x] }
       s.saved.find? (fun z => z.part == 0 && z.fn == 3) = some x ∧ (∀ z ∈ s.mxTiles, z.1 ≠ 0) ∧ ∀ y ∈ x.tiles, swf (0 : Word) y.2.elems = true ∧ y.2.leftBy ≠ none) :=
  ⟨⟨cellOf [{ fib regs with tx := some (tx 0) }], { fib regs with tx := some (tx 0) }, tx 0, rfl, rfl, rfl, rfl, rfl, rfl⟩, ⟨_, .head _, by decide⟩, ⟨_, .tail _ (.head _), by decide⟩, by decide⟩

/-- A slot of a vault frame: a refused store of the fibre's own that covers it, its own write by name, a store of the cluster's view,
the home; a slot of a global frame that no page holds. -/
theorem witness_memorySlots :
    let f : Fibre := { fib regs with disp := [(1, mkDesc 2 0 4 (vaultBase + 0x1000))] }
    let with_ (a : List Acc) : State := { vaultFrame with accs := a, next := 20 }
    (f.desc 1).map (fun d => (d.plc, d.base, d.size)) = some (2, vaultBase + 0x1000, 3)
    ∧ (∀ a ∈ [[], [{ storeAcc with va := vaultBase + 0x100C, stage := .refused .protectionFault }],
        [{ storeAcc with va := vaultBase + 0x100C, kind := .slotWrite 0 }], [{ storeAcc with owner := ⟨1, 1⟩, va := vaultBase + 0x100C, stage := .inView }]],
      (with_ a).acqPending ⟨1, 0⟩ = false ∧ (with_ a).ownBefore ⟨1, 0⟩ (vaultBase + 0x100C) 4 = false ∧ (with_ a).seenBlocks ⟨1, 0⟩ false (vaultBase + 0x100C) 4 = false)
    ∧ (let q : Acc := { storeAcc with va := vaultBase + 0x100C, kind := .slotWrite 0 }
       q.of ⟨1, 0⟩ = true ∧ q.pendsIn (vaultBase + 0x100C) 4 = true ∧ q.pendsAll (vaultBase + 0x100C) 4 = true)
    ∧ (let q : Acc := { storeAcc with owner := ⟨1, 1⟩, va := vaultBase + 0x100C, stage := .inView }
       q.of ⟨1, 0⟩ = false ∧ q.inFlight = true ∧ q.pendsAll (vaultBase + 0x100C) 4 = true ∧ ({ q with got := 1 } : Acc).pendsIn (vaultBase + 0x100C) 4 = false)
    ∧ (∃ bs, homeRead vaultFrame ⟨0, 64, true⟩ (vaultBase + 0x100C) .read 4 = .ok bs) ∧ ∃ x e, homeRead vaultFrame ⟨0, 64, true⟩ 0x200000 .read 4 = .error (x, e) :=
  ⟨by decide, by decide, by decide, by decide, ⟨_, rfl⟩, ⟨_, _, rfl⟩⟩
/-- Transactions of two lanes that share a line that one writes, and of two that do not; the reads of one that commits, that finds
other bytes, and that its home refuses. -/
def reading (l : Nat) (bs : List Byte) : Tx := { tx 0 with reads := [(l, bs)], writes := [] }
theorem witness_commits :
    (txSplit [(fib [], tx 0)]).1 = [(fib [], tx 0)] ∧ (∃ b ∈ (tx 0).writes, b.1 / 64 = (vaultBase + 0x1000) / 64)
    ∧ (reading ((vaultBase + 0x1000) / 64) []).reads = [] ++ ((vaultBase + 0x1000) / 64, []) :: [] ∧ (reading 5 []).writes = []
    ∧ ts.cell? (grp ts).cell.id = some (cellOf [fib regs]) ∧ (cellOf [fib regs]).fibre? 0 = some (fib regs) ∧ (cellOf [fib regs]).drafts = []
    ∧ homeRead ts ⟨0, 64, true⟩ (64 * ((vaultBase + 0x1000) / 64)) .read 64 = .ok (List.replicate 64 0) ∧ (List.replicate 64 (0 : Byte)) ≠ []
    ∧ (∀ b ∈ (tx 0).writes, ∃ v o, v < 192 ∧ o < vaultSize ∧ b.1 = vaultBase + v * vaultSize + o ∧ ts.hasVault 0 v = true)
    ∧ ∃ a e, homeRead ts ⟨0, 64, true⟩ (64 * 0x8000) .read 64 = .error (a, e) :=
  ⟨by decide, by decide, rfl, rfl, by decide, by decide, by decide, by decide, by decide,
   fun b hb => by obtain rfl := List.mem_singleton.1 hb; exact ⟨0, 0x1000, by decide, by decide, by decide, by decide⟩, ⟨_, _, rfl⟩⟩
/-- The end of a fibre that holds a frame with two references and with the last; of the last fibre of a plate's cell, with a pin. -/
theorem witness_frameEnds :
    (∀ p c, let s := held p c (st (cellOf [leaver, second]))
      s.cell? 1 = some (cellOf [leaver, second]) ∧ s.own ⟨1, 0⟩ = [] ∧ ∃ e, s.frameOf leaver 2 = some e ∧ e.count = c ∧ e.leaver = none)
    ∧ (cellOf [leaver, second]).fibre? 0 = some leaver ∧ (∃ x ∈ (cellOf [leaver, second]).fibres, x.idx ≠ leaver.idx)
    ∧ leaver.desc 2 ≠ none ∧ (∀ d, d < 8 → d ≠ 2 → leaver.desc d = none)
    ∧ (∃ l e, settleState.launch? settling.launch = some l ∧ l.kind ≠ .grid ∧ l.cells[settling.index]? = some e)
    ∧ ∃ p ∈ (endCell { ts with accs := [{ storeAcc with stage := .sent }], pins := [{ pinAt 9 with accs := [9] }] } 1).pins, p.cell = 1 :=
  ⟨fun _ _ => ⟨rfl, rfl, _, rfl, rfl, rfl⟩, by decide, by decide, by decide, by decide, ⟨_, _, rfl, by decide, rfl⟩, by decide⟩
/-- FORK by a fibre that holds a frame, and in a quadrant of 512 fibres. -/
def crowded : State := { ts with cells := [cellOf [leaver], { cellOf (List.replicate 511 (fib [])) with id := 2 }] }
theorem witness_forkRoom : crowded.cell? 1 = some (cellOf [leaver]) ∧ (cellOf [leaver]).fibre? 0 = some leaver ∧ (cellOf [leaver]).fibre? 1 = none
    ∧ leaver.disp ≠ [] ∧ (stF leaver).cell? 1 = some (cellOf [leaver]) ∧ quadLoad (stF leaver) 0 0 < 512 ∧ freeSlot (stF leaver) 0 0 64 = some 1
    ∧ 512 ≤ quadLoad crowded 0 0 := by decide +kernel
/-- FENTER: what it asks of its pool; the first block of a pool in a vault, in global memory that a page holds, and in global memory
that none holds. -/
def memPool (b : Nat) : Record := { vpBase := va, vpBlk := 64, vpCnt := 1, gpBase := BitVec.ofNat 64 b, gpBlk := 64, gpCnt := 1 }
theorem witness_pools :
    (∀ l ∈ ((grp poolState).after poolState false).active, poolState.acqPending ⟨1, l.idx⟩ = false
      ∧ ∀ b ∈ (poolOf (cellOf []) poolRecord 0).blocks, poolState.ownPosted ⟨1, l.idx⟩ b 64 = false ∧ poolState.ownReads ⟨1, l.idx⟩ b 64 = false
        ∧ heldBack (readTo poolState (grp poolState) false [.w 4]) [] 0 64 b 64 = false)
    ∧ (poolOf (cellOf []) (memPool 0x200000) 1).blocks.find? (fun b => !blockTaken ts (cellOf []) 1 b) = some va.toNat ∧ 0 + 4 * 16 ≤ vaultSize ∧ ts.hasVault 0 0 = true
    ∧ (poolOf (cellOf []) (memPool 0x200000) 2).blocks.find? (fun b => !blockTaken ts (cellOf []) 2 b) = some 0x200000 ∧ 0x200000 < vaultBase
    ∧ (∃ x k, homeWrite ts ⟨0, 64, true⟩ (some 0) 0x200000 (List.replicate 64 0) = .error (x, k))
    ∧ ∃ t, homeWrite (paged ts []) ⟨0, 64, true⟩ (some 0) 0x200000 (List.replicate 64 0) = .ok t :=
  ⟨by decide, by decide, by decide, by decide, by decide, by decide, ⟨_, _, rfl⟩, ⟨_, rfl⟩⟩
/-- Spans that end at the edges of the windows, of the partition's vaults and of the cell's scratch, and one past each; descriptors that
keep and break the table; handles, of which the other slot's do not fit. -/
theorem witness_spans :
    vaultBase - 8 + 8 ≤ vaultBase ∧ ¬ vaultBase - 4 + 8 ≤ vaultBase ∧ ¬ vaultBase ≤ vaultBase - 4
    ∧ vaultBase + 192 * vaultSize - 8 + 8 ≤ vaultBase + 192 * vaultSize ∧ ts.hasVault 0 191 = true ∧ ts.hasVault 1 0 = false
    ∧ scratchBase + 4088 + 8 ≤ scratchBase + (cellOf []).scratchSize ∧ ¬ scratchBase + 4092 + 8 ≤ scratchBase + (cellOf []).scratchSize
    ∧ ¬ Rules.Breaks dscA (Rules.kLimit 2) ∧ Rules.Breaks (dscA + 1) (Rules.kLimit 2) ∧ Rules.Breaks 0x40000000 8 ∧ Rules.bitsOf dscA 29 2 = 2
    ∧ va.toNat % 16 = 0 ∧ (va + 4).toNat % 16 ≠ 0
    ∧ (grp twoTiles).cell.tileOf 0 = some { base := va, dsc := dscA, num := 0 } ∧ (grp twoTiles).cell.tileOf 5 = none
    ∧ mmaCheck twoTiles (grp twoTiles).cell 7 0 1 ≠ none ∧ mmaCheck twoTiles (grp twoTiles).cell 7 1 0 = none
    ∧ ¬ (Rules.bitsOf dscA 31 1 ≠ 0 ∨ (Rules.bitsOf dscA 29 2 ≠ 1 ∧ Rules.bitsOf dscA 29 2 ≠ 2) ∨ Rules.bitsOf dscA 5 1 ≠ 0 ∨ Rules.Breaks dscA 32) := by
  unfold Rules.Breaks; decide
/-- MMA of handles in the wrong places, MRD and MWR of row 32, MST of a descriptor with a reserved bit. -/
def badTiles : State := { twoTiles with cells := twoTiles.cells.map fun c => { c with fibres := [fib [(4, 0x40000041), (5, 1), (8, 0x1000), (9, 0x1000000), (12, 32)]] } }
theorem witness_matrixTraps :
    (let srcs : List (Field × Bool) := [(r5, false), (r5, false)]
     NoTx badTiles (grp badTiles) true ∧ Rules.Once badTiles (grp badTiles) {} true srcs (fun _ => [1, 1])
      ∧ mmaCheck (lowTo badTiles (grp badTiles) true srcs) ((grp badTiles).low badTiles true srcs).cell 7 1 1 = none)
    ∧ Rules.Once badTiles (grp badTiles) {} true [(plainSrc (.w 12) .b32, false)] (fun _ => [32]) ∧ 32 ≤ (loWord 32).toNat
    ∧ Rules.Once badTiles (grp badTiles) {} false [(r5, true), (plainSrc (.w 12) .b32, false)] (fun _ => [1, 32])
    ∧ Rules.Once badTiles (grp badTiles) {} true baseAndDsc (fun _ => [va, 0x40000041])
    ∧ (mstCheck (lowTo badTiles (grp badTiles) true baseAndDsc) ((grp badTiles).low badTiles true baseAndDsc).cell va 0x40000041
        (tileExtents (lowTo badTiles (grp badTiles) true baseAndDsc) ((grp badTiles).low badTiles true baseAndDsc).quad 0)).isSome = true :=
  ⟨⟨noTx_of (by decide), once_of (by decide) (by decide) (by decide), by decide⟩, once_of (by decide) (by decide) (by decide), by decide,
   once_of (by decide) (by decide) (by decide), once_of (by decide) (by decide) (by decide), by decide⟩
/-- The operands of witness_posts pass every lane's checks; the operands that each check of these words refuses. -/
theorem witness_postChecks :
    Rules.ProofOk qState (grp qState).cell 3824 0x1000 64 ∧ Rules.RecordAt (grp qState).cell 4032 ∧ checkAddr qState (grp qState).cell 0x1000 1 3 false = none
    ∧ (64 : Nat) % 64 = 0 ∧ 64 + 64 * 16 ≤ (grp qState).cell.scratchSize ∧ 0x1000 % 64 = 0 ∧ window 0x1000 ≠ none
    ∧ 2 ^ 57 % 64 = 0 ∧ window (2 ^ 57) = none ∧ 3825 % 16 ≠ 0 ∧ (grp qState).cell.scratchSize < 3840 + 4 * 64 + 16 ∧ 4033 % 64 ≠ 0
    ∧ (grp qState).cell.scratchSize < 3136 + 64 * 16 ∧ 3136 % 64 = 0 ∧ (grp qState).cell.scratchSize < 4096 + 64 ∧ 0x1004 % 64 ≠ 0 := by
  unfold Rules.ProofOk Rules.RecordAt; decide
/-- DRAFT and DISCARD with no store of the fibre's to the region under way, and one with such a store; DISCARD of a region that is not
open. -/
theorem witness_openBusy :
    openBusy draftState ((grp draftState).low draftState false [(v16, false), (r4, false)]).cell (fib regs) 3 = false
    ∧ (match draftAt (lowTo draftState (grp draftState) false [(v16, false), (r4, false)]) ((grp draftState).low draftState false [(v16, false), (r4, false)]).cell (fib regs) 0x200000 5 with
        | .ok d => !draftBusy draftState (cellOf [fib regs]) (fib regs) d | .error _ => false) = true
    ∧ openBusy drafted ((grp drafted).after drafted false).cell (fib regs) 3 = false ∧ (∃ l, ((grp drafted).after drafted false).active = [l])
    ∧ (let s := { drafted with accs := [{ storeAcc with va := 0x200040 }], next := 10 }
       openBusy s (grp s).cell (fib regs) 3 = true)
    ∧ Issues ts (grp ts) {} ∧ ((grp ts).after ts false).cell.drafts.any (·.1 == 3) = false ∧ ∃ l, ((grp ts).after ts false).active = [l] :=
  ⟨by decide, by decide, by decide, ⟨_, rfl⟩, by decide, issues_of (by decide), by decide, _, rfl⟩
/-- EWAIT in a lane: no chain, a header that cannot be read, one that has yet to complete command 1, one that has, one whose ring has
passed it, and one whose record cannot be read. -/
def header (ring tail done : Nat) : State :=
  { ts with queues := [chain], mem := putBytes (putBytes [] (vaultBase + 0x1000) (bytesOfNat 8 ring ++ bytesOfNat 8 4)) (vaultBase + 0x1014) (bytesOfNat 4 tail ++ bytesOfNat 4 0 ++ bytesOfNat 4 done) }
def headOf (s : State) : List Byte := bytesAt s.mem (vaultBase + 0x1000) 64
theorem witness_ewaitLane :
    (fib regs).again = none ∧ regAt ts 0 64 va.toNat true = none ∧ regAt (header 0 1 0) 0 64 va.toNat true = some chain ∧ va.toNat % 64 = 0 ∧ (va + 4).toNat % 64 ≠ 0
    ∧ (∃ a e, homeRead ts ⟨0, 64, true⟩ 0x200000 .read 64 = .error (a, e))
    ∧ (∀ t ∈ [1, 5], ∀ d ∈ [0, 1], homeRead (header (vaultBase + 0x1100) t d) ⟨0, 64, true⟩ va.toNat .read 64 = .ok (headOf (header (vaultBase + 0x1100) t d)))
    ∧ ((4 : Int) ≤ ((5 : Word) - 1).toInt ∧ ((1 : Word) - 1).toInt < 4 ∧ ¬ (0 : Int) ≤ ((0 : Word) - 1).toInt ∧ (0 : Int) ≤ ((1 : Word) - 1).toInt)
    ∧ Rules.field (headOf (header (vaultBase + 0x1100) 5 1)) 160 32 = 5 ∧ Rules.field (headOf (header (vaultBase + 0x1100) 5 1)) 224 32 = 1 ∧ Rules.field (headOf (header (vaultBase + 0x1100) 5 1)) 64 32 = 4
    ∧ (∃ b, homeRead (header (vaultBase + 0x1100) 1 1) ⟨0, 64, true⟩ (vaultBase + 0x1100 + 36) .read 1 = .ok b) ∧ ∃ a e, homeRead (header 0x200000 1 1) ⟨0, 64, true⟩ (0x200000 + 36) .read 1 = .error (a, e) :=
  ⟨by decide, by decide, by decide, by decide, by decide, ⟨_, _, rfl⟩, by decide, by decide, by decide, by decide, by decide, ⟨_, rfl⟩, _, _, rfl⟩
/-- Fibres that wait at an EWAIT whose command has yet to end, has ended, has failed. -/
def awaiting (e : Option Bool) : Cell := cellOf [{ fib regs with status := .blocked (.ewait 1 1 e) }]
theorem witness_ewaitEnds (e : Option Bool) : (st (awaiting e)).cell? 1 = some (awaiting e) ∧ (awaiting e).fibres ≠ []
    ∧ (∀ f ∈ (awaiting e).fibres, f.hatch = 2 ∧ f.waitAt = 0 ∧ ∃ q n e, f.status = .blocked (.ewait q n e)) ∧ (st (awaiting e)).invalsClear 0 = true
    ∧ ∀ d ∈ (st (awaiting e)).cells, d.id = 1 → d = awaiting e := by
  refine ⟨rfl, by simp [awaiting, cellOf], fun f hf => ?_, rfl, fun d hd _ => List.mem_singleton.1 hd⟩
  obtain rfl := List.mem_singleton.1 hf
  exact ⟨rfl, rfl, _, _, _, rfl⟩
/-- RECV of a channel that is not declared; the first of two senders and of two receivers. -/
theorem witness_firstWaiters :
    Words ts (grp ts) {} true [] (fun _ => []) ∧ (grp ts).cell.chans.any (·.1 == 3) = false ∧ ((grp ts).after ts true).active ≠ []
    ∧ ∀ w : Wait, w = .send 3 [5] ∨ w = .recv 3 20 none →
      let f : Fibre := { fib regs with status := .blocked w }
      let c : Cell := { cellOf [f, { f with idx := 1, lane := 1, since := 4 }] with chans := [(3, { cap := 1 })] }
      c.chans.find? (·.1 == 3) = some (3, { cap := 1 }) ∧ ∀ x ∈ c.fibres, x = f ∨ f.since < x.since :=
  ⟨words_of (by decide) (by decide) (by decide), by decide, by decide, fun _ _ => ⟨rfl, fun x hx => by
    rcases List.mem_cons.1 hx with h | h
    · exact .inl h
    · obtain rfl := List.mem_singleton.1 h; exact .inr (show 0 < 4 by decide)⟩⟩
/-- LEAVE of an STI, of a store to a tentative slot; with an operation of the fibre's before it. -/
theorem witness_leaveKinds :
    (let x : Acc := { storeAcc with kind := .sti }
     leaveTurn (moving x) x = true ∧ x.kind.isStore = true ∧ tentative (moving x) x = false)
    ∧ (let x : Acc := { storeAcc with va := 0x200040 }
       let s := { drafted with accs := [x], next := 10 }
       leaveTurn s x = true ∧ tentative s x = true ∧ x.va < scratchBase)
    ∧ (let o := opOf (.value [])
       leaveTurn { moving storeAcc with ops := [o] } storeAcc = true ∧ o.owner = storeAcc.owner ∧ o.id < storeAcc.id ∧ ((moving storeAcc).kept ⟨1, 0⟩).contains 5 = false)
    ∧ (let e : Acc := { storeAcc with stage := .sent }
       ((viewState [e]).kept ⟨1, 0⟩).contains e.id = false) := by decide
/-- ARRIVE at a vault of each kind of request, of 4 and of 8 bytes, a CAS that holds and one that fails; at homes that give a word and
that refuse. -/
theorem witness_arrivals :
    (∀ k ∈ [AccKind.store, .sti, .slotWrite 3], k.isStore = true) ∧ (∀ k ∈ [AccKind.atom .add64, .red .add64, .cas 0, .sgnl], k.isAtomic = true)
    ∧ (∀ n ∈ [4, 8], (vaultBase + 0x1000) % n = 0 ∧ vaultBase + 0 * vaultSize ≤ vaultBase + 0x1000 ∧ vaultBase + 0x1000 + n ≤ vaultBase + (0 + 1) * vaultSize)
    ∧ ts.hasVault storeAcc.part 0 = true ∧ Memory.wf ts.mem = true
    ∧ Rules.newValue (.cas 0) 0 7 = some 7 ∧ Rules.newValue (.cas 1) 0 7 = none ∧ Rules.newValue .sgnl (2 ^ 64 - 1) 2 = some 1
    ∧ (let x : Acc := { storeAcc with stage := .sent, va := 0x200000 }
       (moving x).cell? x.owner.cell = some (cellOf [fib regs]) ∧ (moving x).refusedStores x.owner = [] ∧ (cellOf [fib regs]).held = []
        ∧ (∃ a e, homeRead (moving x) x.who x.va .read 4 = .error (a, e)) ∧ (∃ a e, homeWrite (touchLine (moving x) x) x.who (some x.cluster) x.va x.data = .error (a, e))
        ∧ (∃ a e, homeNat (moving x) x.who x.va 4 = .error (a, e))
        ∧ (∃ bs, homeRead (paged (moving x) []) x.who x.va .read 4 = .ok bs ∧ bs.length = 4)
        ∧ (∃ t, homeWrite (touchLine (paged (moving x) []) x) x.who (some x.cluster) x.va x.data = .ok t)
        ∧ homeNat (paged (moving x) []) x.who x.va 4 = .ok 0) :=
  ⟨by decide, by decide, by decide, by decide, by decide, by decide, by decide, by decide, by decide, by decide, by decide,
   ⟨_, _, rfl⟩, ⟨_, _, rfl⟩, ⟨_, _, rfl⟩, ⟨_, rfl, by decide⟩, ⟨_, rfl⟩, rfl⟩
/-- An STI in a region of an installed plate, at its first word and past its last; a commit in a plate with an edge to another cell, to
a plate that is then calm and to one that is not; and in an expert-queue plate. -/
def linked : Launch := { poolLaunch with kind := .plate, cells := [{ edges := [(1, 0x3F800000)] }, { running := true }], regions := [{ base := 0x100, len := 8, subs := [(1, 0x3F800000)] }] }
theorem witness_plateEntries :
    linked.kind = .plate ∧ linked.installed = true ∧ linked.regions = [{ base := 0x100, len := 8, subs := [(1, 0x3F800000)] }]
    ∧ (∃ e, linked.cells[0]? = some e ∧ e.edges = [] ++ (1, 0x3F800000) :: [] ∧ ∀ x ∈ e.edges, x.1 ≠ 0) ∧ (linked.cells[1]?).isSome = true
    ∧ (∃ x ∈ (commitEntries linked 0 0 0).cells, x.running = true)
    ∧ (∀ x ∈ (commitEntries { linked with cells := [{}] } 0 0 0).cells, x.running = false ∧ settledRho x.rho 0 = true)
    ∧ (∃ x ∈ (commitEntries linked 0 0x3F800000 0).cells, settledRho x.rho 0 = false)
    ∧ (expert 0).kind = .expert ∧ (∃ x ∈ (commitEntries (expert 0) 0 0 0).cells, x.tail - x.head ≠ 0) :=
  ⟨by decide, by decide, by decide, ⟨_, rfl, by decide, by decide⟩, by decide, by decide, by decide, by decide, by decide, by decide⟩
/-- A PROOF behind an acquire of its fibre, and behind none. -/
theorem witness_acqBefore : acqBefore (proofState []) (opOf (.proof 64 (vaultBase + 0x1000) 1)) = false
    ∧ acqBefore { proofState [] with accs := [{ loadAcc with id := 4, ord := .dev }] } (opOf (.proof 64 (vaultBase + 0x1000) 1)) = true := by decide
/-- What each condition of a commit is when it fails. -/
theorem witness_noCommit : (∃ f fs, settling.fibres = f :: fs) ∧ { settling with settled := true }.settled = true ∧ { settling with resident := false }.resident = false
    ∧ (fib regs).status ≠ .blocked .settle ∧ ({ settleState with accs := [storeAcc] } : State).idle ⟨1, 0⟩ = false
    ∧ covered { settleState with accs := [storeAcc] } 1 .dev settling.fibres = false
    ∧ ({ settleState with invals := [(0, [{ num := 3, asid := none, line := 1 }])] } : State).invalsClear 0 = false
    ∧ heldReady { settleState with pins := [pinAt 64] } { settling with held := [(vaultBase + 4096, 1)] } = true
    ∧ heldReady { settleState with pins := [pinAt ((vaultBase + 4096) / 64)] } { settling with held := [(vaultBase + 4096, 1)] } = false := by
  refine ⟨⟨_, _, rfl⟩, ?_⟩; decide
/-- A release of 2 MiB at a frame that is no multiple of it; a function's PROOF that is saved with its cell, its MX.STATUS and the split
of its cells' cluster as they come back. -/
theorem witness_savedParts :
    (let f : Fn := { part := 0, num := 64, relAt := 0x80000021, rel := 1, relBusy := true }
     f ∈ ({ ts with fns := [f] } : State).fns ∧ f.relBusy = true ∧ 0x80000021 * 65536 / 2 ^ 21 * 2 ^ 21 ≠ 0x80000021 * 65536)
    ∧ (∃ o ∈ (saveContext (proofState []) { id := 0, islands := [] } 64).ops, o.owner.cell = 1 ∧ o.refused = none ∧ ∃ dst a n, o.kind = .proof dst a n)
    ∧ (let x : Saved := { part := 0, fn := 64, tag := 0, inArea := false, records := [], tiles := [], mx := [(3, 5)] }
       let s := { ts with saved := [x] }
       s.saved.find? (fun z => z.part == 0 && z.fn == 64) = some x ∧ swf (0 : Word) s.mxStatus = true ∧ swf 0 s.splits = true
        ∧ ∃ c ∈ s.cells, c.part = 0 ∧ c.fn = 64 ∧ ∀ d ∈ s.cells, d.cluster = c.cluster → d.scratchSize = c.scratchSize) :=
  ⟨by decide, ⟨_, .head _, rfl, rfl, _, _, _, rfl⟩, by decide, by decide, by decide, by decide⟩
/-- An island that the current action alone holds, one with points to give back, one that both hold and neither owes. -/
theorem witness_stepUps : (islandState { current := true, point := 5 } true).islands.length = 16
    ∧ (let x : Island := { current := true, point := 5 }
       x.current = true ∧ x.hot = false ∧ x.amps = 0 ∧ x.point < x.hint)
    ∧ (let x : Island := { current := true, hot := true, amps := 1, heat := 0, point := 5 }
       0 < x.amps ∧ ¬ (0 < x.heat ∨ x.current = false)) := by decide


/-! ### One step of a word against the spec's own examples -/

/-- w6 of the fibre after one step of a word whose operands are w4 and w5, w6 holding c before. -/
def after (i : Instr) (a b : Word) (c : Word := 0) : Option Word :=
  match exec i (stF (fib [(4, a), (5, b), (6, c)])) with
  | .next t => (t.fibre? ⟨1, 0⟩).map (·.reg 6)
  | _ => none
def s4 : Src := src (.w 4)
def s5 : Src := src (.w 5)
/-- R330: 5 − 7, the saturated sum of 0x7FFFFFF0 and 0x20, the saturated difference of 5 and 7. -/
theorem test_addSubtract : after (.isub .b32 (.w 6) s4 s5) 5 7 = some 0xFFFFFFFE ∧ after (.iadd .s32sat (.w 6) s4 s5) 0x7FFFFFF0 0x20 = some 0x7FFFFFFF
    ∧ after (.isub .z32sat (.w 6) s4 s5) 5 7 = some 0 := by decide
/-- R335, R334: the examples of IMULH and of IMIN. -/
theorem test_multiplyHigh : after (.imulh .s (.w 6) s4 s5) 0xFFFFFFFE 3 = some 0xFFFFFFFF ∧ after (.imulh .z (.w 6) s4 s5) 0xFFFFFFFE 3 = some 2
    ∧ after (.imin .s32 (.w 6) s4 s5) 0xFFFFFFFF 1 = some 0xFFFFFFFF ∧ after (.imin .z32 (.w 6) s4 s5) 0xFFFFFFFF 1 = some 1 := by decide
/-- R332: the dot products of 0x01FF0203 and 0x0402FF05 added to 100. -/
theorem test_dot4 : after (.idot4 .s (.w 6) s4 s5) 0x01FF0203 0x0402FF05 100 = some 115 ∧ after (.idot4 .z (.w 6) s4 s5) 0x01FF0203 0x0402FF05 100 = some 1139 := by decide
/-- R312, R329: CLZ, BREV, IABS. -/
theorem test_bits : after (.clz .b32 (.w 6) s4) 0x0000FFFF 0 = some 16 ∧ after (.brev (.w 6) s4) 1 0 = some 0x80000000
    ∧ after (.iabs .b32 (.w 6) s4) 0x80000000 0 = some 0x80000000 := by decide
/-- R310: the table of bit fields of 0xDEADBEEF. -/
theorem test_bitFields : after (.bfx .z (.w 6) s4 s5) 0xDEADBEEF 0x0C08 = some 0x0DBE ∧ after (.bfx .s (.w 6) s4 s5) 0xDEADBEEF 0x081C = some 0xFFFFFFFD
    ∧ after (.bfx .z (.w 6) s4 s5) 0xDEADBEEF 5 = some 0 ∧ after (.bfi (.w 6) s4 s5) 0x0123 0x0C08 = some 0x00012300
    ∧ after (.bfi (.w 6) s4 s5) 0x0123 0x081C = some 0x30000000 := by decide
/-- R321: FCVT of 1 + 2^−8 to a half, to nearest even. -/
theorem test_fcvt : after (.fcvt .f2bl false (.w 6) s4) 0x3F808000 0 0xAAAABBBB = some 0xAAAA3F80
    ∧ after (.fcvt .f2bh false (.w 6) s4) 0x3F808000 0 0xAAAABBBB = some 0x3F80BBBB := by decide
/-- R339: LEA.sc4 with an index of −1. -/
theorem test_lea :
    (match exec (.lea 2 (.w 20) (src (.w 6)) (src (.w 19))) (stF (fib [(6, 0xFFD8), (7, 4), (19, 0xFFFFFFFF)])) with
      | .next t => (t.fibre? ⟨1, 0⟩).map (·.reg64 20)
      | _ => none) = some 0x40000FFD4 := by decide
/-- R138: FMIN.bf16x2 of 0x7FC03F80 and 0xBF80FF81. -/
theorem test_fmin : after (.fmin .bf16x2 (.w 6) s4 s5) 0x7FC03F80 0xBF80FF81 = some 0xBF803F80 := by decide
/-- R133: 1.0 and 2^−24, half-way between two values, by the mode of HINT.MOD. -/
theorem test_fadd : after (.fadd .f32 (.w 6) s4 s5) 0x3F800000 0x33800000 = some 0x3F800000
    ∧ (match exec (.fadd .f32 (.w 6) s4 s5) (stF (fib [(4, 0x3F800000), (5, 0x33800000)]) [.hintMod .up none false]) with
      | .next t => (t.cell? 1).map fun c => ((c.fibre? 0).map (·.reg 6), c.arith)
      | _ => none) = some (some 0x3F800001, 16) := by decide
/-- R145: QCVT of 10.3 at the scale 0.5 writes 0x14 to byte 1; QDEQ reads it back as 10.5. -/
theorem test_qcvt : after (.qcvt 1 (.w 6) s4 2 5) 0x4124CCCD 0x3F000000 = some 0x1400 ∧ after (.qdeq 1 (.w 6) s4 2 5) 0x1400 0x3F000000 = some 0x41280000 := by decide
/-- R351: MOVI sets the low bits, HINT.IMM the high ones; R364: a logic word. -/
theorem test_moveAndLogic : after (.movi .s (.w 6) 0xFF) 0 0 = some 0xFFFFFFFF ∧ after (.andn .b32 (.w 6) s4 s5) 0xFF0F 0x0F0F = some 0xF000 := by decide
/-- R361: counts of 32 and more. -/
theorem test_shifts : after (.shl .b32 (.w 6) s4 s5) 1 32 = some 0 ∧ after (.sar .b32 (.w 6) s4 s5) 0x80000000 0xFFFFFFFF = some 0xFFFFFFFF := by decide
/-- R331: ICMP.test and a signed comparison set their predicate. -/
theorem test_icmp :
    (match exec (.icmp .s32 .lt 3 s4 s5) (stF (fib [(4, 0xFFFFFFFF), (5, 1)])) with
      | .next t => (t.fibre? ⟨1, 0⟩).map (·.pred 3)
      | _ => none) = some true := by decide
/-- R370, R260: TRAP 5 of a user's fibre enters the handler with its cause in w0 and the record's address in x2. -/
theorem test_trap :
    (match exec (.trap 5) trapState with
      | .next t => (t.fibre? ⟨1, 0⟩).map fun f => (f.sup, f.pc, f.reg 0, f.reg64 2)
      | _ => none) = some (true, 0x0100000000000400, 0x0B, BitVec.ofNat 64 (vaultBase + 16 * 256)) := by decide
/-- R280, R260: a register error in a fibre about to issue: w0 is UNCORRECTABLE with DETAIL 2. -/
theorem test_register_error :
    (match step { trapState with cur := {}, agenda := [.registerError 1 0] } with
      | .next t => (t.fibre? ⟨1, 0⟩).map fun (f : Fibre) => (f.sup, f.pc, f.reg 0)
      | _ => none) = some (true, 0x0100000000000400, 0x210) := by decide
/-- R130, R336: BRA back by 7 words. -/
theorem test_branch :
    (match exec (.bra .always 0x3FFFF9) ts with
      | .next t => (t.fibre? ⟨1, 0⟩).map (·.pc)
      | _ => none) = some (BitVec.ofNat 64 (vaultBase - 28)) := by decide
/-- R366, R189: a store to scratch is done in place; one to a vault enters the ordering machine. -/
theorem test_store :
    (match exec (.st .b32 .plain (.w 4) (.w 10) 1) ts with
      | .next t => (t.cell? 1).map fun c => (bytesAt c.scratch 132 4, t.accs.length)
      | _ => none) = some ([5, 0, 0, 0], 0)
    ∧ (match exec (.st .b32 .plain (.w 4) (.w 8) 1) ts with
      | .next t => some (t.accs.map fun a => (a.va, a.data, a.kind))
      | _ => none) = some [(vaultBase + 0x1004, [5, 0, 0, 0], .store)] := by decide
/-- A step from reset with a word placed: MOVI w5, 160 of R108's example. -/
theorem test_step :
    (match step (State.reset.withFetchWord 32 0x58500500) with
      | .next t => (t.fibre? ⟨1, 0⟩).map fun f => (f.reg 5, f.pc)
      | _ => none) = some (160, BitVec.ofNat 64 (vaultBase + 4)) := by decide

end Sys2Proof.Tests
end

/-! SUPPORT. Proofs about the execution model: what a change releases, QUIT, the end of a fibre and of a cell. -/

namespace Sys2Proof.Machine

/-! ### Folds -/

/-- A fold of steps that do nothing. -/
theorem foldl_eq_self {α β : Type} {op : β → α → β} : ∀ {l : List α} {x : β}, (∀ d ∈ l, ∀ y, op y d = y) → l.foldl op x = x
  | [], _, _ => rfl
  | d :: r, x, h => by
    rw [List.foldl_cons, h d List.mem_cons_self]
    exact foldl_eq_self fun e he => h e (List.mem_cons_of_mem _ he)

/-- A fold whose steps are none but for one element of the list is that element's step. -/
theorem foldl_eq_single {α β : Type} {op : β → α → β} {n : α} : ∀ {l : List α} {x : β}, n ∈ l → l.Nodup →
    (∀ d ∈ l, d ≠ n → ∀ y, op y d = y) → l.foldl op x = op x n
  | [], _, hn, _, _ => nomatch hn
  | d :: r, x, hn, hd, h => by
    obtain ⟨hdr, hr⟩ := List.nodup_cons.1 hd
    rw [List.foldl_cons]
    by_cases hdn : d = n
    · subst hdn
      exact foldl_eq_self fun e he => h e (List.mem_cons_of_mem _ he) fun hen => hdr (hen ▸ he)
    · rw [h d List.mem_cons_self hdn]
      exact foldl_eq_single ((List.mem_cons.1 hn).resolve_left (Ne.symm hdn)) hr fun e he => h e (List.mem_cons_of_mem _ he)

/-- A fold of steps that each keep a part of the state keeps it. -/
theorem foldl_keeps {α β : Type} {p : State → β} {op : State → α → State} (h : ∀ s x, p (op s x) = p s) :
    ∀ (l : List α) (s : State), p (l.foldl op s) = p s
  | [], _ => rfl
  | x :: r, s => (foldl_keeps h r _).trans (h s x)

/-! ### What a change releases -/

/-- A fold over cells in each of which scheduling alone is released, each step being judged by the state before the fold: what
scheduling changes makes no QUIT due. -/
theorem foldl_afterChange_arch (s : State) : ∀ (l : List Nat) (u : State), (∀ c ∈ l, NoQuitDue s c) → u.arch = s.arch →
    (l.foldl afterChange u).arch = s.arch
  | [], _, _, hu => hu
  | c :: r, u, hl, hu =>
    foldl_afterChange_arch s r _ (fun d hd => hl d (List.mem_cons_of_mem _ hd))
      ((afterChange_arch u c (noQuitDue_arch hu.symm (hl c List.mem_cons_self))).trans hu)

end Sys2Proof.Machine

namespace Sys2Proof.Proofs
open Sys2Proof.Machine

/-- Settles O32: each cell's releases are scheduling alone (`afterChange_arch`), and that keeps every other cell's premise. -/
theorem releasesSchedule : Obligations.ReleasesSchedule := by
  intro s h
  refine foldl_afterChange_arch s _ s (fun n hn => ?_) rfl
  obtain ⟨c, hc, rfl⟩ := List.mem_map.1 hn
  exact h c (List.mem_filter.1 hc).1

end Sys2Proof.Proofs

namespace Sys2Proof.Machine

/-! ### What scheduling keeps -/

theorem freeMates_crosshatch (s : State) (cell : Nat) : (freeMates s cell).crosshatch = s.crosshatch := by
  unfold freeMates
  split <;> rfl
theorem schedulePaths_crosshatch (s : State) (cell hatch : Nat) : (schedulePaths s cell hatch).crosshatch = s.crosshatch := by
  unfold schedulePaths
  simp only
  split <;> rfl
theorem splitHatch_crosshatch (s : State) (cell hatch : Nat) : (splitHatch s cell hatch).crosshatch = s.crosshatch := by
  unfold splitHatch
  split
  · rfl
  · dsimp only
    split <;> rfl
theorem settleHatch_crosshatch (s : State) (cell hatch : Nat) : (settleHatch s cell hatch).crosshatch = s.crosshatch := by
  unfold settleHatch
  split
  · rfl
  · split
    · rw [schedulePaths_crosshatch, freeMates_crosshatch]
    · rw [splitHatch_crosshatch, freeMates_crosshatch]
theorem wakeWhere_crosshatch (s : State) (cell : Nat) (p : Wait → Bool) : (wakeWhere s cell p).crosshatch = s.crosshatch := by
  unfold wakeWhere
  split
  · rfl
  · exact foldl_keeps (fun s h => settleHatch_crosshatch s cell h) _ _
theorem releaseCohort_crosshatch (s : State) (launch cohort : Nat) : (releaseCohort s launch cohort).crosshatch = s.crosshatch := by
  unfold releaseCohort
  extract_lets co
  split
  · exact foldl_keeps (fun s (x : Cell) => wakeWhere_crosshatch s x.id isCbar) _ _
  · rfl

section
variable {s t : State} (h : s.arch = t.arch)
include h

theorem pins_of_arch : s.pins = t.pins := by simpa [State.arch] using congrArg State.pins h
theorem frames_of_arch : s.frames = t.frames := by simpa [State.arch] using congrArg State.frames h
theorem launches_of_arch : s.launches = t.launches := by simpa [State.arch] using congrArg State.launches h
theorem mem_of_arch : s.mem = t.mem := by simpa [State.arch] using congrArg State.mem h
theorem cell?_of_arch (d : Nat) : (s.cell? d).map Cell.arch = (t.cell? d).map Cell.arch := by rw [← arch_cell?, h, arch_cell?]

end

/-! ### Launches and their entries -/

theorem checkConverged_eq (l : Launch) : ∃ b n, checkConverged l = { l with conv := b, gen := n } := by
  unfold checkConverged
  split
  · split
    · exact ⟨l.conv, l.gen, rfl⟩
    · exact ⟨true, l.gen + 1, rfl⟩
  · split
    · exact ⟨l.conv, l.gen, rfl⟩
    · generalize List.any _ _ = above
      cases above with
      | true => exact ⟨false, l.gen, rfl⟩
      | false => exact ⟨l.conv, l.gen, rfl⟩
@[simp] theorem checkConverged_id (l : Launch) : (checkConverged l).id = l.id := by
  obtain ⟨b, n, h⟩ := checkConverged_eq l
  rw [h]
@[simp] theorem checkConverged_kind (l : Launch) : (checkConverged l).kind = l.kind := by
  obtain ⟨b, n, h⟩ := checkConverged_eq l
  rw [h]
@[simp] theorem checkConverged_cells (l : Launch) : (checkConverged l).cells = l.cells := by
  obtain ⟨b, n, h⟩ := checkConverged_eq l
  rw [h]

@[simp] theorem setEntry_id (l : Launch) (i : Nat) (f : Entry → Entry) : (l.setEntry i f).id = l.id := rfl
@[simp] theorem setEntry_kind (l : Launch) (i : Nat) (f : Entry → Entry) : (l.setEntry i f).kind = l.kind := rfl
/-- The entry of an index that has been changed. -/
theorem setEntry_getElem?_self (l : Launch) (i : Nat) (f : Entry → Entry) : (l.setEntry i f).cells[i]? = (l.cells[i]?).map f := by
  simp only [Launch.setEntry, List.getElem?_map, List.getElem?_zipIdx, Option.map_map]
  cases l.cells[i]? <;> simp

/-- The launch of a number, where the launches with a number have been changed. -/
theorem launch?_setLaunch_self (s : State) (l : Nat) (f : Launch → Launch) (hf : ∀ x, (f x).id = x.id) :
    (s.setLaunch l f).launch? l = (s.launch? l).map f := by
  simp only [State.launch?, State.setLaunch_launches, find?_map_key]
  have hp : (fun x : Launch => (if x.id = l then f x else x).id == l) = fun x => x.id == l := by
    funext x
    by_cases hx : x.id = l <;> simp [hx, hf]
  rw [hp]
  cases h : s.launches.find? fun x => x.id == l with
  | none => rfl
  | some x => simp [show x.id = l by simpa using List.find?_some h]

/-! ### The end of a cell -/

/-- A launch as the end of its cell i leaves it (R28, R72, R84). -/
def Launch.endEntry (l : Launch) (i : Nat) : Launch :=
  checkConverged (l.setEntry i fun e =>
    match l.kind with
    | .grid => { e with rho := 0, ended := true, running := false }
    | _ => { e with arrivals := 0, running := false })

/-- A state without a cell that has ended, before a CBAR of its cohort may complete by it. -/
def withoutCell (s : State) (c : Cell) : State :=
  let s := endPins s (·.cell == c.id)
  let key := (c.cluster, c.part, c.fn)
  let left := if c.scratchSize = 0 then s.leftScratch else (key, c.scratch) :: s.leftScratch.filter (·.1 != key)
  ({ s with leftScratch := left, cells := s.cells.filter (·.id != c.id)
            crosshatch := s.crosshatch.filter (·.cell != c.id)
            frames := s.frames.filter fun (f : Frame) => !(f.plc == .scratch && f.cell == c.id) } : State).setLaunch
    c.launch (·.endEntry c.index)

theorem endCell_eq {s : State} {c : Cell} (h : s.cell? c.id = some c) :
    endCell s c.id = releaseCohort (withoutCell s c) c.launch c.cohort := by
  unfold endCell
  rw [h]
  rfl

@[simp] theorem endEntry_id (l : Launch) (i : Nat) : (l.endEntry i).id = l.id := by simp [Launch.endEntry]
@[simp] theorem endEntry_kind (l : Launch) (i : Nat) : (l.endEntry i).kind = l.kind := by simp [Launch.endEntry]
theorem endEntry_getElem?_grid {l : Launch} (i : Nat) (h : l.kind = .grid) :
    (l.endEntry i).cells[i]? = (l.cells[i]?).map fun e => { e with rho := 0, ended := true, running := false } := by
  simp only [Launch.endEntry, checkConverged_cells, setEntry_getElem?_self, h]
theorem endEntry_getElem?_plate {l : Launch} (i : Nat) (h : l.kind ≠ .grid) :
    (l.endEntry i).cells[i]? = (l.cells[i]?).map fun e => { e with arrivals := 0, running := false } := by
  simp only [Launch.endEntry, checkConverged_cells, setEntry_getElem?_self]

/-- The pins of a cell that have been ended keep no release (R199). -/
theorem endPins_rel {s : State} {cell : Nat} {q : Pin} (hq : q ∈ (endPins s (·.cell == cell)).pins) (hc : q.cell = cell) : q.rel = 0 := by
  obtain ⟨x, -, rfl⟩ := List.mem_map.1 (List.mem_filter.1 hq).1
  by_cases hx : x.cell = cell
  · simp [hx]
  · exact absurd hc (by simp [hx])

theorem withoutCell_pins (s : State) (c : Cell) : (withoutCell s c).pins = (endPins s (·.cell == c.id)).pins := rfl
theorem withoutCell_frames (s : State) (c : Cell) :
    (withoutCell s c).frames = s.frames.filter fun (f : Frame) => !(f.plc == .scratch && f.cell == c.id) := rfl
theorem withoutCell_mem (s : State) (c : Cell) : (withoutCell s c).mem = s.mem := rfl
theorem withoutCell_launches (s : State) (c : Cell) :
    (withoutCell s c).launches = (s.setLaunch c.launch (·.endEntry c.index)).launches := rfl
theorem withoutCell_cell?_self (s : State) (c : Cell) : (withoutCell s c).cell? c.id = none := by
  simp only [State.cell?, List.find?_eq_none]
  intro x hx
  simpa using (List.mem_filter.1 hx).2
theorem withoutCell_cell?_other (s : State) (c : Cell) {d : Nat} (h : d ≠ c.id) : (withoutCell s c).cell? d = s.cell? d := by
  refine List.find?_filter.trans ?_
  refine congrArg (fun p => s.cells.find? p) (funext fun x => ?_)
  by_cases hx : x.id = d <;> simp [hx, h]

/-- The end of a cell (R28, R355, R358): what the CBAR of its cohort may then release is scheduling alone. -/
theorem cellEnds : Rules.CellEnds := by
  intro s c hc
  rw [endCell_eq hc]
  have ha : (releaseCohort (withoutCell s c) c.launch c.cohort).arch = (withoutCell s c).arch := releaseCohort_arch ..
  have hx := releaseCohort_crosshatch (withoutCell s c) c.launch c.cohort
  generalize releaseCohort (withoutCell s c) c.launch c.cohort = t at ha hx
  have hl := (launches_of_arch ha).trans (withoutCell_launches s c)
  refine ⟨?_, fun d hd => ?_, fun e he => ?_, fun p hp => ?_, fun f hf => ?_, (mem_of_arch ha).trans (withoutCell_mem s c),
    fun l hml hid hk e he => ?_, fun l e hsl hk he => ?_⟩
  · simpa [withoutCell_cell?_self] using cell?_of_arch ha c.id
  · rw [cell?_of_arch ha, withoutCell_cell?_other s c hd]
  · rw [hx] at he
    simpa using (List.mem_filter.1 he).2
  · rw [pins_of_arch ha, withoutCell_pins] at hp
    exact endPins_rel hp
  · rw [frames_of_arch ha, withoutCell_frames] at hf
    rintro ⟨hp, hc⟩
    simp [hp, hc] at hf
  · rw [hl] at hml
    obtain ⟨x, -, rfl⟩ := List.mem_map.1 hml
    have hxl : x.id = c.launch := by
      by_cases hx : x.id = c.launch
      · exact hx
      · simp [hx] at hid
    rw [if_pos hxl] at hk he
    rw [endEntry_kind] at hk
    rw [endEntry_getElem?_grid _ hk] at he
    obtain ⟨y, -, rfl⟩ := Option.map_eq_some_iff.1 he
    exact ⟨rfl, rfl⟩
  · have : t.launch? c.launch = some (l.endEntry c.index) := by
      rw [State.launch?, hl]
      exact (launch?_setLaunch_self s _ _ fun x => endEntry_id x _).trans (by rw [hsl]; rfl)
    rw [this, Option.bind_some, endEntry_getElem?_plate _ hk, he]
    rfl

/-! ### A write at a home changes memory, lines and invalidations alone -/

section
variable {β : Type} {p : State → β}
  (hp : ∀ s m l q n, p { s with mem := m, lines := l, invals := q, next := n } = p s)
include hp

theorem homePutByte_keeps {s t : State} {who : Who} {va : Nat} {b : Byte} (h : homePutByte s who va b = .ok t) : p t = p s := by
  unfold homePutByte at h
  cases hs : spot s who va .write with
  | error e => simp [hs, Except.map] at h
  | ok x =>
    simp only [hs, Except.map, Except.ok.injEq] at h
    subst h
    cases x with
    | vault => exact hp s _ _ _ _
    | phys x => exact hp s _ _ _ _
    | line l =>
      dsimp only
      split <;> exact hp s _ _ _ _
theorem homePut_keeps : ∀ (bs : List Byte) (s : State) (who : Who) (va : Nat), p (homePut s who va bs).1 = p s
  | [], _, _, _ => rfl
  | b :: r, s, who, va => by
    simp only [homePut]
    cases hb : homePutByte s who va b with
    | error e => rfl
    | ok t => exact (homePut_keeps r t who (va + 1)).trans (homePutByte_keeps hp hb)
theorem invalidate_keeps (s : State) (but asid : Option Nat) (line : Nat) : p (invalidate s but asid line) = p s :=
  foldl_keeps (fun s _ => hp s _ _ _ _) _ s
theorem homeWrite_keeps {s t : State} {who : Who} {but : Option Nat} {va : Nat} {bs : List Byte}
    (h : homeWrite s who but va bs = .ok t) : p t = p s := by
  have hput := homePut_keeps hp bs s who va
  unfold homeWrite at h
  generalize homePut s who va bs = x at h hput
  obtain ⟨u, e⟩ := x
  cases e with
  | some e => cases h
  | none =>
    dsimp only at h hput
    split at h
    · cases h
      rw [invalidate_keeps hp, hput]
    · cases h
      rw [foldl_keeps (fun s l => invalidate_keeps hp s _ _ l), invalidate_keeps hp, hput]

end

/-! ### The frames that a fibre leaves -/

/-- A state without a retired frame, before its storage is cleared (R58). -/
def withoutFrame (s : State) (e : Frame) (free : Nat) : State := { s with frames := s.frames.filter (·.id != e.id), free := free }

/-- What a frame's retirement can do besides: nothing, zeros in its cell's scratch, or zeros at its home (R58). -/
theorem retire_cases (s : State) (e : Frame) : ∃ n, retire s e = withoutFrame s e n
    ∨ (∃ off bs, retire s e = (withoutFrame s e n).setCell e.cell fun c => { c with scratch := putBytes c.scratch off bs })
    ∨ ∃ who va bs, homeWrite (withoutFrame s e n) who none va bs = .ok (retire s e) := by
  unfold retire
  extract_lets u zero z v
  split
  · exact ⟨s.free, .inl rfl⟩
  · refine ⟨s.free + 1, ?_⟩
    split
    · exact .inl rfl
    · split
      · exact .inr (.inl ⟨_, _, rfl⟩)
      · split
        · exact .inl rfl
        · split
          · rename_i t ht
            exact .inr (.inr ⟨_, _, _, ht⟩)
          · exact .inl rfl

/-- A frame's retirement takes it out of the frames (R58). -/
theorem retire_frames (s : State) (e : Frame) : (retire s e).frames = s.frames.filter (·.id != e.id) := by
  obtain ⟨n, h | ⟨off, bs, h⟩ | ⟨who, va, bs, h⟩⟩ := retire_cases s e
  · rw [h]; rfl
  · rw [h]; rfl
  · exact homeWrite_keeps (p := State.frames) (fun _ _ _ _ _ => rfl) h

/-- The accesses, the launches and the other fibres of a fibre's cell are the same. -/
structure SameOthers (r : FRef) (s t : State) : Prop where
  accs : t.accs = s.accs
  launches : t.launches = s.launches
  fibres : (t.cell? r.cell).map (fun c => c.fibres.filter (·.idx != r.idx))
    = (s.cell? r.cell).map fun c => c.fibres.filter (·.idx != r.idx)

theorem SameOthers.refl (r : FRef) (s : State) : SameOthers r s s := ⟨rfl, rfl, rfl⟩
theorem SameOthers.trans {r : FRef} {s t u : State} (h : SameOthers r s t) (k : SameOthers r t u) : SameOthers r s u :=
  ⟨k.accs.trans h.accs, k.launches.trans h.launches, k.fibres.trans h.fibres⟩

theorem sameOthers_of_eq {r : FRef} {s t : State} (h : (t.accs, t.launches, t.cells) = (s.accs, s.launches, s.cells)) :
    SameOthers r s t := by
  simp only [Prod.mk.injEq] at h
  obtain ⟨ha, hl, hc⟩ := h
  exact ⟨ha, hl, by rw [State.cell?, hc, ← State.cell?]⟩

theorem cell?_setCell (s : State) (n m : Nat) (f : Cell → Cell) (hf : ∀ c, (f c).id = c.id) :
    (s.setCell n f).cell? m = (s.cell? m).map fun c => if c.id = n then f c else c := by
  simp only [State.cell?, State.setCell_cells, find?_map_key]
  congr 2
  funext c
  by_cases hc : c.id = n <;> simp [hc, hf]

theorem sameOthers_setCell {r : FRef} (s : State) (n : Nat) (f : Cell → Cell) (hf : ∀ c, (f c).id = c.id)
    (hr : ∀ c, (f c).fibres.filter (·.idx != r.idx) = c.fibres.filter (·.idx != r.idx)) : SameOthers r s (s.setCell n f) := by
  refine ⟨rfl, rfl, ?_⟩
  rw [cell?_setCell _ _ _ _ hf, Option.map_map]
  congr 1
  funext c
  by_cases hc : c.id = n <;> simp [hc, hr]

theorem sameOthers_setFibre (s : State) (r : FRef) (f : Fibre → Fibre) (hf : ∀ x, (f x).idx = x.idx) :
    SameOthers r s (s.setFibre r f) := by
  refine sameOthers_setCell s _ _ (fun _ => rfl) fun c => ?_
  have hp : ((·.idx != r.idx) ∘ fun x : Fibre => if x.idx = r.idx then f x else x) = (·.idx != r.idx) := by
    funext x
    by_cases hx : x.idx = r.idx <;> simp [hx, hf]
  rw [Cell.setFibre, List.filter_map, hp]
  refine (List.map_congr_left fun x hx => ?_).trans (List.map_id _)
  exact if_neg (by simpa using (List.mem_filter.1 hx).2)

theorem retire_sameOthers (r : FRef) (s : State) (e : Frame) : SameOthers r s (retire s e) := by
  obtain ⟨n, h⟩ := retire_cases s e
  have hn : SameOthers r s (withoutFrame s e n) := sameOthers_of_eq rfl
  obtain h | ⟨off, bs, h⟩ | ⟨who, va, bs, h⟩ := h
  · rw [h]; exact hn
  · rw [h]; exact hn.trans (sameOthers_setCell _ e.cell _ (fun _ => rfl) fun _ => rfl)
  · exact hn.trans (sameOthers_of_eq (homeWrite_keeps (p := fun s => (s.accs, s.launches, s.cells)) (fun _ _ _ _ _ => rfl) h))

theorem foldl_retire_frames : ∀ (l : List Frame) (s : State),
    (l.foldl retire s).frames = s.frames.filter fun x => l.all fun e => x.id != e.id
  | [], s => by simp
  | e :: r, s => by
    rw [List.foldl_cons, foldl_retire_frames r, retire_frames, List.filter_filter]
    congr 1
    funext x
    simp [Bool.and_comm]
theorem foldl_retire_sameOthers (r : FRef) : ∀ (l : List Frame) (s : State), SameOthers r s (l.foldl retire s)
  | [], s => .refl r s
  | e :: l, s => (retire_sameOthers r s e).trans (foldl_retire_sameOthers r l _)

/-- A fibre that has left no frame retires none. -/
theorem retireLeft_eq_self {s : State} {r : FRef} (h : ∀ e ∈ s.frames, e.leaver ≠ some r) : retireLeft s r = s := by
  rw [retireLeft, List.filter_eq_nil_iff.2 fun e he => by simpa using h e he]
  rfl

/-- A fibre whose display register of a depth is cleared. -/
def Fibre.clearDepth (d : Nat) (f : Fibre) : Fibre := { f with disp := sput 0 f.disp d 0, refs := sput 0 f.refs d 0 }
/-- One depth of a fibre's leave of its frames: its display register is cleared, and the frame behind it loses a reference or waits
for the release of this last leave (R50, R57). -/
def leaveStep (r : FRef) (f : Fibre) (all : List Nat) (x : State × List (Nat × Bool)) (d : Nat) : State × List (Nat × Bool) :=
  if (f.desc d).isNone then x else
  let fr? := x.1.frameOf f d
  let s := x.1.setFibre r (Fibre.clearDepth d)
  match fr? with
  | none => (s, x.2)
  | some fr =>
    let mine := handedWrites s r f d
    if fr.count ≤ 1 then
      (s.setFrame fr.id fun x => { x with count := 0, leaver := some r }, x.2 ++ (0 :: fr.handed ++ all).map fun a => (a, fr.plc != .scratch))
    else (s.setFrame fr.id fun x => { x with count := x.count - 1, handed := x.handed ++ mine }, x.2 ++ mine.map fun a => (a, false))

theorem leaveFrames_eq {s : State} {r : FRef} {f : Fibre} (h : s.fibre? r = some f) :
    leaveFrames s r 1 = [7, 6, 5, 4, 3, 2, 1].foldl (leaveStep r f (s.coverage r)) (s, []) := by
  unfold leaveFrames
  rw [h]
  rfl

theorem leaveStep_sameOthers (r : FRef) (f : Fibre) (all : List Nat) (x : State × List (Nat × Bool)) (d : Nat) :
    SameOthers r x.1 (leaveStep r f all x d).1 := by
  unfold leaveStep
  split
  · exact .refl r x.1
  · extract_lets fr? u
    have hu : SameOthers r x.1 u := sameOthers_setFibre x.1 r _ fun _ => rfl
    clear_value fr?
    split
    · exact hu
    · split <;> exact hu.trans (sameOthers_of_eq rfl)
theorem foldl_leaveStep_sameOthers (r : FRef) (f : Fibre) (all : List Nat) : ∀ (l : List Nat) (x : State × List (Nat × Bool)),
    SameOthers r x.1 (l.foldl (leaveStep r f all) x).1
  | [], x => .refl r x.1
  | d :: l, x => (leaveStep_sameOthers r f all x d).trans (foldl_leaveStep_sameOthers r f all l _)
theorem leaveFrames_sameOthers {s : State} {r : FRef} {f : Fibre} (h : s.fibre? r = some f) : SameOthers r s (leaveFrames s r 1).1 := by
  rw [leaveFrames_eq h]
  exact foldl_leaveStep_sameOthers r f _ _ (s, [])

/-- A fibre that holds no frame leaves none. -/
theorem leaveFrames_none {s : State} {r : FRef} {f : Fibre} (h : s.fibre? r = some f) (hd : ∀ d, 0 < d → d < 8 → f.desc d = none) :
    leaveFrames s r 1 = (s, []) := by
  rw [leaveFrames_eq h]
  refine foldl_eq_self fun d hm x => if_pos ?_
  simp only [List.mem_cons, List.not_mem_nil, or_false] at hm
  rw [hd d (by omega) (by omega)]
  rfl

/-- A fibre that holds one frame leaves that one. -/
theorem leaveFrames_one {s : State} {r : FRef} {f : Fibre} {n : Nat} (h : s.fibre? r = some f) (hn : 0 < n) (hn8 : n < 8)
    (hd : ∀ d, d ≠ n → d < 8 → f.desc d = none) : leaveFrames s r 1 = leaveStep r f (s.coverage r) (s, []) n := by
  rw [leaveFrames_eq h]
  refine foldl_eq_single ?_ (by decide) fun d hm hdn x => if_pos ?_
  · simp only [List.mem_cons, List.not_mem_nil, or_false]
    omega
  · simp only [List.mem_cons, List.not_mem_nil, or_false] at hm
    rw [hd d hdn (by omega)]
    rfl

/-- An access that is none of a fibre's goes on as it is without it. -/
theorem without_of_not_of {a : Acc} {r : FRef} (h : a.of r = false) : a.without r = some a := by
  simp only [Acc.of, Bool.or_eq_false_iff, beq_eq_false_iff_ne] at h
  obtain ⟨howner, halso⟩ := h
  have hall : (a.owner :: a.also).filter (· != r) = a.owner :: a.also := by
    rw [List.filter_cons_of_pos (by simpa using howner), List.filter_eq_self.2]
    intro x hx
    rw [bne_iff_ne]
    rintro rfl
    simp [hx] at halso
  unfold Acc.without
  rw [hall]

theorem not_of_own_nil {s : State} {r : FRef} (h : s.own r = []) {a : Acc} (ha : a ∈ s.accs) : a.of r = false := by
  simp only [State.own, List.append_eq_nil_iff, List.map_eq_nil_iff, List.filter_eq_nil_iff] at h
  simpa using h.1 a ha

section
variable {s : State} {r : FRef} {f : Fibre} {n : Nat} {e : Frame} {all : List Nat} (hd : f.desc n ≠ none) (he : s.frameOf f n = some e)
include hd he

/-- A frame that others share loses one reference (R50); nothing is handed over where the fibre has no access pending. -/
theorem leaveStep_shared (hc : 1 < e.count) (ho : s.own r = []) :
    (leaveStep r f all (s, []) n).1 = (s.setFibre r (Fibre.clearDepth n)).setFrame e.id
      fun x => { x with count := x.count - 1 } := by
  have hw (F : Fibre → Fibre) : handedWrites (s.setFibre r F) r f n = [] := by
    rw [handedWrites, List.map_eq_nil_iff, List.filter_eq_nil_iff]
    intro a ha
    rw [not_of_own_nil ho ha]
    exact Bool.false_ne_true
  unfold leaveStep
  rw [if_neg (by simpa using hd)]
  simp only [he, if_neg (Nat.not_le.2 hc), hw, List.append_nil]

/-- A frame that no other fibre shares waits for the release of its last leave (R57). -/
theorem leaveStep_last (hc : e.count ≤ 1) :
    (leaveStep r f all (s, []) n).1 = (s.setFibre r (Fibre.clearDepth n)).setFrame e.id
      fun x => { x with count := 0, leaver := some r } := by
  unfold leaveStep
  rw [if_neg (by simpa using hd)]
  simp only [he, if_pos hc]

end

/-- The fibres of a cell without one of them. -/
def othersOf (l : List Fibre) (i : Nat) : List Fibre :=
  (l.filter (·.idx != i)).map fun f => { f with joinSet := f.joinSet.filter (· != i) }

/-- Steps 2 and 3 of a quit on the fibre's own record: its accesses and operations go on without it, its slot is empty (R28). -/
def withoutFibre (s : State) (r : FRef) : State :=
  ({ s with accs := s.accs.filterMap fun (a : Acc) => a.without r
            ops := s.ops.filterMap fun (o : Op) => o.without r } : State).setCell r.cell fun c =>
    { c with fibres := othersOf c.fibres r.idx }

/-- A state in which a fibre that quits has left its frames, and those of its last leaves have retired (R50, R58). -/
def leftFrames (s : State) (r : FRef) : State := retireLeft (leaveFrames s r 1).1 r

theorem finishQuit_eq {s : State} {r : FRef} {c : Cell}
    (hc : (withoutFibre (leftFrames s r) r).cell? r.cell = some c) (hf : c.fibres ≠ []) :
    finishQuit s r = withoutFibre (leftFrames s r) r := by
  unfold finishQuit
  extract_lets t u gone v
  rw [show v.cell? r.cell = some c from hc]
  exact if_neg (by simpa using hf)

theorem othersOf_find? (l : List Fibre) (i j : Nat) :
    (othersOf l i).find? (·.idx == j)
      = if j = i then none else (l.find? (·.idx == j)).map fun f => { f with joinSet := f.joinSet.filter (· != i) } := by
  rw [othersOf, find?_map_key, List.find?_filter]
  by_cases h : j = i
  · rw [if_pos h, List.find?_eq_none.2, Option.map_none]
    intro x _
    simp only [h]
    by_cases hx : x.idx = i <;> simp [hx]
  · rw [if_neg h]
    refine congrArg (Option.map _) (congrArg (fun p => l.find? p) (funext fun x => ?_))
    by_cases hx : x.idx = j <;> simp [hx, h]

theorem withoutFibre_cell? (v : State) (r : FRef) :
    (withoutFibre v r).cell? r.cell = (v.cell? r.cell).map fun c => { c with fibres := othersOf c.fibres r.idx } := by
  rw [withoutFibre, cell?_setCell]
  · show (v.cell? r.cell).map _ = _
    cases h : v.cell? r.cell with
    | none => rfl
    | some c => exact congrArg some (if_pos (cell?_id h))
  · exact fun _ => rfl

theorem withoutFibre_accs {s v : State} {r : FRef} (hs : SameOthers r s v) (ho : s.own r = []) : (withoutFibre v r).accs = s.accs := by
  show v.accs.filterMap _ = _
  rw [hs.accs]
  exact (List.filterMap_congr fun a ha => without_of_not_of (not_of_own_nil ho ha)).trans List.filterMap_some

section
variable {s : State} {c : Cell} {f : Fibre} (hc : s.cell? c.id = some c)
  (hs : SameOthers ⟨c.id, f.idx⟩ s (leftFrames s ⟨c.id, f.idx⟩))
include hc hs

/-- The cell of a fibre that has quit has its other fibres. -/
theorem withoutFibre_others : ∃ d, (withoutFibre (leftFrames s ⟨c.id, f.idx⟩) ⟨c.id, f.idx⟩).cell? c.id = some d
    ∧ d.fibres = othersOf c.fibres f.idx := by
  have hv := hs.fibres
  rw [hc, Option.map_some, Option.map_eq_some_iff] at hv
  obtain ⟨d, hd, hf⟩ := hv
  exact ⟨_, (withoutFibre_cell? _ _).trans (congrArg _ hd), congrArg (List.map _) hf⟩

/-- A fibre that is not the last of its cell leaves the cell its other fibres. -/
theorem finishQuit_not_last (hx : ∃ x ∈ c.fibres, x.idx ≠ f.idx) : finishQuit s ⟨c.id, f.idx⟩
    = withoutFibre (leftFrames s ⟨c.id, f.idx⟩) ⟨c.id, f.idx⟩ := by
  obtain ⟨d, hd, hf⟩ := withoutFibre_others hc hs
  obtain ⟨x, hm, hxi⟩ := hx
  refine finishQuit_eq hd fun hnil => ?_
  rw [hf, othersOf, List.map_eq_nil_iff, List.filter_eq_nil_iff] at hnil
  exact hnil x hm (by simpa using hxi)

theorem finishQuit_fibre? (hx : ∃ x ∈ c.fibres, x.idx ≠ f.idx) (i : Nat) : (finishQuit s ⟨c.id, f.idx⟩).fibre? ⟨c.id, i⟩
    = if i = f.idx then none else (c.fibre? i).map fun x => { x with joinSet := x.joinSet.filter (· != f.idx) } := by
  obtain ⟨d, hd, hf⟩ := withoutFibre_others hc hs
  rw [finishQuit_not_last hc hs hx, State.fibre?, hd, Option.bind_some, Cell.fibre?, hf, othersOf_find?, Cell.fibre?]

/-- The end of a fibre that is not the last of its cell changes nothing of the others, of the accesses and of the launches. -/
theorem finishQuit_ends (ho : s.own ⟨c.id, f.idx⟩ = []) (hx : ∃ x ∈ c.fibres, x.idx ≠ f.idx) :
    let u := finishQuit s ⟨c.id, f.idx⟩
    u.fibre? ⟨c.id, f.idx⟩ = none ∧ u.accs = s.accs ∧ u.launches = s.launches
      ∧ ∀ i, i ≠ f.idx → ∀ x, c.fibre? i = some x → ∃ y, u.fibre? ⟨c.id, i⟩ = some y ∧ y.arch = x.arch := by
  refine ⟨?_, ?_, ?_, fun i hi x hxi => ⟨{ x with joinSet := x.joinSet.filter (· != f.idx) }, ?_, rfl⟩⟩
  · rw [finishQuit_fibre? hc hs hx, if_pos rfl]
  · rw [finishQuit_not_last hc hs hx, withoutFibre_accs hs ho]
  · rw [finishQuit_not_last hc hs hx]
    exact hs.launches
  · rw [finishQuit_fibre? hc hs hx, if_neg hi, hxi, Option.map_some]

end

/-- The frames of a state once a fibre's last leave of frame i waits for its release (R57). -/
def Frame.lastLeft (i : Nat) (r : FRef) (x : Frame) : Frame := if x.id = i then { x with count := 0, leaver := some r } else x
theorem Frame.lastLeft_id (i : Nat) (r : FRef) (x : Frame) : (x.lastLeft i r).id = x.id := by
  unfold Frame.lastLeft
  split <;> rfl
theorem Frame.lastLeft_leaver {i : Nat} {r : FRef} {x : Frame} (h : x.leaver ≠ some r) : (x.lastLeft i r).leaver = some r ↔ x.id = i := by
  by_cases hx : x.id = i <;> simp [Frame.lastLeft, hx, h]

/-- Once the release of a fibre's last leave of a frame is done, that frame retires, and no other (R58). -/
theorem retireLeft_frames_of_last {s : State} {r : FRef} {e : Frame} (hl : ∀ x ∈ s.frames, x.leaver ≠ some r) (he : e ∈ s.frames) :
    (retireLeft (s.setFrame e.id fun x => { x with count := 0, leaver := some r }) r).frames = s.frames.filter (·.id != e.id) := by
  have hall (x : Frame) : (((s.frames.map (Frame.lastLeft e.id r)).filter (·.leaver == some r)).all fun y => x.id != y.id) = (x.id != e.id) := by
    rw [Bool.eq_iff_iff, List.all_eq_true, bne_iff_ne]
    constructor
    · intro h
      have hx := h (e.lastLeft e.id r)
        (List.mem_filter.2 ⟨List.mem_map_of_mem he, by simpa using (Frame.lastLeft_leaver (hl e he)).2 rfl⟩)
      rwa [bne_iff_ne, Frame.lastLeft_id] at hx
    · intro h y hy
      obtain ⟨hm, hy⟩ := List.mem_filter.1 hy
      obtain ⟨z, hz, rfl⟩ := List.mem_map.1 hm
      rwa [bne_iff_ne, Frame.lastLeft_id, (Frame.lastLeft_leaver (hl z hz)).1 (by simpa using hy)]
  calc (retireLeft (s.setFrame e.id fun x => { x with count := 0, leaver := some r }) r).frames
      = (s.frames.map (Frame.lastLeft e.id r)).filter (·.id != e.id) :=
        (foldl_retire_frames _ _).trans (congrArg (fun p => (s.frames.map (Frame.lastLeft e.id r)).filter p) (funext hall))
    _ = (s.frames.filter (·.id != e.id)).map (Frame.lastLeft e.id r) := by
        rw [List.filter_map]
        exact congrArg (fun p => (s.frames.filter p).map _) (funext fun x => by rw [Function.comp_apply, Frame.lastLeft_id])
    _ = s.frames.filter (·.id != e.id) := by
        refine (List.map_congr_left fun x hx => ?_).trans (List.map_id _)
        exact if_neg (by simpa using (List.mem_filter.1 hx).2)

/-- The end of a fibre that is not its cell's last (R28, R50, R58), by what it holds: no frame, one that others share, one of its own. -/
theorem fibreEnds : Rules.FibreEnds := by
  intro s c f hc hf ho hl hx u ends
  have hfib : s.fibre? ⟨c.id, f.idx⟩ = some f := by rw [State.fibre?, hc, Option.bind_some, hf]
  refine ⟨fun hd => ?_, fun n e hn hn8 hdn hd he => ?_⟩
  · have hv : leftFrames s ⟨c.id, f.idx⟩ = s := by
      rw [leftFrames, leaveFrames_none hfib hd, retireLeft_eq_self hl]
    have hs : SameOthers ⟨c.id, f.idx⟩ s (leftFrames s ⟨c.id, f.idx⟩) := by
      rw [hv]; exact .refl _ s
    have hu : u = withoutFibre s ⟨c.id, f.idx⟩ := (finishQuit_not_last hc hs hx).trans (by rw [hv])
    exact ⟨finishQuit_ends hc hs ho hx, by rw [hu]; rfl, by rw [hu]; rfl⟩
  · have hs : SameOthers ⟨c.id, f.idx⟩ s (leftFrames s ⟨c.id, f.idx⟩) :=
      (leaveFrames_sameOthers hfib).trans (foldl_retire_sameOthers _ _ _)
    refine ⟨finishQuit_ends hc hs ho hx, fun hcount => ?_, fun hcount => ?_⟩
    · have hv := leaveStep_shared (all := s.coverage ⟨c.id, f.idx⟩) hdn he hcount ho
      rw [← leaveFrames_one hfib hn hn8 hd] at hv
      have hl' : ∀ x ∈ (leaveFrames s ⟨c.id, f.idx⟩ 1).1.frames, x.leaver ≠ some ⟨c.id, f.idx⟩ := by
        rw [hv]
        intro x hx
        obtain ⟨y, hy, rfl⟩ := List.mem_map.1 hx
        by_cases hye : y.id = e.id
        · rw [if_pos hye]; exact hl y hy
        · rw [if_neg hye]; exact hl y hy
      have hu : u = withoutFibre _ ⟨c.id, f.idx⟩ := (finishQuit_not_last hc hs hx).trans (by rw [leftFrames, retireLeft_eq_self hl', hv])
      exact ⟨by rw [hu]; rfl, by rw [hu]; rfl⟩
    · have hv := leaveStep_last (r := ⟨c.id, f.idx⟩) (all := s.coverage ⟨c.id, f.idx⟩) hdn he hcount
      rw [← leaveFrames_one hfib hn hn8 hd] at hv
      have hu : u = withoutFibre _ ⟨c.id, f.idx⟩ := (finishQuit_not_last hc hs hx).trans (by rw [leftFrames, hv])
      rw [hu]
      exact retireLeft_frames_of_last (s := s.setFibre _ _) hl (List.mem_of_find?_eq_some he)

/-! ### QUIT -/

/-- Lanes none of which traps, P being kept from one to the next, run as eachLane does. -/
theorem laneRun_eq_eachLane {cell : Nat} {op : State → Fibre → List DWord → State × Option Trap}
    {act : State → Fibre → List DWord → State} {P : State → Prop} :
    ∀ {xs : List (Fibre × List DWord)} {s : State}, P s →
      (∀ s x f, P s → x ∈ xs → f.idx = x.1.idx → op s f x.2 = (act s f x.2, none) ∧ P (act s f x.2)) →
      laneRun cell op s xs = some (eachLane s cell xs act)
  | [], _, _, _ => rfl
  | x :: r, s, hs, h => by
    have hidx : ((s.fibre? ⟨cell, x.1.idx⟩).getD x.1).idx = x.1.idx := by
      cases hf : s.fibre? ⟨cell, x.1.idx⟩ with
      | none => rfl
      | some f =>
        obtain ⟨c, -, hc⟩ := Option.bind_eq_some_iff.1 hf
        simpa using List.find?_some hc
    obtain ⟨hop, hP⟩ := h s x _ hs List.mem_cons_self hidx
    simp only [laneRun, hop]
    exact laneRun_eq_eachLane hP fun s y f hs hy => h s y f hs (List.mem_cons_of_mem _ hy)

/-- Nothing to sort is no earliest fault. -/
theorem earliest_none {xs ys : List (Nat × Trap)} (hx : xs = []) (hy : ys = []) :
    (sortBy (fun (a b : Nat × Trap) => decide (a.1 ≤ b.1)) (xs ++ ys)).head?.map (·.2) = none := by
  rw [hx, hy]; rfl

/-- QUIT finds no deferred fault where no request of the fibre is refused (R265). -/
theorem parkDue_quit_none {s : State} {r : FRef} (ha : ∀ a ∈ s.accs, a.of r = true → ∀ c, a.stage ≠ .refused c)
    (ho : ∀ o ∈ s.ops, o.fibres.any (·.1 == r) = true → o.refused = none) : parkDue s r .quit = none := by
  refine earliest_none (List.filterMap_eq_nil_iff.2 fun a hm => ?_) (List.filterMap_eq_nil_iff.2 fun o hm => ?_)
  · split
    · rename_i c hc
      refine if_neg fun h => ?_
      simp only [Bool.and_eq_true] at h
      exact ha a hm h.1.1 c hc
    · rfl
  · split
    · rename_i t x ht hx
      rw [ho o hm (List.any_eq_true.2 ⟨x, List.mem_of_find?_eq_some hx, by simpa using List.find?_some hx⟩)] at ht
      cases ht
    · rfl

/-- Two changes of one fibre, one after the other. -/
theorem setFibre_setFibre (s : State) (r : FRef) (f g : Fibre → Fibre) (hf : ∀ x, (f x).idx = x.idx) :
    (s.setFibre r f).setFibre r g = s.setFibre r fun x => g (f x) := by
  simp only [State.setFibre, State.setCell, State.mk.injEq, List.map_map, true_and, and_true]
  refine List.map_congr_left fun c _ => ?_
  by_cases hc : c.id = r.cell
  · simp only [Function.comp_apply, if_pos hc, Cell.setFibre, List.map_map]
    congr 1
    refine List.map_congr_left fun x _ => ?_
    by_cases hx : x.idx = r.idx <;> simp [hx, hf]
  · simp [hc]

/-- QUIT of one lane none of whose requests is refused. -/
theorem quitLane_eq {s : State} {g : Grp} {f : Fibre} (ha : ∀ a ∈ s.accs, a.of ⟨g.cell.id, f.idx⟩ = true → ∀ c, a.stage ≠ .refused c)
    (ho : ∀ o ∈ s.ops, o.fibres.any (·.1 == ⟨g.cell.id, f.idx⟩) = true → o.refused = none) :
    quitLane g s f = (s.setFibre ⟨g.cell.id, f.idx⟩ (Rules.quitting s g), none) := by
  have hp (F : Fibre → Fibre) : parkDue (s.setFibre ⟨g.cell.id, f.idx⟩ F) ⟨g.cell.id, f.idx⟩ .quit = none := parkDue_quit_none ha ho
  unfold quitLane
  extract_lets r u
  rw [show parkDue u r .quit = none from hp _]
  show ((s.setFibre r _).setFibre r _, none) = _
  rw [setFibre_setFibre]
  · refine congrArg (fun F => (s.setFibre r F, none)) (funext fun x => ?_)
    unfold Rules.quitting
    cases x.tx <;> rfl
  · exact fun _ => rfl

/-- A member of a group is outside the active ones exactly where the group has it and they do not. -/
theorem any_idx_outside (ms as : List Fibre) (i : Nat) :
    ((ms.filter fun m => !as.any (·.idx == m.idx)).any (·.idx == i)) = (ms.any (·.idx == i) && !as.any (·.idx == i)) := by
  rw [Bool.eq_iff_iff]
  simp only [List.any_eq_true, List.mem_filter, Bool.and_eq_true, beq_iff_eq]
  constructor
  · rintro ⟨m, ⟨hm, hn⟩, rfl⟩
    exact ⟨⟨m, hm, rfl⟩, hn⟩
  · rintro ⟨⟨m, hm, rfl⟩, hn⟩
    exact ⟨m, ⟨hm, hn⟩, rfl⟩

theorem refresh_first (g : Grp) (s : State) : (g.refresh s).first = g.first := by
  unfold Grp.refresh
  split <;> rfl
theorem refresh_at (g : Grp) (s : State) : (g.refresh s).at_ = g.at_ := by
  unfold Grp.refresh
  split <;> rfl

/-- QUIT (R28, R355): no lane of it parks, and each does what `Rules.quitting` says. -/
theorem quitWord : Rules.QuitWord := by
  intro s g hi ha ho
  have hid : (g.after s false).cell.id = g.cell.id := refresh_cell_id ..
  have hat : (g.after s false).at_ = g.at_ := refresh_at ..
  have hfirst : (g.after s false).first = g.first := refresh_first ..
  refine unit_eq (body := fun s g => some (quitThese s g g.active)) hi nofun nofun (congrArg some ?_)
  unfold quitThese
  simp only [hid, hat, any_idx_outside]
  refine foldLanes_eq ?_
  rw [hid]
  refine laneRun_eq_eachLane (op := fun t f _ => quitLane (g.after s false) t f)
    (P := fun t => t.accs = s.accs ∧ t.ops = s.ops) ⟨rfl, rfl⟩ fun t x f ⟨hta, hto⟩ hx hf => ?_
  obtain ⟨l, hl, rfl⟩ := List.mem_map.1 hx
  refine ⟨(quitLane_eq ?_ ?_).trans ?_, hta, hto⟩
  · rw [hid, hf, hta]; exact ha l hl
  · rw [hid, hf, hto]; exact ho l hl
  · have hq : Rules.quitting t (g.after s false) = Rules.quitting t g := by
      funext x; simp only [Rules.quitting, hfirst]
    rw [hid, hq]

end Sys2Proof.Machine

namespace Sys2Proof.Proofs
open Sys2Proof.Machine

/-- Settles O24: the word QUIT, the end of a fibre and the end of a cell, each by its own lemma. -/
theorem fibresEnd : Obligations.FibresEnd := ⟨quitWord, fibreEnds, cellEnds⟩

end Sys2Proof.Proofs

/-! SUPPORT. Proofs about dispatch: which cell is at the head, where it goes, what it begins with, and the split of a cluster. -/

namespace Sys2Proof.Machine

/-! ### The dispatch of a head -/

/-- CELL_DISPATCH and PLATE_DISPATCH are one dispatch, each of its own kind of launch. -/
theorem exec_dispatch (s : State) (l : Launch) (die : Nat) :
    exec (if l.kind = .grid then .cellDispatch l.id die else .plateDispatch l.id die) s = dispatch l.id die (l.kind == .grid) s := by
  by_cases hk : l.kind = .grid
  · rw [if_pos hk, hk]; rfl
  · rw [if_neg hk, beq_eq_false_iff_ne.2 hk]; rfl

/-- The dispatch of a head that is next (R77, R158): where it is placed, where a cluster begins to drain for it, where it only waits. -/
theorem dispatchOfHead : Rules.DispatchOfHead := by
  rintro s l die h ⟨hl, hrun, hhead, hnext⟩
  rw [exec_dispatch]
  unfold dispatch
  simp only [hl, hrun, hhead, hnext, bne_self_eq_false, Bool.not_true, Bool.or_self, Bool.false_eq_true, if_false]
  refine ⟨fun ps hp => ?_, fun hp c hc => ?_, fun hp hc => ?_⟩
  · simp only [hp]
  · simp only [hp, hc, State.setLaunch_draining]
  · simp only [hp, hc]

/-! ### The head of a launch -/

/-- The later of two entries where its key is the larger one. -/
def pickLarger (key : Entry → Nat) (m : Option (Entry × Nat)) (x : Entry × Nat) : Option (Entry × Nat) :=
  match m with
  | none => some x
  | some y => if key y.1 < key x.1 then some x else some y

theorem pickLarger_spec (key : Entry → Nat) (m : Option (Entry × Nat)) (x : Entry × Nat) :
    ∃ y, pickLarger key m x = some y ∧ (y = x ∨ m = some y) ∧ key x.1 ≤ key y.1 ∧ ∀ w, m = some w → key w.1 ≤ key y.1 := by
  cases m with
  | none => exact ⟨x, rfl, .inl rfl, le_rfl, nofun⟩
  | some y =>
    by_cases h : key y.1 < key x.1
    · exact ⟨x, if_pos h, .inl rfl, le_rfl, fun w hw => by cases hw; exact h.le⟩
    · exact ⟨y, if_neg h, .inr rfl, Nat.le_of_not_lt h, fun w hw => by cases hw; exact le_rfl⟩

/-- What is picked from some entries, or was held before, has the largest key of them all. -/
theorem foldl_pickLarger_some {key : Entry → Nat} : ∀ {xs : List (Entry × Nat)} {m : Option (Entry × Nat)} {x : Entry × Nat},
    xs.foldl (pickLarger key) m = some x →
      (x ∈ xs ∨ m = some x) ∧ (∀ y ∈ xs, key y.1 ≤ key x.1) ∧ ∀ y, m = some y → key y.1 ≤ key x.1
  | [], m, x, h => ⟨.inr h, nofun, fun y hy => by rw [List.foldl_nil, hy] at h; cases h; exact le_rfl⟩
  | z :: r, m, x, h => by
    obtain ⟨hx, hr, hm⟩ := foldl_pickLarger_some (xs := r) h
    obtain ⟨y, hy, hyz, hzy, hmy⟩ := pickLarger_spec key m z
    have hyx := hm y hy
    refine ⟨?_, List.forall_mem_cons.2 ⟨hzy.trans hyx, hr⟩, fun w hw => (hmy w hw).trans hyx⟩
    rcases hx with hx | hx
    · exact .inl (List.mem_cons_of_mem _ hx)
    · rw [hy] at hx
      cases hx
      exact hyz.imp (fun h => by rw [h]; exact List.mem_cons_self) id
theorem foldl_pickLarger_none {key : Entry → Nat} : ∀ {xs : List (Entry × Nat)} {m : Option (Entry × Nat)},
    xs.foldl (pickLarger key) m = none → xs = [] ∧ m = none
  | [], _, h => ⟨rfl, h⟩
  | z :: r, m, h => by
    obtain ⟨y, hy, -⟩ := pickLarger_spec key m z
    have hm := (foldl_pickLarger_none (xs := r) h).2
    rw [hy] at hm
    cases hm

/-- The entries of a die's share, each with its index. -/
def Launch.mine (l : Launch) (die : Nat) : List (Entry × Nat) := l.cells.zipIdx.filter fun x => l.inShare die x.2
theorem mem_mine {l : Launch} {die i : Nat} {e : Entry} : (e, i) ∈ l.mine die ↔ l.cells[i]? = some e ∧ l.inShare die i = true := by
  rw [Launch.mine, List.mem_filter, List.mem_zipIdx_iff_getElem?]

section
variable {l : Launch} {now die : Nat} {h : Nat × Bool × Word} (hh : l.head now die = some h)
include hh

/-- The cell that waits at the head keeps it (R77). -/
theorem head_waiting (hw : sget 0 l.waiting die ≠ 0) : h.1 + 1 = sget 0 l.waiting die := by
  unfold Launch.head at hh
  split at hh
  · cases hh
  · simp only [hw, ne_eq, not_false_eq_true, if_true, Option.map_eq_some_iff] at hh
    obtain ⟨e, -, rfl⟩ := hh
    exact Nat.succ_pred_eq_of_ne_zero hw

/-- The head of a grid is the first cell of the die that is not yet dispatched (R84). -/
theorem head_grid (hw : sget 0 l.waiting die = 0) (hk : l.kind = .grid) :
    ∃ e, (l.mine die).find? (fun x => !x.1.running && !x.1.ended) = some (e, h.1) := by
  unfold Launch.head at hh
  split at hh
  · cases hh
  · simp only [hw, ne_eq, not_true_eq_false, if_false, hk, Option.map_eq_some_iff] at hh
    obtain ⟨x, hx, rfl⟩ := hh
    exact ⟨x.1, hx⟩
/-- The head of a plate is a candidate of the die: of those that are due, where one is, the one passed over the most times; else the one
of the largest residual (R75, R78). -/
theorem head_plate (hw : sget 0 l.waiting die = 0) (hk : l.kind ≠ .grid) :
    ∃ e, h = (h.1, l.isDue e, e.rho) ∧ (e, h.1) ∈ (l.mine die).filter (fun x => l.candidate now x.1)
      ∧ (l.isDue e = true → ∀ y ∈ (l.mine die).filter (fun x => l.candidate now x.1), l.isDue y.1 = true → y.1.passed ≤ e.passed)
      ∧ (l.isDue e = false → ∀ y ∈ (l.mine die).filter (fun x => l.candidate now x.1),
        l.isDue y.1 = false ∧ y.1.rho.toNat ≤ e.rho.toNat) := by
  unfold Launch.head at hh
  split at hh
  · cases hh
  · simp only [hw, ne_eq, not_true_eq_false, if_false] at hh
    split at hh
    · rename_i x hx
      obtain ⟨hm, hmax, -⟩ := foldl_pickLarger_some (key := (·.passed)) hx
      obtain ⟨hc, hd⟩ := List.mem_filter.1 (hm.resolve_right nofun)
      simp only [Option.some.injEq] at hh
      subst hh
      refine ⟨x.1, by rw [hd], hc, fun _ y hy hyd => hmax y (List.mem_filter.2 ⟨hy, hyd⟩), fun hn => ?_⟩
      rw [hd] at hn
      cases hn
    · rename_i hx
      have hnone := List.filter_eq_nil_iff.1 (foldl_pickLarger_none (key := (·.passed)) hx).1
      obtain ⟨x, hb, rfl⟩ := Option.map_eq_some_iff.1 hh
      obtain ⟨hm, hmax, -⟩ := foldl_pickLarger_some (key := (·.rho.toNat)) hb
      have hm := hm.resolve_right nofun
      have hd (y : Entry × Nat) (hy : y ∈ (l.mine die).filter fun x => l.candidate now x.1) : l.isDue y.1 = false := by
        simpa using hnone y hy
      refine ⟨x.1, by rw [hd x hm], hm, fun hn => ?_, fun _ y hy => ⟨hd y hy, hmax y hy⟩⟩
      rw [hd x hm] at hn
      cases hn
end

/-- Where the entries are searched by index, the first is the one of the lowest index. -/
theorem lowest_of_find?_mine {l : Launch} {die i : Nat} {e : Entry} {p : Entry × Nat → Bool} (h : (l.mine die).find? p = some (e, i)) :
    ∀ j x, j < i → l.cells[j]? = some x → l.inShare die j = true → p (x, j) = false := by
  intro j x hj hx hs
  rw [Launch.mine, List.find?_filter, List.find?_eq_some_iff_getElem] at h
  obtain ⟨-, k, hk, hki, hlow⟩ := h
  have hik : k = i := by simpa using congrArg Prod.snd hki
  have hlow := hlow j (hik ▸ hj)
  obtain ⟨hjl, hxj⟩ := List.getElem?_eq_some_iff.1 hx
  rw [List.getElem_zipIdx, Nat.zero_add, hxj] at hlow
  simpa [hs] using hlow

theorem not_running_of_candidate {l : Launch} {now : Nat} {e : Entry} (h : l.candidate now e = true) : e.running = false := by
  simp only [Launch.candidate, Bool.and_eq_true, Bool.not_eq_true'] at h
  exact h.1.1

/-- The head of a launch on a die (R75, R77, R78, R84), by whether a cell waits there and by the launch's kind. -/
theorem headOfLaunch : Rules.HeadOfLaunch := by
  intro l now die i due rho h
  refine ⟨head_waiting h, fun hw => ?_⟩
  by_cases hk : l.kind = .grid
  · obtain ⟨e, hf⟩ := head_grid h hw hk
    obtain ⟨he, hs⟩ := mem_mine.1 (List.mem_of_find?_eq_some hf)
    have hp := List.find?_some hf
    simp only [Bool.and_eq_true, Bool.not_eq_true'] at hp
    refine ⟨e, he, hs, hp.1, fun _ => ⟨hp.2, fun j x hj hx hjs => ?_⟩, fun hn => absurd hk hn⟩
    have := lowest_of_find?_mine hf j x hj hx hjs
    simpa only [Bool.and_eq_false_iff, Bool.not_eq_false'] using this
  · obtain ⟨e, hh, hm, hdue, hrest⟩ := head_plate h hw hk
    simp only [Prod.mk.injEq, true_and] at hh
    obtain ⟨rfl, rfl⟩ := hh
    obtain ⟨hm, hc⟩ := List.mem_filter.1 hm
    obtain ⟨he, hs⟩ := mem_mine.1 hm
    have hcand {j : Nat} {x : Entry} (hx : l.cells[j]? = some x) (hjs : l.inShare die j = true) (hxc : l.candidate now x = true) :
        (x, j) ∈ (l.mine die).filter fun x => l.candidate now x.1 := List.mem_filter.2 ⟨mem_mine.2 ⟨hx, hjs⟩, hxc⟩
    exact ⟨e, he, hs, not_running_of_candidate hc, fun hg => absurd hg hk, fun _ => ⟨hc, rfl, rfl,
      fun hd j x hx hjs hxc hxd => hdue hd _ (hcand hx hjs hxc) hxd, fun hd j x hx hjs hxc => hrest hd _ (hcand hx hjs hxc)⟩⟩

theorem aged_iff (l : Launch) (now : Nat) (e : Entry) : l.aged now e = true
    ↔ l.rcd.fairT ≠ 0 ∧ 0 < e.occ ∧ e.stamps.headD now + l.rcd.fairT * ticksPerMicro ≤ now := by
  simp only [Launch.aged, Bool.and_eq_true, bne_iff_ne, decide_eq_true_eq, and_assoc]

/-- FAIRT_EXPIRY (R85) raises the mark of a cell exactly where its oldest record has aged. -/
theorem fairnessTime : Rules.FairnessTime := by
  intro s l i e hl he
  have hexec : exec (.fairtExpiry l.id i) s = if l.kind = .expert && l.aged s.now e then
      .next (s.setLaunch l.id fun l => l.setEntry i fun e => { e with runnableByTime := true }) else .next s := by
    show execFairtExpiry l.id i s = _
    simp only [execFairtExpiry, hl, he]
  rw [hexec]
  simp only [Bool.and_eq_true, decide_eq_true_eq, aged_iff]
  refine ⟨fun hk hf ho ht => if_pos ⟨hk, hf, ho, ht⟩, fun h => if_neg ?_⟩
  rintro ⟨hk, hf, ho, ht⟩
  rcases h with h | h | h | h
  · exact h hk
  · exact hf h
  · exact ho.ne' h
  · exact ht.not_gt h

/-! ### The split of a cluster -/

/-- A value that is listed reads back, whatever the map's form. -/
theorem sget_sput_self_of_ne {α : Type} [DecidableEq α] {d v : α} (h : v ≠ d) : ∀ (m : SMap α) (k : Nat), sget d (sput d m k v) k = v
  | [], k => by simp [sput, h, sget]
  | (k', v') :: r, k => by
    simp only [sput, h, if_false]
    split
    · simp [sget]
    · split
      · simp [sget]
      · rename_i hk
        simp only [sget, if_neg hk]
        exact sget_sput_self_of_ne h r k

theorem trimBlocks_sublist (cluster : Nat) : ∀ (bs : List Block) (room : Nat), (trimBlocks cluster room bs).Sublist bs
  | [], _ => .slnil
  | b :: r, room => by
    unfold trimBlocks
    split
    · exact (trimBlocks_sublist cluster r room).cons_cons b
    · split
      · exact (trimBlocks_sublist cluster r room).cons b
      · exact (trimBlocks_sublist cluster r _).cons_cons b
theorem trimBlocks_others (cluster : Nat) : ∀ (bs : List Block) (room : Nat),
    (trimBlocks cluster room bs).filter (fun b => b.cluster != cluster) = bs.filter fun b => b.cluster != cluster
  | [], _ => rfl
  | b :: r, room => by
    unfold trimBlocks
    by_cases hb : b.cluster = cluster
    · simp only [hb, ne_eq, not_true_eq_false, if_false]
      split <;> simp [hb, trimBlocks_others cluster r]
    · simp [hb, trimBlocks_others cluster r]
theorem trimBlocks_room (cluster : Nat) : ∀ (bs : List Block) (room : Nat),
    (((trimBlocks cluster room bs).filter fun b => b.cluster == cluster).map (·.bytes.length)).sum ≤ room
  | [], room => Nat.zero_le room
  | b :: r, room => by
    unfold trimBlocks
    by_cases hb : b.cluster = cluster
    · simp only [hb, ne_eq, not_true_eq_false, if_false]
      split
      · exact trimBlocks_room cluster r room
      · have := trimBlocks_room cluster r (room - b.bytes.length)
        simp [hb]
        omega
    · simpa [hb] using trimBlocks_room cluster r room

theorem l1Size_setSplit (s : State) (cl split : Nat) :
    l1Size { s with splits := sput 0 s.splits cl split } cl ≤ 768 * 1024 - 128 * 1024 * split := by
  unfold l1Size
  by_cases h : split = 0
  · subst h; omega
  · rw [sget_sput_self_of_ne h]

/-- CLUSTER_SPLIT_SWITCH (R16, R157, R158): what a split leaves of L1, and what a drained cluster does for the launch that waits. -/
theorem splitSwitch : Rules.SplitSwitch := by
  refine ⟨fun s cl split => ?_, fun s cl l hd hl => ?_⟩
  · exact ⟨rfl, trimBlocks_sublist cl _ _, trimBlocks_others cl _ _, (trimBlocks_room cl _ _).trans (l1Size_setSplit s cl split)⟩
  · have hexec : exec (.clusterSplitSwitch cl) s = execClusterSplitSwitch cl s := rfl
    have hl' : State.launch? { s with draining := s.draining.filter (·.1 != cl) } l.id = some l := hl
    rw [hexec]
    unfold execClusterSplitSwitch
    simp only [hd, hl, hl', Option.map_some, Option.getD_some]
    refine ⟨fun ho => if_pos (by simp [ho]), fun ho => ?_⟩
    rw [if_neg (by simp [ho])]
    refine ⟨fun hh => ?_, fun h hh hm hn hco hr => ?_⟩
    · simp only [State.setSplit, hh]
    · simp only [State.setSplit] at hm hn hr ⊢
      simp only [hh, hm, hn, hr, decide_eq_true hco, Bool.not_true, Bool.or_self, Bool.false_eq_true, if_false, Bool.and_self, if_true]

/-! ### A placed cell -/

/-- The values of a list put one after another from a key on keep a map's form, and read back there. -/
theorem foldl_sput_spec {α : Type} [DecidableEq α] {d : α} (off : Nat) : ∀ (xs : List α) (n : Nat) {m : SMap α}, swf d m = true →
    swf d ((xs.zipIdx n).foldl (fun m x => sput d m (off + x.2) x.1) m) = true
    ∧ ∀ j, sget d ((xs.zipIdx n).foldl (fun m x => sput d m (off + x.2) x.1) m) j
      = if off + n ≤ j ∧ j < off + n + xs.length then xs.getD (j - (off + n)) d else sget d m j
  | [], n, m, hm => ⟨hm, fun j => by rw [if_neg (by simp)]; rfl⟩
  | x :: r, n, m, hm => by
    obtain ⟨hw, hg⟩ := foldl_sput_spec off r (n + 1) (swf_sput (off + n) x hm)
    refine ⟨hw, fun j => (hg j).trans ?_⟩
    rw [sget_sput _ _ _ hm, List.length_cons]
    by_cases hj : j = off + n
    · rw [if_neg (by omega), if_pos hj, if_pos (by omega), hj, Nat.sub_self, List.getD_cons_zero]
    · rw [if_neg hj]
      by_cases hr : off + (n + 1) ≤ j ∧ j < off + (n + 1) + r.length
      · rw [if_pos hr, if_pos (by omega), show j - (off + n) = j - (off + (n + 1)) + 1 by omega, List.getD_cons_succ]
      · rw [if_neg hr, if_neg (by omega)]

/-- A cell with one fibre more. -/
def addFibre (id : Nat) (mk : State → Nat → Fibre) (s : State) (j : Nat) : State :=
  s.setCell id fun x => { x with fibres := x.fibres ++ [mk s j] }

/-- Fibres added to a cell one after another, each made from the state that the ones before it left. -/
theorem foldl_addFibre {id : Nat} (mk : State → Nat → Fibre) {s : State} {c : Cell} (hc : c ∈ s.cells) (hid : c.id = id) : ∀ n : Nat,
    { c with fibres := c.fibres ++ (List.range n).map fun j => mk ((List.range j).foldl (addFibre id mk) s) j }
      ∈ ((List.range n).foldl (addFibre id mk) s).cells
  | 0 => by simpa using hc
  | n + 1 => by
    have h := List.mem_map_of_mem (f := fun x : Cell => if x.id = id then
      { x with fibres := x.fibres ++ [mk ((List.range n).foldl (addFibre id mk) s) n] } else x) (foldl_addFibre mk hc hid n)
    rw [if_pos hid] at h
    rw [List.range_succ, List.foldl_append, List.map_append, ← List.append_assoc]
    exact h

/-- The uniform registers of a placed cell: the constants from k0 on, the generator words from k60 on (R48, R152). -/
def placedK (l : Launch) : SMap Word :=
  l.rcd.gen.zipIdx.foldl (fun (m : SMap Word) (x : Word × Nat) => sput 0 m (60 + x.2) x.1)
    (l.consts.zipIdx.foldl (fun (m : SMap Word) (x : Word × Nat) => if x.2 < 48 then sput 0 m x.2 x.1 else m) [])

/-- A placed cell: an empty one takes its place, whose fibres are then added in the order of their indices (R25, R36). -/
theorem placeCell_cells (s : State) (l : Launch) (i c home : Nat) (hold : Bool) : ∃ (u : State) (mk : State → Nat → Fibre),
    (placeCell s l i c home hold).cells = ((List.range l.rcd.fibres).foldl (addFibre s.next mk) u).cells
    ∧ (∃ x ∈ u.cells, x.id = s.next ∧ x.launch = l.id ∧ x.index = i ∧ x.part = l.part ∧ x.fn = l.fn ∧ x.cluster = c
      ∧ x.fibres = [] ∧ x.k = placedK l)
    ∧ ∀ t n, (mk t n).idx = n ∧ (mk t n).lane = n % 32 ∧ (mk t n).preds = 1
      ∧ (mk t n).pc = (if l.kind = .grid ∨ l.rcd.entryTab = 0 then l.rcd.entry else ((l.cells[i]?).getD {}).entry)
      ∧ (mk t n).stack = sput 0 (sput 0 [] 0 (BitVec.ofNat 32 n)) 1 (BitVec.ofNat 32 i) ∧ (mk t n).disp = dispatchDisp l.rcd home := by
  refine ⟨?u, ?mk, ?eq, ?cell, ?fib⟩
  case eq =>
    unfold placeCell
    simp only [State.setLaunch_cells, State.setFrame_cells, apply_ite State.cells, ite_self]
    rfl
  case cell => exact ⟨_, List.mem_append_right _ (List.mem_singleton_self _), rfl, rfl, rfl, rfl, rfl, rfl, rfl, rfl⟩
  case fib => exact fun t n => ⟨rfl, rfl, rfl, rfl, rfl, rfl⟩

theorem placedK_get {l : Launch} (hg : l.rcd.gen.length = 4) (hc : l.consts.length ≤ 48) (j : Nat) : sget 0 (placedK l) j
    = if 60 ≤ j ∧ j < 64 then l.rcd.gen.getD (j - 60) 0 else if j < l.consts.length then l.consts.getD j 0 else 0 := by
  have hconsts : l.consts.zipIdx.foldl (fun (m : SMap Word) (x : Word × Nat) => if x.2 < 48 then sput 0 m x.2 x.1 else m) []
      = l.consts.zipIdx.foldl (fun m x => sput 0 m (0 + x.2) x.1) [] := by
    refine List.foldl_ext _ _ _ fun m x hx => ?_
    have hlen := (List.getElem?_eq_some_iff.1 (List.mem_zipIdx_iff_getElem?.1 hx)).1
    rw [if_pos (by omega), Nat.zero_add]
  obtain ⟨hw, hget⟩ := foldl_sput_spec (d := (0 : Word)) 0 l.consts 0 (m := []) rfl
  rw [placedK, hconsts, (foldl_sput_spec 60 l.rcd.gen 0 hw).2, hget, hg]
  simp only [Nat.zero_add, Nat.zero_le, true_and, Nat.add_zero, Nat.sub_zero, sget]

/-- What a placed cell holds (R25, R48, R152): its own registers, and its fibres with their first registers. -/
theorem placedCell : Rules.PlacedCell := by
  intro s l i c home hold hg hcl
  obtain ⟨u, mk, hcells, ⟨x, hx, hid, hlaunch, hindex, hpart, hfn, hcluster, hfib, hk⟩, hmk⟩ := placeCell_cells s l i c home hold
  have hm := foldl_addFibre mk hx hid l.rcd.fibres
  rw [← hcells, hfib, List.nil_append] at hm
  refine ⟨_, hm, hid, hlaunch, hindex, hpart, hfn, hcluster, ?_, fun j hj => ?_, fun j hj hj' => ?_, fun j hj => ?_, fun n hn => ?_⟩
  · rw [List.length_map, List.length_range]
  · show sget 0 x.k j = _
    rw [hk, placedK_get hg hcl, if_neg (by omega)]
    split
    · rfl
    · exact (List.getD_eq_default _ _ (by omega)).symm
  · show sget 0 x.k j = _
    rw [hk, placedK_get hg hcl, if_neg (by omega), if_neg (by omega)]
  · show sget 0 x.k (60 + j) = _
    rw [hk, placedK_get hg hcl, if_pos (by omega), Nat.add_sub_cancel_left]
  · obtain ⟨hidx, hlane, hpreds, hpc, hstack, hdisp⟩ := hmk ((List.range n).foldl (addFibre s.next mk) u) n
    have hw := swf_sput 0 (BitVec.ofNat 32 n) (m := ([] : SMap Word)) (d := 0) rfl
    refine ⟨_, List.mem_map_of_mem (List.mem_range.2 hn), hidx, hlane, hpreds, hpc, ?_, ?_, hdisp⟩
    · rw [hstack, sget_sput _ _ _ hw, if_neg Nat.zero_ne_one, sget_sput _ _ _ rfl, if_pos rfl]
    · rw [hstack, sget_sput _ _ _ hw, if_pos rfl]

end Sys2Proof.Machine

namespace Sys2Proof.Proofs
open Sys2Proof.Machine

/-- Settles O43: the dispatch of a head, the head itself, the placed cell, FAIRT_EXPIRY and the switch of a split, each by its own
lemma. -/
theorem dispatch : Obligations.Dispatch := ⟨dispatchOfHead, headOfLaunch, placedCell, fairnessTime, splitSwitch⟩

end Sys2Proof.Proofs

/-! SUPPORT. Proofs about packets and their completion. -/

namespace Sys2Proof.Machine

/-! ### NOP, BARRIER and UNPLATE -/

section
variable {s : State} {p : Packet} {q : QueueReg}

/-- A packet that has started is read no more, and starts no second time (R236). -/
theorem startable_none {type : Nat} (hp : s.packet? p.id = some p) (hs : p.stage ≠ .read) : startable s p.id type = none := by
  unfold startable
  simp only [hp, beq_eq_false_iff_ne.2 hs, Bool.false_and, Bool.false_eq_true, if_false]

/-- BARRIER_SIGNAL_READ (R239, R240) of a signal that the packet still waits for. -/
theorem barrierSignalRead {ks : List Nat} {k : Nat} (hp : s.packet? p.id = some p) (hq : s.queueOf p = some q)
    (hst : p.stage = .barrier ks) (hk : k ∈ ks) (hf : Rules.Free s q (p.signal k) 8) :
    (∀ e, homeNat s q.cmdWho (p.signal k) 8 = .error e → exec (.barrierSignalRead p.id k) s = .next (s.packetDone p.id 6))
    ∧ ∀ v, homeNat s q.cmdWho (p.signal k) 8 = .ok v →
      let u := touchHomes s q.cmdWho none false .read (p.signal k) 8
      exec (.barrierSignalRead p.id k) s = if 2 ^ 63 ≤ v then .next (u.packetDone p.id 3)
        else if v = 0 then .next (u.setPacket p.id fun x => { x with stage := .barrier (ks.filter (· != k)) }) else .next u := by
  have hexec : exec (.barrierSignalRead p.id k) s = execBarrierSignalRead p.id k s := rfl
  rw [Rules.Free] at hf
  rw [hexec]
  unfold execBarrierSignalRead
  simp only [hp, hq, hst, hf, List.contains_iff_mem.2 hk, Bool.not_true, Bool.or_self, Bool.false_eq_true, if_false]
  exact ⟨fun e he => by rw [he], fun v hv => by rw [hv]⟩

/-- UNPLATE_PACKET that starts (R88): the plate of its record, where there is one, is dispatched no more. -/
theorem unplateStarts (hp : Rules.Starts s p q 4) :
    let plate (l : Launch) : Bool := l.kind != .grid && l.part == q.part && l.fn == q.fn && l.recAddr.toNat == p.record
    (s.launches.find? plate = none → exec (.unplatePacket p.id) s = .next (s.packetDone p.id 5))
    ∧ ∀ l, s.launches.find? plate = some l → exec (.unplatePacket p.id) s
      = .next ((s.setLaunch l.id fun l => { l with unplating := true }).setPacket p.id fun x => { x with stage := .unplating, launch := l.id }) := by
  have hexec : exec (.unplatePacket p.id) s = execUnplatePacket p.id s := rfl
  rw [Rules.Starts] at hp
  rw [hexec]
  unfold execUnplatePacket
  simp only [hp]
  exact ⟨fun hn => by rw [hn], fun l hl => by rw [hl]⟩

/-- UNPLATE_PACKET under way (R88): the plate goes once no update of it runs. -/
theorem unplateGoesOn {l : Launch} (hp : s.packet? p.id = some p) (hst : p.stage = .unplating) (hl : s.launch? p.launch = some l) :
    exec (.unplatePacket p.id) s = if l.cells.any (·.running) then .next s
      else .next ((removePlate s l).setPacket l.packet fun y => { y with stage := .done y.failed }) := by
  have hexec : exec (.unplatePacket p.id) s = execUnplatePacket p.id s := rfl
  rw [hexec]
  unfold execUnplatePacket
  rw [startable_none hp (by rw [hst]; nofun)]
  simp only [hp, hst, hl]

end

/-- NOP, BARRIER and UNPLATE (R88, R236, R239, R240), each event of a packet by its own lemma. -/
theorem otherPackets : Rules.OtherPackets := by
  intro s p q
  refine ⟨fun hp => ?nop, fun hp => ?barrier, fun ks k v hp hq hst hk hf => ?signal, unplateStarts, fun l hp hst hl => ?goesOn⟩
  case nop =>
    rw [Rules.Starts] at hp
    show execPacketNop p.id s = _
    unfold execPacketNop
    rw [hp]
  case barrier =>
    rw [Rules.Starts] at hp
    show execBarrierPacket p.id s = _
    unfold execBarrierPacket
    rw [hp]
  case signal =>
    obtain ⟨herr, hok⟩ := barrierSignalRead hp hq hst hk hf
    refine ⟨herr, fun hv => ⟨fun h0 => ?_, fun hpos hlt => ?_, fun hneg => ?_⟩⟩
    · rw [hok v hv, if_neg (by omega), if_pos h0]
    · rw [hok v hv, if_neg (by omega), if_neg (by omega)]
    · rw [hok v hv, if_pos hneg]
  case goesOn =>
    rw [unplateGoesOn hp hst hl]
    refine ⟨fun h => if_pos (List.any_eq_true.2 h), fun h => if_neg ?_⟩
    rw [Bool.not_eq_true, List.any_eq_false]
    exact fun e he => by rw [h e he]; exact Bool.false_ne_true

/-! ### Completion -/

theorem completionStatus_grid {s : State} {p : Packet} {l : Launch} (hst : p.stage = .launched) (hl : s.launch? p.launch = some l)
    (hk : l.kind = .grid) (he : ∀ e ∈ l.cells, e.ended = true) : completionStatus s p = some p.failed := by
  unfold completionStatus
  simp only [hst, hl]
  exact if_pos ⟨hk, List.all_eq_true.2 he⟩

/-- A state in which the launch of a packet, where it is one, has given up its frame (R88, R372). -/
def withoutLaunch (s : State) (p : Packet) : State :=
  match p.stage, s.launch? p.launch with
  | .launched, some l => removePlate s l
  | _, _ => s
theorem withoutLaunch_eq_self (s : State) {p : Packet} (h : p.stage ≠ .launched) : withoutLaunch s p = s := by
  unfold withoutLaunch
  split
  · contradiction
  · rfl

/-- What a completion with a status does once its packet's launch is gone, a packet whose slot could be read (R237, R240). -/
def completed (s : State) (p : Packet) (q : QueueReg) (st : Nat) : State :=
  let a := if p.field 10 8 = 4 then writeBackAll s (s.asid q.part q.fn) else s
  let r := raiseSignal a q (p.field 127 64) st
  let st' := if r.2 then st else 6
  let b := if st' = 0 then r.1 else devPut r.1 q (q.addr + 36) (bytesOfNat 1 st')
  let b := if p.type = 3 ∧ st' = 3 then putQueueState b q 2 else b
  afterAll { b with packets := b.packets.filter (·.id != p.id) }

section
variable {s : State} {p : Packet} {q : QueueReg} (hp : s.packet? p.id = some p) (hq : s.queueOf p = some q)
include hp

theorem packetComplete_waits (hst : completionStatus s p = none) : exec (.packetComplete p.id) s = .next s := by
  show execPacketComplete p.id s = _
  unfold execPacketComplete
  simp only [hp, hst]

include hq

theorem packetComplete_completes {st : Nat} (hst : completionStatus s p = some st) (hk : p.known = true)
    (hsig : p.field 127 64 = 0 ∨ Rules.Free s q (p.field 127 64) 8) (hhdr : Rules.Free s q q.addr 64) :
    exec (.packetComplete p.id) s = .next (completed (withoutLaunch s p) p q st) := by
  have hfree : (p.field 127 64 != 0 && heldBack s [] q.part q.fn (p.field 127 64) 8 || heldBack s [] q.part q.fn q.addr 64) = false := by
    rw [Bool.or_eq_false_iff, Bool.and_eq_false_iff]
    exact ⟨hsig.imp (fun h => by rw [h]; rfl) id, hhdr⟩
  show execPacketComplete p.id s = _
  unfold execPacketComplete completed
  simp only [hp, hq, hst, hk, if_true, hfree, Bool.false_eq_true, if_false, Bool.not_true, Bool.false_or, Bool.and_eq_true, beq_iff_eq]
  rfl

end

/-- PACKET_COMPLETE (R237, R240, R372), by whether the packet can complete; a packet that is no launch leaves none to remove. -/
theorem packetCompletes : Rules.PacketCompletes := by
  intro s p q hp hq
  refine ⟨packetComplete_waits hp, fun st hst hnl hk hsig hhdr => ?_, fun l => completionStatus_grid⟩
  rw [packetComplete_completes hp hq hst hk hsig hhdr, withoutLaunch_eq_self s hnl]
  rfl

/-- The completion signal (R237): one less on success, minus the status on a failure; one off its boundary is not written. -/
theorem completionSignal : Rules.CompletionSignal := by
  intro s q a st ha u
  unfold raiseSignal
  rw [if_neg ha]
  refine ⟨fun h8 => if_pos h8, fun h8 h0 old t hold hw => ?_, fun h8 hpos t hw => ?_⟩
  · rw [if_neg (not_not.2 h8), if_pos h0, addSignal, hold]
    simp only [hw, u]
  · rw [if_neg (not_not.2 h8), if_neg hpos.ne', hw]

end Sys2Proof.Machine

namespace Sys2Proof.Proofs
open Sys2Proof.Machine

/-- Settles O45: the packets that launch nothing, the completion of a packet, and its signal, each by its own lemma. -/
theorem packetsComplete : Obligations.PacketsComplete := ⟨otherPackets, packetCompletes, completionSignal⟩

end Sys2Proof.Proofs

/-! SUPPORT. Proofs about plates: the commit of an update. -/

namespace Sys2Proof.Machine

/-! ### What a commit changes in the entries of a plate -/

theorem setEntry_getElem?_other (l : Launch) (f : Entry → Entry) {i j : Nat} (h : j ≠ i) : (l.setEntry i f).cells[j]? = l.cells[j]? := by
  simp only [Launch.setEntry, List.getElem?_map, List.getElem?_zipIdx, Option.map_map]
  cases l.cells[j]? <;> simp [h]

/-- The entries of a plate with the shares of a change passed along its edges (R71, R72). -/
def raiseAlong (d : Word) (l : Launch) (edges : List (Nat × Word)) : Launch :=
  edges.foldl (fun (l : Launch) (x : Nat × Word) => l.setEntry x.1 fun e => e.raise (share x.2 d)) l

theorem raiseAlong_eq (d : Word) : ∀ (edges : List (Nat × Word)) (l : Launch), ∃ c, raiseAlong d l edges = { l with cells := c }
  | [], l => ⟨l.cells, rfl⟩
  | x :: r, l => by
    obtain ⟨c, hc⟩ := raiseAlong_eq d r (l.setEntry x.1 fun e => e.raise (share x.2 d))
    exact ⟨c, hc⟩
theorem raiseAlong_other {d : Word} {j : Nat} : ∀ {edges : List (Nat × Word)} {l : Launch}, (∀ y ∈ edges, y.1 ≠ j) →
    (raiseAlong d l edges).cells[j]? = l.cells[j]?
  | [], _, _ => rfl
  | x :: _, l, h => (raiseAlong_other fun y hy => h y (List.mem_cons_of_mem _ hy)).trans
      (setEntry_getElem?_other l _ (h x List.mem_cons_self).symm)
/-- A dependent of one edge rises by the share of that edge. -/
theorem raiseAlong_dependent {d w : Word} {j : Nat} {pre post : List (Nat × Word)} (l : Launch) (h : ∀ y ∈ pre ++ post, y.1 ≠ j) :
    (raiseAlong d l (pre ++ (j, w) :: post)).cells[j]? = (l.cells[j]?).map fun e => e.raise (share w d) := by
  rw [raiseAlong, List.foldl_append, List.foldl_cons]
  calc (raiseAlong d ((raiseAlong d l pre).setEntry j fun e => e.raise (share w d)) post).cells[j]?
      = ((raiseAlong d l pre).setEntry j fun e => e.raise (share w d)).cells[j]? :=
        raiseAlong_other fun y hy => h y (List.mem_append_right _ hy)
    _ = (l.cells[j]?).map fun e => e.raise (share w d) := by
        rw [setEntry_getElem?_self, raiseAlong_other fun y hy => h y (List.mem_append_left _ hy)]

/-- The entries of a launch that the commit of its cell i has changed, before convergence is checked (R71). -/
def committedEntries (l : Launch) (i : Nat) (v d : Word) (e : Entry) : Launch :=
  (if l.kind = .plate then raiseAlong d (l.setEntry i fun e => { e with rho := upAdd v e.arrivals, arrivals := 0 }) e.edges
    else l).setEntry i fun e => { e with running := false }

theorem commitEntries_eq {l : Launch} {i : Nat} {e : Entry} (v d : Word) (he : l.cells[i]? = some e) :
    commitEntries l i v d = checkConverged (committedEntries l i v d e) := by
  unfold commitEntries committedEntries
  rw [he]
  cases hk : l.kind <;> rfl
theorem committedEntries_eq (l : Launch) (i : Nat) (v d : Word) (e : Entry) : ∃ c, committedEntries l i v d e = { l with cells := c } := by
  unfold committedEntries
  split
  · obtain ⟨c, hc⟩ := raiseAlong_eq d e.edges (l.setEntry i fun e => { e with rho := upAdd v e.arrivals, arrivals := 0 })
    rw [hc]
    exact ⟨_, rfl⟩
  · exact ⟨_, rfl⟩

section
variable {l : Launch} {i : Nat} {e : Entry} (he : l.cells[i]? = some e) (v d : Word)
include he

/-- The own entry of a committed cell of a plate, none of whose edges leads to itself. -/
theorem committedEntries_plate_self (hk : l.kind = .plate) (hs : ∀ x ∈ e.edges, x.1 ≠ i) :
    (committedEntries l i v d e).cells[i]? = some { e with rho := upAdd v e.arrivals, arrivals := 0, running := false } := by
  rw [committedEntries, if_pos hk, setEntry_getElem?_self, raiseAlong_other hs, setEntry_getElem?_self, he]
  rfl
theorem committedEntries_expert_self (hk : l.kind = .expert) :
    (committedEntries l i v d e).cells[i]? = some { e with running := false } := by
  rw [committedEntries, if_neg (by rw [hk]; nofun), setEntry_getElem?_self, he]
  rfl

end

theorem committedEntries_plate_other {l : Launch} {i j : Nat} {e : Entry} (v d : Word) (hk : l.kind = .plate) (hj : j ≠ i) :
    (committedEntries l i v d e).cells[j]?
      = (raiseAlong d (l.setEntry i fun e => { e with rho := upAdd v e.arrivals, arrivals := 0 }) e.edges).cells[j]? := by
  rw [committedEntries, if_pos hk, setEntry_getElem?_other _ _ hj]
theorem committedEntries_expert_other {l : Launch} {i j : Nat} {e : Entry} (v d : Word) (hk : l.kind = .expert) (hj : j ≠ i) :
    (committedEntries l i v d e).cells[j]? = l.cells[j]? := by
  rw [committedEntries, if_neg (by rw [hk]; nofun), setEntry_getElem?_other _ _ hj]

/-! ### Convergence -/

/-- Does an entry keep its plate from convergence (R79): a residual above ε, a queue that is not empty? -/
def Launch.unsettled (l : Launch) (x : Entry) : Bool := match l.kind with | .expert => x.occ != 0 | _ => !settledRho x.rho l.rcd.eps
theorem unsettled_iff (l : Launch) (x : Entry) :
    l.unsettled x = true ↔ if l.kind = .expert then x.tail - x.head ≠ 0 else settledRho x.rho l.rcd.eps = false := by
  unfold Launch.unsettled
  cases l.kind <;> simp [Entry.occ]
theorem not_unsettled_iff (l : Launch) (x : Entry) :
    l.unsettled x = false ↔ if l.kind = .expert then x.tail - x.head = 0 else settledRho x.rho l.rcd.eps = true := by
  unfold Launch.unsettled
  cases l.kind <;> simp [Entry.occ]

/-- A plate is converged where no update runs and every entry is settled (R79). -/
theorem isConverged_iff {l : Launch} (hk : l.kind ≠ .grid) : l.isConverged = true
    ↔ ∀ x ∈ l.cells, x.running = false ∧ (l.kind = .plate → settledRho x.rho l.rcd.eps = true) ∧ (l.kind = .expert → x.tail - x.head = 0) := by
  unfold Launch.isConverged
  cases h : l.kind with
  | grid => contradiction
  | plate => simp [and_comm]
  | expert => simp [Entry.occ, and_comm]

theorem checkConverged_of_converged {l : Launch} (h : l.isConverged = true) :
    (checkConverged l).conv = true ∧ (checkConverged l).gen = if l.conv then l.gen else l.gen + 1 := by
  unfold checkConverged
  rw [if_pos h]
  cases hc : l.conv <;> simp [hc]
/-- A plate that is not converged: an unsettled entry withdraws the mark, and nothing else does (R79). -/
theorem checkConverged_of_not {l : Launch} (hk : l.kind ≠ .grid) (h : ¬ l.isConverged = true) :
    checkConverged l = if l.cells.any l.unsettled then { l with conv := false } else l := by
  unfold checkConverged
  rw [if_neg h, if_neg hk]
  rfl

/-- What the check of convergence does to the marks of a plate (R79). -/
theorem checkConverged_marks {l : Launch} (hk : l.kind ≠ .grid) :
    let calm : Prop := ∀ x ∈ l.cells, x.running = false ∧ (l.kind = .plate → settledRho x.rho l.rcd.eps = true) ∧ (l.kind = .expert → x.tail - x.head = 0)
    (calm → (checkConverged l).conv = true ∧ (checkConverged l).gen = if l.conv then l.gen else l.gen + 1)
    ∧ (¬ calm → (checkConverged l).gen = l.gen
      ∧ ((∃ x ∈ l.cells, if l.kind = .expert then x.tail - x.head ≠ 0 else settledRho x.rho l.rcd.eps = false) → (checkConverged l).conv = false)
      ∧ ((∀ x ∈ l.cells, if l.kind = .expert then x.tail - x.head = 0 else settledRho x.rho l.rcd.eps = true) → (checkConverged l).conv = l.conv)) := by
  intro calm
  rw [show calm ↔ l.isConverged = true from (isConverged_iff hk).symm]
  refine ⟨checkConverged_of_converged, fun hn => ?_⟩
  rw [checkConverged_of_not hk hn]
  simp only [← unsettled_iff, ← not_unsettled_iff]
  refine ⟨?_, fun hu => ?_, fun hs => ?_⟩
  · split <;> rfl
  · rw [if_pos (List.any_eq_true.2 hu)]
  · rw [if_neg (by rw [Bool.not_eq_true, List.any_eq_false]; exact fun x hx => by rw [hs x hx]; exact Bool.false_ne_true)]

/-- The commit of an update in its plate (R71, R79). -/
theorem commitEntries_spec : Rules.CommitEntries := by
  intro l i v d e he u
  have hu : u = checkConverged (committedEntries l i v d e) := commitEntries_eq v d he
  have hcells : u.cells = (committedEntries l i v d e).cells := by rw [hu, checkConverged_cells]
  refine ⟨fun hk hs => ⟨?_, fun j x hj hx => ⟨fun hn => ?_, fun pre w post hed hn => ?_⟩⟩, fun hk => ⟨?_, fun j hj => ?_⟩, fun hk => ?_⟩
  · rw [hcells, committedEntries_plate_self he v d hk hs]
  · rw [hcells, committedEntries_plate_other v d hk hj, raiseAlong_other hn, setEntry_getElem?_other _ _ hj, hx]
  · rw [hcells, committedEntries_plate_other v d hk hj, hed, raiseAlong_dependent _ hn, setEntry_getElem?_other _ _ hj, hx]
    rfl
  · rw [hcells, committedEntries_expert_self he v d hk]
  · rw [hcells, committedEntries_expert_other v d hk hj]
  · obtain ⟨c, hc⟩ := committedEntries_eq l i v d e
    rw [hcells, hu, hc]
    exact checkConverged_marks (l := { l with cells := c }) hk

/-! ### SETTLE_COMMIT -/

theorem allAt_settle_iff (c : Cell) : allAt c isSettle = true ↔ ∀ f ∈ c.fibres, f.status = .blocked .settle := by
  rw [allAt, List.all_eq_true]
  refine forall₂_congr fun f _ => ?_
  cases f.status with
  | blocked w => cases w <;> simp [isSettle]
  | _ => simp

/-- Every flag of a fibre is clear. -/
theorem flagsClear_all_iff (f : Fibre) : f.flagsClear 0xFFF = true ↔ ∀ n, n < 12 → f.flag n = 0 := by
  have hbit : ∀ n < 12, (0xFFF : BitVec 12).getLsbD n = true := by decide
  simp only [Fibre.flagsClear, List.all_eq_true, List.mem_range, Bool.or_eq_true, Bool.not_eq_true', beq_iff_eq]
  refine forall₂_congr fun n hn => ?_
  rw [hbit n hn]
  simp

/-- A cell whose update may commit (R71, R196). -/
structure MayCommit (s : State) (c : Cell) : Prop where
  resident : c.resident = true
  plate : kindOf s c ≠ .grid
  running : c.settled = false
  some_ : c.fibres ≠ []
  atSettle : ∀ f ∈ c.fibres, f.status = .blocked .settle
  idle : ∀ f ∈ c.fibres, s.idle ⟨c.id, f.idx⟩ = true
  flags : ∀ f ∈ c.fibres, ∀ n, n < 12 → f.flag n = 0
  released : covered s c.id .dev c.fibres = true
  invals : s.invalsClear c.cluster = true
  ready : heldReady s c = true

/-- The guard of SETTLE_COMMIT, as the event makes it. -/
def mayCommit (s : State) (c : Cell) : Bool :=
  !(!c.resident || kindOf s c = .grid || c.settled || c.fibres.isEmpty || !allAt c isSettle
    || !(c.fibres.all fun f => s.idle ⟨c.id, f.idx⟩ && f.flagsClear 0xFFF)
    || !covered s c.id .dev c.fibres || !s.invalsClear c.cluster || !heldReady s c)
theorem mayCommit_iff (s : State) (c : Cell) : mayCommit s c = true ↔ MayCommit s c := by
  simp only [mayCommit, Bool.not_or, Bool.and_eq_true, Bool.not_not, Bool.not_eq_true', decide_eq_false_iff_not, allAt_settle_iff,
    List.all_eq_true, flagsClear_all_iff, List.isEmpty_eq_false_iff]
  constructor
  · rintro ⟨⟨⟨⟨⟨⟨⟨⟨hres, hkind⟩, hset⟩, hne⟩, hat⟩, hall⟩, hcov⟩, hinv⟩, hheld⟩
    exact ⟨hres, hkind, hset, hne, hat, fun f hf => (hall f hf).1, fun f hf => (hall f hf).2, hcov, hinv, hheld⟩
  · rintro ⟨hres, hkind, hset, hne, hat, hidle, hflags, hcov, hinv, hheld⟩
    exact ⟨⟨⟨⟨⟨⟨⟨⟨hres, hkind⟩, hset⟩, hne⟩, hat⟩, fun f hf => ⟨hidle f hf, hflags f hf⟩⟩, hcov⟩, hinv⟩, hheld⟩

section
variable {s : State} {c : Cell} (hc : s.cell? c.id = some c)
include hc

theorem settleCommit_stays (h : ¬ MayCommit s c) : exec (.settleCommit c.id) s = .next s := by
  rw [← mayCommit_iff, mayCommit, Bool.not_eq_true, Bool.not_eq_false'] at h
  show execSettleCommit c.id s = _
  unfold execSettleCommit
  rw [hc]
  exact if_pos h

/-- SETTLE_COMMIT of a cell whose update may commit (R71): its held bytes land, or one that cannot traps in the cell's first fibre. -/
theorem settleCommit_commits (h : MayCommit s c) {f : Fibre} {fs : List Fibre} (hf : c.fibres = f :: fs) :
    (∀ a e, landAll s c true c.held = .error (a, e) → exec (.settleCommit c.id) s
      = .next (takeTraps s c.id f.hatch [⟨f.idx, { cause := e, detail := e.detail 2, faddr := a }, f.waitAt⟩]))
    ∧ ∀ t, landAll s c true c.held = .ok t → exec (.settleCommit c.id) s = .next (c.fibres.foldl (fun s f => finishQuit s ⟨c.id, f.idx⟩)
        ((t.setCell c.id fun c => { c with settled := true, held := [] }).setLaunch c.launch fun l => commitEntries l c.index c.repV c.repD)) := by
  rw [← mayCommit_iff, mayCommit, Bool.not_eq_true'] at h
  have hexec : exec (.settleCommit c.id) s = execSettleCommit c.id s := rfl
  rw [hexec]
  unfold execSettleCommit
  rw [hc]
  dsimp only
  rw [h]
  refine ⟨fun a e he => ?_, fun t ht => ?_⟩
  · rw [he, hf]
    rfl
  · rw [ht]
    rfl

end

/-- SETTLE_COMMIT (R28, R71, R196), by whether the update may commit. -/
theorem settleCommits : Rules.SettleCommits := by
  intro s c f fs hc hf
  refine ⟨fun h => settleCommit_stays hc fun hm => ?_, fun ⟨x, hx, n, hn, hflag⟩ => settleCommit_stays hc fun hm => hflag (hm.flags x hx n hn), ?_⟩
  · rcases h with h | h | h | ⟨x, hx, h | h⟩ | h | h | h
    · exact Bool.false_ne_true (hm.running.symm.trans h)
    · exact hm.plate h
    · exact Bool.false_ne_true (h.symm.trans hm.resident)
    · exact h (hm.atSettle x hx)
    · exact Bool.false_ne_true (h.symm.trans (hm.idle x hx))
    · exact Bool.false_ne_true (h.symm.trans hm.released)
    · exact Bool.false_ne_true (h.symm.trans hm.invals)
    · exact Bool.false_ne_true (h.symm.trans hm.ready)
  · intro hres hk hset hat hidle hflags hcov hinv hheld
    exact settleCommit_commits hc ⟨hres, hk, hset, by rw [hf]; nofun, (allAt_settle_iff c).1 hat, List.all_eq_true.1 hidle, hflags, hcov, hinv, hheld⟩ hf

end Sys2Proof.Machine

namespace Sys2Proof.Proofs
open Sys2Proof.Machine

/-- Settles O29: when SETTLE_COMMIT does what, and what it changes in the entries of its plate, each by its own lemma. -/
theorem plateUpdateCommits : Obligations.PlateUpdateCommits := ⟨settleCommits, commitEntries_spec⟩

end Sys2Proof.Proofs

/-! SUPPORT. Proofs about the plate words: one lane of a word that becomes pending. -/

namespace Sys2Proof.Machine

/-! ### One lane of PROOF, TQPUSH, TQPOP, QPOST and ECMD -/

section
variable {s : State} {g : Grp} {f : Fibre}

theorem proofLane_ok {dst a n : Nat} (h : Rules.ProofOk s g.cell dst a n) :
    proofLane g dst a n s f = (pendAll s g.cell.id [f] (.proof dst a n), none) := by
  obtain ⟨hn, hn', hdst, haddr, hsize⟩ := h
  unfold proofLane
  rw [if_neg (by omega), if_neg (by omega)]
  simp only [haddr]
  exact if_neg (by omega)

/-- The checks of PROOF, in their order (R80, R155). -/
theorem proofLane_traps (dst a n : Nat) :
    ((n < 1 ∨ 64 < n) → proofLane g dst a n s f = (s, some { cause := .illegalAddress }))
    ∧ (1 ≤ n → n ≤ 64 → dst % 16 ≠ 0 → proofLane g dst a n s f = (s, some { cause := .misaligned, detail := 2, faddr := dst }))
    ∧ (1 ≤ n → n ≤ 64 → dst % 16 = 0 → ∀ t, checkAddr s g.cell a 4 1 false = some t → proofLane g dst a n s f = (s, some t))
    ∧ (1 ≤ n → n ≤ 64 → dst % 16 = 0 → checkAddr s g.cell a 4 1 false = none → g.cell.scratchSize < dst + 4 * n + 16 →
      proofLane g dst a n s f = (s, some { cause := .illegalAddress, detail := 2, faddr := dst })) := by
  unfold proofLane
  refine ⟨fun h => if_pos h, fun hn hn' h => ?_, fun hn hn' hd t ht => ?_, fun hn hn' hd ha hs => ?_⟩
  · rw [if_neg (by omega), if_pos h]
  · rw [if_neg (by omega), if_neg (by omega), ht]
  · rw [if_neg (by omega), if_neg (by omega), ha]
    exact if_pos hs

theorem tqpopLane_ok {d off n : Nat} (hn : 1 ≤ n) (hn' : n ≤ 16) (hoff : off % 64 = 0) (hsize : off + 64 * n ≤ g.cell.scratchSize) :
    tqpopLane d g off n s f = (pendAll s g.cell.id [f] (.tqpop off n (f.base + d)), none) := by
  unfold tqpopLane
  rw [if_neg (by omega), if_neg (by omega), if_neg (by omega)]

/-- The checks of TQPOP, in their order (R87, R155). -/
theorem tqpopLane_traps (d off n : Nat) :
    ((n < 1 ∨ 16 < n) → tqpopLane d g off n s f = (s, some { cause := .illegalAddress }))
    ∧ (1 ≤ n → n ≤ 16 → off % 64 ≠ 0 → tqpopLane d g off n s f = (s, some { cause := .misaligned, detail := 2, faddr := off }))
    ∧ (1 ≤ n → n ≤ 16 → off % 64 = 0 → g.cell.scratchSize < off + 64 * n →
      tqpopLane d g off n s f = (s, some { cause := .illegalAddress, detail := 2, faddr := off })) := by
  unfold tqpopLane
  refine ⟨fun h => if_pos h, fun hn hn' h => ?_, fun hn hn' ho hs => ?_⟩
  · rw [if_neg (by omega), if_pos h]
  · rw [if_neg (by omega), if_neg (by omega), if_pos hs]

/-- The checks of TQPUSH, in their order (R86, R155). -/
theorem tqpushLane_traps (d off a : Nat) :
    (off % 64 ≠ 0 → tqpushLane d g off a s f = (s, some { cause := .misaligned, detail := 1, faddr := off }))
    ∧ (off % 64 = 0 → g.cell.scratchSize < off + 64 →
      tqpushLane d g off a s f = (s, some { cause := .illegalAddress, detail := 1, faddr := off }))
    ∧ (off % 64 = 0 → off + 64 ≤ g.cell.scratchSize → ∀ t, checkAddr s g.cell a 1 3 false = some t →
      tqpushLane d g off a s f = (s, some t)) := by
  unfold tqpushLane
  refine ⟨fun h => if_pos h, fun ho hs => ?_, fun ho hs t ht => ?_⟩
  · rw [if_neg (by omega), if_pos hs]
  · rw [if_neg (by omega), if_neg (by omega), ht]

variable {c : Cell} (hc : s.cell? g.cell.id = some c)
include hc

theorem tqpushLane_ok {d off a : Nat} (hr : Rules.RecordAt g.cell off) (ha : checkAddr s g.cell a 1 3 false = none) :
    tqpushLane d g off a s f = (pendAll s g.cell.id [f] (.tqpush a (bytesAt c.scratch off 64) (f.base + d)), none) := by
  obtain ⟨hoff, hsize⟩ := hr
  unfold tqpushLane
  rw [if_neg (by omega), if_neg (by omega), ha, hc]
  dsimp only
  rw [cell?_id hc]

theorem postLane_ok {k : Nat → List Byte → Nat → OpKind} {chain : Bool} {d a off : Nat} (ha : a % 64 = 0) (hoff : off % 64 = 0)
    (hsize : off + 64 ≤ c.scratchSize) (hw : chain = true → window a ≠ none) :
    postLane k chain d g a off s f = (pendAll s g.cell.id [f] (k a (bytesAt c.scratch off 64) (f.base + d)), none) := by
  have hwin : ¬ (chain && (window a).isNone) = true := by
    rw [Bool.and_eq_true, Option.isNone_iff_eq_none, not_and]
    exact hw
  unfold postLane
  rw [hc]
  dsimp only
  rw [if_neg (by omega), if_neg (by omega), if_neg (by omega), if_neg hwin, cell?_id hc]

/-- The checks that QPOST and ECMD share, and the one that ECMD adds, in their order (R242, R247). -/
theorem postLane_traps (k : Nat → List Byte → Nat → OpKind) (chain : Bool) (d a off : Nat) :
    (a % 64 ≠ 0 → postLane k chain d g a off s f = (s, some { cause := .misaligned, detail := 3, faddr := a }))
    ∧ (a % 64 = 0 → off % 64 ≠ 0 → postLane k chain d g a off s f = (s, some { cause := .misaligned, detail := 1, faddr := off }))
    ∧ (a % 64 = 0 → off % 64 = 0 → c.scratchSize < off + 64 →
      postLane k chain d g a off s f = (s, some { cause := .illegalAddress, detail := 1, faddr := off }))
    ∧ (a % 64 = 0 → off % 64 = 0 → off + 64 ≤ c.scratchSize → chain = true → window a = none →
      postLane k chain d g a off s f = (s, some { cause := .illegalAddress, detail := 3, faddr := a })) := by
  unfold postLane
  rw [hc]
  dsimp only
  refine ⟨fun h => if_pos h, fun ha h => ?_, fun ha ho h => ?_, fun ha ho hs hch hw => ?_⟩
  · rw [if_neg (by omega), if_pos h]
  · rw [if_neg (by omega), if_neg (by omega), if_pos h]
  · rw [if_neg (by omega), if_neg (by omega), if_neg (by omega), if_pos (by rw [hch, hw]; rfl)]

end

/-- One lane of the words that become pending (R80, R86, R87, R155, R242, R247): each check in its order, then the operation. -/
theorem pendingLanes : Rules.PendingLanes := by
  intro s g c f d dst a n off hc hsize size posts
  obtain ⟨hproofN, hproofDst, hproofAddr, hproofSize⟩ := proofLane_traps (s := s) (g := g) (f := f) dst a n
  obtain ⟨hpushOff, hpushSize, hpushAddr⟩ := tqpushLane_traps (s := s) (g := g) (f := f) d off a
  obtain ⟨hpopN, hpopOff, hpopSize⟩ := tqpopLane_traps (s := s) (g := g) (f := f) d off n
  obtain ⟨hqAddr, hqOff, hqSize, -⟩ := postLane_traps (f := f) hc .qpost false d a off
  obtain ⟨heAddr, heOff, heSize, heWindow⟩ := postLane_traps (f := f) hc .ecmd true d a off
  rw [hsize] at hqSize heSize heWindow
  refine ⟨hproofN, hproofDst, hproofAddr, hproofSize, proofLane_ok, hpushOff, hpushSize, hpushAddr, fun ho hs => tqpushLane_ok hc ⟨ho, hs⟩,
    hpopN, hpopOff, hpopSize, tqpopLane_ok, ⟨hqAddr, hqOff, hqSize, fun ha ho hs => ⟨fun _ => ?_, fun h => absurd trivial h⟩⟩,
    heAddr, heOff, heSize, fun ha ho hs => ⟨fun hw => ?_, fun hw => heWindow ha ho hs rfl (not_not.1 hw)⟩⟩
  · exact postLane_ok hc ha ho (by rw [hsize]; exact hs) nofun
  · exact postLane_ok hc ha ho (by rw [hsize]; exact hs) fun _ => hw

end Sys2Proof.Machine

/-! SUPPORT. Proofs about the plate words: RESID and SETTLE, and the state in which a word has read its sources. -/

namespace Sys2Proof.Machine

/-! ### What a touch of homes keeps -/

section
variable {β : Type} {p : State → β} (hp : ∀ s m l h, p { s with mem := m, lines := l, hot := h } = p s)
include hp

theorem countPort_keeps (s : State) (part asid va pa : Nat) : p (countPort s part asid va pa) = p s := by
  unfold countPort
  split
  · rfl
  · split
    · rfl
    · exact hp s _ _ _
theorem writeBack_keeps (s : State) (l : Line) : p (writeBack s l) = p s := by
  unfold writeBack
  split
  · exact (hp (countPort s l.part l.asid (64 * l.line) l.pa) _ _ _).trans (countPort_keeps hp ..)
  · rfl
theorem fillLine_keeps (s : State) (asid part va : Nat) (x : Xlat) (cls : Nat) (nt atomic : Bool) :
    p (fillLine s asid part va x cls nt atomic) = p s := by
  unfold fillLine
  extract_lets r bypass ways set_ used allowed pick
  have hpick (u : State) (way : Nat) : p (pick u way) = p u := (hp (countPort u part asid va x.pa) _ _ _).trans (countPort_keeps hp ..)
  clear_value pick
  have hage : p (ageSet s set_ ways) = p s := hp s _ _ _
  split
  · exact hpick s _
  · split
    · exact hage
    · split
      · exact (hpick _ _).trans hage
      · exact (hpick _ _).trans ((hp (writeBack _ _) _ _ _).trans ((writeBack_keeps hp _ _).trans hage))
theorem touchHome_keeps (s : State) (who : Who) (cls : Option Nat) (nt : Bool) (a : Access) (va : Nat) :
    p (touchHome s who cls nt a va) = p s := by
  unfold touchHome
  split
  · extract_lets asid
    split
    · extract_lets u
      have hu : p u = p s := by
        unfold u
        split
        · exact countPort_keeps hp ..
        · rfl
      exact (hp u _ _ _).trans hu
    · split
      · split
        · rfl
        · split
          · exact fillLine_keeps hp ..
          · exact countPort_keeps hp ..
      · rfl
  · rfl
theorem touchSlots_keeps (s : State) (g : Grp) (names : List Name) (u : State) : p (touchSlots s g names u) = p u :=
  foldl_keeps (fun _ _ => foldl_keeps (fun s _ => touchHome_keeps hp s ..) _ _) _ u

end

/-! ### What passing a word and reading its sources keep -/

theorem cell?_of_grp? {s : State} {g : Grp} (h : s.grp? = some g) : s.cell? g.cell.id = some g.cell := by
  unfold State.grp? at h
  split at h
  · cases h
  · obtain ⟨c, hc, hg⟩ := Option.bind_eq_some_iff.1 h
    dsimp only at hg
    split at hg
    · cases hg
    · cases hg
      rwa [← cell?_id hc] at hc

theorem refresh_cell_map {β : Type} {q : Cell → β} {s : State} {g : Grp} (h : (s.cell? g.cell.id).map q = some (q g.cell)) : q (g.refresh s).cell = q g.cell := by
  unfold Grp.refresh
  split
  · rfl
  · rename_i c hc
    simpa [hc] using h

section
variable {β : Type} {q : Cell → β} (hq : ∀ c fs, q { c with fibres := fs } = q c)
include hq

theorem cell?_mapFibres_map (s : State) (n m : Nat) (F : Fibre → Fibre) : ((s.mapFibres n F).cell? m).map q = (s.cell? m).map q := by
  rw [State.mapFibres, cell?_setCell, Option.map_map]
  · exact congrArg (fun F => (s.cell? m).map F) (funext fun c => by dsimp only [Function.comp]; split; exacts [hq _ _, rfl])
  · exact fun _ => rfl

variable {s : State} {g : Grp} (hg : s.grp? = some g)
include hg

theorem passed_cell?_map (ll : Bool) : ((passed s g ll).cell? g.cell.id).map q = some (q g.cell) := by
  rw [passed, cell?_mapFibres_map hq, cell?_of_grp? hg]
  rfl
theorem after_cell_map (ll : Bool) : q (g.after s ll).cell = q g.cell := refresh_cell_map (passed_cell?_map hq hg ll)

theorem readTo_cell?_map (ll : Bool) (names : List Name) : ((readTo s g ll names).cell? g.cell.id).map q = some (q g.cell) := by
  rw [readTo, marked, markReads, State.cell?, touchSlots_keeps (p := State.cells) fun _ _ _ _ => rfl]
  exact (cell?_mapFibres_map hq _ _ _ _).trans ((cell?_mapFibres_map hq _ _ _ _).trans (passed_cell?_map hq hg ll))
theorem read_cell_map (ll : Bool) (names : List Name) : q (g.read s ll names).cell = q g.cell := by
  have hid : (g.after s ll).cell.id = g.cell.id := refresh_cell_id ..
  refine (refresh_cell_map ?_).trans (after_cell_map hq hg ll)
  rw [hid, after_cell_map hq hg]
  exact readTo_cell?_map hq hg ll names

end

theorem readTo_launches (s : State) (g : Grp) (ll : Bool) (names : List Name) : (readTo s g ll names).launches = s.launches := by
  rw [readTo, marked, markReads, touchSlots_keeps (p := State.launches) fun _ _ _ _ => rfl]
  rfl

theorem kindOf_eq {s t : State} {c d : Cell} (hl : t.launches = s.launches) (hd : d.launch = c.launch) : kindOf t d = kindOf s c := by
  rw [kindOf, State.launch?, hl, hd]
  rfl

section
variable {s : State} {g : Grp} (hg : s.grp? = some g)
include hg

theorem kindOf_after (ll : Bool) : kindOf (passed s g ll) (g.after s ll).cell = kindOf s g.cell :=
  kindOf_eq rfl (after_cell_map (q := Cell.launch) (fun _ _ => rfl) hg ll)
theorem kindOf_read (ll : Bool) (names : List Name) : kindOf (readTo s g ll names) (g.read s ll names).cell = kindOf s g.cell :=
  kindOf_eq (readTo_launches s g ll names) (read_cell_map (q := Cell.launch) (fun _ _ => rfl) hg ll names)

end

/-! ### RESID -/

theorem foldRho_eq (w : Word) : foldRho w = (if isNan w then 0x7F800000 else w &&& 0x7FFFFFFF, if isNan w then stNV else 0) := by
  unfold foldRho
  split <;> rfl

/-- A word that reads its sources in every active lane and then acts ends in what it makes of what they read. -/
theorem ends_of_withLanes {i : Instr} {s u : State} {g : Grp} {h : Hints} {srcs : List Field} {vals : Fibre → List DWord}
    {k : State → Grp → List (Fibre × List DWord) → Option State} (hexec : exec i s = unit s h false false fun s g => withLanes srcs s g k)
    (hw : Words s g h false srcs vals) (hk : k (readTo s g false (srcs.map (·.1.name))) (g.read s false (srcs.map (·.1.name)))
      (readVals s g false (srcs.map (·.1.name)) vals) = some u) : Ends i s g u := by
  intro hq
  rw [hexec]
  exact unit_arch hw.issues nofun nofun ((withLanes_eq hw.reads).trans hk) hq

/-- RESID (R70, R353), by whether the cell is a plate's. -/
theorem residWord : Rules.ResidWord := by
  intro s g a b x y hw r fold big
  have hid : (g.read s false [a, b]).cell.id = g.cell.id := read_cell_map (fun _ _ => rfl) hw.issues.grp false [a, b]
  have hkind := kindOf_read hw.issues.grp false [a, b]
  refine ⟨fun hk => ends_of_withLanes rfl hw (congrArg some ?_), fun hk => ends_of_withLanes rfl hw (congrArg some ?_)⟩
  · exact if_pos (by rw [← hkind] at hk; exact hk)
  · refine (if_neg (not_not.2 (hkind.trans hk))).trans ?_
    simp only [foldRho_eq]
    rw [show (g.read s false ([plainSrc a .b32, plainSrc b .b32].map (·.1.name))).cell.id = g.cell.id from hid]
    rfl

/-! ### SETTLE -/

/-- The like of `parkDue_quit_none` at every park point (R265). -/
theorem parkDue_none {s : State} {r : FRef} (p : ParkAt) (ha : ∀ a ∈ s.accs, a.of r = true → ∀ c, a.stage ≠ .refused c)
    (ho : ∀ o ∈ s.ops, o.fibres.any (·.1 == r) = true → o.refused = none) : parkDue s r p = none := by
  refine earliest_none (List.filterMap_eq_nil_iff.2 fun a hm => ?_) (List.filterMap_eq_nil_iff.2 fun o hm => ?_)
  · split
    · rename_i c hc
      refine if_neg fun h => ?_
      simp only [Bool.and_eq_true] at h
      exact ha a hm h.1.1 c hc
    · rfl
  · split
    · rename_i t x ht hx
      rw [ho o hm (List.any_eq_true.2 ⟨x, List.mem_of_find?_eq_some hx, by simpa using List.find?_some hx⟩)] at ht
      cases ht
    · rfl

/-- A fibre none of whose requests is refused parks nowhere (R265). -/
theorem parkStuck_eq_self {s : State} {r : FRef} (ha : ∀ a ∈ s.accs, a.of r = true → ∀ c, a.stage ≠ .refused c)
    (ho : ∀ o ∈ s.ops, o.fibres.any (·.1 == r) = true → o.refused = none) : parkStuck s r = s := by
  unfold parkStuck
  split
  · rfl
  · extract_lets due
    have hdue : due = none := by
      unfold due
      simp only [parkDue_none _ ha ho]
      split <;> simp
    rw [hdue]

theorem foldl_eq_self_of_fixed {α β : Type} {op : β → α → β} {x : β} : ∀ {l : List α}, (∀ d ∈ l, op x d = x) → l.foldl op x = x
  | [], _ => rfl
  | d :: r, h => by
    rw [List.foldl_cons, h d List.mem_cons_self]
    exact foldl_eq_self_of_fixed fun e he => h e (List.mem_cons_of_mem _ he)

/-- The end of pins changes of an access neither whose it is nor how far it has come. -/
theorem mem_endPins_accs {s : State} {p : Pin → Bool} {a : Acc} (h : a ∈ (endPins s p).accs) :
    ∃ b ∈ s.accs, b.stage = a.stage ∧ ∀ r, b.of r = a.of r := by
  obtain ⟨b, hb, rfl⟩ := List.mem_map.1 h
  refine ⟨b, hb, ?_⟩
  split <;> exact ⟨rfl, fun _ => rfl⟩

/-- Whether SETTLE is a QUIT is the same past the word. -/
theorem settleQuits_after {s : State} {g : Grp} (hg : s.grp? = some g) :
    (decide (kindOf (passed s g false) (g.after s false).cell = .grid) || (g.after s false).cell.settled) = true
      ↔ kindOf s g.cell = .grid ∨ g.cell.settled = true := by
  rw [kindOf_after hg, after_cell_map (q := Cell.settled) (fun _ _ => rfl) hg, Bool.or_eq_true, decide_eq_true_eq]

section
variable {s : State} {g : Grp} (hi : Issues s g {}) (hout : Rules.AllOutside s g)
  (ha : ∀ m ∈ (g.after s false).members, ∀ a ∈ s.accs, a.of ⟨g.cell.id, m.idx⟩ = true → ∀ c, a.stage ≠ .refused c)
  (ho : ∀ m ∈ (g.after s false).members, ∀ o ∈ s.ops, o.fibres.any (·.1 == ⟨g.cell.id, m.idx⟩) = true → o.refused = none)
include hi hout ha ho

/-- SETTLE in an update (R71): the cell's pins end, and the fibres present wait for the commit. -/
theorem settleWord_waits (hne : (g.after s false).members ≠ []) (hk : kindOf s g.cell ≠ .grid) (hs : g.cell.settled = false) :
    Ends .settle s g (Rules.waiting (endPins (passed s g false) (·.cell == g.cell.id)) (g.after s false) (g.after s false).members .settle) := by
  have hid : (g.after s false).cell.id = g.cell.id := refresh_cell_id ..
  have hexec : exec .settle s = execSettle s := rfl
  intro hq
  rw [hexec]
  refine unit_arch (k := {}) (ll := false) (priv := false) hi nofun nofun ?_ hq
  dsimp only
  rw [barTx_none hout]
  dsimp only
  rw [if_neg ((settleQuits_after hi.grp).not.2 (by simp [hk, hs])), if_neg (by simpa using hne), hid]
  refine congrArg some (foldl_eq_self_of_fixed fun m hm => parkStuck_eq_self (fun a hma hof c hc => ?_) fun o hmo => ho m hm o hmo)
  obtain ⟨b, hb, hst, hbo⟩ := mem_endPins_accs hma
  exact ha m hm b hb ((hbo _).trans hof) c (hst.trans hc)

/-- SETTLE in a grid's cell, and after the commit (R71, R358): each fibre present quits. -/
theorem settleWord_quits (hk : kindOf s g.cell = .grid ∨ g.cell.settled = true) :
    exec .settle s = .next (closeUnit (sameIssue s.next (eachLane (passed s g false) g.cell.id ((g.after s false).members.map fun f => (f, []))
      fun s l _ => s.setFibre ⟨g.cell.id, l.idx⟩ fun f => Rules.quitting s g f)) (g.after s false)) := by
  have hid : (g.after s false).cell.id = g.cell.id := refresh_cell_id ..
  have hfirst : (g.after s false).first = g.first := refresh_first ..
  have hexec : exec .settle s = execSettle s := rfl
  rw [hexec]
  refine unit_eq (k := {}) (ll := false) (priv := false) hi nofun nofun ?_
  dsimp only
  rw [barTx_none hout]
  dsimp only
  rw [if_pos ((settleQuits_after hi.grp).2 hk)]
  refine congrArg some (foldLanes_eq ?_)
  rw [hid]
  refine laneRun_eq_eachLane (op := fun t f _ => quitLane (g.after s false) t f)
    (P := fun t => t.accs = s.accs ∧ t.ops = s.ops) ⟨rfl, rfl⟩ fun t x f ⟨hta, hto⟩ hx hf => ?_
  obtain ⟨m, hm, rfl⟩ := List.mem_map.1 hx
  refine ⟨(quitLane_eq ?_ ?_).trans ?_, hta, hto⟩
  · rw [hid, hf, hta]; exact ha m hm
  · rw [hid, hf, hto]; exact ho m hm
  · have hq : Rules.quitting t (g.after s false) = Rules.quitting t g := by
      funext x; simp only [Rules.quitting, hfirst]
    rw [hid, hq]

end

/-- SETTLE (R71, R358): the fibres present wait for the commit, or quit. -/
theorem settleWord : Rules.SettleWord := fun _ _ hi hout hne ha ho =>
  ⟨settleWord_waits hi hout ha ho hne, settleWord_quits hi hout ha ho⟩

end Sys2Proof.Machine

/-! SUPPORT. Proofs about the plate words: where PlateAndPostWords fails. The statement asks nothing of the indices of a cell's fibres. Where
two fibres of a cell have one index, the record that goes by it is the first one's before a word and the reading lane's once its sources
are read; a lane that had not to wait for its scratch by the first record may have to by the second. -/

namespace Sys2Proof.Machine

/-! ### A TQPUSH that waits after it has read its sources -/

/-- One of two fibres of one index, ready at address 0. -/
def twinFibre (active : Bool) (seen : List Nat) : Fibre :=
  { idx := 0, pc := 0, hatch := 0, lane := 0, place := { begun := true, active := active }, seen := seen }
/-- A cell of 64 bytes of scratch with two fibres of index 0: an inactive one, and an active one whose last point of cell scope put
access 1 before its later reads (R193). -/
def twinCell : Cell := { id := 1, scratchSize := 64, fibres := [twinFibre false [], twinFibre true [1]] }
/-- Access 1, of another cell, on its way to these 64 bytes. -/
def farLoad : Acc :=
  { id := 1, owner := ⟨2, 0⟩, part := 0, fn := 0, asid := 0, cluster := 0, quad := 0, sup := false, kind := .load, va := scratchBase
    len := 64, data := [], ord := .plain, stage := .sent }
/-- The twins about to issue a word at address 0, every register of theirs 0. -/
def twinState : State := { cells := [twinCell], accs := [farLoad], next := 2, cur := { cell := 1, opened := true } }
/-- Their group: both stand at the word. -/
def twinGroup : Grp := ⟨twinCell, 0, twinCell.fibres, twinCell.fibres, 0, 0, [], false⟩

theorem twinState_words : Words twinState twinGroup {} true [plainSrc (.w 0) .b32, plainSrc (.w 0) .b64] fun _ => [0, 0] where
  issues := ⟨by decide, by decide, by decide⟩
  room _ := ⟨by decide, by decide⟩
  reads := by unfold Reads; decide

/-- The active lane of the twins reads their scratch at once, by the record that goes by their index. -/
theorem twinState_reads : ∀ l ∈ (twinGroup.after twinState true).active, scratchWaits twinState twinGroup.cell l (loWord 0).toNat = false := by
  decide
theorem twinState_checks : ∀ l ∈ (twinGroup.after twinState true).active, Rules.RecordAt twinGroup.cell (loWord 0).toNat
    ∧ checkAddr twinState twinGroup.cell (0 : DWord).toNat 1 3 false = none := by
  unfold Rules.RecordAt
  decide
/-- Once its sources are read, the active twin's record goes by their index, and the word waits for access 1. -/
theorem twinState_stalls : exec (.tqpush (.w 0) (.w 0) (.w 0)) twinState = .next (stallUnit twinState)  := rfl

/-- The clause of TQPUSH fails: every premise holds of the twins, and no operation becomes pending. -/
theorem not_plateAndPostWords : ¬ Rules.PlateAndPostWords := by
  intro h
  have hno : NoTx twinState twinGroup true := by unfold NoTx; decide
  obtain ⟨-, hpush, -⟩ := h twinState twinGroup (.w 0) (.w 0) (.w 0) (.w 0) (fun _ => 0) (fun _ => 0) (fun _ => 0) hno
  have hends := (hpush twinState_words twinState_reads).2 twinState_checks
  have hops := congrArg (fun t : State => t.ops.length) (Host.Outcome.next.inj (twinState_stalls.symm.trans hends))
  revert hops
  decide

/-- What else O28 says holds, so that it stands or falls with PlateAndPostWords. -/
theorem plateWords_iff : Obligations.PlateWords ↔ Rules.PlateAndPostWords :=
  ⟨fun ⟨_, _, h, _⟩ => h, fun h => ⟨residWord, settleWord, h, pendingLanes⟩⟩

end Sys2Proof.Machine

namespace Sys2Proof.Proofs
open Sys2Proof.Machine

/-- Refutes O28: in a cell that holds two fibres of one index (twinState) TQPUSH passes every check that the statement makes before its
issue, and then waits for a read of its scratch that the other record orders before it; no operation becomes pending. RESID, SETTLE and the
checks of one lane hold as stated (plateWords_iff). -/
theorem not_plateWords : ¬ Obligations.PlateWords := plateWords_iff.not.2 not_plateAndPostWords

end Sys2Proof.Proofs

/-! SUPPORT. Proofs about the words of the instruction set: the code of each field both ways, the fields of each format, and the
words of each group both ways. -/

namespace Sys2Proof

/-! ### The codes of the fields, both ways -/

/-- A number below k as a Fin. -/
theorem ofNat_eq_iff {k n : Nat} [NeZero k] (h : n < k) (f : Fin k) : Fin.ofNat k n = f ↔ n = f.val := by
  rw [Fin.ext_iff, Fin.val_ofNat, Nat.mod_eq_of_lt h]

section
variable {n : Nat}

@[simp] theorem Wd.ofCode_eq_some {f : Wd} : Wd.ofCode n = some f ↔ n = f.code := by
  unfold Wd.ofCode; split <;> cases f <;> simp_all [Wd.code]
@[simp] theorem Wd.ofMcode_eq_some {f : Wd} : Wd.ofMcode n = some f ↔ n = f.mcode := by
  unfold Wd.ofMcode; split <;> cases f <;> simp_all [Wd.mcode]
@[simp] theorem AddF.ofCode_eq_some {f : AddF} : AddF.ofCode n = some f ↔ n = f.code := by
  unfold AddF.ofCode; split <;> cases f <;> simp_all [AddF.code]
@[simp] theorem Sgn.ofCode_eq_some {f : Sgn} : Sgn.ofCode n = some f ↔ n = f.code := by
  unfold Sgn.ofCode; split <;> cases f <;> simp_all [Sgn.code]
@[simp] theorem MadF.ofCode_eq_some {f : MadF} : MadF.ofCode n = some f ↔ n = f.code := by
  unfold MadF.ofCode; split <;> cases f <;> simp_all [MadF.code]
@[simp] theorem MinF.ofCode_eq_some {f : MinF} : MinF.ofCode n = some f ↔ n = f.code := by
  unfold MinF.ofCode; split <;> cases f <;> simp_all [MinF.code]
@[simp] theorem ICond.ofCode_eq_some {c : ICond} : ICond.ofCode n = some c ↔ n = c.code := by
  unfold ICond.ofCode; split <;> cases c <;> simp_all [ICond.code]
@[simp] theorem FCond.ofCode_eq_some {c : FCond} : FCond.ofCode n = some c ↔ n = c.code := by
  unfold FCond.ofCode; split <;> cases c <;> simp_all [FCond.code]
@[simp] theorem FF.ofCode_eq_some {f : FF} : FF.ofCode n = some f ↔ n = f.code := by
  unfold FF.ofCode; split <;> cases f <;> simp_all [FF.code]
@[simp] theorem MoviF.ofCode_eq_some {f : MoviF} : MoviF.ofCode n = some f ↔ n = f.code := by
  unfold MoviF.ofCode; split <;> cases f <;> simp_all [MoviF.code]
@[simp] theorem Cvt.ofCode_eq_some {c : Cvt} : Cvt.ofCode n = some c ↔ n = c.code := by
  unfold Cvt.ofCode; split <;> cases c <;> simp_all [Cvt.code]
@[simp] theorem RndMode.ofCode_eq_some {r : RndMode} : RndMode.ofCode n = some r ↔ n = r.code := by
  unfold RndMode.ofCode; split <;> cases r <;> simp_all [RndMode.code]
@[simp] theorem Width.ofCode_eq_some {w : Width} : Width.ofCode n = some w ↔ n = w.code := by
  unfold Width.ofCode; split <;> cases w <;> simp_all [Width.code]
@[simp] theorem Scope.ofCode_eq_some {o : Scope} : Scope.ofCode n = some o ↔ n = o.code := by
  unfold Scope.ofCode; split <;> cases o <;> simp_all [Scope.code]
@[simp] theorem AtomOp.ofCode_eq_some {o : AtomOp} : AtomOp.ofCode n = some o ↔ n = o.code := by
  unfold AtomOp.ofCode; split <;> cases o <;> simp_all [AtomOp.code]

end

@[simp] theorem Cond.ofCode_eq_some {n : Nat} {c : Cond} : Cond.ofCode n = some c ↔ n = c.code ∧ c.wf = true := by
  unfold Cond.ofCode
  split_ifs with h0 h1 h2 h3
  · cases c <;> simp [Cond.code, Cond.wf] <;> omega
  · cases c <;> simp only [Cond.code, Cond.wf, Option.some.injEq, Cond.ifTrue.injEq, ofNat_eq_iff h1] <;> simp <;> omega
  · cases c <;> simp [Cond.code, Cond.wf] <;> omega
  · have h : n - 8 < 8 := by omega
    cases c <;> simp only [Cond.code, Cond.wf, Option.some.injEq, Cond.ifFalse.injEq, ofNat_eq_iff h] <;> simp <;> omega
  · cases c <;> simp [Cond.code, Cond.wf] <;> omega

@[simp] theorem flagOfCode_eq_some {n : Nat} {c : Option (Fin 12)} : flagOfCode n = some c ↔ n = flagCode c := by
  unfold flagOfCode
  cases c with
  | none => simp only [flagCode]; split_ifs <;> simp <;> omega
  | some f =>
    simp only [flagCode]
    split_ifs with h
    · simp only [Option.some.injEq, ofNat_eq_iff h]
    · simp; omega
    · simp; omega

@[simp] theorem Name.ofCode_code (n : Name) : Name.ofCode n.code = n := by
  unfold Name.ofCode
  cases n with
  | w n => simp [Name.code]
  | k n =>
    rw [if_neg (by simp [Name.code]), if_pos (by simp [Name.code]; omega)]
    simp [Name.code]
  | q n =>
    rw [if_neg (by simp [Name.code]; omega), if_neg (by simp [Name.code]), if_pos (by simp [Name.code]; omega)]
    simp [Name.code]
  | slot d m =>
    have hd : (52 + 4 * d.val + m.val - 52) / 4 = d.val := by omega
    have hm : (52 + 4 * d.val + m.val - 52) % 4 = m.val := by omega
    simp only [Name.code, hd, hm]
    rw [if_neg (by omega), if_neg (by omega), if_neg (by omega)]
    simp
theorem Name.code_ofCode {c : Nat} (h : c < 64) : (Name.ofCode c).code = c := by
  unfold Name.ofCode
  split_ifs <;> simp [Name.code] <;> omega

@[simp] theorem Perm.ofCode_code (p : Perm) : Perm.ofCode p.code = p := by cases p <;> rfl
theorem Perm.code_ofCode {c : Nat} (h : c < 8) : (Perm.ofCode c).code = c := by
  interval_cases c <;> rfl
@[simp] theorem Src.ofCode_code (x : Src) : Src.ofCode x.code = x := by
  have h := x.name.code_lt
  have hp : (64 * x.perm.code + x.name.code) / 64 = x.perm.code := by omega
  have hn : (64 * x.perm.code + x.name.code) % 64 = x.name.code := by omega
  simp [Src.ofCode, Src.code, hp, hn]
theorem Src.code_ofCode {c : Nat} (h : c < 512) : (Src.ofCode c).code = c := by
  simp only [Src.ofCode, Src.code]
  rw [Perm.code_ofCode (by omega), Name.code_ofCode (by omega)]
  omega

@[simp] theorem PatKind.ofCode_code (k : PatKind) : PatKind.ofCode k.code = k := by cases k <;> rfl
theorem PatKind.code_ofCode {c : Nat} (h : c < 4) : (PatKind.ofCode c).code = c := by
  interval_cases c <;> rfl
@[simp] theorem patOfCode_patCode (p : Option Pat) : patOfCode (patCode p) = some p := by
  cases p with
  | none => rfl
  | some p =>
    have h := p.kind.code_lt
    have hk : (128 + 32 * p.kind.code + p.n.val) / 32 % 4 = p.kind.code := by omega
    have hn : (128 + 32 * p.kind.code + p.n.val) % 32 = p.n.val := by omega
    simp only [patOfCode, patCode, hk, hn]
    rw [if_neg (by omega), if_neg (by omega)]
    simp
theorem patCode_of_patOfCode {c : Nat} {p : Option Pat} (hc : c < 256) (h : patOfCode c = some p) : patCode p = c := by
  unfold patOfCode at h
  split_ifs at h with h0 h1
  · cases h; exact h0.symm
  · cases h
    simp only [patCode, PatKind.code_ofCode (Nat.mod_lt _ (by decide : 0 < 4)), Fin.val_ofNat]
    omega

/-! ### The fields of a format, both ways -/

section
variable {m a b c d f imm sub w : Nat}

/-- A V3 word is read by its fields (R108); so are a VI, an M, an X, a C, an H and a K word below. -/
theorem decodeRaw_encV3 {x y : Nat} (hm : 0 < m ∧ m ≠ 8 ∧ m < 0x28) (hd : d < 64) (hx : x < 512) (hy : y < 512) (hf : f < 4) :
    decodeRaw (encV3 m d x y f) = decodeAlu m d (Src.ofCode x) (Src.ofCode y) x y f (fld (encV3 m d x y f) 3 8) (fld (encV3 m d x y f) 0 3) := by
  obtain ⟨h1, h2, h3⟩ := hm
  have em : fld (encV3 m d x y f) 26 6 = m := by simp only [fld, encV3]; omega
  have ed : fld (encV3 m d x y f) 20 6 = d := by simp only [fld, encV3]; omega
  have ex : fld (encV3 m d x y f) 11 9 = x := by simp only [fld, encV3]; omega
  have ey : fld (encV3 m d x y f) 2 9 = y := by simp only [fld, encV3]; omega
  have ef : fld (encV3 m d x y f) 0 2 = f := by simp only [fld, encV3]; omega
  simp [decodeRaw, em, ed, ex, ey, ef, h1.ne', h2, h3]
theorem decodeRaw_encVI {x : Nat} (hm : 0 < m ∧ m ≠ 8 ∧ m < 0x28) (hd : d < 64) (hx : x < 512) (hi : imm < 256) (hf : f < 8) :
    decodeRaw (encVI m d x imm f) = decodeAlu m d (Src.ofCode x) (Src.ofCode (fld (encVI m d x imm f) 2 9)) x (fld (encVI m d x imm f) 2 9)
      (fld (encVI m d x imm f) 0 2) imm f := by
  obtain ⟨h1, h2, h3⟩ := hm
  have em : fld (encVI m d x imm f) 26 6 = m := by simp only [fld, encVI]; omega
  have ed : fld (encVI m d x imm f) 20 6 = d := by simp only [fld, encVI]; omega
  have ex : fld (encVI m d x imm f) 11 9 = x := by simp only [fld, encVI]; omega
  have ei : fld (encVI m d x imm f) 3 8 = imm := by simp only [fld, encVI]; omega
  have ef : fld (encVI m d x imm f) 0 3 = f := by simp only [fld, encVI]; omega
  simp [decodeRaw, em, ed, ex, ei, ef, h1.ne', h2, h3]
theorem decodeRaw_encM {o : Nat} (hm : 0x28 ≤ m ∧ m < 0x30) (hd : d < 64) (hb : b < 64) (hi : imm < 256) (hw : w < 8) (ho : o < 8) :
    decodeRaw (encM m d b imm w o) = decodeMem m d b (fld (encM m d b imm w o) 8 6) (fld (encM m d b imm w o) 0 8) imm w o := by
  obtain ⟨h1, h2⟩ := hm
  have em : fld (encM m d b imm w o) 26 6 = m := by simp only [fld, encM]; omega
  have ed : fld (encM m d b imm w o) 20 6 = d := by simp only [fld, encM]; omega
  have eb : fld (encM m d b imm w o) 14 6 = b := by simp only [fld, encM]; omega
  have ei : fld (encM m d b imm w o) 6 8 = imm := by simp only [fld, encM]; omega
  have ew : fld (encM m d b imm w o) 3 3 = w := by simp only [fld, encM]; omega
  have eo : fld (encM m d b imm w o) 0 3 = o := by simp only [fld, encM]; omega
  simp [decodeRaw, em, ed, eb, ei, ew, eo, h2, show m ≠ 0 by omega, show m ≠ 8 by omega, show ¬ m < 0x28 by omega]

section
variable (ha : a < 64) (hb : b < 64) (hc : c < 64) (hs : sub < 256)
include ha hb hc hs

/-- The fields of an X word. -/
theorem fld_encX (hm : m < 64) : fld (encX m a b c sub) 26 6 = m ∧ fld (encX m a b c sub) 20 6 = a ∧ fld (encX m a b c sub) 14 6 = b
    ∧ fld (encX m a b c sub) 8 6 = c ∧ fld (encX m a b c sub) 0 8 = sub := by
  simp only [fld, encX]; omega

theorem decodeRaw_encX_sys (hm : m = 8 ∨ 0x30 ≤ m ∧ m < 0x35) : decodeRaw (encX m a b c sub) = decodeSys m a b c sub := by
  obtain ⟨em, ea, eb, ec, es⟩ := fld_encX ha hb hc hs (m := m) (by omega)
  rcases hm with rfl | ⟨h1, h2⟩
  · simp [decodeRaw, em, ea, eb, ec, es]
  · simp [decodeRaw, em, ea, eb, ec, es, h2, show m ≠ 0 by omega, show m ≠ 8 by omega, show ¬ m < 0x28 by omega, show ¬ m < 0x30 by omega]
theorem decodeRaw_encX_group (hm : 0x35 ≤ m ∧ m < 0x3B ∨ m = 0x3D) : decodeRaw (encX m a b c sub) = decodeGroup m a b c sub := by
  obtain ⟨em, ea, eb, ec, es⟩ := fld_encX ha hb hc hs (m := m) (by omega)
  rcases hm with ⟨h1, h2⟩ | rfl
  · simp [decodeRaw, em, ea, eb, ec, es, h2, show m ≠ 0 by omega, show m ≠ 8 by omega, show ¬ m < 0x28 by omega, show ¬ m < 0x30 by omega,
      show ¬ m < 0x35 by omega]
  · simp [decodeRaw, em, ea, eb, ec, es]
theorem decodeRaw_encX_mem (hm : 0x28 ≤ m ∧ m < 0x30) : decodeRaw (encX m a b c sub) =
    decodeMem m a b c sub (fld (encX m a b c sub) 6 8) (fld (encX m a b c sub) 3 3) (fld (encX m a b c sub) 0 3) := by
  obtain ⟨em, ea, eb, ec, es⟩ := fld_encX ha hb hc hs (m := m) (by omega)
  simp [decodeRaw, em, ea, eb, ec, es, hm, show m ≠ 0 by omega, show m ≠ 8 by omega, show ¬ m < 0x28 by omega]
end

theorem decodeRaw_encC {o : Nat} (hm : m = 0x3B ∨ m = 0x3C) (hc : c < 16) (ho : o < 2 ^ 22) :
    decodeRaw (encC m c o) = if m = 0x3B then (Cond.ofCode c).map fun c => .bra c (BitVec.ofNat 22 o)
      else (Cond.ofCode c).map fun c => .call c (BitVec.ofNat 22 o) := by
  have em : fld (encC m c o) 26 6 = m := by simp only [fld, encC]; omega
  have ec : fld (encC m c o) 22 4 = c := by simp only [fld, encC]; omega
  have eo : fld (encC m c o) 0 22 = o := by simp only [fld, encC]; omega
  rcases hm with rfl | rfl <;> simp [decodeRaw, em, ec, eo]
theorem decodeRaw_encH {k p : Nat} (hk : k < 16) (hp : p < 2 ^ 22) : decodeRaw (encH k p) = decodeHint k p := by
  have em : fld (encH k p) 26 6 = 0x3F := by simp only [fld, encH]; omega
  have ek : fld (encH k p) 22 4 = k := by simp only [fld, encH]; omega
  have ep : fld (encH k p) 0 22 = p := by simp only [fld, encH]; omega
  simp [decodeRaw, em, ek, ep]
theorem decodeRaw_encK {x y g : Nat} (hw : w < 2 ^ 12) (hx : x < 16) (hy : y < 16) (hg : g < 16) :
    decodeRaw (encK w x y g) = (flagOfCode x).bind fun fa => (flagOfCode y).bind fun fb => (Cond.ofCode g).map fun g =>
      .clause (BitVec.ofNat 12 w) fa fb g := by
  have em : fld (encK w x y g) 26 6 = 0x3E := by simp only [fld, encK]; omega
  have ew : fld (encK w x y g) 14 12 = w := by simp only [fld, encK]; omega
  have ex : fld (encK w x y g) 10 4 = x := by simp only [fld, encK]; omega
  have ey : fld (encK w x y g) 6 4 = y := by simp only [fld, encK]; omega
  have eg : fld (encK w x y g) 2 4 = g := by simp only [fld, encK]; omega
  have e0 : encK w x y g % 4 = 0 := by simp only [encK]; omega
  simp [decodeRaw, decodeClause, em, ew, ex, ey, eg, e0]

end

/-! ### From the instruction to its word and back -/

/-- The fields of sub in ATOM, RED and FENCE: the operation, one bit, the scope (R129). -/
theorem atomSub_fields (x y : Nat) (b : Bool) (hy : y < 8) :
    (16 * x + (if b then 8 else 0) + y) / 16 = x ∧ (16 * x + (if b then 8 else 0) + y) % 8 = y
      ∧ ((16 * x + (if b then 8 else 0) + y) / 8 % 2 == 1) = b := by
  cases b <;> simp <;> omega

/-- The fields of HINT.MOD's payload (R122). -/
theorem modPayload_fields (x y : Nat) (b : Bool) (hy : y < 16) :
    (x * 2 ^ 19 + y * 2 ^ 15 + if b then 2 ^ 14 else 0) % 2 ^ 14 = 0 ∧ (x * 2 ^ 19 + y * 2 ^ 15 + if b then 2 ^ 14 else 0) / 2 ^ 19 = x
      ∧ (x * 2 ^ 19 + y * 2 ^ 15 + if b then 2 ^ 14 else 0) / 2 ^ 15 % 16 = y
      ∧ ((x * 2 ^ 19 + y * 2 ^ 15 + if b then 2 ^ 14 else 0) / 2 ^ 14 % 2 == 1) = b := by
  cases b <;> simp only [Bool.false_eq_true, if_true, if_false, beq_iff_eq, beq_eq_false_iff_ne] <;> omega

/-- The code of a well-formed instruction, an event having none, is read back as it. One case for each list of fields. -/
theorem decodeRaw_of_code {i : Instr} {n : Nat} (hw : i.wf = true) (hc : i.code = some n) : decodeRaw n = some i := by
  cases i <;> cases hc
  case nop | eret | tend | quit | yield | regroup | bar | cbar | reconv | settle | ret => rfl
  -- V3 and VI words
  case iadd f d a b | isub f d a b | imul f d a b | imulh f d a b | imad f d a b | imin f d a b | imax f d a b | and f d a b | or f d a b
      | xor f d a b | andn f d a b | shl f d a b | shr f d a b | sar f d a b | idot4 f d a b | fadd f d a b | fsub f d a b | fmul f d a b
      | ffma f d a b | fmin f d a b | fmax f d a b =>
    have hf := f.code_lt
    rw [decodeRaw_encV3 (by decide) d.code_lt a.code_lt b.code_lt (by omega)]
    simp [decodeAlu]
  case bfi d a b | fdot2 d a b | sample d a b | topk d a b =>
    rw [decodeRaw_encV3 (by decide) d.code_lt a.code_lt b.code_lt (by decide)]
    simp [decodeAlu]
  case sel p d a b | lea p d a b =>
    rw [decodeRaw_encV3 (by decide) d.code_lt a.code_lt b.code_lt p.isLt]
    simp [decodeAlu]
  case bfx f d a b =>
    rw [decodeRaw_encV3 (by decide) d.code_lt a.code_lt b.code_lt (by omega)]
    cases f <;> simp [decodeAlu, Sgn.code]
  case popc f d a | clz f d a | iabs f d a =>
    have hf := f.code_lt
    rw [decodeRaw_encV3 (by decide) d.code_lt a.code_lt (by omega) (by decide)]
    cases f <;> simp [decodeAlu, Wd.code]
  case mov f d a =>
    have hf := f.code_lt
    rw [decodeRaw_encV3 (by decide) d.code_lt a.code_lt (by decide) (by omega)]
    cases f <;> simp [decodeAlu, Wd.code]
  case brev d a | movKr d a | frcp d a | frsq d a | fsqrt d a | fexp2 d a | flog2 d a =>
    rw [decodeRaw_encV3 (by decide) d.code_lt a.code_lt (by decide) (by decide)]
    simp [decodeAlu]
  case movKw a b =>
    rw [decodeRaw_encV3 (by decide) (by decide) a.code_lt b.code_lt (by decide)]
    simp [decodeAlu]
  case icmp f c p a b =>
    have hf := f.code_lt
    have hc := c.code_lt
    rw [decodeRaw_encV3 (by decide) (by omega) a.code_lt b.code_lt (by omega)]
    simp [decodeAlu, Option.bind_eq_some_iff, show (8 * p.val + c.code) % 8 = c.code by omega, show (8 * p.val + c.code) / 8 = p.val by omega]
  case fcmp c p a b =>
    have hc := c.code_lt
    rw [decodeRaw_encV3 (by decide) (by omega) a.code_lt b.code_lt (by decide)]
    simp [decodeAlu, show (8 * p.val + c.code) % 8 = c.code by omega, show (8 * p.val + c.code) / 8 = p.val by omega]
  case frnd r d a =>
    rw [decodeRaw_encV3 (by decide) d.code_lt a.code_lt (by have := r.code_lt; omega) (by decide)]
    cases r <;> simp [decodeAlu, RndDir.code]
  case fcvt c sr d a =>
    rw [decodeRaw_encV3 (by decide) d.code_lt a.code_lt (by have := c.code_lt; omega) (by cases sr <;> decide)]
    cases sr <;> simp [decodeAlu]
  case draw o d =>
    rw [decodeRaw_encV3 (by decide) d.code_lt (by decide) (by decide) o.isLt]
    simp [decodeAlu]
  case movi f d imm =>
    rw [decodeRaw_encVI (by decide) d.code_lt (by decide) imm.isLt (by have := f.code_lt; omega)]
    simp [decodeAlu]
  case qcvt n d a s sc | qdeq n d a s sc =>
    rw [decodeRaw_encVI (by decide) d.code_lt a.code_lt (by omega) (by omega)]
    simp [decodeAlu, show (32 * s.val + sc.val) / 32 = s.val by omega, show (32 * s.val + sc.val) % 32 = sc.val by omega]
  -- memory words
  case ld w o d b i | st w o d b i =>
    rw [decodeRaw_encM (by decide) d.code_lt b.code_lt i.isLt w.code_lt o.code_lt]
    simp [decodeMem, Option.bind_eq_some_iff]
  case ldx w o d b i | stc w o d b i =>
    rw [decodeRaw_encM (by decide) d.code_lt b.code_lt i.isLt (by have := w.mcode_lt; omega) o.code_lt]
    simp [decodeMem, Option.bind_eq_some_iff]
  case atom op cmb o d b v =>
    have h1 := op.code_lt
    have h2 := o.code_lt
    have h3 := bit_le cmb 8
    rw [decodeRaw_encX_mem d.code_lt b.code_lt v.code_lt (by omega) (by decide)]
    obtain ⟨e1, e2, e3⟩ := atomSub_fields op.code o.code cmb h2
    simp [decodeMem, Option.bind_eq_some_iff, e1, e2, e3]
  case red op cmb o b v =>
    have h1 := op.code_lt
    have h2 := o.code_lt
    have h3 := bit_le cmb 8
    rw [decodeRaw_encX_mem (by decide) b.code_lt v.code_lt (by omega) (by decide)]
    obtain ⟨e1, e2, e3⟩ := atomSub_fields op.code o.code cmb h2
    simp [decodeMem, Option.bind_eq_some_iff, e1, e2, e3]
  case cas w o d b v =>
    have h1 := w.code_lt
    have h2 := o.code_lt
    rw [decodeRaw_encX_mem d.code_lt b.code_lt v.code_lt (by omega) (by decide)]
    simp [decodeMem, Option.bind_eq_some_iff, show (16 * w.code + o.code) / 16 = w.code by omega, show (16 * w.code + o.code) % 8 = o.code by omega,
      show (16 * w.code + o.code) / 8 % 2 = 0 by omega]
  case fence e m o =>
    have h2 := o.code_lt
    have h3 := bit_le e 16
    have h4 := bit_le m 8
    rw [decodeRaw_encX_mem (by decide) (by decide) (by decide) (by omega) (by decide)]
    cases e <;> cases m <;> simp [decodeMem] <;> omega
  -- X words
  case trap n | bkpt n =>
    rw [decodeRaw_encX_sys (by decide) (by decide) n.isLt (by decide) (by decide)]
    simp [decodeSys]
  case mfs d n | mts d n =>
    rw [decodeRaw_encX_sys d.code_lt (by omega) (by omega) (by decide) (by decide)]
    simp [decodeSys, Nat.div_add_mod]
  case clk d | spill d | fill d | tbegin d | tabort d =>
    rw [decodeRaw_encX_sys d.code_lt (by decide) (by decide) (by decide) (by decide)]
    simp [decodeSys]
  case fenter d c p =>
    rw [decodeRaw_encX_sys d.code_lt c.code_lt (by omega) (by decide) (by decide)]
    simp [decodeSys]
  case fleave n =>
    rw [decodeRaw_encX_sys (by decide) (by decide) (by omega) (by decide) (by decide)]
    simp [decodeSys]
  case fld d k i s | fst d k i s =>
    have h1 := idxBit_lt i
    have h2 := idxCode_lt i
    rw [decodeRaw_encX_sys d.code_lt (by omega) (by omega) s.isLt (by decide)]
    cases i with
    | none => simp [decodeSys, idxBit, idxCode, show k.val / 8 ≠ 1 by omega, show k.val < 16 by omega, show k.val % 8 = k.val by omega]
    | some i => simp [decodeSys, idxBit, idxCode, show (8 + k.val) / 8 = 1 by omega, show 8 + k.val < 16 by omega, show (8 + k.val) % 8 = k.val by omega]
  case fork d b =>
    rw [decodeRaw_encX_sys d.code_lt b.code_lt (by decide) (by decide) (by decide)]
    simp [decodeSys]
  case ballot d p =>
    rw [decodeRaw_encX_group d.code_lt (by omega) (by decide) (by decide) (by decide)]
    simp [decodeGroup]
  case mrd d t r =>
    rw [decodeRaw_encX_group d.code_lt (by omega) r.code_lt (by decide) (by decide)]
    simp [decodeGroup]
  case matchv d a | resid d a | sti d a =>
    rw [decodeRaw_encX_group d.code_lt a.code_lt (by decide) (by decide) (by decide)]
    simp [decodeGroup]
  case compact d a p =>
    rw [decodeRaw_encX_group d.code_lt a.code_lt (by omega) (by decide) (by decide)]
    simp [decodeGroup]
  case mdecl a b c | proof a b c | tqpush a b c | tqpop a b c | qpost a b c | ecmd a b c | waits a b c | gather a b c | scatter a b c =>
    rw [decodeRaw_encX_group a.code_lt b.code_lt c.code_lt (by decide) (by decide)]
    simp [decodeGroup]
  case mma s t a b | mmaHold s t a b =>
    rw [decodeRaw_encX_group (by omega) a.code_lt b.code_lt (by decide) (by decide)]
    simp [decodeGroup, show (8 * s.val + t.val) % 8 = t.val by omega, show (8 * s.val + t.val) / 8 = s.val by omega]
  case mwr t b c | mst t b c | draft t b c =>
    rw [decodeRaw_encX_group (by omega) b.code_lt c.code_lt (by decide) (by decide)]
    simp [decodeGroup]
  case mzero t | discard t | sstop t =>
    rw [decodeRaw_encX_group (by omega) (by decide) (by decide) (by decide) (by decide)]
    simp [decodeGroup]
  case accept t c | send t c =>
    rw [decodeRaw_encX_group (by omega) c.code_lt (by decide) (by decide) (by decide)]
    simp [decodeGroup]
  case ewait b c | sgnl b c =>
    rw [decodeRaw_encX_group (by decide) b.code_lt c.code_lt (by decide) (by decide)]
    simp [decodeGroup]
  case sdef t b f =>
    rw [decodeRaw_encX_group (by omega) b.code_lt (by omega) (by decide) (by decide)]
    simp [decodeGroup]
  case recv d c =>
    rw [decodeRaw_encX_group d.code_lt (by omega) (by decide) (by decide) (by decide)]
    simp [decodeGroup]
  case jmp b =>
    rw [decodeRaw_encX_group (by decide) b.code_lt (by decide) (by decide) (by decide)]
    simp [decodeGroup]
  case bra c o | call c o =>
    rw [decodeRaw_encC (by decide) c.code_lt o.isLt]
    simpa [Instr.wf] using hw
  case clause w fa fb g =>
    rw [decodeRaw_encK w.isLt (flagCode_lt fa) (flagCode_lt fb) g.code_lt]
    simpa [Instr.wf, Option.bind_eq_some_iff] using hw
  case hintImm h =>
    rw [decodeRaw_encH (by decide) h.isLt]
    simp [decodeHint]
  case hintPerm pa pb =>
    have ha := patCode_lt pa
    have hb := patCode_lt pb
    rw [decodeRaw_encH (by decide) (by omega)]
    simp [decodeHint, show (patCode pa * 256 + patCode pb) / 256 = patCode pa by omega,
      show (patCode pa * 256 + patCode pb) % 256 = patCode pb by omega, show patCode pa * 256 + patCode pb < 65536 by omega]
  case hintMod r c nt =>
    have hr := r.code_lt
    have hc := clsCode_lt c
    have hn := bit_le nt (2 ^ 14)
    rw [decodeRaw_encH (by decide) (by omega)]
    obtain ⟨e0, er, ec, en⟩ := modPayload_fields r.code (clsCode c) nt hc
    unfold decodeHint
    dsimp only
    rw [if_neg (not_not.2 e0), er, ec, en]
    cases c <;> simp [clsCode, Option.bind_eq_some_iff]
  case hintSched y =>
    rw [decodeRaw_encH (by decide) (by cases y <;> decide)]
    cases y <;> rfl

/-! ### From the word to its instruction and back -/

/-- What an X word of a group decodes to is spelled by its fields (R69, R128). -/
theorem code_of_decodeGroup {m a b c sub : Nat} {i : Instr} (ha : a < 64) (hb : b < 64) (hc : c < 64)
    (h : decodeGroup m a b c sub = some i) : i.isWord = true ∧ i.code = some (encX m a b c sub) := by
  have ea := Name.code_ofCode ha
  have eb := Name.code_ofCode hb
  have ec := Name.code_ofCode hc
  unfold decodeGroup at h
  repeat' split at h
  all_goals cases h
  all_goals exact ⟨rfl, congrArg some (by simp only [encX, Fin.val_ofNat]; omega)⟩

/-- The same of the system, transaction and frame groups. -/
theorem code_of_decodeSys {m a b c sub : Nat} {i : Instr} (ha : a < 64) (hb : b < 64) (hc : c < 64) (hs : sub < 256)
    (h : decodeSys m a b c sub = some i) : i.isWord = true ∧ i.code = some (encX m a b c sub) := by
  have ea := Name.code_ofCode ha
  have eb := Name.code_ofCode hb
  unfold decodeSys at h
  repeat' split at h
  all_goals simp only [Option.map_some, Option.map_none] at h
  all_goals cases h
  all_goals exact ⟨rfl, congrArg some (by simp only [encX, Fin.val_ofNat, idxBit, idxCode, BitVec.toNat_ofNat]; omega)⟩

/-- The same of the memory majors, whose words are of the formats M and X: `he` says that the fields of both are those of one word. -/
theorem code_of_decodeMem {m a b c sub imm w o : Nat} {i : Instr} (ha : a < 64) (hb : b < 64) (hc : c < 64) (hi : imm < 256) (hs : sub < 256)
    (he : 256 * c + sub = 64 * imm + 8 * w + o)
    (h : decodeMem m a b c sub imm w o = some i) : i.isWord = true ∧ i.code = some (encX m a b c sub) := by
  have ea := Name.code_ofCode ha
  have eb := Name.code_ofCode hb
  have ec := Name.code_ofCode hc
  have em : ∀ m, encX m a b c sub = encM m a b imm w o := fun m => by simp only [encX, encM]; omega
  unfold decodeMem at h
  repeat' split at h
  all_goals simp only [reduceCtorEq, Option.map_eq_some_iff, Option.bind_eq_some_iff, Wd.ofCode_eq_some, Wd.ofMcode_eq_some, Width.ofCode_eq_some,
    Scope.ofCode_eq_some, AtomOp.ofCode_eq_some] at h
  -- LD, ST, LDX, STC; ATOM, RED; CAS; FENCE
  case h_1 | h_2 | h_3 | h_4 =>
    obtain ⟨w, rfl, o, rfl, rfl⟩ := h
    simp [Instr.isWord, Instr.code, ea, eb, em, Nat.mod_eq_of_lt hi]
  case h_5 | h_7.isFalse =>
    obtain ⟨op, hop, o, ho, rfl⟩ := h
    refine ⟨rfl, congrArg some ?_⟩
    split_ifs with hb <;> simp only [beq_iff_eq] at hb <;> simp only [encX] <;> omega
  case h_6.isFalse =>
    obtain ⟨w, hw, o, ho, rfl⟩ := h
    refine ⟨rfl, congrArg some ?_⟩
    simp only [encX]
    omega
  case h_8.isFalse =>
    obtain ⟨o, ho, rfl⟩ := h
    refine ⟨rfl, congrArg some ?_⟩
    split_ifs with he hm hm <;> simp only [beq_iff_eq] at he hm <;> simp only [encX] <;> omega

/-- The same of the V3 and VI words: `he` says that the fields of both are those of one word. -/
theorem code_of_decodeAlu {m d x y f imm f3 : Nat} {i : Instr} (hd : d < 64) (hx : x < 512) (hy : y < 512) (hf : f < 4) (hi : imm < 256) (hf3 : f3 < 8)
    (he : 4 * y + f = 8 * imm + f3)
    (h : decodeAlu m d (Src.ofCode x) (Src.ofCode y) x y f imm f3 = some i) : i.isWord = true ∧ i.code = some (encV3 m d x y f) := by
  have en := Name.code_ofCode hd
  have ex := Src.code_ofCode hx
  have ey := Src.code_ofCode hy
  have vi : ∀ m, encV3 m d x y f = encVI m d x imm f3 := fun m => by simp only [encV3, encVI]; omega
  unfold decodeAlu at h
  repeat' split at h
  all_goals simp only [reduceCtorEq, Option.map_eq_some_iff, Option.bind_eq_some_iff, Wd.ofCode_eq_some, AddF.ofCode_eq_some, Sgn.ofCode_eq_some,
    MadF.ofCode_eq_some, MinF.ofCode_eq_some, ICond.ofCode_eq_some, FCond.ofCode_eq_some, FF.ofCode_eq_some, MoviF.ofCode_eq_some, Cvt.ofCode_eq_some] at h
  all_goals obtain ⟨g, hg, c, hc, rfl⟩ := h
  all_goals refine ⟨rfl, congrArg some ?_⟩
  case h_32.isFalse hf1 =>
    obtain rfl | rfl : f = 0 ∨ f = 1 := by omega
    · simp only [encV3, en, ex, hg]; rfl
    · simp only [encV3, en, ex, hg]; rfl
  case h_4.isTrue n hf0 hf1 hf2 hy0 =>
    have : f = 3 := by
      have h0 : f ≠ 0 := hf0
      have h1 : f ≠ 1 := hf1
      have h2 : f ≠ 2 := hf2
      omega
    simp only [encV3]
    omega
  all_goals simp only [encV3, encVI, Fin.val_ofNat, BitVec.toNat_ofNat, show Wd.code .b32 = 0 from rfl, show Wd.code .b64 = 1 from rfl,
    show Sgn.code .s = 0 from rfl, show Sgn.code .z = 1 from rfl, RndDir.code, ex, ey]
  all_goals omega
/-- The same of the HINT words. -/
theorem code_of_decodeHint {k p : Nat} {i : Instr} (hp : p < 2 ^ 22) (h : decodeHint k p = some i) :
    i.isWord = true ∧ i.code = some (encH k p) := by
  unfold decodeHint at h
  split at h
  case h_1 =>
    cases h
    exact ⟨rfl, congrArg some (by simp only [BitVec.toNat_ofNat]; rw [Nat.mod_eq_of_lt hp])⟩
  case h_2 =>
    split at h
    · cases h
    · simp only [Option.map_eq_some_iff, Option.bind_eq_some_iff] at h
      obtain ⟨a, ha, b, hb, rfl⟩ := h
      have ea := patCode_of_patOfCode (by omega) ha
      have eb := patCode_of_patOfCode (by omega) hb
      exact ⟨rfl, congrArg some (by simp only [encH, ea, eb]; omega)⟩
  case h_3 =>
    split at h
    · cases h
    · simp only [Option.bind_eq_some_iff, RndMode.ofCode_eq_some] at h
      obtain ⟨r, hr, h⟩ := h
      have hbit : (if p / 2 ^ 14 % 2 == 1 then 2 ^ 14 else 0) = 2 ^ 14 * (p / 2 ^ 14 % 2) := by
        rcases Nat.mod_two_eq_zero_or_one (p / 2 ^ 14) with e | e <;> rw [e] <;> rfl
      split_ifs at h
      all_goals cases h
      all_goals exact ⟨rfl, congrArg some (by simp only [encH, clsCode, Fin.val_ofNat, hbit]; omega)⟩
  case h_4 =>
    split at h <;> cases h <;> exact ⟨rfl, rfl⟩
  case h_5 => cases h

/-- The same of the CLAUSE word. -/
theorem code_of_decodeClause {w : Nat} {i : Instr} (hm : fld w 26 6 = 0x3E) (hw : w < 2 ^ 32) (h : decodeClause w = some i) :
    i.isWord = true ∧ i.code = some w := by
  unfold decodeClause at h
  split at h
  · cases h
  · simp only [Option.map_eq_some_iff, Option.bind_eq_some_iff, flagOfCode_eq_some, Cond.ofCode_eq_some] at h
    obtain ⟨fa, ha, fb, hb, g, ⟨hg, -⟩, rfl⟩ := h
    refine ⟨rfl, congrArg some ?_⟩
    simp only [fld] at ha hb hg hm
    simp only [encK, BitVec.toNat_ofNat, fld]
    omega

/-- The word that decodes is spelled by its fields: each group's own lemma, for the fields that decodeRaw reads. -/
theorem code_of_decodeRaw {w : Nat} {i : Instr} (hw : w < 2 ^ 32) (h : decodeRaw w = some i) : i.isWord = true ∧ i.code = some w := by
  have lt6 : ∀ lo, fld w lo 6 < 64 := fun lo => Nat.mod_lt _ (by decide)
  have lt8 : ∀ lo, fld w lo 8 < 256 := fun lo => Nat.mod_lt _ (by decide)
  have lt9 : ∀ lo, fld w lo 9 < 512 := fun lo => Nat.mod_lt _ (by decide)
  have ex : encX (fld w 26 6) (fld w 20 6) (fld w 14 6) (fld w 8 6) (fld w 0 8) = w := by simp only [encX, fld]; omega
  have ev : encV3 (fld w 26 6) (fld w 20 6) (fld w 11 9) (fld w 2 9) (fld w 0 2) = w := by simp only [encV3, fld]; omega
  have ec : encC (fld w 26 6) (fld w 22 4) (fld w 0 22) = w := by simp only [encC, fld]; omega
  have lt2 : fld w 0 2 < 4 := Nat.mod_lt _ (by decide)
  have lt3 : fld w 0 3 < 8 := Nat.mod_lt _ (by decide)
  have lt22 : fld w 0 22 < 2 ^ 22 := Nat.mod_lt _ (by decide)
  unfold decodeRaw at h
  dsimp only at h
  split_ifs at h with h0 h1 h2 h3 h4 h5 h6 h7 h8 h9 h10
  · cases h; exact ⟨rfl, congrArg some h1.symm⟩
  · have := code_of_decodeSys (lt6 _) (lt6 _) (lt6 _) (lt8 _) h
    rwa [ex] at this
  · have := code_of_decodeAlu (lt6 _) (lt9 _) (lt9 _) lt2 (lt8 _) lt3 (by simp only [fld]; omega) h
    rwa [ev] at this
  · have := code_of_decodeMem (lt6 _) (lt6 _) (lt6 _) (lt8 _) (lt8 _) (by simp only [fld]; omega) h
    rwa [ex] at this
  · have := code_of_decodeSys (lt6 _) (lt6 _) (lt6 _) (lt8 _) h
    rwa [ex] at this
  · have := code_of_decodeGroup (lt6 _) (lt6 _) (lt6 _) h
    rwa [ex] at this
  · simp only [Option.map_eq_some_iff, Cond.ofCode_eq_some] at h
    obtain ⟨c, ⟨hc, -⟩, rfl⟩ := h
    refine ⟨rfl, congrArg some ?_⟩
    rw [← hc, BitVec.toNat_ofNat, Nat.mod_eq_of_lt lt22, ← h7, ec]
  · simp only [Option.map_eq_some_iff, Cond.ofCode_eq_some] at h
    obtain ⟨c, ⟨hc, -⟩, rfl⟩ := h
    refine ⟨rfl, congrArg some ?_⟩
    rw [← hc, BitVec.toNat_ofNat, Nat.mod_eq_of_lt lt22, ← h8, ec]
  · have := code_of_decodeGroup (lt6 _) (lt6 _) (lt6 _) h
    rwa [ex] at this
  · exact code_of_decodeClause h10 hw h
  · have e : encH (fld w 22 4) (fld w 0 22) = w := by
      have := lt6 26
      simp only [encH, fld] at *
      omega
    have := code_of_decodeHint lt22 h
    rwa [e] at this

/-- Each word has its law (Laws.Encoded). -/
theorem encoded_of_isWord {i : Instr} (h : i.isWord = true) : Laws.Encoded.Statement i := by
  cases i <;> cases h
  open Laws.Encoded in
  exacts [nop, iadd .., isub .., imul .., imulh .., imad .., imin .., imax .., and .., or .., xor .., andn .., shl .., shr .., sar .., popc .., clz ..,
    brev .., iabs .., bfx .., bfi .., icmp .., sel .., mov .., movKw .., movKr .., movi .., lea .., idot4 .., fadd .., fsub .., fmul .., ffma ..,
    fmin .., fmax .., fcmp .., frcp .., frsq .., fsqrt .., fexp2 .., flog2 .., frnd .., fcvt .., fdot2 .., qcvt .., qdeq .., draw .., sample ..,
    topk .., ld .., st .., ldx .., stc .., atom .., cas .., red .., fence .., trap .., eret, mfs .., mts .., clk .., spill .., fill .., bkpt ..,
    tbegin .., tend, tabort .., fenter .., fleave .., Laws.Encoded.fld .., fst .., fork .., quit, yield, ballot .., matchv .., compact .., regroup, bar,
    cbar,
    reconv, mdecl .., mma .., mmaHold .., mrd .., mwr .., mst .., mzero .., resid .., settle, proof .., sti .., tqpush .., tqpop .., draft ..,
    accept .., discard .., qpost .., ecmd .., ewait .., sgnl .., waits .., gather .., scatter .., sdef .., sstop .., send .., recv .., jmp .., ret,
    bra .., call .., clause .., hintImm .., hintPerm .., hintMod .., hintSched ..]

namespace Proofs

/-- Settles O54: the code of an instruction is below 2^32 (Laws.Encoded) and is read back as it (decodeRaw_of_code). -/
theorem decodeOfEncode : Obligations.DecodeOfEncode := by
  intro i hi hw
  obtain ⟨n, hn, hlt⟩ := (encoded_of_isWord hi).1 hi
  have hd : decodeRaw (encode i).toNat = some i := by
    rw [encode, hn, Option.getD_some, BitVec.toNat_ofNat, Nat.mod_eq_of_lt hlt]
    exact decodeRaw_of_code hw hn
  simp [decode, hd, hw]

/-- A word that decodes is well formed, and its code is the word. -/
theorem encodeOfDecode0 : Rules.EncodeOfDecode0 := by
  intro w i h
  unfold decode at h
  split at h
  case h_1 j hj =>
    split at h
    · cases h
      obtain ⟨hi, hc⟩ := code_of_decodeRaw w.isLt hj
      exact ⟨hi, ‹_›, by simp [encode, hc]⟩
    · cases h
  case h_2 => split at h <;> cases h

/-- Four bytes, little-endian, joined again. -/
theorem wordOfBytes_bytesOfWord (w : Word) (rest : List Byte) : wordOfBytes (bytesOfWord w ++ rest) = some (w, rest) := by
  have h : ((w >>> 24).setWidth 8 ++ (w >>> 16).setWidth 8 ++ (w >>> 8).setWidth 8 ++ w.setWidth 8 : BitVec (8 + 8 + 8 + 8)) = w := by
    refine BitVec.eq_of_getLsbD_eq fun i hi => ?_
    simp only [BitVec.getLsbD_append, BitVec.getLsbD_setWidth, BitVec.getLsbD_ushiftRight]
    split_ifs with h0 h1 h2
    · simp [h0]
    · rw [show 8 + (i - 8) = i by omega]; simp [h1]
    · rw [show 16 + (i - 8 - 8) = i by omega]; simp [h2]
    · rw [show 24 + (i - 8 - 8 - 8) = i by omega, decide_eq_true (by omega), Bool.true_and]
  exact congrArg (fun x => some (x, rest)) h

/-- A word's bytes are read back as it, and so as its instruction. -/
theorem bytesOfWords : Rules.BytesOfWords := fun w rest =>
  ⟨wordOfBytes_bytesOfWord w rest, fun i hi => by simp [decodeBytes, wordOfBytes_bytesOfWord, hi, Except.map]⟩

/-- Settles O56: each word is decoded by evaluation. -/
theorem decodedWords : Obligations.DecodedWords := by
  unfold Obligations.DecodedWords
  and_intros <;> rfl

/-- Settles O55: code_of_decodeRaw for the word, wordOfBytes_bytesOfWord for its bytes. -/
theorem encodeOfDecode : Obligations.EncodeOfDecode := ⟨encodeOfDecode0, bytesOfWords⟩

end Proofs

end Sys2Proof

/-! SUPPORT. Proofs about the step: the fetch of a unit's next word. -/

namespace Sys2Proof.Machine

/-! ### The step of an open unit -/

theorem touchHomes_keeps {β : Type} {p : State → β} (hp : ∀ s m l h, p { s with mem := m, lines := l, hot := h } = p s)
    (s : State) (who : Who) (cls : Option Nat) (nt : Bool) (a : Access) (va n : Nat) : p (touchHomes s who cls nt a va n) = p s :=
  foldl_keeps (fun s x => touchHome_keeps hp s who cls nt a x) _ s

/-- A touch of homes changes memory, slice lines and page counts alone (R169, R186). -/
theorem touchHomes_eq (s : State) (who : Who) (cls : Option Nat) (nt : Bool) (a : Access) (va n : Nat) :
    touchHomes s who cls nt a va n = { s with
      mem := (touchHomes s who cls nt a va n).mem, lines := (touchHomes s who cls nt a va n).lines, hot := (touchHomes s who cls nt a va n).hot } := by
  have h := touchHomes_keeps (p := fun s => { s with mem := [], lines := [], hot := {} }) (fun _ _ _ _ => rfl) s who cls nt a va n
  exact congrArg (fun t : State => { t with
    mem := (touchHomes s who cls nt a va n).mem, lines := (touchHomes s who cls nt a va n).lines, hot := (touchHomes s who cls nt a va n).hot }) h

/-- Global addresses are those below the vaults' (R154). -/
theorem isGlobal_iff (a : Nat) : isGlobal a = true ↔ a < vaultBase := by
  unfold isGlobal window
  split_ifs with h <;> simp [h]

/-- A touch of addresses that are not global changes nothing. -/
theorem touchHomes_local {s : State} {va : Nat} (who : Who) (cls : Option Nat) (nt : Bool) (a : Access) (n : Nat) (h : isGlobal va = false) :
    touchHomes s who cls nt a va n = s := by
  refine foldl_eq_self fun x hx u => ?_
  obtain ⟨i, -, rfl⟩ := List.mem_map.1 hx
  have hva : ¬ va < vaultBase := by rw [← isGlobal_iff, h]; decide
  have hx : ¬ isGlobal (64 * (va / 64 + i)) = true := by
    rw [isGlobal_iff]
    simp only [vaultBase] at hva ⊢
    omega
  unfold touchHome
  split
  · exact absurd (by simpa [isGlobal]) hx
  · rfl

/-- What the group of the open unit is made of (R27, R32, R132): a path of its cell, in one mode. -/
theorem grp?_eq_some {s : State} {g : Grp} (h : s.grp? = some g) :
    s.cur.opened = true ∧ g.hatch = s.cur.hatch ∧ g.first = s.cur.first ∧ g.at_ = s.cur.at_ ∧ g.hints = s.cur.hints
    ∧ g.members = ((g.cell.fibres.filter fun f => f.hatch == s.cur.hatch).filter fun f => f.pc == s.cur.first && f.mayRun).filter
        (fun f => f.sup == ((g.cell.fibres.filter fun f => f.hatch == s.cur.hatch).filter fun f => f.pc == s.cur.first && f.mayRun).all (·.sup))
    ∧ g.members ≠ [] := by
  unfold State.grp? at h
  split at h
  · cases h
  · rename_i ho
    obtain ⟨c, -, hg⟩ := Option.bind_eq_some_iff.1 h
    dsimp only at hg
    split at hg
    · cases hg
    · rename_i hm
      cases hg
      simp only [Bool.or_eq_true, List.isEmpty_iff, not_or] at hm
      exact ⟨by simpa using ho, rfl, rfl, rfl, rfl, rfl, hm.1⟩

/-- The lanes of a group are in one mode (R132). -/
theorem sup_of_mem_grp? {s : State} {g : Grp} (h : s.grp? = some g) {m : Fibre} (hm : m ∈ g.members) : m.sup = g.sup := by
  obtain ⟨-, -, -, -, -, hms, -⟩ := grp?_eq_some h
  generalize List.all _ (fun f : Fibre => f.sup) = mode at hms
  have hall : ∀ x ∈ g.members, x.sup = mode := fun x hx => by
    rw [hms] at hx
    simpa using (List.mem_filter.1 hx).2
  have hany : g.sup = mode := by
    cases mode with
    | true => exact List.any_eq_true.2 ⟨m, hm, hall m hm⟩
    | false => exact List.any_eq_false.2 fun x hx => by simp [hall x hx]
  rw [hall m hm, hany]

section
variable {s : State} {g : Grp} (hp : s.powered = true) (ho : s.cur.opened = true) (hg : s.grp? = some g)
include hp ho hg

omit hg in
theorem step_of_opened : step s = settled (fetchStep s) := by
  rw [step, hp, ho]; rfl
/-- The step of an open unit whose word is fetched and is one of the instruction set. -/
theorem step_of_decoded {w : Word} {i : Instr} (hw : fetchWord s g.cell g.sup g.at_ = some (.ok w)) (hi : decode w = .ok i) :
    step s = settled (exec i (touchHomes s (g.cell.who g.sup) none false .fetch g.at_.toNat 4)) := by
  rw [step_of_opened hp ho, fetchStep, hg]
  dsimp only
  rw [hw]
  dsimp only
  rw [hi]
theorem step_of_undecoded {w : Word} {e : DecodeError} (hw : fetchWord s g.cell g.sup g.at_ = some (.ok w)) (he : decode w = .error e) :
    step s = .next (wakeWaits (decodeTrap (touchHomes s (g.cell.who g.sup) none false .fetch g.at_.toNat 4) g e)) := by
  rw [step_of_opened hp ho, fetchStep, hg]
  dsimp only
  rw [hw]
  dsimp only
  rw [he]
  rfl
theorem step_of_fetch_fault {t : Trap} (ht : fetchWord s g.cell g.sup g.at_ = some (.error t)) :
    step s = .next (wakeWaits (trapGroup s g t)) := by
  rw [step_of_opened hp ho, fetchStep, hg]
  dsimp only
  rw [ht]
  rfl
theorem step_of_fetch_held (h : fetchWord s g.cell g.sup g.at_ = none) : step s = .next (wakeWaits (stallUnit s)) := by
  rw [step_of_opened hp ho, fetchStep, hg]
  dsimp only
  rw [h]
  rfl

end

theorem decodeTrap_illegalInstruction (s : State) (g : Grp) : decodeTrap s g .illegalInstruction =
    if (beginUnit s g).2 then trapGroup (beginUnit s g).1 g { cause := .illegalInstruction } else (beginUnit s g).1 := rfl

/-- A unit whose members have all begun their clause has begun. -/
theorem beginUnit_of_begun (s : State) {g : Grp} (h : g.members.all (·.place.begun) = true) : beginUnit s g = (s, true) := by
  unfold beginUnit
  rw [if_pos h]

/-- A fetch that fails has the DETAIL of its cause (R311). -/
theorem fetchWord_error {s : State} {c : Cell} {sup : Bool} {at_ : DWord} {t : Trap} (h : fetchWord s c sup at_ = some (.error t)) :
    t.detail = if t.cause = .uncorrectable then 1 else 4 := by
  unfold fetchWord at h
  dsimp only at h
  split at h
  · cases h
  · split at h
    · cases h; rfl
    · cases h

end Sys2Proof.Machine

namespace Sys2Proof.Proofs
open Sys2Proof.Machine

/-- Settles O52: the step of an open unit is that of its fetch (`step_of_decoded` and those beside it). -/
theorem stepRunsTheDecodedInstruction : Obligations.StepRunsTheDecodedInstruction := by
  intro s g hp ho hg sup own u
  refine ⟨fun w i hw hi => ?_, fun m hm => sup_of_mem_grp? hg hm, touchHomes_eq .., touchHomes_local _ _ _ _ _, fun bs hh hr => ?_,
    fun w e hw he => ?_, fun t ht => ⟨fetchWord_error ht, step_of_fetch_fault hp ho hg ht⟩, step_of_fetch_held hp ho hg⟩
  · have hs : step s = settled (exec i u) := step_of_decoded hp ho hg hw hi
    exact ⟨fun t h => by rw [hs, h]; rfl, fun f h => by rw [hs, h]; rfl, fun r h => by rw [hs, h]; rfl⟩
  · show fetchWord s g.cell g.sup g.at_ = _
    unfold fetchWord
    dsimp only
    rw [if_neg (by simp [hh])]
    have hr' : homeRead s (g.cell.who g.sup) g.at_.toNat .fetch 4 = .ok bs := hr
    rw [hr']
  · have hs : step s = .next (wakeWaits (decodeTrap u g e)) := step_of_undecoded hp ho hg hw he
    refine ⟨?_, ?_⟩
    · rintro rfl; exact hs
    · rintro rfl
      rw [hs, decodeTrap_illegalInstruction]
      refine ⟨fun hb => ?_, fun hb => ?_, fun hb => ?_⟩
      · rw [beginUnit_of_begun u hb]; rfl
      · rw [if_pos hb]
      · rw [if_neg (by simp [hb])]

end Sys2Proof.Proofs

/-! SUPPORT. Proofs about control transfers: BRA, CALL, RET, JMP and the windows. -/

namespace Sys2Proof.Machine

/-! ### The traps of single lanes -/

theorem mapFibres_eq_self {s : State} {c : Nat} {F : Fibre → Fibre} (h : ∀ f, F f = f) : s.mapFibres c F = s := by
  have hF : F = id := funext h
  have hc : ∀ x : Cell, (if x.id = c then { x with fibres := x.fibres.map F } else x) = x := fun x => by
    split
    · rw [hF, List.map_id]
    · rfl
  simp only [State.mapFibres, State.setCell, hc, List.map_id']

@[simp] theorem refresh_ll (g : Grp) (s : State) : (g.refresh s).ll = g.ll := by
  unfold Grp.refresh
  split <;> rfl
@[simp] theorem refresh_hatch (g : Grp) (s : State) : (g.refresh s).hatch = g.hatch := by
  unfold Grp.refresh
  split <;> rfl

/-- The traps of the lanes of a group, no long-latency word being in hand, are those of its unit (R256). -/
theorem raiseLanes_eq_trapped {s : State} {g g' : Grp} (hll : g'.ll = false) (hc : g'.cell.id = g.cell.id) (hh : g'.hatch = g.hatch)
    (hf : g'.first = g.first) (ts : List (Fibre × Trap)) :
    raiseLanes s g' (ts.map fun t => (t.1.idx, t.2)) = Rules.trapped s g ts := by
  unfold raiseLanes Rules.trapped
  rw [mapFibres_eq_self fun f => by simp [Fibre.uncount, hll], hc, hh, hf, List.isEmpty_map, List.map_map]
  rfl

/-! ### One transfer -/

/-- One member of a transfer: it goes where next says, nowhere where it traps, else on. -/
def transferStep (g : Grp) (next : Fibre → Option (Except Trap Fibre)) (s : State) (m : Fibre) : State :=
  match (if m.place.active then next m else none) with
  | some (.ok f) => s.setFibre ⟨g.cell.id, m.idx⟩ fun _ => f
  | some (.error _) => s
  | none => s.setFibre ⟨g.cell.id, m.idx⟩ (·.jump (g.at_ + 4))
/-- Its trap. -/
def transferTrap (next : Fibre → Option (Except Trap Fibre)) (m : Fibre) : Option (Nat × Trap) :=
  match (if m.place.active then next m else none) with
  | some (.error t) => some (m.idx, t)
  | _ => none
theorem transfer_eq_foldl (s : State) (g : Grp) (next : Fibre → Option (Except Trap Fibre)) :
    transfer s g next = raiseLanes (g.members.foldl (transferStep g next) s) g (g.members.filterMap (transferTrap next)) := by
  unfold transfer
  dsimp only
  rw [List.foldl_map, List.filterMap_map]
  rfl

/-- One lane of a control transfer of the statements. -/
def goStep (g : Grp) (go : Fibre → Option Fibre) (s : State) (m : Fibre) : State :=
  match (if m.place.active then go m else none) with
  | some f => s.setFibre ⟨g.cell.id, m.idx⟩ fun _ => f
  | none => s.setFibre ⟨g.cell.id, m.idx⟩ fun f => { f with pc := g.at_ + 4, place := {} }
theorem goTo_eq_foldl (s : State) (g : Grp) (go : Fibre → Option Fibre) : Rules.goTo s g go = g.members.foldl (goStep g go) s := rfl

/-- A transfer is one of the lanes that go somewhere or on, and then the traps of those that are out. -/
theorem transfer_eq {s : State} {g : Grp} {next : Fibre → Option (Except Trap Fibre)} (out : Fibre → Bool) (trap : Fibre → Trap)
    (go : Fibre → Option Fibre)
    (hout : ∀ m ∈ g.members, out m = true → m.place.active = true ∧ next m = some (.error (trap m)))
    (hgo : ∀ m ∈ g.members, out m = false → m.place.active = true → next m = (go m).map .ok) :
    transfer s g next = raiseLanes (Rules.goTo s { g with members := g.members.filter fun m => !out m } go) g
      ((g.members.filter out).map fun m => (m.idx, trap m)) := by
  have hnext : ∀ m ∈ g.members, (if m.place.active then next m else none)
      = if out m then some (.error (trap m)) else (if m.place.active then go m else none).map .ok := fun m hm => by
    cases ho : out m with
    | true => simp [hout m hm ho]
    | false =>
      cases ha : m.place.active with
      | true => simp [hgo m hm ho ha]
      | false => simp
  have hstep : ∀ m ∈ g.members, ∀ t, transferStep g next t m = if out m then t else goStep g go t m := fun m hm t => by
    unfold transferStep goStep
    rw [hnext m hm]
    cases out m with
    | true => rfl
    | false => cases (if m.place.active then go m else none) <;> rfl
  have htrap : ∀ m ∈ g.members, transferTrap next m = if out m then some (m.idx, trap m) else none := fun m hm => by
    unfold transferTrap
    rw [hnext m hm]
    cases out m with
    | true => rfl
    | false => cases (if m.place.active then go m else none) <;> rfl
  rw [transfer_eq_foldl, goTo_eq_foldl, List.foldl_filter, List.filterMap_congr htrap]
  congr 1
  · refine List.foldl_ext _ _ _ fun t m hm => ?_
    rw [hstep m hm]
    cases out m <;> rfl
  · generalize g.members = l
    induction l with
    | nil => rfl
    | cons m r ih => cases ho : out m <;> simp [ho, ih]

/-- A transfer in which no lane traps. -/
theorem transfer_eq_goTo {s : State} {g : Grp} {next : Fibre → Option (Except Trap Fibre)} {go : Fibre → Option Fibre}
    (h : ∀ m ∈ g.active, next m = (go m).map .ok) : transfer s g next = Rules.goTo s g go := by
  have hout : ∀ m ∈ g.members, false = true → m.place.active = true ∧ next m = some (.error { cause := .misaligned }) := fun _ _ hf => nomatch hf
  rw [transfer_eq (fun _ => false) (fun _ => { cause := .misaligned }) go hout fun m hm _ ha => h m (List.mem_filter.2 ⟨hm, ha⟩)]
  simp [raiseLanes]

/-- The target of a C word is its own address plus four times the signed offset (R130). -/
theorem branchTo_eq_target (at_ : DWord) (off : BitVec 22) : branchTo at_ off = Rules.target at_ off := by
  show at_ + 4#64 * off.signExtend 64 = BitVec.ofInt 64 (at_.toNat + 4 * off.toInt)
  rw [BitVec.ofInt_add, BitVec.ofInt_mul, BitVec.ofInt_natCast, BitVec.ofNat_toNat, BitVec.setWidth_eq]
  rfl

/-- A transfer makes nothing of the model's own counter of free values. -/
theorem goTo_free (s : State) (g : Grp) (n : Nat) (go : Fibre → Option Fibre) :
    Rules.goTo { s with free := n } g go = { Rules.goTo s g go with free := n } := by
  refine List.foldl_hom (g₁ := goStep g go) (g₂ := goStep g go) (fun t : State => { t with free := n }) fun t m => ?_
  unfold goStep
  cases (if m.place.active then go m else none) <;> rfl

/-! ### BRA, CALL, RET and JMP -/

/-- A word whose body is a transfer ends in what that makes of the state past the word, but for the counter of free values. -/
theorem ends_of_transfer {i : Instr} {s : State} {g : Grp} (free : Nat) {next : State → Grp → Fibre → Option (Except Trap Fibre)}
    {go : Fibre → Option Fibre}
    (hexec : exec i s = unit s {} false false fun s g => some (transfer { s with free := s.free + free } g (next s g)))
    (hi : Issues s g {}) (h : ∀ m ∈ (g.after s false).active, next (passed s g false) (g.after s false) m = (go m).map .ok) :
    Ends i s g (Rules.goTo (passed s g false) (g.after s false) go) := by
  intro hq
  have harch : (Rules.goTo { passed s g false with free := (passed s g false).free + free } (g.after s false) go).arch
      = (Rules.goTo (passed s g false) (g.after s false) go).arch := by rw [goTo_free]; rfl
  obtain ⟨t, ht, ha⟩ := unit_arch (ll := false) (priv := false)
    (body := fun s g => some (transfer { s with free := s.free + free } g (next s g))) hi nofun nofun (congrArg some (transfer_eq_goTo h))
    (noQuitDue_arch harch.symm hq)
  exact ⟨t, hexec.trans ht, ha.trans harch⟩

section
variable {s : State} {g : Grp} (hi : Issues s g {})
include hi

theorem bra_ends (c : Cond) (off : BitVec 22) : Ends (.bra c off) s g (Rules.goTo (passed s g false) (g.after s false)
    fun m => if condHolds c m then some (Rules.standAt m (Rules.target g.at_ off)) else none) := by
  refine ends_of_transfer 0 (next := fun _ g f => if condHolds c f then some (.ok (f.jump (branchTo g.at_ off))) else none) rfl hi fun m _ => ?_
  rw [branchTo_eq_target, show (g.after s false).at_ = g.at_ from refresh_at ..]
  cases condHolds c m <;> rfl

theorem call_ends {c : Cond} (off : BitVec 22) (hb : ∀ m ∈ (g.after s false).active, condHolds c m = true → m.base ≠ 96) :
    Ends (.call c off) s g (Rules.goTo (passed s g false) (g.after s false) fun m => if condHolds c m then
      some (Rules.standAt (callWindow (s.free + 24 * m.lane) { m with rets := sput 0 m.rets (m.base + 24) (g.at_ + 4), base := m.base + 24 })
        (Rules.target g.at_ off)) else none) := by
  refine ends_of_transfer (24 * 32) (next := fun s g f => if condHolds c f then some (callOne (s.free + 24 * f.lane) g.at_ off f) else none) rfl hi
    fun m hm => ?_
  rw [show (g.after s false).at_ = g.at_ from refresh_at ..]
  cases hc : condHolds c m with
  | false => rfl
  | true => simp [callOne, hb m hm hc, branchTo_eq_target]; rfl

theorem ret_ends (hb : ∀ m ∈ (g.after s false).active, m.base ≠ 0 ∧ ∀ h, m.handler = some h → m.base ≠ h.trapBase) :
    Ends .ret s g (Rules.goTo (passed s g false) (g.after s false)
      fun m => some (Rules.standAt { m with base := m.base - 24 } (sget 0 m.rets m.base))) := by
  refine ends_of_transfer 0 (next := fun _ _ f => some (retOne f)) rfl hi fun m hm => ?_
  obtain ⟨h0, hh⟩ := hb m hm
  unfold retOne
  cases hd : m.handler with
  | none => simp [h0]; rfl
  | some h => simp [h0, hh h hd]; rfl

end

section
variable {s : State} {g : Grp} (hi : Issues s g {}) {a : Name} {x : Fibre → DWord} (hr : Reads s g false [plainSrc a .b64] fun l => [x l])
include hi hr

/-- JMP where every active lane's target is a multiple of 4 (R336). -/
theorem jmp_ends (hx : ∀ m ∈ (g.after s false).active, (x m).toNat % 4 = 0) :
    Ends (.jmp a) s g (Rules.goTo (readTo s g false [a]) (g.read s false [a]) fun m =>
      ((readVals s g false [a] fun l => [x l]).find? (·.1.idx == m.idx)).map fun y => Rules.standAt m (y.2.getD 0 0)) := by
  refine ends_of_withLanes rfl ⟨hi, nofun, hr⟩ (congrArg some (transfer_eq_goTo fun m _ => ?_))
  cases hy : (readVals s g false [a] fun l => [x l]).find? (·.1.idx == m.idx) with
  | none =>
    show (List.find? _ (readVals s g false [a] fun l => [x l])).map _ = none
    rw [hy]; rfl
  | some y =>
    obtain ⟨l, hl, rfl⟩ := List.mem_map.1 (List.mem_of_find?_eq_some hy)
    show (List.find? _ (readVals s g false [a] fun l => [x l])).map _ = _
    rw [hy, Option.map_some]
    exact congrArg some (if_neg (not_not.2 (hx l hl)))

/-- JMP: a lane whose target is no multiple of 4 raises MISALIGNED and goes nowhere (R336). -/
theorem jmp_ends_traps :
    let r := g.read s false [a]
    let goal (m : Fibre) : Option DWord := ((readVals s g false [a] fun l => [x l]).find? (·.1.idx == m.idx)).map (·.2.getD 0 0)
    let out (m : Fibre) : Bool := m.place.active && (goal m).any fun t => t.toNat % 4 != 0
    Ends (.jmp a) s g (Rules.trapped (Rules.goTo (readTo s g false [a]) { r with members := r.members.filter fun m => !out m }
      fun m => (goal m).map (Rules.standAt m)) g ((r.members.filter out).map fun m => (m, { cause := .misaligned }))) := by
  intro r goal out
  have hnext (m : Fibre) : ((readVals s g false [a] fun l => [x l]).find? (·.1.idx == m.idx)).map (fun x : Fibre × List DWord =>
      if (x.2.getD 0 0).toNat % 4 ≠ 0 then .error { cause := .misaligned } else .ok (m.jump (x.2.getD 0 0)))
      = (goal m).map fun t => if t.toNat % 4 ≠ 0 then Except.error ({ cause := .misaligned } : Trap) else .ok (Rules.standAt m t) := by
    unfold goal
    rw [Option.map_map]
    rfl
  refine ends_of_withLanes rfl ⟨hi, nofun, hr⟩ (congrArg some ?_)
  refine (transfer_eq out (fun _ => { cause := .misaligned }) (fun m => (goal m).map (Rules.standAt m)) (fun m _ ho => ?_)
    (fun m _ ho ha => ?_)).trans ?_
  · simp only [out, Bool.and_eq_true] at ho
    obtain ⟨ha, ho⟩ := ho
    refine ⟨ha, (hnext m).trans ?_⟩
    cases hg : goal m with
    | none => rw [hg] at ho; cases ho
    | some t => simpa [hg] using ho
  · simp only [out, ha, Bool.true_and] at ho
    refine (hnext m).trans ?_
    cases hg : goal m with
    | none => rfl
    | some t => rw [hg] at ho; simpa using ho
  · have ht : ((r.members.filter out).map fun m => (m.idx, ({ cause := .misaligned } : Trap)))
        = ((r.members.filter out).map fun m => (m, ({ cause := .misaligned } : Trap))).map fun t => (t.1.idx, t.2) := by rw [List.map_map]; rfl
    show raiseLanes _ r ((r.members.filter out).map fun m => (m.idx, ({ cause := .misaligned } : Trap))) = _
    rw [ht]
    exact raiseLanes_eq_trapped (by simp [Grp.read, Grp.after]) (read_cell_map (fun _ _ => rfl) hi.grp false [a])
      (by simp [Grp.read, Grp.after]) ((refresh_first ..).trans (refresh_first ..)) _

end

/-! ### The windows of CALL and RET -/

/-- The register stack under a callee's window: a word there is as before, or, from the window's w8 on, zero (R313). -/
def UnderCall (base k : Nat) (st st' : SMap Word) : Prop :=
  swf (0 : Word) st' = true ∧ ∀ p, sget 0 st' p = sget 0 st p ∨ base + 8 ≤ p ∧ p < base + 8 + k ∧ sget 0 st' p = 0

theorem callWindow_fold (free : Nat) (f : Fibre) : ∀ k : Nat, ∃ st,
    (List.range k).foldl (fun f i => f.setReg (8 + i) (if Config.freeBit (free + i) then 0 else f.reg (8 + i))) f = { f with stack := st }
    ∧ (swf (0 : Word) f.stack = true → UnderCall f.base k f.stack st)
  | 0 => ⟨f.stack, rfl, fun hs => ⟨hs, fun _ => .inl rfl⟩⟩
  | k + 1 => by
    obtain ⟨st, he, hst⟩ := callWindow_fold free f k
    rw [List.range_succ, List.foldl_append, he]
    refine ⟨_, rfl, fun hs => ?_⟩
    obtain ⟨hw, hp⟩ := hst hs
    refine ⟨swf_sput _ _ hw, fun p => ?_⟩
    rw [sget_sput _ _ _ hw]
    by_cases hk : p = f.base + (8 + k)
    · subst hk
      rw [if_pos rfl]
      cases Config.freeBit (free + k) with
      | true => exact .inr ⟨by omega, by omega, rfl⟩
      | false => exact .inl ((hp (f.base + (8 + k))).resolve_right fun ⟨_, h, _⟩ => by omega)
    · rw [if_neg hk]
      exact (hp p).imp_right fun ⟨h1, h2, h3⟩ => ⟨h1, by omega, h3⟩
theorem callWindow_eq (free : Nat) (f : Fibre) : ∃ st, callWindow free f = { f with stack := st }
    ∧ (swf (0 : Word) f.stack = true → UnderCall f.base 24 f.stack st) := callWindow_fold free f 24

/-- CALL and RET of one lane (R313, R359). -/
theorem callWindows : Rules.CallWindows := by
  intro f free at_ off
  refine ⟨fun hb => if_pos hb, fun hb => ?_, fun hb => ?_, fun h hh hb => ?_⟩
  · obtain ⟨st, he, hst⟩ := callWindow_eq free { f with rets := sput 0 f.rets (f.base + 24) (at_ + 4), base := f.base + 24 }
    refine ⟨_, if_neg hb, ?_⟩
    rw [he]
    refine ⟨rfl, rfl, branchTo_eq_target .., fun hs => ?_⟩
    obtain ⟨-, hp⟩ := hst hs
    have hreg (n : Nat) : f.reg (24 + n) = sget 0 f.stack (f.base + 24 + n) := by rw [Fibre.reg, Nat.add_assoc]
    refine ⟨fun n hn => ?_, fun n hn => ?_, fun n hn hn' => ?_⟩
    · rw [hreg]
      exact (hp (f.base + 24 + n)).resolve_right fun ⟨h, _⟩ => by dsimp only at h; omega
    · exact ((hp (f.base + n)).resolve_right fun ⟨h, _⟩ => by dsimp only at h; omega).symm
    · rw [hreg]
      exact (hp (f.base + 24 + n)).symm.imp_left fun ⟨_, _, h⟩ => h
  · simp [retOne, hb]
  · simp [retOne, hh, hb]

/-- BRA, CALL, RET and JMP (R130, R336, R359). -/
theorem controlTransfers : Rules.ControlTransfers := fun s g c off hi =>
  ⟨bra_ends hi c off, call_ends hi off, ret_ends hi, fun _ _ hr hx => ⟨jmp_ends hi hr hx, fun _ _ hr => jmp_ends_traps hi hr⟩⟩

end Sys2Proof.Machine

namespace Sys2Proof.Proofs
open Sys2Proof.Machine

/-- Settles O16: each control transfer (`transfer_eq`), and the windows that CALL and RET of one lane open and leave. -/
theorem controlFlow : Obligations.ControlFlow := ⟨controlTransfers, callWindows⟩

end Sys2Proof.Proofs


/-! SUPPORT. Proofs about clauses, the words outside a clause, and hints. -/

namespace Sys2Proof.Machine

/-! ### Every member of a group changed -/

@[simp] theorem refresh_hints (g : Grp) (s : State) : (g.refresh s).hints = g.hints := by
  unfold Grp.refresh
  split <;> rfl

/-- Two changes of every fibre of a cell, one after the other. -/
theorem mapFibres_mapFibres (s : State) (c : Nat) (F G : Fibre → Fibre) : (s.mapFibres c F).mapFibres c G = s.mapFibres c fun f => G (F f) := by
  simp only [State.mapFibres, State.setCell, State.mk.injEq, List.map_map, true_and, and_true]
  refine List.map_congr_left fun x _ => ?_
  by_cases hx : x.id = c
  · simp [hx]
  · simp [hx]

/-- Two changes of every member of a group, of which the first keeps the members' indices. -/
theorem members_members {s : State} {g g' : Grp} {F G : Fibre → Fibre} (hc : g'.cell.id = g.cell.id)
    (hi : ∀ i, g'.members.any (·.idx == i) = g.members.any (·.idx == i)) (hF : ∀ f, (F f).idx = f.idx) :
    Rules.members (Rules.members s g F) g' G = Rules.members s g fun f => G (F f) := by
  unfold Rules.members
  rw [hc, mapFibres_mapFibres]
  congr 1
  funext f
  rw [hi]
  by_cases h : g.members.any (·.idx == f.idx) = true
  · simp only [h, hF, if_true]
  · simp only [if_neg h]

/-- A group whose members' indices its cell still has keeps them where it is read anew. -/
theorem refresh_any_idx {s : State} {g : Grp} {c : Cell} (hc : s.cell? g.cell.id = some c)
    (hm : ∀ m ∈ g.members, ∃ f ∈ c.fibres, f.idx = m.idx) (i : Nat) :
    (g.refresh s).members.any (·.idx == i) = g.members.any (·.idx == i) := by
  unfold Grp.refresh
  rw [hc, Bool.eq_iff_iff]
  simp only [List.any_eq_true, List.mem_filter, beq_iff_eq]
  constructor
  · rintro ⟨f, ⟨-, m, hmg, hmf⟩, hf⟩
    exact ⟨m, hmg, hmf.trans hf⟩
  · rintro ⟨m, hmg, rfl⟩
    obtain ⟨f, hf, hfm⟩ := hm m hmg
    exact ⟨f, ⟨hf, m, hmg, hfm.symm⟩, hfm⟩

theorem mem_fibres_of_mem_grp? {s : State} {g : Grp} (h : s.grp? = some g) {m : Fibre} (hm : m ∈ g.members) : m ∈ g.cell.fibres := by
  obtain ⟨-, -, -, -, -, hms, -⟩ := grp?_eq_some h
  rw [hms] at hm
  exact (List.mem_filter.1 (List.mem_filter.1 (List.mem_filter.1 hm).1).1).1

/-- A change of a group's members that keeps their indices leaves them its members. -/
theorem refresh_members_any_idx {s : State} {g : Grp} (hg : s.grp? = some g) {F : Fibre → Fibre} (hF : ∀ f, (F f).idx = f.idx) (i : Nat) :
    (g.refresh (Rules.members s g F)).members.any (·.idx == i) = g.members.any (·.idx == i) := by
  have hc : (Rules.members s g F).cell? g.cell.id
      = some { g.cell with fibres := g.cell.fibres.map fun x => if g.members.any (·.idx == x.idx) then F x else x } := by
    unfold Rules.members
    rw [State.mapFibres, cell?_setCell, cell?_of_grp? hg, Option.map_some, if_pos rfl]
    exact fun _ => rfl
  refine refresh_any_idx hc (fun m hm => ⟨_, List.mem_map_of_mem (mem_fibres_of_mem_grp? hg hm), ?_⟩) i
  split
  · exact hF m
  · rfl

theorem passed_eq_members (s : State) (g : Grp) : passed s g false = Rules.members s g fun f => { f with pc := g.at_ + 4 } := rfl

/-! ### The start of a clause -/

/-- What a member is at the start of its clause (R117, R118): the guard is latched at once. -/
def Fibre.begin (p : Place) (f : Fibre) : Fibre := { f with place := { p with begun := true, active := condHolds p.guard f } }

section
variable {s : State} {g : Grp} {mask : BitVec 12} (hp : ∀ m ∈ g.members, parkDue s ⟨g.cell.id, m.idx⟩ (.clause mask) = none)
include hp

/-- A clause begins once its flags are zero in every member (R118). -/
theorem startClause_begins (p : Place) (hf : ∀ m ∈ g.members, m.flagsClear mask = true) :
    startClause s g mask p = (Rules.members s g (Fibre.begin p), true) := by
  unfold startClause
  dsimp only
  rw [List.filterMap_eq_nil_iff.2 fun m hm => by rw [hp m hm]; rfl]
  exact if_pos (List.all_eq_true.2 hf)

/-- Until then its members wait for their flags. -/
theorem startClause_waits (p : Place) (hf : ∃ m ∈ g.members, m.flagsClear mask = false) : startClause s g mask p
    = (closeUnit (Rules.members s g fun f => { f with status := .waitFlags mask, since := s.now, waitAt := g.first, place := p }) g, false) := by
  obtain ⟨m, hm, hfm⟩ := hf
  unfold startClause
  dsimp only
  rw [List.filterMap_eq_nil_iff.2 fun m hm => by rw [hp m hm]; rfl]
  have hall : ¬ g.members.all (fun f => f.flagsClear mask) = true := fun h => by simpa [hfm] using List.all_eq_true.1 h m hm
  exact if_neg hall

end

/-- An issue that ends in a state closed is that state but for scheduling. -/
theorem ends_of_closeUnit {i : Instr} {s w : State} {g : Grp} (h : exec i s = .next (closeUnit w g)) : Ends i s g w :=
  fun hq => ⟨_, h, closeUnit_arch w g hq⟩

/-- CLAUSE (R117, R118, R121). -/
theorem clauseStarts : Rules.ClauseStarts := by
  intro s g mask fa fb guard hg p
  have hexec : exec (.clause mask fa fb guard) s = execClause mask fa fb guard s := rfl
  refine ⟨fun hh => ?_, fun hh hp => ⟨fun hf => ends_of_closeUnit ?_, fun hf => ends_of_closeUnit ?_⟩⟩
  · rw [hexec, execClause, hg]
    exact if_pos (by simpa using hh)
  · rw [hexec, execClause, hg]
    dsimp only
    rw [hh, startClause_begins hp p hf]
    exact congrArg (fun u => Host.Outcome.next (closeUnit u g)) (members_members rfl (fun _ => rfl) fun _ => rfl)
  · rw [hexec, execClause, hg]
    dsimp only
    rw [hh, startClause_waits hp p hf]
    rfl

/-! ### The implicit clause -/

section
variable {s : State} {g : Grp} (hg : s.grp? = some g) (hb : ∀ m ∈ g.members, m.place.begun = false)
include hg hb

/-- No member of the group has begun its clause. -/
theorem not_all_begun : ¬ g.members.all (·.place.begun) = true := by
  obtain ⟨-, -, -, -, -, -, hne⟩ := grp?_eq_some hg
  obtain ⟨m, hm⟩ := List.exists_mem_of_ne_nil _ hne
  exact fun h => by simpa [hb m hm] using List.all_eq_true.1 h m hm
/-- Outside a clause a unit starts the implicit one (R116, R118). -/
theorem beginUnit_outside : beginUnit s g = startClause s g 0xFFF {} := by
  unfold beginUnit
  rw [if_neg (not_all_begun hg hb), List.filter_eq_self.2 fun m hm => by simp [hb m hm]]
  rfl

variable (hp : ∀ m ∈ g.members, parkDue s ⟨g.cell.id, m.idx⟩ (.clause 0xFFF) = none)
include hp

theorem beginUnit_begins (hf : ∀ m ∈ g.members, m.flagsClear 0xFFF = true) :
    beginUnit s g = (Rules.members s g fun f => { f with place := { begun := true } }, true) :=
  (beginUnit_outside hg hb).trans (startClause_begins hp {} hf)
theorem beginUnit_waits (hf : ∃ m ∈ g.members, m.flagsClear 0xFFF = false) : beginUnit s g
    = (closeUnit (Rules.members s g fun f => { f with status := .waitFlags 0xFFF, since := s.now, waitAt := g.first, place := {} }) g, false) :=
  (beginUnit_outside hg hb).trans (startClause_waits hp {} hf)

end

/-- A unit without hints whose word is outside a clause issues in the implicit clause that it begins. -/
theorem unit_outside {s s1 u : State} {g : Grp} {k : Hints} {body : State → Grp → Option State} (hg : s.grp? = some g)
    (hnb : ¬ g.members.all (·.place.begun) = true) (hs : beginUnit s g = (s1, true)) (hk : hintsFit k g.hints = true)
    (hb : body (passed s1 (g.refresh s1) false) ((g.refresh s1).after s1 false) = some u) :
    unit s k false false body = .next (closeUnit (sameIssue s.next u) ((g.refresh s1).after s1 false)) := by
  unfold unit
  rw [hg]
  dsimp only
  rw [hs]
  have hk' : hintsFit k (g.refresh s1).hints = true := by rwa [refresh_hints]
  simp only [if_neg hnb, hk', Bool.not_true, Bool.false_eq_true, if_false, Bool.false_and]
  unfold Grp.after at hb
  dsimp only at hb
  rw [hb]
  rfl
theorem unit_outside_waits {s s1 : State} {g : Grp} {k : Hints} {ll priv : Bool} {body : State → Grp → Option State} (hg : s.grp? = some g)
    (hs : beginUnit s g = (s1, false)) : unit s k ll priv body = .next s1 := by
  unfold unit
  rw [hg]
  dsimp only
  rw [hs]
  rfl

/-- NOP outside a clause (R116, R118). -/
theorem implicitClause : Rules.ImplicitClause := by
  intro s g hg hh hb hp
  have hexec : exec .nop s = execNop s := rfl
  refine ⟨fun hf hq => ?_, fun hf => ends_of_closeUnit ?_⟩
  · have hs := beginUnit_begins hg hb hp hf
    set s1 := Rules.members s g fun f => { f with place := { begun := true } } with hs1
    have hid : (g.refresh s1).cell.id = g.cell.id := refresh_cell_id ..
    have hid' : ((g.refresh s1).after s1 false).cell.id = g.cell.id := (refresh_cell_id ..).trans hid
    have hpass : passed s1 (g.refresh s1) false = Rules.members s g fun f => { f with pc := g.at_ + 4, place := { begun := true } } := by
      rw [passed_eq_members, refresh_at]
      exact members_members (F := fun f => { f with place := { begun := true } }) hid (refresh_members_any_idx hg fun _ => rfl) fun _ => rfl
    refine ⟨_, hexec.trans (unit_outside hg (not_all_begun hg hb) hs (by rw [hh]; rfl) rfl), ?_⟩
    rw [← hpass] at hq ⊢
    rw [closeUnit_arch, sameIssue_arch]
    rw [hid']
    exact noQuitDue_arch (sameIssue_arch ..).symm hq
  · exact hexec.trans (unit_outside_waits hg (beginUnit_waits hg hb hp hf))

/-! ### Hint words -/

theorem hintWord_begun {s s1 : State} {g : Grp} (h : Instr) (same : Instr → Bool) (hg : s.grp? = some g) (hs : beginUnit s g = (s1, true)) :
    hintWord h same s = if g.hints.any same then .next (trapGroup s1 g { cause := .illegalInstruction })
      else .next { s1 with cur := { s1.cur with hints := s1.cur.hints ++ [h], at_ := s1.cur.at_ + 4 } } := by
  unfold hintWord
  rw [hg]
  dsimp only
  rw [hs]
  rfl
theorem hintWord_waits {s s1 : State} {g : Grp} (h : Instr) (same : Instr → Bool) (hg : s.grp? = some g) (hs : beginUnit s g = (s1, false)) :
    hintWord h same s = .next s1 := by
  unfold hintWord
  rw [hg]
  dsimp only
  rw [hs]
  rfl

/-- The hint words (R116, R121, R124). -/
theorem hintWords : Rules.HintWords := by
  intro s g h same hcase hg kept
  have hexec : exec h s = hintWord h same s := by
    rcases hcase with ⟨v, rfl, rfl⟩ | ⟨a, b, rfl, rfl⟩ | ⟨r, c, n, rfl, rfl⟩ | ⟨y, rfl, rfl⟩ <;> rfl
  refine ⟨fun hb => ⟨fun hs => ?_, fun hs => ?_⟩, fun hh hb hp => ⟨fun hf => ?_, fun hf => ends_of_closeUnit ?_⟩⟩
  · rw [hexec, hintWord_begun h same hg (beginUnit_of_begun s hb), if_neg (by simp [hs])]
  · rw [hexec, hintWord_begun h same hg (beginUnit_of_begun s hb), if_pos hs]
  · rw [hexec, hintWord_begun h same hg (beginUnit_begins hg hb hp hf), if_neg (by simp [hh])]
    rfl
  · rw [hexec, hintWord_waits h same hg (beginUnit_waits hg hb hp hf)]

end Sys2Proof.Machine

namespace Sys2Proof.Proofs
open Sys2Proof.Machine

/-- Settles O17: CLAUSE, the implicit clause and the hint words, each by how `startClause` begins a clause or waits for its flags. -/
theorem clausesAndHints : Obligations.ClausesAndHints := ⟨clauseStarts, implicitClause, hintWords⟩

end Sys2Proof.Proofs

/-! SUPPORT. Proofs about the traps of a group, and TRAP and BKPT. -/

namespace Sys2Proof.Machine

/-! ### The checks of a unit that has begun -/

section
variable {s : State} {g : Grp} {k : Hints} {ll priv : Bool} {body : State → Grp → Option State} (hg : s.grp? = some g)
  (hb : g.members.all (·.place.begun) = true)
include hg hb

/-- A word that does not accept its hints is illegal (check 5 of R131). -/
theorem unit_illegal_hints (hk : hintsFit k g.hints = false) : unit s k ll priv body = .next (trapGroup s g { cause := .illegalInstruction }) := by
  unfold unit
  rw [hg]
  simp only [beginUnit_of_begun s hb, hb, if_true, hk, Bool.not_true, Bool.not_false, Bool.false_eq_true, if_false]
/-- A third long-latency word in a clause is illegal (R119). -/
theorem unit_third_longLatency (hk : hintsFit k g.hints = true) (h : g.members.any (fun f => decide (2 ≤ f.place.ll)) = true) :
    unit s k true priv body = .next (trapGroup s g { cause := .illegalClause }) := by
  unfold unit
  rw [hg]
  simp only [beginUnit_of_begun s hb, hb, if_true, hk, Bool.not_true, Bool.false_eq_true, if_false, h, Bool.true_and]
/-- A privileged word in user mode (R256). -/
theorem unit_privileged (hk : hintsFit k g.hints = true) (h : g.members.any (fun f => !f.sup) = true) :
    unit s k false true body = .next (trapGroup s g { cause := .privileged }) := by
  unfold unit
  rw [hg]
  simp only [beginUnit_of_begun s hb, hb, if_true, hk, Bool.not_true, Bool.false_eq_true, if_false, h, Bool.true_and, Bool.false_and]

end

/-- MFS of a register that is no tenant's is privileged (R349). -/
theorem execMfs_privileged {s : State} {g : Grp} (d : Name) {n : Fin 4096} (hg : s.grp? = some g) (hb : g.members.all (·.place.begun) = true)
    (hk : hintsFit {} g.hints = true) (h : g.members.any (fun f => !f.sup) = true) (hn : tenantReg n.val = false) :
    exec (.mfs d n) s = .next (trapGroup s g { cause := .privileged }) := by
  have hexec : exec (.mfs d n) s = execMfs d n s := rfl
  rw [hexec, execMfs, hn]
  exact unit_privileged hg hb hk h

/-- A word that is a unit of the model: with the hints that it accepts (R131), long-latency (R119) or not, privileged (R256) or not. -/
def IsUnit (i : Instr) (k : Hints) (ll priv : Bool) : Prop :=
  ∃ body : State → Grp → Option State, ∀ s, exec i s = unit s k ll priv body

section
variable {s : State} {g : Grp} (hg : s.grp? = some g) (hb : g.members.all (·.place.begun) = true)
include hg hb

/-- A long-latency word after two others of its clause (R119). -/
theorem exec_third_longLatency (hl : g.members.any (fun f => decide (2 ≤ f.place.ll)) = true) {i : Instr} {k : Hints}
    (hk : hintsFit k g.hints = true) (hi : IsUnit i k true false) :
    exec i s = .next (trapGroup s g { cause := .illegalClause }) := by
  obtain ⟨body, hbody⟩ := hi
  rw [hbody]
  exact unit_third_longLatency hg hb hk hl

/-- A privileged word in user mode (R256). -/
theorem exec_privileged (hs : g.members.any (fun f => !f.sup) = true) {i : Instr} {k : Hints}
    (hk : hintsFit k g.hints = true) (hi : IsUnit i k false true) :
    exec i s = .next (trapGroup s g { cause := .privileged }) := by
  obtain ⟨body, hbody⟩ := hi
  rw [hbody]
  exact unit_privileged hg hb hk hs

/-- A word after a hint that it does not accept (R131). -/
theorem exec_illegal_hints {i : Instr} {k : Hints} {ll priv : Bool} (hk : hintsFit k g.hints = false) (hi : IsUnit i k ll priv) :
    exec i s = .next (trapGroup s g { cause := .illegalInstruction }) := by
  obtain ⟨body, hbody⟩ := hi
  rw [hbody]
  exact unit_illegal_hints hg hb hk

end

/-! #### The privileged words (R256) -/

theorem isUnit_eret : IsUnit .eret {} false true :=
  ⟨_, fun s => Eq.trans (b := execEret s) rfl rfl⟩
theorem isUnit_mts (a : Name) (n : Fin 4096) : IsUnit (.mts a n) {} false true :=
  ⟨_, fun s => Eq.trans (b := execMts a n s) rfl rfl⟩
theorem isUnit_spill (a : Name) : IsUnit (.spill a) {} false true :=
  ⟨_, fun s => Eq.trans (b := execSpill a s) rfl rfl⟩
theorem isUnit_fill (a : Name) : IsUnit (.fill a) {} false true :=
  ⟨_, fun s => Eq.trans (b := execFill a s) rfl rfl⟩

/-! #### The long-latency words (R119) -/

theorem isUnit_qpost (d a b : Name) : IsUnit (.qpost d a b) {} true false :=
  ⟨_, fun s => Eq.trans (b := postWord .qpost false d a b s) rfl rfl⟩
theorem isUnit_ecmd (d a b : Name) : IsUnit (.ecmd d a b) {} true false :=
  ⟨_, fun s => Eq.trans (b := postWord .ecmd true d a b s) rfl rfl⟩
theorem isUnit_proof (d a b : Name) : IsUnit (.proof d a b) {} true false :=
  ⟨_, fun s => Eq.trans (b := execProof d a b s) rfl rfl⟩
theorem isUnit_tqpush (d a b : Name) : IsUnit (.tqpush d a b) {} true false :=
  ⟨_, fun s => Eq.trans (b := execTqpush d a b s) rfl rfl⟩
theorem isUnit_tqpop (d a b : Name) : IsUnit (.tqpop d a b) {} true false :=
  ⟨_, fun s => Eq.trans (b := execTqpop d a b s) rfl rfl⟩
theorem isUnit_mma (slot tile : Fin 8) (a b : Name) : IsUnit (.mma slot tile a b) {} true false :=
  ⟨_, fun s => Eq.trans (b := mmaWord false slot.val tile.val a b s) rfl rfl⟩
theorem isUnit_mmaHold (slot tile : Fin 8) (a b : Name) : IsUnit (.mmaHold slot tile a b) {} true false :=
  ⟨_, fun s => Eq.trans (b := mmaWord true slot.val tile.val a b s) rfl rfl⟩
theorem isUnit_mrd (d : Name) (tile : Fin 8) (a : Name) : IsUnit (.mrd d tile a) {} true false :=
  ⟨_, fun s => Eq.trans (b := execMrd d tile a s) rfl rfl⟩
theorem isUnit_mst (tile : Fin 8) (a b : Name) : IsUnit (.mst tile a b) {} true false :=
  ⟨_, fun s => Eq.trans (b := execMst tile a b s) rfl rfl⟩
theorem isUnit_recv (d : Name) (ch : Fin 8) : IsUnit (.recv d ch) {} true false :=
  ⟨_, fun s => Eq.trans (b := chanWord ch.val true [] (fun f _ => .recv ch.val (f.base + nameWin d) none) s) rfl rfl⟩
theorem isUnit_gather (d a b : Name) : IsUnit (.gather d a b) { cache := true } true false :=
  ⟨_, fun s => Eq.trans (b := listWord true d a b s) rfl rfl⟩
theorem isUnit_scatter (d a b : Name) : IsUnit (.scatter d a b) { cache := true } true false :=
  ⟨_, fun s => Eq.trans (b := listWord false d a b s) rfl rfl⟩
theorem isUnit_atom (op : AtomOp) (cmb : Bool) (o : Scope) (d a b : Name) : IsUnit (.atom op cmb o d a b) { cache := true } true false :=
  ⟨_, fun s => Eq.trans (b := execAtom op cmb o d a b s) rfl (by rw [execAtom])⟩
theorem isUnit_cas (w : Wd) (o : Scope) (d a b : Name) : IsUnit (.cas w o d a b) { cache := true } true false :=
  ⟨_, fun s => Eq.trans (b := execCas w o d a b s) rfl rfl⟩
theorem isUnit_ldx (w : Wd) (o : Scope) (d a : Name) (i : BitVec 8) : IsUnit (.ldx w o d a i) { cache := true } true false :=
  ⟨_, fun s => Eq.trans (b := loadWord w.bytes o d a i true s) rfl rfl⟩
theorem isUnit_frcp (d : Name) (x : Src) : IsUnit (.frcp d x) { perm := [x], vi := true } true false :=
  ⟨_, fun s => Eq.trans (b := longFun .rcp d x s) rfl rfl⟩
theorem isUnit_flog2 (d : Name) (x : Src) : IsUnit (.flog2 d x) { perm := [x], vi := true } true false :=
  ⟨_, fun s => Eq.trans (b := longFun .log2 d x s) rfl rfl⟩
theorem isUnit_frsq (d : Name) (x : Src) : IsUnit (.frsq d x) { perm := [x], vi := true } true false :=
  ⟨_, fun s => Eq.trans (b := longFun .rsq d x s) rfl rfl⟩
theorem isUnit_fsqrt (d : Name) (x : Src) : IsUnit (.fsqrt d x) { perm := [x], vi := true } true false :=
  ⟨_, fun s => Eq.trans (b := longFun .sqrt d x s) rfl rfl⟩
theorem isUnit_fexp2 (d : Name) (x : Src) : IsUnit (.fexp2 d x) { perm := [x], vi := true } true false :=
  ⟨_, fun s => Eq.trans (b := longFun .exp2 d x s) rfl rfl⟩
theorem isUnit_ld (w : Width) (o : Scope) (d a : Name) (i : BitVec 8) : IsUnit (.ld w o d a i) { imm := true, cache := true } true false :=
  ⟨_, fun s => Eq.trans (b := loadWord (widthBytes w) o d a i false s) rfl rfl⟩

/-! #### Words that accept no hint (R131) -/

theorem isUnit_nop : IsUnit .nop {} false false :=
  ⟨_, fun s => Eq.trans (b := execNop s) rfl rfl⟩
theorem isUnit_quit : IsUnit .quit {} false false :=
  ⟨_, fun s => Eq.trans (b := execQuit s) rfl rfl⟩
theorem isUnit_sgnl (a b : Name) : IsUnit (.sgnl a b) {} false false :=
  ⟨_, fun s => Eq.trans (b := execSgnl a b s) rfl rfl⟩

/-- The traps that take a whole group (R119, R131, R256): each word is a unit of the model with its own hints. -/
theorem groupTraps : Rules.GroupTraps := by
  intro s g d a b x n hg hb
  refine ⟨fun hk hs => ?_, fun h => ⟨fun hk => ?_, fun hk => ?_, fun hk => ?_, fun w o i hk => ?_⟩, fun hk => ?_⟩
  · have privileged {i : Instr} (hi : IsUnit i {} false true) := exec_privileged hg hb hs hk hi
    exact ⟨privileged isUnit_eret, privileged (isUnit_mts a n), privileged (isUnit_spill a), privileged (isUnit_fill a),
      execMfs_privileged d hg hb hk hs⟩
  · have third {i : Instr} (hi : IsUnit i {} true false) := exec_third_longLatency hg hb h hk hi
    exact ⟨third (isUnit_qpost d a b), third (isUnit_ecmd d a b), third (isUnit_proof d a b), third (isUnit_tqpush d a b),
      third (isUnit_tqpop d a b), fun slot tile => ⟨third (isUnit_mma slot tile a b), third (isUnit_mmaHold slot tile a b),
        third (isUnit_mrd d tile a), third (isUnit_mst tile a b), third (isUnit_recv d slot)⟩⟩
  · have third {i : Instr} (hi : IsUnit i { cache := true } true false) := exec_third_longLatency hg hb h hk hi
    exact ⟨third (isUnit_gather d a b), third (isUnit_scatter d a b),
      fun w o op cmb i => ⟨third (isUnit_atom op cmb o d a b), third (isUnit_cas w o d a b), third (isUnit_ldx w o d a i)⟩⟩
  · have third {i : Instr} (hi : IsUnit i { perm := [x], vi := true } true false) := exec_third_longLatency hg hb h hk hi
    exact ⟨third (isUnit_frcp d x), third (isUnit_flog2 d x), third (isUnit_frsq d x), third (isUnit_fsqrt d x),
      third (isUnit_fexp2 d x)⟩
  · exact exec_third_longLatency hg hb h hk (isUnit_ld w o d a i)
  · have illegal {i : Instr} (hi : IsUnit i {} false false) := exec_illegal_hints hg hb hk hi
    exact ⟨illegal isUnit_nop, illegal isUnit_quit, illegal (isUnit_sgnl a b)⟩

/-! ### TRAP and BKPT -/

/-- TRAP: the exception of each active lane, with the address of the unit after it (R370). -/
theorem trap_ends {s : State} {g : Grp} (n : Fin 64) (hi : Issues s g {}) :
    Ends (.trap n) s g (takeTraps (passed s g false) g.cell.id g.hatch
      ((g.after s false).active.map fun l => ⟨l.idx, { cause := .trapCall, code := n.val }, g.at_ + 4⟩)) := by
  intro hq
  have hexec : exec (.trap n) s = execTrap n s := rfl
  rw [hexec, execTrap]
  refine unit_arch hi nofun nofun ?_ hq
  have hid : (g.after s false).cell.id = g.cell.id := refresh_cell_id ..
  have hh : (g.after s false).hatch = g.hatch := refresh_hatch ..
  have hat : (g.after s false).at_ = g.at_ := refresh_at ..
  simp only [hid, hh, hat]

/-- BKPT: the exception of each active lane, with its own address (R263). -/
theorem bkpt_ends {s : State} {g : Grp} (n : Fin 64) (hi : Issues s g {}) (hne : (g.after s false).active ≠ []) :
    Ends (.bkpt n) s g (takeTraps (passed s g false) g.cell.id g.hatch
      ((g.after s false).active.map fun l => ⟨l.idx, { cause := .breakpoint, code := n.val }, g.first⟩)) := by
  intro hq
  have hexec : exec (.bkpt n) s = execBkpt n s := rfl
  rw [hexec, execBkpt]
  refine unit_arch hi nofun nofun ?_ hq
  have hraise := raiseLanes_eq_trapped (s := passed s g false) (g := g) (g' := g.after s false) rfl (refresh_cell_id ..) (refresh_hatch ..)
    (refresh_first ..) ((g.after s false).active.map fun f => (f, ({ cause := .breakpoint, code := n.val } : Trap)))
  rw [List.map_map] at hraise
  refine congrArg some (hraise.trans ?_)
  rw [Rules.trapped, if_neg (by simpa using hne), List.map_map]
  rfl

/-- TRAP and BKPT (R263, R370). -/
theorem trapWords : Rules.TrapWords := fun _ _ n hi hne => ⟨trap_ends n hi, bkpt_ends n hi hne⟩

end Sys2Proof.Machine

namespace Sys2Proof.Proofs
open Sys2Proof.Machine

/-- Settles O18: the checks of a unit that has begun (`groupTraps`), and TRAP and BKPT. -/
theorem traps : Obligations.Traps := ⟨groupTraps, trapWords⟩

end Sys2Proof.Proofs

/-! SUPPORT. Proofs about pending operations: their next stage, the faults of the matrix words, and the point of PROOF. -/

namespace Sys2Proof.Machine

/-- A posted tile word: MWR or MZERO (R342). -/
def OpKind.posted (k : OpKind) : Prop := (∃ u t row vals b, k = .mwr u t row vals b) ∨ ∃ u t b, k = .mzero u t b

/-! ### LONG_LATENCY_COMPLETE and MATRIX_FAULT -/

section
variable {s : State} {o : Op} {c : Cell} (mask : Nat) (ho : s.op? o.id = some o) (hc : s.cell? o.owner.cell = some c)

/-- A posted tile word drains its tile's order, whatever has become of its cell (R342). -/
theorem longLatencyComplete_posted {u t : Nat} (ho : s.op? o.id = some o)
    (hk : (∃ row vals b, o.kind = .mwr u t row vals b) ∨ ∃ b, o.kind = .mzero u t b) :
    exec (.longLatencyComplete o.id mask) s = .next (afterAll (drainAll s u t)) := by
  have hexec : exec (.longLatencyComplete o.id mask) s = execLongLatencyComplete o.id mask s := rfl
  rw [hexec, execLongLatencyComplete, ho]
  obtain ⟨row, vals, b, h⟩ | ⟨b, h⟩ := hk <;> simp only [h]

include ho hc

/-- Any other operation is held, or takes its stage. -/
theorem longLatencyComplete_other (hk : ¬ o.kind.posted) :
    exec (.longLatencyComplete o.id mask) s = if o.refused.isSome || !c.resident || o.after.any (fun a => (s.acc? a).isSome) then .next s
      else .next (afterAll (advanceOp s c o mask)) := by
  have hexec : exec (.longLatencyComplete o.id mask) s = execLongLatencyComplete o.id mask s := rfl
  rw [hexec, execLongLatencyComplete, ho]
  cases h : o.kind with
  | mwr u t row vals b => exact absurd (.inl ⟨u, t, row, vals, b, h⟩) hk
  | mzero u t b => exact absurd (.inr ⟨u, t, b, h⟩) hk
  | _ => simp only [hc, h]

/-- Any other operation, not refused, of a resident cell, takes its stage once the stores replayed before it are over (R119, R262). -/
theorem longLatencyComplete_advances (hk : ¬ o.kind.posted) (hr : o.refused = none) (hres : c.resident = true)
    (ha : ∀ a ∈ o.after, s.acc? a = none) :
    exec (.longLatencyComplete o.id mask) s = .next (afterAll (advanceOp s c o mask)) := by
  have hno : o.after.any (fun a => (s.acc? a).isSome) = false := by
    rw [List.any_eq_false]
    exact fun a h => by simp [ha a h]
  rw [longLatencyComplete_other mask ho hc hk, hr, hres, hno]
  rfl

/-- MATRIX_FAULT of a refused operation, or of one whose cell is not resident, does nothing. -/
theorem matrixFault_held (h : o.refused.isSome = true ∨ c.resident = false) : exec (.matrixFault o.id) s = .next s := by
  have hexec : exec (.matrixFault o.id) s = execMatrixFault o.id s := rfl
  have hheld : (o.refused.isSome || !c.resident) = true := by simpa using h
  rw [hexec, execMatrixFault, ho]
  simp only [hc, hheld, if_true]

/-- An MMA of a resident cell, not refused (R345). -/
theorem matrixFault_mma (hr : o.refused = none) (hres : c.resident = true) {u t sl row : Nat} {h : Bool} {ea eb : Tile}
    (hk : o.kind = .mma u t sl h ea eb row) :
    exec (.matrixFault o.id) s = .next (afterAll (faultMma s o c u t sl h ea eb row)) := by
  have hexec : exec (.matrixFault o.id) s = execMatrixFault o.id s := rfl
  rw [hexec, execMatrixFault, ho]
  simp only [hc, hk, hr, hres, Option.isSome_none, Bool.not_true, Bool.or_self, Bool.false_eq_true, if_false]

/-- An MST of a resident cell, not refused (R347). -/
theorem matrixFault_mst (hr : o.refused = none) (hres : c.resident = true) {u t row : Nat} {b : DWord} {d : Word}
    (hk : o.kind = .mst u t b d row) :
    exec (.matrixFault o.id) s = .next (afterAll (faultMst s o c u t b d row)) := by
  have hexec : exec (.matrixFault o.id) s = execMatrixFault o.id s := rfl
  rw [hexec, execMatrixFault, ho]
  simp only [hc, hk, hr, hres, Option.isSome_none, Bool.not_true, Bool.or_self, Bool.false_eq_true, if_false]

end

/-- The one word of a value operation, selected by the mask, is written, and the operation ends (R119). -/
theorem deliverValue_single {s : State} {o : Op} (pos : Nat) (v : Word) {mask : Nat} (hg : o.got = 0) (hm : mask.testBit 0 = true) :
    deliverValue s o [(pos, v)] mask = finishOp (s.setFibre o.owner fun f => { f with stack := sput 0 f.stack pos v }) o := by
  have hnow : ([(pos, v)].zipIdx.filter fun x => mask.testBit x.2 && !o.got.testBit x.2) = [((pos, v), 0)] := by
    simp [hg, hm]
  unfold deliverValue
  rw [hnow]
  simp [hg]

/-- A pending operation by its kind (R119, R342, R345, R347). -/
theorem pendingOperations : Rules.PendingOperations := by
  intro s o c mask ho hc
  refine ⟨fun u t hk => longLatencyComplete_posted mask ho hk, fun hheld => ⟨fun hk => ?_, matrixFault_held ho hc hheld⟩,
    fun hr hres => ⟨fun hk ha => ?_, fun hk ha => longLatencyComplete_advances mask ho hc hk hr hres ha, fun pos v hafter hk hg hm => ?_,
      fun _ _ _ _ _ _ _ hk => matrixFault_mma ho hc hr hres hk, fun _ _ _ _ _ hk => matrixFault_mst ho hc hr hres hk⟩⟩
  · have hheld : (o.refused.isSome || !c.resident) = true := by simpa using hheld
    rw [longLatencyComplete_other mask ho hc hk, hheld]
    rfl
  · have hwaits : o.after.any (fun a => (s.acc? a).isSome) = true := by
      obtain ⟨a, hm, hs⟩ := ha
      exact List.any_eq_true.2 ⟨a, hm, Option.isSome_iff_ne_none.2 hs⟩
    rw [longLatencyComplete_other mask ho hc hk, hwaits, Bool.or_true]
    rfl
  · have hnot : ¬ o.kind.posted := by
      rw [hk]
      rintro (⟨_, _, _, _, _, h⟩ | ⟨_, _, _, h⟩) <;> cases h
    rw [longLatencyComplete_advances mask ho hc hnot hr hres (by simp [hafter]), advanceOp, hk]
    simp only [deliverValue_single pos v hg hm]

/-! ### The point of PROOF -/

section
variable {s : State} {o : Op} {c : Cell} {dst addr n : Nat} (ho : s.op? o.id = some o) (hc : s.cell? o.owner.cell = some c)
  (hk : o.kind = .proof dst addr n)
include ho hc hk

/-- A PROOF whose point is not yet to be taken stays (R194, R353). -/
theorem proofSnapshot_held (h : acqBefore s o = true ∨ pointTurn s o = false) : exec (.proofSnapshot o.id) s = .next s := by
  have hexec : exec (.proofSnapshot o.id) s = execProofSnapshot o.id s := rfl
  have hheld : (!c.resident || o.result.isSome || o.refused.isSome || acqBefore s o || !pointTurn s o) = true := by
    obtain h | h := h <;> simp [h]
  rw [hexec, execProofSnapshot, ho]
  simp only [hk, hc, hheld, if_true]

variable (hres : c.resident = true) (hresult : o.result = none) (href : o.refused = none) (hacq : acqBefore s o = false)
  (hturn : pointTurn s o = true)
include hres hresult href hacq hturn

/-- No plate holds the words: zeros with NOPLATE (R353). -/
theorem proofSnapshot_noPlate (hp : plateOf s c.part c.fn addr n = none) :
    exec (.proofSnapshot o.id) s = .next (s.setOp o.id fun o => { o with
      result := some ((List.replicate n (0 : Word) ++ [0x7F800000, 0, 0, 2]).zipIdx.map fun (x : Word × Nat) => (x.2, x.1)) }) := by
  have hexec : exec (.proofSnapshot o.id) s = execProofSnapshot o.id s := rfl
  have hgoes : (!c.resident || o.result.isSome || o.refused.isSome || acqBefore s o || !pointTurn s o) = false := by
    simp [hres, hresult, href, hacq, hturn]
  rw [hexec, execProofSnapshot, ho]
  simp only [hk, hc, hgoes, Bool.false_eq_true, if_false, hp]
  rfl

/-- A plate holds the words: they, and the plate's BOUND, GEN and CONV (R80, R81). -/
theorem proofSnapshot_plate {l : Launch} {bs : List Byte} (hp : plateOf s c.part c.fn addr n = some l)
    (hheld : heldBack s [] c.part c.fn addr (4 * n) = false)
    (hread : homeRead s (c.who (ownerSup s o)) addr .read (4 * n) = .ok bs) :
    exec (.proofSnapshot o.id) s = .next ((touchHomes s (c.who (ownerSup s o)) none false .read addr (4 * n)).setOp o.id fun o => { o with
      result := some (((List.range n).map (fun k => BitVec.ofNat 32 (natOfBytes ((bs.drop (4 * k)).take 4))) ++ proofTrailer l).zipIdx.map
        fun (x : Word × Nat) => (x.2, x.1)) }) := by
  have hexec : exec (.proofSnapshot o.id) s = execProofSnapshot o.id s := rfl
  have hgoes : (!c.resident || o.result.isSome || o.refused.isSome || acqBefore s o || !pointTurn s o) = false := by
    simp [hres, hresult, href, hacq, hturn]
  rw [hexec, execProofSnapshot, ho]
  simp only [hk, hc, hgoes, Bool.false_eq_true, if_false, hp, hheld, hread]

end

/-- The point of one lane's PROOF (R80, R81, R194, R353). -/
theorem proofPoint : Rules.ProofPoint := by
  intro s o c dst addr n ho hc hres hk hresult href
  exact ⟨proofSnapshot_held ho hc hk, proofSnapshot_noPlate ho hc hk hres hresult href,
    fun hacq hturn _ _ => proofSnapshot_plate ho hc hk hres hresult href hacq hturn⟩

end Sys2Proof.Machine

namespace Sys2Proof.Proofs
open Sys2Proof.Machine

/-- Settles O39: each stage of a pending operation by its kind (`pendingOperations`), and PROOF's point by what holds its words
(`proofPoint`). -/
theorem operationEvents : Obligations.OperationEvents := ⟨pendingOperations, proofPoint⟩

end Sys2Proof.Proofs

/-! SUPPORT. The register tables of MFS and MTS at a state that lists one function twice. -/

namespace Sys2Proof.Machine

/-- A state that lists function 0 of partition 0 twice, with different MEM.SHOOTVA registers. -/
def twoFns : State :=
  { parts := [{ id := 0, islands := [] }], fns := [{ part := 0, num := 0 }, { part := 0, num := 0, shootVa := 1 }] }

/-- A write of MEM.SHOOT (0x043) latches in each listing of the function that listing's own MEM.SHOOTVA (R349). -/
theorem writeReg_shoot_twoFns :
    writeReg twoFns (.fibre { id := 0 } { idx := 0, pc := 0, hatch := 0, lane := 0 }) 0x043 0 = .done { twoFns with
      fns := [{ part := 0, num := 0, shootBusy := true }, { part := 0, num := 0, shootVa := 1, shootBusy := true, shootAt := 1 }] } := by
  simp [writeReg, Port.part, Port.fn, twoFns, State.fn?, State.setFn, loWord]

end Sys2Proof.Machine

namespace Sys2Proof.Proofs
open Sys2Proof.Machine

/-- Refutes O20: `RegisterWrites` wants a write of MEM.SHOOT to latch the MEM.SHOOTVA of the first listing of the writer's function into
every listing of it; the model latches each listing's own. They differ in `twoFns`, which lists a function twice; in a state that lists
each function once they agree. -/
theorem not_specialRegisters : ¬ Obligations.SpecialRegisters := by
  rintro ⟨-, -, hwrites⟩
  obtain ⟨-, -, -, -, -, -, -, -, -, hshoot, -⟩ :=
    hwrites twoFns { id := 0 } { idx := 0, pc := 0, hatch := 0, lane := 0 } { id := 0, islands := [] } { part := 0, num := 0 } 0 rfl rfl
  have hlatched := writeReg_shoot_twoFns.symm.trans hshoot
  simp [twoFns, State.setFn, loWord] at hlatched

end Sys2Proof.Proofs

/-! SUPPORT. Proofs about the events of registers: the status words, the host's window, the photonic layer, the group table, the
hotness log. -/

namespace Sys2Proof.Machine

/-! ### The status words -/

/-- A write of one matrix unit's status word leaves every other's (R141). -/
theorem State.mx_setMx {s : State} (hw : swf 0 s.mxStatus = true) (q u : Nat) (v : Word) :
    (s.setMx q v).mx u = if u = q then v else s.mx u := sget_sput q u v hw

/-- The clearing of the status words (R141). -/
theorem statusClears : Rules.StatusClears := by
  intro s c q hw
  refine ⟨rfl, rfl, ?_, fun u hu => ?_⟩
  · rw [State.mx_setMx hw, if_pos rfl]
  · rw [State.mx_setMx hw, if_neg hu]

/-! ### Writes of the host driver -/

/-- A host write that is done (R286). -/
theorem hostWrite_done {s t : State} {part fn n : Nat} {v : DWord} (h : writeReg s (.host part fn) n v = .done t) :
    hostWrite part fn n v s = .next (afterAll t) := by rw [hostWrite, h]

/-- The low word of a zero-extended word. -/
@[simp] theorem loWord_setWidth (v : Word) : loWord (v.setWidth 64) = v := by simp [loWord]

/-- A write of ORD.PINTO ends every pin of the partition (R197, R199). -/
theorem writeReg_pinto (s : State) (part fn : Nat) (x : DWord) : writeReg s (.host part fn) 0x060 x =
    .done (freePins (endPins (s.setPart part fun p => { p with pinto := bits (loWord x).toNat 19 0 }) (·.part == part))) := rfl
/-- A write of VF.QUANTUM (R275). -/
theorem writeReg_quantum {s : State} {part : Nat} {p : Partition} (hp : s.part? part = some p) (fn : Nat) (x : DWord) :
    writeReg s (.host part fn) 0x087 x = .done (putQuantum s p (loWord x).toNat) := by
  have hread : writeReg s (.host part fn) 0x087 x
      = .done (putQuantum s ((s.part? part).getD { id := part, islands := [] }) (loWord x).toNat) := rfl
  rw [hread, hp, Option.getD_some]
/-- A write of MEM.PTROOT (R165, R171). -/
theorem writeReg_ptroot (s : State) (part fn : Nat) (x : DWord) :
    writeReg s (.host part fn) 0x041 x = .done (s.setFn part fn fun f => { f with ptroot := loWord x }) := rfl

/-- Writes of ORD.PINTO and VF.QUANTUM (R197, R199, R275). -/
theorem partitionWrites : Rules.PartitionWrites := by
  intro s p v hp
  have hquantum : exec (.vfQuantumWrite p.id v) s = .next (afterAll (putQuantum s p v.toNat)) := by
    have hexec : exec (.vfQuantumWrite p.id v) s = hostWrite p.id 64 0x087 (v.setWidth 64) s := rfl
    rw [hexec, hostWrite_done (writeReg_quantum hp ..), loWord_setWidth]
  refine ⟨?_, fun hv => ?_, fun hv => ?_⟩
  · have hexec : exec (.ordPintoWrite p.id v) s = hostWrite p.id 64 0x060 (v.setWidth 64) s := rfl
    rw [hexec, hostWrite_done (writeReg_pinto ..), loWord_setWidth]
    simp only [bits, Nat.pow_zero, Nat.div_one, Nat.reduceAdd, Nat.sub_zero]
  · rw [hquantum, hv]
    rfl
  · have hv0 : v.toNat ≠ 0 := fun h => hv (BitVec.eq_of_toNat_eq h)
    rw [hquantum, putQuantum]
    simp only [hv0, if_false]

/-! ### The photonic layer -/

section
variable {s : State} {part : Nat} {p : Partition} (hp : s.part? part = some p) (fn : Nat) {n : Nat} (hn : n < 16) (x : DWord)
include hp hn

/-- A write of a heater of the host's bank (R295, R303). -/
theorem writeReg_heater : writeReg s (.host part fn) (0x110 + n) x
    = .done { s with heaters := sput 0 s.heaters (16 * p.hostBank.toNat + n) (bits (loWord x).toNat 11 0 + 1) } := by
  have hbank : (Port.host part fn).bank s = p.hostBank.toNat := by simp [Port.bank, hp]
  rw [← hbank]
  interval_cases n <;> rfl

/-- A write of a ring's slot in the host's bank (R296, R303). -/
theorem writeReg_ring : writeReg s (.host part fn) (0x130 + n) x
    = .done (let r := moveRing s p.hostBank.toNat n (bits (loWord x).toNat 4 0)
      if r.2 then r.1 else r.1.setPart part fun p => { p with hostErr := true }) := by
  have hbank : (Port.host part fn).bank s = p.hostBank.toNat := by simp [Port.bank, hp]
  rw [← hbank]
  interval_cases n <;> rfl

end

/-- A ring that stands on the slot stays (R296). -/
theorem moveRing_stays {s : State} {b n v : Nat} (h : v = ringSlot s b n) : moveRing s b n v = (s, true) := by
  rw [moveRing, if_pos h]
/-- A ring moves to a free slot (R296). -/
theorem moveRing_moves {s : State} {b n v : Nat} (h : v ≠ ringSlot s b n) (hv : v ≤ 16) (hf : slotFailed s b v = false)
    (hfree : ∀ m, m < 16 → m ≠ n → ringSlot s b m ≠ v) :
    moveRing s b n v = ({ s with rings := sput 0 s.rings (16 * b + n) (v + 1) }, true) := by
  have hany : (List.range 16).any (fun m => m != n && ringSlot s b m == v) = false := by
    rw [List.any_eq_false]
    intro m hm
    simpa using hfree m (List.mem_range.1 hm)
  have hno : (decide (16 < v) || slotFailed s b v || (List.range 16).any (fun m => m != n && ringSlot s b m == v)) = false := by
    rw [hf, hany, decide_eq_false (by omega)]
    rfl
  rw [moveRing, if_neg h, hno]
  rfl
/-- No ring moves to a slot that is none, has failed, or is taken (R296). -/
theorem moveRing_refused {s : State} {b n v : Nat} (h : v ≠ ringSlot s b n)
    (hbad : 16 < v ∨ slotFailed s b v = true ∨ ∃ m, m < 16 ∧ m ≠ n ∧ ringSlot s b m = v) : moveRing s b n v = (s, false) := by
  have hyes : (decide (16 < v) || slotFailed s b v || (List.range 16).any (fun m => m != n && ringSlot s b m == v)) = true := by
    obtain hv | hf | ⟨m, hm, hne, heq⟩ := hbad
    · simp [hv]
    · simp [hf]
    · have hany : (List.range 16).any (fun m => m != n && ringSlot s b m == v) = true :=
        List.any_eq_true.2 ⟨m, List.mem_range.2 hm, by simp [hne, heq]⟩
      simp [hany]
  rw [moveRing, if_neg h, hyes]
  rfl

/-- The heaters, the rings and the photodiodes (R295, R296, R303). -/
theorem photonicWrites : Rules.PhotonicWrites := by
  intro s p n v hp hn
  have hslot : bits v.toNat 4 0 = v.toNat % 32 := by simp only [bits, Nat.pow_zero, Nat.div_one]; rfl
  have hmap : exec (.photMapWrite p.id n v) s = .next (afterAll (let r := moveRing s p.hostBank.toNat n (v.toNat % 32)
      if r.2 then r.1 else r.1.setPart p.id fun p => { p with hostErr := true })) := by
    have hexec : exec (.photMapWrite p.id n v) s = execPhotMapWrite p.id n v s := rfl
    rw [hexec, execPhotMapWrite, if_pos hn, hostWrite_done (writeReg_ring hp 64 hn _), loWord_setWidth, hslot]
  refine ⟨?_, fun h => ?_, fun h hv hf hfree => ?_, fun h hbad => ?_, fun k hk => ?_⟩
  · have hexec : exec (.photHeatWrite p.id n v) s = execPhotHeatWrite p.id n v s := rfl
    have hcode : bits v.toNat 11 0 = v.toNat % 4096 := by simp only [bits, Nat.pow_zero, Nat.div_one]; rfl
    rw [hexec, execPhotHeatWrite, if_pos hn, hostWrite_done (writeReg_heater hp 64 hn _), loWord_setWidth, hcode]
  · rw [hmap, moveRing_stays h]
    rfl
  · rw [hmap, moveRing_moves h hv hf hfree]
    rfl
  · rw [hmap, moveRing_refused h hbad]
    rfl
  · have hexec : exec (.photMpdSample k n) s = execPhotMpdSample k n s := rfl
    rw [hexec, execPhotMpdSample, if_pos ⟨hk, hn⟩]

/-! ### The host's window (R286) -/

/-- Register n of the physical function. -/
theorem bar0_register {n : Nat} (h : n < 4096) : bar0 (0x1000 + 8 * n) = .reg 64 n := by
  rw [bar0, if_pos (by omega), if_pos (by omega)]
  congr 1
  omega
/-- A virtual function's copies of 0x040 to 0x045. -/
theorem bar0_copy {f n : Nat} (hf : f < 64) (hn : n < 6) : bar0 (0x100000 + 0x1000 * f + 8 * n) = .reg f (0x040 + n) := by
  rw [bar0, if_neg (by omega), if_pos (by omega)]
  dsimp only
  rw [if_pos (by omega)]
  congr 1 <;> omega
/-- No register stands at another offset. -/
theorem bar0_ne_reg {off : Nat} (h : off % 8 ≠ 0 ∨ off < 0x1000 ∨ 0x140000 ≤ off ∨ (0x9000 ≤ off ∧ off < 0x100000)
    ∨ (0x100000 ≤ off ∧ 0x30 ≤ off % 0x1000)) (fn n : Nat) : bar0 off ≠ .reg fn n := by
  unfold bar0
  dsimp only
  split
  · rw [if_neg (by omega)]
    nofun
  · split
    · rw [if_neg (by omega)]
      nofun
    · split
      · nofun
      · split <;> nofun

theorem execSysregWrite_reg {off fn n : Nat} (h : bar0 off = .reg fn n) (part : Nat) (v : DWord) (s : State) :
    exec (.sysregWrite part off v) s = hostWrite part fn n v s := by
  have hexec : exec (.sysregWrite part off v) s = execSysregWrite part off v s := rfl
  rw [hexec, execSysregWrite, h]
theorem execSysregWrite_none {off : Nat} (h : ∀ fn n, bar0 off ≠ .reg fn n) (part : Nat) (v : DWord) (s : State) :
    exec (.sysregWrite part off v) s = .next s := by
  have hexec : exec (.sysregWrite part off v) s = execSysregWrite part off v s := rfl
  rw [hexec, execSysregWrite]
  cases hb : bar0 off with
  | reg fn n => exact absurd hb (h fn n)
  | _ => rfl
theorem hostRegRead_reg {off fn n : Nat} (h : bar0 off = .reg fn n) (s : State) (part : Nat) :
    hostRegRead s part off = some (readReg s (.host part fn) n) := by rw [hostRegRead, h]

/-- The host's reads and writes of registers through BAR 0 (R286). -/
theorem hostRegisterWrites : Rules.HostRegisterWrites := by
  intro s part v
  have hroot (fn : Nat) : hostWrite part fn 0x041 v s = .next (afterAll (s.setFn part fn fun f => { f with ptroot := loWord v })) :=
    hostWrite_done (writeReg_ptroot ..)
  refine ⟨fun n hn => ?_, fun f n hf hn => ?_, fun off h => execSysregWrite_none (bar0_ne_reg h) .., hroot, ?_⟩
  · exact ⟨execSysregWrite_reg (bar0_register hn) .., hostRegRead_reg (bar0_register hn) ..⟩
  · exact ⟨execSysregWrite_reg (bar0_copy hf hn) .., hostRegRead_reg (bar0_copy hf hn) ..⟩
  · rw [execSysregWrite_reg (bar0_register (by decide)), hroot]

/-! ### The group table (R293) -/

section
variable {s : State} {p : Partition} (hp : s.part? p.id = some p)
include hp

theorem collLoad_inUse (hu : groupInUse s p.id p.collGroup = true) : exec (.collLoad p.id) s = .next s := by
  have hexec : exec (.collLoad p.id) s = execCollLoad p.id s := rfl
  rw [hexec, execCollLoad, hp]
  simp only [hu, Bool.or_true, Bool.true_or, if_true]
theorem collClear_inUse (hu : groupInUse s p.id p.collGroup = true) : exec (.collClear p.id) s = .next s := by
  have hexec : exec (.collClear p.id) s = execCollClear p.id s := rfl
  rw [hexec, execCollClear, hp]
  simp only [hu, Bool.or_true, if_true]

variable (hb : p.collBusy = true) (hu : groupInUse s p.id p.collGroup = false)
include hb hu

/-- A clear removes the entry. -/
theorem collClear_removes (hc : p.collCmd = 2) : exec (.collClear p.id) s = .next (s.setPart p.id fun p =>
    { p with collBusy := false, collFail := false, groups := p.groups.filter (·.1 != p.collGroup) }) := by
  have hexec : exec (.collClear p.id) s = execCollClear p.id s := rfl
  rw [hexec, execCollClear, hp]
  simp only [hb, hc, hu, Bool.not_true, bne_self_eq_false, Bool.or_self, Bool.false_eq_true, if_false]

variable (hc : p.collCmd = 1) (hh : heldBack s [] p.id p.collFn p.collAddr.toNat 128 = false)
include hc hh

/-- A descriptor at an address that is no multiple of 64 fails. -/
theorem collLoad_misaligned (ha : p.collAddr.toNat % 64 ≠ 0) :
    exec (.collLoad p.id) s = .next (s.setPart p.id fun p => { p with collBusy := false, collFail := true }) := by
  have hexec : exec (.collLoad p.id) s = execCollLoad p.id s := rfl
  rw [hexec, execCollLoad, hp]
  simp only [hb, hc, hu, hh, Bool.not_true, bne_self_eq_false, Bool.or_self, Bool.false_eq_true, if_false, if_pos ha]

variable (ha : p.collAddr.toNat % 64 = 0) {bs : List Byte} (hr : homeRead s ⟨p.id, p.collFn, true⟩ p.collAddr.toNat .read 128 = .ok bs)
include ha hr

/-- A descriptor that does not keep its limits fails. -/
theorem collLoad_fails (hg : groupOf s.deviceNumber bs = none) :
    exec (.collLoad p.id) s = .next (s.setPart p.id fun p => { p with collBusy := false, collFail := true }) := by
  have hexec : exec (.collLoad p.id) s = execCollLoad p.id s := rfl
  rw [hexec, execCollLoad, hp]
  simp only [hb, hc, hu, hh, Bool.not_true, bne_self_eq_false, Bool.or_self, Bool.false_eq_true, if_false, if_neg (not_not.2 ha), hr, hg]
/-- A descriptor that keeps its limits is loaded. -/
theorem collLoad_loads {g : List Nat × Nat} (hg : groupOf s.deviceNumber bs = some g) :
    exec (.collLoad p.id) s = .next (s.setPart p.id fun p =>
      { p with collBusy := false, collFail := false, groups := (p.collGroup, g) :: p.groups.filter (·.1 != p.collGroup) }) := by
  have hexec : exec (.collLoad p.id) s = execCollLoad p.id s := rfl
  rw [hexec, execCollLoad, hp]
  simp only [hb, hc, hu, hh, Bool.not_true, bne_self_eq_false, Bool.or_self, Bool.false_eq_true, if_false, if_neg (not_not.2 ha), hr, hg]

end

/-- Loading and clearing an entry of the group table (R293). -/
theorem groupTable : Rules.GroupTable := fun _ _ hp hb =>
  ⟨fun hu => ⟨collLoad_inUse hp hu, collClear_inUse hp hu⟩, fun hu => ⟨collClear_removes hp hb hu, fun hc hh =>
    ⟨collLoad_misaligned hp hb hu hc hh, fun ha _ hr => ⟨collLoad_fails hp hb hu hc hh ha hr, fun _ => collLoad_loads hp hb hu hc hh ha hr⟩⟩⟩⟩

/-! ### The hotness log (R186) -/

/-- A counter that reaches HOT.THR is logged or dropped, and one below it stays (R186). -/
theorem hotness : Rules.Hotness := by
  intro s p port page src fn hp
  have hexec : exec (.hotThreshold port page src p.id fn) s = execHotThreshold port page src p.id fn s := rfl
  refine ⟨fun hcold => ?_, fun hthr hn => ⟨fun hfull => ?_, fun hroom hh u hw => ?_⟩⟩ <;> rw [hexec, execHotThreshold, hp] <;> dsimp only
  · rw [if_pos hcold]
  · rw [if_neg (not_or.2 ⟨hthr, not_lt.2 hn⟩), if_pos hfull]
  · rw [if_neg (not_or.2 ⟨hthr, not_lt.2 hn⟩), if_neg hroom, hh, if_neg Bool.false_ne_true, hw]

end Sys2Proof.Machine

namespace Sys2Proof.Proofs
open Sys2Proof.Machine

/-- Settles O47: the status words (`statusClears`), the host's writes (`partitionWrites`, `photonicWrites`, `hostRegisterWrites`), the
group table (`groupTable`) and the hotness log (`hotness`). -/
theorem registerEvents : Obligations.RegisterEvents :=
  ⟨statusClears, partitionWrites, photonicWrites, hostRegisterWrites, groupTable, hotness⟩

end Sys2Proof.Proofs

/-! SUPPORT. Proofs about exact values: the magnitudes of FP32 words over the rationals, and the rounding of an exact value to one of
the two neighbours in its format. -/

namespace Sys2Proof.Machine
open Rules

/-! ### Magnitudes -/

/-- The magnitude of a fraction scaled by a power of two. -/
def magnitude (n d : Nat) (e : Int) : Rat := (n : Rat) / d * (2 : Rat) ^ e

theorem magnitude_pos {n d : Nat} (hn : 0 < n) (hd : 0 < d) (e : Int) : 0 < magnitude n d e := by
  unfold magnitude
  positivity
theorem magnitude_nonneg (n d : Nat) (e : Int) : 0 ≤ magnitude n d e := by
  unfold magnitude
  positivity
@[simp] theorem magnitude_zero (d : Nat) (e : Int) : magnitude 0 d e = 0 := by simp [magnitude]

/-- The word whose fraction, with its hidden bit, is a, j units above the subnormal numbers (R133); a may be the next power of two. -/
theorem mag_scaled {j a : Nat} (hj : j = 0 ∨ 2 ^ 23 ≤ a) (ha : a ≤ 2 ^ 24) :
    mag (j * 2 ^ 23 + a) = a * (2 : Rat) ^ ((j : Int) - 149) := by
  have hpow : (2 : Rat) ^ ((j : Int) - 149) = 2 ^ j / 2 ^ 149 := by
    rw [zpow_sub₀ two_ne_zero, zpow_natCast]
    rfl
  rw [hpow]
  by_cases hsub : a < 2 ^ 23
  · obtain rfl : j = 0 := by omega
    rw [mag, if_pos (by omega), zero_mul, zero_add]
    ring
  · rw [mag, if_neg (by omega)]
    by_cases hlast : a < 2 ^ 24
    · have hdiv : (j * 2 ^ 23 + a) / 2 ^ 23 = j + 1 := by omega
      have hmod : 2 ^ 23 + (j * 2 ^ 23 + a) % 2 ^ 23 = a := by omega
      rw [hdiv, hmod]
      ring
    · obtain rfl : a = 2 ^ 24 := by omega
      have hdiv : (j * 2 ^ 23 + 2 ^ 24) / 2 ^ 23 = j + 2 := by omega
      have hmod : 2 ^ 23 + (j * 2 ^ 23 + 2 ^ 24) % 2 ^ 23 = 2 ^ 23 := by omega
      rw [hdiv, hmod]
      push_cast
      ring

/-- A word and the next one are a whole number of units from zero, one unit from each other. -/
theorem mag_units (k : Nat) : ∃ (a : Nat) (q : Int), a < 2 ^ 24 ∧ mag k = a * (2 : Rat) ^ q ∧ mag (k + 1) = (a + 1 : Nat) * (2 : Rat) ^ q := by
  obtain ⟨a, hk, hj, ha⟩ : ∃ a, k = (k / 2 ^ 23 - 1) * 2 ^ 23 + a ∧ (k / 2 ^ 23 - 1 = 0 ∨ 2 ^ 23 ≤ a) ∧ a < 2 ^ 24 :=
    ⟨k - (k / 2 ^ 23 - 1) * 2 ^ 23, by omega, by omega, by omega⟩
  generalize k / 2 ^ 23 - 1 = j at hk hj
  rw [hk, add_assoc]
  exact ⟨a, _, ha, mag_scaled hj ha.le, mag_scaled (by omega) ha⟩
theorem mag_strictMono : StrictMono mag := strictMono_nat_of_lt_succ fun k => by
  obtain ⟨a, q, -, h1, h2⟩ := mag_units k
  rw [h1, h2]
  gcongr
  exact Nat.lt_succ_self a

/-- A whole number of units is a whole number of smaller ones. -/
theorem exists_mul_pow {h q : Int} (hq : h ≤ q) (a : Nat) : ∃ b : Nat, (a : Rat) * 2 ^ q = b * 2 ^ h := by
  obtain ⟨i, hi⟩ := Int.eq_ofNat_of_zero_le (show 0 ≤ q - h by omega)
  refine ⟨a * 2 ^ i, ?_⟩
  rw [Nat.cast_mul, Nat.cast_pow, Nat.cast_ofNat, ← zpow_natCast, mul_assoc, ← zpow_add₀ two_ne_zero]
  congr 2
  omega
/-- A large magnitude is a whole number of units 2^h. -/
theorem mag_multiple {k : Nat} {h : Int} (hk : 2 ^ 23 * (2 : Rat) ^ h ≤ mag k) : ∃ b : Nat, mag k = b * (2 : Rat) ^ h := by
  obtain ⟨a, q, ha, h1, -⟩ := mag_units k
  rw [h1] at hk ⊢
  refine exists_mul_pow ?_ a
  have ha' : (a : Rat) < 2 ^ 24 := by exact_mod_cast ha
  have hlt : (2 : Rat) ^ h < 2 ^ (q + 1) := by
    have hpos : (0 : Rat) < 2 ^ q := by positivity
    rw [zpow_add₀ two_ne_zero, zpow_one]
    nlinarith
  have := (zpow_lt_zpow_iff_right₀ one_lt_two).1 hlt
  omega
/-- So is the one before it. -/
theorem mag_multiple_pair {k : Nat} {h : Int} (hk : 2 ^ 24 * (2 : Rat) ^ h ≤ mag (k + 1)) :
    (∃ b : Nat, mag k = b * (2 : Rat) ^ h) ∧ ∃ b : Nat, mag (k + 1) = b * (2 : Rat) ^ h := by
  obtain ⟨a, q, ha, h1, h2⟩ := mag_units k
  rw [h2] at hk
  rw [h1, h2]
  have ha' : ((a + 1 : Nat) : Rat) ≤ 2 ^ 24 := by exact_mod_cast ha
  have hle : (2 : Rat) ^ h ≤ 2 ^ q := by
    have hpos : (0 : Rat) < 2 ^ q := by positivity
    nlinarith
  have hq := (zpow_le_zpow_iff_right₀ one_lt_two).1 hle
  exact ⟨exists_mul_pow hq a, exists_mul_pow hq (a + 1)⟩
@[simp] theorem mag_zero : mag 0 = 0 := by norm_num [mag]
theorem mag_nonneg (k : Nat) : 0 ≤ mag k := mag_zero ▸ mag_strictMono.monotone (Nat.zero_le k)
theorem mag_pos {k : Nat} (h : 0 < k) : 0 < mag k := mag_zero ▸ mag_strictMono h
/-- The word of a normal power of two. -/
theorem mag_pow {n : Nat} (hn : 0 < n) : mag (n * 2 ^ 23) = (2 : Rat) ^ ((n : Int) - 127) := by
  obtain ⟨j, rfl⟩ : ∃ j, n = j + 1 := ⟨n - 1, by omega⟩
  rw [add_mul, one_mul, mag_scaled (Or.inr le_rfl) (by norm_num), Nat.cast_pow, Nat.cast_ofNat, ← zpow_natCast, ← zpow_add₀ two_ne_zero]
  congr 1
  push_cast
  ring
theorem mag_inf31 : mag inf31 = (2 : Rat) ^ 128 := by
  have h := mag_pow (n := 255) (by decide)
  exact h.trans (by norm_num)
theorem mag_normal : mag (2 ^ 23) = 1 / (2 : Rat) ^ 126 := by
  have h := mag_pow (n := 1) (by decide)
  rw [one_mul] at h
  exact h.trans (by norm_num [zpow_neg])

/-- Two words that hold a value between them and their next ones are one. -/
theorem mag_between_unique {k l step : Nat} {x : Rat} (hk : mag k ≤ x) (hk' : x < mag (k + step)) (hl : mag l ≤ x) (hl' : x < mag (l + step))
    (hks : step ∣ k) (hls : step ∣ l) : k = l := by
  have h1 : k < l + step := mag_strictMono.lt_iff_lt.1 (hk.trans_lt hl')
  have h2 : l < k + step := mag_strictMono.lt_iff_lt.1 (hl.trans_lt hk')
  obtain ⟨a, rfl⟩ := hks
  obtain ⟨b, rfl⟩ := hls
  have h1' : a < b + 1 := Nat.lt_of_mul_lt_mul_left (a := step) (by rw [mul_add, mul_one]; exact h1)
  have h2' : b < a + 1 := Nat.lt_of_mul_lt_mul_left (a := step) (by rw [mul_add, mul_one]; exact h2)
  rw [show a = b by omega]

/-! ### Fractions and their logarithm -/

theorem frac_den_pos {d : Nat} (hd : 0 < d) (n : Nat) (e : Int) : 0 < (frac n d e).2 := by
  unfold frac
  split
  · exact hd
  · positivity
theorem frac_num_pos {n : Nat} (hn : 0 < n) (d : Nat) (e : Int) : 0 < (frac n d e).1 := by
  unfold frac
  split
  · positivity
  · exact hn
/-- A fraction of naturals has the magnitude. -/
theorem frac_eq (n d : Nat) (e : Int) : ((frac n d e).1 : Rat) / (frac n d e).2 = magnitude n d e := by
  unfold frac magnitude
  split
  next he =>
    obtain ⟨m, rfl⟩ := Int.eq_ofNat_of_zero_le he
    simp only [Int.toNat_natCast, zpow_natCast]
    push_cast
    ring
  next he =>
    obtain ⟨m, hm⟩ := Int.eq_ofNat_of_zero_le (show 0 ≤ -e by omega)
    rw [show e = -(m : Int) by omega]
    simp only [neg_neg, Int.toNat_natCast, zpow_neg, zpow_natCast]
    push_cast
    rw [div_mul_eq_div_div, div_eq_mul_inv]

/-- A fraction is compared with a power of two. -/
theorem lt_pow_iff {n d : Nat} (hd : 0 < d) (k : Int) :
    (if 0 ≤ k then decide (n < d * 2 ^ k.toNat) else decide (n * 2 ^ (-k).toNat < d)) = decide ((n : Rat) / d < (2 : Rat) ^ k) := by
  have hd' : (0 : Rat) < d := by exact_mod_cast hd
  split
  next hk =>
    obtain ⟨m, rfl⟩ := Int.eq_ofNat_of_zero_le hk
    rw [decide_eq_decide, Int.toNat_natCast, zpow_natCast, div_lt_iff₀ hd', mul_comm d]
    exact_mod_cast Iff.rfl
  next hk =>
    obtain ⟨m, hm⟩ := Int.eq_ofNat_of_zero_le (show 0 ≤ -k by omega)
    rw [show k = -(m : Int) by omega, decide_eq_decide, neg_neg, Int.toNat_natCast, zpow_neg, zpow_natCast, div_lt_iff₀ hd',
      inv_mul_eq_div, lt_div_iff₀ (by positivity)]
    exact_mod_cast Iff.rfl

/-- The floor of the binary logarithm. -/
theorem flog_spec {n d : Nat} (hn : 0 < n) (hd : 0 < d) :
    (2 : Rat) ^ flog n d ≤ (n : Rat) / d ∧ (n : Rat) / d < (2 : Rat) ^ (flog n d + 1) := by
  have hd' : (0 : Rat) < d := by exact_mod_cast hd
  have hn1 : (2 : Rat) ^ Nat.log2 n ≤ n := by exact_mod_cast Nat.log2_self_le hn.ne'
  have hn2 : (n : Rat) < 2 ^ (Nat.log2 n + 1) := by exact_mod_cast Nat.lt_log2_self
  have hd1 : (2 : Rat) ^ Nat.log2 d ≤ d := by exact_mod_cast Nat.log2_self_le hd.ne'
  have hd2 : (d : Rat) < 2 ^ (Nat.log2 d + 1) := by exact_mod_cast Nat.lt_log2_self
  have hflog : flog n d = if (n : Rat) / d < (2 : Rat) ^ ((Nat.log2 n : Int) - Nat.log2 d) then (Nat.log2 n : Int) - Nat.log2 d - 1
      else (Nat.log2 n : Int) - Nat.log2 d := by
    unfold flog
    dsimp only
    rw [lt_pow_iff hd]
    simp only [decide_eq_true_eq]
  have hlow : (2 : Rat) ^ ((Nat.log2 n : Int) - Nat.log2 d - 1) ≤ (n : Rat) / d := by
    rw [le_div_iff₀ hd', zpow_sub₀ two_ne_zero, zpow_sub₀ two_ne_zero, zpow_natCast, zpow_natCast, zpow_one]
    calc (2 : Rat) ^ Nat.log2 n / 2 ^ Nat.log2 d / 2 * d ≤ 2 ^ Nat.log2 n / 2 ^ Nat.log2 d / 2 * 2 ^ (Nat.log2 d + 1) := by gcongr
      _ = 2 ^ Nat.log2 n := by field_simp; ring
      _ ≤ n := hn1
  have hhigh : (n : Rat) / d < (2 : Rat) ^ ((Nat.log2 n : Int) - Nat.log2 d + 1) := by
    rw [div_lt_iff₀ hd', zpow_add₀ two_ne_zero, zpow_sub₀ two_ne_zero, zpow_natCast, zpow_natCast, zpow_one]
    calc (n : Rat) < 2 ^ (Nat.log2 n + 1) := hn2
      _ = 2 ^ Nat.log2 n / 2 ^ Nat.log2 d * 2 * 2 ^ Nat.log2 d := by field_simp; ring
      _ ≤ 2 ^ Nat.log2 n / 2 ^ Nat.log2 d * 2 * d := by gcongr
  rw [hflog]
  split
  next h => exact ⟨hlow, by rwa [sub_add_cancel]⟩
  next h => exact ⟨not_lt.1 h, hhigh⟩

/-! ### The neighbours of an exact value -/

/-- A format whose bits, moved up by sh places, are those of FP32 (R133, R134). -/
structure Fmt.Widens (f : Fmt) (sh : Nat) : Prop where
  precision : f.p + sh = 24
  hidden : 0 < f.p
  lowest : f.low = (sh : Int) - 149
  infinity : f.inf * 2 ^ sh = inf31
  top : f.sign * 2 ^ sh = 2 ^ 31
  quiet : f.nan * 2 ^ sh = 0x7FC00000

theorem fp32_widens : fp32.Widens 0 := ⟨rfl, by decide, rfl, rfl, rfl, rfl⟩
theorem bf16_widens : bf16.Widens 16 := ⟨rfl, by decide, rfl, rfl, rfl, rfl⟩

/-- The bits of a format, j units above its subnormal numbers. -/
theorem Fmt.Widens.mag_eq {f : Fmt} {sh : Nat} (hf : f.Widens sh) {q : Int} {a : Nat} (hq : f.low ≤ q)
    (hn : q = f.low ∨ 2 ^ (f.p - 1) ≤ a) (ha : a ≤ 2 ^ f.p) :
    mag (((q - f.low).toNat * 2 ^ (f.p - 1) + a) * 2 ^ sh) = a * (2 : Rat) ^ q := by
  obtain ⟨hp, hh, hl, -, -, -⟩ := hf
  have h23 : 2 ^ (f.p - 1) * 2 ^ sh = 2 ^ 23 := by rw [← pow_add]; congr 1; omega
  have h24 : 2 ^ f.p * 2 ^ sh = 2 ^ 24 := by rw [← pow_add]; congr 1
  rw [add_mul, mul_assoc, h23, mag_scaled]
  · rw [Nat.cast_mul, Nat.cast_pow, Nat.cast_ofNat, ← zpow_natCast, mul_assoc, ← zpow_add₀ two_ne_zero]
    congr 2
    omega
  · exact hn.imp (fun h => by omega) fun h => h23 ▸ Nat.mul_le_mul_right _ h
  · exact h24 ▸ Nat.mul_le_mul_right _ ha

/-- The floor of a format: the neighbour nearer zero, how far the value lies beyond it, and whether it lies below the normal numbers. -/
theorem Fmt.Widens.floor_spec {f : Fmt} {sh : Nat} (hf : f.Widens sh) {n d : Nat} (hn : 0 < n) (hd : 0 < d) (e : Int) {b r d' : Nat} {tiny : Bool}
    (h : f.floor n d e = (b, r, d', tiny)) :
    r < d' ∧ magnitude n d e = mag (b * 2 ^ sh) + (r : Rat) / d' * (mag (b * 2 ^ sh + 2 ^ sh) - mag (b * 2 ^ sh))
    ∧ tiny = decide (magnitude n d e < 1 / (2 : Rat) ^ 126) := by
  have hx1 := frac_num_pos hn d e
  have hx2 := frac_den_pos hd n e
  obtain ⟨hlow, hhigh⟩ := flog_spec hx1 hx2
  rw [frac_eq] at hlow hhigh
  unfold Fmt.floor at h
  dsimp only at h
  rw [if_neg hx1.ne'] at h
  generalize flog (frac n d e).1 (frac n d e).2 = k at h hlow hhigh
  generalize hq : max (k - f.p + 1) f.low = q at h
  have hql : f.low ≤ q := hq ▸ le_max_right _ _
  have hd' := frac_den_pos hd n (e - q)
  have hy : ((frac n d (e - q)).1 : Rat) / (frac n d (e - q)).2 * 2 ^ q = magnitude n d e := by
    rw [frac_eq, magnitude, magnitude, mul_assoc, ← zpow_add₀ two_ne_zero, sub_add_cancel]
  generalize (frac n d (e - q)).1 = m at h hy
  generalize (frac n d (e - q)).2 = l at h hy hd'
  obtain ⟨rfl, rfl, rfl, rfl⟩ : _ ∧ _ ∧ _ ∧ _ := by simpa only [Prod.mk.injEq] using h
  have hl : (0 : Rat) < l := by exact_mod_cast hd'
  have hq0 : (0 : Rat) < 2 ^ q := by positivity
  have hsplit : (m : Rat) / l = (m / l : Nat) + ((m % l : Nat) : Rat) / l := by
    have hdm : (m : Rat) = (l : Rat) * (m / l : Nat) + (m % l : Nat) := by exact_mod_cast (Nat.div_add_mod m l).symm
    rw [hdm, add_div, mul_div_cancel_left₀ _ hl.ne']
  have htop : m / l < 2 ^ f.p := by
    rw [Nat.div_lt_iff_lt_mul hd', ← Nat.cast_lt (α := Rat), Nat.cast_mul, ← div_lt_iff₀ hl, ← mul_lt_mul_iff_left₀ hq0, hy]
    refine hhigh.trans_le ?_
    rw [Nat.cast_pow, Nat.cast_ofNat, ← zpow_natCast, ← zpow_add₀ two_ne_zero]
    exact zpow_le_zpow_right₀ one_le_two (by omega)
  have hnormal : q = f.low ∨ 2 ^ (f.p - 1) ≤ m / l := by
    rcases le_or_gt q f.low with hle | hlt
    · exact .inl (by omega)
    · right
      rw [Nat.le_div_iff_mul_le hd', ← Nat.cast_le (α := Rat), Nat.cast_mul, ← le_div_iff₀ hl, ← mul_le_mul_iff_left₀ hq0, hy]
      refine le_trans (le_of_eq ?_) hlow
      rw [Nat.cast_pow, Nat.cast_ofNat, ← zpow_natCast, ← zpow_add₀ two_ne_zero]
      congr 1
      have := hf.hidden
      omega
  have hb := hf.mag_eq hql hnormal htop.le
  have hb' := hf.mag_eq hql (hnormal.imp_right fun h => h.trans (Nat.le_succ _)) htop
  rw [Nat.succ_eq_add_one, ← add_assoc, add_mul _ 1, one_mul] at hb'
  refine ⟨Nat.mod_lt _ hd', ?_, ?_⟩
  · rw [hb, hb', ← hy, hsplit]
    push_cast
    ring
  · rw [decide_eq_decide]
    have h126 : (1 : Rat) / 2 ^ 126 = 2 ^ (-126 : Int) := by norm_num
    have hk : k < f.low + f.p - 1 ↔ k < -126 := by
      have h1 := hf.lowest
      have h2 := hf.precision
      omega
    rw [hk, h126]
    constructor
    · exact fun h => hhigh.trans_le (zpow_le_zpow_right₀ one_le_two (by omega))
    · exact fun h => (zpow_lt_zpow_iff_right₀ one_lt_two).1 (hlow.trans_lt h)

/-- The floor of a format is the neighbour nearer zero, and nothing is left where the value is that neighbour. -/
theorem Fmt.Widens.floor_bounds {f : Fmt} {sh : Nat} (hf : f.Widens sh) {n d : Nat} (hn : 0 < n) (hd : 0 < d) (e : Int) {b r d' : Nat} {tiny : Bool}
    (h : f.floor n d e = (b, r, d', tiny)) :
    mag (b * 2 ^ sh) ≤ magnitude n d e ∧ magnitude n d e < mag (b * 2 ^ sh + 2 ^ sh) ∧ (magnitude n d e = mag (b * 2 ^ sh) ↔ r = 0) := by
  obtain ⟨hrd, hx, -⟩ := hf.floor_spec hn hd e h
  have hd' : (0 : Rat) < d' := by exact_mod_cast (show 0 < d' by omega)
  have hw : 0 < mag (b * 2 ^ sh + 2 ^ sh) - mag (b * 2 ^ sh) := sub_pos.2 (mag_strictMono (Nat.lt_add_of_pos_right (by positivity)))
  have hlt : (r : Rat) / d' < 1 := (div_lt_one hd').2 (by exact_mod_cast hrd)
  refine ⟨?_, ?_, ?_⟩
  · rw [hx]
    exact le_add_of_nonneg_right (by positivity)
  · rw [hx]
    nlinarith
  · rw [hx, add_eq_left, mul_eq_zero, or_iff_left hw.ne', div_eq_zero_iff, or_iff_left hd'.ne', Nat.cast_eq_zero]

/-! ### Rounding -/

/-- A draw is compared with a fraction (R151). -/
theorem uniform_lt_iff (r : Nat) {d : Nat} (hd : 0 < d) (w : Word) : uniform w < (r : Rat) / d ↔ (2 * (w.toNat / 256) + 1) * d < r * 2 ^ 25 := by
  have hd' : (0 : Rat) < d := by exact_mod_cast hd
  have hu : uniform w = ((2 * (w.toNat / 256) + 1 : Nat) : Rat) / 2 ^ 25 := by
    rw [uniform]
    push_cast
    ring
  rw [hu, div_lt_div_iff₀ (by positivity) hd']
  exact_mod_cast Iff.rfl

/-- The rounding goes to the far neighbour by the share of the way that the value lies from the near one (R135, R136). -/
theorem goesFar_iff {r d : Nat} (hr : 0 < r) (hd : 0 < d) (m : RndMode) (neg odd : Bool) (w : Word) :
    goesFar m neg odd r d w = true ↔ Away m (uniform w) ((r : Rat) / d) neg odd := by
  have hd' : (0 : Rat) < d := by exact_mod_cast hd
  have hhalf : 1 / 2 < (r : Rat) / d ↔ d < 2 * r := by
    rw [div_lt_div_iff₀ two_pos hd', one_mul, mul_comm]
    exact_mod_cast Iff.rfl
  have htie : (r : Rat) / d = 1 / 2 ↔ 2 * r = d := by
    rw [div_eq_div_iff hd'.ne' two_ne_zero, one_mul, mul_comm]
    exact_mod_cast Iff.rfl
  cases m with
  | none | rne => simp only [goesFar, Away, Bool.or_eq_true, Bool.and_eq_true, decide_eq_true_eq, hhalf, htie]
  | rz => simp [goesFar, Away]
  | dn | up => simp [goesFar, Away, hr]
  | sr => simp only [goesFar, Away, decide_eq_true_eq, uniform_lt_iff r hd w]

/-- The mode in which a magnitude with the near neighbour b is rounded (R137). -/
def Fmt.modeAt (f : Fmt) (vec : Bool) (m : RndMode) (b : Nat) : RndMode := if vec && f.p == 8 && b == 0 then .sr else m

/-- A nonzero value is rounded to one of its two neighbours, or overflows (R135, R136, R319). -/
theorem Fmt.round_fin {f : Fmt} {n d : Nat} (hn : 0 < n) {e : Int} {b r d' : Nat} {tiny : Bool} (h : f.floor n d e = (b, r, d', tiny))
    (m : RndMode) (w : Word) (vec neg : Bool) : f.round m w vec (.fin neg n d e) =
      let sg := if neg then f.sign else 0
      let m := f.modeAt vec m b
      let b' := if r ≠ 0 ∧ goesFar m neg (b % 2 == 1) r d' w then b + 1 else b
      if f.inf ≤ b' then (sg + f.over m neg, stOF ||| stIX)
      else (sg + b', if r = 0 then 0 else stIX ||| (if tiny then stUF else 0)) := by
  unfold Fmt.round
  dsimp only
  rw [if_neg hn.ne', h]
  dsimp only
  by_cases hr : r = 0
  · simp only [hr, if_true, ne_eq, not_true_eq_false, false_and, if_false]
    rfl
  · simp only [hr, if_false, ne_eq, not_false_eq_true, true_and]
    rfl

/-- A direction that goes to the far neighbour overflows to the infinity. -/
theorem Fmt.over_of_goesFar {f : Fmt} {m : RndMode} {neg odd : Bool} {r d : Nat} {w : Word} (h : goesFar m neg odd r d w = true) : f.over m neg = f.inf := by
  cases m with
  | none | rne | sr => rfl
  | rz => simp [goesFar] at h
  | dn | up =>
    cases neg <;> simp_all [goesFar, Fmt.over]

section
variable {f : Fmt} {sh : Nat} (hf : f.Widens sh)
include hf

theorem Fmt.Widens.inf_pos : 0 < f.inf := Nat.pos_of_mul_pos_right (b := 2 ^ sh) (hf.infinity ▸ by decide)
theorem Fmt.Widens.signed_mul (neg : Bool) (b : Nat) : ((if neg then f.sign else 0) + b) * 2 ^ sh = (if neg then 2 ^ 31 else 0) + b * 2 ^ sh := by
  rw [add_mul, ite_mul, hf.top, zero_mul]
theorem Fmt.Widens.over_mul (m : RndMode) (neg : Bool) : f.over m neg * 2 ^ sh = overflowed (2 ^ sh) m neg := by
  cases m <;> cases neg <;> simp [Fmt.over, overflowed, Nat.sub_mul, hf.infinity]

/-- A nonzero value is rounded as R133 to R137 and R319 say. -/
theorem Fmt.Widens.rounded {n d : Nat} (hn : 0 < n) (hd : 0 < d) (e : Int) (m : RndMode) (w : Word) {vec : Bool} (hv : vec = true → f.p = 8) (neg : Bool) :
    Rounded (2 ^ sh) vec m (uniform w) neg (magnitude n d e) ((f.round m w vec (.fin neg n d e)).1 * 2 ^ sh) (f.round m w vec (.fin neg n d e)).2 := by
  obtain ⟨b, r, d', tiny, hfloor⟩ : ∃ b r d' tiny, f.floor n d e = (b, r, d', tiny) := ⟨_, _, _, _, rfl⟩
  obtain ⟨hrd, hx, rfl⟩ := hf.floor_spec hn hd e hfloor
  obtain ⟨hlow, hhigh, hexact⟩ := hf.floor_bounds hn hd e hfloor
  rw [Fmt.round_fin hn hfloor]
  dsimp only
  generalize magnitude n d e = x at hx hlow hhigh hexact
  have hinf := hf.inf_pos
  have hw : 0 < mag (b * 2 ^ sh + 2 ^ sh) - mag (b * 2 ^ sh) := sub_pos.2 (mag_strictMono (Nat.lt_add_of_pos_right (by positivity)))
  have hshare : (x - mag (b * 2 ^ sh)) / (mag (b * 2 ^ sh + 2 ^ sh) - mag (b * 2 ^ sh)) = (r : Rat) / d' := by
    rw [hx, add_sub_cancel_left, mul_div_cancel_right₀ _ hw.ne']
  refine ⟨fun hbig => ?_, fun k hks hk hkx hkx' => ?_⟩
  · have hb : f.inf ≤ b := by
      rw [← mag_inf31, ← hf.infinity] at hbig
      have hlt := mag_strictMono.lt_iff_lt.1 (hbig.trans_lt hhigh)
      rw [← Nat.succ_mul] at hlt
      exact Nat.le_of_lt_succ (Nat.lt_of_mul_lt_mul_right hlt)
    have hmode : f.modeAt vec m b = m := by
      have hb0 : (b == 0) = false := by simpa using (show b ≠ 0 by omega)
      rw [Fmt.modeAt, hb0, Bool.and_false]
      rfl
    rw [hmode, if_pos (by split <;> omega), hf.signed_mul, hf.over_mul]
    exact ⟨rfl, rfl⟩
  · obtain rfl : k = b * 2 ^ sh :=
      mag_between_unique hkx hkx' hlow hhigh (Nat.dvd_of_mod_eq_zero hks) (Nat.dvd_mul_left ..)
    have hb : b < f.inf := by
      rw [← hf.infinity] at hk
      exact Nat.lt_of_mul_lt_mul_right hk
    have hmode : (if vec = true ∧ b * 2 ^ sh = 0 then RndMode.sr else m) = f.modeAt vec m b := by
      have hb0 : b * 2 ^ sh = 0 ↔ b = 0 := by simp
      simp only [hb0, Fmt.modeAt]
      cases vec with
      | false => rfl
      | true => simp [hv rfl]
    have hodd : (b * 2 ^ sh / 2 ^ sh % 2 == 1) = (b % 2 == 1) := by rw [Nat.mul_div_cancel _ (by positivity)]
    unfold RoundedAt
    dsimp only
    rw [hmode, hodd, hshare]
    refine ⟨fun heq => ?_, fun hgt => ?_⟩
    · have hr := hexact.1 heq
      simp only [hr, ne_eq, not_true_eq_false, false_and, if_false, if_true, if_neg (show ¬ f.inf ≤ b by omega), hf.signed_mul, and_self]
    · have hr : r ≠ 0 := fun h => hgt.ne' (hexact.2 h)
      have haway := goesFar_iff (Nat.pos_of_ne_zero hr) (show 0 < d' by omega) (f.modeAt vec m b) neg (b % 2 == 1) w
      rw [← haway]
      simp only [hr, ne_eq, not_false_eq_true, true_and, if_false, decide_eq_true_eq]
      refine ⟨fun hfar => ?_, fun hnear => ?_⟩
      · rw [if_pos hfar]
        have hstep : b * 2 ^ sh + 2 ^ sh = (b + 1) * 2 ^ sh := (Nat.succ_mul ..).symm
        have hlast : (b + 1) * 2 ^ sh = inf31 ↔ b + 1 = f.inf := by rw [← hf.infinity, Nat.mul_left_inj (by positivity)]
        rw [hstep]
        by_cases hover : b + 1 = f.inf
        · have hnormal : ¬ x < 1 / 2 ^ 126 := by
            rw [not_lt, ← mag_normal]
            refine le_trans (mag_strictMono.monotone ?_) hlow
            have hsmall : 2 ^ sh ≤ 2 ^ 23 := Nat.pow_le_pow_right two_pos (by have := hf.precision; have := hf.hidden; omega)
            have hlast' := hlast.2 hover
            rw [← hstep, inf31] at hlast'
            omega
          rw [if_pos hover.ge, if_neg hnormal, if_pos (hlast.2 hover), hf.signed_mul, Fmt.over_of_goesFar hfar, hover]
          exact ⟨rfl, rfl⟩
        · rw [if_neg (by omega), if_neg (fun h => hover (hlast.1 h)), hf.signed_mul]
          exact ⟨rfl, by simp⟩
      · rw [if_neg hnear, if_neg (by omega), hf.signed_mul]
        exact ⟨rfl, rfl⟩

end

end Sys2Proof.Machine

/-! SUPPORT. Proofs about exact values: sums and products of operands as the terms of an exact sum. -/

namespace Sys2Proof.Machine
open Rules

/-! ### Exact values as terms of a sum -/

/-- An exact value is what the terms say: none for a NaN, which signals where sig is set; else one term. -/
inductive Stands : Ex → Bool → Bool → List (Bool × Option Rat) → Prop
  | nan (sig : Bool) : Stands (.nan sig) true sig []
  | inf (neg : Bool) : Stands (.inf neg) false false [(neg, none)]
  | fin (neg : Bool) (n : Nat) {d : Nat} (e : Int) (hd : 0 < d) : Stands (.fin neg n d e) false false [(neg, some (magnitude n d e))]

/-- The exact sum of terms, as Narrows has it: it is invalid where infinities of both signs are among them. -/
def clashes (ts : List (Bool × Option Rat)) : Bool := ts.contains (true, none) && ts.contains (false, none)
def exactSum (ts : List (Bool × Option Rat)) : Rat := ts.foldl (fun s t => s + signed t.1 (t.2.getD 0)) (0 : Rat)
/-- The sign of an exact zero sum (R133, R319). -/
def zeroSign (m : RndMode) (ts : List (Bool × Option Rat)) : Bool := ts.all (· == (true, some 0)) || (m == .dn && !ts.all (· == (false, some 0)))

/-- An exact value is the sum of the terms, in a mode; nan and sig say of NaN operands and invalid operations what Stands says. -/
structure Sums (m : RndMode) (nan sig : Bool) (ts : List (Bool × Option Rat)) (x : Ex) : Prop where
  invalid : (clashes ts || nan) = true → x = .nan (clashes ts || sig)
  infinite : (clashes ts || nan) = false → ∀ neg, (neg, none) ∈ ts → x = .inf neg
  finite : (clashes ts || nan) = false → ts.all (·.2.isSome) = true →
    ∃ neg n d e, 0 < d ∧ x = .fin neg n d e ∧ signed neg (magnitude n d e) = exactSum ts ∧ (exactSum ts = 0 → neg = zeroSign m ts)

theorem narrows_iff (step : Nat) (vec : Bool) (m : RndMode) (u : Rat) (ops : List Word) (bad : Bool) (ts : List (Bool × Option Rat)) (r : Nat) (st : Word) :
    Narrows step vec m u ops bad ts r st ↔
    ((bad || clashes ts || ops.any NaN) = true → r = 0x7FC00000 ∧ st = if bad || clashes ts || ops.any Signals then stNV else 0)
    ∧ ((bad || clashes ts || ops.any NaN) = false →
      (∀ neg, (neg, none) ∈ ts → r = (if neg then 2 ^ 31 else 0) + inf31 ∧ st = 0)
      ∧ (ts.all (·.2.isSome) = true →
        (exactSum ts = 0 → r = (if zeroSign m ts then 2 ^ 31 else 0) ∧ st = 0)
        ∧ (exactSum ts ≠ 0 → Rounded step vec m u (decide (exactSum ts < 0)) (if exactSum ts < 0 then -exactSum ts else exactSum ts) r st))) := Iff.rfl

theorem signed_eq_zero {neg : Bool} {q : Rat} : signed neg q = 0 ↔ q = 0 := by cases neg <;> simp [signed]
theorem signed_neg_iff {neg : Bool} {q : Rat} (hq : 0 < q) : signed neg q < 0 ↔ neg = true := by cases neg <;> simp [signed, hq, hq.le]
theorem abs_signed {neg : Bool} {q : Rat} (hq : 0 < q) : (if signed neg q < 0 then -signed neg q else signed neg q) = q := by
  cases neg <;> simp [signed, hq, hq.le]
theorem magnitude_eq_zero {n d : Nat} (hd : 0 < d) {e : Int} : magnitude n d e = 0 ↔ n = 0 :=
  ⟨fun h => by_contra fun hn => (magnitude_pos (Nat.pos_of_ne_zero hn) hd e).ne' h, fun h => h ▸ magnitude_zero d e⟩

/-- A sum of terms is narrowed into a format as R318, R319 and R322 say. -/
theorem Fmt.Widens.narrows {f : Fmt} {sh : Nat} (hf : f.Widens sh) {vec : Bool} (hv : vec = true → f.p = 8) {m : RndMode} {ops : List Word} {bad nan sig : Bool}
    {ts : List (Bool × Option Rat)} {x : Ex} (h : Sums m nan sig ts x) (hnan : nan = (bad || ops.any NaN)) (hsig : sig = (bad || ops.any Signals)) (w : Word) :
    Narrows (2 ^ sh) vec m (uniform w) ops bad ts ((f.round m w vec x).1 * 2 ^ sh) (f.round m w vec x).2 := by
  obtain ⟨hinvalid, hinf, hfin⟩ := h
  have hflag (b : Bool) : (bad || clashes ts || b) = (clashes ts || (bad || b)) := by rw [Bool.or_comm bad, Bool.or_assoc]
  rw [narrows_iff, hflag, hflag, ← hnan, ← hsig]
  refine ⟨fun hn => ?_, fun hn => ⟨fun neg hneg => ?_, fun hall => ?_⟩⟩
  · rw [hinvalid hn]
    exact ⟨hf.quiet, rfl⟩
  · rw [hinf hn neg hneg, Fmt.round, hf.signed_mul, hf.infinity]
    exact ⟨rfl, rfl⟩
  · obtain ⟨neg, n, d, e, hd, rfl, hsum, hzero⟩ := hfin hn hall
    rcases Nat.eq_zero_or_pos n with rfl | hn0
    · have hsum0 : exactSum ts = 0 := by rw [← hsum, magnitude_zero, signed_eq_zero.2 rfl]
      have hsign := hf.signed_mul neg 0
      refine ⟨fun _ => ?_, fun h => absurd hsum0 h⟩
      rw [Fmt.round, if_pos rfl, ← hzero hsum0]
      exact ⟨by simpa using hsign, rfl⟩
    · have hq := magnitude_pos hn0 hd e
      refine ⟨fun h0 => absurd (signed_eq_zero.1 (hsum.trans h0)) hq.ne', fun _ => ?_⟩
      rw [← hsum, abs_signed hq, show decide (signed neg (magnitude n d e) < 0) = neg by simp [signed_neg_iff hq]]
      exact hf.rounded hn0 hd e m w hv neg

/-! ### The operations on exact values -/

/-- One value is the sum of its own term. -/
theorem Stands.sums {x : Ex} {nan sig : Bool} {ts : List (Bool × Option Rat)} (h : Stands x nan sig ts) (m : RndMode) : Sums m nan sig ts x := by
  cases h with
  | nan => exact ⟨fun _ => rfl, nofun, nofun⟩
  | inf neg =>
    refine ⟨fun h => ?_, fun _ n hn => ?_, fun _ h => by simp at h⟩
    · cases neg <;> simp [clashes] at h
    · simp at hn
      rw [hn]
  | @fin neg n d e hd =>
    refine ⟨fun h => by simp [clashes] at h, fun _ n hn => by simp at hn, fun _ _ => ⟨neg, n, d, e, hd, rfl, ?_, fun h0 => ?_⟩⟩
    · simp [exactSum]
    · have hm : magnitude n d e = 0 := by simpa [exactSum, signed_eq_zero] using h0
      cases neg <;> simp [zeroSign, hm]

/-- A term is a zero of a sign. -/
theorem term_beq_zero (neg s : Bool) (n : Nat) {d : Nat} (hd : 0 < d) (e : Int) :
    ((neg, some (magnitude n d e)) == (s, some 0)) = (neg == s && n == 0) := by
  rw [Bool.eq_iff_iff, beq_iff_eq]
  simp [magnitude_eq_zero hd]

/-- A zero sum of two finite terms is −0 where both are, and under dn unless both are +0. -/
theorem zeroSign_two (m : RndMode) (n0 n1 : Bool) (x0 x1 : Nat) {d0 d1 : Nat} (e0 e1 : Int) (h0 : 0 < d0) (h1 : 0 < d1) :
    zeroSign m [(n0, some (magnitude x0 d0 e0)), (n1, some (magnitude x1 d1 e1))] = if x0 = 0 ∧ x1 = 0 ∧ n0 = n1 then n0 else m == .dn := by
  simp only [zeroSign, List.all_cons, List.all_nil, Bool.and_true, term_beq_zero _ _ _ h0, term_beq_zero _ _ _ h1]
  by_cases hx : x0 = 0 ∧ x1 = 0
  · obtain ⟨rfl, rfl⟩ := hx
    cases n0 <;> cases n1 <;> simp
  · have hzeros : (x0 == 0 && x1 == 0) = false := by simpa using hx
    rw [if_neg (fun h => hx ⟨h.1, h.2.1⟩)]
    grind
/-- A zero sum of three finite terms is −0 where every term is, and under dn unless every term is +0. -/
theorem zeroSign_three (m : RndMode) (n0 n1 n2 : Bool) (x0 x1 x2 : Nat) {d0 d1 d2 : Nat} (e0 e1 e2 : Int) (h0 : 0 < d0) (h1 : 0 < d1) (h2 : 0 < d2) :
    zeroSign m [(n0, some (magnitude x0 d0 e0)), (n1, some (magnitude x1 d1 e1)), (n2, some (magnitude x2 d2 e2))]
      = if n0 = n1 ∧ n1 = n2 ∧ x0 = 0 ∧ x1 = 0 ∧ x2 = 0 then n2 else m == .dn := by
  simp only [zeroSign, List.all_cons, List.all_nil, Bool.and_true, term_beq_zero _ _ _ h0, term_beq_zero _ _ _ h1, term_beq_zero _ _ _ h2]
  by_cases hx : x0 = 0 ∧ x1 = 0 ∧ x2 = 0
  · obtain ⟨rfl, rfl, rfl⟩ := hx
    cases n0 <;> cases n1 <;> cases n2 <;> simp
  · have hzeros : (x0 == 0 && x1 == 0 && x2 == 0) = false := by simpa [and_assoc] using hx
    rw [if_neg (fun h => hx h.2.2)]
    grind

/-- Negation. -/
theorem Stands.neg {x : Ex} {nan sig : Bool} {ts : List (Bool × Option Rat)} (h : Stands x nan sig ts) :
    Stands (negEx x) nan sig (ts.map fun t => (!t.1, t.2)) := by
  cases h with
  | nan => exact .nan _
  | inf => exact .inf _
  | fin _ _ _ hd => exact .fin _ _ _ hd

section
variable (m : RndMode) (a b : Bool) (n d : Nat) (e : Int)
/-! A sum with a NaN or an infinity. -/
@[simp] theorem addEx_nan_nan : addEx m (.nan a) (.nan b) = .nan (a || b) := rfl
@[simp] theorem addEx_nan_inf : addEx m (.nan a) (.inf b) = .nan a := rfl
@[simp] theorem addEx_nan_fin : addEx m (.nan a) (.fin b n d e) = .nan a := rfl
@[simp] theorem addEx_inf_nan : addEx m (.inf a) (.nan b) = .nan b := rfl
@[simp] theorem addEx_fin_nan : addEx m (.fin a n d e) (.nan b) = .nan b := rfl
@[simp] theorem addEx_inf_inf : addEx m (.inf a) (.inf b) = if a = b then .inf a else .nan true := rfl
@[simp] theorem addEx_inf_fin : addEx m (.inf a) (.fin b n d e) = .inf a := rfl
@[simp] theorem addEx_fin_inf : addEx m (.fin a n d e) (.inf b) = .inf b := rfl
end

/-- A signed integer over a denominator. -/
theorem signed_natAbs (r : Int) (d : Nat) (e : Int) : signed (decide (r < 0)) (magnitude r.natAbs d e) = (r : Rat) / d * 2 ^ e := by
  have habs : (r.natAbs : Rat) = |(r : Rat)| := by rw [Nat.cast_natAbs, Int.cast_abs]
  rw [magnitude, habs]
  by_cases hr : r < 0
  · have hr' : (r : Rat) < 0 := by exact_mod_cast hr
    rw [abs_of_neg hr', decide_eq_true hr, signed, if_pos rfl]
    ring
  · have hr' : (0 : Rat) ≤ r := by exact_mod_cast not_lt.1 hr
    rw [abs_of_nonneg hr', decide_eq_false hr]
    rfl

/-- A term of addEx's integer sum is the term's value, over the common denominator. -/
theorem addEx_term (neg : Bool) (x : Nat) {d d' : Nat} (hd : 0 < d) {e e' : Int} (he : e' ≤ e) :
    (((x * d' * 2 ^ (e - e').toNat : Nat) * (if neg then -1 else 1) : Int) : Rat) = signed neg (magnitude x d e) * (d * d' / 2 ^ e') := by
  obtain ⟨k, hk⟩ := Int.eq_ofNat_of_zero_le (show 0 ≤ e - e' by omega)
  have hpow : (2 : Rat) ^ e = 2 ^ e' * 2 ^ k := by rw [← zpow_natCast, ← zpow_add₀ two_ne_zero, ← hk]; congr 1; omega
  have hd' : (d : Rat) ≠ 0 := by exact_mod_cast hd.ne'
  have h2 : (2 : Rat) ^ e' ≠ 0 := by positivity
  rw [hk, Int.toNat_natCast, magnitude, hpow]
  cases neg
  · simp only [signed, Bool.false_eq_true, if_false]
    push_cast
    field_simp
  · simp only [signed, if_true]
    push_cast
    field_simp

/-- The sum of two finite values is exact. -/
theorem addEx_fin (m : RndMode) (na nb : Bool) (xa xb : Nat) {da db : Nat} (ea eb : Int) (ha : 0 < da) (hb : 0 < db) :
    ∃ neg n d e, 0 < d ∧ addEx m (.fin na xa da ea) (.fin nb xb db eb) = .fin neg n d e
      ∧ signed neg (magnitude n d e) = signed na (magnitude xa da ea) + signed nb (magnitude xb db eb)
      ∧ (n = 0 → neg = if xa = 0 ∧ xb = 0 ∧ na = nb then na else m == .dn) := by
  have ha' : (da : Rat) ≠ 0 := by exact_mod_cast ha.ne'
  have hb' : (db : Rat) ≠ 0 := by exact_mod_cast hb.ne'
  have hterms := congrArg₂ (· + ·) (addEx_term na xa (d' := db) ha (min_le_left ea eb)) (addEx_term nb xb (d' := da) hb (min_le_right ea eb))
  simp only [← Int.cast_add] at hterms
  unfold addEx
  dsimp only
  generalize hr : ((xa * db * 2 ^ (ea - min ea eb).toNat : Nat) * (if na then -1 else 1) : Int)
    + (xb * da * 2 ^ (eb - min ea eb).toNat : Nat) * (if nb then -1 else 1) = r at hterms ⊢
  generalize min ea eb = e at hterms ⊢
  have hsum : signed na (magnitude xa da ea) + signed nb (magnitude xb db eb) = (r : Rat) / (da * db : Nat) * 2 ^ e := by
    have h2 : (2 : Rat) ^ e ≠ 0 := by positivity
    rw [hterms]
    push_cast
    field_simp
  by_cases h0 : r = 0
  · rw [if_pos h0]
    refine ⟨_, 0, 1, 0, one_pos, rfl, ?_, fun _ => rfl⟩
    rw [hsum, h0, magnitude_zero, signed_eq_zero.2 rfl, Int.cast_zero, zero_div, zero_mul]
  · rw [if_neg h0]
    refine ⟨_, _, _, _, Nat.mul_pos ha hb, rfl, ?_, fun h => absurd (Int.natAbs_eq_zero.1 h) h0⟩
    rw [hsum, signed_natAbs]

/-- The sum of two values (R318, R319). -/
theorem Stands.add {x y : Ex} {nx sx ny sy : Bool} {tx ty : List (Bool × Option Rat)} (hx : Stands x nx sx tx) (hy : Stands y ny sy ty) (m : RndMode) :
    Sums m (nx || ny) (sx || sy) (tx ++ ty) (addEx m x y) := by
  cases hx with
  | nan a =>
    cases hy <;> exact ⟨fun _ => by simp [clashes], fun h => by simp at h, fun h => by simp at h⟩
  | inf a =>
    cases hy with
    | nan => exact ⟨fun _ => by simp [clashes], fun h => by simp at h, fun h => by simp at h⟩
    | inf b => cases a <;> cases b <;> exact ⟨by simp [clashes], by simp [clashes], by simp⟩
    | fin => exact ⟨by simp [clashes], fun _ neg h => by simp at h; simp [h], by simp⟩
  | @fin na xa da ea ha =>
    cases hy with
    | nan => exact ⟨fun _ => by simp [clashes], fun h => by simp at h, fun h => by simp at h⟩
    | inf b => exact ⟨by simp [clashes], fun _ neg h => by simp at h; simp [h], by simp⟩
    | @fin nb xb db eb hb =>
      refine ⟨by simp [clashes], by simp, fun _ _ => ?_⟩
      obtain ⟨neg, n, d, e, hd, heq, hsum, hsign⟩ := addEx_fin m na nb xa xb ea eb ha hb
      have hexact : exactSum ([(na, some (magnitude xa da ea))] ++ [(nb, some (magnitude xb db eb))])
          = signed na (magnitude xa da ea) + signed nb (magnitude xb db eb) := by simp [exactSum]
      refine ⟨neg, n, d, e, hd, heq, hsum.trans hexact.symm, fun h0 => ?_⟩
      rw [hsign ((magnitude_eq_zero hd).1 (signed_eq_zero.1 (hsum.trans (hexact.symm.trans h0))))]
      exact (zeroSign_two m na nb xa xb ea eb ha hb).symm

/-! ### Operands -/

theorem NaN_of_le {w : Word} (h : low31 w ≤ inf31) : NaN w = false := decide_eq_false (by omega)
theorem Signals_of_le {w : Word} (h : low31 w ≤ inf31) : Signals w = false := decide_eq_false (by omega)

/-- An exact value is what a word holds (R133); that of a BF16 element is what its word, as an FP32 one, holds (R134). -/
inductive Ex.Reads : Ex → Word → Prop
  | nan {w : Word} (h : NaN w = true) : Ex.Reads (.nan (Signals w)) w
  | inf {w : Word} (h : low31 w = inf31) : Ex.Reads (.inf (minus w)) w
  | fin {w : Word} (n : Nat) (e : Int) (h : low31 w < inf31) (hm : magnitude n 1 e = mag (low31 w)) : Ex.Reads (.fin (minus w) n 1 e) w

theorem magnitude_natCast (n : Nat) (e : Int) : magnitude n 1 e = n * (2 : Rat) ^ e := by rw [magnitude, Nat.cast_one, div_one]

/-- The value of a format's bits. -/
theorem Fmt.Widens.reads {f : Fmt} {sh : Nat} (hf : f.Widens sh) {h : Nat} {w : Word} (hw : w.toNat = h * 2 ^ sh) : Ex.Reads (f.value h) w := by
  have hsh : 0 < 2 ^ sh := by positivity
  have hlow : low31 w = h % f.sign * 2 ^ sh := by rw [low31, hw, ← hf.top, Nat.mul_mod_mul_right]
  have hsmall : h < 2 * f.sign := by
    have hlt := w.isLt
    rw [hw, show (2 : Nat) ^ 32 = 2 * 2 ^ 31 by norm_num, ← hf.top, ← mul_assoc] at hlt
    exact Nat.lt_of_mul_lt_mul_right hlt
  have hminus : minus w = decide (f.sign ≤ h % (2 * f.sign)) := by
    rw [minus, hw, ← hf.top, Nat.mod_eq_of_lt hsmall, decide_eq_decide, Nat.mul_le_mul_right_iff hsh]
  have hinf : inf31 = f.inf * 2 ^ sh := hf.infinity.symm
  unfold Fmt.value
  dsimp only
  rw [← hminus]
  generalize h % f.sign = m at hlow
  split
  next hnan =>
    have hsig : Signals w = decide (m - f.inf < 2 ^ (f.p - 2)) := by
      rw [Signals, decide_eq_decide, hlow, hinf, ← hf.quiet, Nat.mul_lt_mul_right hsh, Nat.mul_lt_mul_right hsh, Fmt.nan]
      omega
    rw [← hsig]
    exact .nan (decide_eq_true (by rw [hlow, hinf]; exact Nat.mul_lt_mul_of_pos_right hnan hsh))
  next hnan =>
    split
    next hm => exact .inf (by rw [hlow, hinf, hm])
    next hm =>
      have hfin : low31 w < inf31 := by rw [hlow, hinf]; exact Nat.mul_lt_mul_of_pos_right (by omega) hsh
      have hunit : 0 < 2 ^ (f.p - 1) := by positivity
      have hp : 2 ^ f.p = 2 ^ (f.p - 1) + 2 ^ (f.p - 1) := by rw [← two_mul, ← pow_succ', Nat.sub_add_cancel hf.hidden]
      have hmod := Nat.mod_lt m hunit
      have hdm := Nat.div_add_mod' m (2 ^ (f.p - 1))
      generalize m / 2 ^ (f.p - 1) = x at hdm ⊢
      generalize m % 2 ^ (f.p - 1) = y at hdm hmod ⊢
      split
      next hx =>
        refine .fin _ _ hfin ?_
        have hval := hf.mag_eq (le_refl f.low) (a := m) (.inl rfl) (by rw [hx, zero_mul] at hdm; omega)
        rw [magnitude_natCast, hlow, ← hval, sub_self, Int.toNat_zero, zero_mul, zero_add]
      next hx =>
        obtain ⟨x, rfl⟩ := Nat.exists_eq_succ_of_ne_zero hx
        refine .fin _ _ hfin ?_
        have hval := hf.mag_eq (q := f.low + (x.succ : Nat) - 1) (a := y + 2 ^ (f.p - 1)) (by omega) (.inr (by omega)) (by omega)
        rw [magnitude_natCast, hlow, ← hval, ← hdm, Nat.succ_mul, show (f.low + (x.succ : Nat) - 1 - f.low).toNat = x by omega]
        congr 2
        omega

theorem reads_val32 (w : Word) : Ex.Reads (val32 w) w := fp32_widens.reads (by rw [pow_zero, mul_one])

/-- The FP32 word of a BF16 element (R134). -/
def wide16 (h : BitVec 16) : Word := h.setWidth 32 <<< 16
theorem wide16_toNat (h : BitVec 16) : (wide16 h).toNat = h.toNat * 2 ^ 16 := by
  have := h.isLt
  rw [wide16, BitVec.toNat_shiftLeft, BitVec.toNat_setWidth, Nat.shiftLeft_eq, Nat.mod_eq_of_lt (by omega), Nat.mod_eq_of_lt (by omega)]
theorem reads_val16 (h : BitVec 16) : Ex.Reads (val16 h) (wide16 h) := bf16_widens.reads (wide16_toNat h)
/-- An element of a packed pair. -/
theorem element_eq_wide16 (w : Word) (e : Nat) : element w e = wide16 (half w e) := by
  apply BitVec.eq_of_toNat_eq
  rw [wide16_toNat, half, BitVec.toNat_setWidth, BitVec.toNat_ushiftRight, Nat.shiftRight_eq_div_pow, element, BitVec.toNat_ofNat]
  exact Nat.mod_eq_of_lt (by omega)
theorem reads_half (w : Word) (e : Nat) : Ex.Reads (val16 (half w e)) (element w e) := element_eq_wide16 w e ▸ reads_val16 _

/-- A finite word is zero where its bits are. -/
theorem low31_beq_zero {w : Word} {n : Nat} {e : Int} (hm : magnitude n 1 e = mag (low31 w)) : (low31 w == 0) = (n == 0) := by
  have hiff : low31 w = 0 ↔ n = 0 := by
    rw [← magnitude_eq_zero (n := n) one_pos (e := e), hm]
    exact ⟨fun h => h ▸ mag_zero, fun h => by_contra fun h0 => (mag_pos (Nat.pos_of_ne_zero h0)).ne' h⟩
  rw [Bool.eq_iff_iff, beq_iff_eq, beq_iff_eq, hiff]

/-- An operand is a term. -/
theorem Ex.Reads.stands {x : Ex} {w : Word} (h : Ex.Reads x w) : Stands x (NaN w) (Signals w) (termOf false w) := by
  cases h with
  | nan h => rw [termOf, if_pos h, h]; exact .nan _
  | inf h =>
    rw [termOf, NaN_of_le h.le, Signals_of_le h.le, if_neg Bool.false_ne_true, term, if_neg (by omega), Bool.false_bne]
    exact .inf _
  | fin n e h hm =>
    rw [termOf, NaN_of_le h.le, Signals_of_le h.le, if_neg Bool.false_ne_true, term, if_pos h, ← hm, Bool.false_bne]
    exact .fin _ _ _ one_pos
/-- An operand subtracted. -/
theorem Ex.Reads.stands_neg {x : Ex} {w : Word} (h : Ex.Reads x w) : Stands (negEx x) (NaN w) (Signals w) (termOf true w) := by
  have hflip : termOf true w = (termOf false w).map fun t => (!t.1, t.2) := by
    unfold termOf
    split <;> simp [term]
  exact hflip ▸ h.stands.neg

theorem magnitude_mul (n n' d d' : Nat) (e e' : Int) : magnitude (n * n') (d * d') (e + e') = magnitude n d e * magnitude n' d' e' := by
  rw [magnitude, magnitude, magnitude, zpow_add₀ two_ne_zero]
  push_cast
  ring

/-- The exact product of two operands (R318, R319). -/
theorem Ex.Reads.mul {x y : Ex} {a b : Word} (hx : Ex.Reads x a) (hy : Ex.Reads y b) :
    Stands (mulEx x y) (NaN a || NaN b || zeroInf a b) (Signals a || Signals b || zeroInf a b) (productOf a b) := by
  have hz : (inf31 == 0) = false := rfl
  cases hx with
  | nan ha =>
    have hinvalid : zeroInf a b = false := by simp [zeroInf, ha]
    rw [productOf, hinvalid, ha]
    cases hy with
    | nan hb => simpa [mulEx] using Stands.nan (Signals a || Signals b)
    | inf hb => simpa [mulEx, Signals_of_le hb.le] using Stands.nan (Signals a)
    | fin _ _ hb => simpa [mulEx, Signals_of_le hb.le] using Stands.nan (Signals a)
  | inf ha =>
    have hna := NaN_of_le ha.le
    have hsa := Signals_of_le ha.le
    cases hy with
    | nan hb =>
      have hinvalid : zeroInf a b = false := by simp [zeroInf, hb]
      rw [productOf, hinvalid, hb, hna, hsa]
      simpa [mulEx] using Stands.nan (Signals b)
    | inf hb =>
      have hinvalid : zeroInf a b = false := by simp [zeroInf, ha, hb, hz]
      rw [productOf, hinvalid, NaN_of_le hb.le, Signals_of_le hb.le, hna, hsa]
      simpa [mulEx, ha] using Stands.inf (minus a != minus b)
    | fin n e hb hm =>
      have hinvalid : zeroInf a b = (n == 0) := by
        simp [zeroInf, hna, NaN_of_le hb.le, ha, hz, low31_beq_zero hm]
      rw [productOf, hinvalid, NaN_of_le hb.le, Signals_of_le hb.le, hna, hsa, mulEx]
      by_cases hn : n = 0
      · simpa [hn] using Stands.nan true
      · have hn' : (n == 0) = false := by simpa using hn
        simpa [hn, hn', ha] using Stands.inf (minus a != minus b)
  | fin n e ha hm =>
    have hna := NaN_of_le ha.le
    have hsa := Signals_of_le ha.le
    cases hy with
    | nan hb =>
      have hinvalid : zeroInf a b = false := by simp [zeroInf, hb]
      rw [productOf, hinvalid, hb, hna, hsa]
      simpa [mulEx] using Stands.nan (Signals b)
    | inf hb =>
      have hinvalid : zeroInf a b = (n == 0) := by
        simp [zeroInf, hna, NaN_of_le hb.le, hb, hz, low31_beq_zero hm]
      rw [productOf, hinvalid, NaN_of_le hb.le, Signals_of_le hb.le, hna, hsa, mulEx]
      by_cases hn : n = 0
      · simpa [hn] using Stands.nan true
      · have hn' : (n == 0) = false := by simpa using hn
        simpa [hn, hn', hb] using Stands.inf (minus a != minus b)
    | fin n' e' hb hm' =>
      have hinvalid : zeroInf a b = false := by simp [zeroInf, ha.ne, hb.ne]
      rw [productOf, hinvalid, NaN_of_le hb.le, Signals_of_le hb.le, hna, hsa, ← hm, ← hm', ← magnitude_mul, mulEx]
      simpa [ha, hb] using Stands.fin (minus a != minus b) (n * n') (e + e') one_pos

/-- The infinity of the other sign, beside a finite product: invalid in FFMA (R319). -/
def Ex.opposes : Ex → Ex → Bool
  | .fin a _ _ _, .inf b => a != b
  | _, _ => false
theorem Ex.Reads.opposes_mul {x y z : Ex} {a b c : Word} (hx : Ex.Reads x a) (hy : Ex.Reads y b) (hz : Ex.Reads z c) : (mulEx x y).opposes z =
    (!NaN a && !NaN b && low31 a < inf31 && low31 b < inf31 && low31 c == inf31 && (minus a != minus b) != minus c) := by
  cases hx with
  | nan ha => cases hy <;> simp [mulEx, Ex.opposes, ha]
  | inf ha =>
    cases hy with
    | nan => simp [mulEx, Ex.opposes, ha]
    | inf => simp [mulEx, Ex.opposes, ha]
    | fin n => by_cases hn : n = 0 <;> simp [mulEx, Ex.opposes, ha, hn]
  | fin n _ ha =>
    cases hy with
    | nan hb => simp [mulEx, Ex.opposes, hb]
    | inf hb => by_cases hn : n = 0 <;> simp [mulEx, Ex.opposes, hb, hn]
    | fin _ _ hb =>
      have hfin : (!NaN a && !NaN b && low31 a < inf31 && low31 b < inf31) = true := by simp [NaN_of_le ha.le, NaN_of_le hb.le, ha, hb]
      rw [hfin, Bool.true_and, mulEx]
      cases hz with
      | nan hc => simp [Ex.opposes, (show inf31 < low31 c by simpa [NaN] using hc).ne']
      | inf hc => simp [Ex.opposes, hc]
      | fin _ _ hc => simp [Ex.opposes, hc.ne]

/-- A product and an addend (R318, R319). -/
theorem fma_sums {x y z : Ex} {np sp nz sz : Bool} {tp tz : List (Bool × Option Rat)} (hp : Stands (mulEx x y) np sp tp) (hz : Stands z nz sz tz) (m : RndMode) :
    Sums m (np || nz || (mulEx x y).opposes z) (sp || sz || (mulEx x y).opposes z) (tp ++ tz) (fopEx .fma m x y z) := by
  have hadd := hp.add hz m
  unfold fopEx
  dsimp only
  generalize mulEx x y = p at hp hadd ⊢
  cases hp with
  | nan =>
    cases hz with
    | nan => simpa [Ex.opposes] using hadd
    | inf => simpa [Ex.opposes] using hadd
    | fin => simpa [Ex.opposes] using hadd
  | inf =>
    cases hz with
    | nan => simpa [Ex.opposes] using hadd
    | inf => simpa [Ex.opposes] using hadd
    | fin => simpa [Ex.opposes] using hadd
  | fin a =>
    cases hz with
    | nan => simpa [Ex.opposes] using hadd
    | fin => simpa [Ex.opposes] using hadd
    | inf b =>
      by_cases hab : a = b
      · simpa [Ex.opposes, hab] using hadd
      · have hne : (a != b) = true := by simpa using hab
        rw [Ex.opposes, hne]
        simp only [hab, if_false, Bool.or_true]
        exact ⟨fun _ => by simp, fun h => by simp at h, fun h => by simp at h⟩

end Sys2Proof.Machine

/-! SUPPORT. Proofs about the float words: FDOT2, the arithmetic words, FMIN and FMAX. -/

namespace Sys2Proof.Machine
open Rules

/-- FDOT2's exact sum of finite terms (R322). -/
theorem fdot2Ex_fin {m : RndMode} {a b c : Word} {n0 n1 n2 : Bool} {x0 x1 x2 d0 d1 d2 : Nat} {e0 e1 e2 : Int} (h0 : 0 < d0) (h1 : 0 < d1) (h2 : 0 < d2)
    (hp : mulEx (val16 (half a 0)) (val16 (half b 0)) = .fin n0 x0 d0 e0) (hq : mulEx (val16 (half a 1)) (val16 (half b 1)) = .fin n1 x1 d1 e1)
    (hc : val32 c = .fin n2 x2 d2 e2) :
    ∃ neg n d e, 0 < d ∧ fdot2Ex m a b c = .fin neg n d e
      ∧ signed neg (magnitude n d e) = signed n0 (magnitude x0 d0 e0) + signed n1 (magnitude x1 d1 e1) + signed n2 (magnitude x2 d2 e2)
      ∧ (n = 0 → neg = if n0 = n1 ∧ n1 = n2 ∧ x0 = 0 ∧ x1 = 0 ∧ x2 = 0 then n2 else m == .dn) := by
  unfold fdot2Ex
  rw [hp, hq, hc]
  dsimp only
  by_cases hzero : n0 = n1 ∧ n1 = n2 ∧ x0 = 0 ∧ x1 = 0 ∧ x2 = 0
  · rw [if_pos hzero, if_pos hzero]
    obtain ⟨-, -, rfl, rfl, rfl⟩ := hzero
    exact ⟨_, _, _, _, one_pos, rfl, by simp [signed_eq_zero.2], fun _ => rfl⟩
  · rw [if_neg hzero, if_neg hzero]
    obtain ⟨neg, n, d, e, hd, heq, hsum, -⟩ := addEx_fin m n0 n1 x0 x1 e0 e1 h0 h1
    rw [heq, ← hsum]
    cases n with
    | zero =>
      rw [magnitude_zero, signed_eq_zero.2 rfl, zero_add]
      by_cases hx : x2 = 0
      · exact ⟨_, 0, 1, 0, one_pos, if_pos hx, by rw [hx, magnitude_zero, magnitude_zero, signed_eq_zero.2 rfl, signed_eq_zero.2 rfl], fun _ => rfl⟩
      · exact ⟨_, _, _, _, h2, if_neg hx, rfl, fun h => absurd h hx⟩
    | succ k =>
      obtain ⟨neg', n', d', e', hd', heq', hsum', hsign⟩ := addEx_fin m neg n2 (k + 1) x2 e e2 hd h2
      refine ⟨neg', n', d', e', hd', heq', hsum', fun h => ?_⟩
      rw [hsign h, if_neg (fun h => absurd h.1 (Nat.succ_ne_zero k))]

/-- FDOT2's sum of terms not all of which are finite. -/
def dotSpecial (m : RndMode) (p q c : Ex) : Ex :=
  match addEx m (addEx m p q) c with
  | .nan s => .nan (s || ([p, q, c].contains (.nan true) || ([p, q, c].contains (.inf true) && [p, q, c].contains (.inf false))))
  | r => r
def Ex.isFin : Ex → Bool
  | .fin _ _ _ _ => true
  | _ => false
/-- FDOT2's exact sum is that one where a term is not finite. -/
theorem fdot2Ex_special {m : RndMode} {a b c : Word} {p q r : Ex} (hp : mulEx (val16 (half a 0)) (val16 (half b 0)) = p)
    (hq : mulEx (val16 (half a 1)) (val16 (half b 1)) = q) (hc : val32 c = r) (h : (p.isFin && q.isFin && r.isFin) = false) :
    fdot2Ex m a b c = dotSpecial m p q r := by
  unfold fdot2Ex
  rw [hp, hq, hc]
  cases p with
  | nan | inf => rfl
  | fin =>
    cases q with
    | nan | inf => rfl
    | fin =>
      cases r with
      | nan | inf => rfl
      | fin => simp [Ex.isFin] at h

/-- A NaN, or infinities of both signs, make that sum invalid; an infinity otherwise is the sum. -/
theorem dotSpecial_sums {m : RndMode} {p q c : Ex} {np sp nq sq nc sc : Bool} {tp tq tc : List (Bool × Option Rat)}
    (hp : Stands p np sp tp) (hq : Stands q nq sq tq) (hc : Stands c nc sc tc) (h : (p.isFin && q.isFin && c.isFin) = false) :
    Sums m (np || nq || nc) (sp || sq || sc) (tp ++ tq ++ tc) (dotSpecial m p q c) := by
  cases hp with
  | nan =>
    refine ⟨fun _ => ?_, by simp, by simp⟩
    cases hq <;> cases hc <;> simp [dotSpecial, clashes] <;> grind
  | inf x =>
    cases hq with
    | nan =>
      refine ⟨fun _ => ?_, by simp, by simp⟩
      cases hc with
      | inf => simp [dotSpecial, clashes]; grind
      | nan | fin => simp [dotSpecial, clashes]
    | inf y =>
      cases hc with
      | nan => cases x <;> cases y <;> exact ⟨by simp [dotSpecial, clashes], by simp, by simp⟩
      | inf z => cases x <;> cases y <;> cases z <;> exact ⟨by simp [dotSpecial, clashes], by simp [dotSpecial, clashes], by simp⟩
      | fin => cases x <;> cases y <;> exact ⟨by simp [dotSpecial, clashes], by simp [dotSpecial, clashes], by simp⟩
    | fin =>
      cases hc with
      | nan => exact ⟨by simp [dotSpecial, clashes], by simp, by simp⟩
      | inf z => cases x <;> cases z <;> exact ⟨by simp [dotSpecial, clashes], by simp [dotSpecial, clashes], by simp⟩
      | fin => exact ⟨by simp [clashes], by simp [dotSpecial, clashes], by simp⟩
  | @fin n0 x0 d0 e0 h0 =>
    cases hq with
    | nan =>
      refine ⟨fun _ => ?_, by simp, by simp⟩
      cases hc <;> simp [dotSpecial, clashes]
    | inf y =>
      cases hc with
      | nan => exact ⟨by simp [dotSpecial, clashes], by simp, by simp⟩
      | inf z => cases y <;> cases z <;> exact ⟨by simp [dotSpecial, clashes], by simp [dotSpecial, clashes], by simp⟩
      | fin => exact ⟨by simp [clashes], by simp [dotSpecial, clashes], by simp⟩
    | @fin n1 x1 d1 e1 h1 =>
      obtain ⟨neg, n, d, e, -, heq, -, -⟩ := addEx_fin m n0 n1 x0 x1 e0 e1 h0 h1
      cases hc with
      | nan => exact ⟨by simp [dotSpecial, heq, clashes], by simp, by simp⟩
      | inf z => exact ⟨by simp [clashes], by simp [dotSpecial, heq, clashes], by simp⟩
      | fin => simp [Ex.isFin] at h

/-- FDOT2's exact sum (R322). -/
theorem fdot2Ex_sums {m : RndMode} {a b c : Word} {np sp nq sq nc sc : Bool} {tp tq tc : List (Bool × Option Rat)}
    (hp : Stands (mulEx (val16 (half a 0)) (val16 (half b 0))) np sp tp) (hq : Stands (mulEx (val16 (half a 1)) (val16 (half b 1))) nq sq tq)
    (hc : Stands (val32 c) nc sc tc) : Sums m (np || nq || nc) (sp || sq || sc) (tp ++ tq ++ tc) (fdot2Ex m a b c) := by
  by_cases h : ((mulEx (val16 (half a 0)) (val16 (half b 0))).isFin && (mulEx (val16 (half a 1)) (val16 (half b 1))).isFin && (val32 c).isFin) = false
  · rw [fdot2Ex_special rfl rfl rfl h]
    exact dotSpecial_sums hp hq hc h
  · have hfin := @fdot2Ex_fin m a b c
    generalize fdot2Ex m a b c = y at hfin ⊢
    generalize mulEx (val16 (half a 0)) (val16 (half b 0)) = p at hp hfin h
    generalize mulEx (val16 (half a 1)) (val16 (half b 1)) = q at hq hfin h
    generalize val32 c = r at hc hfin h
    cases hp with
    | nan | inf => exact absurd rfl h
    | @fin n0 x0 d0 e0 h0 =>
      cases hq with
      | nan | inf => exact absurd rfl h
      | @fin n1 x1 d1 e1 h1 =>
        cases hc with
        | nan | inf => exact absurd rfl h
        | @fin n2 x2 d2 e2 h2 =>
          obtain ⟨neg, n, d, e, hd, heq, hsum, hsign⟩ := hfin h0 h1 h2 rfl rfl rfl
          have hexact : exactSum ([(n0, some (magnitude x0 d0 e0))] ++ [(n1, some (magnitude x1 d1 e1))] ++ [(n2, some (magnitude x2 d2 e2))])
              = signed neg (magnitude n d e) := by simp [exactSum, hsum]
          refine ⟨by simp [clashes], by simp, fun _ _ => ⟨neg, n, d, e, hd, heq, hexact.symm, fun hz => ?_⟩⟩
          rw [hsign ((magnitude_eq_zero hd).1 (signed_eq_zero.1 (hexact.symm.trans hz)))]
          exact (zeroSign_three m n0 n1 n2 x0 x1 x2 e0 e1 e2 h0 h1 h2).symm

/-! ### The arithmetic words (R133 to R137, R149, R318, R319, R322) -/

/-- The exact value of each of the four operations, and of a step of a chain. -/
theorem fopEx_narrows {f : Fmt} {sh : Nat} (hf : f.Widens sh) {vec : Bool} (hv : vec = true → f.p = 8) {x y z : Ex} {a b c : Word}
    (hx : Ex.Reads x a) (hy : Ex.Reads y b) (hz : Ex.Reads z c) (o : FOp) (m : RndMode) (w : Word) :
    Operates o (2 ^ sh) vec m (uniform w) a b c ((f.round m w vec (fopEx o m x y z)).1 * 2 ^ sh) (f.round m w vec (fopEx o m x y z)).2 := by
  cases o with
  | add => exact hf.narrows hv (hx.stands.add hy.stands m) (by simp) (by simp) w
  | sub => exact hf.narrows hv (hx.stands.add hy.stands_neg m) (by simp) (by simp) w
  | mul => exact hf.narrows hv ((hx.mul hy).sums m) (by simp [Bool.or_comm]) (by simp [Bool.or_comm]) w
  | fma =>
    have hsum := fma_sums (hx.mul hy) hz.stands m
    rw [hx.opposes_mul hy hz] at hsum
    exact hf.narrows hv hsum (by simp; grind) (by simp; grind) w
  | mac => exact hf.narrows hv ((hx.mul hy).add hz.stands m) (by simp; grind) (by simp; grind) w

/-! ### Bits -/

/-- A rounded value fits its format. -/
theorem Fmt.Widens.round_lt {f : Fmt} {sh : Nat} (hf : f.Widens sh) (m : RndMode) (w : Word) (vec : Bool) (x : Ex) : (f.round m w vec x).1 < 2 * f.sign := by
  have hsh : 0 < 2 ^ sh := by positivity
  have hinf : f.inf < f.sign := Nat.lt_of_mul_lt_mul_right (a := 2 ^ sh) (by rw [hf.infinity, hf.top]; decide)
  have hnan : f.nan < f.sign := Nat.lt_of_mul_lt_mul_right (a := 2 ^ sh) (by rw [hf.quiet, hf.top]; decide)
  have hover (m : RndMode) (neg : Bool) : f.over m neg ≤ f.inf := by cases m <;> cases neg <;> simp [Fmt.over]
  have hsg (neg : Bool) (b : Nat) (hb : b ≤ f.inf) : (if neg then f.sign else 0) + b < 2 * f.sign := by split <;> omega
  cases x with
  | nan => exact hnan.trans (by omega)
  | inf neg => exact hsg neg _ le_rfl
  | fin neg n d e =>
    rcases Nat.eq_zero_or_pos n with rfl | hn
    · exact hsg neg 0 (Nat.zero_le _)
    · obtain ⟨b, r, d', tiny, hfloor⟩ : ∃ b r d' tiny, f.floor n d e = (b, r, d', tiny) := ⟨_, _, _, _, rfl⟩
      rw [Fmt.round_fin hn hfloor]
      dsimp only
      generalize (if r ≠ 0 ∧ goesFar (f.modeAt vec m b) neg (b % 2 == 1) r d' w then b + 1 else b) = b'
      split
      · exact hsg neg _ (hover _ _)
      · exact hsg neg _ (by omega)

theorem round32_toNat (m : RndMode) (w : Word) (x : Ex) : (round32 m w x).1.toNat = (fp32.round m w false x).1 := by
  rw [round32, BitVec.toNat_ofNat]
  exact Nat.mod_eq_of_lt (fp32_widens.round_lt m w false x)
/-- The bits of a BF16 result, as an FP32 word. -/
theorem wide16_round (m : RndMode) (w : Word) (vec : Bool) (x : Ex) :
    (wide16 (BitVec.ofNat 16 (bf16.round m w vec x).1)).toNat = (bf16.round m w vec x).1 * 2 ^ 16 := by
  have hlt : (bf16.round m w vec x).1 < 2 ^ 16 := bf16_widens.round_lt m w vec x
  rw [wide16_toNat, BitVec.toNat_ofNat, Nat.mod_eq_of_lt hlt]
/-- A pair of elements. -/
theorem pack_eq_append (lo hi : BitVec 16) : pack lo hi = hi ++ lo := by
  apply BitVec.eq_of_toNat_eq
  have hwide := wide16_toNat hi
  rw [wide16] at hwide
  rw [pack, BitVec.toNat_or, hwide, BitVec.toNat_setWidth, BitVec.toNat_append, Nat.shiftLeft_eq, Nat.mod_eq_of_lt (by have := lo.isLt; omega)]

/-- A sum of terms is narrowed to FP32. -/
theorem round32_narrows {m : RndMode} {ops : List Word} {bad nan sig : Bool} {ts : List (Bool × Option Rat)} {x : Ex} (h : Sums m nan sig ts x)
    (hnan : nan = (bad || ops.any NaN)) (hsig : sig = (bad || ops.any Signals)) (w : Word) :
    Narrows 1 false m (uniform w) ops bad ts (round32 m w x).1.toNat (round32 m w x).2 := by
  have hr := fp32_widens.narrows (vec := false) nofun h hnan hsig w
  rw [pow_zero, mul_one, ← round32_toNat] at hr
  exact hr

/-- Rounding to nearest takes no draw. -/
theorem narrows_rne {step : Nat} {u : Rat} (u' : Rat) {ops : List Word} {bad : Bool} {ts : List (Bool × Option Rat)} {r : Nat} {st : Word}
    (h : Narrows step false .rne u ops bad ts r st) : Narrows step false .rne u' ops bad ts r st := by
  have hat (neg : Bool) (x : Rat) (k : Nat) : RoundedAt step false .rne u neg x k r st = RoundedAt step false .rne u' neg x k r st := by
    simp only [RoundedAt, Bool.false_eq_true, false_and, if_false, Away]
  have hrounded (neg : Bool) (x : Rat) : Rounded step false .rne u neg x r st = Rounded step false .rne u' neg x r st := by
    simp only [Rounded, hat]
  rw [narrows_iff] at h ⊢
  simpa only [hrounded] using h

theorem magnitude_eq_ite (n : Nat) (e : Int) : magnitude n 1 e = (n : Rat) * (if 0 ≤ e then (2 : Rat) ^ e.toNat else 1 / (2 : Rat) ^ (-e).toNat) := by
  rw [magnitude_natCast]
  split
  next h =>
    obtain ⟨k, rfl⟩ := Int.eq_ofNat_of_zero_le h
    rfl
  next h =>
    obtain ⟨k, hk⟩ := Int.eq_ofNat_of_zero_le (show 0 ≤ -e by omega)
    rw [show e = -(k : Int) by omega, zpow_neg, neg_neg, Int.toNat_natCast, zpow_natCast, one_div]

/-- An exact finite value without operands is rounded to nearest. -/
theorem rne32_narrows (neg : Bool) (n : Nat) (e : Int) :
    Narrows 1 false .rne 0 [] false [(neg, some (magnitude n 1 e))] (rne32 (.fin neg n 1 e)).1.toNat (rne32 (.fin neg n 1 e)).2 :=
  narrows_rne 0 (round32_narrows ((Stands.fin neg n e one_pos).sums .rne) rfl rfl 0)

/-- FADD, FSUB, FMUL, FFMA, FDOT2 and a step of a chain are exact and rounded once. -/
theorem arithmeticValues : Rules.ArithmeticValues := by
  intro m w a b c
  refine ⟨fun o => ?_, fun o x y z => ?_, fun o cell l => ⟨rfl, ?_⟩, ?_, fun neg n e => ?_⟩
  · have h := fopEx_narrows fp32_widens (vec := false) nofun (reads_val32 a) (reads_val32 b) (reads_val32 c) o m w
    rw [pow_zero, mul_one, ← round32_toNat] at h
    exact h
  · have h := fopEx_narrows bf16_widens (vec := true) (fun _ => rfl) (reads_val16 x) (reads_val16 y) (reads_val16 z) o m w
    rw [← wide16_round] at h
    exact h
  · simp only [fopLane, pack_eq_append]
  · have hp := (reads_half a 0).mul (reads_half b 0)
    have hq := (reads_half a 1).mul (reads_half b 1)
    exact round32_narrows (fdot2Ex_sums (m := m) hp hq (reads_val32 c).stands) (by simp; grind) (by simp; grind) w
  · rw [← magnitude_eq_ite]
    exact rne32_narrows neg n e

/-! ### FMIN and FMAX (R138) -/

theorem element_toNat (w : Word) (e : Nat) : (element w e).toNat = (half w e).toNat * 2 ^ 16 := by rw [element_eq_wide16, wide16_toNat]
/-- The elements of a pair. -/
theorem element_append (hi lo : BitVec 16) : element (hi ++ lo) 0 = wide16 lo ∧ element (hi ++ lo) 1 = wide16 hi := by
  have hl := lo.isLt
  have hh := hi.isLt
  have happ : (hi ++ lo).toNat = hi.toNat * 2 ^ 16 + lo.toNat := by
    rw [BitVec.toNat_append, Nat.shiftLeft_eq, mul_comm, Nat.two_pow_add_eq_or_of_lt hl]
  constructor
  · apply BitVec.eq_of_toNat_eq
    rw [element, BitVec.toNat_ofNat, wide16_toNat, happ]
    omega
  · apply BitVec.eq_of_toNat_eq
    rw [element, BitVec.toNat_ofNat, wide16_toNat, happ]
    omega

/-- The order key of a word follows its number. -/
theorem ordKey_eq (w : Word) : ordKey fp32 w.toNat = if minus w then -(low31 w : Int) else low31 w := by
  have hw := w.isLt
  have hsign : fp32.sign = 2 ^ 31 := rfl
  rw [ordKey, hsign, minus, low31]
  simp only [decide_eq_true_eq]
  split <;> omega
theorem num_le_of_ordKey_le {a b : Word} (h : ordKey fp32 a.toNat ≤ ordKey fp32 b.toNat) : num a ≤ num b := by
  rw [ordKey_eq, ordKey_eq] at h
  have ha := mag_nonneg (low31 a)
  have hb := mag_nonneg (low31 b)
  unfold num
  cases hma : minus a <;> cases hmb : minus b <;> simp only [hma, hmb, Bool.false_eq_true, if_false, if_true, signed] at h ⊢
  · exact mag_strictMono.monotone (by omega)
  · rw [show low31 a = 0 by omega, show low31 b = 0 by omega, mag_zero, neg_zero]
  · linarith
  · exact neg_le_neg (mag_strictMono.monotone (by omega))

/-- The order of FMIN and FMAX, in which −0 is less than +0. -/
def precedes (a b : Word) : Bool :=
  if ordKey fp32 a.toNat = ordKey fp32 b.toNat then minus a else decide (ordKey fp32 a.toNat < ordKey fp32 b.toNat)
theorem ordKey_le_of_precedes {a b : Word} (h : precedes a b = true) : ordKey fp32 a.toNat ≤ ordKey fp32 b.toNat := by
  unfold precedes at h
  split at h
  next heq => exact heq.le
  next => exact (of_decide_eq_true h).le
theorem ordKey_le_of_not_precedes {a b : Word} (h : precedes a b = false) : ordKey fp32 b.toNat ≤ ordKey fp32 a.toNat := by
  unfold precedes at h
  split at h
  next heq => exact heq.ge
  next => exact not_lt.1 (of_decide_eq_false h)

theorem Fmt.Widens.ordKey_mul {f : Fmt} {sh : Nat} (hf : f.Widens sh) {h : Nat} {w : Word} (hw : w.toNat = h * 2 ^ sh) :
    ordKey fp32 w.toNat = ordKey f h * 2 ^ sh := by
  have hsign : fp32.sign = 2 ^ 31 := rfl
  simp only [ordKey, hw, hsign, ← hf.top, Nat.mul_le_mul_right_iff (show 0 < 2 ^ sh by positivity), ← Nat.sub_mul]
  split <;> push_cast <;> ring

/-- What a value raises in FMIN and FMAX: a signalling NaN alone raises NV (R138). -/
def Ex.nv : Ex → Word
  | .nan true => stNV
  | _ => 0
theorem minmax_status (f : Fmt) (isMax : Bool) (x y : Nat) : (minmax f isMax x y).2 = ((f.value x).nv ||| (f.value y).nv) := by
  unfold minmax
  dsimp only
  split <;> rfl
theorem Ex.Reads.nv_eq {x : Ex} {w : Word} (h : Ex.Reads x w) : x.nv = if Signals w then stNV else 0 := by
  cases h with
  | nan => cases Signals w <;> rfl
  | inf h => rw [Signals_of_le h.le]; rfl
  | fin _ _ h => rw [Signals_of_le h.le]; rfl

/-- FMIN and FMAX of one element (R138). -/
theorem Fmt.Widens.minmax_eq {f : Fmt} {sh : Nat} (hf : f.Widens sh) {x y : Nat} {a b : Word} (ha : a.toNat = x * 2 ^ sh) (hb : b.toNat = y * 2 ^ sh) (isMax : Bool) :
    minmax f isMax x y = (if NaN a then (if NaN b then f.nan else y) else if NaN b then x else if precedes a b != isMax then x else y,
      if Signals a || Signals b then stNV else 0) := by
  have hx := hf.reads ha
  have hy := hf.reads hb
  have hless : precedes a b = if ordKey f x = ordKey f y then decide (f.sign ≤ x) else decide (ordKey f x < ordKey f y) := by
    have hpos : (0 : Int) < 2 ^ sh := by positivity
    have hminus : minus a = decide (f.sign ≤ x) := by
      rw [minus, ha, ← hf.top, decide_eq_decide, Nat.mul_le_mul_right_iff (by positivity)]
    simp only [precedes, hf.ordKey_mul ha, hf.ordKey_mul hb, mul_left_inj' hpos.ne', mul_lt_mul_iff_left₀ hpos, hminus]
  refine Prod.ext ?_ ?_
  · unfold minmax
    dsimp only
    rw [← hless]
    generalize f.value x = v at hx
    generalize f.value y = u at hy
    cases hx with
    | nan hna =>
      rw [hna]
      cases hy with
      | nan hnb => rw [hnb]; rfl
      | inf hnb => rw [NaN_of_le hnb.le]; rfl
      | fin _ _ hnb => rw [NaN_of_le hnb.le]; rfl
    | inf hna =>
      rw [NaN_of_le hna.le]
      cases hy with
      | nan hnb => rw [hnb]; rfl
      | inf hnb => rw [NaN_of_le hnb.le]; rfl
      | fin _ _ hnb => rw [NaN_of_le hnb.le]; rfl
    | fin _ _ hna =>
      rw [NaN_of_le hna.le]
      cases hy with
      | nan hnb => rw [hnb]; rfl
      | inf hnb => rw [NaN_of_le hnb.le]; rfl
      | fin _ _ hnb => rw [NaN_of_le hnb.le]; rfl
  · rw [minmax_status, hx.nv_eq, hy.nv_eq]
    cases Signals a <;> cases Signals b <;> rfl

/-- FMIN and FMAX of two words. -/
theorem minmaxLane_f32 (isMax : Bool) (a b : Word) : minmaxLane isMax .f32 a b =
    (if NaN a then (if NaN b then 0x7FC00000 else b) else if NaN b then a else if precedes a b != isMax then a else b,
      if Signals a || Signals b then stNV else 0) := by
  have h := fp32_widens.minmax_eq (show a.toNat = a.toNat * 2 ^ 0 by rw [pow_zero, mul_one])
    (show b.toNat = b.toNat * 2 ^ 0 by rw [pow_zero, mul_one]) isMax
  have hnan : BitVec.ofNat 32 fp32.nan = 0x7FC00000 := rfl
  rw [minmaxLane, h]
  simp only [apply_ite (BitVec.ofNat 32), BitVec.ofNat_toNat, BitVec.setWidth_eq, hnan]

/-- FMIN and FMAX of an element are those of its FP32 word. -/
theorem minmax_half (isMax : Bool) (a b : Word) (e : Nat) :
    let r := minmax bf16 isMax (half a e).toNat (half b e).toNat
    wide16 (BitVec.ofNat 16 r.1) = (minmaxLane isMax .f32 (element a e) (element b e)).1
    ∧ r.2 = (minmaxLane isMax .f32 (element a e) (element b e)).2 := by
  dsimp only
  rw [bf16_widens.minmax_eq (element_toNat a e) (element_toNat b e), minmaxLane_f32]
  have hnan : wide16 (BitVec.ofNat 16 bf16.nan) = 0x7FC00000 := rfl
  simp only [apply_ite (BitVec.ofNat 16), apply_ite wide16, BitVec.ofNat_toNat, BitVec.setWidth_eq, hnan, ← element_eq_wide16, and_self]

/-- FMIN and FMAX of a pair. -/
theorem minmaxLane_bf16x2 (isMax : Bool) (a b : Word) : minmaxLane isMax .bf16x2 a b =
    let r (e : Nat) := minmax bf16 isMax (half a e).toNat (half b e).toNat
    (BitVec.ofNat 16 (r 1).1 ++ BitVec.ofNat 16 (r 0).1, (r 0).2 ||| (r 1).2) := by
  simp only [minmaxLane, pack_eq_append]

/-- FMIN and FMAX (R138). -/
theorem minMaxValues : Rules.MinMaxValues := by
  intro isMax a b
  have h := minmaxLane_f32 isMax a b
  refine ⟨by rw [h], fun hna hnb => ?_, fun e he => ?_, ?_⟩
  · rw [h, hna, hnb]
    simp only [Bool.false_eq_true, if_false]
    cases hp : precedes a b with
    | true =>
      have hle := num_le_of_ordKey_le (ordKey_le_of_precedes hp)
      cases isMax <;> simp [hle]
    | false =>
      have hle := num_le_of_ordKey_le (ordKey_le_of_not_precedes hp)
      cases isMax <;> simp [hle]
  · obtain ⟨h0, h1⟩ := element_append (BitVec.ofNat 16 (minmax bf16 isMax (half a 1).toNat (half b 1).toNat).1)
      (BitVec.ofNat 16 (minmax bf16 isMax (half a 0).toNat (half b 0).toNat).1)
    rw [minmaxLane_bf16x2]
    interval_cases e
    · exact h0.trans (minmax_half isMax a b 0).1
    · exact h1.trans (minmax_half isMax a b 1).1
  · rw [minmaxLane_bf16x2, ← (minmax_half isMax a b 0).2, ← (minmax_half isMax a b 1).2]

end Sys2Proof.Machine

/-! SUPPORT. Proofs about the float words: conversions. -/

namespace Sys2Proof.Machine
open Rules

/-! ### Rounding to an integer (R326, R140, R145) -/

/-- An integer with a sign. -/
def signedInt (neg : Bool) (n : Nat) : Int := if neg then -(n : Int) else n
theorem signedInt_cast (neg : Bool) (n : Nat) : ((signedInt neg n : Int) : Rat) = signed neg n := by
  cases neg <;> simp [signedInt, signed]

/-- The integer that a rounding direction makes of a signed value between a and a + 1 (R326). -/
theorem roundsTo_iff {m : RndMode} (hm : m ≠ .sr) {neg : Bool} {a : Nat} {t : Rat} (ht : 0 < t) (ht1 : t < 1) {k : Int}
    (h : RoundsTo m (signed neg (a + t)) k) :
    (Away m 0 t neg (a % 2 == 1) → k = signedInt neg (a + 1)) ∧ (¬ Away m 0 t neg (a % 2 == 1) → k = signedInt neg a) := by
  cases neg with
  | false =>
    obtain ⟨-, h⟩ := h a (by simp [signed, ht.le]) (by simp [signed, ht1])
    have h := h (by simp [signed, ht])
    simp only [signed, Bool.false_eq_true, if_false, Int.cast_natCast, add_sub_cancel_left] at h
    simp only [signedInt, Bool.false_eq_true, if_false]
    cases m with
    | sr => exact absurd rfl hm
    | rz => simpa [Away] using h
    | dn => simpa [Away] using h
    | up => simpa [Away] using h
    | none | rne =>
      obtain ⟨hlt, hgt, htie⟩ := h
      simp only [Away, beq_iff_eq]
      rcases lt_trichotomy t (1 / 2) with hc | hc | hc
      · exact ⟨fun h => by exfalso; rcases h with h | ⟨h, -⟩ <;> linarith, fun _ => hlt hc⟩
      · have := htie hc
        refine ⟨fun h => ?_, fun h => ?_⟩
        · rcases h with h | ⟨-, hodd⟩
          · linarith
          · push_cast
            omega
        · have heven : ¬ a % 2 = 1 := fun hodd => h (.inr ⟨hc, hodd⟩)
          omega
      · exact ⟨fun _ => by rw [hgt hc]; push_cast; rfl, fun h => absurd (.inl hc) h⟩
  | true =>
    obtain ⟨-, h⟩ := h (-(a : Int) - 1) (by simp [signed]; linarith) (by simp [signed]; linarith)
    have h := h (by simp [signed]; linarith)
    have hsub : signed true (a + t) - ((-(a : Int) - 1 : Int) : Rat) = 1 - t := by simp [signed]; ring
    rw [hsub] at h
    simp only [signedInt, if_true]
    cases m with
    | sr => exact absurd rfl hm
    | rz =>
      have h : k = if 0 ≤ -(a : Int) - 1 then -(a : Int) - 1 else -(a : Int) - 1 + 1 := h
      rw [if_neg (by omega)] at h
      exact ⟨fun h => h.elim, fun _ => by omega⟩
    | dn =>
      have h : k = -(a : Int) - 1 := h
      exact ⟨fun _ => by omega, fun hn => absurd rfl hn⟩
    | up =>
      have h : k = -(a : Int) - 1 + 1 := h
      exact ⟨fun hn => absurd hn (by simp [Away]), fun _ => by omega⟩
    | none | rne =>
      obtain ⟨hlt, hgt, htie⟩ := h
      simp only [Away, beq_iff_eq]
      rcases lt_trichotomy t (1 / 2) with hc | hc | hc
      · have := hgt (by linarith)
        exact ⟨fun h => by exfalso; rcases h with h | ⟨h, -⟩ <;> linarith, fun _ => by omega⟩
      · have := htie (by linarith)
        refine ⟨fun h => ?_, fun h => ?_⟩
        · rcases h with h | ⟨-, hodd⟩
          · linarith
          · omega
        · have heven : ¬ a % 2 = 1 := fun hodd => h (.inr ⟨hc, hodd⟩)
          omega
      · have := hlt (by linarith)
        exact ⟨fun _ => by omega, fun h => absurd (.inl hc) h⟩

/-- roundInt makes the integer of the rounding direction, and says whether the value is one. -/
theorem roundInt_spec {m : RndMode} (hm : m ≠ .sr) (neg : Bool) (n : Nat) {d : Nat} (hd : 0 < d) (e : Int) :
    (∀ k, RoundsTo m (signed neg (magnitude n d e)) k → k = signedInt neg (roundInt m neg n d e).1)
    ∧ ((roundInt m neg n d e).2 = true → ((roundInt m neg n d e).1 : Rat) = magnitude n d e)
    ∧ (∀ k : Nat, magnitude n d e = k → (roundInt m neg n d e).2 = true)
    ∧ ((roundInt m neg n d e).1 : Rat) < magnitude n d e + 1 := by
  have hd' := frac_den_pos hd n e
  rw [← frac_eq]
  unfold roundInt
  generalize frac n d e = x at hd'
  obtain ⟨n', d'⟩ := x
  dsimp only at hd' ⊢
  have hd0 : (0 : Rat) < d' := by exact_mod_cast hd'
  have hrd : ((n' % d' : Nat) : Rat) / d' < 1 := (div_lt_one hd0).2 (by exact_mod_cast Nat.mod_lt n' hd')
  have hsplit : (n' : Rat) / d' = (n' / d' : Nat) + ((n' % d' : Nat) : Rat) / d' := by
    have hdm : (n' : Rat) = (d' : Rat) * (n' / d' : Nat) + (n' % d' : Nat) := by exact_mod_cast (Nat.div_add_mod n' d').symm
    rw [hdm, add_div, mul_div_cancel_left₀ _ hd0.ne']
  rw [hsplit]
  generalize n' / d' = a
  generalize n' % d' = r at hrd
  rcases Nat.eq_zero_or_pos r with rfl | hr
  · have hnear : goesFar m neg (a % 2 == 1) 0 d' 0 = false := by cases m <;> simp [goesFar, hd'.ne]
    simp only [hnear, Bool.false_eq_true, if_false, Nat.cast_zero, zero_div, add_zero, beq_self_eq_true, lt_add_iff_pos_right, one_pos, and_true, implies_true]
    intro k hk
    have hcast := (signedInt_cast neg a).symm
    exact (hk (signedInt neg a) hcast.ge (by rw [hcast]; exact lt_add_one _)).1 hcast
  · have ht : 0 < (r : Rat) / d' := by positivity
    have hfar : goesFar m neg (a % 2 == 1) r d' 0 = true ↔ Away m 0 ((r : Rat) / d') neg (a % 2 == 1) := by
      rw [goesFar_iff hr hd']
      cases m with
      | sr => exact absurd rfl hm
      | _ => rfl
    have hne : (r == 0) = false := by simpa using hr.ne'
    have hbetween (k : Nat) : (a : Rat) + r / d' ≠ k := fun h => by
      have h1 : (a : Rat) < k := by linarith
      have h2 : (k : Rat) < (a + 1 : Nat) := by push_cast; linarith
      rw [Nat.cast_lt] at h1 h2
      omega
    rw [hne]
    by_cases haway : goesFar m neg (a % 2 == 1) r d' 0 = true
    · rw [if_pos haway]
      refine ⟨fun k hk => (roundsTo_iff hm ht hrd hk).1 (hfar.1 haway), nofun, fun k hk => absurd hk (hbetween k), ?_⟩
      push_cast
      linarith
    · rw [if_neg haway]
      exact ⟨fun k hk => (roundsTo_iff hm ht hrd hk).2 fun h => haway (hfar.2 h), nofun, fun k hk => absurd hk (hbetween k), by linarith⟩

/-! ### Exact results -/

/-- A value that a format holds is rounded to itself. -/
theorem Fmt.Widens.round_exact {f : Fmt} {sh : Nat} (hf : f.Widens sh) {n d k : Nat} {e : Int} (hd : 0 < d) (hk : k < f.inf)
    (h : magnitude n d e = mag (k * 2 ^ sh)) (m : RndMode) (w : Word) (vec neg : Bool) :
    f.round m w vec (.fin neg n d e) = ((if neg then f.sign else 0) + k, 0) := by
  rcases Nat.eq_zero_or_pos n with rfl | hn
  · have hk0 : k = 0 := by
      rw [magnitude_zero, eq_comm, ← mag_zero, mag_strictMono.injective.eq_iff] at h
      simpa using h
    rw [Fmt.round, if_pos rfl, hk0, add_zero]
  · obtain ⟨b, r, d', tiny, hfloor⟩ : ∃ b r d' tiny, f.floor n d e = (b, r, d', tiny) := ⟨_, _, _, _, rfl⟩
    obtain ⟨hlow, hhigh, hexact⟩ := hf.floor_bounds hn hd e hfloor
    have hbk : k * 2 ^ sh = b * 2 ^ sh :=
      mag_between_unique h.ge (h ▸ mag_strictMono (Nat.lt_add_of_pos_right (by positivity))) hlow hhigh (Nat.dvd_mul_left ..) (Nat.dvd_mul_left ..)
    obtain rfl : k = b := Nat.eq_of_mul_eq_mul_right (by positivity) hbk
    have hr := hexact.1 h
    rw [Fmt.round_fin hn hfloor]
    simp [hr, not_le.2 hk]

/-- An integer of at most 24 bits is the magnitude of a word. -/
theorem exists_mag_eq_natCast {n : Nat} (hn : n < 2 ^ 24) : ∃ k, k < inf31 ∧ mag k = n := by
  rcases Nat.eq_zero_or_pos n with rfl | hpos
  · exact ⟨0, by decide, by simp⟩
  · have hlow := Nat.log2_self_le hpos.ne'
    have hhigh : n < 2 ^ (Nat.log2 n + 1) := Nat.lt_log2_self
    have hlog : Nat.log2 n < 24 := (Nat.pow_lt_pow_iff_right (by decide)).1 (hlow.trans_lt hn)
    generalize Nat.log2 n = l at hlow hhigh hlog
    have h23 : 2 ^ 23 = 2 ^ l * 2 ^ (23 - l) := by rw [← pow_add]; congr 1; omega
    have h24 : 2 ^ 24 = 2 ^ (l + 1) * 2 ^ (23 - l) := by rw [← pow_add]; congr 1; omega
    have ha : 2 ^ 23 ≤ n * 2 ^ (23 - l) := h23 ▸ Nat.mul_le_mul_right _ hlow
    have ha' : n * 2 ^ (23 - l) ≤ 2 ^ 24 := h24 ▸ Nat.mul_le_mul_right _ hhigh.le
    refine ⟨(l + 126) * 2 ^ 23 + n * 2 ^ (23 - l), by unfold inf31; omega, ?_⟩
    rw [mag_scaled (.inr ha) ha', Nat.cast_mul, Nat.cast_pow, Nat.cast_ofNat, ← zpow_natCast, mul_assoc, ← zpow_add₀ two_ne_zero,
      show ((23 - l : Nat) : Int) + ((l + 126 : Nat) - 149) = 0 by omega, zpow_zero, mul_one]

/-- A magnitude of at least 2^23 is an integer. -/
theorem mag_integer {k : Nat} (h : 2 ^ 23 ≤ mag k) : ∃ n : Nat, mag k = n := by
  simpa using mag_multiple (h := 0) (by simpa using h)

/-! ### Conversions (R326, R140, R321, R347) -/

/-- The word of a sign and a magnitude. -/
def signedWord (neg : Bool) (k : Nat) : Word := BitVec.ofNat 32 ((if neg then 2 ^ 31 else 0) + k)
section
variable {k : Nat} (hk : k < 2 ^ 31) (neg : Bool)
include hk
theorem signedWord_toNat : (signedWord neg k).toNat = (if neg then 2 ^ 31 else 0) + k := by
  rw [signedWord, BitVec.toNat_ofNat]
  refine Nat.mod_eq_of_lt ?_
  split <;> omega
theorem low31_signedWord : low31 (signedWord neg k) = k := by
  rw [low31, signedWord_toNat hk]
  split <;> omega
theorem minus_signedWord : minus (signedWord neg k) = neg := by
  rw [minus, signedWord_toNat hk]
  cases neg with
  | false => simpa using hk
  | true => simp
theorem num_signedWord : num (signedWord neg k) = signed neg (mag k) := by rw [num, minus_signedWord hk, low31_signedWord hk]
end

/-- A value that a word holds is rounded to that word. -/
theorem round32_exact {n d k : Nat} {e : Int} (hd : 0 < d) (hk : k < inf31) (h : magnitude n d e = mag k) (m : RndMode) (w : Word) (neg : Bool) :
    round32 m w (.fin neg n d e) = (signedWord neg k, 0) := by
  rw [round32, fp32_widens.round_exact hd hk (by rw [h, pow_zero, mul_one])]
  rfl

theorem not_NaN_of_eq {w : Word} (h : low31 w = inf31) : NaN w ≠ true := by simp [NaN, h]
theorem not_NaN_of_lt {w : Word} (h : low31 w < inf31) : NaN w ≠ true := by simp [NaN, h.le]

/-- FRND (R326). -/
theorem frnd32_values {m : RndMode} (hm : m ≠ .sr) (a : Word) :
    (NaN a = true → frnd32 m a = (0x7FC00000, if Signals a then stNV else 0)) ∧ (low31 a = inf31 → frnd32 m a = (a, 0))
    ∧ (low31 a < inf31 → (frnd32 m a).2 = 0 ∧ low31 (frnd32 m a).1 < inf31 ∧ minus (frnd32 m a).1 = minus a
      ∧ ∀ n, RoundsTo m (num a) n → num (frnd32 m a).1 = n) := by
  have hx := reads_val32 a
  unfold frnd32
  generalize val32 a = x at hx
  cases hx with
  | nan h => exact ⟨fun _ => rfl, fun hi => absurd h (not_NaN_of_eq hi), fun hi => absurd h (not_NaN_of_lt hi)⟩
  | inf h => exact ⟨fun hn => absurd hn (not_NaN_of_eq h), fun _ => rfl, fun hi => absurd h hi.ne⟩
  | fin n e h hmag =>
    refine ⟨fun hn => absurd hn (not_NaN_of_lt h), fun hi => absurd hi h.ne, fun _ => ?_⟩
    obtain ⟨hto, hexact, hinteger, hlt⟩ := roundInt_spec hm (minus a) n one_pos e
    rw [hmag] at hto hexact hinteger hlt
    dsimp only
    generalize roundInt m (minus a) n 1 e = r at hto hexact hinteger hlt
    obtain ⟨q, exact⟩ := r
    dsimp only at hto hexact hinteger hlt ⊢
    cases exact with
    | true =>
      refine ⟨rfl, h, rfl, fun k hk => ?_⟩
      rw [hto k hk, signedInt_cast, hexact rfl]
      rfl
    | false =>
      have hsmall : mag (low31 a) < 2 ^ 23 := by
        by_contra hbig
        obtain ⟨k, hk⟩ := mag_integer (not_lt.1 hbig)
        exact Bool.false_ne_true (hinteger k hk)
      obtain ⟨k, hk, hkq⟩ := exists_mag_eq_natCast (n := q) (by
        have : (q : Rat) < 2 ^ 23 + 1 := by linarith
        have : q < 2 ^ 23 + 1 := by exact_mod_cast this
        omega)
      have hr : rne32 (.fin (minus a) q 1 0) = (signedWord (minus a) k, 0) :=
        round32_exact one_pos hk (by rw [hkq, magnitude_natCast, zpow_zero, mul_one]) ..
      have hk31 : k < 2 ^ 31 := hk.trans (by decide)
      rw [if_neg Bool.false_ne_true, hr]
      refine ⟨rfl, by rwa [low31_signedWord hk31], minus_signedWord hk31 _, fun i hi => ?_⟩
      rw [num_signedWord hk31, hto i hi, signedInt_cast, hkq]

theorem signed_inj {neg : Bool} {x y : Rat} : signed neg x = signed neg y ↔ x = y := by cases neg <;> simp [signed]

/-- FCVT to an integer (R140). -/
theorem toInt32_values {m : RndMode} (hm : m ≠ .sr) (sgn : Bool) (a : Word) :
    ToInteger m (if sgn then -(2 ^ 31) else 0) (if sgn then 2 ^ 31 - 1 else 2 ^ 32 - 1) a (toInt32 sgn m a).1 (toInt32 sgn m a).2 := by
  have hx := reads_val32 a
  unfold toInt32
  generalize val32 a = x at hx
  cases hx with
  | nan h => exact ⟨fun _ => ⟨rfl, rfl⟩, fun hi => absurd h (not_NaN_of_eq hi), fun hi => absurd h (not_NaN_of_lt hi)⟩
  | inf h => exact ⟨fun hn => absurd hn (not_NaN_of_eq h), fun _ => ⟨rfl, rfl⟩, fun hi => absurd h hi.ne⟩
  | fin n e h hmag =>
    refine ⟨fun hn => absurd hn (not_NaN_of_lt h), fun hi => absurd hi h.ne, fun _ k hk => ?_⟩
    obtain ⟨hto, hexact, hinteger, -⟩ := roundInt_spec hm (minus a) n one_pos e
    rw [hmag] at hto hexact hinteger
    dsimp only
    generalize roundInt m (minus a) n 1 e = r at hto hexact hinteger
    obtain ⟨q, exact⟩ := r
    dsimp only at hto hexact hinteger ⊢
    have hv : (if minus a then -(q : Int) else q) = k := (hto k hk).symm
    have hst : exact = decide (num a = k) := by
      rw [hto k hk, signedInt_cast, num, Bool.eq_iff_iff, decide_eq_true_eq, signed_inj]
      exact ⟨fun h => (hexact h).symm, hinteger q⟩
    rw [hv, hst]
    have hlohi : (if sgn then -(2 ^ 31) else 0 : Int) ≤ if sgn then 2 ^ 31 - 1 else 2 ^ 32 - 1 := by cases sgn <;> decide
    generalize (if sgn then -(2 ^ 31) else 0 : Int) = lo at hlohi
    generalize (if sgn then 2 ^ 31 - 1 else 2 ^ 32 - 1 : Int) = hi at hlohi
    refine ⟨fun hlo => ?_, fun hhi => ?_, fun hlo hhi => ?_⟩
    · rw [if_pos hlo]
      exact ⟨rfl, rfl⟩
    · rw [if_neg (by omega), if_pos hhi]
      exact ⟨rfl, rfl⟩
    · rw [if_neg (by omega), if_neg (by omega)]
      simp only [decide_eq_true_eq, and_self]

/-- FCVT from BF16 (R321). -/
theorem widen_values (h : BitVec 16) :
    (match val16 h with
      | .nan sg => (0x7FC00000, if sg then stNV else 0)
      | _ => (h.setWidth 32 <<< 16, 0) : Word × Word)
    = if NaN (wide16 h) then (0x7FC00000, if Signals (wide16 h) then stNV else 0) else (wide16 h, 0) := by
  have hx := reads_val16 h
  generalize val16 h = x at hx
  generalize hw : wide16 h = w at hx
  cases hx with
  | nan hn => rw [if_pos hn]
  | inf hi => rw [if_neg (not_NaN_of_eq hi), ← hw]; rfl
  | fin _ _ hi => rw [if_neg (not_NaN_of_lt hi), ← hw]; rfl

/-- A BF16 narrowing (R140, R137). -/
theorem bf16_narrows (m : RndMode) (u a : Word) (vec : Bool) : Narrows (2 ^ 16) vec m (uniform u) [a] false (termOf false a)
    (wide16 (BitVec.ofNat 16 (bf16.round m u vec (val32 a)).1)).toNat (bf16.round m u vec (val32 a)).2 := by
  rw [wide16_round]
  exact bf16_widens.narrows (fun _ => rfl) ((reads_val32 a).stands.sums m) (by simp) (by simp) u

/-- Only a finite value overflows, to what its sign and the mode say. -/
theorem Fmt.over_of_round {f : Fmt} {m : RndMode} {w : Word} {x : Ex} (h : (f.round m w false x).2 &&& stOF ≠ 0) :
    ∃ neg n d e, x = .fin neg n d e ∧ (f.round m w false x).1 = (if neg then f.sign else 0) + f.over m neg := by
  cases x with
  | nan sig => cases sig <;> simp [Fmt.round, stNV, stOF] at h
  | inf neg => simp [Fmt.round] at h
  | fin neg n d e =>
    refine ⟨neg, n, d, e, rfl, ?_⟩
    rcases Nat.eq_zero_or_pos n with rfl | hn
    · simp [Fmt.round] at h
    · obtain ⟨b, r, d', tiny, hfloor⟩ : ∃ b r d' tiny, f.floor n d e = (b, r, d', tiny) := ⟨_, _, _, _, rfl⟩
      rw [Fmt.round_fin hn hfloor] at h ⊢
      dsimp only at h ⊢
      generalize (if r ≠ 0 ∧ goesFar (f.modeAt false m b) neg (b % 2 == 1) r d' w then b + 1 else b) = b' at h ⊢
      split at h
      next hover => rw [if_pos hover]; rfl
      next => cases tiny <;> by_cases hr : r = 0 <;> simp [hr, stOF, stIX, stUF] at h

/-- The narrowing of MST (R347). -/
theorem narrow_values (clp : Bool) (a : Word) : ∃ (r : Nat) (st : Word), Narrows (2 ^ 16) false .rne 0 [a] false (termOf false a) r st
    ∧ narrow clp a = (BitVec.ofNat 32 ((if clp ∧ st &&& stOF ≠ 0 then (if minus a then 2 ^ 31 else 0) + 0x7F7F0000 else r) / 2 ^ 16), st) := by
  refine ⟨_, _, narrows_rne 0 (bf16_narrows .rne 0 a false), ?_⟩
  rw [wide16_round, narrow]
  by_cases hover : (bf16.round .rne 0 false (val32 a)).2 &&& stOF ≠ 0
  · obtain ⟨neg, n, d, e, hval, hr⟩ := Fmt.over_of_round hover
    have hneg : neg = minus a := by
      have hx := reads_val32 a
      rw [hval] at hx
      cases hx
      rfl
    have hr : (bf16.round .rne 0 false (val32 a)).1 = (if minus a then 2 ^ 15 else 0) + 0x7F80 := hneg ▸ hr
    rw [hr]
    generalize (bf16.round .rne 0 false (val32 a)).2 = st at hover
    have hovf : (st &&& stOF != 0) = true := by simpa using hover
    have hcond : (clp = true ∧ st &&& stOF ≠ 0) ↔ clp = true := and_iff_left hover
    simp only [hcond, hovf, Bool.and_true]
    cases clp <;> cases minus a <;> rfl
  · have hno : ((bf16.round .rne 0 false (val32 a)).2 &&& stOF != 0) = false := by simpa using hover
    rw [hno, Bool.and_false, Bool.false_and, if_neg Bool.false_ne_true, if_neg (fun h => hover h.2), Nat.mul_div_cancel _ (by decide)]

/-- FRND and FCVT, and the narrowing of MST. -/
theorem conversionValues : Rules.ConversionValues := by
  intro a old u
  refine ⟨fun d => frnd32_values (by cases d <;> nofun) a, fun m => ?_, fun m => ?_, fun m => ?_, fun m => ?_, fun clp => narrow_values clp a⟩
  · have h := bf16_narrows m u a true
    simp only [cvtLane, pack_eq_append]
    rw [(element_append ..).1, (element_append ..).2, (element_append ..).2, (element_append ..).1, ← element_eq_wide16, ← element_eq_wide16]
    exact ⟨h, rfl, h, rfl⟩
  · rw [element_eq_wide16, element_eq_wide16]
    exact ⟨widen_values _, widen_values _⟩
  · exact ⟨toInt32_values (m := .rne) nofun true a, toInt32_values (m := .rz) nofun true a, toInt32_values (m := .rz) nofun false a⟩
  · have hint (v : Int) : Narrows 1 false m (uniform u) [] false [(decide (v < 0), some (v.natAbs : Rat))] (round32 m u (ofInt v)).1.toNat
        (round32 m u (ofInt v)).2 := by
      have hval : magnitude v.natAbs 1 0 = v.natAbs := by rw [magnitude_natCast, zpow_zero, mul_one]
      have hs := (Stands.fin (decide (v < 0)) v.natAbs 0 one_pos).sums m
      rw [hval] at hs
      exact round32_narrows hs rfl rfl u
    refine ⟨hint a.toInt, ?_⟩
    have h := hint a.toNat
    rw [decide_eq_false (by omega), Int.natAbs_natCast] at h
    exact h

end Sys2Proof.Machine

/-! SUPPORT. Proofs about the float words: residues. -/

namespace Sys2Proof.Machine
open Rules

/-! ### Residues (R144, R145, R354) -/

/-- The magnitude of an integer. -/
theorem eq_natAbs_of_signed {neg : Bool} {x : Rat} (hx : 0 ≤ x) {j : Int} (h : signed neg x = j) : x = j.natAbs := by
  rw [Nat.cast_natAbs, Int.cast_abs, ← h]
  cases neg <;> simp [signed, abs_of_nonneg hx]

/-- The magnitude that QCVT makes of a quotient (R145). -/
theorem qcvt_integer {sg : Bool} {n d m : Nat} (hd : 0 < d) {e : Int} {u : Word} {k : Int}
    (hm : m = if (frac n d e).2 ≤ (frac n d e).1 then (roundInt .rne sg n d e).1
      else if (2 * (u.toNat / 256) + 1) * (frac n d e).2 < (frac n d e).1 * 2 ^ 25 then 1 else 0)
    (hround : 1 ≤ signed sg (magnitude n d e) ∨ signed sg (magnitude n d e) ≤ -1 → RoundsTo .rne (signed sg (magnitude n d e)) k)
    (hdraw : -1 < signed sg (magnitude n d e) → signed sg (magnitude n d e) < 1 →
      k = if 0 < signed sg (magnitude n d e) ∧ uniform u < signed sg (magnitude n d e) then 1
      else if signed sg (magnitude n d e) < 0 ∧ uniform u < -signed sg (magnitude n d e) then -1 else 0) :
    k = signedInt sg m ∧ ∀ j : Int, signed sg (magnitude n d e) = j → k = j := by
  have hd' := frac_den_pos hd n e
  have hd0 : (0 : Rat) < (frac n d e).2 := by exact_mod_cast hd'
  have hdrawn := uniform_lt_iff (frac n d e).1 hd' u
  have hone : (frac n d e).2 ≤ (frac n d e).1 ↔ 1 ≤ magnitude n d e := by
    rw [← frac_eq, le_div_iff₀ hd0, one_mul]
    exact_mod_cast Iff.rfl
  have hq := magnitude_nonneg n d e
  have hu : 0 < uniform u := by
    unfold uniform
    positivity
  obtain ⟨hto, hexact, hinteger, -⟩ := roundInt_spec (m := .rne) nofun sg n hd e
  rw [frac_eq] at hdrawn
  simp only [hone, ← hdrawn] at hm
  by_cases hbig : 1 ≤ magnitude n d e
  · rw [if_pos hbig] at hm
    have hk := hto k (hround (by cases sg <;> simp [signed, hbig]))
    rw [← hm] at hk hexact
    refine ⟨hk, fun j hj => ?_⟩
    have hmag := hexact (hinteger _ (eq_natAbs_of_signed hq hj))
    have hcast : (k : Rat) = j := by rw [hk, signedInt_cast, hmag, hj]
    exact_mod_cast hcast
  · rw [if_neg hbig] at hm
    have hlt := not_le.1 hbig
    have hk := hdraw (by cases sg <;> simp [signed] <;> linarith) (by cases sg <;> simp [signed] <;> linarith)
    have hpos (h : uniform u < magnitude n d e) : 0 < magnitude n d e := hu.trans h
    refine ⟨?_, fun j hj => ?_⟩
    · rw [hk, hm]
      by_cases h : uniform u < magnitude n d e
      · cases sg <;> simp [signed, signedInt, h, hpos h, (hpos h).le]
      · cases sg <;> simp [signed, signedInt, h, hq]
    · have hj0 : j = 0 := by
        have habs := eq_natAbs_of_signed hq hj
        rw [habs] at hlt
        have : j.natAbs < 1 := by exact_mod_cast hlt
        omega
      rw [hk, hj, hj0]
      simp
/-- An operand that QCVT takes as its scale. -/
theorem scale_of_not_special {w : Word} (h : (NaN w || low31 w == 0 || low31 w == inf31) = false) : NaN w = false ∧ low31 w ≠ 0 ∧ low31 w < inf31 := by
  simp only [Bool.or_eq_false_iff, NaN, decide_eq_false_iff_not, beq_eq_false_iff_ne] at h
  obtain ⟨⟨hn, hz⟩, hi⟩ := h
  exact ⟨decide_eq_false hn, hz, by omega⟩

theorem qcvt8_finite {sym : Bool} {u x sc : Word} (hx : low31 x < inf31) (hs : low31 sc < inf31) (hz : low31 sc ≠ 0) {k : Int}
    (hround : 1 ≤ num x / num sc ∨ num x / num sc ≤ -1 → RoundsTo .rne (num x / num sc) k)
    (hdraw : -1 < num x / num sc → num x / num sc < 1 → k = if 0 < num x / num sc ∧ uniform u < num x / num sc then 1
      else if num x / num sc < 0 ∧ uniform u < -(num x / num sc) then -1 else 0) :
    let v : Int := min 83 (max (if sym then -83 else -84) k)
    qcvt8 sym u x sc = (BitVec.ofNat 8 (residues v), (if v = k then 0 else stOF) ||| (if num x / num sc = v then 0 else stIX)) := by
  have hrx := reads_val32 x
  have hrs := reads_val32 sc
  unfold qcvt8
  generalize val32 x = a at hrx
  generalize val32 sc = b at hrs
  cases hrx with
  | nan h => exact absurd h (not_NaN_of_lt hx)
  | inf h => exact absurd h hx.ne
  | fin n e _ hmx =>
    cases hrs with
    | nan h => exact absurd h (not_NaN_of_lt hs)
    | inf h => exact absurd h hs.ne
    | fin n' e' _ hms =>
      have hn' : n' ≠ 0 := fun h => hz (by simpa [h] using low31_beq_zero hms)
      obtain ⟨n', rfl⟩ := Nat.exists_eq_succ_of_ne_zero hn'
      have hdiv : divEx (.fin (minus x) n 1 e) (.fin (minus sc) (n' + 1) 1 e') = .fin (minus x != minus sc) n (n' + 1) (e - e') := by simp [divEx]
      have hq : num x / num sc = signed (minus x != minus sc) (magnitude n (n' + 1) (e - e')) := by
        rw [num, num, ← hmx, ← hms, magnitude_natCast, magnitude_natCast, magnitude, zpow_sub₀ two_ne_zero]
        cases minus x <;> cases minus sc <;> simp [signed, mul_div_mul_comm, neg_div, div_neg]
      rw [hq] at hround hdraw ⊢
      dsimp only
      rw [Nat.succ_eq_add_one, hdiv]
      dsimp only
      generalize hm : (if (frac n (n' + 1) (e - e')).2 ≤ (frac n (n' + 1) (e - e')).1 then _ else _) = m
      obtain ⟨hk, hexact⟩ := qcvt_integer n'.succ_pos hm.symm hround hdraw
      have hd0 : (0 : Rat) < (frac n (n' + 1) (e - e')).2 := by exact_mod_cast frac_den_pos n'.succ_pos n (e - e')
      have hv : (if (minus x != minus sc) then -(m : Int) else m) = k := hk.symm
      have hex : decide ((frac n (n' + 1) (e - e')).1 = m * (frac n (n' + 1) (e - e')).2)
          = decide (signed (minus x != minus sc) (magnitude n (n' + 1) (e - e')) = k) := by
        rw [decide_eq_decide, hk, signedInt_cast, signed_inj, ← frac_eq, div_eq_iff hd0.ne']
        exact_mod_cast Iff.rfl
      rw [hv, hex]
      generalize signed (minus x != minus sc) (magnitude n (n' + 1) (e - e')) = q at hexact ⊢
      have hlo : (if sym then -83 else -84 : Int) ≤ 83 := by cases sym <;> decide
      generalize (if sym then -83 else -84 : Int) = lo at hlo ⊢
      have hoverflow (j : Int) (hj : j ≠ k) : ¬ q = j := fun h => hj (hexact j h).symm
      by_cases hhi : 83 < k
      · rw [if_pos hhi, show min 83 (max lo k) = 83 by omega, if_neg (show ¬ (83 : Int) = k by omega), if_neg (hoverflow 83 (by omega))]
        rfl
      · by_cases hlow : k < lo
        · rw [if_neg hhi, if_pos hlow, show min 83 (max lo k) = lo by omega, if_neg (show ¬ lo = k by omega), if_neg (hoverflow lo (by omega))]
          rfl
        · rw [if_neg hhi, if_neg hlow, show min 83 (max lo k) = k by omega, if_pos rfl]
          by_cases hqk : q = k
          · rw [if_pos hqk, decide_eq_true hqk]
            rfl
          · rw [if_neg hqk, decide_eq_false hqk]
            rfl

/-- QCVT by an infinity (R145). -/
theorem qcvt8_infinite {sym : Bool} {u x sc : Word} (hx : low31 x = inf31) (hs : low31 sc < inf31) (hz : low31 sc ≠ 0) :
    qcvt8 sym u x sc = (BitVec.ofNat 8 (residues (if minus x != minus sc then (if sym then -83 else -84) else 83)), stOF ||| stIX) := by
  have hrx := reads_val32 x
  have hrs := reads_val32 sc
  unfold qcvt8
  generalize val32 x = a at hrx
  generalize val32 sc = b at hrs
  cases hrx with
  | nan h => exact absurd h (not_NaN_of_eq hx)
  | fin _ _ h => exact absurd hx h.ne
  | inf _ =>
    cases hrs with
    | nan h => exact absurd h (not_NaN_of_lt hs)
    | inf h => exact absurd h hs.ne
    | fin n' e' _ hms =>
      have hn' : n' ≠ 0 := fun h => hz (by simpa [h] using low31_beq_zero hms)
      obtain ⟨n', rfl⟩ := Nat.exists_eq_succ_of_ne_zero hn'
      rfl

/-- QCVT of a NaN, or by a scale that is none (R145). -/
theorem qcvt8_void {sym : Bool} {u x sc : Word} (h : (NaN x || NaN sc || low31 sc == 0 || low31 sc == inf31) = true) : qcvt8 sym u x sc = (0xFF, stNV) := by
  have hrx := reads_val32 x
  have hrs := reads_val32 sc
  have hzero (hx : low31 x ≤ inf31) (hs : low31 sc < inf31) : low31 sc = 0 := by
    rw [NaN_of_le hx, NaN_of_le hs.le, show (low31 sc == inf31) = false by simpa using hs.ne] at h
    simpa using h
  unfold qcvt8
  generalize val32 x = a at hrx
  generalize val32 sc = b at hrs
  cases hrx with
  | nan => rfl
  | inf hx =>
    cases hrs with
    | nan | inf => rfl
    | fin n' e' hs hms =>
      obtain rfl : n' = 0 := by simpa [hzero hx.le hs] using low31_beq_zero hms
      rfl
  | fin n e hx =>
    cases hrs with
    | nan | inf => rfl
    | fin n' e' hs hms =>
      obtain rfl : n' = 0 := by simpa [hzero hx.le hs] using low31_beq_zero hms
      rfl

/-- The fields of the byte of a value in range. -/
theorem residues_fields {v : Int} {b : Byte} (hb : b.toNat = residues v) :
    ((b.toNat / 32 : Nat) : Int) = v % 7 ∧ ((b.toNat / 4 % 8 : Nat) : Int) = v % 8 ∧ ((b.toNat % 4 : Nat) : Int) = v % 3 := by
  unfold residues at hb
  have h7 : ((v % 7).toNat : Int) = v % 7 := by omega
  have h8 : ((v % 8).toNat : Int) = v % 8 := by omega
  have h3 : ((v % 3).toNat : Int) = v % 3 := by omega
  rw [← h7, ← h8, ← h3]
  have hb7 : (v % 7).toNat < 7 := by omega
  have hb8 : (v % 8).toNat < 8 := by omega
  have hb3 : (v % 3).toNat < 3 := by omega
  rw [hb]
  clear hb h7 h8 h3
  generalize (v % 7).toNat = i at *
  generalize (v % 8).toNat = j at *
  generalize (v % 3).toNat = k at *
  simp only [Nat.cast_inj]
  have h4 : (i * 32 + j * 4 + k) / 4 = i * 8 + j := by omega
  rw [h4]
  refine ⟨?_, ?_, ?_⟩ <;> omega
/-- The byte of a value in range is read back (R144). -/
theorem rn8Val_residues {v : Int} {b : Byte} (h1 : -84 ≤ v) (h2 : v ≤ 83) (hb : b.toNat = residues v) : rn8Val b = v := by
  obtain ⟨h7, h8, h3⟩ := residues_fields hb
  unfold rn8Val
  dsimp only
  omega
/-- The byte of a value in range is not void (R144). -/
theorem not_void_residues {v : Int} {sym : Bool} {b : Byte} (h1 : (if sym then -83 else -84) ≤ v) (h2 : v ≤ 83) (hb : b.toNat = residues v) :
    (rn8Void b || (sym && b == 0x10)) = false := by
  obtain ⟨h7, h8, h3⟩ := residues_fields hb
  have hvoid : rn8Void b = false := by
    simp only [rn8Void, Bool.or_eq_false_iff, beq_eq_false_iff_ne]
    omega
  rw [hvoid, Bool.false_or]
  cases sym with
  | false => rfl
  | true =>
    have hne : b ≠ 0x10 := by
      rintro rfl
      simp at h1 h7 h8 h3
      omega
    simpa using hne

/-- The exact value of QDEQ (R145, R354). -/
theorem qdeq_stands (v : Int) {y : Ex} {sc : Word} (h : Ex.Reads y sc) :
    Stands (mulEx (ofInt v) y) (NaN sc || (!NaN sc && v == 0 && low31 sc == inf31)) (Signals sc || (!NaN sc && v == 0 && low31 sc == inf31))
      (if NaN sc || (v == 0 && low31 sc == inf31) then [] else
        [(decide (v < 0) != minus sc, if low31 sc < inf31 then some ((v.natAbs : Rat) * mag (low31 sc)) else none)]) := by
  cases h with
  | nan h => simpa [h, mulEx, ofInt] using Stands.nan (Signals sc)
  | inf h =>
    have hn := NaN_of_le h.le
    have hs := Signals_of_le h.le
    by_cases hv : v = 0
    · simpa [hn, hs, h, hv, mulEx, ofInt] using Stands.nan true
    · have hv' : (v == 0) = false := by simpa using hv
      simpa [hn, hs, h, hv, hv', mulEx, ofInt] using Stands.inf (decide (v < 0) != minus sc)
  | fin n e h hm =>
    have hn := NaN_of_le h.le
    have hs := Signals_of_le h.le
    have hi : (low31 sc == inf31) = false := by simpa using h.ne
    have hval : magnitude (v.natAbs * n) (1 * 1) (0 + e) = v.natAbs * mag (low31 sc) := by
      rw [magnitude_mul, hm, magnitude_natCast, zpow_zero, mul_one]
    have hst := Stands.fin (decide (v < 0) != minus sc) (v.natAbs * n) (0 + e) (d := 1 * 1) one_pos
    rw [hval] at hst
    simpa [hn, hs, h, hi, mulEx, ofInt] using hst

/-- QCVT and QDEQ (R144, R145, R354). -/
theorem residueValues : Rules.ResidueValues := by
  intro sym u x sc b
  dsimp only
  refine ⟨qcvt8_void, fun h => ?_, fun h => ?_, fun v h1 h2 hb => ?_⟩
  · have hspecial : (NaN sc || low31 sc == 0 || low31 sc == inf31) = false := by
      simp only [Bool.or_eq_false_iff] at h ⊢
      exact ⟨⟨h.1.1.2, h.1.2⟩, h.2⟩
    obtain ⟨-, hz, hs⟩ := scale_of_not_special hspecial
    exact ⟨fun hx => qcvt8_infinite hx hs hz, fun hx n hround hdraw => qcvt8_finite hx hs hz hround hdraw⟩
  · have hvoid : (rn8Void b || (sym && b == 0x10)) = true := by
      have hb := b.isLt
      simp only [Bool.or_eq_true, Bool.and_eq_true, beq_iff_eq, rn8Void]
      obtain h | h | h := h
      · exact .inl (.inl (by omega))
      · exact .inl (.inr h)
      · exact .inr h
    rw [qdeq8, hvoid, if_pos rfl]
  · have hval := rn8Val_residues (by split at h1 <;> omega) h2 hb
    have hvoid := not_void_residues h1 h2 hb
    have hr : qdeq8 sym b sc = rne32 (mulEx (ofInt v) (val32 sc)) := by
      rw [qdeq8, hvoid, if_neg Bool.false_ne_true, hval]
      cases val32 sc <;> rfl
    rw [hr]
    exact narrows_rne 0 (round32_narrows ((qdeq_stands v (reads_val32 sc)).sums .rne) (by simp [Bool.or_comm]) (by simp [Bool.or_comm]) 0)

end Sys2Proof.Machine

namespace Sys2Proof.Proofs
open Sys2Proof.Machine

/-- Settles O6: an exact sum of terms is narrowed as its exact value is rounded (`Fmt.Widens.narrows`), from which the arithmetic words, the
conversions and the residues follow; FMIN and FMAX by the order of their operands. -/
theorem floatValues : Obligations.FloatValues := ⟨arithmeticValues, minMaxValues, conversionValues, residueValues⟩

end Sys2Proof.Proofs

/-! SUPPORT. Proofs about the functions of FRCP, FRSQ, FSQRT, FEXP2 and FLOG2: the values adjacent to an exact one, and the root. -/

namespace Sys2Proof.Machine
open Rules

/-! ### The values adjacent to an exact one (R139) -/

/-- One of the two neighbours of a nonzero value. -/
theorem adjacent_fin {n d : Nat} (hn : 0 < n) {e : Int} {b r d' : Nat} {tiny : Bool} (h : fp32.floor n d e = (b, r, d', tiny)) (pick neg : Bool) :
    adjacent pick (.fin neg n d e) =
      if inf31 ≤ b then (signedWord neg inf31, stOF ||| stIX)
      else if r = 0 then (signedWord neg b, 0)
      else
        let b' := if pick then b + 1 else b
        (signedWord neg b', stIX ||| (if tiny then stUF else 0) ||| (if inf31 ≤ b' then stOF else 0)) := by
  unfold adjacent
  dsimp only
  rw [h]
  dsimp only
  rw [if_neg hn.ne']
  rfl

/-- The bounds of fp32's floor. -/
theorem floor32 {n d : Nat} (hn : 0 < n) (hd : 0 < d) (e : Int) : ∃ b r d' tiny, fp32.floor n d e = (b, r, d', tiny)
    ∧ mag b ≤ magnitude n d e ∧ magnitude n d e < mag (b + 1) ∧ (magnitude n d e = mag b ↔ r = 0) ∧ tiny = decide (magnitude n d e < 1 / 2 ^ 126) := by
  obtain ⟨b, r, d', tiny, h⟩ : ∃ b r d' tiny, fp32.floor n d e = (b, r, d', tiny) := ⟨_, _, _, _, rfl⟩
  obtain ⟨-, -, htiny⟩ := fp32_widens.floor_spec hn hd e h
  have hbounds := fp32_widens.floor_bounds hn hd e h
  rw [pow_zero, mul_one] at hbounds
  exact ⟨b, r, d', tiny, h, hbounds.1, hbounds.2.1, hbounds.2.2, htiny⟩

/-- The value adjacent to an exact one is what Adjoins says, where le and eq compare the magnitudes of words with it. -/
theorem adjacent_adjoins {n d : Nat} (hn : 0 < n) (hd : 0 < d) (e : Int) (pick neg : Bool) {le eq : Rat → Bool}
    (hle : ∀ k, le (mag k) = true ↔ mag k ≤ magnitude n d e) (heq : ∀ k, eq (mag k) = true ↔ mag k = magnitude n d e) :
    Adjoins neg pick le eq (adjacent pick (.fin neg n d e)).1.toNat (adjacent pick (.fin neg n d e)).2 := by
  obtain ⟨b, r, d', tiny, hfloor, hlow, hhigh, hexact, rfl⟩ := floor32 hn hd e
  rw [adjacent_fin hn hfloor]
  have hlast {k : Nat} (h : k ≤ inf31) : k < 2 ^ 31 := h.trans_lt (by decide)
  refine ⟨fun hbig => ?_, fun k hk hk1 hk2 => ?_⟩
  · rw [← mag_inf31, hle] at hbig
    have hb : inf31 < b + 1 := mag_strictMono.lt_iff_lt.1 (hbig.trans_lt hhigh)
    rw [if_pos (by omega)]
    exact ⟨signedWord_toNat (hlast le_rfl) neg, rfl⟩
  · have hk2' : magnitude n d e < mag (k + 1) := not_le.1 fun h => by simp [(hle _).2 h] at hk2
    obtain rfl : k = b := mag_between_unique ((hle k).1 hk1) hk2' hlow hhigh (one_dvd _) (one_dvd _)
    rw [if_neg (by omega)]
    refine ⟨fun hx => ?_, fun hx => ?_⟩
    · rw [if_pos (hexact.1 ((heq k).1 hx).symm)]
      exact ⟨signedWord_toNat (hlast hk.le) neg, rfl⟩
    · have hr : r ≠ 0 := fun h => by simp [(heq k).2 (hexact.2 h).symm] at hx
      have htiny : (if decide (magnitude n d e < 1 / 2 ^ 126) = true then stUF else 0) = if le (1 / 2 ^ 126) then 0 else stUF := by
        have hnormal := hle (2 ^ 23)
        rw [mag_normal] at hnormal
        by_cases h : (1 : Rat) / 2 ^ 126 ≤ magnitude n d e
        · rw [if_neg (by simpa using h), if_pos (hnormal.2 h)]
        · rw [if_pos (by simpa using h), if_neg (fun hn => h (hnormal.1 hn))]
      rw [if_neg hr, htiny]
      dsimp only
      cases pick with
      | false =>
        refine ⟨signedWord_toNat (hlast hk.le) neg, ?_⟩
        simp [Nat.not_le.2 hk]
      | true =>
        refine ⟨signedWord_toNat (hlast hk) neg, ?_⟩
        have : inf31 ≤ k + 1 ↔ k + 1 = inf31 := by omega
        simp [this]

/-- The adjacent value keeps between words that hold the exact one between them. -/
theorem adjacent_between {n d : Nat} (hn : 0 < n) (hd : 0 < d) (e : Int) (pick neg : Bool) {i j : Nat} (hj : j ≤ inf31)
    (hi : mag i ≤ magnitude n d e) (hj' : magnitude n d e ≤ mag j) :
    ∃ k, (adjacent pick (.fin neg n d e)).1 = signedWord neg k ∧ i ≤ k ∧ k ≤ j := by
  obtain ⟨b, r, d', tiny, hfloor, hlow, hhigh, hexact, -⟩ := floor32 hn hd e
  rw [adjacent_fin hn hfloor]
  have hib : i < b + 1 := mag_strictMono.lt_iff_lt.1 (hi.trans_lt hhigh)
  have hbj : b ≤ j := mag_strictMono.le_iff_le.1 (hlow.trans hj')
  split
  next h => exact ⟨inf31, rfl, by omega, by omega⟩
  next h =>
    split
    next hr => exact ⟨b, rfl, by omega, hbj⟩
    next hr =>
      have hne : b ≠ j := fun h => hr (hexact.1 (le_antisymm (h ▸ hj') hlow))
      refine ⟨_, rfl, ?_, ?_⟩ <;> split <;> omega
/-- The adjacent value of one that a word holds is that word. -/
theorem adjacent_exact {n d : Nat} (hd : 0 < d) {e : Int} {k : Nat} (hk : k < inf31) (h : magnitude n d e = mag k) (pick neg : Bool) :
    adjacent pick (.fin neg n d e) = (signedWord neg k, 0) := by
  rcases Nat.eq_zero_or_pos n with rfl | hn
  · have hk0 : k = 0 := by rwa [magnitude_zero, eq_comm, ← mag_zero, mag_strictMono.injective.eq_iff] at h
    subst hk0
    unfold adjacent
    dsimp only
    rw [if_pos rfl]
    rfl
  · obtain ⟨b, r, d', tiny, hfloor, hlow, hhigh, hexact, -⟩ := floor32 hn hd e
    obtain rfl : k = b := mag_between_unique h.ge (h ▸ mag_strictMono (Nat.lt_succ_self k)) hlow hhigh (one_dvd _) (one_dvd _)
    rw [adjacent_fin hn hfloor, if_neg (not_le.2 hk), if_pos (hexact.1 h)]
/-- A value of at least 2^128 overflows. -/
theorem adjacent_overflow {n d : Nat} (hn : 0 < n) (hd : 0 < d) {e : Int} (h : 2 ^ 128 ≤ magnitude n d e) (pick neg : Bool) :
    adjacent pick (.fin neg n d e) = (signedWord neg inf31, stOF ||| stIX) := by
  obtain ⟨b, r, d', tiny, hfloor, -, hhigh, -, -⟩ := floor32 hn hd e
  rw [← mag_inf31] at h
  have hb : inf31 < b + 1 := mag_strictMono.lt_iff_lt.1 (h.trans_lt hhigh)
  rw [adjacent_fin hn hfloor, if_pos (by omega)]
/-- A value below the lowest subnormal number lies between zero and it. -/
theorem adjacent_underflow {n d : Nat} (hn : 0 < n) (hd : 0 < d) {e : Int} (h : magnitude n d e < mag 1) (pick neg : Bool) :
    adjacent pick (.fin neg n d e) = (signedWord neg (if pick then 1 else 0), stIX ||| stUF) := by
  obtain ⟨b, r, d', tiny, hfloor, hlow, hhigh, hexact, rfl⟩ := floor32 hn hd e
  obtain rfl : b = 0 := by
    have hb : b < 1 := mag_strictMono.lt_iff_lt.1 (hlow.trans_lt h)
    omega
  have hr : r ≠ 0 := fun hr => (magnitude_pos hn hd e).ne' ((hexact.2 hr).trans mag_zero)
  have htiny : magnitude n d e < 1 / 2 ^ 126 := by
    rw [← mag_normal]
    exact h.trans (mag_strictMono (by decide))
  rw [adjacent_fin hn hfloor, if_neg (by decide), if_neg hr, decide_eq_true htiny]
  cases pick <;> rfl

/-! ### The root (R139) -/

theorem isqrtFrom_spec (n : Nat) : ∀ (k r : Nat), r * r ≤ n → n < (r + 2 ^ (k + 1)) * (r + 2 ^ (k + 1)) →
    isqrtFrom n k r * isqrtFrom n k r ≤ n ∧ n < (isqrtFrom n k r + 1) * (isqrtFrom n k r + 1)
  | 0, r, hlow, hhigh => by
    unfold isqrtFrom
    split
    next h => exact ⟨h, hhigh⟩
    next h => exact ⟨hlow, not_le.1 h⟩
  | k + 1, r, hlow, hhigh => by
    unfold isqrtFrom
    have hstep : r + 2 ^ (k + 1 + 1) = r + 2 ^ (k + 1) + 2 ^ (k + 1) := by ring
    split
    next h => exact isqrtFrom_spec n k _ h (hstep ▸ hhigh)
    next h => exact isqrtFrom_spec n k r hlow (not_le.1 h)
/-- The root by bits is the root. -/
theorem isqrt_eq_sqrt (n : Nat) : isqrt n = Nat.sqrt n := by
  have hbits : Nat.log2 n + 1 ≤ 2 * (Nat.log2 n / 2 + 1 + 1) := by omega
  have hlt : n < 2 ^ (Nat.log2 n / 2 + 1 + 1) * 2 ^ (Nat.log2 n / 2 + 1 + 1) := by
    rw [← pow_add, ← two_mul]
    exact Nat.lt_log2_self.trans_le (Nat.pow_le_pow_right two_pos hbits)
  obtain ⟨h1, h2⟩ := isqrtFrom_spec n (Nat.log2 n / 2 + 1) 0 (Nat.zero_le _) (by rwa [zero_add])
  exact Nat.eq_sqrt.2 ⟨h1, h2⟩

/-- sqrtEx is r units and a sticky half, where r units are the largest whole number of them whose square is at most the operand. -/
theorem sqrtEx_spec {n d : Nat} (hn : 0 < n) (hd : 0 < d) (hd24 : d < 2 ^ 24) (e : Int) : ∃ (r s : Nat) (h : Int),
    sqrtEx n d e = .fin false s 1 (h - 1) ∧ 2 ^ 48 ≤ r ∧ (r : Rat) * 2 ^ h ≤ magnitude s 1 (h - 1) ∧ magnitude s 1 (h - 1) < (r + 1 : Nat) * 2 ^ h
    ∧ (∀ k : Nat, ((k : Rat) * 2 ^ h) * (k * 2 ^ h) ≤ magnitude n d e ↔ k ≤ r)
    ∧ (((r : Rat) * 2 ^ h) * (r * 2 ^ h) = magnitude n d e ↔ magnitude s 1 (h - 1) = r * 2 ^ h) := by
  have hd0 : (0 : Rat) < d := by exact_mod_cast hd
  obtain ⟨n', h, hbig, hval, hsqrt⟩ : ∃ (n' : Nat) (h : Int), n * 2 ^ 120 ≤ n' ∧ magnitude n d e = (n' : Rat) / d * (2 ^ h * 2 ^ h)
      ∧ sqrtEx n d e = .fin false (2 * isqrt (n' / d) + (if isqrt (n' / d) * isqrt (n' / d) = n' / d ∧ n' % d = 0 then 0 else 1)) 1 (h - 1) := by
    unfold sqrtEx
    dsimp only
    by_cases heven : (e - 120) % 2 = 0
    · rw [if_pos heven]
      refine ⟨n * 2 ^ 120, (e - 120) / 2, le_rfl, ?_, rfl⟩
      rw [← zpow_add₀ two_ne_zero, show (e - 120) / 2 + (e - 120) / 2 = e - (120 : Nat) by omega, zpow_sub₀ two_ne_zero, zpow_natCast, magnitude]
      push_cast
      field_simp
      norm_num
    · rw [if_neg heven]
      refine ⟨n * 2 ^ 121, (e - 120 - 1) / 2, by omega, ?_, rfl⟩
      rw [← zpow_add₀ two_ne_zero, show (e - 120 - 1) / 2 + (e - 120 - 1) / 2 = e - (121 : Nat) by omega, zpow_sub₀ two_ne_zero, zpow_natCast, magnitude]
      push_cast
      field_simp
      norm_num
  rw [isqrt_eq_sqrt] at hsqrt
  have hfloor (k : Nat) : (k : Rat) * k ≤ (n' : Rat) / d ↔ k ≤ Nat.sqrt (n' / d) := by
    rw [Nat.le_sqrt, Nat.le_div_iff_mul_le hd, le_div_iff₀ hd0]
    exact_mod_cast Iff.rfl
  have hexact : ((Nat.sqrt (n' / d) : Nat) : Rat) * Nat.sqrt (n' / d) = (n' : Rat) / d ↔ Nat.sqrt (n' / d) * Nat.sqrt (n' / d) = n' / d ∧ n' % d = 0 := by
    generalize Nat.sqrt (n' / d) = r
    rw [eq_div_iff hd0.ne']
    norm_cast
    refine ⟨fun h => ?_, fun ⟨h, hr⟩ => ?_⟩
    · rw [← h]
      exact ⟨(Nat.mul_div_cancel _ hd).symm, Nat.mul_mod_left ..⟩
    · rw [h]
      exact Nat.div_mul_cancel (Nat.dvd_of_mod_eq_zero hr)
  generalize Nat.sqrt (n' / d) = r at hsqrt hfloor hexact
  have h2 : (0 : Rat) < 2 ^ h := by positivity
  have hs (s : Nat) : magnitude s 1 (h - 1) = (s : Rat) / 2 * 2 ^ h := by
    rw [magnitude_natCast, zpow_sub₀ two_ne_zero, zpow_one]
    ring
  have hsq (k : Nat) : ((k : Rat) * 2 ^ h) * (k * 2 ^ h) = k * k * (2 ^ h * 2 ^ h) := by ring
  refine ⟨r, _, h, hsqrt, ?_, ?_, ?_, fun k => ?_, ?_⟩
  · rw [← hfloor, le_div_iff₀ hd0]
    have hdn : 2 ^ 48 * 2 ^ 48 * d ≤ n' := by omega
    exact_mod_cast hdn
  · rw [hs, mul_le_mul_iff_left₀ h2, le_div_iff₀ two_pos]
    push_cast
    split <;> simp [mul_comm]
  · rw [hs, mul_lt_mul_iff_left₀ h2, div_lt_iff₀ two_pos]
    split <;> push_cast <;> linarith
  · rw [hsq, hval, mul_le_mul_iff_left₀ (by positivity), hfloor]
  · rw [hsq, hval, mul_left_inj' (by positivity), hexact, hs, mul_left_inj' h2.ne']
    split
    next h => simp [h]
    next h =>
      push_cast
      exact ⟨fun hr => absurd hr h, fun hr => by linarith⟩

/-- A root, taken with a sticky bit: it compares with the magnitudes of words, and with the middle of the two about it, as the true root
does. -/
theorem sqrtEx_compares {n d : Nat} (hn : 0 < n) (hd : 0 < d) (hd24 : d < 2 ^ 24) (e : Int) : ∃ (s : Nat) (h : Int),
    sqrtEx n d e = .fin false s 1 h ∧ 0 < s
    ∧ (∀ k, (mag k ≤ magnitude s 1 h ↔ mag k * mag k ≤ magnitude n d e) ∧ (mag k = magnitude s 1 h ↔ mag k * mag k = magnitude n d e))
    ∧ ∀ k, magnitude n d e < mag (k + 1) * mag (k + 1) → let mid := (mag k + mag (k + 1)) / 2
      (mid ≤ magnitude s 1 h ↔ mid * mid ≤ magnitude n d e) ∧ (mid = magnitude s 1 h ↔ mid * mid = magnitude n d e) := by
  obtain ⟨r, s, h, hsqrt, hbig, hlow, hhigh, hsq, hexact⟩ := sqrtEx_spec hn hd hd24 e
  generalize magnitude n d e = x at hsq hexact
  have h2 : (0 : Rat) < 2 ^ h := by positivity
  have hr : (2 : Rat) ^ 48 ≤ r := by exact_mod_cast hbig
  refine ⟨s, h - 1, hsqrt, Nat.pos_of_ne_zero fun hs => ?_, ?_⟩
  · rw [hs, magnitude_zero] at hlow
    have hpos : 0 < (r : Rat) * 2 ^ h := by positivity
    exact absurd hlow (not_le.2 hpos)
  generalize magnitude s 1 (h - 1) = v at hlow hhigh hexact
  have hwhole (a : Nat) : ((a : Rat) * 2 ^ h ≤ v ↔ (a * 2 ^ h) * (a * 2 ^ h) ≤ x) ∧ ((a : Rat) * 2 ^ h = v ↔ (a * 2 ^ h) * (a * 2 ^ h) = x) := by
    have hle : (a : Rat) * 2 ^ h ≤ v ↔ a ≤ r := by
      refine ⟨fun ha => ?_, fun ha => le_trans (by gcongr) hlow⟩
      have hlt := (mul_lt_mul_iff_left₀ h2).1 (ha.trans_lt hhigh)
      rw [Nat.cast_lt] at hlt
      omega
    refine ⟨hle.trans (hsq a).symm, fun ha => ?_, fun ha => ?_⟩
    · obtain rfl : a = r := le_antisymm (hle.1 ha.le) (by
        rw [← ha] at hlow
        exact_mod_cast (mul_le_mul_iff_left₀ h2).1 hlow)
      exact hexact.2 ha.symm
    · obtain rfl : a = r := le_antisymm ((hsq a).1 ha.le) (by
        have hra := (hsq r).2 le_rfl
        rw [← ha, ← mul_self_le_mul_self_iff (by positivity) (by positivity), mul_le_mul_iff_left₀ h2] at hra
        exact_mod_cast hra)
      exact (hexact.1 ha).symm
  have hbelow {g : Rat} (hg : 0 ≤ g) (hgr : g < r * 2 ^ h) : (g ≤ v ↔ g * g ≤ x) ∧ (g = v ↔ g * g = x) := by
    have hv : g < v := hgr.trans_le hlow
    have hx : g * g < x := (mul_self_lt_mul_self hg hgr).trans_le ((hsq r).2 le_rfl)
    exact ⟨iff_of_true hv.le hx.le, iff_of_false hv.ne hx.ne⟩
  refine ⟨fun k => ?_, fun k hk => ?_⟩
  · by_cases hlarge : 2 ^ 23 * (2 : Rat) ^ h ≤ mag k
    · obtain ⟨a, ha⟩ := mag_multiple hlarge
      exact ha ▸ hwhole a
    · exact hbelow (mag_nonneg k) ((not_le.1 hlarge).trans (by gcongr; linarith))
  · have hbig' : 2 ^ 24 * (2 : Rat) ^ (h + 1) ≤ mag (k + 1) := by
      by_contra hsmall
      have hlt : mag (k + 1) < r * 2 ^ h := by
        refine (not_le.1 hsmall).trans ?_
        rw [zpow_add₀ two_ne_zero, zpow_one]
        nlinarith
      exact absurd hk (not_lt.2 ((hbelow (mag_nonneg _) hlt).1.1 (hlt.trans_le hlow).le))
    obtain ⟨⟨a, ha⟩, b, hb⟩ := mag_multiple_pair hbig'
    have hmid : (mag k + mag (k + 1)) / 2 = (a + b : Nat) * 2 ^ h := by
      rw [ha, hb, zpow_add₀ two_ne_zero, zpow_one]
      push_cast
      ring
    dsimp only
    rw [hmid]
    exact hwhole (a + b)

end Sys2Proof.Machine

/-! SUPPORT. Proofs about the functions of FRCP, FRSQ, FSQRT, FEXP2 and FLOG2: their values. -/

namespace Sys2Proof.Machine
open Rules

/-- The whole number of a finite value of a format has its precision. -/
theorem Fmt.Widens.num_lt {f : Fmt} {sh : Nat} (hf : f.Widens sh) {b : Nat} {neg : Bool} {n d : Nat} {e : Int} (h : f.value b = .fin neg n d e) : n < 2 ^ f.p := by
  have hunit : 0 < 2 ^ (f.p - 1) := by positivity
  have hp : 2 ^ f.p = 2 ^ (f.p - 1) + 2 ^ (f.p - 1) := by rw [← two_mul, ← pow_succ', Nat.sub_add_cancel hf.hidden]
  unfold Fmt.value at h
  dsimp only at h
  generalize b % f.sign = m at h
  split at h
  · cases h
  · split at h
    · cases h
    · split at h
      next hx =>
        have hm := Nat.lt_of_div_eq_zero hunit hx
        cases h
        omega
      next =>
        have hm := Nat.mod_lt m hunit
        cases h
        omega

/-- A function of a nonzero number. -/
theorem fun32_nonzero {a : Word} {n d : Nat} {e : Int} (hval : val32 a = .fin (minus a) n d e) (hn : 0 < n) (f : Fun) (pick : Bool) : fun32 f pick a =
    if minus a && (f == .rsq || f == .sqrt || f == .log2) then (0x7FC00000, stNV)
    else if f == .sqrt then rne32 (funEx f (minus a) n d e) else adjacent pick (funEx f (minus a) n d e) := by
  unfold fun32
  rw [hval]
  dsimp only
  rw [if_neg hn.ne']
  rfl

/-- The exact reciprocal. -/
theorem reciprocal_magnitude {a : Word} {n : Nat} {e : Int} (hm : magnitude n 1 e = mag (low31 a)) : magnitude 1 n (-e) = 1 / mag (low31 a) := by
  rw [← hm, magnitude_natCast, magnitude, Nat.cast_one, zpow_neg, one_div_mul_eq_div, inv_eq_one_div, div_div, mul_comm]

/-- A normal value is rounded to the nearest of two words, or to the even one of them (R135). -/
theorem roundedAt_nearest {u v : Rat} {k r : Nat} {st : Word} (h : RoundedAt 1 false .rne u false v k r st) (hk : mag k ≤ v)
    (hnormal : ¬ v < 1 / 2 ^ 126) (hlast : k + 1 ≠ inf31) :
    let mid := (mag k + mag (k + 1)) / 2
    (v = mag k → (r, st) = (k, 0)) ∧ (v ≠ mag k → v < mid → (r, st) = (k, stIX)) ∧ (mid < v → (r, st) = (k + 1, stIX))
    ∧ (v = mid → (r, st) = (k + k % 2, stIX)) := by
  have hstep : mag k < mag (k + 1) := mag_strictMono (Nat.lt_succ_self k)
  have hw : 0 < mag (k + 1) - mag k := sub_pos.2 hstep
  have hhalf : 1 / 2 < (v - mag k) / (mag (k + 1) - mag k) ↔ (mag k + mag (k + 1)) / 2 < v := by
    rw [lt_div_iff₀ hw]
    constructor <;> intro h <;> linarith
  have htie : (v - mag k) / (mag (k + 1) - mag k) = 1 / 2 ↔ v = (mag k + mag (k + 1)) / 2 := by
    rw [div_eq_iff hw.ne']
    constructor <;> intro h <;> linarith
  obtain ⟨hexact, hinexact⟩ := h
  simp only [Away, hhalf, htie, hnormal, hlast, if_false, Bool.false_eq_true, false_and, Nat.div_one, beq_iff_eq, zero_add] at hexact hinexact
  dsimp only
  refine ⟨fun h => ?_, fun hne hlt => ?_, fun hlt => ?_, fun h => ?_⟩
  · exact Prod.ext_iff.2 (hexact h)
  · exact Prod.ext_iff.2 ((hinexact (lt_of_le_of_ne hk (Ne.symm hne))).2 (by rintro (h | ⟨h, -⟩) <;> linarith))
  · exact Prod.ext_iff.2 ((hinexact (by linarith)).1 (.inl hlt))
  · obtain ⟨hodd, heven⟩ := hinexact (by linarith)
    rcases Nat.mod_two_eq_zero_or_one k with h0 | h1
    · rw [h0]
      exact Prod.ext_iff.2 (heven (by rintro (h' | ⟨-, h'⟩) <;> [linarith; omega]))
    · rw [h1]
      exact Prod.ext_iff.2 (hodd (.inr ⟨h, h1⟩))

section
variable {a : Word} (h0 : 0 < low31 a) (hfin : low31 a < inf31)
include h0 hfin

/-- What FRCP and the others compute on: the operand's sign and its exact magnitude. -/
theorem fun32_operand : ∃ (n : Nat) (e : Int), val32 a = .fin (minus a) n 1 e ∧ 0 < n ∧ n < 2 ^ 24 ∧ magnitude n 1 e = mag (low31 a) := by
  have hx := reads_val32 a
  generalize hv : val32 a = x at hx
  cases hx with
  | nan h => exact absurd h (not_NaN_of_lt hfin)
  | inf h => exact absurd h hfin.ne
  | fin n e _ hm =>
    refine ⟨n, e, rfl, Nat.pos_of_ne_zero ?_, fp32_widens.num_lt hv, hm⟩
    rintro rfl
    exact (mag_pos h0).ne' (hm.symm.trans (magnitude_zero ..))

/-- FRSQ, FSQRT and FLOG2 of a negative number (R139). -/
theorem fun32_negative (hneg : minus a = true) {f : Fun} (hf : f = .rsq ∨ f = .sqrt ∨ f = .log2) (pick : Bool) : fun32 f pick a = (0x7FC00000, stNV) := by
  obtain ⟨n, e, hval, hn, -, -⟩ := fun32_operand h0 hfin
  rw [fun32_nonzero hval hn, hneg]
  obtain rfl | rfl | rfl := hf <;> rfl

/-- FRCP (R139). -/
theorem frcp_adjoins (pick : Bool) : Adjoins (minus a) pick (fun q => decide (q * mag (low31 a) ≤ 1)) (fun q => decide (q * mag (low31 a) = 1))
    (fun32 .rcp pick a).1.toNat (fun32 .rcp pick a).2 := by
  obtain ⟨n, e, hval, hn, -, hm⟩ := fun32_operand h0 hfin
  have hx := mag_pos h0
  have hinv := reciprocal_magnitude hm
  have hfun : fun32 .rcp pick a = adjacent pick (.fin (minus a) 1 n (-e)) := by
    rw [fun32_nonzero hval hn]
    cases minus a <;> rfl
  rw [hfun]
  refine adjacent_adjoins one_pos hn (-e) pick (minus a) (fun k => ?_) fun k => ?_
  · rw [hinv, decide_eq_true_eq, le_div_iff₀ hx]
  · rw [hinv, decide_eq_true_eq, eq_div_iff hx.ne']

variable (hpos : minus a = false)
include hpos

/-- FRSQ (R139). -/
theorem frsq_adjoins (pick : Bool) : Adjoins false pick (fun q => decide (q * q * mag (low31 a) ≤ 1)) (fun q => decide (q * q * mag (low31 a) = 1))
    (fun32 .rsq pick a).1.toNat (fun32 .rsq pick a).2 := by
  obtain ⟨n, e, hval, hn, hn24, hm⟩ := fun32_operand h0 hfin
  have hx := mag_pos h0
  have hinv := reciprocal_magnitude hm
  obtain ⟨s, h, hsqrt, hs, hcmp, -⟩ := sqrtEx_compares one_pos hn hn24 (-e)
  have hfun : fun32 .rsq pick a = adjacent pick (.fin false s 1 h) := by
    rw [fun32_nonzero hval hn, hpos, ← hsqrt]
    rfl
  rw [hfun]
  refine adjacent_adjoins hs one_pos h pick false (fun k => ?_) fun k => ?_
  · rw [(hcmp k).1, hinv, decide_eq_true_eq, le_div_iff₀ hx]
  · rw [(hcmp k).2, hinv, decide_eq_true_eq, eq_div_iff hx.ne']

/-- FSQRT (R139). -/
theorem fsqrt_values (pick : Bool) {k : Nat} (hk : mag k * mag k ≤ mag (low31 a)) (hk' : mag (low31 a) < mag (k + 1) * mag (k + 1)) :
    let mid := (mag k + mag (k + 1)) / 2
    let r : Nat × Word := ((fun32 .sqrt pick a).1.toNat, (fun32 .sqrt pick a).2)
    (mag (low31 a) = mag k * mag k → r = (k, 0)) ∧ (mag (low31 a) ≠ mag k * mag k → mag (low31 a) < mid * mid → r = (k, stIX))
    ∧ (mid * mid < mag (low31 a) → r = (k + 1, stIX)) ∧ (mag (low31 a) = mid * mid → r = (k + k % 2, stIX)) := by
  obtain ⟨n, e, hval, hn, -, hm⟩ := fun32_operand h0 hfin
  obtain ⟨s, h, hsqrt, hs, hcmp, hmid⟩ := sqrtEx_compares hn one_pos (by decide) e
  rw [hm] at hcmp hmid
  obtain ⟨hmid1, hmid2⟩ := hmid k hk'
  have hfun : fun32 .sqrt pick a = round32 .rne 0 (.fin false s 1 h) := by
    rw [fun32_nonzero hval hn, hpos, ← hsqrt]
    rfl
  have hround := fp32_widens.rounded hs one_pos h .rne 0 (vec := false) nofun false
  rw [pow_zero, mul_one, ← round32_toNat] at hround
  dsimp only
  rw [hfun]
  have hst : (fp32.round .rne 0 false (.fin false s 1 h)).2 = (round32 .rne 0 (.fin false s 1 h)).2 := rfl
  rw [hst] at hround
  generalize (round32 .rne 0 (.fin false s 1 h)).1.toNat = r at hround
  generalize (round32 .rne 0 (.fin false s 1 h)).2 = st at hround
  have hk31 : k + 1 < inf31 := by
    have hsmall : mag k < mag (191 * 2 ^ 23) := by
      have hx := hk.trans_lt (mag_strictMono hfin)
      rw [mag_inf31] at hx
      rw [mag_pow (by decide)]
      exact lt_of_mul_self_lt_mul_self₀ (by positivity) (hx.trans_eq (by norm_num))
    have := mag_strictMono.lt_iff_lt.1 hsmall
    unfold inf31
    omega
  have hnormal : ¬ magnitude s 1 h < 1 / 2 ^ 126 := by
    rw [not_lt, ← mag_normal, (hcmp _).1, mag_normal]
    have h1 : mag 1 ≤ mag (low31 a) := mag_strictMono.monotone h0
    refine le_trans ?_ h1
    norm_num [mag]
  have hlow := (hcmp k).1.2 hk
  have hhigh : magnitude s 1 h < mag (k + 1) := not_le.1 fun h => absurd hk' (not_lt.2 ((hcmp (k + 1)).1.1 h))
  obtain ⟨h1, h2, h3, h4⟩ := roundedAt_nearest (hround.2 k (Nat.mod_one k) (by omega) hlow hhigh) hlow hnormal hk31.ne
  refine ⟨fun h => h1 ((hcmp k).2.2 h.symm).symm, fun hne hlt => h2 (fun h => hne ((hcmp k).2.1 h.symm).symm) ?_, fun hlt => h3 ?_,
    fun h => h4 (hmid2.2 h.symm).symm⟩
  · exact not_le.1 fun h => absurd hlt (not_lt.2 (hmid1.1 h))
  · exact lt_of_le_of_ne (hmid1.2 hlt.le) fun h => hlt.ne (hmid2.1 h)
end

/-! ### FEXP2 (R139) -/

theorem expFrom_mono {x x' : Nat} (hx : x ≤ x') : ∀ (k i : Nat) {t t' : Nat}, t ≤ t' → expFrom x k i t ≤ expFrom x' k i t'
  | 0, _, _, _, _ => le_rfl
  | k + 1, i, _, _, ht =>
    Nat.add_le_add ht (expFrom_mono hx k (i + 1) (Nat.div_le_div_right (Nat.div_le_div_right (Nat.mul_le_mul ht hx))))
/-- The Taylor sum stays between 1 and 2 up to ln 2, both in fixed point. -/
theorem expFix_bounds {x : Nat} (hx : x ≤ ln2Fix) : 2 ^ 192 ≤ expFix x ∧ expFix x < 2 ^ 193 :=
  ⟨Nat.le_add_right _ _, (expFrom_mono hx 60 0 le_rfl).trans_lt (show expFix ln2Fix < 2 ^ 193 by decide)⟩

/-- The floor of a signed fraction, and what is left, as funEx takes them. -/
theorem exp2_split (neg : Bool) (n : Nat) {d : Nat} (hd : 0 < d) :
    (if neg then (d - n % d) % d else n % d) < d
    ∧ signed neg ((n : Rat) / d) = ((if neg then -((n + d - 1) / d : Nat) else (n / d : Nat) : Int) : Rat)
      + ((if neg then (d - n % d) % d else n % d : Nat) : Rat) / d := by
  have hd0 : (0 : Rat) < d := by exact_mod_cast hd
  have hr := Nat.mod_lt n hd
  have hdm := Nat.div_add_mod n d
  cases neg with
  | false =>
    refine ⟨hr, ?_⟩
    simp only [signed, Bool.false_eq_true, if_false, Int.cast_natCast]
    rw [div_eq_iff hd0.ne', add_mul, div_mul_cancel₀ _ hd0.ne', mul_comm]
    exact_mod_cast hdm.symm
  | true =>
    refine ⟨Nat.mod_lt _ hd, ?_⟩
    simp only [signed, if_true, Int.cast_neg, Int.cast_natCast]
    have hceil : (n + d - 1) / d * d = n + (d - n % d) % d := by
      generalize n % d = i at hr hdm ⊢
      generalize n / d = m at hdm
      rw [← hdm]
      rcases Nat.eq_zero_or_pos i with rfl | hpos
      · rw [show d * m + 0 + d - 1 = d * m + (d - 1) by omega, Nat.mul_add_div hd, Nat.div_eq_of_lt (by omega), Nat.sub_zero, Nat.mod_self]
        ring
      · rw [show d * m + i + d - 1 = d * (m + 1) + (i - 1) by rw [mul_add, mul_one]; omega, Nat.mul_add_div hd, Nat.div_eq_of_lt (by omega),
          Nat.mod_eq_of_lt (by omega), add_zero, add_mul, one_mul, mul_comm m]
        omega
    have hceil' : (((n + d - 1) / d : Nat) : Rat) = (n + ((d - n % d) % d : Nat)) / d := by
      rw [eq_div_iff hd0.ne']
      exact_mod_cast hceil
    rw [hceil']
    ring

/-- The exact value of FEXP2 lies between the powers of two about it; it is the power where the operand is an integer (R139). -/
theorem funEx_exp2 (neg : Bool) (n : Nat) (e : Int) : ∃ (m : Nat) (h q : Int), funEx .exp2 neg n 1 e = .fin false m 1 h ∧ 0 < m
    ∧ (q : Rat) ≤ signed neg (magnitude n 1 e) ∧ signed neg (magnitude n 1 e) < q + 1
    ∧ (2 : Rat) ^ max (-1000) (min 1000 q) ≤ magnitude m 1 h ∧ magnitude m 1 h < 2 ^ (max (-1000) (min 1000 q) + 1)
    ∧ (signed neg (magnitude n 1 e) = q → magnitude m 1 h = 2 ^ max (-1000) (min 1000 q)) := by
  have hd := frac_den_pos one_pos n e
  rw [← frac_eq]
  unfold funEx
  dsimp only
  generalize (frac n 1 e).1 = n' at *
  generalize (frac n 1 e).2 = d' at *
  obtain ⟨hrd, hsplit⟩ := exp2_split neg n' hd
  rw [hsplit]
  generalize (if neg then -((n' + d' - 1) / d' : Nat) else (n' / d' : Nat) : Int) = q
  generalize (if neg then (d' - n' % d') % d' else n' % d') = r at hrd
  have hclamp : (if 1000 < q then 1000 else if q < -1000 then -1000 else q) = max (-1000) (min 1000 q) := by
    split
    · omega
    · split <;> omega
  rw [hclamp]
  set c := max (-1000) (min 1000 q)
  have hd0 : (0 : Rat) < d' := by exact_mod_cast hd
  have hr1 : (r : Rat) / d' < 1 := (div_lt_one hd0).2 (by exact_mod_cast hrd)
  have hr0 : (0 : Rat) ≤ (r : Rat) / d' := by positivity
  by_cases hr : r = 0
  · rw [if_pos hr]
    have hone : magnitude 1 1 c = 2 ^ c := by rw [magnitude_natCast, Nat.cast_one, one_mul]
    refine ⟨1, c, q, rfl, one_pos, by linarith, by linarith, hone.ge, ?_, fun _ => hone⟩
    rw [hone]
    exact zpow_lt_zpow_right₀ one_lt_two (lt_add_one c)
  · rw [if_neg hr]
    have harg : r * 2 ^ fx / d' * ln2Fix / 2 ^ fx ≤ ln2Fix := by
      refine Nat.div_le_of_le_mul (Nat.mul_le_mul_right _ (Nat.div_le_of_le_mul ?_))
      exact Nat.mul_le_mul_right _ hrd.le
    obtain ⟨h1, h2⟩ := expFix_bounds harg
    generalize expFix (r * 2 ^ fx / d' * ln2Fix / 2 ^ fx) = m at h1 h2
    have h2c : (0 : Rat) < 2 ^ c := by positivity
    have hval : magnitude m 1 (c - fx) = (m : Rat) / 2 ^ 192 * 2 ^ c := by
      rw [magnitude_natCast, zpow_sub₀ two_ne_zero, zpow_natCast, fx]
      ring
    refine ⟨m, c - fx, q, rfl, by omega, by linarith, by linarith, ?_, ?_, fun h => ?_⟩
    · rw [hval, le_mul_iff_one_le_left h2c, le_div_iff₀ (by positivity), one_mul]
      exact_mod_cast h1
    · rw [hval, zpow_add₀ two_ne_zero, zpow_one, mul_comm, mul_lt_mul_iff_right₀ h2c, div_lt_iff₀ (by positivity), ← pow_succ']
      exact_mod_cast h2
    · have h0 : (r : Rat) / d' = 0 := by linarith
      rw [div_eq_zero_iff, or_iff_left hd0.ne', Nat.cast_eq_zero] at h0
      exact absurd h0 hr

/-- The word of a power of two in range. -/
theorem mag_exponent {i : Int} (hi : -149 ≤ i) : mag (if -126 ≤ i then ((i + 127) * 2 ^ 23).toNat else 2 ^ (i + 149).toNat) = (2 : Rat) ^ i := by
  split
  next h =>
    have hnat : ((i + 127) * 2 ^ 23 : Int).toNat = (i + 127).toNat * 2 ^ 23 := by omega
    rw [hnat, mag_pow (by omega)]
    congr 1
    omega
  next h =>
    have hpow : 2 ^ (i + 149).toNat ≤ 2 ^ 24 := Nat.pow_le_pow_right two_pos (by omega)
    have hmag := mag_scaled (j := 0) (.inl rfl) hpow
    rw [zero_mul, zero_add] at hmag
    rw [hmag, Nat.cast_pow, Nat.cast_ofNat, ← zpow_natCast, ← zpow_add₀ two_ne_zero]
    congr 1
    omega
theorem exponent_le_inf31 {i : Int} (hi : i ≤ 128) : (if -126 ≤ i then ((i + 127) * 2 ^ 23).toNat else 2 ^ (i + 149).toNat) ≤ inf31 := by
  unfold inf31
  split
  · omega
  · exact (Nat.pow_le_pow_right two_pos (show (i + 149).toNat ≤ 23 by omega)).trans (by decide)

section
variable {a : Word} (h0 : 0 < low31 a) (hfin : low31 a < inf31)
include h0 hfin

/-- FEXP2 (R139). -/
theorem fexp2_values (pick : Bool) {i : Int} (hi : (i : Rat) ≤ num a) (hi' : num a < i + 1) :
    let r : Nat × Word := ((fun32 .exp2 pick a).1.toNat, (fun32 .exp2 pick a).2)
    (128 ≤ i → r = (inf31, stOF ||| stIX)) ∧ (i < -149 → r = (if pick then 1 else 0, stIX ||| stUF))
    ∧ (-149 ≤ i → i < 128 →
      let at_ (n : Int) : Nat := if -126 ≤ n then ((n + 127) * 2 ^ 23).toNat else 2 ^ (n + 149).toNat
      (num a = i → r = (at_ i, 0)) ∧ at_ i ≤ r.1 ∧ r.1 ≤ at_ (i + 1)) := by
  obtain ⟨n, e, hval, hn, -, hm⟩ := fun32_operand h0 hfin
  obtain ⟨m, h, q, hexp, hmpos, hq, hq', hlow, hhigh, hexact⟩ := funEx_exp2 (minus a) n e
  rw [hm] at hq hq' hexact
  have hfun : fun32 .exp2 pick a = adjacent pick (.fin false m 1 h) := by
    rw [fun32_nonzero hval hn, ← hexp]
    cases minus a <;> rfl
  obtain rfl : i = q := by
    have h1 : (i : Rat) < q + 1 := hi.trans_lt hq'
    have h2 : (q : Rat) < i + 1 := hq.trans_lt hi'
    norm_cast at h1 h2
    omega
  dsimp only
  rw [hfun]
  refine ⟨fun hbig => ?_, fun hsmall => ?_, fun hge hlt => ?_⟩
  · have hover : 2 ^ 128 ≤ magnitude m 1 h := by
      refine le_trans ?_ hlow
      exact zpow_le_zpow_right₀ (m := 128) one_le_two (by omega)
    rw [adjacent_overflow hmpos one_pos hover]
    rfl
  · have hunder : magnitude m 1 h < mag 1 := by
      refine hhigh.trans_le ?_
      have hone := mag_exponent (i := -149) le_rfl
      refine le_trans (zpow_le_zpow_right₀ one_le_two (show _ ≤ (-149 : Int) by omega)) hone.ge
    rw [adjacent_underflow hmpos one_pos hunder]
    cases pick <;> rfl
  · rw [show max (-1000) (min 1000 i) = i by omega] at hlow hhigh hexact
    have hlast := exponent_le_inf31 (i := i + 1) (by omega)
    rw [← mag_exponent hge] at hlow hexact
    rw [← mag_exponent (by omega)] at hhigh
    have hstep := mag_strictMono.lt_iff_lt.1 (hlow.trans_lt hhigh)
    refine ⟨fun h => ?_, ?_⟩
    · rw [adjacent_exact one_pos (hstep.trans_le hlast) (hexact h), signedWord_toNat (by unfold inf31 at hlast; omega)]
      exact Prod.ext (zero_add _) rfl
    · obtain ⟨k, hk, hik, hki⟩ := adjacent_between hmpos one_pos h pick false hlast hlow hhigh.le
      rw [hk, signedWord_toNat (by unfold inf31 at hlast; omega)]
      simp only [Bool.false_eq_true, if_false, zero_add]
      exact ⟨hik, hki⟩
end

/-! ### FLOG2 (R139) -/

theorem atanhFrom_mono {z z' : Nat} (hz : z ≤ z') : ∀ (k i : Nat) {t t' : Nat}, t ≤ t' → atanhFrom z k i t ≤ atanhFrom z' k i t'
  | 0, _, _, _, _ => le_rfl
  | k + 1, i, _, _, ht =>
    Nat.add_le_add (Nat.div_le_div_right ht) (atanhFrom_mono hz k (i + 1) (Nat.div_le_div_right (Nat.mul_le_mul ht hz)))
/-- The logarithm of a number up to 2 is at most that of 2, both in fixed point. -/
theorem lnFix_le {n d : Nat} (hd : 0 < d) (h : n ≤ 2 * d) : lnFix n d ≤ ln2Fix := by
  have hz : (n - d) * 2 ^ fx / (n + d) ≤ (2 - 1) * 2 ^ fx / (2 + 1) := by
    rw [Nat.le_div_iff_mul_le (by decide)]
    have hmul := Nat.div_mul_le_self ((n - d) * 2 ^ fx) (n + d)
    generalize (n - d) * 2 ^ fx / (n + d) = z at hmul ⊢
    generalize 2 ^ fx = p at hmul ⊢
    refine Nat.le_of_mul_le_mul_right (c := n + d) ?_ (by omega)
    calc z * (2 + 1) * (n + d) = 3 * (z * (n + d)) := by ring
      _ ≤ 3 * ((n - d) * p) := Nat.mul_le_mul_left 3 hmul
      _ = 3 * (n - d) * p := by ring
      _ ≤ (n + d) * p := Nat.mul_le_mul_right p (by omega)
      _ = (2 - 1) * p * (n + d) := by ring
  exact Nat.mul_le_mul_left 2 (atanhFrom_mono (Nat.div_le_div_right (Nat.mul_le_mul hz hz)) 66 0 hz)

/-- The exact value of FLOG2 lies between the two integers about it; it is the integer where the operand is a power of two (R139). -/
theorem funEx_log2 {n : Nat} (hn : 0 < n) (e : Int) : ∃ v h k : Int, funEx .log2 false n 1 e = .fin (decide (v < 0)) v.natAbs 1 h
    ∧ (2 : Rat) ^ k ≤ magnitude n 1 e ∧ magnitude n 1 e < 2 ^ (k + 1) ∧ (k : Rat) ≤ v * 2 ^ h ∧ (v : Rat) * 2 ^ h ≤ k + 1
    ∧ (magnitude n 1 e = 2 ^ k → (v : Rat) * 2 ^ h = k) := by
  have hn' := frac_num_pos hn 1 e
  have hd' := frac_den_pos one_pos n e
  obtain ⟨hlow, hhigh⟩ := flog_spec hn' hd'
  rw [frac_eq] at hlow hhigh
  unfold funEx
  dsimp only
  generalize flog (frac n 1 e).1 (frac n 1 e).2 = k at hlow hhigh ⊢
  have hscaled : magnitude (frac n 1 e).1 (frac n 1 e).2 (-k) = magnitude n 1 e / 2 ^ k := by
    rw [magnitude, frac_eq, zpow_neg, div_eq_mul_inv _ ((2 : Rat) ^ k)]
  have hb := frac_den_pos hd' (frac n 1 e).1 (-k)
  have hab := frac_eq (frac n 1 e).1 (frac n 1 e).2 (-k)
  rw [hscaled] at hab
  generalize (frac (frac n 1 e).1 (frac n 1 e).2 (-k)).1 = a at hab ⊢
  generalize (frac (frac n 1 e).1 (frac n 1 e).2 (-k)).2 = b at hab hb ⊢
  have hb0 : (0 : Rat) < b := by exact_mod_cast hb
  have h2 : (0 : Rat) < 2 ^ k := by positivity
  have hone : a = b ↔ magnitude n 1 e = 2 ^ k := by
    rw [← div_eq_one_iff_eq h2.ne', ← hab, div_eq_one_iff_eq hb0.ne', Nat.cast_inj]
  by_cases hpow : a = b
  · rw [if_pos hpow]
    exact ⟨k, 0, k, rfl, hlow, hhigh, by simp, by simp, fun _ => by simp⟩
  · rw [if_neg hpow]
    have htwo : a ≤ 2 * b := by
      have hlt : (a : Rat) / b < 2 := by
        rw [hab, div_lt_iff₀ h2, mul_comm, ← zpow_add_one₀ two_ne_zero]
        exact hhigh
      rw [div_lt_iff₀ hb0] at hlt
      exact_mod_cast hlt.le
    have hln : lnFix a b * 2 ^ fx / ln2Fix ≤ 2 ^ fx := Nat.div_le_of_le_mul (Nat.mul_le_mul_right _ (lnFix_le hb htwo))
    generalize lnFix a b * 2 ^ fx / ln2Fix = l at hln
    have hval : (((k * 2 ^ fx + (l : Int) : Int) : Rat)) * 2 ^ (-(fx : Int)) = k + (l : Rat) / 2 ^ fx := by
      rw [zpow_neg, zpow_natCast]
      push_cast
      field_simp
    have hl : (l : Rat) / 2 ^ fx ≤ 1 := (div_le_one (by positivity)).2 (by exact_mod_cast hln)
    have hl0 : (0 : Rat) ≤ (l : Rat) / 2 ^ fx := by positivity
    refine ⟨_, _, k, rfl, hlow, hhigh, ?_, ?_, fun h => absurd (hone.2 h) hpow⟩
    · rw [hval]
      linarith
    · rw [hval]
      linarith

/-- The value adjacent to one between two words lies between them; it is one of them where the exact value is. -/
theorem adjacent_num {n : Nat} (hn : 0 < n) (h : Int) (pick neg : Bool) {i j : Nat} (hj : j < inf31) (hi : mag i ≤ magnitude n 1 h) (hj' : magnitude n 1 h ≤ mag j) :
    ∃ k, k < inf31 ∧ (adjacent pick (.fin neg n 1 h)).1 = signedWord neg k ∧ mag i ≤ mag k ∧ mag k ≤ mag j
    ∧ ∀ l, l < inf31 → magnitude n 1 h = mag l → k = l ∧ (adjacent pick (.fin neg n 1 h)).2 = 0 := by
  obtain ⟨k, hk, hik, hkj⟩ := adjacent_between hn one_pos h pick neg hj.le hi hj'
  refine ⟨k, hkj.trans_lt hj, hk, mag_strictMono.monotone hik, mag_strictMono.monotone hkj, fun l hl hval => ?_⟩
  have hexact := adjacent_exact one_pos hl hval pick neg
  rw [hexact] at hk ⊢
  have hlow := congrArg low31 hk
  rw [low31_signedWord (hl.trans (by decide)), low31_signedWord ((hkj.trans_lt hj).trans (by decide))] at hlow
  exact ⟨hlow.symm, rfl⟩

/-- The value adjacent to a number between two small integers is a number between them; it is the number where that is the lower one. -/
theorem adjacent_integers {v h k : Int} (hk : -2 ^ 23 < k) (hk' : k < 2 ^ 23) (hlow : (k : Rat) ≤ v * 2 ^ h) (hhigh : (v : Rat) * 2 ^ h ≤ k + 1) (pick : Bool) :
    let r := adjacent pick (.fin (decide (v < 0)) v.natAbs 1 h)
    low31 r.1 < inf31 ∧ (k : Rat) ≤ num r.1 ∧ num r.1 ≤ k + 1 ∧ ((v : Rat) * 2 ^ h = k → num r.1 = k ∧ r.2 = 0) := by
  have hval := signed_natAbs v 1 h
  rw [Nat.cast_one, div_one] at hval
  rw [← hval] at hlow hhigh ⊢
  have hword (i : Int) (hi : i.natAbs < 2 ^ 24) : ∃ j, j < inf31 ∧ mag j = |(i : Rat)| := by
    obtain ⟨j, hj, hmag⟩ := exists_mag_eq_natCast hi
    exact ⟨j, hj, by rw [hmag, Nat.cast_natAbs, Int.cast_abs]⟩
  obtain ⟨i, hi, hmi⟩ := hword k (by omega)
  obtain ⟨j, hj, hmj⟩ := hword (k + 1) (by omega)
  push_cast at hmj
  rcases lt_trichotomy v 0 with hv | rfl | hv
  · have hpos := magnitude_pos (Int.natAbs_pos.2 hv.ne) one_pos h
    rw [decide_eq_true hv] at hlow hhigh ⊢
    simp only [signed, if_true] at hlow hhigh ⊢
    have hk0 : k < 0 := by
      have : (k : Rat) < 0 := by linarith
      exact_mod_cast this
    have hk1 : (k : Rat) + 1 ≤ 0 := by exact_mod_cast hk0
    rw [abs_of_neg (by linarith)] at hmi
    rw [abs_of_nonpos hk1] at hmj
    obtain ⟨w, hw, hr, h1, h2, hexact⟩ := adjacent_num (Int.natAbs_pos.2 hv.ne) h pick true hi (i := j) (by linarith) (by linarith)
    have hw31 : w < 2 ^ 31 := hw.trans (by decide)
    rw [hr, low31_signedWord hw31, num_signedWord hw31]
    simp only [signed, if_true]
    refine ⟨hw, by linarith, by linarith, fun heq => ?_⟩
    obtain ⟨rfl, hst⟩ := hexact i hi (by linarith)
    exact ⟨by linarith, hst⟩
  · have hzero : magnitude (0 : Int).natAbs 1 h = mag 0 := by rw [Int.natAbs_zero, magnitude_zero, mag_zero]
    rw [hzero, mag_zero, signed_eq_zero.2 rfl] at hlow hhigh ⊢
    have hr := adjacent_exact one_pos (by decide) hzero pick (decide ((0 : Int) < 0))
    dsimp only
    rw [hr, low31_signedWord (by decide), num_signedWord (by decide), mag_zero, signed_eq_zero.2 rfl]
    exact ⟨by decide, hlow, hhigh, fun heq => ⟨heq, rfl⟩⟩
  · have hpos := magnitude_pos (Int.natAbs_pos.2 hv.ne') one_pos h
    rw [decide_eq_false hv.not_gt] at hlow hhigh ⊢
    simp only [signed, Bool.false_eq_true, if_false] at hlow hhigh ⊢
    have hk0 : -1 < k := by
      have : (-1 : Rat) < k := by linarith
      exact_mod_cast this
    have hk1 : (0 : Rat) ≤ k := by exact_mod_cast (show 0 ≤ k by omega)
    rw [abs_of_nonneg hk1] at hmi
    rw [abs_of_nonneg (by linarith)] at hmj
    obtain ⟨w, hw, hr, h1, h2, hexact⟩ := adjacent_num (Int.natAbs_pos.2 hv.ne') h pick false hj (i := i) (by linarith) (by linarith)
    have hw31 : w < 2 ^ 31 := hw.trans (by decide)
    rw [hr, low31_signedWord hw31, num_signedWord hw31]
    simp only [signed, Bool.false_eq_true, if_false]
    refine ⟨hw, by linarith, by linarith, fun heq => ?_⟩
    obtain ⟨rfl, hst⟩ := hexact i hi (by linarith)
    exact ⟨hmi, hst⟩

/-- The power of two at or below a word's magnitude, as the statement of FLOG2 names it. -/
theorem mag_power {n : Nat} {y : Rat} (hy : y = mag (n * 2 ^ 23) ∧ 0 < n ∨ ∃ j, j < 23 ∧ n = 0 ∧ y = mag (2 ^ j)) : ∃ i : Int, y = 2 ^ i := by
  obtain ⟨rfl, hn⟩ | ⟨j, hj, -, rfl⟩ := hy
  · exact ⟨_, mag_pow hn⟩
  · refine ⟨(j : Int) - 149, ?_⟩
    have hexp := mag_exponent (i := (j : Int) - 149) (by omega)
    rw [if_neg (by omega)] at hexp
    rw [← hexp]
    congr 2
    omega

/-- FLOG2 (R139). -/
theorem flog2_values {a : Word} (h0 : 0 < low31 a) (hfin : low31 a < inf31) (hpos : minus a = false) (pick : Bool) {i : Int}
    (hi : (2 : Rat) ^ i ≤ mag (low31 a)) (hi' : mag (low31 a) < 2 ^ (i + 1)) :
    low31 (fun32 .log2 pick a).1 < inf31 ∧ (i : Rat) ≤ num (fun32 .log2 pick a).1 ∧ num (fun32 .log2 pick a).1 ≤ i + 1
    ∧ (mag (low31 a) = 2 ^ i → num (fun32 .log2 pick a).1 = i ∧ (fun32 .log2 pick a).2 = 0) := by
  obtain ⟨n, e, hval, hn, -, hm⟩ := fun32_operand h0 hfin
  obtain ⟨v, h, k, hlog, hlow, hhigh, hk, hk', hexact⟩ := funEx_log2 hn e
  rw [hm] at hlow hhigh hexact
  obtain rfl : i = k := by
    have h1 := (zpow_lt_zpow_iff_right₀ one_lt_two).1 (hi.trans_lt hhigh)
    have h2 := (zpow_lt_zpow_iff_right₀ one_lt_two).1 (hlow.trans_lt hi')
    omega
  have hfun : fun32 .log2 pick a = adjacent pick (.fin (decide (v < 0)) v.natAbs 1 h) := by
    rw [fun32_nonzero hval hn, hpos, ← hlog]
    rfl
  have hmin : -2 ^ 23 < i := by
    have h1 : (2 : Rat) ^ (-149 : Int) ≤ mag (low31 a) := (mag_exponent le_rfl).ge.trans (mag_strictMono.monotone h0)
    have := (zpow_lt_zpow_iff_right₀ one_lt_two).1 (h1.trans_lt hhigh)
    omega
  have hmax : i < 2 ^ 23 := by
    have h1 := hlow.trans_lt (mag_strictMono hfin)
    rw [mag_inf31] at h1
    have := (zpow_lt_zpow_iff_right₀ (n := 128) one_lt_two).1 h1
    omega
  obtain ⟨hr, hr1, hr2, hr3⟩ := adjacent_integers hmin hmax hk hk' pick
  rw [hfun]
  exact ⟨hr, hr1, hr2, fun h => hr3 (hexact h)⟩

theorem pow_eq_ite (e : Int) : (2 : Rat) ^ e = if 0 ≤ e then (2 : Rat) ^ e.toNat else 1 / (2 : Rat) ^ (-e).toNat := by
  simpa [magnitude_natCast] using magnitude_eq_ite 1 e

/-- The functions of a NaN (R139). -/
theorem fun32_nan {a : Word} (h : NaN a = true) (f : Fun) (pick : Bool) : fun32 f pick a = (0x7FC00000, if Signals a then stNV else 0) := by
  have hx := reads_val32 a
  unfold fun32
  generalize val32 a = x at hx
  cases hx with
  | nan => rfl
  | inf hi => exact absurd h (not_NaN_of_eq hi)
  | fin _ _ hi => exact absurd h (not_NaN_of_lt hi)

/-- FRCP, FRSQ, FSQRT, FEXP2 and FLOG2 (R139). -/
theorem functionValues : Rules.FunctionValues := by
  intro a pick
  dsimp only
  refine ⟨fun h f => ?_, ?_, ?_, ?_, ?_, fun h0 hfin => ⟨frcp_adjoins h0 hfin pick, fun hneg => ?_, fun hpos =>
    ⟨frsq_adjoins h0 hfin hpos pick, fun k hk hk' => fsqrt_values h0 hfin hpos pick hk hk', fun n y hy hyx hxy => ?_⟩,
    fun i hi hi' => fexp2_values h0 hfin pick hi hi'⟩⟩
  · rw [fun32_nan h]
    rfl
  · rintro rfl
    exact ⟨rfl, rfl, rfl, rfl, rfl⟩
  · rintro rfl
    exact ⟨rfl, rfl, rfl, rfl, rfl⟩
  · rintro rfl
    exact ⟨rfl, rfl, rfl, rfl, rfl⟩
  · rintro rfl
    exact ⟨rfl, rfl, rfl, rfl, rfl⟩
  · rw [fun32_negative h0 hfin hneg (.inl rfl), fun32_negative h0 hfin hneg (.inr (.inl rfl)), fun32_negative h0 hfin hneg (.inr (.inr rfl))]
    exact ⟨rfl, rfl, rfl⟩
  · obtain ⟨i, rfl⟩ := mag_power hy
    have hxy' : mag (low31 a) < 2 ^ (i + 1) := hxy.trans_eq (by rw [zpow_add_one₀ two_ne_zero, mul_two])
    obtain ⟨hr, hlow, hhigh, hexact⟩ := flog2_values h0 hfin hpos pick hyx hxy'
    refine ⟨hr, fun e he => ?_⟩
    rw [← pow_eq_ite] at he
    obtain rfl : i = e := zpow_right_injective₀ two_pos (by norm_num) he
    exact ⟨hexact, hlow, hhigh⟩

end Sys2Proof.Machine

namespace Sys2Proof.Proofs
open Sys2Proof.Machine

/-- Settles O7: a reciprocal and a root compare with the magnitudes of words as the true ones do (`adjacent_adjoins`,
`sqrtEx_compares`); the Taylor sum of FEXP2 and the series of FLOG2 stay within the power of two, or the integer, above
(`funEx_exp2`, `funEx_log2`). -/
theorem functionValues : Obligations.FunctionValues := Machine.functionValues

end Sys2Proof.Proofs

section
/-! SUPPORT. What every step keeps: memory in its canonical form, and the registers of each partition legal. Both rest on three
fields of the machine, which few functions write. One walk over the functions that a step runs, in the order of the model's files,
shows both: for each function f, f_sound says that what f answers is Sound where what it got was. -/

namespace Sys2Proof.Machine

/-- Memory in its canonical form where m asks for it, and the registers legal where r does. -/
def Core (m r : Prop) (mem : List Host.Cell) (parts : List Partition) (islands : List Island) : Prop :=
  (m → Memory.wf mem = true) ∧ (r → islands.length = 16 ∧ ∀ p ∈ parts, Rules.Legal p)

/-- The same of a machine. It is opaque to unification, so that a lemma about one update is not taken for one about another. -/
@[irreducible] def Sound (m r : Prop) (s : State) : Prop := Core m r s.mem s.parts s.islands

/-- Every next state that a meaning answers satisfies P. -/
def Yields (P : State → Prop) : Out → Prop
  | .next t => P t
  | _ => True

/-- What is got, where something is, satisfies P. -/
def Gives {α : Type} (P : α → Prop) : Option α → Prop
  | some x => P x
  | none => True

/-- What comes of no failure satisfies P. -/
def Lands {ε α : Type} (P : α → Prop) : Except ε α → Prop
  | .ok x => P x
  | .error _ => True

/-- What comes of neither a trap nor a stall satisfies P. -/
def Res.Lands {α : Type} (P : α → Prop) : Res α → Prop
  | .ok x => P x
  | _ => True

/-- The state that the write of a register leaves satisfies P. -/
def Wrote.Leaves (P : State → Prop) : Wrote → Prop
  | .done s | .halted s => P s
  | .stall => True

/-- The state that a queue's command leaves satisfies P. -/
def CmdEnd.Leaves (P : State → Prop) : CmdEnd → Prop
  | .ok s _ => P s
  | _ => True

section
variable {m r : Prop} {s : State}

@[simp] theorem yields_next {P : State → Prop} : Yields P (.next s) = P s := rfl
theorem yields_of_eq {P : State → Prop} {o : Out} {t : State} (e : o = .next t) (h : Yields P o) : P t := by subst e; exact h

theorem cmd_leaves_ite {P : State → Prop} {c : Prop} [Decidable c] {x y : CmdEnd} (hx : x.Leaves P) (hy : y.Leaves P) :
    (if c then x else y).Leaves P := by
  split <;> assumption

@[simp] theorem yields_ite {P : State → Prop} {c : Prop} [Decidable c] {o u : Out} (ho : Yields P o) (hu : Yields P u) :
    Yields P (if c then o else u) := by split <;> assumption

section
variable {ε α : Type} {P : α → Prop} {x : α}

@[simp] theorem gives_some : Gives P (some x) = P x := rfl
@[simp] theorem gives_none : Gives P none = True := rfl

@[simp] theorem gives_ite {c : Prop} [Decidable c] {o u : Option α} (ho : Gives P o) (hu : Gives P u) : Gives P (if c then o else u) := by
  split <;> assumption

theorem gives_map {β : Type} {Q : β → Prop} {f : α → β} {o : Option α} (hf : ∀ x, P x → Q (f x)) (h : Gives P o) : Gives Q (o.map f) := by
  cases o with
  | none => trivial
  | some x => exact hf x h

theorem gives_bind {β : Type} {Q : β → Prop} {f : α → Option β} {o : Option α} (hf : ∀ x, Gives Q (f x)) : Gives Q (o.bind f) := by
  cases o with
  | none => trivial
  | some x => exact hf x

theorem gives_of_eq {o : Option α} (e : o = some x) (h : Gives P o) : P x := by subst e; exact h
@[simp] theorem lands_ok : Lands P (.ok x : Except ε α) = P x := rfl
@[simp] theorem lands_error {e : ε} : Lands P (.error e) = True := rfl

theorem lands_ite {c : Prop} [Decidable c] {o u : Except ε α} (ho : Lands P o) (hu : Lands P u) : Lands P (if c then o else u) := by
  split <;> assumption

theorem lands_map {β : Type} {Q : β → Prop} {f : α → β} {o : Except ε α} (hf : ∀ x, P x → Q (f x)) (h : Lands P o) : Lands Q (o.map f) := by
  cases o with
  | error e => trivial
  | ok x => exact hf x h

theorem lands_bind {β : Type} {Q : β → Prop} {f : α → Except ε β} {o : Except ε α} (hf : ∀ x, P x → Lands Q (f x)) (h : Lands P o) :
    Lands Q (o.bind f) := by
  cases o with
  | error e => trivial
  | ok x => exact hf x h

theorem res_lands_of_eq {o : Res α} (e : o = .ok x) (h : o.Lands P) : P x := by subst e; exact h

theorem foldl_lands {ι : Type} {k : α → ι → Except ε α} (hk : ∀ (x : {x // P x}) i, Lands P (k x.1 i)) {l : List ι} {o : Except ε α}
    (h : Lands P o) : Lands P (l.foldl (fun o i => o.bind fun x => k x i) o) := by
  induction l generalizing o with
  | nil => exact h
  | cons i l ih =>
    refine ih ?_
    cases o with
    | error e => trivial
    | ok x => exact hk ⟨x, h⟩ i

theorem lands_of_eq {o : Except ε α} (e : o = .ok x) (h : Lands P o) : P x := by subst e; exact h
theorem fst_of_eq {β : Type} {b : β} {y : State × β} (e : y = (s, b)) (h : Sound m r y.1) : Sound m r s := by subst e; exact h

end

@[simp] theorem core_iff : Core m r s.mem s.parts s.islands ↔ Sound m r s := by unfold Sound; rfl

@[simp] theorem sound_mk
    {a1 a2 a3 a4 a5 a6 a7 a8 a9 a10 a11 a12 a13 a14 a15 a16 a17 a18 a19 a20 a21 a22 a23 a24 a25 a26 a27 a28 a29 a30 a31 a32
    a33 a34 a35 a36 a37 a38 a39 a40 a41 a42 a43 a44 a45 a46 a47 a48} :
    Sound m r ⟨a1, a2, a3, a4, a5, a6, a7, a8, a9, a10, a11, a12, a13, a14, a15, a16, a17, a18, a19, a20, a21, a22, a23, a24, a25,
      a26, a27, a28, a29, a30, a31, a32, a33, a34, a35, a36, a37, a38, a39, a40, a41, a42, a43, a44, a45, a46, a47, a48⟩
      ↔ Core m r a9 a29 a30 := by unfold Sound; rfl

/-- Soundness rests on memory, partitions and islands alone. -/
theorem Sound.update {x : State}
    {a1 a2 a3 a4 a5 a6 a7 a8 a10 a11 a12 a13 a14 a15 a16 a17 a18 a19 a20 a21 a22 a23 a24 a25 a26 a27 a28 a31 a32 a33 a34 a35
    a36 a37 a38 a39 a40 a41 a42 a43 a44 a45 a46 a47 a48} (h : Sound m r x) :
    Sound m r ⟨a1, a2, a3, a4, a5, a6, a7, a8, x.mem, a10, a11, a12, a13, a14, a15, a16, a17, a18, a19, a20, a21, a22, a23, a24, a25,
      a26, a27, a28, x.parts, x.islands, a31, a32, a33, a34, a35, a36, a37, a38, a39, a40, a41, a42, a43, a44, a45, a46,
      a47, a48⟩ := by
  unfold Sound at *
  exact h

@[simp] theorem sound_ite {c : Prop} [Decidable c] {t : State} (hs : Sound m r s) (ht : Sound m r t) :
    Sound m r (if c then s else t) := by
  split <;> assumption

theorem sound_fst_ite {β : Type} {c : Prop} [Decidable c] {x y : State × β} (hx : Sound m r x.1) (hy : Sound m r y.1) :
    Sound m r (if c then x else y).1 := by
  split <;> assumption

@[simp] theorem sound_val (t : {s // Sound m r s}) : Sound m r t.1 := t.2
@[simp] theorem sound_fst_val {β : Type} (t : {x : State × β // Sound m r x.1}) : Sound m r t.1.1 := t.2

@[simp] theorem foldl_sound {α : Type} {op : State → α → State} (hop : ∀ (t : {s // Sound m r s}) x, Sound m r (op t.1 x)) {l : List α}
    (h : Sound m r s) : Sound m r (l.foldl op s) := by
  induction l generalizing s with
  | nil => exact h
  | cons x l ih => exact ih (hop ⟨s, h⟩ x)

theorem foldl_fst_sound {α β : Type} {op : State × β → α → State × β}
    (hop : ∀ (t : {y : State × β // Sound m r y.1}) x, Sound m r (op t.1 x).1) {l : List α} {y : State × β} (h : Sound m r y.1) :
    Sound m r (l.foldl op y).1 := by
  induction l generalizing y with
  | nil => exact h
  | cons x l ih => exact ih (hop ⟨y, h⟩ x)

section
variable {mem : List Host.Cell} {ps : List Partition} {is : List Island}

@[simp] theorem core_bput {a : Nat} {b : Byte} (h : Core m r mem ps is) : Core m r (bput mem a b) ps is :=
  ⟨fun hm => wf_bput a b (h.1 hm), h.2⟩

@[simp] theorem core_putBytes {a : Nat} {bs : List Byte} (h : Core m r mem ps is) : Core m r (putBytes mem a bs) ps is :=
  ⟨fun hm => wf_putBytes bs a (h.1 hm), h.2⟩

@[simp] theorem core_filter {p : Host.Cell → Bool} (h : Core m r mem ps is) : Core m r (mem.filter p) ps is :=
  ⟨fun hm => wf_filter p (h.1 hm), h.2⟩

end

theorem putMem_sound {a bs} (h : Sound m r s) : Sound m r { s with mem := putBytes s.mem a bs } := by simp [h]
theorem putByte_sound {a b} (h : Sound m r s) : Sound m r { s with mem := bput s.mem a b } := by simp [h]
theorem leaves_done {P : State → Prop} {o : Wrote} (e : o = .done s) (h : o.Leaves P) : P s := by subst e; exact h
theorem leaves_halted {P : State → Prop} {o : Wrote} (e : o = .halted s) (h : o.Leaves P) : P s := by subst e; exact h

/-! ### Partitions -/

@[simp] theorem setPart_sound {part : Nat} {f : Partition → Partition} (hf : ∀ p : {p // Rules.Legal p}, Rules.Legal (f p.1))
    (h : Sound m r s) : Sound m r (s.setPart part f) := by
  unfold Sound at h ⊢
  refine ⟨h.1, fun hr => ⟨(h.2 hr).1, fun p hp => ?_⟩⟩
  obtain ⟨q, hq, rfl⟩ := List.mem_map.1 hp
  have hlegal := (h.2 hr).2 q hq
  split
  · exact hf ⟨q, hlegal⟩
  · exact hlegal

/-! ### Machine/State -/

theorem legal_new (id : Nat) (is : List Nat) (share : List (Nat × Nat × Nat)) (aer : List Nat) :
    Rules.Legal { id := id, islands := is, share := share, aer := aer } := by
  simp [Rules.Legal]

@[simp] theorem reset_sound : Sound m r State.reset := by
  unfold Sound
  refine ⟨fun _ => rfl, fun _ => ⟨rfl, fun p hp => ?_⟩⟩
  obtain rfl := List.mem_singleton.1 hp
  exact legal_new 0 (List.range 16) [] []

/-! ### Machine/Mem -/

@[simp] theorem setFn_sound {p n f} (h : Sound m r s) : Sound m r (s.setFn p n f) := h.update
@[simp] theorem setLine_sound {asid line f} (h : Sound m r s) : Sound m r (s.setLine asid line f) := h.update
@[simp] theorem invalidate_sound {but asid line} (h : Sound m r s) : Sound m r (invalidate s but asid line) := by simp [invalidate, h]
@[simp] theorem dropBlocks_sound {cluster tag a n} (h : Sound m r s) : Sound m r (dropBlocks s cluster tag a n) := h.update

@[simp] theorem homePutByte_sound {who va b} (h : Sound m r s) : Lands (Sound m r) (homePutByte s who va b) := by
  unfold homePutByte
  cases spot s who va .write with
  | error e => trivial
  | ok x =>
    cases x with
    | vault => exact putByte_sound h
    | phys x => exact putByte_sound h
    | line l =>
      have hline : Sound m r (s.setLine l.asid l.line fun y =>
        { y with bytes := y.bytes.set (va % 64) b, dirty := y.dirty || !writeThrough (rclass s l.part l.cls) }) := setLine_sound h
      exact sound_ite (putByte_sound hline) hline

@[simp] theorem homePut_sound {who va bs} (h : Sound m r s) : Sound m r (homePut s who va bs).1 := by
  induction bs generalizing s va with
  | nil => exact h
  | cons b bs ih =>
    unfold homePut
    cases e : homePutByte s who va b with
    | error c => exact h
    | ok t => exact ih (lands_of_eq e (homePutByte_sound h))

@[simp] theorem homeWrite_sound {who but va bs} (h : Sound m r s) : Lands (Sound m r) (homeWrite s who but va bs) := by
  unfold homeWrite
  split
  · trivial
  next t e =>
    have ht : Sound m r (invalidate t but (tagOf s who.part who.fn va) (va / 64)) := invalidate_sound (fst_of_eq e (homePut_sound h))
    dsimp only
    split
    · exact ht
    · exact foldl_sound (fun u _ => invalidate_sound u.2) ht

@[simp] theorem ageSet_sound {set ways} (h : Sound m r s) : Sound m r (ageSet s set ways) := h.update

@[simp] theorem countPort_sound {part asid va pa} (h : Sound m r s) : Sound m r (countPort s part asid va pa) := by
  dsimp only [countPort]
  (repeat' split) <;> simp [h]

@[simp] theorem writeBack_sound {l} (h : Sound m r s) : Sound m r (writeBack s l) := by
  unfold writeBack
  split <;> simp [h]

theorem pickLine_sound {asid part va pa : Nat} {line : Line} (h : Sound m r s) :
    Sound m r { countPort s part asid va pa with lines := line :: (countPort s part asid va pa).lines } := by simp [h]

@[simp] theorem fillLine_sound {asid part va x cls nt atomic} (h : Sound m r s) :
    Sound m r (fillLine s asid part va x cls nt atomic) := by
  unfold fillLine
  extract_lets ρ bypass ways set_ used allowed pick aged
  have haged : Sound m r aged := ageSet_sound h
  split
  · exact pickLine_sound h
  · split
    · exact haged
    · split
      · exact pickLine_sound haged
      · exact pickLine_sound (by simp [haged])

@[simp] theorem touchHome_sound {who cls nt a va} (h : Sound m r s) : Sound m r (touchHome s who cls nt a va) := by
  dsimp only [touchHome]
  (repeat' split) <;> simp [h]

@[simp] theorem touchHomes_sound {who cls nt a va n} (h : Sound m r s) : Sound m r (touchHomes s who cls nt a va n) := by
  simp [touchHomes, h]

@[simp] theorem touchEach_sound {who a addrs} (h : Sound m r s) : Sound m r (touchEach s who a addrs) := by simp [touchEach, h]

/-! ### Machine/Operands -/

@[simp] theorem setCell_sound {c f} (h : Sound m r s) : Sound m r (s.setCell c f) := h.update
@[simp] theorem setFibre_sound {r' f} (h : Sound m r s) : Sound m r (s.setFibre r' f) := h.update
@[simp] theorem mapFibres_sound {c f} (h : Sound m r s) : Sound m r (s.mapFibres c f) := h.update
@[simp] theorem setLaunch_sound {l f} (h : Sound m r s) : Sound m r (s.setLaunch l f) := h.update
@[simp] theorem touchSlots_sound {g names u} (h : Sound m r u) : Sound m r (touchSlots s g names u) := by simp [touchSlots, h]

@[simp] theorem markReads_sound {g names u} (h : Sound m r u) : Sound m r (markReads s g names u) :=
  touchSlots_sound (mapFibres_sound h)

/-! ### Machine/Ops -/

@[simp] theorem setAcc_sound {a f} (h : Sound m r s) : Sound m r (s.setAcc a f) := h.update
@[simp] theorem dropAcc_sound {a} (h : Sound m r s) : Sound m r (s.dropAcc a) := h.update
@[simp] theorem setOp_sound {o f} (h : Sound m r s) : Sound m r (s.setOp o f) := h.update
@[simp] theorem post_sound {a} (h : Sound m r s) : Sound m r (s.post a) := h.update
@[simp] theorem atPoint_sound {r' cluster} (h : Sound m r s) : Sound m r (s.atPoint r' cluster) := h.update
@[simp] theorem dropFlag_sound {r' a flag counted} (h : Sound m r s) : Sound m r (s.dropFlag r' a flag counted) := h.update
@[simp] theorem pendAll_sound {cell fs k} (h : Sound m r s) : Sound m r (pendAll s cell fs k) := by simp [pendAll, h]

@[simp] theorem splitHatch_sound {cell hatch} (h : Sound m r s) : Sound m r (splitHatch s cell hatch) := by
  dsimp only [splitHatch]
  (repeat' split) <;> simp [h]

@[simp] theorem schedulePaths_sound {cell hatch} (h : Sound m r s) : Sound m r (schedulePaths s cell hatch) := by
  dsimp only [schedulePaths]
  (repeat' split) <;> simp [h]

@[simp] theorem freeMates_sound {cell} (h : Sound m r s) : Sound m r (freeMates s cell) := by
  unfold freeMates
  split <;> simp [h]

@[simp] theorem markMates_sound {g} (h : Sound m r s) : Sound m r (markMates s g) := by
  unfold markMates
  split <;> simp [h]

@[simp] theorem settleHatch_sound {cell hatch} (h : Sound m r s) : Sound m r (settleHatch s cell hatch) := by
  dsimp only [settleHatch]
  (repeat' split) <;> simp [h]

@[simp] theorem formHatches_sound {cell idxs join} (h : Sound m r s) : Sound m r (formHatches s cell idxs join) := h.update

@[simp] theorem releaseReconv_sound {cell} (h : Sound m r s) : Sound m r (releaseReconv s cell) := by
  unfold releaseReconv
  split
  · exact h
  · refine foldl_sound (fun t p => ?_) h
    dsimp only
    split
    · exact formHatches_sound t.2
    · exact sound_ite (foldl_sound (fun u _ => schedulePaths_sound u.2) (formHatches_sound t.2)) (formHatches_sound t.2)

@[simp] theorem leaveRegroup_sound {entry part} (h : Sound m r s) : Sound m r (leaveRegroup s entry part) := by
  unfold leaveRegroup
  split <;> simp [h]

@[simp] theorem releaseRegroup_sound {cell} (h : Sound m r s) : Sound m r (releaseRegroup s cell) := by
  unfold releaseRegroup
  refine foldl_sound (fun t e => ?_) h
  dsimp only
  split
  · exact leaveRegroup_sound t.2
  · exact sound_ite (leaveRegroup_sound t.2) (leaveRegroup_sound (leaveRegroup_sound t.2))

@[simp] theorem wakeWhere_sound {cell p} (h : Sound m r s) : Sound m r (wakeWhere s cell p) := by
  unfold wakeWhere
  split <;> simp [h]

@[simp] theorem releaseBar_sound {cell} (h : Sound m r s) : Sound m r (releaseBar s cell) := by
  dsimp only [releaseBar]
  (repeat' split) <;> simp [h]

@[simp] theorem releaseCohort_sound {launch cohort} (h : Sound m r s) : Sound m r (releaseCohort s launch cohort) := by
  dsimp only [releaseCohort]
  (repeat' split) <;> simp [h]

@[simp] theorem releaseCbar_sound {cell} (h : Sound m r s) : Sound m r (releaseCbar s cell) := by
  unfold releaseCbar
  split <;> simp [h]

@[simp] theorem toEnd_sound {quad cell hatch} (h : Sound m r s) : Sound m r (s.toEnd quad cell hatch) := h.update

@[simp] theorem hatchesToEnd_sound {quad cell idxs} (h : Sound m r s) : Sound m r (s.hatchesToEnd quad cell idxs) := by
  unfold State.hatchesToEnd
  split <;> simp [h]

@[simp] theorem releaseYield_sound {quad issued free} (h : Sound m r s) : Sound m r (releaseYield s quad issued free) := by
  unfold releaseYield
  extract_lets ys go ended
  have hended : Sound m r ended := foldl_sound (fun t _ => toEnd_sound t.2) h
  refine foldl_sound (fun t x => ?_) hended
  dsimp only
  refine sound_ite ?_ (foldl_sound (fun u _ => settleHatch_sound u.2) ?_)
  · exact hatchesToEnd_sound (formHatches_sound t.2.update)
  · split
    · exact t.2.update
    · exact mapFibres_sound t.2.update

@[simp] theorem setFrame_sound {i f} (h : Sound m r s) : Sound m r (s.setFrame i f) := h.update
@[simp] theorem shareAll_sound {f} (h : Sound m r s) : Sound m r (s.shareAll f) := by simp [State.shareAll, h]

@[simp] theorem retire_sound {fr} (h : Sound m r s) : Sound m r (retire s fr) := by
  unfold retire
  refine sound_ite h.update (sound_ite h.update.update ?_)
  split
  · exact setCell_sound h.update.update
  · refine sound_ite h.update.update ?_
    split
    · next e => exact lands_of_eq e (homeWrite_sound h.update.update)
    · exact h.update.update

@[simp] theorem leaveFrames_sound {q n} (h : Sound m r s) : Sound m r (leaveFrames s q n).1 := by
  unfold leaveFrames
  split
  · refine foldl_fst_sound (fun t d => ?_) h
    dsimp only
    split
    · exact t.2
    · split
      · exact setFibre_sound t.2
      · split <;> exact setFrame_sound (setFibre_sound t.2)
  · exact h

@[simp] theorem retireLeft_sound {r'} (h : Sound m r s) : Sound m r (retireLeft s r') := by simp [retireLeft, h]
@[simp] theorem freePins_sound (h : Sound m r s) : Sound m r (freePins s) := h.update
@[simp] theorem endPins_sound {p} (h : Sound m r s) : Sound m r (endPins s p) := h.update

@[simp] theorem endCell_sound {cell} (h : Sound m r s) : Sound m r (endCell s cell) := by
  unfold endCell
  split
  · exact h
  · exact releaseCohort_sound (setLaunch_sound (endPins_sound h).update)

@[simp] theorem finishQuit_sound {q} (h : Sound m r s) : Sound m r (finishQuit s q) := by
  have hleft : Sound m r (retireLeft (leaveFrames s q 1).1 q) := retireLeft_sound (leaveFrames_sound h)
  unfold finishQuit
  dsimp only
  split
  · split
    · exact endCell_sound (setCell_sound hleft.update)
    · exact setCell_sound hleft.update
  · exact setCell_sound hleft.update

@[simp] theorem releaseQuits_sound {cell} (h : Sound m r s) : Sound m r (releaseQuits s cell) := by
  unfold releaseQuits
  split
  · exact h
  · refine foldl_sound (fun t f => ?_) h
    split
    · have hpins {b : Bool} : Sound m r (if b = true then endPins t.1 (·.cell == cell) else t.1) := sound_ite (endPins_sound t.2) t.2
      exact sound_ite (finishQuit_sound hpins) hpins
    · exact sound_ite (settleHatch_sound (setFibre_sound (retireLeft_sound t.2))) t.2
    · exact t.2

@[simp] theorem invalRecord_sound {a} (h : Sound m r s) : Sound m r (invalRecord s a) :=
  invalidate_sound (invalidate_sound (invalidate_sound (invalidate_sound h)))

@[simp] theorem enterOne_sound {c f t} (h : Sound m r s) : Sound m r (enterOne s c f t) := by
  unfold enterOne
  split
  · exact h
  · exact setFibre_sound (invalRecord_sound (dropBlocks_sound (putMem_sound h)))

@[simp] theorem enterHandler_sound {cell hatch} (h : Sound m r s) : Sound m r (enterHandler s cell hatch) := by
  unfold enterHandler
  split
  · exact h
  · exact sound_ite h (settleHatch_sound (foldl_sound (fun t _ => enterOne_sound t.2) h))

@[simp] theorem abortTx_sound {r' w} (h : Sound m r s) : Sound m r (abortTx s r' w) := by
  dsimp only [abortTx]
  (repeat' split) <;> simp [h]

@[simp] theorem takeTraps_sound {cell hatch rs} (h : Sound m r s) : Sound m r (takeTraps s cell hatch rs) := by
  unfold takeTraps
  split
  · exact h
  · have h1 {w : Fibre → Word} {l : List Fibre} : Sound m r (l.foldl (fun s f => abortTx s ⟨cell, f.idx⟩ (w f)) s) :=
      foldl_sound (fun t _ => abortTx_sound t.2) h
    exact sound_ite h1 (enterHandler_sound (mapFibres_sound (setPart_sound (fun p => p.2) h1.update)))

@[simp] theorem releaseEwaits_sound {cell} (h : Sound m r s) : Sound m r (releaseEwaits s cell) := by
  unfold releaseEwaits
  split
  · exact h
  · refine foldl_sound (fun t _ => ?_) h
    exact sound_ite t.2 (takeTraps_sound (settleHatch_sound (mapFibres_sound t.2)))

@[simp] theorem afterChange_sound {cell} (h : Sound m r s) : Sound m r (afterChange s cell) := by
  have hreleased :
      Sound m r (releaseRegroup (releaseReconv (releaseEwaits (releaseCbar (releaseBar (releaseQuits s cell) cell) cell) cell) cell) cell) :=
    releaseRegroup_sound (releaseReconv_sound (releaseEwaits_sound (releaseCbar_sound (releaseBar_sound (releaseQuits_sound h)))))
  unfold afterChange
  dsimp only
  split
  · exact hreleased
  · have hmates := freeMates_sound (cell := cell) hreleased
    exact foldl_sound (fun t _ => releaseYield_sound t.2) (sound_ite (foldl_sound (fun t _ => schedulePaths_sound t.2) hmates) hmates)

@[simp] theorem closeUnit_sound {g} (h : Sound m r s) : Sound m r (closeUnit s g) := by
  have hsettled : Sound m r (releaseYield (settleHatch (markMates { s with cur := { s.cur with opened := false, hints :=
    [] } } g) g.cell.id g.hatch)
      g.quad (some (g.cell.id, g.hatch))) := releaseYield_sound (settleHatch_sound (markMates_sound h.update))
  exact afterChange_sound (sound_ite (toEnd_sound hsettled) hsettled)

@[simp] theorem stallUnit_sound (h : Sound m r s) : Sound m r (stallUnit s) := h.update
@[simp] theorem trapGroup_sound {g t} (h : Sound m r s) : Sound m r (trapGroup s g t) := by simp [trapGroup, h]

@[simp] theorem parkStuck_sound {r'} (h : Sound m r s) : Sound m r (parkStuck s r') := by
  dsimp only [parkStuck]
  (repeat' split) <;> simp [h]

@[simp] theorem startClause_sound {g mask p} (h : Sound m r s) : Sound m r (startClause s g mask p).1 := by
  dsimp only [startClause]
  (repeat' split) <;> simp [h]

@[simp] theorem sameIssue_sound {n} (h : Sound m r s) : Sound m r (sameIssue n s) := h.update
@[simp] theorem passed_sound {g ll} (h : Sound m r s) : Sound m r (passed s g ll) := h.update

@[simp] theorem beginUnit_sound {g} (h : Sound m r s) : Sound m r (beginUnit s g).1 := by
  unfold beginUnit
  split <;> simp [h]

@[simp] theorem unit_sound {hints ll priv body} (hb : ∀ (t : {s // Sound m r s}) g, Gives (Sound m r) (body t.1 g)) (h : Sound m r s) :
    Yields (Sound m r) (unit s hints ll priv body) := by
  unfold unit
  split
  · exact h
  next g _ =>
    have hbegun : Sound m r (beginUnit s g).1 := beginUnit_sound h
    have htrap {g' : Grp} {t : Trap} : Yields (Sound m r) (.next (trapGroup (beginUnit s g).1 g' t)) := trapGroup_sound hbegun
    dsimp only
    refine yields_ite hbegun (yields_ite htrap (yields_ite htrap (yields_ite htrap (yields_ite (stallUnit_sound hbegun) ?_))))
    split
    · exact stallUnit_sound hbegun
    · next e => exact closeUnit_sound (sameIssue_sound (gives_of_eq e (hb ⟨_, passed_sound hbegun⟩ _)))

@[simp] theorem raiseLanes_sound {g ts} (h : Sound m r s) : Sound m r (raiseLanes s g ts) := by
  unfold raiseLanes
  split <;> simp [h]

@[simp] theorem parkReads_sound {g ts} (h : Sound m r s) : Sound m r (parkReads s g ts) := takeTraps_sound (mapFibres_sound h)
@[simp] theorem settleScratch_sound {c r' off n} (h : Sound m r s) : Sound m r (settleScratch s c r' off n) := h.update

@[simp] theorem postStore_sound {c f kind va data ord cls nt also} (h : Sound m r s) :
    Sound m r (postStore s c f kind va data ord cls nt also) := by
  unfold postStore
  split <;> simp [h]

@[simp] theorem writeBlocks_sound {cluster tag a bs} (h : Sound m r s) : Sound m r (writeBlocks s cluster tag a bs) := h.update
@[simp] theorem coverBlocks_sound {q cluster tag} (h : Sound m r s) : Sound m r (Acc.coverBlocks q cluster tag s) := h.update

@[simp] theorem settleBlocks_sound {id cluster tag a bs} (h : Sound m r s) : Sound m r (settleBlocks s id cluster tag a bs) := by
  simp [settleBlocks, h]

@[simp] theorem postSlot_sound {c f depth slot v also} (h : Sound m r s) : Sound m r (postSlot s c f depth slot v also) := by
  unfold postSlot
  split
  · exact h
  · have hpost {ref : Nat} {a : Nat} {bs : List Byte} : Sound m r (postStore s c f (.slotWrite ref) a bs .plain none false also) :=
      postStore_sound h
    refine sound_ite hpost (sound_ite ?_ (sound_ite (setCell_sound h) hpost))
    exact setCell_sound (foldl_sound (fun t _ => settleScratch_sound t.2) (settleScratch_sound h))

@[simp] theorem writeEffs_sound {g ok} (h : Sound m r s) : Sound m r (writeEffs s g ok) :=
  foldl_sound (fun t _ => postSlot_sound t.2) (setCell_sound (mapFibres_sound h))

@[simp] theorem commitLanes_sound {g effs} (h : Sound m r s) : Gives (Sound m r) (commitLanes s g effs) := by
  unfold commitLanes
  split <;> simp [h]

@[simp] theorem laneBody_sound {srcs op g} (h : Sound m r s) : Gives (Sound m r) (laneBody srcs op s g) :=
  gives_ite (parkReads_sound h) (gives_map (fun _ ht => markReads_sound ht) (commitLanes_sound h))

@[simp] theorem withLanes_sound {srcs g k} (hk : ∀ (t : {s // Sound m r s}) g vals, Gives (Sound m r) (k t.1 g vals)) (h : Sound m r s) :
    Gives (Sound m r) (withLanes srcs s g k) :=
  gives_ite (parkReads_sound h) (gives_ite trivial (hk ⟨_, raiseLanes_sound (markReads_sound (mapFibres_sound h))⟩ _ _))

@[simp] theorem withLowest_sound {all srcs g k} (hk : ∀ (t : {s // Sound m r s}) g vals, Gives (Sound m r) (k t.1 g vals))
    (h : Sound m r s) :
    Gives (Sound m r) (withLowest all srcs s g k) := by
  unfold withLowest
  dsimp only
  refine gives_ite trivial ?_
  split
  · exact raiseLanes_sound h
  · have hread {f : Fibre → Fibre} {g1 g2 : Grp} {n1 n2 : List Name} {ts : List (Nat × Trap)} :
        Sound m r (raiseLanes (markReads s g1 n1 (markReads s g2 n2 (s.mapFibres g.cell.id f))) g ts) :=
      raiseLanes_sound (markReads_sound (markReads_sound (mapFibres_sound h)))
    split
    · exact gives_ite (hk ⟨_, hread⟩ _ _) hread
    · exact hk ⟨_, hread⟩ _ _

@[simp] theorem foldLanes_sound {g xs op} (hop : ∀ (t : {s // Sound m r s}) f vs, Sound m r (op t.1 f vs).1) (h : Sound m r s) :
    Sound m r (foldLanes s g xs op) :=
  raiseLanes_sound (foldl_fst_sound (fun t _ => hop ⟨_, t.2⟩ _ _) h)

@[simp] theorem barTx_sound {g ms} (h : Sound m r s) : Sound m r (barTx s g ms).1 := by simp [barTx, h]

/-! ### Machine/Flags -/

@[simp] theorem setMx_sound {quad v} (h : Sound m r s) : Sound m r (s.setMx quad v) := h.update
@[simp] theorem setMxBy_sound {quad part fn} (h : Sound m r s) : Sound m r (s.setMxBy quad part fn) := h.update
@[simp] theorem orArith_sound {cell v} (h : Sound m r s) : Sound m r (s.orArith cell v) := h.update

/-! ### Machine/Alu -/

@[simp] theorem alu2_sound {w d a b op} (h : Sound m r s) : Yields (Sound m r) (alu2 w d a b op s) := by simp [alu2, h]
@[simp] theorem alu1_sound {w wd d a op} (h : Sound m r s) : Yields (Sound m r) (alu1 w wd d a op s) := by simp [alu1, h]
@[simp] theorem execIadd_sound {f d a b} (h : Sound m r s) : Yields (Sound m r) (execIadd f d a b s) := alu2_sound h
@[simp] theorem execIsub_sound {f d a b} (h : Sound m r s) : Yields (Sound m r) (execIsub f d a b s) := alu2_sound h
@[simp] theorem execImul_sound {f d a b} (h : Sound m r s) : Yields (Sound m r) (execImul f d a b s) := alu2_sound h
@[simp] theorem execImulh_sound {f d a b} (h : Sound m r s) : Yields (Sound m r) (execImulh f d a b s) := alu2_sound h
@[simp] theorem alu3_sound {w wd d a b op} (h : Sound m r s) : Yields (Sound m r) (alu3 w wd d a b op s) := by simp [alu3, h]
@[simp] theorem execImad_sound {f d a b} (h : Sound m r s) : Yields (Sound m r) (execImad f d a b s) := alu3_sound h
@[simp] theorem execImin_sound {f d a b} (h : Sound m r s) : Yields (Sound m r) (execImin f d a b s) := alu2_sound h
@[simp] theorem execImax_sound {f d a b} (h : Sound m r s) : Yields (Sound m r) (execImax f d a b s) := alu2_sound h
@[simp] theorem execAnd_sound {f d a b} (h : Sound m r s) : Yields (Sound m r) (execAnd f d a b s) := alu2_sound h
@[simp] theorem execOr_sound {f d a b} (h : Sound m r s) : Yields (Sound m r) (execOr f d a b s) := alu2_sound h
@[simp] theorem execXor_sound {f d a b} (h : Sound m r s) : Yields (Sound m r) (execXor f d a b s) := alu2_sound h
@[simp] theorem execAndn_sound {f d a b} (h : Sound m r s) : Yields (Sound m r) (execAndn f d a b s) := alu2_sound h
@[simp] theorem shift_sound {k f d a b} (h : Sound m r s) : Yields (Sound m r) (shift k f d a b s) := by simp [shift, h]
@[simp] theorem execShl_sound {f d a b} (h : Sound m r s) : Yields (Sound m r) (execShl f d a b s) := shift_sound h
@[simp] theorem execShr_sound {f d a b} (h : Sound m r s) : Yields (Sound m r) (execShr f d a b s) := shift_sound h
@[simp] theorem execSar_sound {f d a b} (h : Sound m r s) : Yields (Sound m r) (execSar f d a b s) := shift_sound h
@[simp] theorem execPopc_sound {f d a} (h : Sound m r s) : Yields (Sound m r) (execPopc f d a s) := alu1_sound h
@[simp] theorem execClz_sound {f d a} (h : Sound m r s) : Yields (Sound m r) (execClz f d a s) := alu1_sound h
@[simp] theorem execBrev_sound {d a} (h : Sound m r s) : Yields (Sound m r) (execBrev d a s) := alu1_sound h
@[simp] theorem execIabs_sound {f d a} (h : Sound m r s) : Yields (Sound m r) (execIabs f d a s) := alu1_sound h
@[simp] theorem execBfx_sound {f d a b} (h : Sound m r s) : Yields (Sound m r) (execBfx f d a b s) := alu2_sound h
@[simp] theorem execBfi_sound {d a b} (h : Sound m r s) : Yields (Sound m r) (execBfi d a b s) := alu3_sound h
@[simp] theorem execIcmp_sound {f c p a b} (h : Sound m r s) : Yields (Sound m r) (execIcmp f c p a b s) := by simp [execIcmp, h]
@[simp] theorem execSel_sound {p d a b} (h : Sound m r s) : Yields (Sound m r) (execSel p d a b s) := by simp [execSel, h]
@[simp] theorem execMov_sound {f d a} (h : Sound m r s) : Yields (Sound m r) (execMov f d a s) := alu1_sound h

@[simp] theorem execMovKw_sound {a idx} (h : Sound m r s) : Yields (Sound m r) (execMovKw a idx s) :=
  unit_sound (fun t _ => withLanes_sound (fun u _ _ => foldLanes_sound (fun v _ _ => by
    dsimp only
    split
    · exact v.2
    · exact setCell_sound v.2) u.2) t.2) h

@[simp] theorem execMovKr_sound {d idx} (h : Sound m r s) : Yields (Sound m r) (execMovKr d idx s) := by simp [execMovKr, h]
@[simp] theorem execMovi_sound {form d imm} (h : Sound m r s) : Yields (Sound m r) (execMovi form d imm s) := by simp [execMovi, h]
@[simp] theorem execLea_sound {sc d a b} (h : Sound m r s) : Yields (Sound m r) (execLea sc d a b s) := by simp [execLea, h]
@[simp] theorem execIdot4_sound {f d a b} (h : Sound m r s) : Yields (Sound m r) (execIdot4 f d a b s) := alu3_sound h
@[simp] theorem execNop_sound (h : Sound m r s) : Yields (Sound m r) (execNop s) := unit_sound (fun t _ => t.2) h

/-! ### Machine/FloatI -/

@[simp] theorem fop_sound {o f d a b} (h : Sound m r s) : Yields (Sound m r) (fop o f d a b s) := by simp [fop, h]
@[simp] theorem execFadd_sound {f d a b} (h : Sound m r s) : Yields (Sound m r) (execFadd f d a b s) := fop_sound h
@[simp] theorem execFsub_sound {f d a b} (h : Sound m r s) : Yields (Sound m r) (execFsub f d a b s) := fop_sound h
@[simp] theorem execFmul_sound {f d a b} (h : Sound m r s) : Yields (Sound m r) (execFmul f d a b s) := fop_sound h
@[simp] theorem execFfma_sound {f d a b} (h : Sound m r s) : Yields (Sound m r) (execFfma f d a b s) := fop_sound h
@[simp] theorem fminmax_sound {isMax f d a b} (h : Sound m r s) : Yields (Sound m r) (fminmax isMax f d a b s) := by simp [fminmax, h]
@[simp] theorem execFmin_sound {f d a b} (h : Sound m r s) : Yields (Sound m r) (execFmin f d a b s) := fminmax_sound h
@[simp] theorem execFmax_sound {f d a b} (h : Sound m r s) : Yields (Sound m r) (execFmax f d a b s) := fminmax_sound h
@[simp] theorem execFcmp_sound {c p a b} (h : Sound m r s) : Yields (Sound m r) (execFcmp c p a b s) := by simp [execFcmp, h]
@[simp] theorem pendingOp_sound {c x k} (h : Sound m r s) : Sound m r (pendingOp s c x k) := h.update

@[simp] theorem longFun_sound {fn d a} (h : Sound m r s) : Yields (Sound m r) (longFun fn d a s) :=
  unit_sound (fun t _ => withLanes_sound (fun u _ _ => foldLanes_sound (fun v _ _ => orArith_sound (pendingOp_sound v.2.update)) u.2) t.2) h

@[simp] theorem execFrcp_sound {d a} (h : Sound m r s) : Yields (Sound m r) (execFrcp d a s) := longFun_sound h
@[simp] theorem execFrsq_sound {d a} (h : Sound m r s) : Yields (Sound m r) (execFrsq d a s) := longFun_sound h
@[simp] theorem execFsqrt_sound {d a} (h : Sound m r s) : Yields (Sound m r) (execFsqrt d a s) := longFun_sound h
@[simp] theorem execFexp2_sound {d a} (h : Sound m r s) : Yields (Sound m r) (execFexp2 d a s) := longFun_sound h
@[simp] theorem execFlog2_sound {d a} (h : Sound m r s) : Yields (Sound m r) (execFlog2 d a s) := longFun_sound h
@[simp] theorem execFrnd_sound {r' d a} (h : Sound m r s) : Yields (Sound m r) (execFrnd r' d a s) := by simp [execFrnd, h]
@[simp] theorem execFcvt_sound {c sr d a} (h : Sound m r s) : Yields (Sound m r) (execFcvt c sr d a s) := by simp [execFcvt, h]
@[simp] theorem execFdot2_sound {d a b} (h : Sound m r s) : Yields (Sound m r) (execFdot2 d a b s) := by simp [execFdot2, h]
@[simp] theorem execQcvt_sound {n d a slot sc} (h : Sound m r s) : Yields (Sound m r) (execQcvt n d a slot sc s) := by simp [execQcvt, h]
@[simp] theorem execQdeq_sound {n d a slot sc} (h : Sound m r s) : Yields (Sound m r) (execQdeq n d a slot sc s) := by simp [execQdeq, h]
@[simp] theorem execDraw_sound {o d} (h : Sound m r s) : Yields (Sound m r) (execDraw o d s) := by simp [execDraw, h]

@[simp] theorem execSample_sound {d a b} (h : Sound m r s) : Yields (Sound m r) (execSample d a b s) := by
  refine unit_sound (fun t _ => withLanes_sound (fun u _ _ => ?_) t.2) h
  refine foldl_sound (fun v _ => ?_) u.2
  exact sound_ite (orArith_sound (setFibre_sound v.2)) (setFibre_sound v.2)

@[simp] theorem execTopk_sound {d a b} (h : Sound m r s) : Yields (Sound m r) (execTopk d a b s) :=
  unit_sound (fun t _ => withLanes_sound (fun u _ _ => foldl_sound (fun v _ => setFibre_sound v.2) u.2) t.2) h

/-! ### Machine/MemI -/

@[simp] theorem loadLane_sound {w ord dst g va f} (h : Sound m r s) : Sound m r (loadLane w ord dst g va s f).1 := by
  unfold loadLane
  split
  · exact h
  · split
    · exact h
    · dsimp only
      split
      · split
        · exact abortTx_sound h
        · exact h
        · exact h
        · exact pendingOp_sound (setFibre_sound (touchHomes_sound h))
      · exact post_sound (setFibre_sound h)

@[simp] theorem loadWord_sound {w ord d base imm ranked} (h : Sound m r s) : Yields (Sound m r) (loadWord w ord d base imm ranked s) :=
  unit_sound (fun t _ => withLanes_sound (fun u _ _ => gives_ite trivial (foldLanes_sound (fun v _ _ => loadLane_sound v.2) u.2)) t.2) h

@[simp] theorem execLd_sound {w ord d base imm} (h : Sound m r s) : Yields (Sound m r) (execLd w ord d base imm s) := loadWord_sound h
@[simp] theorem execLdx_sound {w ord d base imm} (h : Sound m r s) : Yields (Sound m r) (execLdx w ord d base imm s) := loadWord_sound h

@[simp] theorem landBytes_sound {cell who but va bs} (h : Sound m r s) : Lands (Sound m r) (landBytes s cell who but va bs) := by
  unfold landBytes
  refine lands_ite (homeWrite_sound h) (foldl_lands (fun t x => ?_) h)
  split
  · exact homeWrite_sound t.2
  · exact setCell_sound t.2

@[simp] theorem storeLane_sound {w ord ranked g va data f} (h : Sound m r s) : Sound m r (storeLane w ord ranked g va data s f).1 := by
  dsimp only [storeLane]
  (repeat' split) <;> simp [h]

@[simp] theorem storeWord_sound {w ord d base imm ranked} (h : Sound m r s) :
    Yields (Sound m r) (storeWord w ord d base imm ranked s) := by
  unfold storeWord
  extract_lets dataSrcs
  refine unit_sound (fun t _ => withLanes_sound (fun u _ _ => ?_) t.2) h
  exact gives_ite trivial (foldLanes_sound (fun v _ _ => storeLane_sound v.2) u.2)

@[simp] theorem execSt_sound {w ord d base imm} (h : Sound m r s) : Yields (Sound m r) (execSt w ord d base imm s) := storeWord_sound h
@[simp] theorem execStc_sound {w ord d base imm} (h : Sound m r s) : Yields (Sound m r) (execStc w ord d base imm s) := storeWord_sound h

@[simp] theorem barredLanes_sound {srcs g k} (hk : ∀ (t : {s // Sound m r s}) g vals, Gives (Sound m r) (k t.1 g vals)) (h : Sound m r s) :
    Gives (Sound m r) (barredLanes srcs s g k) := withLanes_sound hk (barTx_sound h)

@[simp] theorem barredLowest_sound {all srcs g k} (hk : ∀ (t : {s // Sound m r s}) g vals, Gives (Sound m r) (k t.1 g vals))
    (h : Sound m r s) :
    Gives (Sound m r) (barredLowest all srcs s g k) := withLowest_sound hk (barTx_sound h)

@[simp] theorem atomLane_sound {kind w comb ord dst g va data f} (h : Sound m r s) :
    Sound m r (atomLane kind w comb ord dst g va data s f).1 := by
  unfold atomLane
  split
  · exact h
  next c _ =>
    have hpins : Sound m r (if wide ord = true then endPins s (·.cell == c.id) else s) := sound_ite (endPins_sound h) h
    split
    · exact h
    · split
      · exact h
      · dsimp only
        split
        · exact h
        · exact setAcc_sound (postStore_sound h)
        · exact post_sound (setFibre_sound hpins)

@[simp] theorem execAtom_sound {op cmb ord d addr v} (h : Sound m r s) : Yields (Sound m r) (execAtom op cmb ord d addr v s) := by
  unfold execAtom
  extract_lets w
  refine unit_sound (fun t _ => barredLanes_sound (fun u _ _ => ?_) t.2) h
  exact foldLanes_sound (fun v _ _ => atomLane_sound v.2) u.2

@[simp] theorem execRed_sound {op cmb ord addr v} (h : Sound m r s) : Yields (Sound m r) (execRed op cmb ord addr v s) := by
  unfold execRed
  extract_lets w
  refine unit_sound (fun t _ => barredLanes_sound (fun u _ _ => ?_) t.2) h
  exact foldLanes_sound (fun x _ _ => atomLane_sound x.2) u.2

@[simp] theorem execCas_sound {w ord d addr v} (h : Sound m r s) : Yields (Sound m r) (execCas w ord d addr v s) := by
  refine unit_sound (fun t _ => barredLanes_sound (fun u _ _ => ?_) t.2) h
  exact foldLanes_sound (fun x _ _ => atomLane_sound x.2) u.2

@[simp] theorem execFence_sound {eng mx scope} (h : Sound m r s) : Yields (Sound m r) (execFence eng mx scope s) :=
  unit_sound (fun t g => barredLanes_sound (fun u _ _ => foldLanes_sound (fun v _ _ => by
    have hpins : Sound m r (if wide scope = true then endPins v.1 (·.cell == g.cell.id) else v.1) := sound_ite (endPins_sound v.2) v.2
    dsimp only
    split
    · exact v.2
    · exact setFibre_sound (sound_ite (endPins_sound v.2) v.2)) u.2) t.2) h

@[simp] theorem listLane_sound {isGather g off hdr c f} (h : Sound m r s) : Sound m r (listLane isGather g off hdr c s f).1 := by
  unfold listLane
  dsimp only
  split
  · exact h
  · split
    · exact setOp_sound (pendingOp_sound h)
    · exact h
    · exact setOp_sound (pendingOp_sound (touchHomes_sound h))

@[simp] theorem listWord_sound {isGather off addr c} (h : Sound m r s) : Yields (Sound m r) (listWord isGather off addr c s) := by
  refine unit_sound (fun t _ => barredLanes_sound (fun u _ _ => ?_) t.2) h
  exact gives_ite trivial (foldLanes_sound (fun v _ _ => listLane_sound v.2) u.2)

@[simp] theorem execGather_sound {off addr c} (h : Sound m r s) : Yields (Sound m r) (execGather off addr c s) := listWord_sound h
@[simp] theorem execScatter_sound {off addr c} (h : Sound m r s) : Yields (Sound m r) (execScatter off addr c s) := listWord_sound h

@[simp] theorem sdefLane_sound {n flag g a f} (h : Sound m r s) : Sound m r (sdefLane n flag g a s f).1 := by
  dsimp only [sdefLane]
  (repeat' split) <;> simp [h]

@[simp] theorem execSdef_sound {n addr flag} (h : Sound m r s) : Yields (Sound m r) (execSdef n addr flag s) := by
  refine unit_sound (fun t _ => barredLanes_sound (fun u _ _ => ?_) t.2) h
  exact gives_ite trivial (foldLanes_sound (fun v _ _ => sdefLane_sound v.2) u.2)

@[simp] theorem execSstop_sound {n} (h : Sound m r s) : Yields (Sound m r) (execSstop n s) := by simp [execSstop, h]

/-! ### Machine/Sys -/

@[simp] theorem setIsland_sound {i f} (h : Sound m r s) : Sound m r (s.setIsland i f) := by
  unfold Sound at h ⊢
  refine ⟨h.1, fun hr => ⟨?_, (h.2 hr).2⟩⟩
  simpa [State.setIsland] using (h.2 hr).1

@[simp] theorem execTrap_sound {n} (h : Sound m r s) : Yields (Sound m r) (execTrap n s) :=
  unit_sound (fun t _ => takeTraps_sound t.2) h

@[simp] theorem execBkpt_sound {n} (h : Sound m r s) : Yields (Sound m r) (execBkpt n s) :=
  unit_sound (fun t _ => raiseLanes_sound t.2) h

@[simp] theorem execClk_sound {d} (h : Sound m r s) : Yields (Sound m r) (execClk d s) := by simp [execClk, h]
@[simp] theorem reissue_sound {r' owed} (h : Sound m r s) : Sound m r (reissue s r' owed) := h.update
@[simp] theorem eretOne_sound {r' h'} (h : Sound m r s) : Sound m r (eretOne s r' h') := h.update

@[simp] theorem execEret_sound (h : Sound m r s) : Yields (Sound m r) (execEret s) :=
  unit_sound (fun t _ => gives_ite trivial (raiseLanes_sound (mapFibres_sound (foldl_sound (fun u _ => eretOne_sound u.2) t.2)))) h

@[simp] theorem moveDsts_sound {r' m'} (h : Sound m r s) : Sound m r (moveDsts s r' m') := h.update

@[simp] theorem noteSpilled_sound {cluster h' n} (h : Sound m r s) : Sound m r (noteSpilled s cluster h' n) :=
  invalidate_sound (dropBlocks_sound (putMem_sound h))

@[simp] theorem putNow_sound {c f va bs} (h : Sound m r s) : Lands (Sound m r) (putNow s c f va bs) := by
  unfold putNow
  split
  · exact setCell_sound h
  · exact lands_map (fun _ ht => settleBlocks_sound ht) (homeWrite_sound (touchHomes_sound h))

@[simp] theorem spillLane_sound {g a f} (h : Sound m r s) : Sound m r (spillLane g a s f).1 := by
  unfold spillLane
  split
  · exact h
  · split
    · exact h
    · split
      · exact h
      · dsimp only
        split
        · exact h
        · next e => exact setFibre_sound (noteSpilled_sound (moveDsts_sound (lands_of_eq e (putNow_sound h))))

@[simp] theorem execSpill_sound {addr} (h : Sound m r s) : Yields (Sound m r) (execSpill addr s) :=
  unit_sound (fun t _ => withLanes_sound (fun u _ _ => gives_ite trivial (foldLanes_sound (fun v _ _ => spillLane_sound v.2) u.2)) t.2) h

@[simp] theorem fillLane_sound {g a f} (h : Sound m r s) : Sound m r (fillLane g a s f).1 := by
  unfold fillLane
  split
  · exact h
  · split
    · exact h
    · split
      · exact h
      · split
        · exact h
        · exact setFibre_sound (noteSpilled_sound (moveDsts_sound (touchHomes_sound h)))

@[simp] theorem execFill_sound {addr} (h : Sound m r s) : Yields (Sound m r) (execFill addr s) :=
  unit_sound (fun t _ => withLanes_sound (fun u _ _ => gives_ite trivial (foldLanes_sound (fun v _ _ => fillLane_sound v.2) u.2)) t.2) h

/-! ### Machine/Tx -/

@[simp] theorem acquireHold_sound {r' at'} (h : Sound m r s) : Sound m r (acquireHold s r' at') := by
  unfold acquireHold
  split <;> simp [h]

@[simp] theorem execTbegin_sound {d} (h : Sound m r s) : Yields (Sound m r) (execTbegin d s) := by
  refine unit_sound (fun t _ => ?_) h
  refine foldl_sound (fun u f => ?_) t.2
  dsimp only
  split
  · exact setFibre_sound u.2
  · exact sound_ite (abortTx_sound (setFibre_sound u.2)) (setFibre_sound u.2)

@[simp] theorem execTabort_sound {a} (h : Sound m r s) : Yields (Sound m r) (execTabort a s) :=
  unit_sound (fun t _ => withLanes_sound (fun u _ _ => foldl_sound (fun v _ => abortTx_sound v.2) u.2) t.2) h

@[simp] theorem txApply_sound {c who ws} (h : Sound m r s) : Lands (Sound m r) (txApply s c who ws) :=
  foldl_lands (P := Sound m r) (fun t _ => landBytes_sound t.2) (touchEach_sound h)

@[simp] theorem txCommit_sound {g f x} (h : Sound m r s) : Sound m r (txCommit s g f x).1 := by
  have hfail {c : Prop} [Decidable c] {t : Option Trap} {w : Word} :
      Sound m r (if c then (s, t) else (abortTx s ⟨g.cell.id, f.idx⟩ w, none)).1 := by
    split
    · exact h
    · exact abortTx_sound h
  unfold txCommit
  dsimp only
  split
  · exact h
  · split
    · exact hfail
    · exact abortTx_sound h
    · split
      · exact hfail
      · next e => exact acquireHold_sound (setFibre_sound (lands_of_eq e (txApply_sound h)))

@[simp] theorem tendPins_sound (h : Sound m r s) : Sound m r (tendPins s) := by
  unfold tendPins
  split <;> simp [h]

@[simp] theorem execTend_sound (h : Sound m r s) : Yields (Sound m r) (execTend s) := by
  refine unit_sound (fun t g => ?_) (tendPins_sound h)
  refine gives_ite trivial (gives_ite trivial (gives_ite trivial ?_))
  refine raiseLanes_sound (foldl_fst_sound (fun u _ => txCommit_sound u.2) ?_)
  exact foldl_sound (fun u _ => abortTx_sound u.2) (foldl_sound (fun u _ => setFibre_sound u.2) t.2)

/-! ### Machine/Frames -/

@[simp] theorem fenterLane_sound {pool d g n f} (h : Sound m r s) : Sound m r (fenterLane pool d g n s f).1 := by
  unfold fenterLane
  split
  · exact h
  · dsimp only
    split
    · exact h
    · split
      · exact h
      · split
        · exact h
        · split
          · exact h
          · next e => exact setFibre_sound (lands_of_eq e (putNow_sound h)).update

@[simp] theorem execFenter_sound {d cnt pool} (h : Sound m r s) : Yields (Sound m r) (execFenter d cnt pool s) := by
  refine unit_sound (fun t _ => withLanes_sound (fun u _ _ => ?_) t.2) h
  exact gives_ite trivial (foldLanes_sound (fun v _ _ => fenterLane_sound v.2) u.2)

@[simp] theorem fresh_sound {n g f r' wait} (hw : ∀ (t : {s // Sound m r s}) l, Sound m r (wait t.1 l)) (h : Sound m r s) :
    Sound m r (fleaveLane.fresh n g s f r' wait).1 := by
  have hleft : Sound m r (leaveFrames s r' n).1 := leaveFrames_sound h
  unfold fleaveLane.fresh
  split
  · exact h
  · dsimp only
    split
    · exact h
    · exact hw ⟨_, sound_ite (endPins_sound hleft) hleft⟩ _

@[simp] theorem fleaveLane_sound {n g f} (h : Sound m r s) : Sound m r (fleaveLane n g s f).1 := by
  unfold fleaveLane
  extract_lets q wait
  have hw (t : {s // Sound m r s}) (l : List Nat) : Sound m r (wait t.1 l) := sound_ite (retireLeft_sound t.2) (setFibre_sound t.2)
  split
  · split
    · exact hw ⟨_, setFibre_sound h⟩ _
    · exact fresh_sound hw h
  · exact fresh_sound hw h

@[simp] theorem execFleave_sound {n} (h : Sound m r s) : Yields (Sound m r) (execFleave n s) :=
  unit_sound (fun t _ => foldLanes_sound (fun u _ _ => fleaveLane_sound u.2) t.2) h

@[simp] theorem execFld_sound {d depth idx slot} (h : Sound m r s) : Yields (Sound m r) (execFld d depth idx slot s) :=
  unit_sound (fun t _ => gives_ite (parkReads_sound t.2)
    (gives_map (fun _ hu => foldl_sound (fun v _ => touchEach_sound v.2) hu) (laneBody_sound t.2))) h

@[simp] theorem execFst_sound {a depth idx slot} (h : Sound m r s) : Yields (Sound m r) (execFst a depth idx slot s) :=
  unit_sound (fun t _ => laneBody_sound t.2) h

/-! ### Machine/FibreI -/

@[simp] theorem forkLane_sound {d g t f} (h : Sound m r s) : Sound m r (forkLane d g t s f).1 := by
  unfold forkLane
  split
  · exact h
  · dsimp only
    split
    · exact h
    · split
      · exact setFibre_sound h
      · split
        · exact setFibre_sound h
        · exact setFibre_sound (shareAll_sound (setCell_sound h.update))

@[simp] theorem execFork_sound {d addr} (h : Sound m r s) : Yields (Sound m r) (execFork d addr s) :=
  unit_sound (fun t _ => barredLanes_sound (fun u _ _ => foldLanes_sound (fun v _ _ => forkLane_sound v.2) u.2) t.2) h

@[simp] theorem quitLane_sound {g f} (h : Sound m r s) : Sound m r (quitLane g s f).1 := by
  dsimp only [quitLane]
  (repeat' split) <;> simp [h]

@[simp] theorem quitThese_sound {g fs} (h : Sound m r s) : Sound m r (quitThese s g fs) := by
  unfold quitThese
  extract_lets t
  refine foldLanes_sound (fun t _ _ => ?_) (mapFibres_sound h)
  exact quitLane_sound t.2

@[simp] theorem execQuit_sound (h : Sound m r s) : Yields (Sound m r) (execQuit s) := unit_sound (fun t _ => quitThese_sound t.2) h
@[simp] theorem blockAt_sound {g fs w} (h : Sound m r s) : Sound m r (blockAt s g fs w) := h.update
@[simp] theorem execYield_sound (h : Sound m r s) : Yields (Sound m r) (execYield s) := unit_sound (fun t _ => blockAt_sound t.2) h

@[simp] theorem execBar_sound (h : Sound m r s) : Yields (Sound m r) (execBar s) :=
  unit_sound (fun t _ => blockAt_sound (barTx_sound t.2)) h

@[simp] theorem execCbar_sound (h : Sound m r s) : Yields (Sound m r) (execCbar s) := by
  refine unit_sound (fun t g => ?_) h
  have hbarred : Sound m r (barTx t.1 g g.members).1 := barTx_sound t.2
  dsimp only [gives_some]
  refine foldl_sound (fun u _ => ?_) (blockAt_sound (sound_ite hbarred (endPins_sound hbarred)))
  exact parkStuck_sound u.2

@[simp] theorem execReconv_sound (h : Sound m r s) : Yields (Sound m r) (execReconv s) :=
  unit_sound (fun t _ => blockAt_sound (barTx_sound t.2)) h

@[simp] theorem execRegroup_sound (h : Sound m r s) : Yields (Sound m r) (execRegroup s) := by
  refine unit_sound (fun t g => ?_) h
  have hbarred : Sound m r (barTx t.1 g g.members).1 := barTx_sound t.2
  dsimp only
  refine gives_ite hbarred (gives_ite (blockAt_sound hbarred) ?_)
  split
  · exact mapFibres_sound (blockAt_sound hbarred.update)
  · exact gives_ite (blockAt_sound hbarred) (mapFibres_sound (blockAt_sound hbarred.update))

@[simp] theorem execBallot_sound {d p} (h : Sound m r s) : Yields (Sound m r) (execBallot d p s) := by simp [execBallot, h]

@[simp] theorem crossLanes_sound {n op g} (h : Sound m r s) : Gives (Sound m r) (crossLanes n op s g) :=
  withLanes_sound (fun t _ _ => foldl_sound (fun u _ => setFibre_sound u.2) t.2) h

@[simp] theorem execMatchv_sound {d a} (h : Sound m r s) : Yields (Sound m r) (execMatchv d a s) := by simp [execMatchv, h]
@[simp] theorem execCompact_sound {d a p} (h : Sound m r s) : Yields (Sound m r) (execCompact d a p s) := by simp [execCompact, h]

/-! ### Machine/Ctl -/

@[simp] theorem transfer_sound {g next} (h : Sound m r s) : Sound m r (transfer s g next) := by
  refine raiseLanes_sound (foldl_sound (fun t _ => ?_) h)
  split
  · exact setFibre_sound t.2
  · exact t.2
  · exact setFibre_sound t.2

@[simp] theorem execBra_sound {c off} (h : Sound m r s) : Yields (Sound m r) (execBra c off s) :=
  unit_sound (fun t _ => transfer_sound t.2) h

@[simp] theorem execCall_sound {c off} (h : Sound m r s) : Yields (Sound m r) (execCall c off s) :=
  unit_sound (fun t _ => transfer_sound t.2.update) h

@[simp] theorem execRet_sound (h : Sound m r s) : Yields (Sound m r) (execRet s) := unit_sound (fun t _ => transfer_sound t.2) h

@[simp] theorem execJmp_sound {addr} (h : Sound m r s) : Yields (Sound m r) (execJmp addr s) :=
  unit_sound (fun t _ => withLanes_sound (fun u _ _ => transfer_sound u.2) t.2) h

@[simp] theorem execClause_sound {wait fa fb guard} (h : Sound m r s) : Yields (Sound m r) (execClause wait fa fb guard s) := by
  unfold execClause
  split
  · exact h
  next g _ =>
    have hstart {p : Place} : Sound m r (startClause s g wait p).1 := startClause_sound h
    exact yields_ite (trapGroup_sound h) (yields_ite hstart (closeUnit_sound (mapFibres_sound hstart)))

@[simp] theorem hintWord_sound {h' same} (h : Sound m r s) : Yields (Sound m r) (hintWord h' same s) := by
  dsimp only [hintWord]
  (repeat' split) <;> simp [h]

@[simp] theorem execHintImm_sound {high} (h : Sound m r s) : Yields (Sound m r) (execHintImm high s) := hintWord_sound h
@[simp] theorem execHintPerm_sound {pa pb} (h : Sound m r s) : Yields (Sound m r) (execHintPerm pa pb s) := hintWord_sound h
@[simp] theorem execHintMod_sound {rnd cls nt} (h : Sound m r s) : Yields (Sound m r) (execHintMod rnd cls nt s) := hintWord_sound h
@[simp] theorem execHintSched_sound {yld} (h : Sound m r s) : Yields (Sound m r) (execHintSched yld s) := hintWord_sound h

/-! ### Machine/Matrix -/

@[simp] theorem setTile_sound {unit t v} (h : Sound m r s) : Sound m r (s.setTile unit t v) := h.update

@[simp] theorem closeTile_sound {unit t cell} (h : Sound m r s) : Sound m r (s.closeTile unit t cell) := by
  unfold State.closeTile
  split <;> simp [h]

@[simp] theorem mmaRows_sound {c unit tile slot ea eb ws lo hi} (h : Sound m r s) :
    Sound m r (mmaRows s c unit tile slot ea eb ws lo hi) := by
  unfold mmaRows
  dsimp only
  refine sound_ite ?_ (orArith_sound (setTile_sound (sound_ite (closeTile_sound h) h)))
  have htile {t : TileState} {p : Prop} [Decidable p] :
      Sound m r ((if p then s.closeTile unit tile (some c.id) else s).setTile unit tile t) :=
    setTile_sound (sound_ite (closeTile_sound h) h)
  exact sound_ite (setMxBy_sound (setMx_sound htile)) htile

@[simp] theorem mmaEnd_sound {c unit tile slot hold ea eb} (h : Sound m r s) : Sound m r (mmaEnd s c unit tile slot hold ea eb) := by
  refine setTile_sound (sound_ite ?_ h)
  exact sound_ite (closeTile_sound (setTile_sound h)) (setTile_sound h)

@[simp] theorem mwrTile_sound {unit tile row vals by'} (h : Sound m r s) : Sound m r (mwrTile s unit tile row vals by') := h.update

@[simp] theorem drainTile_sound {unit tile n} (h : Sound m r s) : Sound m r (drainTile s unit tile n) := by
  induction n generalizing s with
  | zero => exact h
  | succ n ih =>
    unfold drainTile
    split
    · exact h
    · dsimp only
      split
      · exact ih (mwrTile_sound h.update)
      · exact ih (setTile_sound h.update)
      · exact h

@[simp] theorem drainAll_sound {unit tile} (h : Sound m r s) : Sound m r (drainAll s unit tile) := drainTile_sound h

@[simp] theorem finishFor_sound {o p} (h : Sound m r s) : Sound m r (finishFor s o p) := by
  have hdrop : Sound m r ((o.fibres.filter (p ·.1)).foldl (fun s x => s.dropFlag x.1 o.id x.2.1 x.2.2) s) := by
    refine foldl_sound (fun t _ => ?_) h
    exact dropFlag_sound t.2
  exact sound_ite hdrop.update (setOp_sound hdrop)

@[simp] theorem finishOp_sound {o} (h : Sound m r s) : Sound m r (finishOp s o) := by simp [finishOp, h]

@[simp] theorem advanceMma_sound {o c mask unit tile slot hold ea eb row} (h : Sound m r s) :
    Sound m r (advanceMma s o c mask unit tile slot hold ea eb row) := by
  unfold advanceMma
  extract_lets scl all have' new ws t u
  have hu : Sound m r u := by
    refine setOp_sound (foldl_sound (fun v _ => ?_) h)
    exact touchHomes_sound v.2
  exact sound_ite (drainAll_sound (finishOp_sound (mmaEnd_sound (mmaRows_sound hu)))) hu

@[simp] theorem faultMma_sound {o c unit tile slot hold ea eb row} (h : Sound m r s) :
    Sound m r (faultMma s o c unit tile slot hold ea eb row) := by
  unfold faultMma
  extract_lets scl all have' unread rowOf bad
  split
  · exact h
  · refine sound_ite h (foldl_sound (fun t _ => ?_) (setOp_sound (sound_ite (mmaRows_sound h) h)))
    exact parkStuck_sound t.2

@[simp] theorem mstPut_sound {c sup base d x} (h : Sound m r s) : (mstPut s c sup base d x).Lands (Sound m r) := by
  unfold mstPut
  dsimp only
  split
  · exact setCell_sound h
  · split
    · trivial
    · split
      · next e =>
        have hland := lands_of_eq e (landBytes_sound (sound_ite h (touchHomes_sound h)))
        exact sound_ite hland (settleBlocks_sound hland)
      · trivial

@[simp] theorem mstRows_sound {o c mask base d words n row got} (h : Sound m r s) :
    Sound m r (mstRows s o c mask base d words n row got).1 := by
  induction n generalizing s row got with
  | zero => exact h
  | succ n ih =>
    have hrow {l : List (Nat × Word)} {y : State × Nat} (hy : Sound m r y.1) : Sound m r (l.foldl (fun y x =>
        if mask.testBit x.1 && !y.2.testBit x.1 then
          match mstPut y.1 c (ownerSup y.1 o) base d x with | .ok t => (t, y.2 + 2 ^ x.1) | _ => (y.1, y.2)
        else (y.1, y.2)) y).1 := by
      refine foldl_fst_sound (fun y x => ?_) hy
      split
      · split
        · next e => exact res_lands_of_eq e (mstPut_sound y.2)
        · exact y.2
      · exact y.2
    unfold mstRows
    dsimp only
    split
    · exact ih (hrow h)
    · exact hrow h

@[simp] theorem advanceMst_sound {o c mask unit tile base dsc row} (h : Sound m r s) :
    Sound m r (advanceMst s o c mask unit tile base dsc row) := by
  unfold advanceMst
  dsimp only
  split
  · exact sound_ite h (drainAll_sound (orArith_sound (setOp_sound (closeTile_sound h))))
  · exact sound_ite (finishOp_sound (mstRows_sound h)) (setOp_sound (mstRows_sound h))

@[simp] theorem faultMst_sound {o c unit tile base dsc row} (h : Sound m r s) : Sound m r (faultMst s o c unit tile base dsc row) := by
  dsimp only [faultMst]
  (repeat' split) <;> simp [h]

@[simp] theorem advanceMrd_sound {o mask unit tile row dsts} (h : Sound m r s) : Sound m r (advanceMrd s o mask unit tile row dsts) := by
  unfold advanceMrd
  split
  · exact sound_ite h (drainAll_sound (setOp_sound (closeTile_sound h)))
  · refine afterChange_sound (finishFor_sound (foldl_sound (fun t _ => ?_) h))
    exact setFibre_sound t.2

@[simp] theorem trapLanes_sound {g vals t} (h : Sound m r s) : Sound m r (trapLanes s g vals t) := raiseLanes_sound h

@[simp] theorem execMdecl_sound {d base dsc} (h : Sound m r s) : Yields (Sound m r) (execMdecl d base dsc s) := by
  refine unit_sound (fun t _ => withLowest_sound (fun u _ _ => ?_) t.2) h
  dsimp only [gives_some]
  split
  · exact u.2
  · split
    · exact trapLanes_sound u.2
    · exact foldl_sound (fun v _ => setFibre_sound v.2) (setCell_sound u.2)

@[simp] theorem mmaWord_sound {hold slot tile a b} (h : Sound m r s) : Yields (Sound m r) (mmaWord hold slot tile a b s) := by
  refine unit_sound (fun t _ => barredLowest_sound (fun u _ _ => ?_) t.2) h
  dsimp only [gives_some]
  split
  · exact u.2
  · split
    · exact trapLanes_sound u.2
    · exact pendAll_sound u.2

@[simp] theorem execMma_sound {slot tile a b} (h : Sound m r s) : Yields (Sound m r) (execMma slot tile a b s) := mmaWord_sound h
@[simp] theorem execMmaHold_sound {slot tile a b} (h : Sound m r s) : Yields (Sound m r) (execMmaHold slot tile a b s) := mmaWord_sound h

@[simp] theorem execMrd_sound {d tile row} (h : Sound m r s) : Yields (Sound m r) (execMrd d tile row s) := by
  refine unit_sound (fun t _ => withLowest_sound (fun u _ _ => ?_) t.2) h
  dsimp only [gives_some]
  split
  · exact u.2
  · exact sound_ite (trapLanes_sound u.2) (pendAll_sound u.2)

@[simp] theorem postTile_sound {g k tile} (h : Sound m r s) : Sound m r (postTile s g k tile) := drainAll_sound (Sound.update h)

@[simp] theorem execMwr_sound {tile a row} (h : Sound m r s) : Yields (Sound m r) (execMwr tile a row s) := by
  refine unit_sound (fun t _ => withLowest_sound (fun u _ _ => ?_) t.2) h
  dsimp only [gives_some]
  split
  · exact u.2
  · exact sound_ite (trapLanes_sound u.2) (postTile_sound u.2)

@[simp] theorem execMzero_sound {tile} (h : Sound m r s) : Yields (Sound m r) (execMzero tile s) :=
  unit_sound (fun t _ => sound_ite t.2 (postTile_sound t.2)) h

@[simp] theorem execMst_sound {tile addr dsc} (h : Sound m r s) : Yields (Sound m r) (execMst tile addr dsc s) := by
  refine unit_sound (fun t _ => barredLowest_sound (fun u _ _ => ?_) t.2) h
  dsimp only [gives_some]
  split
  · exact u.2
  · split
    · exact trapLanes_sound u.2
    · exact pendAll_sound u.2

/-! ### Machine/Plate -/

@[simp] theorem execResid_sound {a b} (h : Sound m r s) : Yields (Sound m r) (execResid a b s) :=
  unit_sound (fun t _ => withLanes_sound (fun u _ _ => sound_ite u.2 (foldl_sound (fun v _ => orArith_sound (setCell_sound v.2)) u.2)) t.2) h

@[simp] theorem execSettle_sound (h : Sound m r s) : Yields (Sound m r) (execSettle s) := by
  refine unit_sound (fun t g => ?_) h
  have hbarred : Sound m r (barTx t.1 g g.members).1 := barTx_sound t.2
  refine gives_ite (foldLanes_sound (fun u _ _ => quitLane_sound u.2) hbarred) ?_
  dsimp only [gives_some]
  refine foldl_sound (fun u _ => ?_) (blockAt_sound (sound_ite hbarred (endPins_sound hbarred)))
  exact parkStuck_sound u.2

@[simp] theorem landAll_sound {c sup l} (h : Sound m r s) : Lands (Sound m r) (landAll s c sup l) := by
  refine foldl_lands (P := Sound m r) (fun t _ => ?_) (touchEach_sound h)
  exact lands_map (fun _ hu => settleBlocks_sound hu) (homeWrite_sound t.2)

@[simp] theorem execSettleCommit_sound {cell} (h : Sound m r s) : Yields (Sound m r) (execSettleCommit cell s) := by
  unfold execSettleCommit
  split
  · exact h
  · refine yields_ite h ?_
    split
    · exact takeTraps_sound h
    · exact h
    · next e =>
      refine foldl_sound (fun t _ => ?_) (setLaunch_sound (setCell_sound (lands_of_eq e (landAll_sound h))))
      exact finishQuit_sound t.2

@[simp] theorem stiRaise_sound {part fn addr new old} (h : Sound m r s) : Sound m r (stiRaise s part fn addr new old) := h.update

@[simp] theorem stiLane_sound {g va v f} (h : Sound m r s) : Sound m r (stiLane g va v s f).1 := by
  dsimp only [stiLane]
  (repeat' split) <;> simp [h]

@[simp] theorem execSti_sound {a addr} (h : Sound m r s) : Yields (Sound m r) (execSti a addr s) :=
  unit_sound (fun t _ => barredLanes_sound (fun u _ _ => foldLanes_sound (fun v _ _ => stiLane_sound v.2) u.2) t.2) h

@[simp] theorem proofLane_sound {g dst addr n f} (h : Sound m r s) : Sound m r (proofLane g dst addr n s f).1 := by
  dsimp only [proofLane]
  (repeat' split) <;> simp [h]

@[simp] theorem execProof_sound {a addr c} (h : Sound m r s) : Yields (Sound m r) (execProof a addr c s) :=
  unit_sound (fun t _ => barredLanes_sound (fun u _ _ => foldLanes_sound (fun v _ _ => proofLane_sound v.2) u.2) t.2) h

@[simp] theorem execProofSnapshot_sound {op} (h : Sound m r s) : Yields (Sound m r) (execProofSnapshot op s) := by
  dsimp only [execProofSnapshot]
  (repeat' split) <;> simp [h]

@[simp] theorem tqpushLane_sound {d g off q f} (h : Sound m r s) : Sound m r (tqpushLane d g off q s f).1 := by
  dsimp only [tqpushLane]
  (repeat' split) <;> simp [h]

@[simp] theorem execTqpush_sound {d off addr} (h : Sound m r s) : Yields (Sound m r) (execTqpush d off addr s) := by
  refine unit_sound (fun t _ => barredLanes_sound (fun u _ _ => ?_) t.2) h
  refine gives_ite trivial ?_
  exact foldLanes_sound (fun x _ _ => tqpushLane_sound x.2) u.2

@[simp] theorem tqpopLane_sound {d g off n f} (h : Sound m r s) : Sound m r (tqpopLane d g off n s f).1 := by
  dsimp only [tqpopLane]
  (repeat' split) <;> simp [h]

@[simp] theorem execTqpop_sound {d off c} (h : Sound m r s) : Yields (Sound m r) (execTqpop d off c s) := by
  refine unit_sound (fun t _ => barredLanes_sound (fun u _ _ => ?_) t.2) h
  exact foldLanes_sound (fun x _ _ => tqpopLane_sound x.2) u.2

@[simp] theorem tqpushPoint_sound {c o q rec'} (h : Sound m r s) : Gives (fun x => Sound m r x.1) (tqpushPoint s c o q rec') := by
  unfold tqpushPoint
  split
  · exact h
  · split
    · exact h
    · refine gives_ite h (gives_ite trivial ?_)
      split
      · exact h
      · next e => exact setLaunch_sound (lands_of_eq e (homeWrite_sound (touchHomes_sound h)))

@[simp] theorem tqpopPoint_sound {c o n} (h : Sound m r s) : Gives (fun x => Sound m r x.1) (tqpopPoint s c o n) := by
  unfold tqpopPoint
  split
  · split
    · exact h
    · refine gives_ite trivial ?_
      dsimp only
      split
      · exact h
      · refine setLaunch_sound (foldl_sound (fun t _ => ?_) h)
        exact touchHomes_sound t.2
  · exact h

@[simp] theorem draftWord_sound {srcs wait act} (hact : ∀ (t : {s // Sound m r s}) c f vs, Sound m r (act t.1 c f vs).1) (h : Sound m r s) :
    Yields (Sound m r) (draftWord srcs wait act s) := by
  refine unit_sound (fun t _ => barredLowest_sound (fun u _ _ => ?_) t.2) h
  split
  · exact u.2
  · exact gives_ite trivial (foldLanes_sound (fun v _ _ => hact ⟨_, v.2⟩ _ _ _) u.2)

@[simp] theorem dropWindow_sound {c d} (h : Sound m r s) : Sound m r (dropWindow s c d) := h.update

@[simp] theorem draftOpen_sound {n base cap at' c f} (h : Sound m r s) : Sound m r (draftOpen n base cap at' s c f).1 := by
  unfold draftOpen
  split
  · exact h
  · exact acquireHold_sound (dropWindow_sound (setCell_sound (touchHomes_sound h)))

@[simp] theorem execDraft_sound {n base c} (h : Sound m r s) : Yields (Sound m r) (execDraft n base c s) := by simp [execDraft, h]

@[simp] theorem acceptNow_sound {n count c f} (h : Sound m r s) : Sound m r (acceptNow n count s c f).1 := by
  unfold acceptNow
  split
  · exact h
  · split
    · exact h
    · dsimp only
      split
      · exact h
      · next e => exact dropWindow_sound (setCell_sound (lands_of_eq e (landAll_sound h)))

@[simp] theorem acceptPins_sound {n} (h : Sound m r s) : Sound m r (acceptPins n s) := by
  unfold acceptPins
  split <;> simp [h]

@[simp] theorem execAccept_sound {n c} (h : Sound m r s) : Yields (Sound m r) (execAccept n c s) := by simp [execAccept, h]

@[simp] theorem execDiscard_sound {n} (h : Sound m r s) : Yields (Sound m r) (execDiscard n s) := by
  refine draftWord_sound (fun t _ _ _ => ?_) h
  split
  · exact setCell_sound t.2
  · exact t.2

/-! ### Machine/QueueI -/

@[simp] theorem setQueue_sound {q f} (h : Sound m r s) : Sound m r (s.setQueue q f) := h.update

@[simp] theorem postLane_sound {k chain d g h' off f} (h : Sound m r s) : Sound m r (postLane k chain d g h' off s f).1 := by
  dsimp only [postLane]
  (repeat' split) <;> simp [h]

@[simp] theorem postWord_sound {k chain d addr off} (h : Sound m r s) : Yields (Sound m r) (postWord k chain d addr off s) :=
  unit_sound (fun t _ => barredLanes_sound (fun u _ _ => gives_ite trivial (foldLanes_sound (fun v _ _ => postLane_sound v.2) u.2)) t.2) h

@[simp] theorem execQpost_sound {d addr off} (h : Sound m r s) : Yields (Sound m r) (execQpost d addr off s) := postWord_sound h
@[simp] theorem execEcmd_sound {d addr off} (h : Sound m r s) : Yields (Sound m r) (execEcmd d addr off s) := postWord_sound h

theorem twoWrites_sound {who : Who} {a b : Nat} {x y : List Byte} (h : Sound m r s) :
    Lands (Sound m r) ((homeWrite s who none a x).bind fun t => homeWrite t who none b y) :=
  lands_bind (fun _ ht => homeWrite_sound ht) (homeWrite_sound h)

@[simp] theorem qpostPoint_sound {c o h' pkt} (h : Sound m r s) : Gives (fun x => Sound m r x.1) (qpostPoint s c o h' pkt) := by
  unfold qpostPoint
  refine gives_ite trivial ?_
  split
  · exact gives_ite h h
  · exact h
  · refine gives_ite h (gives_ite h (gives_ite trivial ?_))
    dsimp only
    split
    · exact h
    · next e => exact setQueue_sound (lands_of_eq e (twoWrites_sound (touchHomes_sound (touchHomes_sound h))))

@[simp] theorem ecmdPoint_sound {c o h' entry} (h : Sound m r s) : Gives (fun x => Sound m r x.1) (ecmdPoint s c o h' entry) := by
  unfold ecmdPoint
  refine gives_ite trivial ?_
  split
  · exact gives_ite h h
  · exact h
  · refine gives_ite h (gives_ite trivial ?_)
    dsimp only
    split
    · exact h
    · next e => exact setQueue_sound (lands_of_eq e (twoWrites_sound (touchHomes_sound (touchHomes_sound h))))

@[simp] theorem endWait_sound {q} (h : Sound m r s) : Sound m r (endWait s q) := by
  unfold endWait
  split
  · exact settleHatch_sound (acquireHold_sound (setFibre_sound h))
  · exact h

@[simp] theorem ewaitLane_sound {g h' n f} (h : Sound m r s) : Sound m r (ewaitLane g h' n s f).1 := by
  dsimp only [ewaitLane]
  (repeat' split) <;> simp [h]

@[simp] theorem execEwait_sound {addr c} (h : Sound m r s) : Yields (Sound m r) (execEwait addr c s) := by
  refine unit_sound (fun t _ => barredLanes_sound (fun u _ _ => ?_) t.2) h
  exact gives_ite trivial (releaseEwaits_sound (foldLanes_sound (fun v _ _ => ewaitLane_sound v.2) u.2))

@[simp] theorem execSgnl_sound {addr c} (h : Sound m r s) : Yields (Sound m r) (execSgnl addr c s) :=
  unit_sound (fun t _ => barredLanes_sound (fun u _ _ => foldLanes_sound (fun v _ _ => atomLane_sound v.2) u.2) t.2) h

@[simp] theorem waitsLane_sound {d g a v f} (h : Sound m r s) : Sound m r (waitsLane d g a v s f).1 := by
  unfold waitsLane
  dsimp only
  split
  · exact h
  · split
    · exact h
    · split
      · exact acquireHold_sound (setFibre_sound (touchHomes_sound h))
      · exact setFibre_sound (touchHomes_sound h)

@[simp] theorem execWaits_sound {d addr c} (h : Sound m r s) : Yields (Sound m r) (execWaits d addr c s) := by
  refine unit_sound (fun t _ => barredLanes_sound (fun u _ _ => ?_) t.2) h
  exact gives_ite trivial (foldLanes_sound (fun v _ _ => waitsLane_sound v.2) u.2)

@[simp] theorem wakeWaits_sound (h : Sound m r s) : Sound m r (wakeWaits s) := by
  unfold wakeWaits
  refine foldl_sound (fun t x => ?_) h
  refine sound_ite t.2 ?_
  split
  · exact takeTraps_sound t.2
  · exact sound_ite (endWait_sound (setFibre_sound (touchHomes_sound t.2))) t.2

@[simp] theorem chanStep_sound {cell ch} (h : Sound m r s) : Gives (Sound m r) (chanStep s cell ch) := by
  have hput {k : Chan → Chan} {q : FRef} {f : Fibre → Fibre} {c : Cell → Cell} : Gives (Sound m r) (some ((s.setCell cell c).setFibre q f)) :=
    setFibre_sound (setCell_sound h)
  unfold chanStep
  refine gives_bind fun c => gives_bind fun k => ?_
  dsimp only
  split
  · split
    · exact setFibre_sound (setCell_sound h)
    · trivial
  · split
    · refine gives_ite trivial ?_
      split
      · exact setFibre_sound (setCell_sound h)
      · trivial
    · trivial

@[simp] theorem chanRun_sound {cell ch n} (h : Sound m r s) : Sound m r (chanRun s cell ch n) := by
  induction n generalizing s with
  | zero => exact h
  | succ n ih =>
    unfold chanRun
    split
    · exact h
    · next e => exact ih (gives_of_eq e (chanStep_sound h))

@[simp] theorem chanSettle_sound {cell ch} (h : Sound m r s) : Sound m r (chanSettle s cell ch) := by
  unfold chanSettle
  split
  · exact h
  · dsimp only
    split
    · exact chanRun_sound h
    · refine foldl_sound (fun t _ => settleHatch_sound (setFibre_sound ?_)) (chanRun_sound h)
      split
      · exact pendAll_sound t.2
      · exact t.2

@[simp] theorem chanWord_sound {ch ll srcs w} (h : Sound m r s) : Yields (Sound m r) (chanWord ch ll srcs w s) := by
  refine unit_sound (fun t _ => barredLanes_sound (fun u _ _ => ?_) t.2) h
  refine sound_ite (raiseLanes_sound u.2) (chanSettle_sound (foldl_sound (fun v _ => ?_) u.2))
  exact setFibre_sound v.2

@[simp] theorem execSend_sound {ch a} (h : Sound m r s) : Yields (Sound m r) (execSend ch a s) := chanWord_sound h
@[simp] theorem execRecv_sound {d ch} (h : Sound m r s) : Yields (Sound m r) (execRecv d ch s) := chanWord_sound h

/-! ### Machine/Moves -/

@[simp] theorem afterAll_sound (h : Sound m r s) : Sound m r (afterAll s) := by simp [afterAll, h]
@[simp] theorem moveLast_sound {a} (h : Sound m r s) : Sound m r (moveLast s a) := h.update

@[simp] theorem leaveNow_sound {x} (h : Sound m r s) : Sound m r (leaveNow s x) := by
  have hview {f : Acc → Acc} : Sound m r ((moveLast s x.id).setAcc x.id f) := setAcc_sound (moveLast_sound h)
  exact sound_ite (sound_ite (setAcc_sound (setCell_sound h)) (setAcc_sound h)) (sound_ite (writeBlocks_sound hview) hview)

@[simp] theorem execLeave_sound {a} (h : Sound m r s) : Yields (Sound m r) (execLeave a s) := by
  dsimp only [execLeave]
  (repeat' split) <;> simp [h]

@[simp] theorem deliverWords_sound {x bs mask} (h : Sound m r s) : Sound m r (deliverWords s x bs mask) := h.update

@[simp] theorem finishAcc_sound {x} (h : Sound m r s) : Sound m r (finishAcc s x) :=
  afterAll_sound (dropAcc_sound (dropFlag_sound h))

@[simp] theorem acquirePoints_sound {x} (h : Sound m r s) : Sound m r (acquirePoints s x) := by
  unfold acquirePoints
  split <;> simp [h]

@[simp] theorem execForward_sound {a} (h : Sound m r s) : Yields (Sound m r) (execForward a s) := by
  unfold execForward
  split
  · exact h
  · split
    · exact h
    · split
      · exact h
      · exact finishAcc_sound (deliverWords_sound (setFibre_sound (acquirePoints_sound h)))

@[simp] theorem enterSwitch_sound {x ls} (h : Sound m r s) : Sound m r (enterSwitch s x ls) := by
  induction ls with
  | nil => exact setAcc_sound h
  | cons l ls ih => exact sound_ite (setAcc_sound (moveLast_sound h)) ih

@[simp] theorem execRequestSend_sound {a} (h : Sound m r s) : Yields (Sound m r) (execRequestSend a s) := by
  dsimp only [execRequestSend]
  (repeat' split) <;> simp [h]

@[simp] theorem combineNow_sound {op sw x y} (h : Sound m r s) : Sound m r (combineNow s op sw x y) := h.update

@[simp] theorem execCombine_sound {x y} (h : Sound m r s) : Yields (Sound m r) (execCombine x y s) := by
  dsimp only [execCombine]
  (repeat' split) <;> simp [h]

@[simp] theorem execCombineWindowExpiry_sound {a} (h : Sound m r s) : Yields (Sound m r) (execCombineWindowExpiry a s) := by
  dsimp only [execCombineWindowExpiry]
  (repeat' split) <;> simp [h]

@[simp] theorem execEscape_sound {switch} (h : Sound m r s) : Yields (Sound m r) (execEscape switch s) := h.update

@[simp] theorem refuseAcc_sound {x c} (h : Sound m r s) : Sound m r (refuseAcc s x c) :=
  sound_ite h (afterAll_sound (foldl_sound (fun t _ => parkStuck_sound t.2) (freePins_sound h.update)))

@[simp] theorem execTlbWalk_sound {a useTlb} (h : Sound m r s) : Yields (Sound m r) (execTlbWalk a useTlb s) := by
  dsimp only [execTlbWalk]
  (repeat' split) <;> simp [h]

@[simp] theorem execLineFill_sound {op} (h : Sound m r s) : Yields (Sound m r) (execLineFill op s) := by
  dsimp only [execLineFill]
  (repeat' split) <;> simp [h]

@[simp] theorem touchLine_sound {x} (h : Sound m r s) : Sound m r (touchLine s x) := by simp [touchLine, h]
@[simp] theorem tookWords_sound {x ws result} (h : Sound m r s) : Sound m r (tookWords s x ws result) := h.update
@[simp] theorem setSplit_sound {cluster split} (h : Sound m r s) : Sound m r (s.setSplit cluster split) := h.update

@[simp] theorem fillBlock_sound {x blk} (h : Sound m r s) : Sound m r (fillBlock s x blk) := by
  dsimp only [fillBlock]
  (repeat' split) <;> simp [h]

@[simp] theorem arriveLoad_sound {x mask blk} (h : Sound m r s) : Sound m r (arriveLoad s x mask blk) := by
  unfold arriveLoad
  dsimp only
  split
  · exact refuseAcc_sound h
  · exact fillBlock_sound (tookWords_sound (touchLine_sound h))

@[simp] theorem arriveStore_sound {x mask} (h : Sound m r s) : Sound m r (arriveStore s x mask) := by
  unfold arriveStore
  extract_lets ws old put
  have hput : Lands (Sound m r) put :=
    foldl_lands (P := Sound m r) (fun t _ => lands_map (fun _ hu => sound_ite (dropBlocks_sound hu) (settleBlocks_sound hu)) (landBytes_sound t.2))
      (touchLine_sound h)
  clear_value put
  cases put with
  | error e => exact refuseAcc_sound h
  | ok u =>
    have htook : Sound m r (tookWords u x ws []) := tookWords_sound hput
    exact freePins_sound (sound_ite (stiRaise_sound htook) htook)

@[simp] theorem arriveAtomic_sound {x} (h : Sound m r s) : Sound m r (arriveAtomic s x) := by
  unfold arriveAtomic
  split
  · exact refuseAcc_sound h
  next old _ =>
    have htouch : Sound m r (touchLine s x) := touchLine_sound h
    extract_lets before t put
    have hput : Lands (Sound m r) put := by
      unfold put
      split
      · cases spot t x.who x.va .write with
        | error e => trivial
        | ok _ => exact htouch
      · exact lands_map (fun _ hu => foldl_sound (fun v _ => settleBlocks_sound v.2) hu) (homeWrite_sound htouch)
    clear_value put
    cases put with
    | error e => exact refuseAcc_sound htouch
    | ok u => exact freePins_sound (Sound.update hput)

@[simp] theorem passPort_sound {x} (h : Sound m r s) : Sound m r (passPort s x) := by
  dsimp only [passPort]
  (repeat' split) <;> simp [h]

@[simp] theorem execArrive_sound {a mask blk} (h : Sound m r s) : Yields (Sound m r) (execArrive a mask blk s) := by
  unfold execArrive
  split
  · exact h
  next x _ =>
    have hport : Sound m r (acquirePoints (passPort s x) x) := acquirePoints_sound (passPort_sound h)
    exact yields_ite h (afterAll_sound (sound_ite (arriveAtomic_sound hport) (sound_ite (arriveStore_sound hport) (arriveLoad_sound hport))))

@[simp] theorem execReply_sound {a mask} (h : Sound m r s) : Yields (Sound m r) (execReply a mask s) := by
  dsimp only [execReply]
  (repeat' split) <;> simp [h]

@[simp] theorem execDeliverInval_sound {cluster} (h : Sound m r s) : Yields (Sound m r) (execDeliverInval cluster s) := by
  unfold execDeliverInval
  split <;> simp [h]

@[simp] theorem execPinTimeout_sound {rel} (h : Sound m r s) : Yields (Sound m r) (execPinTimeout rel s) :=
  yields_ite (afterAll_sound (freePins_sound (endPins_sound h))) h

@[simp] theorem writeBackAll_sound {asid} (h : Sound m r s) : Sound m r (writeBackAll s asid) := by simp [writeBackAll, h]
@[simp] theorem pinRelease_sound {x} (h : Sound m r s) : Gives (Sound m r) (pinRelease s x) := gives_ite trivial h.update

@[simp] theorem releasePart_sound {x} (h : Sound m r s) : Gives (Sound m r) (releasePart s x) := by
  unfold releasePart
  dsimp only
  split
  · refine gives_ite trivial ?_
    split
    · next e =>
      refine setAcc_sound (gives_of_eq e ?_)
      exact gives_ite trivial (pinRelease_sound h)
    · exact endPins_sound (setAcc_sound h)
  · exact gives_ite (setAcc_sound (writeBackAll_sound h)) trivial
  · exact gives_ite (setAcc_sound h) trivial

@[simp] theorem execFenceDone_sound {cell fib} (h : Sound m r s) : Yields (Sound m r) (execFenceDone cell fib s) := by
  unfold execFenceDone
  dsimp only
  split
  · refine yields_ite h ?_
    split
    · next e =>
      obtain ⟨x, -, hx⟩ := List.exists_of_findSome?_eq_some e
      exact afterAll_sound (gives_of_eq hx (releasePart_sound h))
    · split
      · refine yields_ite (afterChange_sound (settleHatch_sound (setFibre_sound ?_))) h
        exact sound_ite (writeBackAll_sound h) (sound_ite (atPoint_sound h) h)
      · exact h
  · exact h

/-! ### Machine/Pending -/

@[simp] theorem noteReads_sound {c sup q cls nt from' addrs} (h : Sound m r s) : Sound m r (noteReads s c sup q cls nt from' addrs) := by
  refine setFibre_sound (foldl_sound (fun t _ => ?_) h)
  exact touchHome_sound t.2

@[simp] theorem refuseOp_sound {o t} (h : Sound m r s) : Sound m r (refuseOp s o t) := by simp [refuseOp, h]

@[simp] theorem deliverValue_sound {o ws mask} (h : Sound m r s) : Sound m r (deliverValue s o ws mask) := by
  dsimp only [deliverValue]
  (repeat' split) <;> simp [h]

@[simp] theorem deliverScratch_sound {o dst pos ws mask} (h : Sound m r s) : Sound m r (deliverScratch s o dst pos ws mask) := by
  unfold deliverScratch
  extract_lets now t u got
  have hu : Sound m r u := by
    refine foldl_sound (fun v _ => ?_) (setCell_sound h)
    exact sound_ite (setFibre_sound v.2) v.2
  exact sound_ite (finishOp_sound hu) (setOp_sound hu)

@[simp] theorem advanceGather_sound {c o mask off l} (h : Sound m r s) : Sound m r (advanceGather s c o mask off l) := by
  unfold advanceGather
  extract_lets now t u got notes v
  have hv : Sound m r v := setOp_sound (setCell_sound (noteReads_sound h))
  clear_value v
  refine sound_ite hv ?_
  split
  · exact refuseOp_sound hv
  · exact finishOp_sound hv

@[simp] theorem scatterPut_sound {c o off l idx k} {acc : State × Nat × List (Nat × Word)} (h : Sound m r acc.1) :
    Sound m r (scatterPut c o off l idx acc k).1 := by
  obtain ⟨s, got, notes⟩ := acc
  unfold scatterPut
  dsimp only at h ⊢
  split
  · exact h
  · split
    · exact h
    · split
      · exact h
      · split
        · next e =>
          have hland := lands_of_eq e (landBytes_sound (sound_ite h (touchHomes_sound h)))
          exact sound_ite hland (settleBlocks_sound hland)
        · exact h

@[simp] theorem advanceScatter_sound {c o mask off l} (h : Sound m r s) : Sound m r (advanceScatter s c o mask off l) := by
  unfold advanceScatter
  extract_lets now have' t n allRead idx
  have ht : Sound m r t := noteReads_sound h
  refine sound_ite (setOp_sound ht) ?_
  have hput {ks : List Nat} {got : Nat} {f : Op → Op} :
      Sound m r ((ks.foldl (scatterPut c o off l idx) (t, got, have')).1.setOp o.id f) := by
    refine setOp_sound (foldl_fst_sound (fun y _ => ?_) ht)
    exact scatterPut_sound y.2
  refine sound_ite hput ?_
  split
  · exact refuseOp_sound hput
  · exact finishOp_sound hput

@[simp] theorem rereadList_sound {c o off hdr n detail k} (h : Sound m r s) : Sound m r (rereadList s c o off hdr n detail k) := by
  dsimp only [rereadList]
  (repeat' split) <;> simp [h]

@[simp] theorem takePoint_sound {o x} (hx : Gives (fun y => Sound m r y.1) x) (h : Sound m r s) : Sound m r (takePoint s o x) := by
  unfold takePoint
  split
  · exact h
  · exact refuseOp_sound hx
  · exact setOp_sound hx

@[simp] theorem single_sound {o : Option (State × Except Trap Word)} (h : Gives (fun x => Sound m r x.1) o) :
    Gives (fun x => Sound m r x.1) (single o) := gives_map (fun _ hx => hx) h

@[simp] theorem advanceOp_sound {c o mask} (h : Sound m r s) : Sound m r (advanceOp s c o mask) := by
  have hscratch {dst pos : Nat} {ws : List (Nat × Word)} : Sound m r (deliverScratch s o dst pos ws mask) := deliverScratch_sound h
  unfold advanceOp
  split
  case h_1 => exact deliverValue_sound h
  case h_2 => exact advanceMma_sound h
  case h_3 => exact advanceMrd_sound h
  case h_4 => exact advanceMst_sound h
  case h_5 => exact h
  case h_6 => exact h
  case h_7 =>
    refine sound_ite h ?_
    split
    · exact rereadList_sound h
    · exact advanceGather_sound h
  case h_8 =>
    refine sound_ite h ?_
    split
    · exact rereadList_sound h
    · exact advanceScatter_sound h
  case h_9 =>
    split
    · exact h
    · exact hscratch
  case h_10 =>
    split
    · exact hscratch
    · exact sound_ite h (takePoint_sound (single_sound (tqpushPoint_sound h)) h)
  case h_11 =>
    split
    · exact hscratch
    · exact sound_ite h (takePoint_sound (tqpopPoint_sound h) h)
  case h_12 =>
    split
    · exact hscratch
    · exact sound_ite h (takePoint_sound (single_sound (qpostPoint_sound h)) h)
  case h_13 =>
    split
    · exact hscratch
    · exact sound_ite h (takePoint_sound (single_sound (ecmdPoint_sound h)) h)

@[simp] theorem execLongLatencyComplete_sound {op mask} (h : Sound m r s) : Yields (Sound m r) (execLongLatencyComplete op mask s) := by
  dsimp only [execLongLatencyComplete]
  (repeat' split) <;> simp [h]

@[simp] theorem execMatrixFault_sound {op} (h : Sound m r s) : Yields (Sound m r) (execMatrixFault op s) := by
  dsimp only [execMatrixFault]
  (repeat' split) <;> simp [h]

@[simp] theorem execStreamRunaheadRead_sound {cell fib n} (h : Sound m r s) :
    Yields (Sound m r) (execStreamRunaheadRead cell fib n s) := by
  dsimp only [execStreamRunaheadRead]
  (repeat' split) <;> simp [h]

@[simp] theorem execClauseWaitEnd_sound {cell fib} (h : Sound m r s) : Yields (Sound m r) (execClauseWaitEnd cell fib s) := by
  unfold execClauseWaitEnd
  split
  · split
    · exact yields_ite (afterChange_sound (settleHatch_sound (mapFibres_sound h))) h
    · exact h
  · exact h

@[simp] theorem execRegroupTimeout_sound {cluster quad entry} (h : Sound m r s) :
    Yields (Sound m r) (execRegroupTimeout cluster quad entry s) := by
  dsimp only [execRegroupTimeout]
  (repeat' split) <;> simp [h]

@[simp] theorem execWatchdog_sound {cell fib} (h : Sound m r s) : Yields (Sound m r) (execWatchdog cell fib s) := by
  dsimp only [execWatchdog]
  (repeat' split) <;> simp [h]

@[simp] theorem execTrapEntry_sound {cell fib} (h : Sound m r s) : Yields (Sound m r) (execTrapEntry cell fib s) := by
  dsimp only [execTrapEntry]
  (repeat' split) <;> simp [h]

/-! ### Machine/Engine -/

@[simp] theorem setEngine_sound {e} (h : Sound m r s) : Sound m r (s.setEngine e) := h.update

@[simp] theorem execEngineAcq_sound {ch} (h : Sound m r s) : Yields (Sound m r) (execEngineAcq ch s) := by
  dsimp only [execEngineAcq]
  (repeat' split) <;> simp [h]

@[simp] theorem runCmd_sound {kind ch act} (hact : ∀ (t : {s // Sound m r s}) q c, Gives (fun x => Sound m r x.1) (act t.1 q c))
    (h : Sound m r s) :
    Yields (Sound m r) (runCmd kind ch act s) := by
  unfold runCmd
  split
  · exact h
  · dsimp only
    split
    · refine yields_ite h (yields_ite (setEngine_sound h) ?_)
      split
      · exact h
      · next e => exact setEngine_sound (gives_of_eq (P := fun x => Sound m r x.1) e (hact ⟨s, h⟩ _ _))
    · exact h

@[simp] theorem enginePut_sound {who a bs} (h : Sound m r s) : Sound m r (enginePut s who a bs).1 := by
  have hput : Sound m r (homePut (touchHomes s who none false .write a bs.length) who a bs).1 := homePut_sound (touchHomes_sound h)
  refine sound_fst_ite hput (foldl_sound (fun t _ => ?_) hput)
  exact invalidate_sound t.2

@[simp] theorem execEngineNop_sound {ch} (h : Sound m r s) : Yields (Sound m r) (execEngineNop ch s) := runCmd_sound (fun t _ _ => t.2) h

@[simp] theorem execEngineCopy_sound {ch} (h : Sound m r s) : Yields (Sound m r) (execEngineCopy ch s) := by
  refine runCmd_sound (fun t q c => gives_ite trivial ?_) h
  split
  · exact t.2
  · exact enginePut_sound (touchHomes_sound t.2)

@[simp] theorem execEngineFill_sound {ch} (h : Sound m r s) : Yields (Sound m r) (execEngineFill ch s) :=
  runCmd_sound (fun t _ _ => gives_ite trivial (enginePut_sound t.2)) h

@[simp] theorem execEngineMcast_sound {ch} (h : Sound m r s) : Yields (Sound m r) (execEngineMcast ch s) := by
  refine runCmd_sound (fun t q c => gives_ite trivial ?_) h
  split
  · exact t.2
  · refine foldl_sound (fun u j => ?_) (touchHomes_sound t.2)
    split
    · exact u.2
    · exact setCell_sound u.2

@[simp] theorem execEngineGather_sound {ch} (h : Sound m r s) : Yields (Sound m r) (execEngineGather ch s) := by
  refine runCmd_sound (fun t q c => gives_ite trivial ?_) h
  split
  · exact t.2
  · refine gives_ite t.2 (gives_ite trivial (enginePut_sound (foldl_sound (fun u _ => ?_) (touchHomes_sound t.2))))
    split
    · exact touchHomes_sound (sound_ite (touchHomes_sound u.2) u.2)
    · exact u.2

@[simp] theorem addSignal_sound {who a v} (h : Sound m r s) : Sound m r (addSignal s who a v).1 := by
  unfold addSignal
  split
  · exact h
  · split
    · next e => exact lands_of_eq e (homeWrite_sound (touchHomes_sound h))
    · exact h

@[simp] theorem execEngineSgnl_sound {ch} (h : Sound m r s) : Yields (Sound m r) (execEngineSgnl ch s) :=
  runCmd_sound (fun t _ _ => gives_ite trivial (addSignal_sound t.2)) h

@[simp] theorem collChunk_sound {q c e others} (h : Sound m r s) : Gives (fun x => Sound m r x.1) (collChunk s q c e others) := by
  unfold collChunk
  dsimp only
  split
  · refine gives_ite h (gives_ite h (gives_ite trivial ?_))
    split
    · exact h
    · have hput {who : Who} {a b n : Nat} {bs : List Byte} : Sound m r (enginePut (touchHomes s who none false .read a n) who b bs).1 :=
        enginePut_sound (touchHomes_sound h)
      exact gives_ite hput (gives_ite hput hput)
  · exact h

@[simp] theorem execEngineColl_sound {ch others} (h : Sound m r s) : Yields (Sound m r) (execEngineColl ch others s) := by
  unfold execEngineColl
  split
  · exact h
  · dsimp only
    split
    · refine yields_ite h (yields_ite (setEngine_sound h) ?_)
      split
      · exact h
      · next e => exact setEngine_sound (gives_of_eq (P := fun x => Sound m r x.1) e (collChunk_sound h))
    · exact h

@[simp] theorem execCollMemberFailure_sound {ch dev} (h : Sound m r s) : Yields (Sound m r) (execCollMemberFailure ch dev s) := by
  dsimp only [execCollMemberFailure]
  (repeat' split) <;> simp [h]

@[simp] theorem execEngineRel_sound {ch} (h : Sound m r s) : Yields (Sound m r) (execEngineRel ch s) := by
  dsimp only [execEngineRel]
  (repeat' split) <;> simp [h]

@[simp] theorem wakeEwaits_sound {ch seq err} (h : Sound m r s) : Sound m r (wakeEwaits s ch seq err) := h.update

@[simp] theorem devPut_sound {q a bs} (h : Sound m r s) : Sound m r (devPut s q a bs) := by
  unfold devPut
  split
  · next e => exact lands_of_eq e (homeWrite_sound (touchHomes_sound h))
  · exact h

@[simp] theorem execEngineCompletion_sound {ch} (h : Sound m r s) : Yields (Sound m r) (execEngineCompletion ch s) := by
  unfold execEngineCompletion
  split
  · dsimp only
    refine yields_ite h (afterAll_sound (setEngine_sound (setQueue_sound (devPut_sound (wakeEwaits_sound ?_)))))
    have hput {q : QueueReg} {a b : Nat} {x y : List Byte} : Sound m r (devPut (devPut s q a x) q b y) := devPut_sound (devPut_sound h)
    exact sound_ite (sound_ite hput (devPut_sound hput)) (addSignal_sound (sound_ite hput (devPut_sound hput)))
  · exact h

/-! ### Machine/Sched -/

@[simp] theorem placeTiles_sound {c part fn} (h : Sound m r s) : Sound m r (placeTiles s c part fn) := by simp [placeTiles, h]

@[simp] theorem placeCell_sound {l i c home hold} (h : Sound m r s) : Sound m r (placeCell s l i c home hold) := by
  unfold placeCell
  extract_lets ρ id t
  have ht : Sound m r t := placeTiles_sound h
  clear_value t
  dsimp only
  refine setLaunch_sound (setFrame_sound (setFrame_sound ?_))
  have hcells {f : State → Nat → Fibre} {g : Nat → Fibre → Cell → Cell} {u : State} {l : List Nat} (hu : Sound m r u) :
      Sound m r (l.foldl (fun s n => s.setCell id (g n (f s n))) u) := foldl_sound (fun v _ => setCell_sound v.2) hu
  refine sound_ite ?_ ?_
  · refine Sound.update (foldl_sound (fun v _ => ?_) (setSplit_sound ht.update))
    exact setCell_sound v.2
  · refine Sound.update (Sound.update (foldl_sound (fun v _ => ?_) (setSplit_sound ht.update)))
    exact setCell_sound v.2

@[simp] theorem placeCohortFrame_sound {l coh home} (h : Sound m r s) : Sound m r (placeCohortFrame s l coh home) := by
  unfold placeCohortFrame
  refine sound_ite h ?_
  dsimp only
  split
  · next e => exact lands_of_eq e (homeWrite_sound h.update)
  · exact h.update

@[simp] theorem dispatchAt_sound {l die places} (h : Sound m r s) : Sound m r (dispatchAt s l die places) := by
  refine foldl_sound (fun t _ => ?_) (setLaunch_sound (sound_ite (placeCohortFrame_sound h) h))
  exact placeCell_sound t.2

@[simp] theorem dispatch_sound {launch die grid} (h : Sound m r s) : Yields (Sound m r) (dispatch launch die grid s) := by
  dsimp only [dispatch]
  (repeat' split) <;> simp [h]

@[simp] theorem execCellDispatch_sound {launch die} (h : Sound m r s) : Yields (Sound m r) (execCellDispatch launch die s) :=
  dispatch_sound h

@[simp] theorem execPlateDispatch_sound {launch die} (h : Sound m r s) : Yields (Sound m r) (execPlateDispatch launch die s) :=
  dispatch_sound h

@[simp] theorem execFairtExpiry_sound {launch cell} (h : Sound m r s) : Yields (Sound m r) (execFairtExpiry launch cell s) := by
  dsimp only [execFairtExpiry]
  (repeat' split) <;> simp [h]

@[simp] theorem execClusterSplitSwitch_sound {cluster} (h : Sound m r s) : Yields (Sound m r) (execClusterSplitSwitch cluster s) := by
  dsimp only [execClusterSplitSwitch]
  (repeat' split) <;> simp [h]

/-! ### Machine/Packets -/

@[simp] theorem setPoint_sound {i p} (h : Sound m r s) : Sound m r (s.setPoint i p) := setIsland_sound h
@[simp] theorem hintIsland_sound {p i} (h : Sound m r s) : Sound m r (hintIsland p s i) := setIsland_sound h
@[simp] theorem releaseDvfs_sound (h : Sound m r s) : Sound m r (releaseDvfs s) := h.update

@[simp] theorem execDvfsSettled_sound {island} (h : Sound m r s) : Yields (Sound m r) (execDvfsSettled island s) :=
  yields_ite (releaseDvfs_sound (setIsland_sound (setPoint_sound h))) h

@[simp] theorem setPacket_sound {p f} (h : Sound m r s) : Sound m r (s.setPacket p f) := h.update
@[simp] theorem packetDone_sound {p status} (h : Sound m r s) : Sound m r (s.packetDone p status) := h.update

@[simp] theorem execPacketRead_sound {q} (h : Sound m r s) : Yields (Sound m r) (execPacketRead q s) := by
  unfold execPacketRead
  split
  · exact h
  · refine yields_ite h ?_
    split
    · exact h
    · exact yields_ite h (setQueue_sound (devPut_sound (touchHomes_sound h))).update

@[simp] theorem execPacketBarRelease_sound {p} (h : Sound m r s) : Yields (Sound m r) (execPacketBarRelease p s) := by
  dsimp only [execPacketBarRelease]
  (repeat' split) <;> simp [h]

@[simp] theorem joinPlateFrame_sound {l} (h : Sound m r s) : Sound m r (joinPlateFrame s l) := h.update

@[simp] theorem leavePlateFrame_sound {l} (h : Sound m r s) : Sound m r (leavePlateFrame s l) := by
  unfold leavePlateFrame
  split <;> simp [h]

@[simp] theorem claim_sound {part fn} (h : Sound m r s) : Sound m r (claim s part fn) := by
  unfold claim
  split
  · exact sound_ite h (setPart_sound (fun p => p.2) (setFn_sound h))
  · exact h

@[simp] theorem launchNow_sound {p l} (h : Sound m r s) : Sound m r (launchNow s p l) := by
  unfold launchNow
  extract_lets point is hinted t l' u v
  have ht : Sound m r t := by
    refine sound_ite (releaseDvfs_sound (foldl_sound (fun v _ => ?_) h)) h
    exact hintIsland_sound v.2
  have hu : Sound m r u := ht.update
  exact sound_ite (packetDone_sound ht) (claim_sound (setPacket_sound (sound_ite hu (joinPlateFrame_sound hu))))

@[simp] theorem launchPacket_sound {p plate} (h : Sound m r s) : Yields (Sound m r) (launchPacket p plate s) := by
  unfold launchPacket
  split
  · exact h
  · split
    · exact h
    · exact packetDone_sound h
    · refine launchNow_sound (Sound.update (foldl_sound (fun t _ => ?_) h))
      exact touchHomes_sound t.2

@[simp] theorem execGridPacket_sound {p} (h : Sound m r s) : Yields (Sound m r) (execGridPacket p s) := launchPacket_sound h
@[simp] theorem execPlatePacket_sound {p} (h : Sound m r s) : Yields (Sound m r) (execPlatePacket p s) := launchPacket_sound h

@[simp] theorem execBarrierPacket_sound {p} (h : Sound m r s) : Yields (Sound m r) (execBarrierPacket p s) := by
  unfold execBarrierPacket
  split <;> simp [h]

@[simp] theorem execBarrierSignalRead_sound {p k} (h : Sound m r s) : Yields (Sound m r) (execBarrierSignalRead p k s) := by
  dsimp only [execBarrierSignalRead]
  (repeat' split) <;> simp [h]

@[simp] theorem execPacketNop_sound {p} (h : Sound m r s) : Yields (Sound m r) (execPacketNop p s) := by
  unfold execPacketNop
  split <;> simp [h]

@[simp] theorem removePlate_sound {l} (h : Sound m r s) : Sound m r (removePlate s l) := leavePlateFrame_sound (Sound.update h)

@[simp] theorem execUnplatePacket_sound {p} (h : Sound m r s) : Yields (Sound m r) (execUnplatePacket p s) := by
  dsimp only [execUnplatePacket]
  (repeat' split) <;> simp [h]

@[simp] theorem raiseSignal_sound {q a st} (h : Sound m r s) : Sound m r (raiseSignal s q a st).1 := by
  refine sound_fst_ite h (sound_fst_ite h (sound_fst_ite (addSignal_sound h) ?_))
  split
  · next e => exact lands_of_eq e (homeWrite_sound (touchHomes_sound h))
  · exact h

@[simp] theorem putQueueState_sound {q v} (h : Sound m r s) : Sound m r (putQueueState s q v) := by
  unfold putQueueState
  split <;> simp [h]

@[simp] theorem execPacketComplete_sound {p} (h : Sound m r s) : Yields (Sound m r) (execPacketComplete p s) := by
  unfold execPacketComplete
  split
  · exact h
  next x _ =>
    have hplate : Sound m r (match x.stage, s.launch? x.launch with | .launched, some l => removePlate s l | _, _ => s) := by
      split
      · exact removePlate_sound h
      · exact h
    dsimp only
    split
    · refine yields_ite h (afterAll_sound (Sound.update ?_))
      have hsignal {p : Prop} [Decidable p] {asid : Nat} {q : QueueReg} {a st : Nat} : Sound m r
          (raiseSignal (if p then writeBackAll (match x.stage, s.launch? x.launch with | .launched, some l => removePlate s l | _, _ => s) asid
            else match x.stage, s.launch? x.launch with | .launched, some l => removePlate s l | _, _ => s) q a st).1 :=
        raiseSignal_sound (sound_ite (writeBackAll_sound hplate) hplate)
      exact sound_ite (putQueueState_sound (sound_ite hsignal (devPut_sound hsignal))) (sound_ite hsignal (devPut_sound hsignal))
    · exact h

@[simp] theorem execDoorbellWrite_sound {part fn off width val} (h : Sound m r s) :
    Yields (Sound m r) (execDoorbellWrite part fn off width val s) := by
  dsimp only [execDoorbellWrite]
  (repeat' split) <;> simp [h]

@[simp] theorem queueCommand_sound {cmd part run} (hrun : ∀ (t : {s // Sound m r s}) p, (run t.1 p).Leaves (Sound m r)) (h : Sound m r s) :
    Yields (Sound m r) (queueCommand cmd part run s) := by
  unfold queueCommand
  split
  · exact h
  next p _ =>
    refine yields_ite h ?_
    have hend := hrun ⟨s, h⟩ p
    split
    · exact h
    · exact setPart_sound (fun p => p.2) h
    · next e =>
      rw [e] at hend
      exact setPart_sound (fun p => p.2) hend

theorem register_sound {chain : Bool} {p : Partition} (h : Sound m r s) : (register chain s p).Leaves (Sound m r) := by
  unfold register
  refine cmd_leaves_ite trivial (cmd_leaves_ite trivial ?_)
  split
  · refine cmd_leaves_ite trivial ?_
    have hput {q : QueueReg} {a : Nat} {bs : List Byte} :
        Lands (Sound m r) (if chain = true then .ok s else homeWrite s q.who none a bs) := lands_ite h (homeWrite_sound h)
    split
    · trivial
    · next e => exact setPart_sound (fun p => p.2) (lands_of_eq e hput).update
  · trivial

@[simp] theorem execQueueRegister_sound {part} (h : Sound m r s) : Yields (Sound m r) (execQueueRegister part s) :=
  queueCommand_sound (fun t _ => register_sound t.2) h

@[simp] theorem execChainRegister_sound {part} (h : Sound m r s) : Yields (Sound m r) (execChainRegister part s) :=
  queueCommand_sound (fun t _ => register_sound t.2) h

@[simp] theorem execQueueUnregister_sound {part} (h : Sound m r s) : Yields (Sound m r) (execQueueUnregister part s) := by
  refine queueCommand_sound (fun t p => ?_) h
  split
  · trivial
  · exact cmd_leaves_ite trivial (putQueueState_sound t.2).update

@[simp] theorem execChainUnregister_sound {part} (h : Sound m r s) : Yields (Sound m r) (execChainUnregister part s) := by
  refine queueCommand_sound (fun t p => ?_) h
  split
  · trivial
  · exact cmd_leaves_ite trivial t.2.update

@[simp] theorem execQueueClearAbort_sound {part} (h : Sound m r s) : Yields (Sound m r) (execQueueClearAbort part s) := by
  refine queueCommand_sound (fun t p => ?_) h
  split
  · trivial
  · refine cmd_leaves_ite trivial ?_
    split
    · exact sound_ite (putQueueState_sound t.2) t.2
    · exact t.2

@[simp] theorem execQueueCmdComplete_sound {part} (h : Sound m r s) : Yields (Sound m r) (execQueueCmdComplete part s) := by
  unfold execQueueCmdComplete
  split
  · exact h
  · exact yields_ite (setPart_sound (fun p => p.2) h.update) h

/-! ### Machine/Regs -/

@[simp] theorem haltCells_sound {part fn} (h : Sound m r s) : Sound m r (haltCells s part fn) := h.update

@[simp] theorem scrubMem_sound {part fn} (h : Sound m r s) : Sound m r (scrubMem s part fn) := by
  unfold scrubMem
  split <;> simp [h]

@[simp] theorem scrubUnits_sound {part fn} (h : Sound m r s) : Sound m r (scrubUnits s part fn) := h.update

@[simp] theorem startReset_sound {part fn} (h : Sound m r s) : Sound m r (startReset s part fn) := by
  unfold startReset
  split
  · exact h
  · exact sound_ite h (foldl_sound (fun t _ => putQueueState_sound t.2) (haltCells_sound (scrubUnits_sound (scrubMem_sound (setFn_sound h)))).update)

@[simp] theorem execVfReset_sound {part fn} (h : Sound m r s) : Yields (Sound m r) (execVfReset part fn s) := by simp [execVfReset, h]

@[simp] theorem execPcieFunctionLevelReset_sound {part fn} (h : Sound m r s) :
    Yields (Sound m r) (execPcieFunctionLevelReset part fn s) := by
  simp [execPcieFunctionLevelReset, h]

@[simp] theorem execFunctionResetComplete_sound {part fn} (h : Sound m r s) :
    Yields (Sound m r) (execFunctionResetComplete part fn s) := by
  dsimp only [execFunctionResetComplete]
  (repeat' split) <;> simp [h]

@[simp] theorem putQuantum_sound {p v} (h : Sound m r s) : Sound m r (putQuantum s p v) := h.update

@[simp] theorem moveRing_sound {b n v} (h : Sound m r s) : Sound m r (moveRing s b n v).1 := by
  dsimp only [moveRing]
  (repeat' split) <;> simp [h]

@[simp] theorem setPhotErr_sound {w} (h : Sound m r s) : Sound m r (setPhotErr s w) := by
  cases w with
  | fibre c f => exact setFibre_sound h
  | host p _ => exact setPart_sound (fun p => p.2) h

@[simp] theorem putPhotSel_sound {w v} (h : Sound m r s) : Sound m r (putPhotSel s w v) := by
  cases w with
  | fibre c f => exact setFibre_sound h
  | host p _ => exact setPart_sound (fun p => p.2) h

theorem bits_lt (v hi lo : Nat) : bits v hi lo < 2 ^ (hi + 1 - lo) := Nat.mod_lt _ (Nat.two_pow_pos _)

theorem and_vec_legal (x : DWord) : (x &&& 0x01FFFFFFFFFFFFFC).toNat % 4 = 0 ∧ (x &&& 0x01FFFFFFFFFFFFFC).toNat < 2 ^ 57 := by
  rw [BitVec.toNat_and]
  exact ⟨(Nat.and_mod_two_pow (n := 2)).trans (Nat.and_zero _), lt_of_le_of_lt Nat.and_le_right (by decide)⟩

theorem and_base_legal (x : DWord) : (x &&& 0x0000FFFFFFE00000).toNat % 2 ^ 21 = 0 ∧ (x &&& 0x0000FFFFFFE00000).toNat < 2 ^ 48 := by
  rw [BitVec.toNat_and]
  exact ⟨Nat.and_mod_two_pow.trans (Nat.and_zero _), lt_of_le_of_lt Nat.and_le_right (by decide)⟩

theorem and_save_legal (v : Word) : v &&& 0xFF07FFFF &&& 0x00F80000 = 0 := by
  rw [BitVec.and_assoc]
  exact BitVec.and_zero

section

open Rules

variable {p : Partition} (h : Legal p)
include h

theorem legal_withPinto {n : Nat} (hn : n < 2 ^ 20) : Legal { p with pinto := n } := ⟨hn, h.2⟩

theorem legal_withDrto {n : Nat} : Legal { p with drto := if bits n 15 0 = 0 then p.drto else bits n 15 0 } := by
  obtain ⟨hpinto, hlow, hhigh, hrest⟩ := h
  refine ⟨hpinto, ?_, ?_, hrest⟩ <;> dsimp only <;> split
  · exact hlow
  · omega
  · exact hhigh
  · exact bits_lt _ 15 0

theorem legal_withCw {n : Nat} (hn : n < 2 ^ 8) : Legal { p with cw := n } := by
  obtain ⟨hpinto, hlow, hhigh, -, hrest⟩ := h
  exact ⟨hpinto, hlow, hhigh, hn, hrest⟩

theorem legal_withVfSel {n : Nat} (hn : n < 64) : Legal { p with vfSel := n } := by
  obtain ⟨hpinto, hlow, hhigh, hcw, -, hrest⟩ := h
  exact ⟨hpinto, hlow, hhigh, hcw, hn, hrest⟩

theorem legal_withCollGroup {n c f : Nat} {b : Bool} (hn : n < 2 ^ 12) :
    Legal { p with collGroup := n, collCmd := c, collFn := f, collBusy := b } := by
  obtain ⟨hpinto, hlow, hhigh, hcw, hvf, -, hrest⟩ := h
  exact ⟨hpinto, hlow, hhigh, hcw, hvf, hn, hrest⟩

theorem legal_withTrapSave {v : Word} : Legal { p with trapSave := v &&& 0xFF07FFFF } := by
  obtain ⟨hpinto, hlow, hhigh, hcw, hvf, hgroup, -, hrest⟩ := h
  exact ⟨hpinto, hlow, hhigh, hcw, hvf, hgroup, and_save_legal v, hrest⟩

theorem legal_withTrapVec {v : DWord} : Legal { p with trapVec := v &&& 0x01FFFFFFFFFFFFFC } := by
  obtain ⟨hpinto, hlow, hhigh, hcw, hvf, hgroup, hsave, -, -, hrest⟩ := h
  exact ⟨hpinto, hlow, hhigh, hcw, hvf, hgroup, hsave, (and_vec_legal v).1, (and_vec_legal v).2, hrest⟩

theorem legal_withCtxBase {v : DWord} : Legal { p with ctxBase := v &&& 0x0000FFFFFFE00000 } := by
  obtain ⟨hpinto, hlow, hhigh, hcw, hvf, hgroup, hsave, hmul, hvec, -, -⟩ := h
  exact ⟨hpinto, hlow, hhigh, hcw, hvf, hgroup, hsave, hmul, hvec, (and_base_legal v).1, (and_base_legal v).2⟩

end

theorem leaves_ite {P : State → Prop} {c : Prop} [Decidable c] {x y : Wrote} (hx : x.Leaves P) (hy : y.Leaves P) :
    (if c then x else y).Leaves P := by split <;> assumption

/-- A write of a register keeps the bits that its field admits (R349). -/
@[simp] theorem writeReg_sound {w n x} (h : Sound m r s) : (writeReg s w n x).Leaves (Sound m r) := by
  have hsame : (Wrote.done s).Leaves (Sound m r) := h
  have hpart {g : Partition → Partition} (hg : ∀ p : {p // Rules.Legal p}, Rules.Legal (g p.1)) :
      (Wrote.done (s.setPart w.part g)).Leaves (Sound m r) := setPart_sound hg h
  have hfn {n : Nat} {g : Fn → Fn} : (Wrote.done (s.setFn w.part n g)).Leaves (Sound m r) := setFn_sound h
  have harith {v : Word} : (match w with
      | .fibre c _ => Wrote.done (s.setCell c.id fun c => { c with arith := v })
      | .host _ _ => .done s).Leaves (Sound m r) := by
    cases w with
    | fibre c f => exact setCell_sound h
    | host p _ => exact h
  have hmx {v : Word} : (match w with
      | .fibre c f => Wrote.done ((s.setMx (quadOf c.cluster f.idx) v).setMxBy (quadOf c.cluster f.idx) c.part c.fn)
      | .host _ _ => .done s).Leaves (Sound m r) := by
    cases w with
    | fibre c f => exact setMxBy_sound (setMx_sound h)
    | host p _ => exact h
  unfold writeReg
  dsimp only
  split
  · exact harith
  · exact harith
  · exact hmx
  · exact hmx
  · exact leaves_ite hfn hsame
  · exact hfn
  · exact hfn
  · exact leaves_ite trivial hfn
  · exact hfn
  · exact leaves_ite trivial hfn
  · exact hpart fun p => p.2
  · exact hpart fun p => p.2
  · exact hpart fun p => p.2
  · exact hpart fun p => p.2
  · exact hpart fun p => p.2
  · exact freePins_sound (endPins_sound (setPart_sound (fun p => legal_withPinto p.2 (bits_lt _ 19 0)) h))
  · exact hpart fun p => legal_withDrto p.2
  · exact hpart fun p => legal_withCw p.2 (bits_lt _ 7 0)
  · exact hpart fun p => p.2
  · exact leaves_ite trivial (hpart fun p => p.2)
  · exact leaves_ite (hpart fun p => legal_withTrapVec p.2) hsame
  · exact hpart fun p => legal_withTrapSave p.2
  · exact hpart fun p => p.2
  · exact hpart fun p => legal_withVfSel p.2 (bits_lt _ 5 0)
  · exact hfn
  · exact setFn_sound h
  · refine leaves_ite hsame ?_
    have hreset {fn : Nat} : Sound m r (startReset s w.part fn) := startReset_sound h
    split
    · exact leaves_ite hreset hreset
    · exact hreset
  · exact leaves_ite (hpart fun p => legal_withCtxBase p.2) hsame
  · exact hpart fun p => p.2
  · exact leaves_ite trivial (hpart fun p => legal_withCollGroup p.2 (bits_lt _ 27 16))
  · exact putPhotSel_sound h
  · refine leaves_ite (hpart fun p => p.2) (leaves_ite h.update (leaves_ite ?_ hsame))
    exact sound_ite (moveRing_sound h) (setPhotErr_sound (moveRing_sound h))

@[simp] theorem clearRc_sound {c idx n} (h : Sound m r s) : Sound m r (clearRc s c idx n) := by
  unfold clearRc
  split <;> simp [h]

@[simp] theorem denied_sound {g} (h : Sound m r s) : Sound m r (denied s g) := raiseLanes_sound h

@[simp] theorem execMfs_sound {d n} (h : Sound m r s) : Yields (Sound m r) (execMfs d n s) :=
  unit_sound (fun t _ => gives_ite (denied_sound t.2) (gives_map (fun _ hu => by
    split
    · exact hu
    · exact clearRc_sound hu) (laneBody_sound t.2))) h

@[simp] theorem mtsLanes_sound {n g u l} (h : Sound m r s) : Sound m r (mtsLanes n g u s l).1 := by
  induction l generalizing s with
  | nil => exact h
  | cons x l ih =>
    obtain ⟨f, vs⟩ := x
    unfold mtsLanes
    split
    · exact h
    · have hw {w : Port} {x : DWord} : (writeReg s w n x).Leaves (Sound m r) := writeReg_sound h
      dsimp only
      split
      · next e => exact leaves_halted e hw
      · next e => exact ih (setFibre_sound (leaves_done e hw))
      · exact foldl_sound (fun t _ => setFibre_sound t.2) h

@[simp] theorem mtsBody_sound {a n g} (h : Sound m r s) : Gives (Sound m r) (mtsBody a n s g) := by
  unfold mtsBody
  extract_lets todo
  refine withLanes_sound (fun t _ vals => ?_) h
  have hl : Sound m r (mtsLanes n g s t.1 vals).1 := mtsLanes_sound t.2
  exact gives_ite hl (gives_ite (mapFibres_sound hl) (gives_ite trivial (mapFibres_sound hl)))

@[simp] theorem execMts_sound {a n} (h : Sound m r s) : Yields (Sound m r) (execMts a n s) :=
  unit_sound (fun t _ => gives_ite (denied_sound t.2) (mtsBody_sound t.2)) h

@[simp] theorem execArithStatusRc_sound {cell} (h : Sound m r s) : Yields (Sound m r) (execArithStatusRc cell s) := h.update
@[simp] theorem execMxStatusRc_sound {quadrant} (h : Sound m r s) : Yields (Sound m r) (execMxStatusRc quadrant s) := h.update

@[simp] theorem hostWrite_sound {part fn n v} (h : Sound m r s) : Yields (Sound m r) (hostWrite part fn n v s) := by
  unfold hostWrite
  split
  · next e => exact afterAll_sound (leaves_done e (writeReg_sound h))
  · next e => exact afterAll_sound (leaves_halted e (writeReg_sound h))
  · exact h

@[simp] theorem execOrdPintoWrite_sound {part v} (h : Sound m r s) : Yields (Sound m r) (execOrdPintoWrite part v s) := hostWrite_sound h

@[simp] theorem execVfQuantumWrite_sound {part v} (h : Sound m r s) : Yields (Sound m r) (execVfQuantumWrite part v s) :=
  hostWrite_sound h

@[simp] theorem execPhotHeatWrite_sound {part n v} (h : Sound m r s) : Yields (Sound m r) (execPhotHeatWrite part n v s) := by
  unfold execPhotHeatWrite
  split <;> simp [h]

@[simp] theorem execPhotMapWrite_sound {part n v} (h : Sound m r s) : Yields (Sound m r) (execPhotMapWrite part n v s) := by
  unfold execPhotMapWrite
  split <;> simp [h]

@[simp] theorem execPhotMpdSample_sound {bank n} (h : Sound m r s) : Yields (Sound m r) (execPhotMpdSample bank n s) := by
  unfold execPhotMpdSample
  split <;> simp [h]

@[simp] theorem execSysregWrite_sound {part off v} (h : Sound m r s) : Yields (Sound m r) (execSysregWrite part off v s) := by
  unfold execSysregWrite
  split <;> simp [h]

@[simp] theorem purge_sound {part fn f} (h : Sound m r s) : Sound m r (purge s part fn f) := by simp [purge, h]

@[simp] theorem execMemShoot_sound {part fn} (h : Sound m r s) : Yields (Sound m r) (execMemShoot part fn s) := by
  dsimp only [execMemShoot]
  (repeat' split) <;> simp [h]

@[simp] theorem execShootComplete_sound {part fn} (h : Sound m r s) : Yields (Sound m r) (execShootComplete part fn s) := by
  dsimp only [execShootComplete]
  (repeat' split) <;> simp [h]

@[simp] theorem execFrameRelease_sound {part fn} (h : Sound m r s) : Yields (Sound m r) (execFrameRelease part fn s) := by
  unfold execFrameRelease
  split
  · exact h
  next f _ =>
    refine yields_ite h (setFn_sound ?_)
    have hback {p : Line → Bool} {q : Prop} [Decidable q] : Sound m r (if q then (s.lines.filter p).foldl writeBack s else s) :=
      sound_ite (foldl_sound (fun t _ => writeBack_sound t.2) h) h
    simp [hback]

@[simp] theorem execFrameReleaseComplete_sound {part fn} (h : Sound m r s) : Yields (Sound m r) (execFrameReleaseComplete part fn s) := by
  dsimp only [execFrameReleaseComplete]
  (repeat' split) <;> simp [h]

@[simp] theorem execCollLoad_sound {part} (h : Sound m r s) : Yields (Sound m r) (execCollLoad part s) := by
  unfold execCollLoad
  split
  · exact h
  · refine yields_ite h (setPart_sound (fun p => ?_) h)
    split <;> exact p.2

@[simp] theorem execCollClear_sound {part} (h : Sound m r s) : Yields (Sound m r) (execCollClear part s) := by
  unfold execCollClear
  split
  · exact h
  · exact yields_ite h (setPart_sound (fun p => p.2) h)

@[simp] theorem execHotThreshold_sound {port page src part fn} (h : Sound m r s) :
    Yields (Sound m r) (execHotThreshold port page src part fn s) := by
  unfold execHotThreshold
  split
  · exact h
  · have hcleared {k : Nat} : Sound m r { s with hot := sput 0 s.hot k 0 } := h.update
    refine yields_ite h (yields_ite (setPart_sound (fun p => p.2) hcleared) (yields_ite h ?_))
    split
    · next e => exact setPart_sound (fun p => p.2) (lands_of_eq e (homeWrite_sound hcleared))
    · exact setPart_sound (fun p => p.2) hcleared

/-! ### Machine/Power -/

@[simp] theorem admitFns_sound {part} (h : Sound m r s) : Sound m r (admitFns s part) := by
  unfold admitFns
  split <;> simp [h]

@[simp] theorem beginSlice_sound {part h'} (h : Sound m r s) : Sound m r (beginSlice s part h') := by
  unfold beginSlice
  split
  · exact setPart_sound (fun p => p.2) h
  · exact h

@[simp] theorem execSliceExpiry_sound {part} (h : Sound m r s) : Yields (Sound m r) (execSliceExpiry part s) := by
  have hadmit : Sound m r (admitFns s part) := admitFns_sound h
  unfold execSliceExpiry
  dsimp only
  split
  · exact hadmit
  · split
    · exact hadmit
    · refine yields_ite hadmit ?_
      split
      · exact yields_ite (beginSlice_sound hadmit) (endPins_sound (setPart_sound (fun p => p.2) hadmit))
      · exact sound_ite (setPart_sound (fun p => p.2) hadmit) hadmit

@[simp] theorem haltContext_sound {part fn} (h : Sound m r s) : Sound m r (haltContext s part fn) := by
  refine Sound.update (foldl_sound (fun t _ => ?_) h)
  refine foldl_sound (fun u _ => ?_) t.2
  exact abortTx_sound u.2

@[simp] theorem clearUnits_sound {part fn} (h : Sound m r s) : Sound m r (clearUnits s part fn) := h.update

@[simp] theorem saveContext_sound {p fn} (h : Sound m r s) : Sound m r (saveContext s p fn) := by
  dsimp only [saveContext]
  (repeat' split) <;> simp [h]

@[simp] theorem retest_sound {c} (h : Sound m r s) : Sound m r (retest s c) := by
  refine foldl_sound (fun t f => ?_) h
  split
  · exact chanSettle_sound t.2
  · exact chanSettle_sound t.2
  · exact t.2

@[simp] theorem replayOwed_sound {mine} (h : Sound m r s) : Sound m r (replayOwed s mine) := h.update

@[simp] theorem restoreContext_sound {part fn} (h : Sound m r s) : Sound m r (restoreContext s part fn) := by
  unfold restoreContext
  split
  · exact h
  next x _ =>
    extract_lets t mine back u
    have ht : Sound m r t := by
      refine foldl_sound (fun v _ => ?_) h
      refine invalRecord_sound (foldl_sound (fun w _ => ?_) (putMem_sound v.2))
      exact dropBlocks_sound w.2
    have hu : Sound m r u := replayOwed_sound ht.update
    refine foldl_sound (fun v _ => ?_) hu
    exact retest_sound (setSplit_sound v.2)

theorem core_foldl {mem : List Host.Cell} {ps : List Partition} {is : List Island} {l : List Nat}
    {op : List Host.Cell → Nat → List Host.Cell}
    (hop : ∀ mem x, Core m r mem ps is → Core m r (op mem x) ps is) (h : Core m r mem ps is) : Core m r (l.foldl op mem) ps is := by
  induction l generalizing mem with
  | nil => exact h
  | cons x l ih => exact ih (hop mem x h)

@[simp] theorem writeOut_sound {p x} (h : Sound m r s) : Sound m r (writeOut s p x) := by
  simp only [writeOut, sound_mk]
  refine core_foldl (fun mem c hmem => ?_) (core_iff.2 h)
  split
  · exact core_putBytes hmem
  · exact hmem

@[simp] theorem stageFor_sound {p} (h : Sound m r s) : Sound m r (stageFor s p) := by
  unfold stageFor
  split <;> simp [h]

@[simp] theorem execContextSwap_sound {part} (h : Sound m r s) : Yields (Sound m r) (execContextSwap part s) := by
  have hadmit : Sound m r (admitFns s part) := admitFns_sound h
  unfold execContextSwap
  dsimp only
  split
  · exact hadmit
  next p _ =>
    split
    · refine yields_ite hadmit ?_
      split
      · exact setPart_sound (fun p => p.2) hadmit
      · exact yields_ite (afterAll_sound (beginSlice_sound hadmit))
          (afterAll_sound (beginSlice_sound (restoreContext_sound (saveContext_sound (sound_ite hadmit (stageFor_sound hadmit))))))
    · split
      · exact hadmit
      · exact afterAll_sound (beginSlice_sound (restoreContext_sound hadmit))

@[simp] theorem execContextStaging_sound {part} (h : Sound m r s) : Yields (Sound m r) (execContextStaging part s) := by
  unfold execContextStaging
  split
  · exact h
  · exact yields_ite h (setPart_sound (fun p => p.2) (stageFor_sound h))

@[simp] theorem failCommands_sound {cells} (h : Sound m r s) : Sound m r (failCommands s cells) := h.update

@[simp] theorem failCell_sound {c} (h : Sound m r s) : Sound m r (failCell s c) := by
  unfold failCell
  extract_lets kind restart mine leads t u v
  have ht : Sound m r t := h.update
  have hv : Sound m r v := by
    refine foldl_sound (fun w _ => ?_) (sound_ite (setLaunch_sound ht) ht)
    exact finishQuit_sound w.2
  exact sound_ite (sound_ite (setLaunch_sound hv) hv.update) hv

@[simp] theorem moveToSpare_sound {b v} (h : Sound m r s) : Sound m r (moveToSpare s b v) := by
  unfold moveToSpare
  split <;> simp [h]

@[simp] theorem execPartFailure_sound {p} (h : Sound m r s) : Yields (Sound m r) (execPartFailure p s) := by
  refine yields_ite h ?_
  split
  · refine afterAll_sound (Sound.update (failCommands_sound (foldl_sound (fun t _ => ?_) h)))
    exact failCell_sound t.2
  · exact h.update
  · exact (moveToSpare_sound h).update
  · exact h.update

@[simp] theorem execPoolDeviceLost_sound {port} (h : Sound m r s) : Yields (Sound m r) (execPoolDeviceLost port s) := by
  simp [execPoolDeviceLost, h]

@[simp] theorem setIslandMode_sound {island m'} (h : Sound m r s) : Sound m r (setIslandMode s island m') := by
  have hset {f : Island → Island} : Sound m r (s.setIsland island f) := setIsland_sound h
  exact sound_ite (sound_mk.2 (core_filter (core_iff.2 hset))) hset

@[simp] theorem execIslandStateChange_sound {island m'} (h : Sound m r s) : Yields (Sound m r) (execIslandStateChange island m' s) := by
  dsimp only [execIslandStateChange]
  (repeat' split) <;> simp [h]

@[simp] theorem downTo_sound {i heat p} (h : Sound m r s) : Sound m r (downTo s i heat p) := by
  dsimp only [downTo]
  (repeat' split) <;> simp [h]

@[simp] theorem stepDown_sound {i heat} (h : Sound m r s) : Sound m r (stepDown s i heat) := downTo_sound h

@[simp] theorem stepUp_sound {i heat} (h : Sound m r s) : Sound m r (stepUp s i heat) := by
  dsimp only [stepUp]
  (repeat' split) <;> simp [h]

@[simp] theorem execCurrentThrottle_sound (h : Sound m r s) : Yields (Sound m r) (execCurrentThrottle s) := by
  refine releaseDvfs_sound (foldl_sound (fun t _ => ?_) h)
  exact stepDown_sound t.2

@[simp] theorem execCurrentStepUp_sound (h : Sound m r s) : Yields (Sound m r) (execCurrentStepUp s) := by
  refine foldl_sound (fun t _ => ?_) h
  exact sound_ite (stepUp_sound t.2) t.2

@[simp] theorem execThermalStepDown_sound {die} (h : Sound m r s) : Yields (Sound m r) (execThermalStepDown die s) := by
  refine yields_ite (releaseDvfs_sound (foldl_sound (fun t _ => ?_) h)) h
  exact sound_ite (stepDown_sound t.2) t.2

@[simp] theorem execThermalStepUp_sound {die} (h : Sound m r s) : Yields (Sound m r) (execThermalStepUp die s) := by
  refine yields_ite (foldl_sound (fun t _ => ?_) h) h
  exact sound_ite (stepUp_sound t.2) t.2

@[simp] theorem execThermalEmergency_sound (h : Sound m r s) : Yields (Sound m r) (execThermalEmergency s) := by
  refine yields_ite (releaseDvfs_sound (foldl_sound (fun t _ => ?_) h)) h
  exact downTo_sound t.2

@[simp] theorem unpower_sound (h : Sound m r s) : Sound m r (unpower s) := by
  have hreset : Sound m r State.reset := reset_sound
  unfold Sound at *
  exact ⟨fun hm => wf_filter _ (h.1 hm), fun hr => ⟨rfl, (hreset.2 hr).2⟩⟩

@[simp] theorem execThermtrip_sound (h : Sound m r s) : Yields (Sound m r) (execThermtrip s) := by
  unfold execThermtrip
  split <;> simp [h]

@[simp] theorem execPowerDown_sound (h : Sound m r s) : Yields (Sound m r) (execPowerDown s) := by
  unfold execPowerDown
  split <;> simp [h]

@[simp] theorem execPowerUp_sound (h : Sound m r s) : Yields (Sound m r) (execPowerUp s) := by
  refine yields_ite h ?_
  rw [yields_next]
  unfold Sound at h ⊢
  refine ⟨h.1, fun hr => ⟨by simp, fun p hp => ?_⟩⟩
  obtain ⟨q, hq, rfl⟩ := List.mem_map.1 hp
  exact (h.2 hr).2 q hq

@[simp] theorem execPartitionReset_sound {part} (h : Sound m r s) : Yields (Sound m r) (execPartitionReset part s) := by
  unfold execPartitionReset
  split
  · exact h
  · refine foldl_sound (fun t _ => ?_) (setPart_sound (fun p => legal_new _ _ _ _) (Sound.update (foldl_sound (fun t _ => ?_) h)))
    · exact sound_ite (setIslandMode_sound t.2) t.2
    · exact writeBack_sound t.2

@[simp] theorem execAttestationRequest_sound {nonce} (h : Sound m r s) : Yields (Sound m r) (execAttestationRequest nonce s) := by
  unfold execAttestationRequest
  split <;> simp [h]

@[simp] theorem execHostVaultAccess_sound {part off write len} (h : Sound m r s) :
    Yields (Sound m r) (execHostVaultAccess part off write len s) := by
  unfold execHostVaultAccess
  split
  · refine yields_ite h ?_
    split
    · next e => exact afterAll_sound (lands_of_eq e (homeWrite_sound h))
    · exact h
  · exact h

@[simp] theorem execHostLinkTraining_sound {gts width cxlCache} (h : Sound m r s) :
    Yields (Sound m r) (execHostLinkTraining gts width cxlCache s) := by
  unfold execHostLinkTraining
  split <;> simp [h]

@[simp] theorem execHostSnoop_sound {line} (h : Sound m r s) : Yields (Sound m r) (execHostSnoop line s) := by
  refine yields_ite h (Sound.update (foldl_sound (fun t _ => ?_) h))
  exact invalidate_sound (writeBack_sound t.2)

/-! ### Machine/Dispatch -/

@[simp] theorem exec_sound {i} (h : Sound m r s) : Yields (Sound m r) (exec i s) := by
  unfold exec
  split <;> simp [h]

/-! ### Machine/Policy -/

@[simp] theorem settled_sound {o : Out} (h : Yields (Sound m r) o) : Yields (Sound m r) (settled o) := by
  cases o with
  | next t => exact wakeWaits_sound h
  | fault e => trivial
  | refused e => trivial

@[simp] theorem decodeTrap_sound {g e} (h : Sound m r s) : Sound m r (decodeTrap s g e) := by
  dsimp only [decodeTrap]
  (repeat' split) <;> simp [h]

@[simp] theorem fetchStep_sound (h : Sound m r s) : Yields (Sound m r) (fetchStep s) := by
  dsimp only [fetchStep]
  (repeat' split) <;> simp [h]

@[simp] theorem openAt_sound {r'} (h : Sound m r s) : Sound m r (openAt s r') := h.update

@[simp] theorem runUnit_sound {n} (h : Sound m r s) : Sound m r (runUnit n s) := by
  induction n generalizing s with
  | zero => exact h
  | succ n ih =>
    refine sound_ite ?_ h
    split
    · next e => exact ih (yields_of_eq e (fetchStep_sound h))
    · exact h

@[simp] theorem openUnit_sound {quad} (h : Sound m r s) : Sound m r (openUnit s quad) := by
  have hyield {p : Prop} [Decidable p] : Sound m r (if p then releaseYield s quad none true else s) := sound_ite (releaseYield_sound h) h
  unfold openUnit
  dsimp only
  split
  · exact hyield
  · exact toEnd_sound (openAt_sound hyield)

@[simp] theorem setPartitions_sound {l} (h : Sound m r s) : Sound m r (setPartitions s l) := by
  refine sound_ite ?_ h
  unfold Sound at h ⊢
  refine ⟨h.1, fun hr => ⟨(h.2 hr).1, fun p hp => ?_⟩⟩
  obtain ⟨x, -, rfl⟩ := List.mem_map.1 hp
  exact legal_new _ _ _ _

@[simp] theorem ownerWrite_sound {pa bs} (h : Sound m r s) : Sound m r (ownerWrite s pa bs) := by
  have hsnoop {ls : List Nat} : Sound m r (ls.foldl (fun s l => match execHostSnoop l s with | .next t => t | _ => s) s) := by
    refine foldl_sound (fun t l => ?_) h
    split
    · next e => exact yields_of_eq e (execHostSnoop_sound t.2)
    · exact t.2
  refine sound_ite h (sound_ite hsnoop (foldl_sound (fun t _ => ?_) (putMem_sound hsnoop).update))
  refine foldl_sound (fun u _ => ?_) t.2
  exact invalidate_sound u.2

@[simp] theorem fibreError_sound {cell fib detail} (h : Sound m r s) : Sound m r (fibreError s cell fib detail) := by
  dsimp only [fibreError]
  (repeat' split) <;> simp [h]

@[simp] theorem lineError_sound {asid line} (h : Sound m r s) : Sound m r (lineError s asid line) := h.update

@[simp] theorem sramError_sound {x} (h : Sound m r s) : Sound m r (sramError s x) := by
  dsimp only [sramError]
  (repeat' split) <;> simp [h]

@[simp] theorem report_sound {part e} (h : Sound m r s) : Sound m r (report s part e) := setPart_sound (fun p => p.2) h

@[simp] theorem poweredInput_sound {i} (h : Sound m r s) : Yields (Sound m r) (poweredInput s i) := by
  unfold poweredInput
  split
  · exact h
  · exact h
  · exact exec_sound h
  · exact openUnit_sound h
  · exact sound_ite h.update h
  · exact sound_ite (setPart_sound (fun p => p.2) h) h
  · exact sound_ite h.update h
  · exact setPartitions_sound h
  · exact fibreError_sound h
  · exact lineError_sound h
  · exact sramError_sound h
  · exact report_sound h
  · exact report_sound h
  · exact h.update
  · exact ownerWrite_sound h
  · exact h.update

@[simp] theorem applyInput_sound {i} (h : Sound m r s) : Yields (Sound m r) (applyInput s i) := by
  dsimp only [applyInput]
  (repeat' split) <;> simp [h]

@[simp] theorem later_sound (h : Sound m r s) : Sound m r (later s) := h.update

@[simp] theorem onLater_sound {o : Out} (h : Yields (Sound m r) o) : Yields (Sound m r) (onLater o) := by
  cases o with
  | next t => exact Sound.update h
  | fault e => trivial
  | refused e => trivial

@[simp] theorem autoStep_sound (h : Sound m r s) : Yields (Sound m r) (autoStep s) := by
  dsimp only [autoStep]
  (repeat' split) <;> simp [h]

/-! ### Machine/Step -/

@[simp] theorem step_sound (h : Sound m r s) : Yields (Sound m r) (step s) := by
  refine yields_ite (settled_sound (fetchStep_sound h)) ?_
  split
  · exact settled_sound (applyInput_sound h.update)
  · exact yields_ite (settled_sound (autoStep_sound h)) trivial

end

end Sys2Proof.Machine

namespace Sys2Proof.Proofs
open Sys2Proof.Machine

/-- Settles O59: Sound, with memory asked for, holds after every step. -/
theorem stepKeepsMemoryCanonical : Obligations.StepKeepsMemoryCanonical := by
  intro s t hwf hstep
  have h : Sound True False s := by
    unfold Sound
    exact ⟨fun _ => hwf, False.elim⟩
  have ht := yields_of_eq hstep (step_sound h)
  unfold Sound at ht
  exact ht.1 trivial

/-- Settles O60: Sound, with the registers asked for, holds after every step. -/
theorem stepKeepsRegistersLegal : Obligations.StepKeepsRegistersLegal := by
  intro s t hregs hstep
  have h : Sound False True s := by
    unfold Sound
    exact ⟨False.elim, fun _ => hregs⟩
  have ht := yields_of_eq hstep (step_sound h)
  unfold Sound at ht
  exact ht.2 trivial

/-- Settles O58. -/
theorem resetHasInvariants : Obligations.ResetHasInvariants := by
  have h : Sound True True State.reset := reset_sound
  unfold Sound at h
  exact ⟨h.1 trivial, h.2 trivial⟩

end Sys2Proof.Proofs

end

section
/-! SUPPORT. The machine that reset leaves. -/

namespace Sys2Proof.Machine

/-- Each register evaluates to the value stated. -/
theorem resetRegisters : Rules.ResetRegisters := by
  refine ⟨?_, rfl, rfl, rfl, rfl, rfl, rfl, rfl, rfl, rfl, rfl, rfl, rfl, rfl, rfl, rfl, rfl, rfl, ?_⟩
  · decide
  · decide

theorem resetMachine : Rules.ResetMachine := by
  refine ⟨rfl, rfl, rfl, rfl, rfl, rfl, rfl, rfl, ?_, _, rfl, rfl, rfl⟩
  decide

end Sys2Proof.Machine

namespace Sys2Proof.Proofs
open Sys2Proof.Machine

/-- Settles O57: the registers and the machine, each by its own lemma. -/
theorem reset : Obligations.Reset := ⟨resetRegisters, resetMachine⟩

end Sys2Proof.Proofs

end

section
/-! SUPPORT. The windows of an address, the checks on one, and the lanes of the memory words. -/

namespace Sys2Proof.Machine

theorem window_global {a : Nat} (h : a < vaultBase) : window a = some .global := if_pos h

theorem window_vault {v o : Nat} (hv : v < 192) (ho : o < vaultSize) : window (vaultBase + v * vaultSize + o) = some (.vault v) := by
  have hdiv : (vaultBase + v * vaultSize + o - vaultBase) / vaultSize = v := by
    simp only [vaultBase, vaultSize] at *
    omega
  unfold window
  rw [if_neg (by omega), if_pos (by simp only [vaultSize] at *; omega), hdiv]

theorem window_scratch {o : Nat} (ho : o < 0xA0000) : window (scratchBase + o) = some (.scratch o) := by
  have h1 : ¬ scratchBase + o < vaultBase := by simp only [scratchBase, vaultBase]; omega
  have h2 : ¬ scratchBase + o < vaultBase + 192 * vaultSize := by simp only [scratchBase, vaultBase, vaultSize]; omega
  unfold window
  rw [if_neg h1, if_neg h2, if_pos (by omega), Nat.add_sub_cancel_left]

/-- Between the vaults and the scratch, and past the scratch, nothing is assigned (R154). -/
theorem window_unassigned {a : Nat} (hv : vaultBase + 192 * vaultSize ≤ a) (hs : a < scratchBase ∨ scratchBase + 0xA0000 ≤ a) :
    window a = none := by
  unfold window
  rw [if_neg (by omega), if_neg (by omega), if_neg (by omega)]

section
variable {s : State} {c : Cell} {a w detail : Nat} {noScratch : Bool}

theorem checkAddr_none (h : window a = none) :
    checkAddr s c a w detail noScratch = some { cause := .illegalAddress, detail := detail, faddr := a } := by simp [checkAddr, h]

theorem checkAddr_misaligned (h : window a ≠ none) (hw : a % w ≠ 0) :
    checkAddr s c a w detail noScratch = some { cause := .misaligned, detail := detail, faddr := a } := by
  obtain ⟨x, hx⟩ := Option.ne_none_iff_exists'.1 h
  simp [checkAddr, hx, hw]

theorem checkAddr_global (h : window a = some .global) (hw : a % w = 0) : checkAddr s c a w detail noScratch = none := by
  simp [checkAddr, h, hw]

theorem checkAddr_vault {v : Nat} (h : window a = some (.vault v)) (hw : a % w = 0) : checkAddr s c a w detail noScratch =
    if s.hasVault c.part v then none else some { cause := .protectionFault, detail := detail, faddr := a } := by
  simp [checkAddr, h, hw]

theorem checkAddr_scratch {o : Nat} (h : window a = some (.scratch o)) (hw : a % w = 0) : checkAddr s c a w detail noScratch =
    if noScratch = true ∨ c.scratchSize < o + w then some { cause := .illegalAddress, detail := detail, faddr := a } else none := by
  simp [checkAddr, h, hw]

end

theorem addressChecks : Rules.AddressChecks := by
  refine fun s c a w detail noScratch =>
    ⟨fun h => ?_, fun hv hs => ?_, fun h => ?_, fun hwin hw => checkAddr_misaligned hwin hw, ?_, ?_, ?_⟩
  · refine checkAddr_none (window_unassigned ?_ (.inr ?_)) <;> simp only [vaultBase, vaultSize, scratchBase] <;> omega
  · exact checkAddr_none (window_unassigned hv (.inl hs))
  · refine checkAddr_none (window_unassigned ?_ (.inr h))
    simp only [vaultBase, vaultSize, scratchBase] at h ⊢
    omega
  · rintro v hv o ho rfl hw
    rw [checkAddr_vault (window_vault hv ho) hw]
    split
    · rfl
    · rfl
  · rintro o ho rfl hw
    rw [checkAddr_scratch (window_scratch ho) hw]
    split
    · rfl
    · rfl
  · exact fun h hw => checkAddr_global (window_global h) hw

/-- The offset of a word with HINT.IMM, HIGH above the literal, as an integer (R337). -/
theorem toInt_high_append (h : BitVec 22) (imm : BitVec 8) : (h ++ imm).toInt = imm.toNat + 256 * h.toInt := by
  have hmul : h.toNat <<< 8 = h.toNat * 256 := Nat.shiftLeft_eq _ _
  have hnat : (h ++ imm).toNat = h.toNat * 256 + imm.toNat := by
    rw [BitVec.toNat_append, ← Nat.shiftLeft_add_eq_or_of_lt imm.isLt, hmul]
  have hh := h.isLt
  have hi := imm.isLt
  rw [BitVec.toInt_eq_toNat_cond, BitVec.toInt_eq_toNat_cond, hnat]
  split <;> split <;> omega

theorem toNat_address (base off : DWord) (x : Int) (w k : Nat) (hoff : off.toInt = x) :
    (((base + off * BitVec.ofNat 64 w + BitVec.ofNat 64 (w * k)).toNat : Nat) : Int) = ((base.toNat : Int) + x * w + w * k) % 2 ^ 64 := by
  have hx : (off.toNat : Int) ≡ x [ZMOD 2 ^ 64] := by
    rw [← hoff, BitVec.toInt_eq_toNat_bmod]
    exact Int.bmod_emod.symm
  have hnat : (base + off * BitVec.ofNat 64 w + BitVec.ofNat 64 (w * k)).toNat = (base.toNat + off.toNat * w + w * k) % 2 ^ 64 := by
    simp [BitVec.toNat_add, BitVec.toNat_mul, Nat.add_mod, Nat.mul_mod]
  rw [hnat]
  push_cast
  exact ((hx.mul_right _).add_left _).add_right _

theorem memoryAddress : Rules.MemoryAddress := by
  refine fun base imm w k _ _ => ⟨toNat_address base _ _ w k ?_, fun h => toNat_address base _ _ w k ?_⟩
  · exact BitVec.toInt_signExtend_of_le (by decide)
  · rw [BitVec.toInt_signExtend_of_le (by decide), toInt_high_append]

section
variable {s : State} {g : Grp} {c : Cell} {f : Fibre} {a w dst : Nat} {ord : Scope} {data : List Byte}

theorem loadLane_trap {t : Trap} (hc : s.cell? g.cell.id = some c) (ht : checkAddr s c a w 1 false = some t) :
    loadLane w ord dst g a s f = (s, some t) := by simp [loadLane, hc, ht]

/-- A load outside a transaction counts at its flag and issues one access. -/
theorem loadLane_post (hc : s.cell? g.cell.id = some c) (ht : checkAddr s c a w 1 false = none) (htx : f.tx = none) :
    loadLane w ord dst g a s f = ((s.setFibre ⟨c.id, f.idx⟩ (·.countFlag)).post { mkAcc s c f .load a w [] ord with
      flag := f.llFlag, counted := f.llFlag.isSome, dst := (List.range ((w + 3) / 4)).map (fun i => f.base + dst + i),
      cls := g.cls, nt := g.nt }, none) := by simp [loadLane, hc, ht, htx]

theorem storeLane_trap {ranked : Bool} {t : Trap} (hc : s.cell? g.cell.id = some c) (ht : checkAddr s c a w 2 false = some t) :
    storeLane w ord ranked g a data s f = (s, some t) := by simp [storeLane, hc, ht]

/-- A store to these bytes that a lane of the group has in its queue (log entry 20). -/
def Behind (s : State) (g : Grp) (c : Cell) (a w : Nat) : Prop :=
  ∃ q ∈ s.accs, q.kind.isStore = true ∧ q.stage = .queued ∧ q.va < a + w ∧ a < q.va + q.len
    ∧ ∃ m ∈ g.members, q.of ⟨c.id, m.idx⟩ = true

theorem any_iff_behind : (s.accs.any fun q => q.kind.isStore && q.stage == .queued && decide (q.va < a + w) && decide (a < q.va + q.len)
    && g.members.any fun m => q.of ⟨c.id, m.idx⟩) = true ↔ Behind s g c a w := by
  simp [Behind, and_assoc]

/-- A plain store to scratch that is behind no other is done in place. -/
theorem storeLane_scratch {ranked : Bool} (hc : s.cell? g.cell.id = some c) (ht : checkAddr s c a w 2 false = none)
    (ha : scratchBase ≤ a) (hb : ¬ Behind s g c a w) :
    storeLane w .plain ranked g a data s f = ((settleScratch s c ⟨c.id, f.idx⟩ (a - scratchBase) w).setCell c.id fun c =>
      { c with scratch := putBytes c.scratch (a - scratchBase) data }, none) := by
  rw [← any_iff_behind, Bool.not_eq_true] at hb
  simp [storeLane, hc, ht, ha, hb]

theorem scratch_of_put {t : State} {c' : Cell} {o : Nat} (hcells : t.cells = s.cells) (hc : s.cell? c.id = some c)
    (h : (t.setCell c.id fun c => { c with scratch := putBytes c.scratch o data }).cell? c.id = some c') :
    c'.scratch = putBytes c.scratch o data := by
  rw [cell?_setCell t c.id c.id (fun c => { c with scratch := putBytes c.scratch o data }) (fun _ => rfl), State.cell?, hcells,
    ← State.cell?, hc] at h
  simp only [Option.map_some, if_true, Option.some.injEq] at h
  rw [← h]

theorem recordFull_of_empty {r : FRef} (h : s.refusedStores r = []) : s.recordFull r = false := by simp [State.recordFull, h]

theorem due_none {ord : Scope} {x : Option Trap} (h : ord = .plain ∨ x = none) : (if ord = .plain then none else x) = none := by
  obtain rfl | rfl := h <;> simp

/-- Any other store outside a transaction is posted, its wide forms after the pins of the cell have ended (R199). -/
theorem storeLane_post {ranked : Bool} (hc : s.cell? g.cell.id = some c) (ht : checkAddr s c a w 2 false = none)
    (hb : a < scratchBase ∨ ord ≠ .plain ∨ Behind s g c a w) (htx : f.tx = none) (hrec : s.refusedStores ⟨c.id, f.idx⟩ = [])
    (hdue : ord = .plain ∨ parkDue s ⟨c.id, f.idx⟩ .stores = none) :
    storeLane w ord ranked g a data s f =
      (let u := postStore s c f .store a data ord g.cls g.nt
       if ranked then u.setAcc (u.next - 1) fun q => { q with ranked := true } else u, none) := by
  have hcond : (decide (scratchBase ≤ a) && ord == .plain && !(s.accs.any fun q => q.kind.isStore && q.stage == .queued
      && decide (q.va < a + w) && decide (a < q.va + q.len) && g.members.any fun m => q.of ⟨c.id, m.idx⟩)) = false := by
    rw [← any_iff_behind] at hb
    obtain hb | hb | hb := hb
    · simp [hb]
    · simp [hb]
    · simp [hb]
  simp [storeLane, hc, ht, htx, hcond, recordFull_of_empty hrec, due_none hdue]

theorem postStore_eq (hrec : s.refusedStores ⟨c.id, f.idx⟩ = []) {kind : AccKind} {cls : Option Nat} {nt : Bool} :
    postStore s c f kind a data ord cls nt =
      let s' := if wide ord then endPins s (·.cell == c.id) else s
      s'.post { mkAcc s' c f kind a data.length data ord with
        cls := cls, nt := nt, relDone := ord == .plain, covers := if ord == .plain then [] else s'.coverage ⟨c.id, f.idx⟩ } := by
  simp [postStore, hrec, mkAcc]

theorem atomLane_trap {k : AccKind} {t : Trap} (hc : s.cell? g.cell.id = some c) (ht : checkAddr s c a w 3 true = some t) :
    atomLane k w false ord (some dst) g a data s f = (s, some t) := by simp [atomLane, hc, ht]

theorem atomLane_post {k : AccKind} {cmb : Bool} (hc : s.cell? g.cell.id = some c) (ht : checkAddr s c a w 3 true = none)
    (hdraft : inDraft c a = false) (hdue : ord = .plain ∨ parkDue s ⟨c.id, f.idx⟩ .stores = none) :
    atomLane k w cmb ord (some dst) g a data s f =
      let s' := if wide ord then endPins s (·.cell == c.id) else s
      ((s'.setFibre ⟨c.id, f.idx⟩ (·.countFlag)).post { mkAcc s' c f k a w data ord with
        comb := cmb, flag := f.llFlag, counted := f.llFlag.isSome, dst := (List.range (w / 4)).map (fun i => f.base + dst + i),
        cls := g.cls, nt := g.nt, relDone := ord == .plain
        covers := if ord == .plain then [] else s'.coverage ⟨c.id, f.idx⟩ }, none) := by
  simp [atomLane, hc, ht, hdraft, due_none hdue]

end

theorem laneAccesses : Rules.LaneAccesses := by
  intro s g c f a w dst ord data hc r
  have hid : c.id = g.cell.id := cell?_id hc
  refine ⟨fun t ht => loadLane_trap hc ht, fun ht htx => loadLane_post hc ht htx, fun _ t ht => storeLane_trap hc ht, ?_, ?_,
    fun k t ht => atomLane_trap hc ht, fun k cmb ht hd hdue => atomLane_post hc ht hd hdue⟩
  · rintro ranked ht ha rfl hb
    exact ⟨_, storeLane_scratch hc ht ha hb, rfl, fun c' h => scratch_of_put rfl (hid ▸ hc) h⟩
  · rintro ht hb htx hrec hdue rfl
    refine ⟨?_, ?_⟩
    · rw [storeLane_post hc ht hb htx hrec hdue, postStore_eq hrec]
      rfl
    · rw [storeLane_post hc ht hb htx hrec hdue, postStore_eq hrec]
      rfl

end Sys2Proof.Machine

namespace Sys2Proof.Proofs
open Sys2Proof.Machine

/-- Settles O15: the checks, the address and what one lane does, each by its own lemma. -/
theorem memoryAddresses : Obligations.MemoryAddresses := ⟨addressChecks, memoryAddress, laneAccesses⟩

end Sys2Proof.Proofs

end

section
/-! SUPPORT. Proofs about the list and stream words: where ListWords fails. It asks what a lane's own requests hold back before the word
is issued, by the record of the first fibre of its index. Where two fibres of a cell have one index, the record that goes by it once the
sources are read is the reading lane's. -/

namespace Sys2Proof.Machine

/-! ### An SDEF that waits after it has read its sources -/

/-- The twins of twinState, the register pair 0 of each the base of their scratch. -/
def twinCellAtScratch : Cell := { twinCell with fibres := twinCell.fibres.map fun f => { f with stack := [(1, 0x01800000)] } }
def twinStateAtScratch : State := { twinState with cells := [twinCellAtScratch] }
def twinGroupAtScratch : Grp :=
  { twinGroup with cell := twinCellAtScratch, members := twinCellAtScratch.fibres, view := twinCellAtScratch.fibres }

theorem twinScratch_words :
    Words twinStateAtScratch twinGroupAtScratch {} false [plainSrc (.w 0) .b64] fun _ => [BitVec.ofNat 64 scratchBase] where
  issues := ⟨by decide, by decide, by decide⟩
  room := nofun
  reads := by unfold Reads; decide

/-- By the record that goes by their index, nothing holds the descriptor back from the active lane of the twins. -/
theorem twinScratch_reads : ∀ l ∈ (twinGroupAtScratch.after twinStateAtScratch false).active,
    twinStateAtScratch.acqPending ⟨twinGroupAtScratch.cell.id, l.idx⟩ = false
    ∧ twinStateAtScratch.ownPosted ⟨twinGroupAtScratch.cell.id, l.idx⟩ (BitVec.ofNat 64 scratchBase).toNat 32 = false
    ∧ heldBack (readTo twinStateAtScratch twinGroupAtScratch false [.w 0]) [] twinGroupAtScratch.cell.part twinGroupAtScratch.cell.fn
      (BitVec.ofNat 64 scratchBase).toNat 32 = false := by
  decide

/-- The descriptor, 32 zero bytes of their scratch, passes its checks. -/
theorem twinScratch_passes : ∀ v ∈ readVals twinStateAtScratch twinGroupAtScratch false [.w 0] fun _ => [BitVec.ofNat 64 scratchBase],
    Rules.StreamPasses (readTo twinStateAtScratch twinGroupAtScratch false [.w 0])
      (twinGroupAtScratch.read twinStateAtScratch false [.w 0]).cell
      (((readTo twinStateAtScratch twinGroupAtScratch false [.w 0]).fibre? ⟨twinGroupAtScratch.cell.id, v.1.idx⟩).getD v.1)
      (v.2.getD 0 0).toNat := by
  intro v hv
  obtain rfl := List.mem_singleton.1 hv
  exact ⟨rfl, bytesAt twinCellAtScratch.scratch 0 32, ⟨rfl, .inl ⟨0, by decide, rfl, by decide, rfl⟩⟩, by decide, by decide⟩

/-- Once its sources are read, the active twin's record goes by their index, and the word waits for access 1. -/
theorem twinScratch_stalls : exec (.sdef 0 (.w 0) 0) twinStateAtScratch = .next (stallUnit twinStateAtScratch) := rfl

/-- The clause of SDEF fails: every premise holds of the twins, and no fibre stands past the word. -/
theorem not_listWords : ¬ Rules.ListWords := by
  intro h
  have hno : NoTx twinStateAtScratch twinGroupAtScratch false := by unfold NoTx; decide
  obtain ⟨-, hsdef⟩ := h twinStateAtScratch twinGroupAtScratch (.w 0) (.w 0) (.w 0) (fun _ => 0)
    (fun _ => BitVec.ofNat 64 scratchBase) fun _ => 0
  have hends := (hsdef 0 0 hno twinScratch_words twinScratch_reads).2 (.inr rfl) twinScratch_passes
  have hpcs := congrArg (fun t : State => t.cells.map fun c => c.fibres.map (·.pc))
    (Host.Outcome.next.inj (twinScratch_stalls.symm.trans hends))
  revert hpcs
  decide

end Sys2Proof.Machine

namespace Sys2Proof.Proofs
open Sys2Proof.Machine

/-- Refutes O14: in a cell that holds two fibres of one index (twinStateAtScratch) SDEF passes every check that the statement makes before
its issue, and then waits for a read of its scratch that the other record orders before it; it does not complete. -/
theorem not_listAndStreamWords : ¬ Obligations.ListAndStreamWords := fun h => not_listWords h.1

end Sys2Proof.Proofs

end

section
/-! SUPPORT. Proofs about the draft words: where DraftWords fails. It asks what a lane's own requests hold back before the word is
issued, by the record of the first fibre of its index. Where two fibres of a cell have one index, the record that goes by it once the
sources are read is the reading lane's. -/

namespace Sys2Proof.Machine

/-! ### A DRAFT that waits after it has read its sources -/

/-- The twins of twinState, register 0 of each 1. -/
def twinCellCounting : Cell := { twinCell with fibres := twinCell.fibres.map fun f => { f with stack := [(0, 1)] } }
/-- The header of a region of slots of 64 bytes at address 0, in a line. -/
def twinHeader : Line := { asid := 0, part := 0, line := 0, pa := 2 ^ 47, bytes := bytesOfNat 64 (64 * 2 ^ 32) }
/-- Access 1 is on its way to that header. -/
def twinStateDrafting : State :=
  { twinState with cells := [twinCellCounting], accs := [{ farLoad with va := 0 }], lines := [twinHeader], cxlCache := true }
def twinGroupDrafting : Grp :=
  { twinGroup with cell := twinCellCounting, members := twinCellCounting.fibres, view := twinCellCounting.fibres }
/-- The fields of a DRAFT whose base is the register pair 2 and whose capacity is register 0. -/
def draftFields : List (Field × Bool) := [(plainSrc (.w 2) .b64, false), (plainSrc (.w 0) .b32, false)]

theorem twinDraft_once : Rules.Once twinStateDrafting twinGroupDrafting {} false draftFields fun _ => [0, 1] where
  issues := ⟨by decide, by decide, by decide⟩
  room := nofun
  reads := by unfold LowReads; decide

/-- The state in which the twins have read these fields, and the cell that then acts. -/
def twinStateRead : State := lowTo twinStateDrafting twinGroupDrafting false draftFields
def twinCellRead : Cell := (twinGroupDrafting.low twinStateDrafting false draftFields).cell

theorem twinDraft_reads : twinStateDrafting.acqPending ⟨1, 0⟩ = false ∧ twinStateDrafting.ownPosted ⟨1, 0⟩ 0 64 = false
    ∧ heldBack twinStateRead [] 0 0 0 64 = false := by decide

/-- NoQuitDue, to be evaluated. -/
def quitFree (u : State) (cell : Nat) : Bool :=
  (u.cell? cell).all fun c => c.fibres.all fun f => !endsMore u c.cluster ⟨cell, f.idx⟩ f.status

theorem noQuitDue_of_quitFree {u : State} {cell : Nat} (h : quitFree u cell = true) : NoQuitDue u cell := by
  intro c hc f hf
  simp only [quitFree, hc, Option.all_some, List.all_eq_true, Bool.not_eq_true'] at h
  exact h f hf

theorem arch_drafts (u : State) : u.arch.cells.map (·.drafts) = u.cells.map (·.drafts) := by
  simp only [State.arch, List.map_map]
  rfl

/-- DRAFT in the lane that acts. -/
def twinDraftRun : Option State :=
  laneRun 1 (fun s f vs => draftOpen 0 (vs.getD 0 0).toNat (loWord (vs.getD 1 0)).toNat f.pc s twinCellRead f) twinStateRead
    ((lowVals twinStateDrafting twinGroupDrafting false draftFields fun _ => [0, 1]).take 1)

/-- Where the fields are read, the region opens. -/
theorem twinDraft_opens : twinDraftRun.any (fun u => quitFree u 1 && !(u.cells.map (·.drafts)).flatten.isEmpty) = true := by
  decide +kernel

/-- Once its sources are read, the active twin's record goes by their index, and the word waits for access 1. -/
theorem twinDraft_stalls : exec (.draft 0 (.w 2) (.w 0)) twinStateDrafting = .next (stallUnit twinStateDrafting) := rfl

/-- The clause of DRAFT fails: every premise holds of the twins, and no region is open after the word. -/
theorem not_draftWords : ¬ Rules.DraftWords := by
  intro h
  have hno : NoTx twinStateDrafting twinGroupDrafting false := by unfold NoTx; decide
  obtain ⟨hwaits, hread, hheld⟩ := twinDraft_reads
  obtain ⟨hdraft, -⟩ := h twinStateDrafting twinGroupDrafting 0 (.w 2) (.w 0) (fun _ => [0, 1])
    ((twinGroupDrafting.after twinStateDrafting false).active.headD (twinFibre true [])) [] hno
  obtain ⟨u, hrun, hu⟩ := (Option.any_eq_true _ _).1 twinDraft_opens
  rw [Bool.and_eq_true] at hu
  obtain ⟨hquit, hopen⟩ := hu
  obtain ⟨t, ht, harch⟩ := hdraft twinDraft_once rfl hwaits hread hheld rfl (fun d _ => rfl) u hrun (noQuitDue_of_quitFree hquit)
  obtain rfl := Host.Outcome.next.inj (twinDraft_stalls.symm.trans ht)
  rw [← arch_drafts, ← harch] at hopen
  exact absurd hopen (by decide)

end Sys2Proof.Machine

namespace Sys2Proof.Proofs
open Sys2Proof.Machine

/-- Refutes O30: in a cell that holds two fibres of one index (twinStateDrafting) DRAFT passes every check that the statement makes before
its issue, and then waits for a read of the header that the other record orders before it; no region opens. -/
theorem not_drafts : ¬ Obligations.Drafts := fun h => not_draftWords h.1

end Sys2Proof.Proofs

end

section
/-! SUPPORT. Proofs about translation: the moves TLB_WALK and LINE_FILL, and the walk of a page table. -/

namespace Sys2Proof.Machine

/-! ### The walk -/

/-- The index of an address in the table of a level (R162). -/
def tableIndex (va level : Nat) : Nat := match level with
  | 4 => bits va 56 48 | 3 => bits va 47 39 | 2 => bits va 38 30 | 1 => bits va 29 21 | _ => bits va 20 16

/-- How a walk goes on from an entry read at a level. -/
def entryWalk (s : State) (va fuel level e : Nat) : Walk :=
  if bits e 0 0 = 0 then .fail .translationFault
  else if bits e 1 1 = 1 then
    (if level = 0 then leafEntry s e va false else if level = 1 then leafEntry s e va true else .fail .translationFault)
  else if level = 0 then .fail .translationFault
  else if bits e 63 48 ≠ 0 ∨ bits e 7 2 ≠ 0 ∨ (1 < level ∧ bits e 47 8 * 256 % 4096 ≠ 0) then .fail .translationFault
  else walkFrom s va fuel (level - 1) (bits e 47 8 * 256)

section
variable {s : State} {va fuel level t e : Nat}

theorem walkFrom_succ : walkFrom s va (fuel + 1) level t =
    if !s.physOk (t + 8 * tableIndex va level) then .fail .illegalAddress
    else if s.physLost (t + 8 * tableIndex va level) then .fail .uncorrectable
    else entryWalk s va fuel level (natOfBytes (bytesAt s.mem (t + 8 * tableIndex va level) 8)) := rfl

theorem entryWalk_leaf (hv : bits e 0 0 = 1) (hl : bits e 1 1 = 1) (hlevel : level ≤ 1) :
    entryWalk s va fuel level e = leafEntry s e va (decide (level = 1)) := by
  obtain rfl | rfl : level = 0 ∨ level = 1 := by omega
  · simp [entryWalk, hv, hl]
  · simp [entryWalk, hv, hl]

theorem entryWalk_table (hv : bits e 0 0 = 1) (hl : bits e 1 1 = 0) (hlevel : 0 < level) : entryWalk s va fuel level e =
    if bits e 63 48 ≠ 0 ∨ bits e 7 2 ≠ 0 ∨ (1 < level ∧ bits e 47 8 * 256 % 4096 ≠ 0) then .fail .translationFault
    else walkFrom s va fuel (level - 1) (bits e 47 8 * 256) := by
  simp [entryWalk, hv, hl, Nat.ne_of_gt hlevel]

variable {big : Bool}

theorem leafEntry_reserved (h : bits e 60 48 ≠ 0 ∨ bits e 15 5 ≠ 0 ∨ (big = true ∧ bits e 20 16 ≠ 0)) :
    leafEntry s e va big = .fail .translationFault := if_pos h

/-- A leaf with its reserved bits clear waits for the release of its frame, else gives the frame plus the low bits of the address. -/
theorem leafEntry_frame (h1 : bits e 60 48 = 0) (h2 : bits e 15 5 = 0) (h3 : big = true → bits e 20 16 = 0) :
    leafEntry s e va big = if s.underRelease (bits e 47 16 * 65536) (if big then 2 ^ 21 else 2 ^ 16) then .wait
      else .ok { pa := bits e 47 16 * 65536 + va % (if big then 2 ^ 21 else 2 ^ 16), u := bits e 4 4 = 1, w := bits e 2 2 = 1
                 x := bits e 3 3 = 1, cls := bits e 63 61 } big := by
  refine if_neg ?_
  rintro (h | h | ⟨hb, h⟩)
  · exact h h1
  · exact h h2
  · exact h (h3 hb)

end

theorem pageWalk : Rules.PageWalk := by
  intro s va t fuel level hlevel pa e walked
  have hwalk : walked = if !s.physOk pa then .fail .illegalAddress else if s.physLost pa then .fail .uncorrectable
    else entryWalk s va fuel level e := walkFrom_succ
  clear_value walked e pa
  subst hwalk
  refine ⟨fun hok => by rw [hok]; rfl, fun hok hlost => by rw [hok, hlost]; rfl, fun hok hlost => ?_⟩
  simp only [hok, hlost, Bool.not_true, Bool.false_eq_true, if_false]
  refine ⟨fun hv => if_pos hv, fun hv hl h2 => ?_, fun hv hl h0 => ?_, fun hv hl h0 h1 h2 h3 => ?_, fun hv hl h0 h1 h2 hrel => ?_,
    fun hv hl h0 h => ?_, fun hv hl h1 h => ?_, fun hv hl h1 h2 h3 h4 hrel => ?_, fun hv hl h1 h2 h3 h4 hrel => ?_⟩
  · have h0 : level ≠ 0 := by omega
    have h1 : level ≠ 1 := by omega
    simp [entryWalk, hv, hl, h0, h1]
  · simp [entryWalk, hv, hl, h0]
  · rw [entryWalk_table hv hl h0, if_neg (by omega)]
  · subst h0
    rw [entryWalk_leaf hv hl (by omega), leafEntry_frame h1 h2 (by simp), if_neg (by simpa using hrel)]
    rfl
  · rw [entryWalk_table hv hl h0, if_pos h]
  · rw [entryWalk_leaf hv hl h1, leafEntry_reserved (by simpa using h)]
  · subst h1
    rw [entryWalk_leaf hv hl (by omega), leafEntry_frame h2 h3 (fun _ => h4), if_neg (by simpa using hrel)]
    rfl
  · rw [entryWalk_leaf hv hl h1, leafEntry_frame h2 h3 (by simpa using h4), if_pos (by simpa using hrel)]

/-! ### TLB_WALK and LINE_FILL -/

theorem countPort_mem (s : State) (part asid va pa : Nat) : (countPort s part asid va pa).mem = s.mem := by
  unfold countPort
  split
  · rfl
  · split <;> rfl

theorem writeBack_mem {s : State} {l : Line} (h : l.dirty = true) : (writeBack s l).mem = putBytes s.mem l.pa l.bytes := by
  unfold writeBack
  rw [if_pos h, ← countPort_mem s l.part l.asid (64 * l.line) l.pa]

/-- The TLB's entries once it keeps a page of x (R162). -/
def keptEntries (s : State) (x : Acc) (t : Xlat) (big : Bool) : List TlbEntry :=
  let z := if big then 2 ^ 21 else 2 ^ 16
  { asid := x.asid, part := x.part, page := x.va / z, big := big, xlat := { t with pa := t.pa - x.va % z } }
    :: s.tlb.filter fun y => !(y.asid == x.asid && (if y.big then y.page == x.va / 2 ^ 21 else y.page == x.va / 2 ^ 16))

/-- The entry kept is the one that is found. -/
theorem tlbFind_kept {s u : State} {x : Acc} {t : Xlat} {big : Bool} (h : u.tlb = keptEntries s x t big) : tlbFind u x.asid x.va =
    some { t with pa := t.pa - x.va % (if big then 2 ^ 21 else 2 ^ 16) + x.va % (if big then 2 ^ 21 else 2 ^ 16) } := by
  unfold tlbFind
  rw [h, keptEntries, List.find?_cons_of_pos (by cases big <;> simp)]
  rfl

section
variable {s : State} {a : Nat} {x : Acc} (hx : s.acc? a = some x) (hsent : x.stage = .sent) (hline : s.line? x.asid x.va = none)
include hx hsent hline

theorem execTlbWalk_found {t : Xlat} (hva : x.va < vaultBase) (hxlat : x.xlat = none) (ht : tlbFind s x.asid x.va = some t) :
    exec (.tlbWalk a true) s =
      .next (if s.physOk t.pa then s.setAcc a fun q => { q with xlat := some t } else refuseAcc s x .illegalAddress) := by
  simp [exec, execTlbWalk, hx, hsent, hva, hline, hxlat, ht]

theorem execTlbWalk_wait (hxlat : x.xlat = none) (hw : walkReach s x.part x.fn x.va = .wait) : exec (.tlbWalk a false) s = .next s := by
  simp [exec, execTlbWalk, hx, hsent, hline, hxlat, hw]

theorem execTlbWalk_fail {c : Cause} (hva : x.va < vaultBase) (hxlat : x.xlat = none) (hw : walkReach s x.part x.fn x.va = .fail c) :
    exec (.tlbWalk a false) s = .next (refuseAcc s x c) := by
  simp [exec, execTlbWalk, hx, hsent, hva, hline, hxlat, hw]

theorem execTlbWalk_ok {t : Xlat} {big : Bool} (hva : x.va < vaultBase) (hxlat : x.xlat = none)
    (hw : walkReach s x.part x.fn x.va = .ok t big) :
    exec (.tlbWalk a false) s = .next ({ s with tlb := keptEntries s x t big }.setAcc a fun q => { q with xlat := some t }) := by
  simp [exec, execTlbWalk, hx, hsent, hva, hline, hxlat, hw, keptEntries]

theorem execLineFill_fills {t : Xlat} (hxlat : x.xlat = some t) (hfills : fills s x t = true) (hok : s.physOk t.pa = true) :
    exec (.lineFill (.forAcc a)) s = .next (fillLine s x.asid x.part x.va t (x.cls.getD t.cls) x.nt x.kind.isAtomic) := by
  simp [exec, execLineFill, hx, hsent, hline, hxlat, hfills, hok, Acc.classOf]

end

theorem execLineFill_writeBack {s : State} {l : Line} {asid line : Nat}
    (hl : s.lines.find? (fun l => l.asid == asid && l.line == line) = some l) :
    exec (.lineFill (.writeBack asid line)) s = .next (writeBack s l) := by
  simp [exec, execLineFill, hl]

theorem translationMoves : Rules.TranslationMoves := by
  intro s a x hx hsent hva hline
  refine ⟨fun hxlat => ⟨fun t ht => execTlbWalk_found hx hsent hline hva hxlat ht, fun hw => execTlbWalk_wait hx hsent hline hxlat hw,
    fun c hw => execTlbWalk_fail hx hsent hline hva hxlat hw, fun t big hw => ?_⟩,
    fun t hxlat hfills hok => execLineFill_fills hx hsent hline hxlat hfills hok,
    fun l asid line hl => ⟨execLineFill_writeBack hl, writeBack_mem⟩⟩
  exact ⟨_, execTlbWalk_ok hx hsent hline hva hxlat hw, rfl, rfl, rfl, tlbFind_kept rfl⟩

/-- Who may read, write and fetch (R165). -/
theorem permissions : Rules.Permissions := by
  refine fun u w x sup => ⟨?_, rfl, rfl⟩
  exact Bool.and_true _

end Sys2Proof.Machine

namespace Sys2Proof.Proofs
open Sys2Proof.Machine

/-- Settles O35: the moves, the walk and the permission check, each by its own lemma. -/
theorem translation : Obligations.Translation := ⟨translationMoves, pageWalk, permissions⟩

end Sys2Proof.Proofs

end

section
/-! SUPPORT. Proofs about the streams that run ahead and the waits that end. -/

namespace Sys2Proof.Machine

theorem fibre?_of_cell {s : State} {c : Cell} {f : Fibre} (hc : s.cell? c.id = some c) (hf : c.fibre? f.idx = some f) :
    s.fibre? ⟨c.id, f.idx⟩ = some f := by
  rw [State.fibre?, hc]
  exact hf

/-! ### Streams -/

/-- The first element that an ERET asks for again. -/
theorem findIdx_again {q : List Elem} {k : Nat} (hk : q[k]? = some .again) (hbefore : ∀ j, j < k → q[j]? ≠ some .again) :
    q.findIdx (· == .again) = k := by
  obtain ⟨hlt, hget⟩ := List.getElem?_eq_some_iff.1 hk
  refine (List.findIdx_eq hlt).2 ⟨by simp [hget], fun j hj => ?_⟩
  have hne := hbefore j hj
  rw [List.getElem?_eq_getElem (hj.trans hlt)] at hne
  simpa using hne

theorem findIdx_again_none {q : List Elem} (h : Elem.again ∉ q) : q.findIdx (· == .again) = q.length := by
  refine List.findIdx_eq_length.2 fun x hx => ?_
  exact beq_eq_false_iff_ne.2 (ne_of_mem_of_not_mem hx h)

/-- The move reads element k of a stream, where that can be read, and leaves the record put of it. -/
def ReadsElem (s : State) (c : Cell) (f : Fibre) (n : Fin 4) (st : Stream) (k : Nat) (put : Elem → Stream) : Prop :=
  (streamElem s c f st k = none → exec (.streamRunaheadRead c.id f.idx n) s = .next s)
  ∧ ∀ e r, streamElem s c f st k = some (e, r) → exec (.streamRunaheadRead c.id f.idx n) s =
    .next ((noteReads s c (f.streamSup st) ⟨c.id, f.idx⟩ none false r.from_ r.addrs).setFibre ⟨c.id, f.idx⟩ fun x =>
      x.setStream n.val (put e))

section
variable {s : State} {c : Cell} {f : Fibre} {n : Fin 4} {st : Stream} (hf : s.fibre? ⟨c.id, f.idx⟩ = some f) (hc : s.cell? c.id = some c)
  (hst : f.stream n.val = st)
include hf hc hst

/-- A stream that is stopped reads no element. -/
theorem runAhead_stopped (h : st.active = false) : exec (.streamRunaheadRead c.id f.idx n) s = .next s := by
  simp [exec, execStreamRunaheadRead, hc, hf, hst, h]

variable (hres : c.resident = true) (hact : st.active = true)
include hres hact

/-- An element asked for again is read first, into its place. -/
theorem runAhead_again {k : Nat} (hk : st.queue[k]? = some .again) (hbefore : ∀ j, j < k → st.queue[j]? ≠ some .again) :
    ReadsElem s c f n st (st.popped + k) fun e => { st with queue := st.queue.set k e } := by
  obtain ⟨hlt, -⟩ := List.getElem?_eq_some_iff.1 hk
  refine ⟨fun h => ?_, fun e r h => ?_⟩
  · simp [exec, execStreamRunaheadRead, hc, hf, hst, hres, hact, findIdx_again hk hbefore, hlt, h]
  · simp [exec, execStreamRunaheadRead, hc, hf, hst, hres, hact, findIdx_again hk hbefore, hlt, h]

variable (hnone : Elem.again ∉ st.queue)
include hnone

theorem runAhead_full (h : st.count ≤ st.fetched ∨ st.popped + 16 ≤ st.fetched) : exec (.streamRunaheadRead c.id f.idx n) s = .next s := by
  simp [exec, execStreamRunaheadRead, hc, hf, hst, hres, hact, findIdx_again_none hnone, h]

/-- An element whose position was consumed is passed over. -/
theorem runAhead_discard (h1 : st.fetched < st.count) (h2 : st.fetched < st.popped) : exec (.streamRunaheadRead c.id f.idx n) s =
    .next (s.setFibre ⟨c.id, f.idx⟩ fun x => x.setStream n.val { st with fetched := st.fetched + 1 }) := by
  have hroom : ¬ (st.count ≤ st.fetched ∨ st.popped + 16 ≤ st.fetched) := by omega
  simp [exec, execStreamRunaheadRead, hc, hf, hst, hres, hact, findIdx_again_none hnone, h2, hroom]

/-- The next element goes to the end of the queue. -/
theorem runAhead_next (h1 : st.fetched < st.count) (h2 : st.fetched < st.popped + 16) (h3 : st.popped ≤ st.fetched) :
    ReadsElem s c f n st st.fetched fun e => { st with fetched := st.fetched + 1, queue := st.queue ++ [e] } := by
  have hroom : ¬ (st.count ≤ st.fetched ∨ st.popped + 16 ≤ st.fetched) := by omega
  have hkept : ¬ st.fetched < st.popped := by omega
  refine ⟨fun h => ?_, fun e r h => ?_⟩
  · simp [exec, execStreamRunaheadRead, hc, hf, hst, hres, hact, findIdx_again_none hnone, hroom, hkept, h]
  · simp [exec, execStreamRunaheadRead, hc, hf, hst, hres, hact, findIdx_again_none hnone, hroom, hkept, h]

end

theorem streamMove : Rules.StreamMove := by
  intro s c f n hc hf hres
  have hf := fibre?_of_cell hc hf
  exact ⟨runAhead_stopped hf hc rfl, fun hact k => runAhead_again hf hc rfl hres hact, fun hact hnone =>
    ⟨runAhead_full hf hc rfl hres hact hnone, runAhead_discard hf hc rfl hres hact hnone, runAhead_next hf hc rfl hres hact hnone⟩⟩

/-! ### Waits -/

/-- Another fibre of the hatch that waits for its flags at the same clause in the same mode. -/
def waitsWith (f x : Fibre) : Bool := x.hatch == f.hatch && x.path == f.path && match x.status with | .waitFlags _ => true | _ => false

/-- The flags that a fibre waits for are zero. -/
def waitIsOver (x : Fibre) : Bool := match x.status with | .waitFlags m => x.flagsClear m | _ => true

theorem waitIsOver_iff {x : Fibre} : waitIsOver x = true ↔ ∀ m, x.status = .waitFlags m → x.flagsClear m = true := by
  unfold waitIsOver
  split
  · next m hm => exact ⟨fun h k hk => Status.waitFlags.inj (hm.symm.trans hk) ▸ h, fun h => h m hm⟩
  · next hnot => exact ⟨fun _ m hm => absurd hm (hnot m), fun _ => rfl⟩

section
variable {s : State} {c : Cell} {f : Fibre} (hf : s.fibre? ⟨c.id, f.idx⟩ = some f) (hc : s.cell? c.id = some c) (hres : c.resident = true)
include hf hc hres

theorem trapEntry_enters : exec (.trapEntry c.id f.idx) s = .next (afterChange (enterHandler s c.id f.hatch) c.id) := by
  simp [exec, execTrapEntry, hc, hf, hres]

/-- Fibres that wait together go on together, or none does. -/
theorem clauseWaitEnd_eq {m : BitVec 12} (hwait : f.status = .waitFlags m) : exec (.clauseWaitEnd c.id f.idx) s =
    if (c.fibres.filter (waitsWith f)).all waitIsOver then .next (afterChange (settleHatch
      (s.mapFibres c.id fun x => if waitsWith f x then { x with status := .ready } else x) c.id f.hatch) c.id) else .next s := by
  simp only [exec, execClauseWaitEnd, hc, hf, hwait, hres, Bool.true_and]
  rfl

theorem clauseWaitEnd_goesOn {m : BitVec 12} (hwait : f.status = .waitFlags m)
    (h : ∀ x ∈ c.fibres, waitsWith f x = true → ∀ m, x.status = .waitFlags m → x.flagsClear m = true) :
    exec (.clauseWaitEnd c.id f.idx) s = .next (afterChange (settleHatch
      (s.mapFibres c.id fun x => if waitsWith f x then { x with status := .ready } else x) c.id f.hatch) c.id) := by
  rw [clauseWaitEnd_eq hf hc hres hwait, if_pos]
  refine List.all_eq_true.2 fun x hx => waitIsOver_iff.2 ?_
  exact h x (List.mem_filter.1 hx).1 (List.mem_filter.1 hx).2

theorem clauseWaitEnd_waits {m : BitVec 12} (hwait : f.status = .waitFlags m)
    (h : ∃ x ∈ c.fibres, waitsWith f x = true ∧ ∃ m, x.status = .waitFlags m ∧ x.flagsClear m = false) :
    exec (.clauseWaitEnd c.id f.idx) s = .next s := by
  obtain ⟨x, hx, hmate, k, hk, hclear⟩ := h
  rw [clauseWaitEnd_eq hf hc hres hwait, if_neg]
  intro hall
  have hover := waitIsOver_iff.1 (List.all_eq_true.1 hall x (List.mem_filter.2 ⟨hx, hmate⟩)) k hk
  rw [hclear] at hover
  exact Bool.false_ne_true hover

theorem watchdog_raises {m : BitVec 12} {p : Partition} (hwait : f.status = .waitFlags m) (hp : s.part? c.part = some p) (hne : p.wdog.toNat ≠ 0)
    (h : f.since + p.wdog.toNat * ticksPerMicro ≤ s.now) : exec (.watchdog c.id f.idx) s =
      .next (afterChange (takeTraps s c.id f.hatch [⟨f.idx, { cause := .watchdog }, f.pc⟩]) c.id) := by
  simp [exec, execWatchdog, hc, hf, hres, hp, hne, hwait, Nat.not_lt.2 h]

end

theorem watchdog_early {s : State} {c : Cell} {f : Fibre} {p : Partition} (hf : s.fibre? ⟨c.id, f.idx⟩ = some f) (hc : s.cell? c.id = some c)
    (hp : s.part? c.part = some p) (h : s.now < f.since + p.wdog.toNat * ticksPerMicro) : exec (.watchdog c.id f.idx) s = .next s := by
  simp [exec, execWatchdog, hc, hf, hp, h]

/-- An entry of the crosshatch one of whose members has waited for 256 cycles goes on. -/
theorem regroupTimeout_leaves {s : State} {c : Cell} {e : HatchEntry} {quad : Nat} (hc : s.cell? c.id = some c) (hres : c.resident = true)
    (he : s.crosshatch.find? (fun x => x.id == e.id && x.cluster == e.cluster && x.quad == quad) = some e) (hcell : e.cell = c.id)
    (h : ∃ m ∈ c.fibres, m.idx ∈ e.members ∧ m.mark + 256 ≤ s.cycles (islandOf e.cluster)) :
    exec (.regroupTimeout e.cluster quad e.id) s = .next (afterChange (leaveRegroup s e.id true) c.id) := by
  simp [exec, execRegroupTimeout, he, hcell, hc, hres, h]

theorem waitEvents : Rules.WaitEvents := by
  intro s c f hc hf hres
  have hf := fibre?_of_cell hc hf
  refine ⟨trapEntry_enters hf hc hres, fun m hm => ?_, fun p m hp hm hne => ⟨watchdog_early hf hc hp, watchdog_raises hf hc hres hm hp hne⟩,
    fun e quad he hcell h => regroupTimeout_leaves hc hres he hcell h⟩
  intro mate
  have hmate : mate = waitsWith f := by
    funext x
    exact congrArg₂ (· && ·) (Bool.and_assoc ..) rfl
  clear_value mate
  subst hmate
  exact ⟨clauseWaitEnd_goesOn hf hc hres hm, clauseWaitEnd_waits hf hc hres hm⟩

end Sys2Proof.Machine

namespace Sys2Proof.Proofs
open Sys2Proof.Machine

/-- Settles O40: the streams that run ahead, and the ends of waits, each by its own lemma. -/
theorem streamsAndWaits : Obligations.StreamsAndWaits := ⟨streamMove, waitEvents⟩

end Sys2Proof.Proofs

end

section
-- One proof after the other: the text is one process, and every proof in flight holds a thread of its own.
set_option Elab.async false

/-! SUPPORT. Proofs about the moves of the cluster view: LEAVE, FORWARD, REQUEST_SEND, COMBINE, the window, ESCAPE, and the order that they keep. -/

namespace Sys2Proof.Machine

/-- An access is found under its own number. -/
theorem acc?_id {s : State} {a : Nat} {x : Acc} (h : s.acc? a = some x) : x.id = a := by
  simpa using List.find?_some h

/-! ### LEAVE -/

/-- The state in which access a has entered the view last (R189). -/
def enteredView (s : State) (a : Nat) (x : Acc) : State :=
  (moveLast s a).setAcc a fun q => { q with stage := .inView, window := ((s.part? x.part).map (·.cw)).getD 0 }

section
variable {s : State} {a : Nat} {x : Acc} (hx : s.acc? a = some x)
include hx

theorem leave_early (h : leaveTurn s x = false) : exec (.leave a) s = .next s := by simp [exec, execLeave, hx, h]
theorem leave_eq (h : leaveTurn s x = true) : exec (.leave a) s = .next (afterAll (leaveNow s x)) := by simp [exec, execLeave, hx, h]

/-- A scratch access is done as it leaves (R189). -/
theorem leaveNow_scratch {c : Cell} (hs : scratchBase ≤ x.va) (hc : s.cell? x.owner.cell = some c) : leaveNow s x =
    if x.kind.isStore = true then
      (s.setCell x.owner.cell fun c => { c with scratch := putBytes c.scratch (x.va - scratchBase) x.data }).setAcc a fun q =>
        { q with stage := .arrived }
    else s.setAcc a fun q => { q with stage := .arrived, result := bytesAt c.scratch (x.va - scratchBase) x.len } := by
  simp [leaveNow, hs, hc, acc?_id hx]

/-- Any other access enters the view, the bytes of a store that is not tentative its cluster's blocks (R185, R189). -/
theorem leaveNow_view (hs : x.va < scratchBase) : leaveNow s x =
    if x.kind.isStore && !tentative (enteredView s a x) x then
      writeBlocks (enteredView s a x) x.cluster (accTag (enteredView s a x) x) x.va x.data
    else enteredView s a x := by
  simp only [leaveNow, Nat.not_le.2 hs, if_false, acc?_id hx]
  rfl

end

theorem isStore_iff (k : AccKind) : k.isStore = true ↔ k = .store ∨ k = .sti ∨ ∃ i, k = .slotWrite i := by
  cases k <;> simp [AccKind.isStore]

theorem leaveMove : Rules.LeaveMove := by
  refine fun s a x hx => ⟨leave_early hx, fun h => ⟨fun c hs hc => ?_, fun hs => ⟨fun hplain => ?_, fun hst ht => ?_⟩⟩, isStore_iff⟩
  · rw [leave_eq hx h, leaveNow_scratch hx hs hc]
  · rw [leave_eq hx h, leaveNow_view hx hs, if_neg]
    · rfl
    · rcases hplain with hk | ht
      · simp [hk]
      · simp only [Bool.and_eq_true, Bool.not_eq_true', not_and, Bool.not_eq_false]
        exact fun _ => ht
  · rw [leave_eq hx h, leaveNow_view hx hs, if_pos]
    · rfl
    · rw [hst, Bool.true_and, Bool.not_eq_true']
      exact ht

/-! ### FORWARD -/

section
variable {s : State} {a : Nat} {x : Acc} (hx : s.acc? a = some x)
include hx

theorem forward_barred (h : mayForward s x = false) : exec (.forward a) s = .next s := by simp [exec, execForward, hx, h]
theorem forward_unanswered (h : mayForward s x = true) (hno : forwardBytes s x = none) : exec (.forward a) s = .next s := by
  simp [exec, execForward, hx, h, hno]
theorem forward_answers (h : mayForward s x = true) {bs : List Byte} {from_ : List Nat} (hf : forwardBytes s x = some (bs, from_)) :
    exec (.forward a) s = .next (finishAcc (deliverWords ((acquirePoints s x).setFibre x.owner fun f =>
      { f with readFrom := f.readFrom ++ from_ }) x bs 15) x) := by
  simp [exec, execForward, hx, h, hf]

end

/-- A load that the fibre's last point of cell scope puts after a write that merges is not answered (R193). -/
theorem forwardBytes_seen {s : State} {x : Acc} (h : s.seenBlocks x.owner false x.va x.len = true) : forwardBytes s x = none := by
  unfold forwardBytes
  split
  · rfl
  · simp [h]

section
variable {s : State} {x q : Acc} {c : Cell} (hc : s.cell? x.owner.cell = some c) (hheld : c.held = []) (hrefused : s.refusedStores x.owner = [])
  (hseen : s.seenBlocks x.owner false x.va x.len = false) (hown : ∀ e ∈ s.accs, e.of x.owner = true → e.id = x.id) (hlen : 0 < x.len)
  (hq : (pendingStores s x).getLast? = some q)

include hown in
/-- Of accesses of the fibre other than x there is none. -/
theorem no_own_other {p : Acc → Bool} (hp : ∀ e, p e = true → e.of x.owner = true ∧ e.id ≠ x.id) : s.accs.any p = false := by
  refine List.any_eq_false.2 fun e he hpe => ?_
  obtain ⟨hof, hne⟩ := hp e hpe
  exact hne (hown e he hof)

include hc hheld hrefused hseen hown hlen hq in
/-- What answers a load whose fibre has no other access and holds nothing back: the newest pending store where it covers the load, else a
block of L1 (R191). -/
theorem forwardBytes_newest : forwardBytes s x =
    if q.pendsAll x.va x.len then some (q.bytesFrom x.va x.len, [q.id]) else forwardBytes.inBlock s x c := by
  have hlater := no_own_other (x := x) hown
    (p := fun q => q.of x.owner && overlaps q x && decide (x.id < q.id) && q.kind.posted && q.stage != .queued) fun e he => by
      simp only [Bool.and_eq_true, decide_eq_true_eq] at he
      obtain ⟨⟨⟨⟨hof, -⟩, hid⟩, -⟩, -⟩ := he
      exact ⟨hof, Nat.ne_of_gt hid⟩
  have hearlier := no_own_other (x := x) hown
    (p := fun q => q.of x.owner && overlaps q x && decide (q.id < x.id) && q.kind.writes && !q.kind.isStore && q.stage != .arrived) fun e he => by
      simp only [Bool.and_eq_true, decide_eq_true_eq] at he
      obtain ⟨⟨⟨⟨⟨hof, -⟩, hid⟩, -⟩, -⟩, -⟩ := he
      exact ⟨hof, Nat.ne_of_lt hid⟩
  simp only [forwardBytes, hc, hlater, hearlier, hseen, hheld, hrefused, hq]
  simp [Nat.ne_of_lt hlen, latest]

end

/-- All of n bytes stand in words of an access that have yet to ARRIVE (R188). -/
theorem pendsAll_iff {q : Acc} {va n : Nat} : q.pendsAll va n = true ↔
    ∀ i, i < n → q.va ≤ va + i ∧ va + i < q.va + q.len ∧ q.got.testBit ((va + i - q.va) / 4) = false := by
  simp [Acc.pendsAll, Acc.pends, and_assoc]

/-- A block that answers a load is a valid one of its cluster that holds all its bytes (R191). -/
theorem inBlock_some {s : State} {x : Acc} {c : Cell} {bs : List Byte} {from_ : List Nat} (h : forwardBytes.inBlock s x c = some (bs, from_)) :
    ∃ b ∈ s.blocks, b.cluster = x.cluster ∧ b.asid = accTag s x ∧ b.base ≤ x.va ∧ x.va + x.len ≤ b.base + b.bytes.length
      ∧ (b.asid = none ∨ s.physOk b.pa = true) ∧ bs = (b.bytes.drop (x.va - b.base)).take x.len := by
  unfold forwardBytes.inBlock at h
  split at h
  · cases h
  · obtain ⟨b, hb, hbs⟩ := Option.map_eq_some_iff.1 h
    have hp := List.find?_some hb
    simp only [Bool.and_eq_true, beq_iff_eq, decide_eq_true_eq, Bool.or_eq_true, Option.isNone_iff_eq_none] at hp
    obtain ⟨⟨⟨⟨hcl, htag⟩, hlo⟩, hhi⟩, hok⟩ := hp
    exact ⟨b, List.mem_of_find?_eq_some hb, hcl, htag, hlo, hhi, hok, (congrArg Prod.fst hbs).symm⟩

/-! ### Points of cell scope -/

theorem atPoint_viewWrites (s : State) (r : FRef) (n m : Nat) : (s.atPoint r n).viewWrites m = s.viewWrites m := rfl

/-- A point that a fibre takes twice is one point (R193). -/
theorem atPoint_atPoint (s : State) (r : FRef) (n : Nat) : (s.atPoint r n).atPoint r n = s.atPoint r n := by
  rw [State.atPoint, atPoint_viewWrites]
  simp only [State.atPoint, State.setFibre, State.setCell, Cell.setFibre, List.map_map]
  congr 1
  refine List.map_congr_left fun c _ => ?_
  by_cases hc : c.id = r.cell
  · simp only [Function.comp_apply, hc, if_true, List.map_map]
    congr 1
    refine List.map_congr_left fun f _ => ?_
    by_cases hf : f.idx = r.idx <;> simp [hf]
  · simp [hc]

theorem foldl_atPoint {x : Acc} : ∀ {l : List Acc} {s : State}, l ≠ [] → (∀ e ∈ l, e = x) →
    l.foldl (fun s e => s.atPoint e.owner e.cluster) s = s.atPoint x.owner x.cluster
  | [], _, h, _ => absurd rfl h
  | [e], _, _, h => by rw [List.foldl_cons, List.foldl_nil, h e List.mem_cons_self]
  | e :: e' :: r, s, _, h => by
    rw [List.foldl_cons, foldl_atPoint (List.cons_ne_nil _ _) fun y hy => h y (List.mem_cons_of_mem _ hy), h e List.mem_cons_self, atPoint_atPoint]

/-- An acquire at cell scope that is alone in its group is a point of its fibre (R193). -/
theorem acquirePoints_alone {s : State} {x : Acc} (hord : x.ord = .cell) (hk : x.kind.returns = true) (hm : x.members = [(x.id, [])])
    (hx : x ∈ s.accs) (hall : ∀ e ∈ s.accs, e.id = x.id → e = x) : acquirePoints s x = s.atPoint x.owner x.cluster := by
  rw [acquirePoints, if_pos hord]
  refine foldl_atPoint (List.ne_nil_of_mem (List.mem_filter.2 ⟨hx, by simp [hm, hk]⟩)) fun e he => ?_
  obtain ⟨hmem, hp⟩ := List.mem_filter.1 he
  rw [hm] at hp
  simp only [List.any_cons, List.any_nil, Bool.or_false, Bool.and_eq_true, beq_iff_eq] at hp
  exact hall e hmem hp.1.symm

theorem forwardMove : Rules.ForwardMove := by
  refine fun s a x hx => ⟨forward_barred hx, forward_unanswered hx, fun h bs from_ hf => forward_answers hx h hf, forwardBytes_seen,
    fun c q hc hheld hrefused hseen hown hlen hq => ?_, fun hord => if_neg hord, fun hord hk hm hall => ?_⟩
  · have hnew := forwardBytes_newest hc hheld hrefused hseen hown hlen hq
    refine ⟨fun hcov => hnew.trans (if_pos (pendsAll_iff.2 hcov)), fun hcov bs from_ hf => ?_⟩
    rw [hnew, if_neg fun h => hcov (pendsAll_iff.1 h)] at hf
    exact inBlock_some hf
  · exact acquirePoints_alone hord (by rw [hk]; rfl) hm (List.mem_of_find?_eq_some hx) hall

/-! ### REQUEST_SEND, COMBINE_WINDOW_EXPIRY, ESCAPE, COMBINE -/

section
variable {s : State} {a : Nat} {x : Acc} (hx : s.acc? a = some x)
include hx

theorem requestSend_early (h : sendTurn s x = false) : exec (.requestSend a) s = .next s := by simp [exec, execRequestSend, hx, h]
theorem requestSend_plain (h : sendTurn s x = true) (hcomb : x.comb = false) :
    exec (.requestSend a) s = .next (s.setAcc a fun q => { q with stage := .sent }) := by simp [exec, execRequestSend, hx, h, hcomb]
theorem requestSend_combinable (h : sendTurn s x = true) (hcomb : x.comb = true) :
    exec (.requestSend a) s = .next (enterSwitch s x (x.way s)) := by simp [exec, execRequestSend, hx, h, hcomb]

theorem combineWindowExpiry_passes {l : Nat} (hl : x.stage = .waiting l) (hparked : parkedAt s (switchOf x.cluster l) x = false)
    (hpair : s.accs.any (fun e => e.atSwitch (switchOf x.cluster l) && s.pairs x e) = false)
    (hdue : x.waitStart + x.window ≤ switchCycles s (switchOf x.cluster l)) : exec (.combineWindowExpiry a) s =
      .next (enterSwitch (s.setAcc a fun q => { q with stage := .inView }) x ((x.way s).filter (l < ·))) := by
  simp only [exec, execCombineWindowExpiry, hx, hl]
  exact if_pos (by rw [hparked, hpair]; simpa using hdue)

end

theorem sendMoves : Rules.SendMoves := fun _ _ _ hx => ⟨requestSend_early hx, requestSend_plain hx, requestSend_combinable hx,
  fun _ => combineWindowExpiry_passes hx, fun _ => rfl⟩

theorem combineMove : Rules.CombineMove := by
  intro s x y l op hx hy hxl hyl hsw hk hparked hfirst
  simp only [exec, execCombine, hx, hy, hxl, hyl, hk, AccKind.op?]
  exact if_pos ⟨hsw, hparked, hfirst⟩

/-! ### Whose accesses share a fibre -/

theorem shares_of_owner {e x : Acc} (h : e.owner = x.owner) : e.shares x = true := by simp [Acc.shares, Acc.of, h]

/-! ### The order of LEAVE -/

/-- What leaveTurn asks of the fibre's earlier accesses (R190, R194, R195). -/
theorem leaveTurn_first {s : State} {x e : Acc} (h : leaveTurn s x = true) (he : e ∈ s.accs) (hkept : (s.kept x.owner).contains e.id = false) :
    leaveFirst x e = false := by
  simp only [leaveTurn, Bool.and_eq_true, List.all_eq_true] at h
  obtain ⟨⟨⟨-, hfirst⟩, -⟩, -⟩ := h
  have hfirst := hfirst e he
  rwa [hkept, Bool.or_false, Bool.not_eq_true'] at hfirst

/-- What it asks of the fibre's earlier operations (R190). -/
theorem leaveTurn_ops {s : State} {x : Acc} {o : Op} (h : leaveTurn s x = true) (ho : o ∈ s.ops) (hown : o.owner = x.owner) (hid : o.id < x.id)
    (hkept : (s.kept x.owner).contains o.id = false) : o.mayStore x.va x.len = false ∧ (x.kind.writes = true → o.mayRead x.va x.len = false) := by
  simp only [leaveTurn, Bool.and_eq_true, List.all_eq_true] at h
  obtain ⟨-, hops⟩ := h
  have hof : x.of o.owner = true := by simp [Acc.of, hown]
  have hop := hops o ho
  rw [hof, hkept] at hop
  simpa [hid, imp_iff_not_or] using hop

theorem leaveTurn_queued {s : State} {x : Acc} (h : leaveTurn s x = true) : x.stage = .queued := by
  simp only [leaveTurn, Bool.and_eq_true, beq_iff_eq] at h
  obtain ⟨⟨⟨⟨⟨hq, -⟩, -⟩, -⟩, -⟩, -⟩ := h
  exact hq

/-- An earlier access of the fibre before which x need not wait is no acquire that is yet to be answered, and where it is queued neither
orders x nor touches its bytes or its frame (R55, R190, R194, R195). -/
theorem leaveFirst_eq_false {x e : Acc} (hown : e.owner = x.owner) (hid : e.id < x.id) (h : leaveFirst x e = false) :
    (e.isAcquire = true → e.refused = true)
    ∧ (e.stage = .queued → e.ord = .plain ∧ x.ord = .plain ∧ overlaps e x = false ∧ sameFrame e x = false) := by
  simp only [leaveFirst, shares_of_owner hown, hid, decide_true, Bool.and_true, Bool.true_and, Bool.or_eq_false_iff] at h
  obtain ⟨hacq, hqueued⟩ := h
  refine ⟨fun ha => by simpa [ha] using hacq, fun hq => ?_⟩
  simpa [hq, and_assoc] using hqueued

theorem leaveOrder : Rules.LeaveOrder := fun _ _ h => ⟨leaveTurn_queued h,
  fun _ he hown hid hkept => leaveFirst_eq_false hown hid (leaveTurn_first h he hkept),
  fun _ ho hown hid hkept => leaveTurn_ops h ho hown hid hkept⟩

/-! ### The order of REQUEST_SEND and ARRIVE -/

section
variable {s : State} {x e : Acc}

theorem sendTurn_unpinned (h : sendTurn s x = true) : x.pinned = none := by
  simp only [sendTurn, Bool.and_eq_true, Option.isNone_iff_eq_none] at h
  obtain ⟨⟨⟨⟨⟨-, hpin⟩, -⟩, -⟩, -⟩, -⟩ := h
  exact hpin

/-- An earlier overlapping access of the fibre has left the view before x does (R190). -/
theorem sendTurn_after (h : sendTurn s x = true) (he : e ∈ s.accs) (hown : e.owner = x.owner) (hid : e.id < x.id) (hover : overlaps e x = true)
    (hkept : (s.kept x.owner).contains e.id = false) : e.stage ≠ .queued ∧ e.stage ≠ .inView := by
  simp only [sendTurn, Bool.and_eq_true, List.all_eq_true] at h
  obtain ⟨⟨⟨-, hall⟩, -⟩, -⟩ := h
  have hall := hall e he
  rw [hkept] at hall
  simpa [shares_of_owner hown, hover, Nat.not_le.2 hid] using hall

/-- A request of one access that has its turn to ARRIVE is held back by nothing that does not carry it (R199), and by no access of its
fibre (R190). -/
theorem arriveTurn_alone (h : arriveTurn s x = true) (hm : x.members = [(x.id, [])]) (hx : s.acc? x.id = some x) :
    heldBack s [x.id] x.part x.fn x.va x.len = false
    ∧ behindOwn { s with accs := s.accs.filter fun q => !([x.id] : List Nat).contains q.id } x = false := by
  simp only [arriveTurn, hm, List.map_cons, List.map_nil, Bool.and_eq_true, Bool.not_eq_true', List.all_eq_true] at h
  obtain ⟨⟨⟨-, hheld⟩, -⟩, hall⟩ := h
  exact ⟨hheld, hall x (List.mem_filter.2 ⟨List.mem_of_find?_eq_some hx, by simp⟩)⟩

/-- An earlier overlapping access of the fibre that keeps x back no more has made ARRIVE, or was refused (R190, R266). -/
theorem arrived_of_not_ownFirst (hown : e.owner = x.owner) (hid : e.id < x.id) (hover : overlaps e x = true) (h : ownFirst x e = false) :
    e.stage = .arrived ∨ e.refused = true ∧ (e.kind.posted && x.kind.posted) = false := by
  by_cases ha : e.stage = .arrived
  · exact .inl ha
  · refine .inr ?_
    simpa [ownFirst, shares_of_owner hown, hid, hover, ha] using h

end

theorem sendAndArriveOrder : Rules.SendAndArriveOrder := by
  refine fun s x e he hown hid hover => ⟨fun h => ⟨sendTurn_unpinned h, sendTurn_after h he hown hid hover⟩, fun h hm hx _ hkept => ?_⟩
  obtain ⟨hheld, hbehind⟩ := arriveTurn_alone h hm hx
  have hmem : e ∈ s.accs.filter fun q => !([x.id] : List Nat).contains q.id := List.mem_filter.2 ⟨he, by simpa using Nat.ne_of_lt hid⟩
  have hfirst := List.any_eq_false.1 hbehind e hmem
  rw [hkept, Bool.and_false, Bool.not_false, Bool.and_true, Bool.not_eq_true] at hfirst
  exact ⟨arrived_of_not_ownFirst hown hid hover hfirst, hheld⟩

end Sys2Proof.Machine

namespace Sys2Proof.Proofs
open Sys2Proof.Machine

/-- Settles O33, move by move: each is its event of the model, opened once. -/
theorem viewMoves : Obligations.ViewMoves := ⟨leaveMove, forwardMove, sendMoves, combineMove⟩

/-- Settles O34: what a turn to leave, to be sent and to arrive asks of the earlier accesses of the fibre. -/
theorem viewOrder : Obligations.ViewOrder := ⟨leaveOrder, sendAndArriveOrder⟩

end Sys2Proof.Proofs

end

section
-- One proof after the other: the text is one process, and every proof in flight holds a thread of its own.
set_option Elab.async false

/-! SUPPORT. Proofs about pins, fences and replies: PIN_TIMEOUT, FENCE_DONE, REPLY, DELIVER_INVAL. -/

namespace Sys2Proof.Machine

/-! ### PIN_TIMEOUT and FENCE_DONE -/

/-- PIN_TIMEOUT ends the pins of a release once one of them has stood for ORD.PINTO (R199). -/
theorem pinTimeout_ends {s : State} {rel : Nat} {p : Pin} {k : Partition} (hp : p ∈ s.pins) (hrel : p.rel = rel) (hne : rel ≠ 0)
    (hk : s.part? p.part = some k) (hdue : p.since + k.pinto * ticksPerMicro ≤ s.now) :
    exec (.pinTimeout rel) s = .next (afterAll (freePins (endPins s (·.rel == rel)))) :=
  if_pos (List.any_eq_true.2 ⟨p, hp, by simp [hrel, hne, hk, hdue]⟩)

section
variable {s : State} {c : Cell} {f : Fibre} (hc : s.cell? c.id = some c) (hf : s.fibre? ⟨c.id, f.idx⟩ = some f) (hres : c.resident = true)
  (hdone : ∀ a ∈ s.accs, a.owner = ⟨c.id, f.idx⟩ → a.relDone = true)
  {eng mx : Bool} {sc : Scope} {cov : List Nat} (hfence : f.status = .fence eng mx sc cov)

include hdone in
/-- A fibre whose releases are all done has none for FENCE_DONE to do (R196). -/
theorem releases_due_nil : (s.accs.filter fun a => a.owner == ⟨c.id, f.idx⟩ && !a.relDone && a.stage == .queued) = [] := by
  refine List.filter_eq_nil_iff.2 fun a ha => ?_
  by_cases ho : a.owner = ⟨c.id, f.idx⟩
  · simp [hdone a ha ho]
  · simp [ho]

include hc hf hres hdone hfence in
/-- FENCE_DONE of a fibre that waits at a fence and has no release of its own before it (R193, R196). -/
theorem fenceDone_eq : exec (.fenceDone c.id f.idx) s =
    if fenceMet s c.cluster eng mx sc cov then
      .next (afterChange (settleHatch ((if sc = .sys then writeBackAll s (s.asid c.part c.fn)
        else if sc = .cell then s.atPoint ⟨c.id, f.idx⟩ c.cluster else s).setFibre ⟨c.id, f.idx⟩ fun f =>
          { f with status := .ready }) c.id f.hatch) c.id)
    else .next s := by
  simp only [exec, execFenceDone, hc, hf, hres, Bool.not_true, Bool.false_eq_true, if_false, releases_due_nil hdone, sortBy, List.findSome?_nil,
    hfence]

end

/-! ### REPLY -/

/-- The bits of the words 0 to n-1, set one after another, are all ones. -/
theorem foldl_two_pow_range (n : Nat) : (List.range n).foldl (fun g i => g + 2 ^ i) 0 + 1 = 2 ^ n := by
  induction n with
  | zero => rfl
  | succ n ih => rw [List.range_succ, List.foldl_append, List.foldl_cons, List.foldl_nil, Nat.pow_succ]; omega

section
variable {s : State} {a mask : Nat} {x : Acc} {c : Cell} (hx : s.acc? a = some x) (hc : s.cell? x.owner.cell = some c)

include hx in
theorem reply_early (h : replyTurn s x = false) : exec (.reply a mask) s = .next s := by
  simp [exec, execReply, hx, h]

include hx hc in
/-- A reply to a context that is saved no more is dropped (R270). -/
theorem reply_older (h : replyTurn s x = true) (htag : c.saveTag ≠ x.tag) : exec (.reply a mask) s = .next (s.dropAcc a) := by
  simp [exec, execReply, hx, h, hc, htag]

include hx hc in
/-- An acknowledgement ends a posted access (R189). -/
theorem reply_acknowledges (h : replyTurn s x = true) (htag : c.saveTag = x.tag) (hk : x.kind.returns = false) :
    exec (.reply a mask) s = .next (finishAcc s x) := by
  simp [exec, execReply, hx, h, hc, htag, hk]

/-- Words that are all selected and of which none is taken are all taken. -/
theorem takenWith_all (hgot : x.got = 0) (hmask : ∀ i, i < (x.len + 3) / 4 → mask.testBit i = true) :
    takenWith x (wordsNow x mask) + 1 = 2 ^ wordCount x.len := by
  have hall : wordsNow x mask = List.range (wordCount x.len) := by
    refine List.filter_eq_self.2 fun i hi => ?_
    simp [hgot, hmask i (List.mem_range.1 hi)]
  rw [takenWith, hall, hgot, foldl_two_pow_range]

include hx hc in
/-- A reply that selects every word of a load writes them and ends it (R189). -/
theorem reply_delivers (h : replyTurn s x = true) (htag : c.saveTag = x.tag) (hk : x.kind.returns = true) (hgot : x.got = 0)
    (hmask : ∀ i, i < (x.len + 3) / 4 → mask.testBit i = true) :
    exec (.reply a mask) s = .next (finishAcc (deliverWords s x x.result mask) x) := by
  simp [exec, execReply, hx, h, hc, htag, hk, takenWith_all hgot hmask]

end

/-- An acquire at cohort scope or wider waits for each invalidation queued to its cluster before it arrived (R194). -/
theorem replyTurn_behind_inval {s : State} {x : Acc} {q : Nat × List Inval} {v : Inval} (hacq : x.isAcquire = true) (hw : wide x.ord = true)
    (hq : q ∈ s.invals) (hcl : q.1 = x.cluster) (hv : v ∈ q.2) (hbefore : v.num < x.invBefore) : replyTurn s x = false := by
  have hall : (s.invals.all fun q => q.1 != x.cluster || q.2.all fun v => decide (x.invBefore ≤ v.num)) = false := by
    refine List.all_eq_false.2 ⟨q, hq, ?_⟩
    simp only [hcl, bne_self_eq_false, Bool.false_or, List.all_eq_true, decide_eq_true_eq, not_forall]
    exact ⟨v, hv, by omega⟩
  simp [replyTurn, hacq, hw, hall]

theorem replyMove : Rules.ReplyMove := by
  refine fun s a mask x c hx hc => ⟨reply_early hx, reply_older hx hc, fun h htag => ⟨fun hk => ?_, fun hk hgot hmask => ?_⟩,
    fun hord hk q hq hcl v hv hb => ?_⟩
  · exact reply_acknowledges hx hc h htag (by rw [hk]; rfl)
  · exact reply_delivers hx hc h htag (by rw [hk]; rfl) hgot hmask
  · exact replyTurn_behind_inval (by rw [Acc.isAcquire, hord, hk]; rfl) (by rw [hord]; rfl) hq hcl hv hb

/-! ### DELIVER_INVAL -/

/-- The state after DELIVER_INVAL of the oldest invalidation v of a cluster, before which rest is queued (R159, R189). -/
def afterInval (s : State) (cl : Nat) (v : Inval) (rest : List Inval) : State :=
  { s with
    blocks := s.blocks.filter fun b => !(b.cluster == cl && b.asid == v.asid && decide (b.base < 64 * v.line + 64)
      && decide (64 * v.line < b.base + b.bytes.length))
    invals := if rest.isEmpty then s.invals.filter (·.1 != cl) else (cl, rest) :: s.invals.filter (·.1 != cl) }

theorem deliverInval_eq {s : State} {cl : Nat} {v : Inval} {rest : List Inval} (h : s.invals.find? (·.1 == cl) = some (cl, v :: rest)) :
    exec (.deliverInval cl) s = .next (afterAll (afterInval s cl v rest)) := by
  simp [exec, execDeliverInval, h, afterInval]

theorem deliverInvalidation : Rules.DeliverInvalidation := by
  refine fun s cl v rest h => ⟨afterInval s cl v rest, deliverInval_eq h, fun b hb hhit => ?_, fun b hb hcl => ?_, ?_, rfl, rfl, rfl⟩
  · obtain ⟨hcl, ha, h1, h2⟩ := hhit
    simp [afterInval, hcl, ha, h1, h2] at hb
  · simp [afterInval, hb, hcl]
  · cases rest with
    | nil => simp [afterInval]
    | cons w r => simp [afterInval]

end Sys2Proof.Machine

namespace Sys2Proof.Proofs
open Sys2Proof.Machine

/-- Settles O38: a pin that has stood for ORD.PINTO ends its release; a fence that is met lets its fibre go on. -/
theorem pinAndFenceMoves : Obligations.PinAndFenceMoves := by
  refine fun s => ⟨fun rel p k hp hrel hne hk hdue => pinTimeout_ends hp hrel hne hk hdue, fun c f eng mx sc cov hc hf hres hfence hdone => ?_⟩
  have hgo := fenceDone_eq hc (fibre?_of_cell hc hf) hres hdone hfence
  exact ⟨fun hmet => hgo.trans (if_neg (by simp [hmet])), fun hmet => hgo.trans (if_pos hmet)⟩

/-- Settles O37: the answers in their turn, and the invalidation delivered. -/
theorem replies : Obligations.Replies := ⟨replyMove, deliverInvalidation⟩

end Sys2Proof.Proofs

end

section
-- One proof after the other: the text is one process, and every proof in flight holds a thread of its own.
set_option Elab.async false

/-! SUPPORT. Proofs about ARRIVE: its turn, what a vault and any home take, what an STI raises, what an atomic writes. -/

namespace Sys2Proof.Machine

/-! ### ARRIVE in its turn -/

/-- A request is a load, a store or an atomic (R189). -/
theorem isAtomic_eq (k : AccKind) : k.isAtomic = (k != .load && !k.isStore) := by cases k <;> rfl

section
variable {s : State} {a mask blk : Nat} {x : Acc} (hx : s.acc? a = some x)
include hx

theorem arrive_early (h : arriveTurn s x = false) : exec (.arrive a mask blk) s = .next s := by simp [exec, execArrive, hx, h]
theorem arrive_eq (h : arriveTurn s x = true) : exec (.arrive a mask blk) s =
    let u := acquirePoints (passPort s x) x
    .next (afterAll (if x.kind.isAtomic then arriveAtomic u x else if x.kind.isStore then arriveStore u x mask else arriveLoad u x mask blk)) := by
  simp [exec, execArrive, hx, h]

end

theorem arriveMove : Rules.ArriveMove := by
  refine fun s a mask blk x hx => ⟨arrive_early hx, fun h => ⟨fun hk => ?_, fun hk => ?_, fun hl hk => ?_⟩⟩
  · rw [arrive_eq hx h]
    simp [hk, isAtomic_eq, AccKind.isStore]
  · rw [arrive_eq hx h]
    simp [hk, isAtomic_eq]
  · rw [arrive_eq hx h]
    simp [hl, hk, isAtomic_eq]

/-! ### Vaults -/

/-- The bytes from va on, n of them, stand in vault v (R154). -/
structure InVault (v va n : Nat) : Prop where
  exists_ : v < 192
  low : vaultBase + v * vaultSize ≤ va
  high : va + n ≤ vaultBase + (v + 1) * vaultSize

theorem InVault.window {v va n : Nat} (h : InVault v va n) (hn : 0 < n) : window va = some (.vault v) := by
  obtain ⟨hv, hlow, hhigh⟩ := h
  obtain ⟨o, rfl⟩ := Nat.exists_eq_add_of_le hlow
  exact window_vault hv (by rw [Nat.add_one_mul] at hhigh; omega)

theorem InVault.tail {v va n : Nat} (h : InVault v va (n + 1)) : InVault v (va + 1) n :=
  ⟨h.exists_, h.low.trans (Nat.le_succ va), by have := h.high; omega⟩

theorem InVault.vaultBase_le {v va n : Nat} (h : InVault v va n) : vaultBase ≤ va := (Nat.le_add_right ..).trans h.low

section
variable {s : State} {who : Who} {v : Nat} (hv : s.hasVault who.part v = true)
include hv

theorem spot_vault {va n : Nat} (h : InVault v va n) (hn : 0 < n) (a : Access) : spot s who va a = .ok .vault := by
  simp [spot, h.window hn, hv]

/-- Bytes of a vault are read where they stand. -/
theorem homeRead_vault (a : Access) : ∀ {n va : Nat}, InVault v va n → homeRead s who va a n = .ok (bytesAt s.mem va n)
  | 0, _, _ => rfl
  | n + 1, va, h => by
    rw [homeRead, homeByte, spot_vault hv h n.succ_pos, Except.map, homeRead_vault a h.tail]
    rfl

theorem homeNat_vault {n va : Nat} (h : InVault v va n) : homeNat s who va n = .ok (natOfBytes (bytesAt s.mem va n)) := by
  rw [homeNat, homeRead_vault hv .read h]
  rfl

end

/-- Bytes written to a vault land where they stand. -/
theorem homePut_vault {who : Who} {v : Nat} : ∀ {bs : List Byte} {s : State} {va : Nat}, s.hasVault who.part v = true → InVault v va bs.length →
    homePut s who va bs = ({ s with mem := putBytes s.mem va bs }, none)
  | [], _, _, _, _ => rfl
  | b :: r, s, va, hv, h => by
    have hb : homePutByte s who va b = .ok { s with mem := bput s.mem va b } := by
      rw [homePutByte, spot_vault hv h r.length.succ_pos]
      rfl
    simp only [homePut, hb]
    exact homePut_vault (s := { s with mem := bput s.mem va b }) hv h.tail

/-- A write at a home whose bytes all land, which invalidations follow. -/
theorem homeWrite_of_homePut {s u : State} {who : Who} {but : Option Nat} {va : Nat} {bs : List Byte} (h : homePut s who va bs = (u, none)) :
    ∃ t, homeWrite s who but va bs = .ok t ∧ t.mem = u.mem := by
  unfold homeWrite
  rw [h]
  dsimp only
  split
  · exact ⟨_, rfl, invalidate_mem ..⟩
  · exact ⟨_, rfl, (foldl_keeps (fun s l => invalidate_mem s ..) _ _).trans (invalidate_mem ..)⟩

theorem homeWrite_vault {s : State} {who : Who} {but : Option Nat} {v va : Nat} {bs : List Byte} (hv : s.hasVault who.part v = true)
    (h : InVault v va bs.length) : ∃ t, homeWrite s who but va bs = .ok t ∧ t.mem = putBytes s.mem va bs :=
  homeWrite_of_homePut (homePut_vault hv h)

/-! ### What a request's ARRIVE leaves to its home's write -/

/-- A fold of steps that change L1 blocks alone changes L1 blocks alone. -/
theorem foldl_blocks {α : Type} {op : State → α → State} (h : ∀ s a, ∃ b, op s a = { s with blocks := b }) :
    ∀ (l : List α) (s : State), ∃ b, l.foldl op s = { s with blocks := b }
  | [], s => ⟨s.blocks, rfl⟩
  | a :: r, s => by
    obtain ⟨b, hb⟩ := h s a
    obtain ⟨b', hb'⟩ := foldl_blocks h r { s with blocks := b }
    exact ⟨b', by rw [List.foldl_cons, hb, hb']⟩

/-- A write that settles in its cluster's L1 changes blocks alone (R191). -/
theorem settleBlocks_blocks (s : State) (id cluster : Nat) (tag : Option Nat) (a : Nat) (bs : List Byte) :
    ∃ b, settleBlocks s id cluster tag a bs = { s with blocks := b } := by
  obtain ⟨b, hb⟩ := foldl_blocks (op := fun s q => Acc.coverBlocks q cluster tag s) (fun _ _ => ⟨_, rfl⟩)
    (s.accs.filter fun q => q.id != id && q.kind.isStore && q.inFlight && q.cluster == cluster && tagOf s q.part q.fn q.va == tag
      && decide (q.va < a + bs.length) && decide (a < q.va + q.len)) (writeBlocks s cluster tag a bs)
  exact ⟨b, hb⟩

theorem tentative_plain {s : State} {x : Acc} {c : Cell} (hc : s.cell? x.owner.cell = some c) (hd : c.drafts = []) : tentative s x = false := by
  simp [tentative, hc, inDraft, hd]

theorem touchLine_cell? (s : State) (x : Acc) (n : Nat) : (touchLine s x).cell? n = s.cell? n := by
  unfold touchLine
  split <;> rfl

theorem touchLine_vault {s : State} {x : Acc} (h : vaultBase ≤ x.va) : touchLine s x = s := by
  simp [touchLine, Nat.not_lt.2 h]

/-- Bytes of a cell without drafts go to their homes (R184). -/
theorem landBytes_plain {s : State} {n : Nat} {c : Cell} (hc : s.cell? n = some c) (hd : c.drafts = []) (who : Who) (but : Option Nat) (va : Nat)
    (bs : List Byte) : landBytes s n who but va bs = homeWrite s who but va bs := by
  simp [landBytes, hc, hd]

/-- The one word of an access of 4 bytes (R188). -/
theorem wordsNow_single {x : Acc} (hlen : x.len = 4) (hgot : x.got = 0) : wordsNow x 1 = [0] := by
  simp [wordsNow, wordCount, hlen, hgot, List.range_succ]

/-- With its one word the access has arrived. -/
theorem tookWords_single {x : Acc} (hlen : x.len = 4) (hgot : x.got = 0) (s : State) (r : List Byte) : tookWords s x [0] r =
    s.setAcc x.id fun a => { a with result := r, got := 0, invBefore := s.next, stage := .arrived } := by
  simp [tookWords, takenWith, wordCount, hlen, hgot]

/-! ### The ARRIVE of a load -/

theorem overlay_plain {c : Cell} (hd : c.drafts = []) (va : Nat) (bs : List Byte) : overlay c va bs = bs := by
  simp [overlay, hd]

theorem ownRefused_plain {s : State} {r : FRef} (h : s.refusedStores r = []) (before va : Nat) (bs : List Byte) :
    ownRefused s r before va bs = bs := by
  simp [ownRefused, refusedByte, h, latest]

/-- What a cell that holds nothing back reads at a home is what stands there (R73, R185, R266). -/
theorem ownView_plain {s : State} {x : Acc} {c : Cell} (hc : s.cell? x.owner.cell = some c) (hd : c.drafts = []) (hheld : c.held = [])
    (hr : s.refusedStores x.owner = []) (va : Nat) (bs : List Byte) : ownView s x va bs = bs := by
  simp [ownView, hc, overlay_plain hd, hheld, ownRefused_plain hr]

/-- A patch over all of some bytes. -/
theorem patchBytes_all {l bs : List Byte} (h : bs.length = l.length) (a : Nat) : patchBytes a l a bs = bs := by
  refine List.ext_getElem (by simp [patchBytes, h]) fun i h1 h2 => ?_
  simp [patchBytes, h2]

/-- A fill of L1 leaves the accesses as they are (R159). -/
theorem fillBlock_accs (s : State) (x : Acc) (blk : Nat) : (fillBlock s x blk).accs = s.accs := by
  unfold fillBlock
  split
  · rfl
  · dsimp only
    split
    · rfl
    · exact foldl_keeps (fun s _ => touchHome_keeps (p := State.accs) (fun _ _ _ _ => rfl) s ..) _ _

section
variable {s : State} {x : Acc} {blk : Nat} (hlen : x.len = 4) (hgot : x.got = 0)
include hlen hgot

theorem arriveLoad_refused {a : Nat} {e : Cause} (h : homeRead s x.who x.va .read 4 = .error (a, e)) : arriveLoad s x 1 blk = refuseAcc s x e := by
  simp [arriveLoad, wordsNow_single hlen hgot, hlen, h, Except.bind, Except.map]

theorem arriveLoad_takes {c : Cell} {bs : List Byte} (hc : s.cell? x.owner.cell = some c) (hd : c.drafts = []) (hheld : c.held = [])
    (hr : s.refusedStores x.owner = []) (hres : x.result = []) (h : homeRead s x.who x.va .read 4 = .ok bs) (hbs : bs.length = 4) :
    arriveLoad s x 1 blk = fillBlock ((touchLine s x).setAcc x.id fun a =>
      { a with result := bs, got := 0, invBefore := (touchLine s x).next, stage := .arrived }) x blk := by
  have hpatch : patchBytes 0 [0#8, 0#8, 0#8, 0#8] 0 bs = bs := patchBytes_all hbs 0
  simp [arriveLoad, wordsNow_single hlen hgot, hlen, h, Except.bind, Except.map, hres, ownView_plain hc hd hheld hr, hpatch,
    tookWords_single hlen hgot]

end

/-! ### The ARRIVE of a store -/

/-- The state t of a write at its home, with some blocks, once the store x has arrived (R188). -/
def storeArrived (t : State) (x : Acc) (blocks : List Block) : State :=
  { t with blocks := blocks }.setAcc x.id fun a => { a with result := [], got := 0, invBefore := t.next, stage := .arrived }

section
variable {s : State} {x : Acc} {c : Cell} (hlen : x.len = 4) (hgot : x.got = 0) (hdata : x.data.length = 4)
  (hc : s.cell? x.owner.cell = some c) (hd : c.drafts = [])
include hlen hgot hdata hc hd

theorem arriveStore_refused {a : Nat} {e : Cause} (h : homeWrite (touchLine s x) x.who (some x.cluster) x.va x.data = .error (a, e)) :
    arriveStore s x 1 = refuseAcc s x e := by
  have hland := landBytes_plain ((touchLine_cell? s x _).trans hc) hd x.who (some x.cluster) x.va x.data
  have htake : x.data.take 4 = x.data := List.take_of_length_le hdata.le
  simp [arriveStore, wordsNow_single hlen hgot, htake, hland, h, Except.bind, Except.map]

/-- What a store's one word leaves where its home takes it: the write t, blocks of its cluster, the access arrived, and for an STI the
raises of its subscribers (R74, R188). -/
theorem arriveStore_lands {t : State} (h : homeWrite (touchLine s x) x.who (some x.cluster) x.va x.data = .ok t) :
    ∃ blocks, arriveStore s x 1 = freePins (if x.kind = .sti then
        stiRaise (storeArrived t x blocks) x.part x.fn x.va (BitVec.ofNat 32 (natOfBytes x.data))
          (BitVec.ofNat 32 (((homeNat s x.who x.va 4).toOption).getD 0))
      else storeArrived t x blocks) := by
  have hland := landBytes_plain ((touchLine_cell? s x _).trans hc) hd x.who (some x.cluster) x.va x.data
  have htake : x.data.take 4 = x.data := List.take_of_length_le hdata.le
  have hcells : t.cell? x.owner.cell = some c := by
    rw [homeWrite_keeps (p := fun s => s.cell? x.owner.cell) (fun _ _ _ _ _ => rfl) h, touchLine_cell?, hc]
  obtain ⟨blocks, hblocks⟩ := settleBlocks_blocks t x.id x.cluster (accTag t x) x.va x.data
  refine ⟨blocks, ?_⟩
  by_cases hk : x.kind = .sti <;> simp [arriveStore, hk, wordsNow_single hlen hgot, htake, hland, h, Except.bind, Except.map,
    tentative_plain hcells hd, tookWords_single hlen hgot, hblocks, storeArrived]

end

/-! ### What an STI raises -/

/-- What an STI raises is told by the launches alone. -/
theorem stiRaise_launches {s t : State} (h : s.launches = t.launches) (part fn addr : Nat) (new old : Word) :
    (stiRaise s part fn addr new old).launches = (stiRaise t part fn addr new old).launches := by
  simp only [stiRaise, h]

theorem stiRaise_single {s : State} {l : Launch} {r : Region} {part fn addr i : Nat} {w : Word} (new old : Word) (hs : s.launches = [l])
    (hpart : l.part = part) (hfn : l.fn = fn) (hk : l.kind = .plate) (hin : l.installed = true) (hr : l.regions = [r]) (hlo : r.base ≤ addr)
    (hhi : addr < r.base + r.len) (hsubs : r.subs = [(i, w)]) : (stiRaise s part fn addr new old).launches =
      [checkConverged (l.setEntry i fun e => e.raise (share w (change new old)))] := by
  simp [stiRaise, hs, hpart, hfn, hk, hin, hr, hlo, hhi, hsubs]

/-- A launch no region of which holds the word is as it was. -/
theorem stiRaise_none {s : State} {part fn addr : Nat} (new old : Word)
    (h : ∀ l ∈ s.launches, l.part ≠ part ∨ l.fn ≠ fn ∨ l.kind ≠ .plate ∨ l.installed = false
      ∨ ∀ r ∈ l.regions, addr < r.base ∨ r.base + r.len ≤ addr) :
    stiRaise s part fn addr new old = s := by
  have hmap : (stiRaise s part fn addr new old).launches = s.launches := by
    refine (List.map_congr_left fun l hl => ?_).trans (List.map_id _)
    split
    next hplate =>
      obtain ⟨hpart, hfn, hk, hin⟩ := hplate
      have hregions : (l.regions.filter fun r => decide (r.base ≤ addr) && decide (addr < r.base + r.len)) = [] := by
        refine List.filter_eq_nil_iff.2 fun r hr => ?_
        rcases h l hl with h | h | h | h | h
        · exact absurd hpart h
        · exact absurd hfn h
        · exact absurd hk h
        · exact absurd hin (by simp [h])
        · simpa [imp_iff_not_or, Nat.not_le] using h r hr
      rw [hregions]
      rfl
    next => rfl
  exact congrArg (fun l => { s with launches := l }) hmap

theorem stiRaises : Rules.StiRaises := fun _ _ _ _ new old =>
  ⟨fun _ _ _ hs hpart hfn hk hin hr hlo hhi _ _ hsubs => stiRaise_single new old hs hpart hfn hk hin hr hlo hhi hsubs, stiRaise_none new old⟩

/-! ### Atomics -/

theorem atomicNew_eq (x : Acc) (old : Nat) : atomicNew x old = Rules.newValue x.kind old (natOfBytes x.data) := by
  unfold atomicNew Rules.newValue
  cases x.kind <;> rfl

/-- An access once the request x has performed its operation on old (R215): a member of x's group has arrived with its part of the reply. -/
def answered (x : Acc) (before old : Nat) (a : Acc) : Acc :=
  match x.members.find? (·.1 == a.id) with
  | some m => { a with stage := .arrived, got := 0, invBefore := before, result := bytesOfNat x.len (splitReply x old m.2) }
  | none => a

theorem splitReply_nil (x : Acc) (old : Nat) : splitReply x old [] = old := by
  unfold splitReply
  split
  · rfl
  · simp

theorem answered_alone {x a : Acc} {before old : Nat} (hm : x.members = [(x.id, [])]) (ha : (answered x before old a).id = x.id) :
    (answered x before old a).stage = .arrived ∧ (answered x before old a).result = bytesOfNat x.len old := by
  by_cases h : x.id = a.id
  · simp [answered, hm, h, splitReply_nil]
  · simp [answered, hm, h] at ha
    exact absurd ha.symm h

section
variable {s : State} {x : Acc}

theorem arriveAtomic_unread {a : Nat} {e : Cause} (h : homeNat s x.who x.va x.len = .error (a, e)) : arriveAtomic s x = refuseAcc s x e := by
  simp [arriveAtomic, h]

variable {old : Nat} (hold : homeNat s x.who x.va x.len = .ok old)
include hold

theorem arriveAtomic_refused {n a : Nat} {e : Cause} (hn : Rules.newValue x.kind old (natOfBytes x.data) = some n)
    (h : homeWrite (touchLine s x) x.who (some x.cluster) x.va (bytesOfNat x.len n) = .error (a, e)) :
    arriveAtomic s x = refuseAcc (touchLine s x) x e := by
  simp [arriveAtomic, hold, atomicNew_eq, hn, h, Except.map]

/-- What an atomic leaves where its home takes what it writes (R207, R215). -/
theorem arriveAtomic_lands {n : Nat} {t : State} (hn : Rules.newValue x.kind old (natOfBytes x.data) = some n)
    (h : homeWrite (touchLine s x) x.who (some x.cluster) x.va (bytesOfNat x.len n) = .ok t) :
    ∃ blocks, arriveAtomic s x = freePins { t with blocks := blocks, accs := t.accs.map (answered x s.next old) } := by
  obtain ⟨blocks, hblocks⟩ := foldl_blocks (fun s c => settleBlocks_blocks s x.id c (accTag s x) x.va (bytesOfNat x.len n))
    ((t.accs.filter fun a => x.members.any (·.1 == a.id)).map (·.cluster)).eraseDups t
  refine ⟨blocks, ?_⟩
  simp only [arriveAtomic, hold, atomicNew_eq, hn, h, Except.map, hblocks]
  rfl

/-- What one leaves that writes nothing: a CAS that fails (R209). -/
theorem arriveAtomic_keeps {p : Spot} (hn : Rules.newValue x.kind old (natOfBytes x.data) = none)
    (hs : spot (touchLine s x) x.who x.va .write = .ok p) :
    arriveAtomic s x = freePins { touchLine s x with accs := (touchLine s x).accs.map (answered x s.next old) } := by
  simp only [arriveAtomic, hold, atomicNew_eq, hn, hs]
  rfl

end

/-! ### ARRIVE at a vault and at any home -/

/-- An access found under a number that setAcc has changed is a changed one. -/
theorem mem_setAcc {s : State} {n : Nat} {f : Acc → Acc} {y : Acc} (hy : y ∈ (s.setAcc n f).accs) (hid : y.id = n) : ∃ a, y = f a := by
  obtain ⟨a, -, rfl⟩ := List.mem_map.1 hy
  by_cases h : a.id = n
  · exact ⟨a, if_pos h⟩
  · rw [if_neg h] at hid
    exact absurd hid h

/-- The raises of an STI and the pins freed change launches and pins alone. -/
theorem freePins_raise_keeps {β : Type} {p : State → β} (hp : ∀ s l q, p { s with launches := l, pins := q } = p s) (raises : Prop)
    [Decidable raises] (s : State) (part fn addr : Nat) (new old : Word) :
    p (freePins (if raises then stiRaise s part fn addr new old else s)) = p s := by
  split
  · exact hp s _ _
  · exact hp s s.launches _

section
variable {s : State} {x : Acc} {c : Cell} {v : Nat} (hwf : Memory.wf s.mem = true) (hvault : s.hasVault x.part v = true)
  (hin : InVault v x.va x.len)
include hwf hvault hin

/-- A store's one word at a vault: its bytes stand there, and an STI raises the subscribers of what it changed (R74, R189). -/
theorem arriveStore_vault (hc : s.cell? x.owner.cell = some c) (hd : c.drafts = []) (hlen : x.len = 4) (hgot : x.got = 0)
    (hdata : x.data.length = 4) :
    (∀ j, bget (arriveStore s x 1).mem j = if x.va ≤ j ∧ j < x.va + 4 then x.data.getD (j - x.va) 0 else bget s.mem j)
    ∧ (arriveStore s x 1).launches = if x.kind = .sti then
        (stiRaise s x.part x.fn x.va (BitVec.ofNat 32 (natOfBytes x.data)) (BitVec.ofNat 32 (natOfBytes (bytesAt s.mem x.va x.len)))).launches
      else s.launches := by
  rw [hlen] at hin
  obtain ⟨t, ht, hmem⟩ := homeWrite_vault (who := x.who) (but := some x.cluster) hvault (hdata.symm ▸ hin : InVault v x.va x.data.length)
  have hlaunches : t.launches = s.launches := homeWrite_keeps (p := State.launches) (fun _ _ _ _ _ => rfl) ht
  rw [← touchLine_vault (s := s) (x := x) hin.vaultBase_le] at ht
  obtain ⟨blocks, hb⟩ := arriveStore_lands hlen hgot hdata hc hd ht
  rw [homeNat_vault hvault hin] at hb
  refine ⟨fun j => ?_, ?_⟩
  · rw [hb, freePins_raise_keeps (p := State.mem) (fun _ _ _ => rfl), ← hdata, ← bget_putBytes x.data x.va j hwf, ← hmem]
    rfl
  · rw [hb, hlen]
    split
    · exact stiRaise_launches (s := storeArrived t x blocks) hlaunches ..
    · exact hlaunches

/-- An atomic at a vault writes there what its operation makes of the old value, which it takes (R207, R209). -/
theorem arriveAtomic_vault (hlen : 0 < x.len) (hm : x.members = [(x.id, [])]) :
    (∀ j, bget (arriveAtomic s x).mem j = match Rules.newValue x.kind (natOfBytes (bytesAt s.mem x.va x.len)) (natOfBytes x.data) with
      | some n => if x.va ≤ j ∧ j < x.va + x.len then (bytesOfNat x.len n).getD (j - x.va) 0 else bget s.mem j
      | none => bget s.mem j)
    ∧ ∀ y ∈ (arriveAtomic s x).accs, y.id = x.id →
      y.stage = .arrived ∧ y.result = bytesOfNat x.len (natOfBytes (bytesAt s.mem x.va x.len)) := by
  have htouch : touchLine s x = s := touchLine_vault hin.vaultBase_le
  have hold := homeNat_vault (who := x.who) hvault hin
  generalize natOfBytes (bytesAt s.mem x.va x.len) = old at hold
  have hanswer {l : List Acc} : ∀ y ∈ l.map (answered x s.next old), y.id = x.id → y.stage = .arrived ∧ y.result = bytesOfNat x.len old := by
    intro y hy hid
    obtain ⟨a, -, rfl⟩ := List.mem_map.1 hy
    exact answered_alone hm hid
  cases hn : Rules.newValue x.kind old (natOfBytes x.data) with
  | none =>
    rw [arriveAtomic_keeps hold hn (p := .vault) (by rw [htouch]; exact spot_vault hvault hin hlen .write), htouch]
    exact ⟨fun _ => rfl, hanswer⟩
  | some n =>
    have hbytes : (bytesOfNat x.len n).length = x.len := bytesOfNat_length x.len n
    obtain ⟨t, ht, hmem⟩ := homeWrite_vault (who := x.who) (but := some x.cluster) hvault
      (hbytes.symm ▸ hin : InVault v x.va (bytesOfNat x.len n).length)
    rw [← htouch] at ht
    obtain ⟨blocks, hb⟩ := arriveAtomic_lands hold hn ht
    rw [hb]
    refine ⟨fun j => ?_, hanswer⟩
    have hput := bget_putBytes (bytesOfNat x.len n) x.va j hwf
    rwa [hbytes, ← hmem] at hput

end

theorem arriveAtVault : Rules.ArriveAtVault := by
  intro s x c v hwf hc hd hv hvault hlow hhigh hlen _
  have hin : InVault v x.va x.len := ⟨hv, hlow, hhigh⟩
  exact ⟨fun _ hl4 hdata hgot => arriveStore_vault hwf hvault hin hc hd hl4 hgot hdata,
    fun _ hm => arriveAtomic_vault hwf hvault hin (by omega) hm⟩

theorem arriveAtHome : Rules.ArriveAtHome := by
  intro s x c blk hc hd hheld hr
  refine ⟨fun _ hlen hgot hres => ⟨fun a e h => arriveLoad_refused hlen hgot h, fun bs h hbs y hy hid => ?_⟩,
    fun _ hlen hgot hdata => ⟨fun a e h => arriveStore_refused hlen hgot hdata hc hd h, fun t ht => ?_⟩,
    fun _ _ => ⟨fun a e h => arriveAtomic_unread h, fun old hold n hn => ⟨fun a e h => arriveAtomic_refused hold hn h, fun t ht => ?_⟩⟩⟩
  · rw [arriveLoad_takes hlen hgot hc hd hheld hr hres h hbs, fillBlock_accs] at hy
    obtain ⟨a, rfl⟩ := mem_setAcc hy hid
    exact ⟨rfl, rfl⟩
  · obtain ⟨blocks, hb⟩ := arriveStore_lands hlen hgot hdata hc hd ht
    rw [hb, freePins_raise_keeps (p := State.mem) fun _ _ _ => rfl, freePins_raise_keeps (p := State.lines) fun _ _ _ => rfl,
      freePins_raise_keeps (p := State.accs) fun _ _ _ => rfl]
    refine ⟨rfl, rfl, fun y hy hid => ?_⟩
    obtain ⟨a, rfl⟩ := mem_setAcc hy hid
    rfl
  · obtain ⟨blocks, hb⟩ := arriveAtomic_lands hold hn ht
    rw [hb]
    exact ⟨rfl, rfl⟩

/-! ### What an atomic writes -/

theorem atomicOperations : Rules.AtomicOperations := by
  refine ⟨fun a b => ?_, fun a b => ?_, fun a b => ?_⟩
  · simp [oper]
  · simp [oper]
  · simp only [oper, BitVec.ofNat_toNat, BitVec.setWidth_eq, BitVec.toNat_add, BitVec.toNat_and, BitVec.toNat_or, BitVec.toNat_xor, true_and]
    refine ⟨?_, ?_⟩
    · rw [min_def]
      split <;> simp
    · rw [max_def]
      split <;> simp

end Sys2Proof.Machine

namespace Sys2Proof.Proofs
open Sys2Proof.Machine

/-- Settles O36: what is left to the write at the home is named by its result, and at a vault that write is the bytes in their places. -/
theorem arrivals : Obligations.Arrivals := ⟨arriveMove, arriveAtVault, arriveAtHome, stiRaises, atomicOperations⟩

end Sys2Proof.Proofs

end

section
-- One proof after the other: the text is one process, and every proof in flight holds a thread of its own.
set_option Elab.async false

/-! SUPPORT. Proofs about the cycle of an engine: ENGINE_ACQ, malformed commands, ENGINE_REL, ENGINE_COMPLETION. -/

namespace Sys2Proof.Machine

/-! ### ENGINE_ACQ -/

section
variable {s : State} {ch : Nat} {v : ChainView} (hv : chainView s ch = some v)
include hv

/-- A busy engine and an empty chain stay (R248). -/
theorem engineAcq_stays (h : (s.engine ch).stage ≠ .idle ∨ v.hdr.head = v.hdr.tail) : exec (.engineAcq ch) s = .next s := by
  simp only [exec, execEngineAcq, hv]
  exact if_pos (by simpa using h)

section
variable (hidle : (s.engine ch).stage = .idle) (hne : v.hdr.head ≠ v.hdr.tail)
include hidle hne

theorem engineAcq_unreadable {e : Nat × Cause} (hcmd : v.cmd = .error e) : exec (.engineAcq ch) s = Rules.performed s ch 2 0 := by
  simp [exec, execEngineAcq, hv, hidle, hne, hcmd, Rules.performed]

/-- A command that can be read is taken, unless its issuer stood on a retired cluster (R248, R278). -/
theorem engineAcq_takes {c : Cmd} (hcmd : v.cmd = .ok c) : exec (.engineAcq ch) s = .next (s.setEngine
    { queue := ch
      stage := if v.reg.posted.any fun x => x.1 == (v.hdr.head + 1) % 2 ^ 32 && x.2.2 == 0 then .performed 4 0 else .acquired }) := by
  simp [exec, execEngineAcq, hv, hidle, hne, hcmd]

end
end

theorem engineTakes : Rules.EngineTakes := by
  refine fun s ch v hv => ⟨engineAcq_stays hv, fun hidle hne => ⟨fun e => engineAcq_unreadable hv hidle hne, fun c hcmd => ?_⟩⟩
  rw [engineAcq_takes hv hidle hne hcmd]
  refine ⟨fun h => ?_, fun ⟨x, hx, hseq, hlost⟩ => ?_⟩
  · rw [if_neg]
    rw [List.any_eq_true]
    rintro ⟨x, hx, hlost⟩
    rw [Bool.and_eq_true, beq_iff_eq, beq_iff_eq] at hlost
    exact h x hx hlost.1 hlost.2
  · rw [if_pos (List.any_eq_true.2 ⟨x, hx, by simp [hseq, hlost]⟩)]
    rfl

/-! ### Malformed commands -/

/-- A malformed entry that is the event's own ends with STATUS 1 before the command acts (R246). -/
theorem runCmd_malformed {s : State} {ch kind : Nat} {v : ChainView} {c : Cmd} {act : State → QueueReg → Cmd → Option (State × Nat × Nat)}
    (hv : chainView s ch = some v) (hcmd : v.cmd = .ok c) (hstage : (s.engine ch).stage = .acquired) (hbad : malformed v.hdr.engine c = true)
    (hmine : c.kind = kind ∨ kind = 0 ∧ 6 < c.kind) : runCmd kind ch act s = Rules.performed s ch 1 0 := by
  have hm : (c.kind == kind || (kind == 0 && decide (6 < c.kind))) = true := by simpa using hmine
  simp only [runCmd, hv, hstage, hcmd, hm, hbad, Bool.not_true, Bool.false_eq_true, if_false, if_true, Rules.performed]

theorem malformedCommand : Rules.MalformedCommand := by
  intro s ch v c hv hcmd hstage hbad
  have hends {kind : Nat} (act : State → QueueReg → Cmd → Option (State × Nat × Nat)) (hmine : c.kind = kind ∨ kind = 0 ∧ 6 < c.kind) :
      runCmd kind ch act s = Rules.performed s ch 1 0 := runCmd_malformed hv hcmd hstage hbad hmine
  refine ⟨fun hk => ?_, fun hk => ?_, fun hk => ?_, fun hk => ?_, fun hk => ?_, fun hk others => ?_, fun hk => ?_⟩
  · simp only [exec, execEngineNop, hends _ (hk.imp id fun h => ⟨rfl, h⟩)]
  · simp only [exec, execEngineCopy, hends _ (.inl hk)]
  · simp only [exec, execEngineMcast, hends _ (.inl hk)]
  · simp only [exec, execEngineFill, hends _ (.inl hk)]
  · simp only [exec, execEngineGather, hends _ (.inl hk)]
  · simp [exec, execEngineColl, hv, hstage, hcmd, hk, hbad, Rules.performed]
  · simp only [exec, execEngineSgnl, hends _ (.inl hk)]

/-! ### ENGINE_REL and ENGINE_COMPLETION -/

/-- The state in which ENGINE_COMPLETION has written a command's status into its entry and its chain's header (R248). -/
def statusWritten (s : State) (v : ChainView) (st mask : Nat) : State :=
  let seq := (v.hdr.head + 1) % 2 ^ 32
  let a := devPut (devPut s v.reg (v.slot + 36) (bytesOfNat 1 st ++ bytesOfNat 1 mask)) v.reg (v.reg.addr + 28) (bytesOfNat 4 seq)
  if st = 0 then a else devPut a v.reg (v.reg.addr + 32) (bytesOfNat 4 seq ++ bytesOfNat 1 st ++ bytesOfNat 1 mask)
/-- The rest of ENGINE_COMPLETION: the waiters are told, HEAD moves on, the engine is idle (R248). -/
def commandDone (a : State) (ch : Nat) (v : ChainView) (st : Nat) : State :=
  let seq := (v.hdr.head + 1) % 2 ^ 32
  afterAll (((devPut (wakeEwaits a ch (BitVec.ofNat 32 seq) (st != 0)) v.reg (v.reg.addr + 24) (bytesOfNat 4 seq)).setQueue ch
    fun q => { q with posted := q.posted.filter (·.1 != seq) }).setEngine { queue := ch })

section
variable {s : State} {ch : Nat} {v : ChainView} {c : Cmd} {st mask : Nat} (hv : chainView s ch = some v) (hcmd : v.cmd = .ok c)
include hv hcmd

theorem engineRel_releases (hstage : (s.engine ch).stage = .performed st mask) :
    exec (.engineRel ch) s = .next ((if c.rels = 4 then writeBackAll s (s.asid v.reg.part v.reg.fn) else s).setEngine
      { queue := ch, stage := .released st mask }) := by
  simp [exec, execEngineRel, hv, hstage, hcmd]

variable (hstage : (s.engine ch).stage = .released st mask)
include hstage

theorem engineCompletion_silent (hsig : c.sig = 0) :
    exec (.engineCompletion ch) s = .next (commandDone (statusWritten s v st mask) ch v st) := by
  simp [exec, execEngineCompletion, hv, hstage, hcmd, hsig, commandDone, statusWritten]

section
variable (hsig : c.sig ≠ 0) (hw : inWindows c.sig = true) (ha : c.sig % 8 = 0)
include hsig hw ha

theorem engineCompletion_signals (hfree : heldBack s [] v.reg.part v.reg.fn c.sig 8 = false) :
    exec (.engineCompletion ch) s =
      .next (commandDone (addSignal (statusWritten s v st mask) v.reg.cmdWho c.sig (2 ^ 64 - 1)).1 ch v st) := by
  simp [exec, execEngineCompletion, hv, hstage, hcmd, hsig, hw, ha, hfree, commandDone, statusWritten]

theorem engineCompletion_held (hheld : heldBack s [] v.reg.part v.reg.fn c.sig 8 = true) : exec (.engineCompletion ch) s = .next s := by
  simp [exec, execEngineCompletion, hv, hstage, hcmd, hsig, hw, ha, hheld]

end
end

theorem engineEnds : Rules.EngineEnds := fun _ _ _ _ _ _ hv hcmd => ⟨engineRel_releases hv hcmd, fun hstage =>
  ⟨engineCompletion_silent hv hcmd hstage, fun hsig hw ha => ⟨engineCompletion_signals hv hcmd hstage hsig hw ha,
    fun hheld => engineCompletion_held hv hcmd hstage hsig hw ha (Bool.not_eq_false _ ▸ hheld)⟩⟩⟩

end Sys2Proof.Machine

namespace Sys2Proof.Proofs
open Sys2Proof.Machine

/-- Settles O41, event by event. -/
theorem engineCycle : Obligations.EngineCycle := ⟨engineTakes, malformedCommand, engineEnds⟩

end Sys2Proof.Proofs

end

section
-- One proof after the other: the text is one process, and every proof in flight holds a thread of its own.
set_option Elab.async false

/-! SUPPORT. Proofs about the host and Narcy: the report, the vaults, the link, the snoop. -/

namespace Sys2Proof.Machine

/-! ### Vaults, link, report -/

/-- A write by the host of bytes within a vault of the partition lands at the vault's home (R286). -/
theorem hostVaultAccess_lands {s t : State} {p : Partition} {off v : Nat} {bs : List Byte} (hp : s.part? p.id = some p)
    (hv : p.clusters[off / vaultSize]? = some v) (hfit : off % vaultSize + bs.length ≤ vaultSize)
    (hfree : heldBack s [] p.id 64 (vaultBase + v * vaultSize + off % vaultSize) bs.length = false)
    (hw : homeWrite s ⟨p.id, 64, true⟩ none (vaultBase + v * vaultSize + off % vaultSize) bs = .ok t) :
    exec (.hostVaultAccess p.id off (some bs) bs.length) s = .next (afterAll t) := by
  have haddr : hostVaultAddr s p.id off = some (vaultBase + v * vaultSize + off % vaultSize) := by simp [hostVaultAddr, hp, hv]
  simp [exec, execHostVaultAccess, haddr, hfree, hw, Nat.not_lt.2 hfit]

/-! ### HOST_SNOOP -/

/-- Is a slice line one of a line of host memory (R192)? -/
def Line.ofHost (line : Nat) (l : Line) : Bool := l.pa / 64 == line && decide (2 ^ 47 ≤ l.pa)

theorem ofHost_iff {line : Nat} {l : Line} : l.ofHost line = true ↔ l.pa / 64 = line ∧ 2 ^ 47 ≤ l.pa := by simp [Line.ofHost]

/-- The write-backs and invalidations of a snoop (R192). -/
def snooped (s : State) (ls : List Line) : State := ls.foldl (fun s l => invalidate (writeBack s l) none (some l.asid) l.line) s

theorem hostSnoop_eq (line : Nat) (s : State) : exec (.hostSnoop line) s =
    if s.lines.any (fun l => l.ofHost line && s.pins.any fun p => p.asid == some l.asid && p.line == l.line) then .next s
    else .next { snooped s (s.lines.filter (·.ofHost line)) with
      lines := (snooped s (s.lines.filter (·.ofHost line))).lines.filter fun l => !l.ofHost line } := rfl

/-- A snoop changes memory, lines, page counts and invalidations alone. -/
theorem snooped_keeps {β : Type} {p : State → β} (hp : ∀ s m l h q n, p { s with mem := m, lines := l, hot := h, invals := q, next := n } = p s)
    (s : State) (ls : List Line) : p (snooped s ls) = p s :=
  foldl_keeps (fun s l => (invalidate_keeps (p := p) (fun s m l q n => hp s m l s.hot q n) _ _ _ _).trans
    (writeBack_keeps (fun s m l h => hp s m l h s.invals s.next) s l)) ls s

theorem countPort_lines (s : State) (part asid va pa : Nat) : (countPort s part asid va pa).lines = s.lines := by
  unfold countPort
  split
  · rfl
  · split <;> rfl

theorem invalidate_lines (s : State) (but asid : Option Nat) (line : Nat) : (invalidate s but asid line).lines = s.lines :=
  foldl_keeps (p := State.lines) (fun _ _ => by rfl) _ s

/-- A line stays at the write-back of a line that is not the same. -/
theorem mem_lines_writeBack {s : State} {l m : Line} (hl : l ∈ s.lines) (hne : ¬ (l.asid = m.asid ∧ l.line = m.line)) :
    l ∈ (writeBack s m).lines := by
  unfold writeBack
  split
  · exact List.mem_map.2 ⟨l, by rwa [countPort_lines], if_neg hne⟩
  · exact hl

theorem mem_lines_snooped {l : Line} : ∀ {ls : List Line} {s : State}, l ∈ s.lines →
    (∀ m ∈ ls, ¬ (l.asid = m.asid ∧ l.line = m.line)) → l ∈ (snooped s ls).lines
  | [], _, hl, _ => hl
  | m :: r, s, hl, hne => by
    refine mem_lines_snooped (ls := r) ?_ fun n hn => hne n (List.mem_cons_of_mem _ hn)
    rw [invalidate_lines]
    exact mem_lines_writeBack hl (hne m List.mem_cons_self)

section
variable {s : State} {line : Nat}

/-- A snoop of a line that no pin holds (R192, R199). -/
theorem hostSnoop_answers
    (hfree : ∀ l ∈ s.lines, l.pa / 64 = line → 2 ^ 47 ≤ l.pa → ∀ p ∈ s.pins, ¬ (p.asid = some l.asid ∧ p.line = l.line)) :
    exec (.hostSnoop line) s = .next { snooped s (s.lines.filter (·.ofHost line)) with
      lines := (snooped s (s.lines.filter (·.ofHost line))).lines.filter fun l => !l.ofHost line } := by
  rw [hostSnoop_eq, if_neg]
  simp only [List.any_eq_true, Bool.and_eq_true, ofHost_iff, beq_iff_eq, not_exists, not_and]
  exact fun l hl hhost p hp ha hline => hfree l hl hhost.1 hhost.2 p hp ⟨ha, hline⟩

/-- One that finds a pinned line receives RETRY (R199). -/
theorem hostSnoop_retries
    (hheld : ∃ l ∈ s.lines, l.pa / 64 = line ∧ 2 ^ 47 ≤ l.pa ∧ ∃ p ∈ s.pins, p.asid = some l.asid ∧ p.line = l.line) :
    exec (.hostSnoop line) s = .next s := by
  obtain ⟨l, hl, hpa, hhost, p, hp, ha, hline⟩ := hheld
  rw [hostSnoop_eq, if_pos]
  exact List.any_eq_true.2 ⟨l, hl, by rw [ofHost_iff.2 ⟨hpa, hhost⟩, Bool.true_and, List.any_eq_true]; exact ⟨p, hp, by simp [ha, hline]⟩⟩

/-- A line of no host memory snooped stays, where its entries in the slices name one physical address. -/
theorem mem_lines_snoop {l : Line} (hl : l ∈ s.lines) (hother : ¬ (l.pa / 64 = line ∧ 2 ^ 47 ≤ l.pa))
    (hone : ∀ m ∈ s.lines, m.asid = l.asid → m.line = l.line → m.pa = l.pa) : l ∈ (snooped s (s.lines.filter (·.ofHost line))).lines := by
  refine mem_lines_snooped hl fun m hm ⟨ha, hline⟩ => hother ?_
  obtain ⟨hmem, hhost⟩ := List.mem_filter.1 hm
  rw [← hone m hmem ha.symm hline.symm]
  exact ofHost_iff.1 hhost

end

theorem hostEvents : Rules.HostEvents := by
  refine fun s => ⟨fun nonce hlen => if_neg (not_not.2 hlen), fun nonce hlen => if_pos hlen, fun part off n => ?_,
    fun p off bs v t hp hv hfit hfree hw => hostVaultAccess_lands hp hv hfit hfree hw, fun rate width cache hr hw => ?_, fun line hfree => ?_,
    fun line hheld => hostSnoop_retries hheld⟩
  · simp [exec, execHostVaultAccess]
  · exact if_pos (by rw [List.contains_iff_mem.2 hr, List.contains_iff_mem.2 hw]; rfl)
  · refine ⟨_, hostSnoop_answers hfree, fun l hl => ?_, fun l hl hother hone => ?_, snooped_keeps (p := State.cells) (fun _ _ _ _ _ _ => rfl) ..,
      snooped_keeps (p := State.accs) (fun _ _ _ _ _ _ => rfl) ..⟩
    · obtain ⟨-, hno⟩ := List.mem_filter.1 hl
      rw [← ofHost_iff]
      simpa using hno
    · refine List.mem_filter.2 ⟨mem_lines_snoop hl hother hone, ?_⟩
      rw [← ofHost_iff] at hother
      simpa using hother

end Sys2Proof.Machine

namespace Sys2Proof.Proofs
open Sys2Proof.Machine

/-- Settles O51: each event once, and of a snoop what its write-backs leave of the lines. -/
theorem hostAndNarcy : Obligations.HostAndNarcy := hostEvents

end Sys2Proof.Proofs

end

section
-- One proof after the other: the text is one process, and every proof in flight holds a thread of its own.
set_option Elab.async false

/-! SUPPORT. Proofs about the step between units: where StepTakesInputs fails. Its clause on the choice of a quadrant names the hatch that
is chosen as the state stands. Where each hatch that could issue is held up, opening a unit ends the quadrant's YIELD first (R27, R371), and
the hatch is chosen among those that are then ready. -/

namespace Sys2Proof.Machine

/-! ### A quadrant whose one ready hatch is held up -/

/-- A cell that is about to fetch from line 0. -/
def pinnedCell : Cell := { id := 1, fibres := [{ idx := 0, pc := 0, hatch := 0, lane := 0 }] }
/-- A later cell of the same quadrant, whose fibre waits in YIELD. -/
def yieldingCell : Cell :=
  { id := 2, locked := true, dispatched := 1
    fibres := [{ idx := 0, pc := 64, hatch := 0, lane := 0, status := .blocked (.yield 60), waitAt := 60 }] }
/-- A pin holds line 0, so that the first cell's fetch is held back. -/
def pinnedState : State :=
  { cells := [pinnedCell, yieldingCell], next := 3
    pins := [{ rel := 1, cell := 1, cluster := 0, part := 0, asid := some 0, line := 0, since := 0, accs := [] }] }

/-- As the state stands, the pinned cell's hatch is the only ready one. -/
theorem chooseHatch_pinnedState : (chooseHatch pinnedState 0).map (·.cell.id) = some 1 := by decide

/-- The unit that opens is the yielding cell's, whose wait ends because that hatch is held up. -/
theorem openUnit_pinnedState : (openUnit pinnedState 0).cur.cell = 2 := by decide

theorem not_stepTakesInputs : ¬ Rules.StepTakesInputs := by
  intro h
  obtain ⟨-, hpowered, -⟩ := h pinnedState
  obtain ⟨-, -, -, hopens, -⟩ := hpowered rfl rfl
  obtain ⟨r, hr, hid⟩ := Option.map_eq_some_iff.1 chooseHatch_pinnedState
  have hcell : (openUnit pinnedState 0).cur.cell = r.cell.id := congrArg Cur.cell (hopens 0 r hr)
  rw [openUnit_pinnedState, hid] at hcell
  exact absurd hcell (by decide)

end Sys2Proof.Machine

namespace Sys2Proof.Proofs
open Sys2Proof.Machine

/-- Refutes O53: on a quadrant (pinnedState) whose one ready hatch is held up at a pinned line while another cell's fibre waits in YIELD,
opening a unit ends that wait and opens the other cell's unit, not the one that the statement names. -/
theorem not_stepChooses : ¬ Obligations.StepChooses := fun h => not_stepTakesInputs h.1

end Sys2Proof.Proofs

end

section
-- One proof after the other: the text is one process, and every proof in flight holds a thread of its own.
set_option Elab.async false

/-! SUPPORT. Proofs about ATOM, CAS, RED, SGNL, STI and FENCE, and where FenceParks fails. It asks what a lane's handler keeps by the record
of the first fibre of its index. Where two fibres of a cell have one index, the record that goes by it once the sources are read is the
reading lane's, whose handler may keep the refused store. -/

namespace Sys2Proof.Machine

/-! ### ATOM, CAS, RED, SGNL, STI -/

/-- A word that is barred in a transaction, reads its sources in every active lane and then acts lane by lane. -/
theorem runs_of_barredLanes {i : Instr} {s : State} {g : Grp} {h : Hints} {ll : Bool} {srcs : List Field} {vals : Fibre → List DWord}
    {op : Grp → State → Fibre → List DWord → State × Option Trap} (hn : NoTx s g ll) (hw : Words s g h ll srcs vals)
    (hexec : exec i s = unit s h ll false fun s g => barredLanes srcs s g fun s g vals => some (foldLanes s g vals (op g))) :
    Runs i s g ll srcs vals op := by
  intro u hu hq
  have hid : (g.read s ll (srcs.map (·.1.name))).cell.id = g.cell.id := (refresh_cell_id ..).trans (refresh_cell_id ..)
  rw [hexec]
  refine unit_arch hw.issues hw.room nofun ((barredLanes_eq hw.reads hn).trans (congrArg some (foldLanes_eq ?_))) hq
  rw [hid]
  exact hu

theorem atomicsComplete : Rules.AtomicsComplete := fun _ _ _ _ _ _ _ _ _ _ _ _ =>
  ⟨fun hn hw => runs_of_barredLanes hn hw rfl, fun hn hw => runs_of_barredLanes hn hw rfl, fun hn hw => runs_of_barredLanes hn hw rfl,
    fun hn hw => runs_of_barredLanes hn hw rfl, fun hn hw => runs_of_barredLanes hn hw rfl⟩

section
variable {s : State} {g : Grp} {c : Cell} {f : Fibre} {a : Nat} {v : Word} (hc : s.cell? g.cell.id = some c)
include hc

theorem stiLane_trap {t : Trap} (ht : checkAddr s c a 4 2 true = some t) : stiLane g a v s f = (s, some t) := by simp [stiLane, hc, ht]

variable (ht : checkAddr s c a 4 2 true = none)
include ht

theorem stiLane_tentative (hd : inDraft c a = true) :
    stiLane g a v s f = (s, some { cause := .illegalAddress, detail := 2, faddr := a }) := by simp [stiLane, hc, ht, hd]
theorem stiLane_parks (hd : inDraft c a = false) {t : Trap} (hdue : parkDue s ⟨c.id, f.idx⟩ .stores = some t) :
    stiLane g a v s f = (s, some t) := by simp [stiLane, hc, ht, hd, hdue]
theorem stiLane_post (hd : inDraft c a = false) (hdue : parkDue s ⟨c.id, f.idx⟩ .stores = none) :
    stiLane g a v s f = (postStore s c f .sti a (bytesOfNat 4 v.toNat) .dev none false, none) := by simp [stiLane, hc, ht, hd, hdue]

end

theorem stiLanes : Rules.StiLanes := by
  refine fun s g c f a v hc => ⟨fun t ht => stiLane_trap hc ht, fun ht => ⟨fun hd => stiLane_tentative hc ht hd, fun hd =>
    ⟨fun t hdue => stiLane_parks hc ht hd hdue, fun hdue hrec => ?_⟩⟩⟩
  rw [stiLane_post hc ht hd hdue, postStore_eq hrec, bytesOfNat_length]
  rfl

/-! ### FENCE -/

theorem readTo_nil_accs (s : State) (g : Grp) (ll : Bool) : (readTo s g ll []).accs = s.accs := by
  rw [readTo, marked, markReads, touchSlots_keeps (p := State.accs) fun _ _ _ _ => rfl]
  rfl
theorem readTo_nil_ops (s : State) (g : Grp) (ll : Bool) : (readTo s g ll []).ops = s.ops := by
  rw [readTo, marked, markReads, touchSlots_keeps (p := State.ops) fun _ _ _ _ => rfl]
  rfl

/-- A fibre has no refused request (R265). -/
def NoneRefused (s : State) (r : FRef) : Prop :=
  (∀ a ∈ s.accs, a.of r = true → ∀ c, a.stage ≠ .refused c) ∧ ∀ o ∈ s.ops, o.fibres.any (·.1 == r) = true → o.refused = none

theorem noneRefused_endPins {s : State} {r : FRef} (h : NoneRefused s r) (p : Pin → Bool) : NoneRefused (endPins s p) r := by
  refine ⟨fun a ha hof c hc => ?_, h.2⟩
  obtain ⟨b, hb, hst, hbo⟩ := mem_endPins_accs ha
  exact h.1 b hb ((hbo r).trans hof) c (hst.trans hc)

/-- FENCE in one lane: what it covers is held, the cell's pins ended before where its scope is wide (R196, R199). -/
def fenceHold (eng mx : Bool) (sc : Scope) (cell : Nat) (first : DWord) (s : State) (l : Fibre) : State :=
  let s := if wide sc then endPins s (·.cell == cell) else s
  s.setFibre ⟨cell, l.idx⟩ fun f => { f with status := .fence eng mx sc (s.coverage ⟨cell, l.idx⟩), since := s.now, waitAt := first }

theorem noneRefused_fenceHold {s : State} {r : FRef} (h : NoneRefused s r) (eng mx : Bool) (sc : Scope) (cell : Nat) (first : DWord) (l : Fibre) :
    NoneRefused (fenceHold eng mx sc cell first s l) r := by
  unfold fenceHold
  split
  · exact noneRefused_endPins h _
  · exact h

theorem fenceHolds : Rules.FenceHolds := by
  intro s g eng mx sc hi hn ha ho hq
  have hreads : Reads s g false [] fun _ => [] := fun _ _ => rfl
  have hid : (g.read s false []).cell.id = g.cell.id := (refresh_cell_id ..).trans (refresh_cell_id ..)
  have hfirst : (g.read s false []).first = g.first := (refresh_first ..).trans (refresh_first ..)
  show ∃ t, execFence eng mx sc s = .next t ∧ _
  refine unit_arch hi nofun nofun ((barredLanes_eq hreads hn).trans (congrArg some (foldLanes_eq ?_))) hq
  simp only [List.map_nil]
  rw [hid, hfirst]
  refine laneRun_eq_eachLane (P := fun t => ∀ l ∈ (g.after s false).active, NoneRefused t ⟨g.cell.id, l.idx⟩)
    (fun l hl => ⟨by rw [readTo_nil_accs]; exact ha l hl, by rw [readTo_nil_ops]; exact ho l hl⟩) fun t x f hP hx hf => ?_
  obtain ⟨l, hl, rfl⟩ := List.mem_map.1 hx
  have hdue : parkDue t ⟨g.cell.id, f.idx⟩ .stores = none := by
    obtain ⟨haccs, hops⟩ := hP l hl
    rw [hf]
    exact parkDue_none _ haccs hops
  refine ⟨?_, fun m hm => noneRefused_fenceHold (hP m hm) eng mx sc g.cell.id g.first f⟩
  rw [hdue]
  rfl

/-! ### A FENCE whose refused store another record owes -/

/-- Store 1 of fibre 0 of cell 1, refused by its home. -/
def refusedStore : Acc :=
  { id := 1, owner := ⟨1, 0⟩, part := 0, fn := 0, asid := 0, cluster := 0, quad := 0, sup := false, kind := .store, va := 0
    len := 4, data := [0, 0, 0, 0], ord := .plain, stage := .refused .translationFault }
/-- The active one of the twins runs a handler that owes store 1. -/
def owingFibre : Fibre :=
  { twinFibre true [] with handler := some { record := 0, trapBase := 0, place := {}, mode := false, flags := [], owed := [1] } }
def owingCell : Cell := { twinCell with fibres := [twinFibre false [], owingFibre] }
def owingState : State := { twinState with cells := [owingCell], accs := [refusedStore] }
def owingGroup : Grp := { twinGroup with cell := owingCell, members := owingCell.fibres, view := owingCell.fibres }

/-- What each fibre does. -/
def statuses (t : State) : List (List Status) := t.cells.map fun c => c.fibres.map (·.status)

theorem owing_issues : Issues owingState owingGroup {} := ⟨by decide, by decide, by decide⟩
/-- Past the word the owing record is the one active lane. -/
theorem owing_active : (owingGroup.after owingState false).active = [{ owingFibre with pc := 4 }] := by decide
/-- By the record that goes by their index no handler keeps store 1. -/
theorem owing_kept : owingState.kept ⟨1, 0⟩ = [] := by decide

/-- The lane holds: once its sources are read the owing record goes by their index, and its handler keeps store 1. -/
theorem owing_fences : ∃ t, exec (.fence false false .cell) owingState = .next t
    ∧ statuses t.arch = [[.fence false false .cell [], .fence false false .cell []]] := ⟨_, rfl, by decide⟩

/-- The state that the statement names: the lane parks. -/
def owingParked : State :=
  takeTraps (passed owingState owingGroup false) 1 0 [⟨0, { cause := .translationFault, detail := 2, faddr := 0 }, 0⟩]
theorem owingParked_statuses : statuses owingParked.arch =
    [[.parked { cause := .translationFault, detail := 2, faddr := 0 } false, .parked { cause := .translationFault, detail := 2, faddr := 0 } false]] := by
  decide
theorem owingParked_noQuitDue : NoQuitDue owingParked 1 := noQuitDue_of (by decide)

/-- FenceParks fails: every premise holds of the twins, and the lane does not park. -/
theorem not_fenceParks : ¬ Rules.FenceParks := by
  intro h
  have hno : NoTx owingState owingGroup false := by unfold NoTx; decide
  have hends : Ends (.fence false false .cell) owingState owingGroup owingParked :=
    h owingState owingGroup false false .cell { owingFibre with pc := 4 } refusedStore .translationFault owing_issues hno owing_active
      (List.mem_singleton.2 rfl) rfl rfl rfl owing_kept (by decide) (by decide)
  obtain ⟨t, ht, harch⟩ := hends owingParked_noQuitDue
  obtain ⟨u, hu, hstatuses⟩ := owing_fences
  obtain rfl := Host.Outcome.next.inj (hu.symm.trans ht)
  rw [harch, owingParked_statuses] at hstatuses
  exact absurd hstatuses (by decide)

/-- What else O13 says holds, so that it stands or falls with FenceParks. -/
theorem atomicsAndFence_iff : Obligations.AtomicsAndFence ↔ Rules.FenceParks :=
  ⟨fun ⟨_, _, _, h⟩ => h, fun h => ⟨atomicsComplete, stiLanes, fenceHolds, h⟩⟩

end Sys2Proof.Machine

namespace Sys2Proof.Proofs
open Sys2Proof.Machine

/-- Refutes O13: in a cell that holds two fibres of one index (owingState) a FENCE whose lane has a refused store does not park where the
statement says so: once its sources are read the lane's own record goes by that index, and its handler keeps the store. What O13 says of
ATOM, CAS, RED, SGNL and STI, and of a FENCE that holds, is true as stated (atomicsAndFence_iff). -/
theorem not_atomicsAndFence : ¬ Obligations.AtomicsAndFence := atomicsAndFence_iff.not.2 not_fenceParks

end Sys2Proof.Proofs

end

section
-- One proof after the other: the text is one process, and every proof in flight holds a thread of its own.
set_option Elab.async false

/-! SUPPORT. Proofs about transactions: TBEGIN and TABORT, an abort, lane conflicts, the commit of one lane, TEND. -/

namespace Sys2Proof.Machine

/-! ### TBEGIN and TABORT -/

/-- The cause word of TABORT is its code above the cause 6 (R223, R368). -/
theorem tabortWord_eq (code : Word) : tabortWord code = code * 256 + 6 := by
  have hdisjoint : code <<< 8 &&& 6#32 = 0#32 := by
    ext i hi
    by_cases h : i < 8
    · simp [h]
    · have h6 : (6#32).getLsbD i = false := BitVec.getLsbD_of_ge (6#3) i (by omega)
      simp [← BitVec.getLsbD_eq_getElem, h6]
  show code <<< 8 ||| 6#32 = _
  rw [← BitVec.add_eq_or_of_and_eq_zero _ _ hdisjoint, BitVec.shiftLeft_eq_mul_twoPow]
  rfl

/-- TBEGIN and TABORT (R220, R223, R368). -/
theorem transactionWords : Rules.TransactionWords := by
  intro s g n hi
  refine ⟨fun hq => ?_, fun a x hr => ?_⟩
  · have hid : (g.after s false).cell.id = g.cell.id := refresh_cell_id ..
    have hat : (g.after s false).at_ = g.at_ := refresh_at ..
    show ∃ t, execTbegin (.w n) s = .next t ∧ _
    refine unit_arch hi nofun nofun (congrArg some ?_) hq
    refine List.foldl_ext _ _ _ fun u l _ => ?_
    simp only [hid, hat]
    cases htx : l.tx with
    | none => rfl
    | some x => simp [nameWin]
  · have hid : (g.read s false [a]).cell.id = g.cell.id := read_cell_map (fun _ _ => rfl) hi.grp false [a]
    refine ends_of_withLanes rfl ⟨hi, nofun, hr⟩ (congrArg some ?_)
    simp only [tabortWord_eq]
    rw [show (g.read s false ([plainSrc a .b32].map (·.1.name))).cell.id = g.cell.id from hid]
    rfl

/-! ### An abort -/

theorem fibre?_setFibre {s : State} {r : FRef} {f : Fibre} {F : Fibre → Fibre} (hf : s.fibre? r = some f) (hF : ∀ x, (F x).idx = x.idx) :
    (s.setFibre r F).fibre? r = some (F f) := by
  obtain ⟨c, hc, hcf⟩ := Option.bind_eq_some_iff.1 hf
  have hfind : (c.setFibre r.idx F).fibre? r.idx = (c.fibre? r.idx).map fun x => if x.idx = r.idx then F x else x := by
    simp only [Cell.fibre?, Cell.setFibre, find?_map_key]
    congr 2
    funext x
    by_cases hx : x.idx = r.idx <;> simp [hx, hF]
  have hidx : f.idx = r.idx := by simpa using List.find?_some hcf
  rw [State.fibre?, State.setFibre, cell?_setCell, hc, Option.map_some, if_pos (cell?_id hc), Option.bind_some, hfind, hcf,
    Option.map_some, if_pos hidx]
  exact fun _ => rfl

/-- The fibre that an abort leaves, its requests that answer being those numbered cov (R223). -/
def Fibre.aborted (x : Tx) (w : Word) (cov : List Nat) (f : Fibre) : Fibre :=
  { f with tx := none, stack := sput 0 f.stack x.dst w, pc := x.resume, place := {}, waitAt := x.resume, mate := none
           status := if cov.isEmpty then .ready else .fence false false .plain cov }

/-- What an abort waits for: what is pending of a fibre's own, but for what is posted or refused (R223, R265). -/
def abortCovers (s : State) (r : FRef) : List Nat :=
  (s.accs.filter fun a => a.owner == r && !a.kind.posted && !a.refused).map (·.id)
    ++ (s.ops.filter fun o => o.refused.isNone && o.fibres.any (·.1 == r)).map (·.id)

section
variable {s : State} {r : FRef} {f : Fibre} (hf : s.fibre? r = some f)
include hf

/-- Outside a transaction there is nothing to abort (R223). -/
theorem abortTx_outside (htx : f.tx = none) (w : Word) : abortTx s r w = s := by simp [abortTx, hf, htx]

theorem abortTx_inside {x : Tx} (htx : f.tx = some x) (w : Word) : abortTx s r w = s.setFibre r (Fibre.aborted x w (abortCovers s r)) := by
  have href (a : Acc) : (!a.refused) = match a.stage with | .refused _ => false | _ => true := by
    unfold Acc.refused
    cases a.stage <;> rfl
  simp only [abortTx, hf, htx, abortCovers, href]
  rfl

end

theorem abortCovers_nil {s : State} {r : FRef} (ha : ∀ a ∈ s.accs, a.owner = r → a.kind.posted = true)
    (ho : ∀ o ∈ s.ops, o.fibres.any (·.1 == r) = false) : abortCovers s r = [] := by
  have haccs : (s.accs.filter fun a => a.owner == r && !a.kind.posted && !a.refused) = [] :=
    List.filter_eq_nil_iff.2 fun a hm => by
      simp only [Bool.and_eq_true, beq_iff_eq, Bool.not_eq_true', not_and]
      intro ⟨how, hp⟩
      simp [ha a hm how] at hp
  have hops : (s.ops.filter fun o => o.refused.isNone && o.fibres.any (·.1 == r)) = [] :=
    List.filter_eq_nil_iff.2 fun o hm => by simp [ho o hm]
  rw [abortCovers, haccs, hops]
  rfl

theorem transactionAbort : Rules.TransactionAbort := by
  refine ⟨fun s r f w hf htx => abortTx_outside hf htx w, fun s r f x w hf htx => ?_⟩
  rw [abortTx_inside hf htx w]
  refine ⟨rfl, rfl, _, fibre?_setFibre hf fun _ => rfl, rfl, rfl, rfl, rfl, fun ha ho => ?_⟩
  rw [abortCovers_nil ha ho]
  rfl

/-! ### Lane conflicts -/

theorem txSplit_append (xs : List (Fibre × Tx)) (y : Fibre × Tx) : txSplit (xs ++ [y]) =
    if (txSplit xs).1.any fun low => txConflict low.2 y.2 then ((txSplit xs).1, (txSplit xs).2 ++ [y])
    else ((txSplit xs).1 ++ [y], (txSplit xs).2) := by
  rw [txSplit, List.foldl_append]
  rfl

theorem mem_readLines {x : Tx} {l : Nat} : l ∈ x.readLines ↔ ∃ b ∈ x.reads, b.1 = l := by simp [Tx.readLines]
theorem mem_writeLines {x : Tx} {l : Nat} : l ∈ x.writeLines ↔ ∃ b ∈ x.writes, b.1 / 64 = l := by simp [Tx.writeLines, linesOf]

/-- Two lanes conflict where they share a line that one of them writes (R222, step 2). -/
theorem txConflict_iff {low x : Tx} : txConflict low x = true ↔
    ∃ l, (l ∈ x.writeLines ∧ (l ∈ low.writeLines ∨ l ∈ low.readLines)) ∨ (l ∈ x.readLines ∧ l ∈ low.writeLines) := by
  simp only [txConflict, Bool.or_eq_true, List.any_eq_true, List.contains_iff_mem, exists_or]

theorem laneConflicts : Rules.LaneConflicts := by
  refine ⟨rfl, fun xs y => ⟨fun hclash => ?_, fun hclear => ?_⟩⟩
  · simp only [← mem_writeLines, ← mem_readLines, ← txConflict_iff] at hclash
    rw [txSplit_append, if_pos (List.any_eq_true.2 hclash)]
  · simp only [← mem_writeLines, ← mem_readLines, ← txConflict_iff] at hclear
    rw [txSplit_append, if_neg fun h => absurd (List.any_eq_true.1 h) (by simpa using hclear)]

/-! ### A commit -/

theorem findSome?_first {α β : Type} {p : α → Option β} {pre post : List α} {x : α} {y : β} (hpre : ∀ z ∈ pre, p z = none) (hx : p x = some y) :
    (pre ++ x :: post).findSome? p = some y := by
  rw [List.findSome?_append, List.findSome?_eq_none_iff.2 hpre, Option.none_or, List.findSome?_cons, hx]

section
variable {s : State} {g : Grp} {c : Cell} {f : Fibre} {x : Tx} (hc : s.cell? g.cell.id = some c) (hd : c.drafts = [])
include hc hd

/-- A commit whose lines read as recorded and whose bytes land (R222, steps 3 to 6). -/
theorem txCommit_lands (hread : ∀ l ∈ x.reads, homeRead s (c.who f.sup) (64 * l.1) .read 64 = .ok l.2) {t : State}
    (ht : txApply s c (c.who f.sup) x.writes = .ok t) :
    txCommit s g f x = (acquireHold (t.setFibre ⟨g.cell.id, f.idx⟩ fun f => { f with tx := none }) ⟨g.cell.id, f.idx⟩ g.first, none) := by
  unfold txCommit
  simp only [hc, overlay_plain hd]
  rw [List.findSome?_eq_none_iff.2 fun l hl => by simp only [hread l hl, if_true]]
  simp only [ht]

variable {pre post : List (Nat × List Byte)} {l : Nat × List Byte} (hx : x.reads = pre ++ l :: post)
  (hpre : ∀ p ∈ pre, homeRead s (c.who f.sup) (64 * p.1) .read 64 = .ok p.2)
include hx hpre

/-- The first line that reads otherwise than recorded aborts the lane (R222, step 4). -/
theorem txCommit_changed {bs : List Byte} (hl : homeRead s (c.who f.sup) (64 * l.1) .read 64 = .ok bs) (hne : bs ≠ l.2) :
    txCommit s g f x = (abortTx s ⟨g.cell.id, f.idx⟩ 2, none) := by
  unfold txCommit
  simp only [hc, overlay_plain hd]
  rw [hx, findSome?_first (y := none) (fun p hp => by simp only [hpre p hp, if_true]) (by simp only [hl, if_neg hne])]

/-- The first line that its home refuses aborts the lane, or traps it where the data are bad (R222, R224). -/
theorem txCommit_refused {a : Nat} {e : Cause} (hl : homeRead s (c.who f.sup) (64 * l.1) .read 64 = .error (a, e)) :
    txCommit s g f x = if e = .uncorrectable then (s, some { cause := e, detail := 1, faddr := a })
      else (abortTx s ⟨g.cell.id, f.idx⟩ (BitVec.ofNat 32 (4 + 256 * e.code)), none) := by
  unfold txCommit
  simp only [hc, overlay_plain hd]
  rw [hx, findSome?_first (y := some (a, e)) (fun p hp => by simp only [hpre p hp, if_true]) (by simp only [hl])]

end

/-- The line of a byte of a vault lies in that vault. -/
theorem inVault_line {v o : Nat} (hv : v < 192) (ho : o < vaultSize) :
    InVault v (64 * ((vaultBase + v * vaultSize + o) / 64)) 64 := by
  simp only [vaultBase, vaultSize] at *
  refine ⟨hv, ?_, ?_⟩ <;> simp only [vaultBase, vaultSize] <;> omega

theorem touchHome_vault {v va n : Nat} (h : InVault v va n) (hn : 0 < n) (s : State) (who : Who) (cls : Option Nat) (nt : Bool) (a : Access) :
    touchHome s who cls nt a va = s := by simp [touchHome, h.window hn]

/-- The address lies in a vault of the partition. -/
def AtVault (s : State) (part a : Nat) : Prop :=
  ∃ v o, v < 192 ∧ o < vaultSize ∧ a = vaultBase + v * vaultSize + o ∧ s.hasVault part v = true

theorem touchEach_vault {s : State} {who : Who} {a : Access} {addrs : List Nat} (h : ∀ x ∈ addrs, AtVault s who.part x) :
    touchEach s who a addrs = s := by
  refine foldl_eq_self_of_fixed fun l hl => ?_
  obtain ⟨x, hx, rfl⟩ := List.mem_map.1 (List.mem_eraseDups.1 hl)
  obtain ⟨v, o, hv, ho, rfl, -⟩ := h x hx
  exact touchHome_vault (inVault_line hv ho) (by decide) ..

/-- The bytes of a write set land one after the other, each where it stands (R222, step 5). -/
theorem landEach_vault {c : Cell} {who : Who} (hd : c.drafts = []) : ∀ {ws : SMap Byte} {s : State}, s.cell? c.id = some c →
    (∀ b ∈ ws, AtVault s who.part b.1) →
    ∃ t, ws.foldl (fun (r : Except (Nat × Cause) State) x => r.bind fun s => landBytes s c.id who none x.1 [x.2]) (.ok s) = .ok t
      ∧ t.mem = ws.foldl (fun m b => putBytes m b.1 [b.2]) s.mem ∧ t.cells = s.cells
  | [], s, _, _ => ⟨s, rfl, rfl, rfl⟩
  | b :: ws, s, hc, hws => by
    obtain ⟨v, o, hv, ho, hb, hvault⟩ := hws b List.mem_cons_self
    have hin : InVault v b.1 [b.2].length := ⟨hv, by omega, by rw [hb, Nat.add_one_mul, List.length_singleton]; omega⟩
    obtain ⟨u, hu, hmem⟩ := homeWrite_vault (but := none) (who := who) hvault hin
    have hcells : u.cells = s.cells := homeWrite_keeps (p := State.cells) (fun _ _ _ _ _ => rfl) hu
    have hparts (n : Nat) : u.hasVault who.part n = s.hasVault who.part n :=
      homeWrite_keeps (p := fun s => s.hasVault who.part n) (fun _ _ _ _ _ => rfl) hu
    obtain ⟨t, ht, htm, htc⟩ := landEach_vault hd (ws := ws) (s := u) (by rw [State.cell?, hcells]; exact hc) fun b' hb' => by
      obtain ⟨v', o', hv', ho', he, hvault'⟩ := hws b' (List.mem_cons_of_mem _ hb')
      exact ⟨v', o', hv', ho', he, (hparts v').trans hvault'⟩
    refine ⟨t, ?_, by rw [htm, hmem]; rfl, htc.trans hcells⟩
    rw [List.foldl_cons, Except.bind, landBytes_plain hc hd, hu]
    exact ht

/-- A write set in the partition's vaults lands (R222). -/
theorem txApply_vault {s : State} {c : Cell} {who : Who} {ws : SMap Byte} (hc : s.cell? c.id = some c) (hd : c.drafts = [])
    (hws : ∀ b ∈ ws, AtVault s who.part b.1) :
    ∃ t, txApply s c who ws = .ok t ∧ t.mem = ws.foldl (fun m b => putBytes m b.1 [b.2]) s.mem ∧ t.cells = s.cells := by
  have htouch : touchEach s who .write ((ws.map (·.1)).filter fun a => !inDraft c a) = s :=
    touchEach_vault fun a ha => by
      obtain ⟨b, hb, rfl⟩ := List.mem_map.1 (List.mem_filter.1 ha).1
      exact hws b hb
  rw [txApply, htouch]
  exact landEach_vault hd hc hws

/-- The acquire of a commit (R201, R222): the fibre goes on at once, or waits for the invalidations queued to its cluster. -/
theorem acquireHold_eq {s : State} {r : FRef} {c : Cell} (hc : s.cell? r.cell = some c) (at_ : DWord) : acquireHold s r at_ =
    s.setFibre r fun f => if s.invalsClear c.cluster then { f with status := .ready } else f.hold (.fence false false .coh []) s.now at_ := by
  unfold acquireHold
  rw [hc]
  dsimp only
  split <;> rfl

theorem acquireHold_fibre? {s : State} {r : FRef} {c : Cell} {f : Fibre} (hc : s.cell? r.cell = some c) (hf : s.fibre? r = some f) (at_ : DWord) :
    (acquireHold s r at_).mem = s.mem ∧ ∃ y, (acquireHold s r at_).fibre? r = some y ∧ y.tx = f.tx ∧ y.stack = f.stack
      ∧ y.status = if (acquireHold s r at_).invalsClear c.cluster then .ready else .fence false false .coh [] := by
  rw [acquireHold_eq hc]
  refine ⟨rfl, _, fibre?_setFibre hf fun x => ?_, ?_⟩
  · split <;> rfl
  · rw [show (s.setFibre r _).invalsClear c.cluster = s.invalsClear c.cluster from rfl]
    split <;> exact ⟨rfl, rfl, rfl⟩

theorem transactionCommit : Rules.TransactionCommit := by
  intro s g c f x hc hcf hd r line
  have hid : c.id = g.cell.id := cell?_id hc
  have hf : s.fibre? r = some f := by rw [State.fibre?, hc]; exact hcf
  refine ⟨fun hread hws => ?_, fun pre l post hx hpre => ⟨fun bs hl hne => txCommit_changed hc hd hx hpre hl hne, fun a e hl =>
    txCommit_refused hc hd hx hpre hl⟩⟩
  obtain ⟨t, ht, hmem, hcells⟩ := txApply_vault (who := c.who f.sup) (hid ▸ hc) hd hws
  have htf : t.fibre? r = some f := by rw [State.fibre?, State.cell?, hcells]; exact hf
  have htc : t.cell? g.cell.id = some c := by rw [State.cell?, hcells]; exact hc
  have hc' : (t.setFibre r fun f => { f with tx := none }).cell? r.cell = some (c.setFibre r.idx fun f => { f with tx := none }) := by
    rw [State.setFibre, cell?_setCell, htc, Option.map_some, if_pos hid]
    exact fun _ => rfl
  obtain ⟨hm, y, hy, hytx, hstack, hstatus⟩ := acquireHold_fibre? hc' (fibre?_setFibre htf fun _ => rfl) g.first
  exact ⟨_, y, txCommit_lands hc hd hread ht, hm.trans hmem, hy, hytx, hstack, hstatus⟩

/-! ### TEND -/

theorem passed_cell? {s : State} {g : Grp} (hg : s.grp? = some g) : (passed s g false).cell? g.cell.id = some
    { g.cell with fibres := g.cell.fibres.map fun x => if g.members.any (·.idx == x.idx) then { x with pc := g.at_ + 4 } else x } := by
  rw [passed, State.mapFibres, cell?_setCell, cell?_of_grp? hg, Option.map_some, if_pos rfl]
  · rfl
  · exact fun _ => rfl

/-- A member of the group is, past the word, as it was but for its program counter. -/
theorem mem_after_members {s : State} {g : Grp} (hg : s.grp? = some g) {m : Fibre} (hm : m ∈ g.members) :
    { m with pc := g.at_ + 4 } ∈ (g.after s false).members := by
  have hany : g.members.any (·.idx == m.idx) = true := List.any_eq_true.2 ⟨m, hm, by simp⟩
  rw [Grp.after, Grp.refresh, passed_cell? hg]
  exact List.mem_filter.2 ⟨List.mem_map.2 ⟨m, mem_fibres_of_mem_grp? hg hm, by rw [if_pos hany]⟩, hany⟩

theorem tendPins_invals (s : State) : (tendPins s).invals = s.invals := by
  unfold tendPins
  split
  · rfl
  · split <;> rfl

/-- Where no active lane is inside a transaction no pin ends (R199, R222). -/
theorem tendPins_outside {s : State} {g : Grp} (hg : s.grp? = some g) (hout : ∀ l ∈ (g.after s false).active, l.tx = none) :
    tendPins s = s := by
  have hnone : g.active.any (fun f => f.tx.any fun x => x.nest == 0) = false := by
    refine List.any_eq_false.2 fun m hm => ?_
    obtain ⟨hm, hact⟩ := List.mem_filter.1 hm
    have htx : m.tx = none := hout { m with pc := g.at_ + 4 } (List.mem_filter.2 ⟨mem_after_members hg hm, hact⟩)
    simp [htx]
  simp [tendPins, hg, hnone]

theorem tend_outside {s : State} {g : Grp} (hi : Issues s g {}) (hout : ∀ l ∈ (g.after s false).active, l.tx = none) :
    Completes .tend s g (passed s g false) := by
  have hinTx : ((g.after s false).active.filterMap fun f => f.tx.map fun x => (f, x)) = [] :=
    List.filterMap_eq_nil_iff.2 fun f hf => by rw [hout f hf]; rfl
  show execTend s = _
  rw [execTend, tendPins_outside hi.grp hout]
  refine unit_eq hi nofun nofun ?_
  simp only [hinTx]
  rfl

/-- A lane that commits may go on (R222): no request of its own parks it, step 1 holds for it, and no line of its is held back. -/
structure TxMayCommit (s : State) (g : Grp) (y : Fibre × Tx) : Prop where
  parks : parkDue s ⟨g.cell.id, y.1.idx⟩ .stores = none
  covered : (s.coverage ⟨g.cell.id, y.1.idx⟩).all (s.performed .dev) = true
  free : ∀ l ∈ y.2.readLines ++ y.2.writeLines, heldBack s [] g.cell.part g.cell.fn (64 * l) 64 = false

section
variable {s : State} {g : Grp} {ys : List (Fibre × Tx)} (h : ∀ y ∈ ys, TxMayCommit s g y)
include h

theorem filterMap_parkDue_nil : (ys.filterMap fun y => (parkDue s ⟨g.cell.id, y.1.idx⟩ .stores).map fun t => (y.1.idx, t)) = [] :=
  List.filterMap_eq_nil_iff.2 fun y hy => by rw [(h y hy).parks]; rfl

theorem any_uncovered_false : (ys.any fun y => !(s.coverage ⟨g.cell.id, y.1.idx⟩).all (s.performed .dev)) = false :=
  List.any_eq_false.2 fun y hy => by rw [(h y hy).covered]; exact Bool.false_ne_true

theorem any_heldLine_false :
    (ys.any fun y => (y.2.readLines ++ y.2.writeLines).any fun l => heldBack s [] g.cell.part g.cell.fn (64 * l) 64) = false := by
  refine List.any_eq_false.2 fun y hy => ?_
  rw [Bool.not_eq_true]
  refine List.any_eq_false.2 fun l hl => ?_
  rw [(h y hy).free l hl]
  exact Bool.false_ne_true

end

/-- TEND (R220, R222): outside every transaction, and where the lanes that commit may go on. -/
theorem transactionEnd : Rules.TransactionEnd := by
  refine ⟨fun s g hi hout => tend_outside hi hout, fun s g hi => ?_⟩
  intro here inTx outer hgo hinv g' s1 s2 w
  have hid : g'.cell.id = g.cell.id := refresh_cell_id ..
  have hpart : g'.cell.part = g.cell.part := after_cell_map (q := Cell.part) (fun _ _ => rfl) hi.grp false
  have hfn : g'.cell.fn = g.cell.fn := after_cell_map (q := Cell.fn) (fun _ _ => rfl) hi.grp false
  have hcluster : g'.cell.cluster = g.cell.cluster := after_cell_map (q := Cell.cluster) (fun _ _ => rfl) hi.grp false
  have hmay : ∀ y ∈ outer, TxMayCommit here g' y := fun y hy => by
    obtain ⟨hparks, hcovered, hfree⟩ := hgo y hy
    exact ⟨by rw [hid]; exact hparks, by rw [hid]; exact hcovered, by rw [hpart, hfn]; exact hfree⟩
  have hclear : here.invalsClear g'.cell.cluster = true := by
    show (tendPins s).invals.all _ = true
    rw [tendPins_invals, hcluster]
    exact hinv
  show execTend s = _
  refine unit_eq hi nofun nofun ?_
  extract_lets inner outer' due go held u
  have hdue : due = [] := filterMap_parkDue_nil hmay
  have hall : go = outer := by
    refine List.filter_eq_self.2 fun x _ => ?_
    rw [hdue]
    rfl
  rw [hall, hdue, any_uncovered_false hmay, if_neg Bool.false_ne_true, hclear, Bool.not_true, Bool.and_false, if_neg Bool.false_ne_true,
    any_heldLine_false hmay, if_neg Bool.false_ne_true]
  have hu : u = s1 := by
    unfold u
    rw [hid]
  rw [hid, hu]
  refine congrArg (fun w => some (raiseLanes w.1 g' w.2)) (?_ : _ = w)
  show List.foldl _ (s2, []) (txSplit outer).1 = List.foldl _ (s2, []) (txSplit outer).1
  refine List.foldl_ext _ _ _ fun z y _ => ?_
  dsimp only
  cases (txCommit z.1 g' y.1 y.2).2 with
  | none => exact congrArg (Prod.mk _) (List.append_nil _).symm
  | some t => rfl

end Sys2Proof.Machine

namespace Sys2Proof.Proofs
open Sys2Proof.Machine

/-- Settles O22: the words, an abort, TEND, the conflicts of lanes and the commit of one, each by its own lemma. -/
theorem transactions : Obligations.Transactions :=
  ⟨transactionWords, transactionAbort, transactionEnd, laneConflicts, transactionCommit⟩

end Sys2Proof.Proofs

end

section
-- One proof after the other: the text is one process, and every proof in flight holds a thread of its own.
set_option Elab.async false

/-! SUPPORT. Proofs about the words across lanes: BALLOT, MATCH, COMPACT, TOPK and SAMPLE. -/

namespace Sys2Proof.Machine

/-! ### Lanes and their fibres -/

/-- Two changes of the fibres of one index that agree on these are one change. -/
theorem setFibre_congr {r : FRef} {F G : Fibre → Fibre} (h : ∀ f, f.idx = r.idx → F f = G f) (s : State) : s.setFibre r F = s.setFibre r G := by
  have hcell (c : Cell) : c.setFibre r.idx F = c.setFibre r.idx G := by
    simp only [Cell.setFibre, Cell.mk.injEq, true_and, and_true]
    refine List.map_congr_left fun f _ => ?_
    by_cases hf : f.idx = r.idx
    · rw [if_pos hf, if_pos hf, h f hf]
    · rw [if_neg hf, if_neg hf]
  simp only [State.setFibre, hcell]

/-- The fibre that an index finds has that index, and so has the one taken where it finds none. -/
theorem fibre?_getD_idx (s : State) (cell : Nat) (f : Fibre) : ((s.fibre? ⟨cell, f.idx⟩).getD f).idx = f.idx := by
  cases hf : s.fibre? ⟨cell, f.idx⟩ with
  | none => rfl
  | some x =>
    obtain ⟨c, -, hc⟩ := Option.bind_eq_some_iff.1 hf
    simpa using List.find?_some hc

/-- A pop changes the streams of its fibre alone. -/
theorem popAll_keeps {β : Type} {q : Fibre → β} (hq : ∀ f recs, q { f with recs := recs } = q f) (f : Fibre) (ns : List Name) :
    q (f.popAll ns) = q f := by
  unfold Fibre.popAll
  induction ns generalizing f with
  | nil => rfl
  | cons n r ih =>
    rw [List.foldl_cons, ih]
    cases n with
    | q m => exact hq f _
    | w m | k m | slot d m => rfl

@[simp] theorem popAll_lane (f : Fibre) (ns : List Name) : (f.popAll ns).lane = f.lane := popAll_keeps (fun _ _ => rfl) f ns

/-- The mask of the lanes of some elements: the bit of each that has a property. -/
theorem getLsbD_laneMask {α : Type} (p : α → Prop) [DecidablePred p] (lane : α → Nat) {j : Nat} (hj : j < 32) (xs : List α) (m : Word) :
    (xs.foldl (fun m x => if p x then m ||| ((1 <<< lane x : Nat) : Word) else m) m).getLsbD j = true
      ↔ m.getLsbD j = true ∨ ∃ x ∈ xs, lane x = j ∧ p x := by
  induction xs generalizing m with
  | nil => simp
  | cons x r ih =>
    have hbit : ((1 <<< lane x : Nat) : Word).getLsbD j = true ↔ lane x = j := by
      rw [BitVec.natCast_eq_ofNat, BitVec.getLsbD_ofNat, Nat.one_shiftLeft, Nat.testBit_two_pow]
      simp [hj]
    rw [List.foldl_cons, ih, List.exists_mem_cons_iff, ← or_assoc]
    by_cases hp : p x
    · rw [if_pos hp, BitVec.getLsbD_or, Bool.or_eq_true, hbit]
      simp [hp]
    · simp [hp]

/-! ### BALLOT, MATCH, COMPACT -/

theorem getLsbD_ballotMask (fs : List Fibre) (p : Nat) {j : Nat} (hj : j < 32) :
    (ballotMask fs p).getLsbD j = true ↔ ∃ l ∈ fs, l.lane = j ∧ l.pred p = true := by
  rw [ballotMask, getLsbD_laneMask _ _ hj]
  simp
theorem getLsbD_matchMask (vs : List (Fibre × Word)) (v : Word) {j : Nat} (hj : j < 32) :
    (matchMask vs v).getLsbD j = true ↔ ∃ x ∈ vs, x.1.lane = j ∧ x.2 = v := by
  rw [matchMask, getLsbD_laneMask _ _ hj]
  simp

/-- BALLOT (R226): the mask of the active lanes whose predicate is set. -/
theorem ballot_ends {s : State} {g : Grp} (hi : Issues s g {}) (n : Fin 32) (p : Fin 8) :
    Ends (.ballot (.w n) p) s g (lanesTo s g [] fun l => { fib := l.setReg n.val (ballotMask (g.after s false).active p.val) }) := by
  intro hq
  show ∃ t, execBallot (.w n) p s = .next t ∧ _
  exact unit_arch hi nofun nofun (laneBody_eq (vals := fun _ => [])
    (eff := fun l => { fib := l.setReg n.val (ballotMask (g.after s false).active p.val) })
    (fun _ _ => rfl) (fun _ _ => rfl) fun _ _ _ h => absurd h.symm (Option.some_ne_none _)) hq

section
variable {i : Instr} {s : State} {g : Grp} {a : Name} {x : Fibre → DWord} {n : Nat}

/-- A word that reads one name in every active lane and writes a register of each in turn. -/
theorem ends_of_crossLanes {op : List (Fibre × Word) → Fibre → Word → Fibre} {v : Fibre → List DWord → Word}
    (hexec : exec i s = unit s {} false false (crossLanes a op)) (hw : Words s g {} false [plainSrc a .b32] fun l => [x l])
    (hop : let xs := readVals s g false [a] fun l => [x l]
      ∀ y ∈ xs, ∀ f : Fibre, f.idx = y.1.idx →
        op (xs.map fun y => (y.1, loWord (y.2.getD 0 0))) f (loWord (y.2.getD 0 0)) = f.setReg n (v y.1 y.2)) :
    Ends i s g (Rules.setEach (readTo s g false [a]) g.cell.id (readVals s g false [a] fun l => [x l]) n v) := by
  have hid : (g.read s false [a]).cell.id = g.cell.id := read_cell_map (fun _ _ => rfl) hw.issues.grp false [a]
  refine ends_of_withLanes hexec hw (congrArg some ?_)
  show List.foldl _ (readTo s g false [a]) (List.map _ (readVals s g false [a] fun l => [x l])) = _
  rw [List.foldl_map]
  refine List.foldl_ext _ _ _ fun u y hy => ?_
  show u.setFibre ⟨(g.read s false [a]).cell.id, _⟩ _ = _
  rw [hid]
  exact setFibre_congr (hop y hy) u

end

/-- BALLOT (R226), MATCH (R340) and COMPACT (R315), each by the word that it writes. -/
theorem crossLane : Rules.CrossLane := by
  refine fun s g n => ⟨fun p hi => ⟨_, ballot_ends hi n p, fun j hj => getLsbD_ballotMask _ _ hj⟩, fun a x hw => ?_⟩
  intro s' xs
  refine ⟨⟨fun v => matchMask (xs.map fun y => (y.1, loWord (y.2.getD 0 0))) (loWord v), ?_, fun v j hj => ?_⟩, fun p => ?_⟩
  · exact ends_of_crossLanes rfl hw fun _ _ _ _ => rfl
  · refine (getLsbD_matchMask _ _ hj).trans ?_
    simp [xs, readVals]
  · refine ends_of_crossLanes rfl hw fun y _ f hf => ?_
    simp only [List.filter_map, List.map_map, List.findIdx_map, hf]
    rfl

/-! ### TOPK -/

theorem topkBefore_eq (m : Word) (ml : Nat) (v : Word) (vl : Nat) : topkBefore m ml v vl =
    if isNan m then isNan v && decide (ml < vl)
    else isNan v || decide (ordKey fp32 v.toNat < ordKey fp32 m.toNat) || (ordKey fp32 v.toNat == ordKey fp32 m.toNat && decide (ml < vl)) := by
  unfold topkBefore
  cases isNan m <;> cases isNan v <;> simp

section
variable {s : State} {g : Grp} {n : Fin 32} {a b : Src} {x y : Fibre → DWord}
  (hw : Words s g (viHints [a, b]) false [(a, .b32), (b, .b32)] fun l => [x l, y l])
include hw

/-- TOPK (R153, R360), the rank of a lane counted over the active lanes. -/
theorem topk_ends : Ends (.topk (.w n) a b) s g
    (Rules.setEach (readTo s g false [a.name, b.name]) g.cell.id (readVals s g false [a.name, b.name] fun l => [x l, y l]) n.val fun l vs =>
      if ((g.after s false).active.countP fun m => topkBefore (loWord (x m)) m.lane (loWord (vs.getD 0 0)) l.lane)
        < (loWord (vs.getD 1 0)).toNat then loWord (vs.getD 0 0) else 0xFF800000) := by
  have hid : (g.read s false [a.name, b.name]).cell.id = g.cell.id := read_cell_map (fun _ _ => rfl) hw.issues.grp false _
  refine ends_of_withLanes rfl hw (congrArg some ?_)
  simp only [List.map_cons, List.map_nil]
  rw [hid]
  refine List.foldl_ext _ _ _ fun u z _ => ?_
  simp only [readVals, List.countP_eq_length_filter, List.filter_map, List.length_map, Function.comp_def, popAll_lane]
  rfl

end

/-! ### SAMPLE -/

/-- Of the first largest element of a list the ones before it are smaller. -/
theorem exists_append_of_argmax {α β : Type} [LinearOrder β] {key : α → β} {l : List α} {m : α} (h : l.argmax key = some m) :
    ∃ pre post, l = pre ++ m :: post ∧ ∀ a ∈ pre, key a < key m := by
  classical
  obtain ⟨pre, post, rfl, hm⟩ := List.eq_append_cons_of_mem (List.argmax_mem h)
  refine ⟨pre, post, rfl, fun a ha => lt_of_not_ge fun hle => ?_⟩
  have hidx := List.index_of_argmax h (List.mem_append_left _ ha) hle
  rw [List.idxOf_append_of_notMem hm, List.idxOf_append_of_mem ha, List.idxOf_cons_self] at hidx
  exact absurd (List.idxOf_lt_length_iff.2 ha) (by omega)

/-- The place of the first largest element among those that some elements of a list have. -/
theorem exists_getElem?_of_argmax_filterMap {α β γ : Type} [LinearOrder γ] {f : α → Option β} {key : β → γ} {l : List α} {p : β}
    (h : (l.filterMap f).argmax key = some p) : ∃ (i : Nat) (a : α), l[i]? = some a ∧ f a = some p ∧
      ∀ (j : Nat) b q, l[j]? = some b → f b = some q → key q ≤ key p ∧ (j < i → key q < key p) := by
  obtain ⟨pre, post, hsplit, hpre⟩ := exists_append_of_argmax h
  obtain ⟨l₁, l₂, rfl, h₁, h₂⟩ := List.filterMap_eq_append_iff.1 hsplit
  obtain ⟨mid, a, tail, rfl, hmid, ha, -⟩ := List.filterMap_eq_cons_iff.1 h₂
  refine ⟨(l₁ ++ mid).length, a, by simp, ha, fun j b q hb hq => ⟨?_, fun hj => hpre q ?_⟩⟩
  · exact List.le_of_mem_argmax (List.mem_filterMap.2 ⟨b, List.mem_of_getElem? hb, hq⟩) h
  · rw [← List.append_assoc, List.getElem?_append_left hj] at hb
    rcases List.mem_append.1 (List.mem_of_getElem? hb) with hb | hb
    · exact h₁ ▸ List.mem_filterMap.2 ⟨b, hb, hq⟩
    · rw [hmid b hb] at hq
      cases hq

/-- What is made of a word that may be there, and of no NaN. -/
theorem bind_number_eq {β : Type} (o : Option Word) (k : Word → β) :
    (o.bind fun w => if isNan w then none else some (k w)) = (o.filter fun w => !isNan w).map k := by
  cases o with
  | none => rfl
  | some w => cases hnan : isNan w <;> simp [hnan]

/-- The z of an active lane that is no NaN (R153). -/
def laneZ (c : Cell) (x y : Fibre → DWord) (l : Fibre) : Option Word :=
  (sampleZ (drawWord c l false 0) (loWord (x l)) (loWord (y l))).filter fun w => !isNan w
/-- The lanes of some fibres that have a z, each with its place in the order of numbers. -/
def rankedLanes (z : Fibre → Option Word) (fs : List Fibre) : List (Nat × Int) :=
  fs.filterMap fun l => (z l).map fun w => (l.lane, ordKey fp32 w.toNat)
/-- The lane of such an entry, or all ones where there is none. -/
def laneWord : Option (Nat × Int) → Word
  | some p => BitVec.ofNat 32 p.1
  | none => 0xFFFFFFFF
/-- The word that SAMPLE writes: the lane of the first largest z. -/
noncomputable def sampleWord (z : Fibre → Option Word) (fs : List Fibre) : Word := laneWord ((rankedLanes z fs).argmax Prod.snd)

theorem sampleWord_spec (z : Fibre → Option Word) (fs : List Fibre) :
    (sampleWord z fs = 0xFFFFFFFF ∧ ∀ l ∈ fs, z l = none)
    ∨ ∃ (i : Nat) (l : Fibre), fs[i]? = some l ∧ sampleWord z fs = BitVec.ofNat 32 l.lane ∧ ∃ w, z l = some w
      ∧ ∀ (j : Nat) (m : Fibre) (u : Word), fs[j]? = some m → z m = some u →
        ordKey fp32 u.toNat ≤ ordKey fp32 w.toNat ∧ (j < i → ordKey fp32 u.toNat < ordKey fp32 w.toNat) := by
  unfold sampleWord
  cases hp : (rankedLanes z fs).argmax Prod.snd with
  | none =>
    refine .inl ⟨rfl, fun l hl => ?_⟩
    simpa using List.filterMap_eq_nil_iff.1 (List.argmax_eq_none.1 hp) l hl
  | some p =>
    obtain ⟨i, l, hi, hl, hmax⟩ := exists_getElem?_of_argmax_filterMap hp
    obtain ⟨w, hw, rfl⟩ := Option.map_eq_some_iff.1 hl
    exact .inr ⟨i, l, hi, rfl, w, hw, fun j m u hj hu => hmax j m _ hj (Option.map_eq_some_iff.2 ⟨u, hu, rfl⟩)⟩

/-- SAMPLE in one lane: it writes the word, it draws, and a bad temperature sets NV. -/
def sampleLane (cell n : Nat) (v : Word) (bad : Bool) (s : State) (l : Fibre) : State :=
  let s := s.setFibre ⟨cell, l.idx⟩ fun f => { f.setReg n v with dc := f.dc + 1 }
  if bad then s.orArith cell stNV else s

/-- A temperature that is a NaN or at most 0 (R153). -/
def badTemperature (t : Word) : Bool := match val32 t with | .nan _ => true | .inf neg => neg | .fin neg k _ _ => neg || k == 0

theorem sampleZ_isNone (u l t : Word) : (sampleZ u l t).isNone = badTemperature t := by
  unfold sampleZ badTemperature
  dsimp only
  split_ifs with h
  · exact h.symm
  · exact (Bool.eq_false_of_not_eq_true h).symm

section
variable {s : State} {g : Grp} (hg : s.grp? = some g)
include hg

/-- A lane's draw is the same once its sources are read (R151). -/
theorem drawWord_read (ll rounding : Bool) (names : List Name) (l : Fibre) (n : Nat) :
    drawWord (g.read s ll names).cell (l.popAll names) rounding n = drawWord g.cell l rounding n := by
  have hk : (g.read s ll names).cell.k = g.cell.k := read_cell_map (fun _ _ => rfl) hg ll names
  have hindex : (g.read s ll names).cell.index = g.cell.index := read_cell_map (fun _ _ => rfl) hg ll names
  have hdc : (l.popAll names).dc = l.dc := popAll_keeps (fun _ _ => rfl) l names
  rw [drawWord, hk, hindex, hdc, popAll_idx, drawWord]

end

section
variable {s : State} {g : Grp} {n : Fin 32} {a b : Src} {x y : Fibre → DWord}
  (hw : Words s g (viHints [a, b]) false [(a, .b32), (b, .b32)] fun l => [x l, y l])
include hw

/-- SAMPLE (R153, R360): its word in every active lane, each of which draws, a bad temperature setting NV. -/
theorem sample_ends : Ends (.sample (.w n) a b) s g
    (eachLane (readTo s g false [a.name, b.name]) g.cell.id (readVals s g false [a.name, b.name] fun l => [x l, y l]) fun u l vs =>
      sampleLane g.cell.id n.val (sampleWord (laneZ g.cell x y) (g.after s false).active) (badTemperature (loWord (vs.getD 1 0))) u l) := by
  have hid : (g.read s false ([(a, Wd.b32), (b, Wd.b32)].map (·.1.name))).cell.id = g.cell.id :=
    read_cell_map (fun _ _ => rfl) hw.issues.grp false _
  refine ends_of_withLanes rfl hw (congrArg some ?_)
  extract_lets zs nums win v
  have hnums : nums = rankedLanes (laneZ g.cell x y) (g.after s false).active := by
    simp only [nums, zs, readVals, List.filterMap_map]
    refine List.filterMap_congr fun l _ => ?_
    show Option.bind (sampleZ (drawWord (g.read s false [a.name, b.name]).cell (l.popAll [a.name, b.name]) false 0) (loWord (x l)) (loWord (y l)))
      (fun z => if isNan z then none else some ((l.popAll [a.name, b.name]).lane, ordKey fp32 z.toNat)) = _
    rw [drawWord_read hw.issues.grp, popAll_lane]
    exact bind_number_eq _ _
  have hwin : win = (rankedLanes (laneZ g.cell x y) (g.after s false).active).argmax Prod.snd := by
    rw [← hnums]
    refine List.foldl_ext _ _ _ fun m p _ => ?_
    cases m with
    | none => rfl
    | some q => exact if_congr Iff.rfl rfl rfl
  have hv : v = sampleWord (laneZ g.cell x y) (g.after s false).active := congrArg laneWord hwin
  rw [eachLane, List.foldl_map]
  refine List.foldl_ext _ _ _ fun u p _ => ?_
  dsimp only
  rw [sampleZ_isNone, hv, sampleLane, fibre?_getD_idx, hid]
  rfl

end

theorem sampleAndTopk : Rules.SampleAndTopk := by
  intro s g n a b x y hw s' xs act before
  have hbefore : topkBefore = before := by
    funext m ml v vl
    exact topkBefore_eq m ml v vl
  exact ⟨hbefore ▸ topk_ends hw, _, sample_ends hw, sampleWord_spec (laneZ g.cell x y) act⟩

end Sys2Proof.Machine

namespace Sys2Proof.Proofs
open Sys2Proof.Machine

/-- Settles O10: the words that write one word to each active lane, then TOPK by the rank of each lane and SAMPLE by the first largest z. -/
theorem crossLaneWords : Obligations.CrossLaneWords := ⟨crossLane, sampleAndTopk⟩

end Sys2Proof.Proofs

end

section
-- One proof after the other: the text is one process, and every proof in flight holds a thread of its own.
set_option Elab.async false

/-! SUPPORT. Proofs about the commands of an engine: NOP, COPY, FILL, SGNL, MCAST, GATHER, COLL. -/

namespace Sys2Proof.Machine

/-! ### A command in its turn -/

section
variable {s : State} {ch kind : Nat} {v : ChainView} {c : Cmd}

/-- A well-formed command that its engine holds is past it with the state, the status and the mask that its act answers (R246). -/
theorem runCmd_performs (h : Rules.Holds s ch v c kind) {act : State → QueueReg → Cmd → Option (State × Nat × Nat)} {t : State} {st mask : Nat}
    (hact : act s v.reg c = some (t, st, mask)) : runCmd kind ch act s = Rules.performed t ch st mask := by
  obtain ⟨hview, hcmd, hstage, hkind, hformed⟩ := h
  simp only [runCmd, hview, hstage, hcmd, hkind, hformed, hact, beq_self_eq_true, Bool.true_or, Bool.not_true, Bool.false_eq_true, if_false,
    Rules.performed]

/-! ### NOP, COPY, FILL, SGNL -/

theorem engineNop_performs (h : Rules.Holds s ch v c 0) : exec (.engineNop ch) s = Rules.performed s ch 0 0 := by
  show execEngineNop ch s = _
  exact runCmd_performs h rfl

section
variable (h : Rules.Holds s ch v c 1) (hsrc : Rules.Free s v.reg c.src c.len) (hdst : Rules.Free s v.reg c.dst c.len)
include h hsrc hdst

theorem engineCopy_unread {e : Nat × Cause} (he : homeRead s v.reg.cmdWho c.src .read c.len = .error e) :
    exec (.engineCopy ch) s = Rules.performed s ch 2 0 := by
  rw [Rules.Free] at hsrc hdst
  show execEngineCopy ch s = _
  refine runCmd_performs h ?_
  simp only [hsrc, hdst, he, Bool.or_self, Bool.false_eq_true, if_false]

theorem engineCopy_copies {bs : List Byte} (hr : homeRead s v.reg.cmdWho c.src .read c.len = .ok bs) :
    let r := enginePut (touchHomes s v.reg.cmdWho none false .read c.src c.len) v.reg.cmdWho c.dst bs
    exec (.engineCopy ch) s = Rules.performed r.1 ch (if r.2 then 0 else 2) 0 := by
  rw [Rules.Free] at hsrc hdst
  intro r
  show execEngineCopy ch s = _
  refine runCmd_performs h ?_
  simp only [hsrc, hdst, hr, Bool.or_self, Bool.false_eq_true, if_false, r]

end

/-- Byte i of the n little-endian bytes of a number (R6). -/
theorem bytesOfNat_getD : ∀ {n : Nat} (x : Nat) {i : Nat}, i < n → (bytesOfNat n x).getD i 0 = BitVec.ofNat 8 (x / 2 ^ (8 * i))
  | n + 1, x, 0, _ => by
    apply BitVec.eq_of_toNat_eq
    simp [bytesOfNat]
  | n + 1, x, i + 1, h => by
    rw [bytesOfNat, List.getD_cons_succ, bytesOfNat_getD (x / 256) (Nat.lt_of_succ_lt_succ h), Nat.div_div_eq_div_mul, Nat.mul_add_one, Nat.pow_add,
      Nat.mul_comm (2 ^ (8 * i))]

/-- FILL repeats the eight bytes of its pattern (R246). -/
theorem engineFill_fills (h : Rules.Holds s ch v c 3) (hdst : Rules.Free s v.reg c.dst c.len) :
    let r := enginePut s v.reg.cmdWho c.dst ((List.range c.len).map fun i => BitVec.ofNat 8 (c.src / 2 ^ (8 * (i % 8))))
    exec (.engineFill ch) s = Rules.performed r.1 ch (if r.2 then 0 else 2) 0 := by
  rw [Rules.Free] at hdst
  intro r
  show execEngineFill ch s = _
  refine runCmd_performs h ?_
  have hpat : ((List.range c.len).map fun i => (bytesOfNat 8 c.src).getD (i % 8) 0)
      = (List.range c.len).map fun i => BitVec.ofNat 8 (c.src / 2 ^ (8 * (i % 8))) :=
    List.map_congr_left fun i _ => bytesOfNat_getD c.src (Nat.mod_lt i (by decide))
  simp only [hdst, hpat, Bool.false_eq_true, if_false, r]

section
variable (h : Rules.Holds s ch v c 6) (hdst : Rules.Free s v.reg c.dst 8)
include h hdst

theorem engineSgnl_performs : exec (.engineSgnl ch) s
    = Rules.performed (addSignal s v.reg.cmdWho c.dst c.src).1 ch (if (addSignal s v.reg.cmdWho c.dst c.src).2 then 0 else 2) 0 := by
  rw [Rules.Free] at hdst
  show execEngineSgnl ch s = _
  refine runCmd_performs h ?_
  simp only [hdst, Bool.false_eq_true, if_false]

theorem engineSgnl_unread {e : Nat × Cause} (he : homeNat s v.reg.cmdWho c.dst 8 = .error e) :
    exec (.engineSgnl ch) s = Rules.performed s ch 2 0 := by
  rw [engineSgnl_performs h hdst]
  simp only [addSignal, he, Bool.false_eq_true, if_false]

theorem engineSgnl_adds {old : Nat} {t : State} (hold : homeNat s v.reg.cmdWho c.dst 8 = .ok old)
    (hw : homeWrite (touchHomes s v.reg.cmdWho none false .write c.dst 8) v.reg.cmdWho none c.dst (bytesOfNat 8 ((old + c.src) % 2 ^ 64)) = .ok t) :
    exec (.engineSgnl ch) s = Rules.performed t ch 0 0 := by
  rw [engineSgnl_performs h hdst]
  simp only [addSignal, hold, hw, if_true]

end

end

/-- NOP, COPY, FILL and SGNL (R246, R375), each by what its bytes can be read as. -/
theorem simpleCommands : Rules.SimpleCommands := fun _ _ _ _ =>
  ⟨engineNop_performs, fun h hsrc hdst => ⟨fun _ => engineCopy_unread h hsrc hdst, fun _ => engineCopy_copies h hsrc hdst⟩,
    engineFill_fills, fun h hdst => ⟨fun _ => engineSgnl_unread h hdst, fun _ _ => engineSgnl_adds h hdst⟩⟩

/-! ### MCAST -/

/-- MCAST (R249): the source read once, then each destination of the mask that can take the bytes. -/
theorem multicast : Rules.Multicast := by
  intro s ch v c h hsrc
  rw [Rules.Free] at hsrc
  show (∀ e, _ → execEngineMcast ch s = _) ∧ ∀ bs, _ → execEngineMcast ch s = _
  refine ⟨fun e he => runCmd_performs h ?unread, fun bs hr => runCmd_performs h ?casts⟩
  case unread => simp only [hsrc, he, Bool.false_eq_true, if_false]
  case casts =>
    simp only [hsrc, hr, Bool.false_eq_true, if_false]
    exact congrArg some (Prod.ext rfl (Prod.ext (if_congr List.isEmpty_iff rfl rfl) rfl))

/-! ### GATHER -/

/-- The limit of a list is a field of 32 bits (R174). -/
theorem listHdr_limit_lt {bs : List Byte} {x : ListHdr} (h : listHdr bs = some x) : x.limit < 2 ^ 32 := by
  unfold listHdr at h
  dsimp only at h
  rw [Option.ite_none_right_eq_some] at h
  obtain ⟨-, h⟩ := h
  cases h
  exact bits_lt _ 95 64

theorem readList_limit_lt {rd : Reader} {room off hdr n detail : Nat} {l : ListInfo} (h : readList rd room off hdr n detail = .ok l) :
    l.limit < 2 ^ 32 := by
  unfold readList at h
  dsimp only at h
  split at h
  · cases h
  · split at h
    · cases h
    · next x hx =>
      split at h
      · cases h
      · split at h
        · cases h
        · split_ifs at h
          all_goals
            cases h
            exact listHdr_limit_lt hx

/-- The element that the entry at an address names, and whether it is noted: the void index gives zeros, an entry or an element that cannot
be read and an index past the limit give zeros that are noted (R174 to R178). -/
def gatherElem (s : State) (who : Who) (l : ListInfo) (a : Nat) : List Byte × Bool :=
  match homeNat s who a 4 with
  | .error _ => (List.replicate (2 ^ l.esz) 0, true)
  | .ok i =>
    if i = 0xFFFFFFFF then (List.replicate (2 ^ l.esz) 0, false)
    else if l.limit ≤ i then (List.replicate (2 ^ l.esz) 0, true)
    else match homeRead s who (elemAddr l i) .read (2 ^ l.esz) with
      | .error _ => (List.replicate (2 ^ l.esz) 0, true)
      | .ok bs => (bs, false)

/-- What GatherCommand asks of the element x of the entry at a: nothing holds back the entry or its element, and x is what they give. -/
def GathersAs (s : State) (q : QueueReg) (l : ListInfo) (a : Nat) (x : List Byte × Bool) : Prop :=
  Rules.Free s q a 4
  ∧ (∀ e, homeNat s q.cmdWho a 4 = .error e → x = (List.replicate (2 ^ l.esz) 0, true))
  ∧ (homeNat s q.cmdWho a 4 = .ok 0xFFFFFFFF → x = (List.replicate (2 ^ l.esz) 0, false))
  ∧ ∀ i, i ≠ 0xFFFFFFFF → homeNat s q.cmdWho a 4 = .ok i →
    (l.limit ≤ i → x = (List.replicate (2 ^ l.esz) 0, true))
    ∧ (i < l.limit → Rules.Free s q (elemAddr l i) (2 ^ l.esz)
      ∧ (∀ e, homeRead s q.cmdWho (elemAddr l i) .read (2 ^ l.esz) = .error e → x = (List.replicate (2 ^ l.esz) 0, true))
      ∧ ∀ bs, homeRead s q.cmdWho (elemAddr l i) .read (2 ^ l.esz) = .ok bs → x = (bs, false))

section
variable {s : State} {q : QueueReg} {l : ListInfo} {a : Nat} {x : List Byte × Bool} (h : GathersAs s q l a x)
include h

theorem GathersAs.elem_eq : gatherElem s q.cmdWho l a = x := by
  obtain ⟨-, herr, hvoid, hidx⟩ := h
  unfold gatherElem
  split
  · next e he => exact (herr e he).symm
  · next i hi =>
    split_ifs with h1 h2
    · exact (hvoid (h1 ▸ hi)).symm
    · exact ((hidx i h1 hi).1 h2).symm
    · obtain ⟨-, hbad, hgood⟩ := (hidx i h1 hi).2 (Nat.lt_of_not_le h2)
      split
      · next e he => exact (hbad e he).symm
      · next bs hbs => exact (hgood bs hbs).symm

theorem GathersAs.free : heldBack s [] q.part q.fn a 4 = false := h.1

/-- The void index is past every limit, so no element below the limit is held back. -/
theorem GathersAs.elem_free (hlim : l.limit < 2 ^ 32) {i : Nat} (hi : homeNat s q.cmdWho a 4 = .ok i) (hlt : i < l.limit) :
    heldBack s [] q.part q.fn (elemAddr l i) (2 ^ l.esz) = false := by
  obtain ⟨-, -, -, hidx⟩ := h
  obtain ⟨hfree, -⟩ := (hidx i (by omega) hi).2 hlt
  exact hfree

end

/-- What the processor has read for a GATHER: the list, then each entry with its element (R186). -/
def gatherSeen (s : State) (who : Who) (src : Nat) (l : ListInfo) : State :=
  l.entries.foldl (fun s a => match homeNat s who a 4 with
    | .ok i => touchHomes (if i < l.limit then touchHomes s who none false .read (elemAddr l i) (2 ^ l.esz) else s) who none false .read a 4
    | .error _ => s) (touchHomes s who none false .read src l.head)

/-- What a GATHER that reads these elements ends with. -/
def gatherEnd (s : State) (q : QueueReg) (c : Cmd) (l : ListInfo) (elems : List (List Byte × Bool)) : State × Nat × Nat :=
  let r := enginePut (gatherSeen s q.cmdWho c.src l) q.cmdWho c.dst (elems.flatMap (·.1))
  (r.1, if r.2 && !elems.any (·.2) then 0 else 2, 0)

section
variable {s : State} {ch : Nat} {v : ChainView} {c : Cmd} (h : Rules.Holds s ch v c 4) (hsrc : Rules.Free s v.reg c.src (32 + 4 * c.len))
include h hsrc

theorem engineGather_unread {e : Trap × Bool}
    (he : readList (fun a n => homeRead s v.reg.cmdWho a .read n) (2 ^ 40) 0 c.src c.len 1 = .error e) :
    exec (.engineGather ch) s = Rules.performed s ch 2 0 := by
  rw [Rules.Free] at hsrc
  show execEngineGather ch s = _
  refine runCmd_performs h ?_
  simp only [hsrc, he, Bool.false_eq_true, if_false]

section
variable {l : ListInfo} (hl : readList (fun a n => homeRead s v.reg.cmdWho a .read n) (2 ^ 40) 0 c.src c.len 1 = .ok l)
include hl

theorem engineGather_misaligned (hal : c.dst % 2 ^ l.esz ≠ 0) : exec (.engineGather ch) s = Rules.performed s ch 1 0 := by
  rw [Rules.Free] at hsrc
  show execEngineGather ch s = _
  refine runCmd_performs h ?_
  simp only [hsrc, hl, Bool.false_eq_true, if_false]
  exact if_pos hal

/-- The elements of a list are written one after another; one that is noted makes the status 2 (R176, R246). -/
theorem engineGather_gathers (hal : c.dst % 2 ^ l.esz = 0) (hdst : Rules.Free s v.reg c.dst (2 ^ l.esz * l.entries.length))
    {elem : Nat → List Byte × Bool} (helem : ∀ a ∈ l.entries, GathersAs s v.reg l a (elem a)) :
    let r := enginePut (gatherSeen s v.reg.cmdWho c.src l) v.reg.cmdWho c.dst (l.entries.flatMap fun a => (elem a).1)
    exec (.engineGather ch) s = Rules.performed r.1 ch (if r.2 && l.entries.all (fun a => !(elem a).2) then 0 else 2) 0 := by
  have helems : l.entries.map (gatherElem s v.reg.cmdWho l) = l.entries.map elem := List.map_congr_left fun a ha => (helem a ha).elem_eq
  have hnoted : (!(l.entries.map elem).any (·.2)) = l.entries.all fun a => !(elem a).2 := by simp [List.all_eq_not_any_not, Function.comp_def]
  rw [Rules.Free] at hsrc hdst
  intro r
  show execEngineGather ch s = _
  refine runCmd_performs h ?_
  simp only [hsrc, hl, Bool.false_eq_true, if_false]
  rw [if_neg (not_not.2 hal), if_neg ?free]
  · show some (gatherEnd s v.reg c l (l.entries.map (gatherElem s v.reg.cmdWho l))) = _
    rw [helems, gatherEnd, List.flatMap_map, hnoted]
  case free =>
    rw [Bool.not_eq_true, Bool.or_eq_false_iff]
    refine ⟨hdst, List.any_eq_false.2 fun a ha => ?_⟩
    rw [Bool.not_eq_true, (helem a ha).free, Bool.false_or]
    split
    · next i hi => exact Bool.and_eq_false_imp.2 fun hlt => (helem a ha).elem_free (readList_limit_lt hl) hi (of_decide_eq_true hlt)
    · rfl

end

end

/-- GATHER (R174 to R178, R246): a list that cannot be read, a destination off its boundary, and the elements in the order of the list. -/
theorem gatherCommand : Rules.GatherCommand := fun _ _ _ _ _ h hsrc => ⟨fun _ => engineGather_unread h hsrc, fun hl =>
  ⟨engineGather_misaligned h hsrc hl, fun hal hdst _ helem => engineGather_gathers h hsrc hl hal hdst helem⟩⟩

/-! ### COLL -/

/-- The little-endian bytes of a number that bytes make are these bytes (R6). -/
theorem bytesOfNat_natOfBytes : ∀ bs : List Byte, bytesOfNat bs.length (natOfBytes bs) = bs
  | [] => rfl
  | b :: r => by
    have hb := b.isLt
    have hlow : (b.toNat + 256 * natOfBytes r) % 256 = b.toNat := by omega
    have hhigh : (b.toNat + 256 * natOfBytes r) / 256 = natOfBytes r := by omega
    rw [natOfBytes, List.length_cons, bytesOfNat, hlow, hhigh, bytesOfNat_natOfBytes r, BitVec.ofNat_toNat, BitVec.setWidth_eq]

theorem homeRead_length {s : State} {who : Who} {a : Access} : ∀ {n va : Nat} {bs : List Byte}, homeRead s who va a n = .ok bs → bs.length = n
  | 0, _, _, h => by cases h; rfl
  | n + 1, va, bs, h => by
    rw [homeRead] at h
    split at h
    · cases h
    · cases hr : homeRead s who (va + 1) a n with
      | error e => rw [hr] at h; cases h
      | ok r =>
        rw [hr] at h
        cases h
        exact congrArg (· + 1) (homeRead_length hr)

/-- Pieces of w elements each, one after another, are the list they are cut from. -/
theorem flatMap_range_pieces {α : Type} (bs : List α) (w : Nat) : ∀ n, ((List.range n).flatMap fun i => (bs.drop (w * i)).take w) = bs.take (w * n)
  | 0 => by simp
  | n + 1 => by
    rw [List.range_succ, List.flatMap_append, flatMap_range_pieces bs w n, List.flatMap_singleton, Nat.mul_add_one, List.take_add]

/-- Elements of w bytes that are read as numbers and written again are the bytes they were read from. -/
theorem flatMap_elements_eq_self {bs : List Byte} {w n : Nat} (h : bs.length = n * w) :
    ((List.range n).flatMap fun i => bytesOfNat w (natOfBytes ((bs.drop (w * i)).take w))) = bs := by
  have hpiece : ∀ i ∈ List.range n, bytesOfNat w (natOfBytes ((bs.drop (w * i)).take w)) = (bs.drop (w * i)).take w := by
    intro i hi
    have hlen : ((bs.drop (w * i)).take w).length = w := by
      have : w * (i + 1) ≤ w * n := Nat.mul_le_mul_left w (List.mem_range.1 hi)
      rw [List.length_take, List.length_drop, h, Nat.mul_comm n]
      rw [Nat.mul_add_one] at this
      omega
    exact (congrArg (bytesOfNat · _) hlen.symm).trans (bytesOfNat_natOfBytes _)
  rw [List.flatMap_congr hpiece, flatMap_range_pieces, List.take_of_length_le (by rw [h, Nat.mul_comm])]

section
variable {s : State} {ch : Nat} {v : ChainView} {c : Cmd} (h : Rules.Holds s ch v c 5)
include h

theorem engineColl_reduces {others : List DWord} {t : State} {e : Engine} (hc : collChunk s v.reg c (s.engine ch) others = some (t, e)) :
    exec (.engineColl ch others) s = .next (t.setEngine e) := by
  obtain ⟨hview, hcmd, hstage, hkind, hformed⟩ := h
  simp [exec, execEngineColl, hview, hcmd, hstage, hkind, hformed, hc]

theorem engineColl_waits {others : List DWord} (hc : collChunk s v.reg c (s.engine ch) others = none) :
    exec (.engineColl ch others) s = .next s := by
  obtain ⟨hview, hcmd, hstage, hkind, hformed⟩ := h
  simp [exec, execEngineColl, hview, hcmd, hstage, hkind, hformed, hc]

theorem collMemberFailure_excludes {dev : Nat} {p : Partition} {g : Nat × List Nat × Nat} (hp : s.part? v.reg.part = some p)
    (hg : p.groups.find? (·.1 == c.group) = some g) (hmem : dev ∈ g.2.1) (hne : dev ≠ s.deviceNumber) (hnew : dev ∉ (s.engine ch).failedMembers) :
    exec (.collMemberFailure ch dev) s
      = .next (s.setEngine { s.engine ch with failedMembers := (s.engine ch).failedMembers ++ [dev] }) := by
  obtain ⟨hview, hcmd, hstage, hkind, -⟩ := h
  simp [exec, execCollMemberFailure, hview, hcmd, hstage, hkind, hp, hg, hmem, hne, hnew]

/-- The elements of a well-formed COLL fill its length (R246). -/
theorem coll_len_dvd {op : AtomOp} {w : Nat} (hop : combOp c.opc = some (op, w)) : w ∣ c.len := by
  have hformed := h.formed
  simp only [malformed, h.kind, hop, Bool.or_eq_false_iff, bne_eq_false_iff_eq] at hformed
  obtain ⟨-, -, -, hdvd⟩ := hformed
  exact Nat.dvd_of_mod_eq_zero hdvd

end

theorem engine_queue (s : State) (ch : Nat) : (s.engine ch).queue = ch := by
  unfold State.engine
  cases hf : s.engines.find? (·.queue == ch) with
  | none => rfl
  | some e => simpa using List.find?_some hf

/-- The chunk of a device that is the only member left is its own source: no peer is asked, and each element is reduced alone (R292). -/
theorem collChunk_sole {s t : State} {q : QueueReg} {c : Cmd} {e : Engine} {p : Partition} {op : AtomOp} {w fan : Nat} {bs : List Byte}
    (hp : s.part? q.part = some p) (hop : combOp c.opc = some (op, w)) (hw : w ∣ c.len)
    (hg : p.groups.find? (·.1 == c.group) = some (c.group, [s.deviceNumber], fan)) (hfailed : e.failedMembers = []) (hat : e.at_ = 0)
    (hlen : c.len ≤ 4096) (hsrc : Rules.Free s q c.src c.len) (hdst : Rules.Free s q c.dst c.len)
    (hr : homeRead s q.cmdWho c.src .read c.len = .ok bs)
    (hput : enginePut (touchHomes s q.cmdWho none false .read c.src c.len) q.cmdWho c.dst bs = (t, true)) :
    collChunk s q c e [] = some (t, { queue := e.queue, stage := .performed 0 0 }) := by
  rw [Rules.Free] at hsrc hdst
  have hn : c.len / w * w = c.len := Nat.div_mul_cancel hw
  have hout : ((List.range (c.len / w)).flatMap fun i =>
      bytesOfNat w (treeReduce op fan 64 [natOfBytes ((bs.drop (w * i)).take w)])) = bs :=
    flatMap_elements_eq_self ((homeRead_length hr).trans hn.symm)
  simp [collChunk, hop, hp, hg, hfailed, hat, Nat.min_eq_right hlen, hn, hsrc, hdst, hr, hout, hput]

/-- COLL (R292, R293): what its chunk gives, the sole member's chunk, and the members that fail. -/
theorem collectiveCommand : Rules.CollectiveCommand := by
  intro s ch v c others h
  refine ⟨fun t e => engineColl_reduces h, engineColl_waits h, fun p op w fan bs hp hop hg hfailed hat hlen hsrc hdst hr => ?sole,
    fun dev p g hp hg => collMemberFailure_excludes h hp hg⟩
  case sole =>
    intro r hput
    have hc := collChunk_sole hp hop (coll_len_dvd h hop) hg hfailed hat hlen hsrc hdst hr (Prod.ext rfl hput)
    rw [engine_queue] at hc
    exact engineColl_reduces h hc

end Sys2Proof.Machine

namespace Sys2Proof.Proofs
open Sys2Proof.Machine

/-- Settles O42, command by command. -/
theorem engineCommands : Obligations.EngineCommands := ⟨simpleCommands, multicast, gatherCommand, collectiveCommand⟩

end Sys2Proof.Proofs

end

section
-- One proof after the other: the text is one process, and every proof in flight holds a thread of its own.
set_option Elab.async false

/-! SUPPORT. Proofs about packets: how they are read, what starts them, and what a GRID or a PLATE launches. -/

namespace Sys2Proof.Machine

/-! ### PACKET_READ -/

/-- The state in which the processor has taken the packet that READ names: READ moved on, the poster's note gone, the packet p with a number
of its own (R231, R372). -/
def packetTaken (s : State) (r : QueueReg) (h : QHdr) (p : Packet) (st : PStage) : State :=
  let u := (devPut (touchHomes s r.who none false .read (h.ring + 64 * (h.read % h.size)) 64) r (r.addr + 24) (bytesOfNat 8 (h.read + 1))).setQueue r.id
    fun x => { x with posted := x.posted.filter (·.1 != h.read) }
  { u with packets := u.packets ++ [{ p with id := s.next, queue := r.id, index := h.read, stage := st, held := p.field 4 4 == 1
                                             parent := (r.posted.find? (·.1 == h.read)).map (·.2) }], next := u.next + 1 }

/-- The packet of a slot, by what its read gives. -/
def slotPacket (x : Except (Nat × Cause) (List Byte)) : Packet :=
  match x with
  | .error _ => { id := 0, queue := 0, index := 0, bytes := [], known := false }
  | .ok b => { id := 0, queue := 0, index := 0, bytes := b }
/-- Where a packet stands once it is read: aborted with its queue or its function, unreadable, rejected, or to start (R235, R240, R277). -/
def stageRead (s : State) (r : QueueReg) (h : QHdr) (fn : Fn) (p : Packet) : PStage :=
  if h.st = 2 ∨ fn.resetting = true then .done 3 else if !p.known then .done 6 else if p.badIn s r.part then .done 1 else .read
theorem stageRead_aborted {s : State} {r : QueueReg} {h : QHdr} {fn : Fn} {p : Packet} (ha : h.st = 2 ∨ fn.resetting = true) :
    stageRead s r h fn p = .done 3 := if_pos ha
theorem stageRead_running {s : State} {r : QueueReg} {h : QHdr} {fn : Fn} {p : Packet} (ha : ¬ (h.st = 2 ∨ fn.resetting = true)) :
    stageRead s r h fn p = if !p.known then .done 6 else if p.badIn s r.part then .done 1 else .read := if_neg ha

section
variable {s : State} {r : QueueReg} {fn : Fn} {bs : List Byte} (hr : s.queues.find? (fun x => x.id == r.id && !x.chain) = some r)
  (hfn : s.fn? r.part r.fn = some fn) (hcl : closing s r = false) (hfree : Rules.Free s r r.addr 64)
  (hhdr : homeRead s r.who r.addr .read 64 = .ok bs)
include hr hfn hcl hfree hhdr

theorem packetRead_waits (h : (qHdrOf bs).write ≤ (qHdrOf bs).read ∨ (qHdrOf bs).st = 0 ∨ ∃ p ∈ s.packets, p.queue = r.id ∧ p.stage ≠ .launched) :
    exec (.packetRead r.id) s = .next s := by
  rw [Rules.Free] at hfree
  show execPacketRead r.id s = _
  unfold execPacketRead
  simp only [hr, hfn, hcl, hfree, hhdr, Option.isNone_some, Bool.or_self, Bool.false_eq_true, if_false]
  refine if_pos ?_
  rw [Bool.or_eq_true]
  exact .inl (by simpa [Packet.launchedYet, or_assoc] using h)

section
variable (hlt : (qHdrOf bs).read < (qHdrOf bs).write) (hst : (qHdrOf bs).st ≠ 0) (hl : ∀ p ∈ s.packets, p.queue = r.id → p.stage = .launched)
  (hslot : Rules.Free s r ((qHdrOf bs).ring + 64 * ((qHdrOf bs).read % (qHdrOf bs).size)) 64)
include hlt hst hl hslot

/-- PACKET_READ of a queue that has a packet to read (R231, R372). -/
theorem packetRead_takes :
    let p := slotPacket (homeRead s r.who ((qHdrOf bs).ring + 64 * ((qHdrOf bs).read % (qHdrOf bs).size)) .read 64)
    exec (.packetRead r.id) s = .next (packetTaken s r (qHdrOf bs) p (stageRead s r (qHdrOf bs) fn p)) := by
  rw [Rules.Free] at hfree hslot
  have hany : s.packets.any (fun p => p.queue == r.id && !p.launchedYet) = false := by simpa [Packet.launchedYet] using hl
  intro p
  show execPacketRead r.id s = _
  unfold execPacketRead
  simp only [hr, hfn, hcl, hfree, hhdr, hslot, hany, decide_eq_false (Nat.not_le.2 hlt), beq_eq_false_iff_ne.2 hst, Option.isNone_some, Bool.or_self,
    Bool.false_eq_true, if_false, Option.map_some, Option.getD_some, p]
  cases homeRead s r.who ((qHdrOf bs).ring + 64 * ((qHdrOf bs).read % (qHdrOf bs).size)) .read 64 <;> rfl

end

end

/-- PACKET_READ (R231, R235, R277, R372, R373), by what stands in the queue and whether its slot can be read. -/
theorem packetReads : Rules.PacketReads := by
  intro s r fn bs hr hfn hcl hfree hhdr h slot
  refine ⟨packetRead_waits hr hfn hcl hfree hhdr, fun hlt hst hl hslot => ⟨fun e he => ?unread, fun b hb => ?reads⟩⟩
  case unread =>
    rw [packetRead_takes hr hfn hcl hfree hhdr hlt hst hl hslot, he]
    exact ⟨fun ha => by rw [stageRead_aborted ha]; rfl, fun ha => by rw [stageRead_running ha]; rfl⟩
  case reads =>
    rw [packetRead_takes hr hfn hcl hfree hhdr hlt hst hl hslot, hb]
    exact ⟨fun ha => by rw [stageRead_aborted ha]; rfl, fun ha => by rw [stageRead_running ha]; rfl⟩

/-! ### What starts a packet -/

section
variable {s : State} {p : Packet} (hp : s.packet? p.id = some p)
include hp

theorem starts_iff {q : QueueReg} (hq : s.queueOf p = some q) {type : Nat} :
    Rules.Starts s p q type ↔ p.stage = .read ∧ p.held = false ∧ p.type = type ∧ parentDone s p = true := by
  simp [Rules.Starts, startable, hp, hq, and_assoc]

theorem packetBarRelease_releases (hheld : p.held = true) (h : ∀ y ∈ s.packets, y.queue = p.queue → p.index ≤ y.index) :
    exec (.packetBarRelease p.id) s = .next (s.setPacket p.id fun x => { x with held := false }) := by
  show execPacketBarRelease p.id s = _
  unfold execPacketBarRelease
  simp only [hp, hheld, Bool.true_and]
  exact if_pos (by simpa using h)

theorem packetBarRelease_holds (h : ∃ y ∈ s.packets, y.queue = p.queue ∧ y.index < p.index) : exec (.packetBarRelease p.id) s = .next s := by
  show execPacketBarRelease p.id s = _
  unfold execPacketBarRelease
  simp only [hp]
  exact if_neg (by simpa using fun _ => h)

end

/-- R236: what starts a packet, and the end of a hold. -/
theorem packetStarts : Rules.PacketStarts := fun _ _ _ _ hp hq =>
  ⟨starts_iff hp hq, fun hheld => ⟨packetBarRelease_releases hp hheld, packetBarRelease_holds hp⟩⟩

/-! ### GRID and PLATE -/

/-- What the first holder of a partition leaves: registers of the function and of the partition change alone (R276). -/
theorem claim_keeps {β : Type} {f : State → β} (hf : ∀ s fns parts, f { s with fns := fns, parts := parts } = f s) (s : State) (part fn : Nat) :
    f (claim s part fn) = f s := by
  unfold claim
  split
  · split
    · rfl
    · exact hf s _ _
  · rfl

section
variable {s : State} {p : Packet} {l : Launch} (hint : p.field 15 13 = 0)
include hint

theorem launchNow_empty (hn : l.n = 0) : launchNow s p l = s.packetDone p.id 0 := by
  unfold launchNow
  simp [hint, hn]

section
variable (hn : l.n ≠ 0) (hpf : l.rcd.pfSize = 0)
include hn hpf

/-- A launch with cells, no hint and no plate frame joins the others (R42, R60, R238). -/
theorem launchNow_joins : launchNow s p l = claim ({ s with launches := s.launches ++ [checkConverged { l with dvfsWait := false }] }.setPacket p.id
    fun x => { x with stage := .launched, launch := (checkConverged { l with dvfsWait := false }).id }) l.part l.fn := by
  obtain ⟨b, n, hc⟩ := checkConverged_eq { l with dvfsWait := false }
  unfold launchNow
  simp only [hint, bne_self_eq_false, Bool.false_eq_true, if_false, hn, Bool.false_and]
  rw [hc]
  simp only [hpf, if_true]

theorem mem_launchNow_launches : checkConverged { l with dvfsWait := false } ∈ (launchNow s p l).launches := by
  rw [launchNow_joins hint hn hpf, claim_keeps (f := State.launches) fun _ _ _ => rfl]
  exact List.mem_append_right _ (List.mem_singleton_self _)

/-- Such a launch changes launches, packets and the registers of its function and of its partition alone. -/
theorem launchNow_keeps {β : Type} {f : State → β}
    (hf : ∀ s launches packets fns parts, f { s with launches := launches, packets := packets, fns := fns, parts := parts } = f s) :
    f (launchNow s p l) = f s := by
  rw [launchNow_joins hint hn hpf, claim_keeps fun s fns parts => hf s s.launches s.packets fns parts]
  exact hf s _ _ s.fns s.parts

end

end

section
variable {s : State} {p : Packet} {q : QueueReg} {plate : Bool} (hp : Rules.Starts s p q (if plate then 2 else 1))
include hp

theorem launchPacket_rejects {st : Nat} (hst : st ≠ 0) (h : prepare s p q plate = .error st) :
    launchPacket p.id plate s = .next (s.packetDone p.id st) := by
  obtain ⟨n, rfl⟩ := Nat.exists_eq_succ_of_ne_zero hst
  rw [Rules.Starts] at hp
  unfold launchPacket
  simp only [hp, h]

theorem launchPacket_launches {l : Launch} (h : prepare s p q plate = .ok l) :
    let u := l.spans.foldl (fun s x => touchHomes s q.cmdWho none false .read x.1 x.2) s
    launchPacket p.id plate s = .next (launchNow { u with next := u.next + 1 } p l) := by
  rw [Rules.Starts] at hp
  unfold launchPacket
  simp only [hp, h]

end

/-- Reading what a launch names touches homes alone: memory, slice lines and page counts (R169, R186). -/
theorem spans_keeps {β : Type} {f : State → β} (hf : ∀ s m l h, f { s with mem := m, lines := l, hot := h } = f s) (s : State) (who : Who)
    (spans : List (Nat × Nat)) : f (spans.foldl (fun s x => touchHomes s who none false .read x.1 x.2) s) = f s :=
  foldl_keeps (fun s _ => touchHomes_keeps hf s ..) spans s

/-- GRID and PLATE (R42, R60, R66, R79, R235, R236, R238), by what their check answers. -/
theorem launchPackets : Rules.LaunchPackets := by
  intro s p q plate hp go
  have hgo : go = launchPacket p.id plate s := by cases plate <;> rfl
  rw [hgo]
  refine ⟨fun st hst h => launchPacket_rejects hp hst h, fun l h => ?_⟩
  intro u
  rw [launchPacket_launches hp h]
  refine ⟨rfl, fun hn hint => by rw [launchNow_empty hint hn], fun hn hint hpf => ⟨_, rfl, mem_launchNow_launches hint hn hpf, ?_⟩⟩
  have hkeep {β : Type} (f : State → β)
      (hf : ∀ s launches packets fns parts, f { s with launches := launches, packets := packets, fns := fns, parts := parts } = f s) :
      f (launchNow { u with next := u.next + 1 } p l) = f { u with next := u.next + 1 } := launchNow_keeps hint hn hpf hf
  exact ⟨(hkeep State.cells fun _ _ _ _ _ => rfl).trans (spans_keeps (f := State.cells) (fun _ _ _ _ => rfl) s ..),
    hkeep State.mem fun _ _ _ _ _ => rfl,
    (hkeep State.accs fun _ _ _ _ _ => rfl).trans (spans_keeps (f := State.accs) (fun _ _ _ _ => rfl) s ..),
    (hkeep State.frames fun _ _ _ _ _ => rfl).trans (spans_keeps (f := State.frames) (fun _ _ _ _ => rfl) s ..),
    (hkeep State.queues fun _ _ _ _ _ => rfl).trans (spans_keeps (f := State.queues) (fun _ _ _ _ => rfl) s ..)⟩

/-! ### The preparation of a launch -/

section
variable {s : State} {p : Packet} {q : QueueReg} {bs : List Byte} (hfree : Rules.Free s q p.record 256)
  (hbs : homeRead s q.cmdWho p.record .read 256 = .ok bs)
include hfree hbs

theorem devRead_record : devRead s q.cmdWho p.record 256 = .ok bs := by
  unfold devRead
  rw [hbs]
  exact if_neg (by rw [show heldBack s [] q.cmdWho.part q.cmdWho.fn p.record 256 = false from hfree]; decide)

theorem prepare_rejects {plate : Bool} (h : recordBad bs plate = true
    ∨ vectorBad s q.part (p.field 63 32) (recordOf bs).cohort [p.field 223 192, p.field 255 224, p.field 287 256] = true) :
    prepare s p q plate = .error 1 := by
  unfold prepare
  rw [devRead_record hfree hbs]
  exact if_pos (by simpa using h)

theorem prepare_grid (hrec : recordBad bs false = false)
    (hvec : vectorBad s q.part (p.field 63 32) (recordOf bs).cohort [p.field 223 192, p.field 255 224, p.field 287 256] = false)
    (hconst : (recordOf bs).const = 0) (hn : p.field 63 32 ≠ 0) :
    prepare s p q false = .ok
      { id := s.next, kind := .grid, part := q.part, fn := q.fn, packet := p.id, recAddr := BitVec.ofNat 64 p.record, n := p.field 63 32
        bounds := [p.field 223 192, p.field 255 224, p.field 287 256], rcd := recordOf bs, consts := [], prio := p.field 12 11, seq := s.next
        cells := List.replicate (p.field 63 32) { rho := infWord } } := by
  unfold prepare
  rw [devRead_record hfree hbs]
  simp [Except.bind, hrec, hvec, hconst, readConsts, hn]

end

/-- R42, R235, R241: a record or a vector that breaks a limit, and what a launch of a grid holds. -/
theorem preparedLaunch : Rules.PreparedLaunch := fun _ _ _ _ hfree hbs => ⟨fun _ => prepare_rejects hfree hbs, prepare_grid hfree hbs⟩

end Sys2Proof.Machine

namespace Sys2Proof.Proofs
open Sys2Proof.Machine

/-- Settles O44: the reading of a packet, its start, its launch and what that launch holds, each by its own lemma. -/
theorem packets : Obligations.Packets := ⟨packetReads, packetStarts, launchPackets, preparedLaunch⟩

end Sys2Proof.Proofs

end

section
-- One proof after the other: the text is one process, and every proof in flight holds a thread of its own.
set_option Elab.async false

/-! SUPPORT. Proofs about queues and chains: doorbells, and the commands of QUEUE.CMD. -/

namespace Sys2Proof.Machine

/-! ### Doorbells -/

/-- DOORBELL_WRITE (R232): only 8 bytes at a doorbell's start move WRITE, and only where the host feeds the queue. -/
theorem doorbell : Rules.Doorbell := by
  intro s part fn off width v q k bs hat hfree hbs
  rw [Rules.Free] at hfree
  show (_ → execDoorbellWrite part fn off width v s = _) ∧ (_ → _ → _ → execDoorbellWrite part fn off width v s = _)
  unfold execDoorbellWrite
  rw [hat]
  cases k with
  | succ k => exact ⟨fun _ => rfl, nofun⟩
  | zero =>
    by_cases hw : width = 8
    · refine ⟨fun h => ?_, fun _ _ hdev => ?_⟩
      · have hdev : (qHdrOf bs).dev = true := by simpa [hw] using h
        simp [hw, hfree, hbs, hdev]
      · simp [hw, hfree, hbs, hdev]
    · exact ⟨fun _ => if_pos (by simp [hw]), fun _ h => absurd h hw⟩

/-! ### The commands of QUEUE.CMD -/

section
variable {s : State} {p : Partition} {cmd : Nat} (h : Rules.Commanded s p cmd) {run : State → Partition → CmdEnd}
include h

/-- A command that stands in QUEUE.CMD ends as its run answers (R230). -/
theorem queueCommand_fails (hrun : run s p = .fail) : queueCommand cmd p.id run s = Rules.ran s p.id true none := by
  obtain ⟨hp, hbusy, hran, hcmd⟩ := h
  simp only [queueCommand, hp, hbusy, hran, hcmd, hrun, bne_self_eq_false, Bool.not_true, Bool.or_self, Bool.false_eq_true, if_false]
  rfl

theorem queueCommand_runs {t : State} {i : Option Nat} (hrun : run s p = .ok t i) : queueCommand cmd p.id run s = Rules.ran t p.id false i := by
  obtain ⟨hp, hbusy, hran, hcmd⟩ := h
  simp only [queueCommand, hp, hbusy, hran, hcmd, hrun, bne_self_eq_false, Bool.not_true, Bool.or_self, Bool.false_eq_true, if_false]
  rfl

end

theorem part?_setPart {s : State} {n : Nat} {p : Partition} {f : Partition → Partition} (hp : s.part? n = some p) (hf : ∀ x, (f x).id = x.id) :
    (s.setPart n f).part? n = some (f p) := by
  have hid : p.id = n := by simpa using List.find?_some hp
  have hkey : (fun x : Partition => (if x.id = n then f x else x).id == n) = fun x => x.id == n := by
    funext x
    split
    · rw [hf]
    · rfl
  rw [State.part?] at hp
  rw [State.part?, State.setPart_parts, find?_map_key, hkey, hp, Option.map_some, if_pos hid]

/-! ### Registering -/

section
variable {s : State} {p : Partition} {chain : Bool}

/-- What stands at the address already, a queue or a chain, makes a registration fail (R230). -/
theorem register_taken {kind : Bool} (h : (regAt s p.id p.cmdFn p.queueAddr.toNat kind).isSome = true) : register chain s p = .fail := by
  unfold register
  refine if_pos ?_
  cases kind <;> simp [h]

/-- A command whose check has not failed ends as what follows the check. -/
theorem CmdEnd.ok_of_ite {b : Prop} [Decidable b] {x : CmdEnd} {t : State} {i : Option Nat} (h : (if b then .fail else x) = CmdEnd.ok t i) :
    x = .ok t i := by
  split at h
  · cases h
  · exact h

/-- A registration that succeeds writes the header of a queue at most, and keeps the new queue or chain in its partition (R230). -/
theorem register_ok_eq {t : State} {i : Option Nat} (h : register chain s p = .ok t i) :
    ∃ u q, (u = s ∨ ∃ who a bs, homeWrite s who none a bs = .ok u)
      ∧ t = { u with next := u.next + 1 }.setPart p.id fun x => { x with queueNew := some q } := by
  unfold register at h
  dsimp only at h
  split at h
  · cases h
  · split at h
    · cases h
    · split at h
      · replace h := CmdEnd.ok_of_ite h
        cases chain with
        | true =>
          cases h
          exact ⟨s, _, .inl rfl, rfl⟩
        | false =>
          simp only [Bool.false_eq_true, if_false] at h
          split at h
          · cases h
          · next u hu =>
            cases h
            exact ⟨u, _, .inr ⟨_, _, _, hu⟩, rfl⟩
      · cases h

/-- A registration that succeeds adds no queue yet: the new one waits in its partition until the command has finished (R230). -/
theorem register_ok {t : State} {i : Option Nat} (hp : s.part? p.id = some p) (h : register chain s p = .ok t i) :
    t.queues = s.queues ∧ ∃ x, t.part? p.id = some x ∧ x.queueNew.isSome = true := by
  obtain ⟨u, q, hu, rfl⟩ := register_ok_eq h
  have hkeep : u.queues = s.queues ∧ u.parts = s.parts := by
    obtain rfl | ⟨who, a, bs, hw⟩ := hu
    · exact ⟨rfl, rfl⟩
    · exact ⟨homeWrite_keeps (p := State.queues) (fun _ _ _ _ _ => rfl) hw, homeWrite_keeps (p := State.parts) (fun _ _ _ _ _ => rfl) hw⟩
  obtain ⟨hqueues, hparts⟩ := hkeep
  have hpu : ({ u with next := u.next + 1 } : State).part? p.id = some p := by rw [State.part?] at hp ⊢; rw [← hp, ← hparts]
  exact ⟨hqueues, _, part?_setPart hpu fun _ => rfl, rfl⟩

/-- QUEUE.CMD's commands 1 and 4, by what the registration answers (R230). -/
theorem registers (h : Rules.Commanded s p (if chain then 4 else 1)) :
    let go := exec (if chain then .chainRegister p.id else .queueRegister p.id) s
    (register chain s p = .fail → go = Rules.ran s p.id true none) ∧ ∀ t i, register chain s p = .ok t i → go = Rules.ran t p.id false i := by
  cases chain with
  | false => exact ⟨queueCommand_fails h, fun _ _ => queueCommand_runs h⟩
  | true => exact ⟨queueCommand_fails h, fun _ _ => queueCommand_runs h⟩

end

/-! ### Unregistering, command 3, the fall of BUSY -/

section
variable {s : State} {p : Partition} {q : QueueReg}

theorem unregister_unknown {chain : Bool} (h : Rules.Commanded s p (if chain then 5 else 2))
    (hn : regAt s p.id p.cmdFn p.queueAddr.toNat chain = none) :
    exec (if chain then .chainUnregister p.id else .queueUnregister p.id) s = Rules.ran s p.id true none := by
  cases chain with
  | false =>
    show execQueueUnregister p.id s = _
    exact queueCommand_fails h (by simp only [hn])
  | true =>
    show execChainUnregister p.id s = _
    exact queueCommand_fails h (by simp only [hn])

theorem queueUnregister_removes (h : Rules.Commanded s p 2) (hq : regAt s p.id p.cmdFn p.queueAddr.toNat false = some q)
    (hfree : Rules.Free s q q.addr 64) (hpk : ∀ x ∈ s.packets, x.queue ≠ q.id) :
    exec (.queueUnregister p.id) s = Rules.ran { putQueueState s q 0 with queues := s.queues.filter (·.id != q.id) } p.id false none := by
  rw [Rules.Free] at hfree
  have hany : s.packets.any (·.queue == q.id) = false := by simpa using hpk
  show execQueueUnregister p.id s = _
  exact queueCommand_runs h (by simp only [hq, hany, hfree, Bool.or_self, Bool.false_eq_true, if_false])

theorem chainUnregister_removes {bs : List Byte} (h : Rules.Commanded s p 5) (hq : regAt s p.id p.cmdFn p.queueAddr.toNat true = some q)
    (hidle : (s.engine q.id).stage = .idle) (hbs : homeRead s q.who q.addr .read 64 = .ok bs) (hempty : (cHdrOf bs).head = (cHdrOf bs).tail) :
    exec (.chainUnregister p.id) s
      = Rules.ran { s with queues := s.queues.filter (·.id != q.id), engines := s.engines.filter (·.queue != q.id) } p.id false none := by
  show execChainUnregister p.id s = _
  exact queueCommand_runs h
    (by simp only [hq, hidle, hbs, hempty, bne_self_eq_false, Bool.or_self, Bool.false_eq_true, if_false])

theorem queueClearAbort_activates {b : Nat} (h : Rules.Commanded s p 3) (hq : regAt s p.id p.cmdFn p.queueAddr.toNat false = some q)
    (hfree : Rules.Free s q q.addr 64) (hb : homeNat s q.who (q.addr + 13) 1 = .ok b) :
    exec (.queueClearAbort p.id) s = Rules.ran (if b % 4 = 2 then putQueueState s q 1 else s) p.id false none := by
  rw [Rules.Free] at hfree
  show execQueueClearAbort p.id s = _
  exact queueCommand_runs h (by simp only [hq, hb, hfree, Bool.false_eq_true, if_false])

theorem queueCmdComplete_eq (hp : s.part? p.id = some p) (hbusy : p.queueBusy = true) :
    exec (.queueCmdComplete p.id) s = if p.queueRan = true then .next ({ s with queues := s.queues ++ p.queueNew.toList }.setPart p.id fun p =>
      { p with queueBusy := false, queueRan := false, queueNew := none }) else .next s := by
  show execQueueCmdComplete p.id s = _
  unfold execQueueCmdComplete
  simp only [hp, hbusy, Bool.true_and]

end

/-- The commands of QUEUE.CMD (R230), each by its own lemma. -/
theorem queueCommands : Rules.QueueCommands := by
  intro s p
  refine ⟨fun chain h => ?registers, fun _ => unregister_unknown, fun _ => queueUnregister_removes, fun _ _ => chainUnregister_removes,
    fun _ _ => queueClearAbort_activates, fun hp hbusy => ?complete⟩
  case registers =>
    intro go
    obtain ⟨hfail, hok⟩ := registers h
    exact ⟨hfail, fun t i hr => ⟨hok t i hr, register_ok h.1 hr⟩, fun _ => register_taken⟩
  case complete =>
    rw [queueCmdComplete_eq hp hbusy]
    exact ⟨fun hran => if_pos hran, fun hran => if_neg (by simp [hran])⟩

end Sys2Proof.Machine

namespace Sys2Proof.Proofs
open Sys2Proof.Machine

/-- Settles O46: the doorbells, and the commands of QUEUE.CMD. -/
theorem queueControl : Obligations.QueueControl := ⟨doorbell, queueCommands⟩

end Sys2Proof.Proofs

end

section
-- One proof after the other: the text is one process, and every proof in flight holds a thread of its own.
set_option Elab.async false

/-! SUPPORT. A SPILL refuted: two fibres of one index in a handler. -/

namespace Sys2Proof.Machine

/-! ### A SPILL that waits after it has read its source -/

/-- A twin in a handler with no block to spill. -/
def spillTwin (active : Bool) (seen : List Nat) : Fibre :=
  { twinFibre active seen with
    stack := [(1, 0x01800000)], sup := true
    handler := some { record := 0, trapBase := 0, place := {}, mode := false, flags := [], owed := [] } }
def spillTwinCell : Cell := { twinCell with fibres := [spillTwin false [], spillTwin true [1]] }
def spillTwinState : State := { twinState with cells := [spillTwinCell] }
def spillTwinGroup : Grp :=
  { twinGroup with cell := spillTwinCell, members := spillTwinCell.fibres, view := spillTwinCell.fibres }
/-- The address that both read, the base of their scratch. -/
def spillTwinAddr : DWord := BitVec.ofNat 64 scratchBase
/-- The state in which they have read it. -/
def spillTwinRead : State := readTo spillTwinState spillTwinGroup false [.w 0]

theorem spillTwin_words : Words spillTwinState spillTwinGroup {} false [plainSrc (.w 0) .b64] fun _ => [spillTwinAddr] where
  issues := ⟨by decide, by decide, by decide⟩
  room := nofun
  reads := by unfold Reads; decide

/-- By the record that goes by their index, nothing holds the block back from the active lane of the twins. -/
theorem spillTwin_free : ∀ l ∈ (spillTwinGroup.after spillTwinState false).active,
    spillTwinState.acqPending ⟨spillTwinGroup.cell.id, l.idx⟩ = false
    ∧ spillTwinState.ownPosted ⟨spillTwinGroup.cell.id, l.idx⟩ spillTwinAddr.toNat 128 = false
    ∧ spillTwinState.ownReads ⟨spillTwinGroup.cell.id, l.idx⟩ spillTwinAddr.toNat 128 = false
    ∧ heldBack spillTwinRead [] spillTwinGroup.cell.part spillTwinGroup.cell.fn spillTwinAddr.toNat 128 = false := by
  decide

/-- With no block to spill the word does nothing in its lane (R268). -/
theorem spillTwin_runs : laneRun spillTwinGroup.cell.id
    (fun s f vs => spillLane (spillTwinGroup.read spillTwinState false [.w 0]) (vs.getD 0 0).toNat s f) spillTwinRead
    (readVals spillTwinState spillTwinGroup false [.w 0] fun _ => [spillTwinAddr]) = some spillTwinRead := rfl

theorem spillTwinRead_noQuitDue : NoQuitDue spillTwinRead spillTwinGroup.cell.id := noQuitDue_of (by decide)

/-- Once its source is read, the active twin's record goes by their index, and the word waits for access 1. -/
theorem spillTwin_stalls : exec (.spill (.w 0)) spillTwinState = .next (stallUnit spillTwinState) := rfl

/-- The clause of SPILL fails: every premise holds of the twins, and no fibre stands past the word. -/
theorem not_spillAndFillWords : ¬ Rules.SpillAndFillWords := by
  intro h
  obtain ⟨hspill, -⟩ := h spillTwinState spillTwinGroup (.w 0) (fun _ => spillTwinAddr) spillTwin_words (by decide) spillTwin_free
  obtain ⟨t, ht, harch⟩ := hspill spillTwinRead spillTwin_runs spillTwinRead_noQuitDue
  obtain rfl := Host.Outcome.next.inj (spillTwin_stalls.symm.trans ht)
  have hpcs := congrArg (fun t : State => t.cells.map fun c => c.fibres.map (·.pc)) harch
  revert hpcs
  decide

end Sys2Proof.Machine

namespace Sys2Proof.Proofs
open Sys2Proof.Machine

/-- Refutes O21: of two fibres of one index, both in a handler, the active one meets every premise by the record of the first, and
the SPILL waits for an access that its own record holds: no fibre stands past the word. -/
theorem not_spillAndFill : ¬ Obligations.SpillAndFill := fun h => not_spillAndFillWords h.1

end Sys2Proof.Proofs

end

section
-- One proof after the other: the text is one process, and every proof in flight holds a thread of its own.
set_option Elab.async false

/-! SUPPORT. Proofs about exceptions: the entry of a handler, its record, the return from it, and what ERET waits for. -/

namespace Sys2Proof.Machine

/-! ### The registers of a window -/

/-- A run of writes to the first registers of a window changes the stack alone: the value written at each of them, the old one
elsewhere. -/
theorem foldl_setReg (v : Nat → Word) {f : Fibre} (hs : swf (0 : Word) f.stack = true) : ∀ k : Nat, ∃ st,
    (List.range k).foldl (fun f i => f.setReg i (v i)) f = { f with stack := st } ∧ swf (0 : Word) st = true
      ∧ ∀ i, sget 0 st (f.base + i) = if i < k then v i else f.reg i
  | 0 => ⟨f.stack, rfl, hs, fun _ => rfl⟩
  | k + 1 => by
    obtain ⟨st, he, hst, hget⟩ := foldl_setReg v hs k
    refine ⟨sput 0 st (f.base + k) (v k), ?_, swf_sput _ _ hst, fun i => ?_⟩
    · rw [List.range_succ, List.foldl_append, he]
      rfl
    · rw [sget_sput _ _ _ hst, hget]
      rcases Nat.lt_trichotomy i k with h | h | h
      · simp [h, h.ne, Nat.lt_succ_of_lt h]
      · simp [h]
      · simp [h.ne', Nat.not_lt.2 h.le, Nat.not_lt.2 (Nat.succ_le_of_lt h)]

/-- The window of R260: the cause in w0, the record's address in x2, zero elsewhere; nothing else of the fibre changes. -/
theorem handlerWindow_eq (f : Fibre) (w : Word) (a : DWord) (hs : swf (0 : Word) f.stack = true) : ∃ st,
    handlerWindow f w a = { f with stack := st }
    ∧ ∀ n, n < 32 → sget 0 st (f.base + n) = if n = 3 then hiWord a else if n = 2 then loWord a else if n = 0 then w else 0 := by
  obtain ⟨st, he, hst, hget⟩ := foldl_setReg (fun _ => 0) hs 32
  have h0 := swf_sput (f.base + 0) w hst
  have h2 := swf_sput (f.base + 2) (loWord a) h0
  refine ⟨sput 0 (sput 0 (sput 0 st (f.base + 0) w) (f.base + 2) (loWord a)) (f.base + 3) (hiWord a), ?_, fun n hn => ?_⟩
  · rw [handlerWindow, he]
    rfl
  · rw [sget_sput _ _ _ h2, sget_sput _ _ _ h0, sget_sput _ _ _ hst, hget, if_pos hn]
    simp only [Nat.add_left_cancel_iff]

theorem foldl_setReg_idx (v : Nat → Word) (l : List Nat) : ∀ f : Fibre, (l.foldl (fun f i => f.setReg i (v i)) f).idx = f.idx := by
  induction l with
  | nil => exact fun _ => rfl
  | cons i r ih => exact fun f => ih (f.setReg i (v i))

theorem handlerWindow_idx (f : Fibre) (w : Word) (a : DWord) : (handlerWindow f w a).idx = f.idx := by
  unfold handlerWindow
  generalize List.range 32 = l
  exact foldl_setReg_idx (fun _ => 0) l f

theorem pair_loWord_hiWord (a : DWord) : pair (loWord a) (hiWord a) = a := by
  unfold pair loWord hiWord
  ext i hi
  by_cases h : i < 32
  · simp [h, hi]
  · simp [h, hi, show 32 + (i - 32) = i by omega, show i - 32 < 32 by omega]

/-! ### The entry of a handler -/

theorem invalRecord_keeps {β : Type} {p : State → β}
    (hp : ∀ s m l q n, p { s with mem := m, lines := l, invals := q, next := n } = p s) (s : State) (a : Nat) :
    p (invalRecord s a) = p s := by
  unfold invalRecord
  simp only [invalidate_keeps hp]

@[simp] theorem dropBlocks_mem (s : State) (cluster : Nat) (tag : Option Nat) (a n : Nat) : (dropBlocks s cluster tag a n).mem = s.mem := rfl

/-- The record of a trap written at device scope, its copies in L1 gone (step 4 of R260). -/
def recordWritten (s : State) (c : Cell) (f : Fibre) (t : Trap) (a : Nat) : State :=
  invalRecord (dropBlocks { s with mem := putBytes s.mem a (recordBytes s ⟨c.id, f.idx⟩ f t) } c.cluster none a 256) a

theorem recordWritten_keeps {β : Type} {p : State → β}
    (hp : ∀ s m l q n b, p { s with mem := m, lines := l, invals := q, next := n, blocks := b } = p s)
    (s : State) (c : Cell) (f : Fibre) (t : Trap) (a : Nat) : p (recordWritten s c f t a) = p s :=
  (invalRecord_keeps (fun s m l q n => hp s m l q n s.blocks) _ a).trans (hp s _ s.lines s.invals s.next _)

theorem recordWritten_mem (s : State) (c : Cell) (f : Fibre) (t : Trap) (a : Nat) :
    (recordWritten s c f t a).mem = putBytes s.mem a (recordBytes s ⟨c.id, f.idx⟩ f t) := by
  simp only [recordWritten, invalRecord, invalidate_mem, dropBlocks_mem]

/-- A fibre at the start of its handler (step 5 of R260). -/
def Fibre.entered (p : Partition) (locked : Bool) (t : Trap) (a : Nat) (owed : List Nat) (f : Fibre) : Fibre :=
  { handlerWindow f (BitVec.ofNat 32 (t.cause.code + 256 * t.detail)) (BitVec.ofNat 64 a) with
    pc := p.trapVec, sup := true, flags := [], place := {}, status := .ready, deferred := locked
    handler := some { record := a, trapBase := f.base, place := f.place, mode := f.sup, flags := f.flags, owed := owed } }

theorem enterOne_eq {s : State} {c : Cell} {p : Partition} (hp : s.part? c.part = some p) (f : Fibre) (t : Trap) :
    enterOne s c f t = (recordWritten s c f t (recordAddr p c.cluster f.slot)).setFibre ⟨c.id, f.idx⟩
      (Fibre.entered p c.locked t (recordAddr p c.cluster f.slot) (s.own ⟨c.id, f.idx⟩)) := by
  have hown := recordWritten_keeps (p := fun s => s.own ⟨c.id, f.idx⟩) (fun _ _ _ _ _ _ => rfl) s c f t
    (recordAddr p c.cluster f.slot)
  unfold enterOne
  rw [hp]
  dsimp only
  rw [← hown]
  rfl

theorem fibre?_setFibre_other (s : State) (c i j : Nat) (F : Fibre → Fibre) (hF : ∀ x, (F x).idx = x.idx) (h : j ≠ i) :
    (s.setFibre ⟨c, i⟩ F).fibre? ⟨c, j⟩ = s.fibre? ⟨c, j⟩ := by
  have hfind (d : Cell) : (d.setFibre i F).fibre? j = d.fibre? j := by
    simp only [Cell.fibre?, Cell.setFibre]
    induction d.fibres with
    | nil => rfl
    | cons x r ih =>
      rw [List.map_cons, List.find?_cons, List.find?_cons, ih]
      by_cases hx : x.idx = i
      · simp [hx, hF, beq_false_of_ne h.symm]
      · simp [hx]
  rw [State.fibre?, State.fibre?, State.setFibre, cell?_setCell s c c (·.setFibre i F) fun _ => rfl]
  cases s.cell? c with
  | none => rfl
  | some d =>
    rw [Option.map_some, Option.bind_some, Option.bind_some]
    split
    · exact hfind d
    · rfl

/-- What the handler of a fibre starts with (R260). -/
theorem entered_spec {f : Fibre} (p : Partition) (locked : Bool) (t : Trap) (a : Nat) (owed : List Nat) (hs : swf (0 : Word) f.stack = true) :
    let h := f.entered p locked t a owed
    h.pc = p.trapVec ∧ h.sup = true ∧ h.status = .ready ∧ h.flags = [] ∧ h.base = f.base ∧ h.preds = f.preds ∧ h.disp = f.disp
      ∧ h.reg 0 = BitVec.ofNat 32 (t.cause.code + 256 * t.detail) ∧ h.reg64 2 = BitVec.ofNat 64 a
      ∧ (∀ n, n < 32 → n ≠ 0 → n ≠ 2 → n ≠ 3 → h.reg n = 0)
      ∧ h.handler = some { record := a, trapBase := f.base, place := f.place, mode := f.sup, flags := f.flags, owed := owed } := by
  obtain ⟨st, hst, hget⟩ := handlerWindow_eq f (BitVec.ofNat 32 (t.cause.code + 256 * t.detail)) (BitVec.ofNat 64 a) hs
  simp only [Fibre.entered, hst, Fibre.reg, Fibre.reg64, hget 0 (by decide), hget 2 (by decide), hget 3 (by decide)]
  refine ⟨trivial, trivial, trivial, trivial, trivial, trivial, trivial, rfl, pair_loWord_hiWord _, fun n hn h0 h2 h3 => ?_, trivial⟩
  rw [hget n hn, if_neg h3, if_neg h2, if_neg h0]

theorem handlerEntry : Rules.HandlerEntry := by
  intro s c f t p hp hc hf hs
  dsimp only
  rw [enterOne_eq hp f t]
  generalize recordAddr p c.cluster f.slot = a
  have keeps {β : Type} (q : State → β) (hq : ∀ s m l i n b, q { s with mem := m, lines := l, invals := i, next := n, blocks := b } = q s) :
      q (recordWritten s c f t a) = q s := recordWritten_keeps hq s c f t a
  have hmem := recordWritten_mem s c f t a
  have hspec := entered_spec p c.locked t a (s.own ⟨c.id, f.idx⟩) hs
  have hidx (x : Fibre) : (x.entered p c.locked t a (s.own ⟨c.id, f.idx⟩)).idx = x.idx := by
    simp only [Fibre.entered, handlerWindow_idx]
  have haccs := keeps State.accs fun _ _ _ _ _ _ => rfl
  have hops := keeps State.ops fun _ _ _ _ _ _ => rfl
  have hfib (i : Nat) : (recordWritten s c f t a).fibre? ⟨c.id, i⟩ = s.fibre? ⟨c.id, i⟩ :=
    keeps (·.fibre? ⟨c.id, i⟩) fun _ _ _ _ _ _ => rfl
  -- Nothing below looks into the window, the record or the state with the record written.
  generalize recordBytes s ⟨c.id, f.idx⟩ f t = bytes at hmem ⊢
  generalize recordWritten s c f t a = w at hmem haccs hops hfib ⊢
  generalize Fibre.entered p c.locked t a (s.own ⟨c.id, f.idx⟩) = enter at hspec hidx ⊢
  refine ⟨hmem, fun i hi => ?_, haccs, hops, enter f, ?_, hspec⟩
  · rw [fibre?_setFibre_other _ _ _ _ _ hidx hi, hfib]
  · exact fibre?_setFibre ((hfib _).trans (fibre?_of_cell hc hf)) hidx

/-! ### The trap record -/

/-- Numbers one after another, each in its number of little-endian bytes. -/
def fieldBytes (fs : List (Nat × Nat)) : List Byte := fs.flatMap fun x => bytesOfNat x.1 x.2
/-- The number of bytes that fields take. -/
def fieldSize (fs : List (Nat × Nat)) : Nat := (fs.map (·.1)).sum

theorem fieldBytes_length (fs : List (Nat × Nat)) : (fieldBytes fs).length = fieldSize fs := by
  induction fs with
  | nil => rfl
  | cons x r ih =>
    rw [fieldBytes, List.flatMap_cons, List.length_append, bytesOfNat_length, ← fieldBytes, ih]
    rfl

theorem drop_bytesOfNat : ∀ (n k v : Nat), (bytesOfNat n v).drop k = bytesOfNat (n - k) (v / 256 ^ k)
  | n, 0, v => by simp
  | 0, k + 1, v => by simp [bytesOfNat]
  | n + 1, k + 1, v => by
    rw [bytesOfNat, List.drop_succ_cons, drop_bytesOfNat n k, Nat.div_div_eq_div_mul, Nat.add_sub_add_right, Nat.pow_succ, Nat.mul_comm 256]
theorem take_bytesOfNat : ∀ (n m v : Nat), m ≤ n → (bytesOfNat n v).take m = bytesOfNat m v
  | n, 0, v, _ => rfl
  | n + 1, m + 1, v, h => by
    rw [bytesOfNat, List.take_succ_cons, take_bytesOfNat n m _ (Nat.le_of_succ_le_succ h), bytesOfNat]

/-- Bytes within one field are those of its number. -/
theorem natOfBytes_fieldBytes {n v k m : Nat} (hkm : k + m ≤ n) : ∀ {fs : List (Nat × Nat)} {i : Nat}, fs[i]? = some (n, v) →
    natOfBytes (((fieldBytes fs).drop (fieldSize (fs.take i) + k)).take m) = v / 256 ^ k % 256 ^ m
  | x :: r, 0, h => by
    obtain rfl : x = (n, v) := by simpa using h
    rw [fieldBytes, List.flatMap_cons, List.take_zero, fieldSize, List.map_nil, List.sum_nil, Nat.zero_add,
      List.drop_append_of_le_length (by rw [bytesOfNat_length]; omega), drop_bytesOfNat,
      List.take_append_of_le_length (by rw [bytesOfNat_length]; omega), take_bytesOfNat _ _ _ (by omega), natOfBytes_bytesOfNat]
  | x :: r, i + 1, h => by
    have ih := natOfBytes_fieldBytes hkm (fs := r) (i := i) (by simpa using h)
    have hsize : fieldSize ((x :: r).take (i + 1)) + k = (bytesOfNat x.1 x.2).length + (fieldSize (r.take i) + k) := by
      simp [fieldSize, bytesOfNat_length, Nat.add_assoc]
    rw [hsize, fieldBytes, List.flatMap_cons, List.drop_length_add_append]
    exact ih

/-- The fields of a trap record (R258). -/
def recordFields (s : State) (r : FRef) (f : Fibre) (t : Trap) : List (Nat × Nat) :=
  (List.range 32).map (fun i => (4, (f.reg i).toNat))
    ++ [(4, (loWord f.pc).toNat), (1, f.preds.toNat ||| 1), (1, if f.sup then 1 else 0), (1, t.cause.code), (1, t.detail),
        (4, t.code + 256 * f.lane), (4, min 16 (s.refusedStores r).length),
        (8, (List.range 12).foldl (fun n i => n + sget 0 f.flags i % 16 * 16 ^ i) 0), (8, t.faddr), (4, t.mxrow), (4, f.spilled),
        (4, (hiWord f.pc).toNat)]
    ++ List.replicate 84 (1, 0)

/-- The sizes of the fields of a trap record. -/
def recordSizes : List Nat := List.replicate 32 4 ++ [4, 1, 1, 1, 1, 4, 4, 8, 8, 4, 4, 4] ++ List.replicate 84 1

theorem recordFields_sizes (s : State) (r : FRef) (f : Fibre) (t : Trap) : (recordFields s r f t).map (·.1) = recordSizes := by
  simp only [recordFields, recordSizes, List.map_append, List.map_map, List.map_replicate, List.map_cons, List.map_nil]
  congr 2

theorem recordBytes_eq (s : State) (r : FRef) (f : Fibre) (t : Trap) : recordBytes s r f t = fieldBytes (recordFields s r f t) := by
  have hzero : (List.replicate 84 (1, 0)).flatMap (fun x : Nat × Nat => bytesOfNat x.1 x.2) = List.replicate 84 (0 : Byte) := by decide
  simp only [recordBytes, fieldBytes, recordFields, List.flatMap_append, List.flatMap_map, List.flatMap_cons, List.flatMap_nil,
    List.append_nil, List.append_assoc, hzero]

/-- Digits in base 16, the first k of a number. -/
theorem sum_nibbles (g : Nat → Nat) : ∀ k : Nat,
    let v := (List.range k).foldl (fun n i => n + g i % 16 * 16 ^ i) 0
    v < 16 ^ k ∧ ∀ n, n < k → v / 16 ^ n % 16 = g n % 16
  | 0 => ⟨Nat.one_pos, fun n hn => absurd hn n.not_lt_zero⟩
  | k + 1 => by
    obtain ⟨hlt, hdig⟩ := sum_nibbles g k
    simp only [List.range_succ, List.foldl_append, List.foldl_cons, List.foldl_nil]
    generalize (List.range k).foldl (fun n i => n + g i % 16 * 16 ^ i) 0 = v at hlt hdig
    have hg : g k % 16 < 16 := Nat.mod_lt _ (by decide)
    refine ⟨?_, fun n hn => ?_⟩
    · calc v + g k % 16 * 16 ^ k < 16 ^ k + g k % 16 * 16 ^ k := Nat.add_lt_add_right hlt _
        _ = (1 + g k % 16) * 16 ^ k := by ring
        _ ≤ 16 * 16 ^ k := Nat.mul_le_mul_right _ (by omega)
        _ = 16 ^ (k + 1) := by ring
    · rcases Nat.lt_succ_iff_lt_or_eq.1 hn with h | rfl
      · obtain ⟨d, rfl⟩ := Nat.exists_eq_add_of_lt h
        have hsplit : g (n + d + 1) % 16 * 16 ^ (n + d + 1) = 16 ^ n * (16 * (g (n + d + 1) % 16 * 16 ^ d)) := by ring
        rw [hsplit, Nat.add_mul_div_left _ _ (Nat.two_pow_pos 4 |> fun _ => Nat.pow_pos (by decide)), Nat.add_mul_mod_self_left, hdig n h]
      · rw [Nat.add_mul_div_right _ _ (Nat.pow_pos (by decide)), Nat.div_eq_of_lt hlt, Nat.zero_add, Nat.mod_eq_of_lt hg]

theorem cause_code_lt (c : Cause) : c.code < 256 := by cases c <;> decide

/-- The bytes k to k + m of a field whose place and offset are known. -/
theorem recordBytes_field (s : State) (r : FRef) (f : Fibre) (t : Trap) {i n v off k m : Nat}
    (hi : (recordFields s r f t)[i]? = some (n, v)) (hoff : (recordSizes.take i).sum + k = off) (hkm : k + m ≤ n) :
    natOfBytes (((recordBytes s r f t).drop off).take m) = v / 256 ^ k % 256 ^ m := by
  rw [← hoff, ← recordFields_sizes s r f t, ← List.map_take, recordBytes_eq]
  exact natOfBytes_fieldBytes hkm hi

/-- A whole field. -/
theorem recordBytes_whole (s : State) (r : FRef) (f : Fibre) (t : Trap) {i n v off : Nat}
    (hi : (recordFields s r f t)[i]? = some (n, v)) (hoff : (recordSizes.take i).sum = off) (hv : v < 256 ^ n) :
    natOfBytes (((recordBytes s r f t).drop off).take n) = v := by
  rw [recordBytes_field s r f t (k := 0) hi hoff (Nat.zero_add n).le, Nat.pow_zero, Nat.div_one, Nat.mod_eq_of_lt hv]

/-- The fields after the window. -/
theorem recordFields_after (s : State) (r : FRef) (f : Fibre) (t : Trap) (i : Nat) : (recordFields s r f t)[32 + i]? =
    ([(4, (loWord f.pc).toNat), (1, f.preds.toNat ||| 1), (1, if f.sup then 1 else 0), (1, t.cause.code), (1, t.detail),
        (4, t.code + 256 * f.lane), (4, min 16 (s.refusedStores r).length),
        (8, (List.range 12).foldl (fun n i => n + sget 0 f.flags i % 16 * 16 ^ i) 0), (8, t.faddr), (4, t.mxrow), (4, f.spilled),
        (4, (hiWord f.pc).toNat)] ++ List.replicate 84 (1, 0))[i]? := by
  rw [recordFields, List.append_assoc, List.getElem?_append_right (by simp)]
  simp

theorem recordBytes_length (s : State) (r : FRef) (f : Fibre) (t : Trap) : (recordBytes s r f t).length = 256 := by
  rw [recordBytes_eq, fieldBytes_length, fieldSize, recordFields_sizes]
  simp [recordSizes]

/-- Above its last field a record is zero. -/
theorem recordBytes_above (s : State) (r : FRef) (f : Fibre) (t : Trap) (i : Nat) (hi : 0xAC ≤ i) : (recordBytes s r f t).getD i 0 = 0 := by
  obtain ⟨l, hl⟩ : ∃ l, recordBytes s r f t = l ++ List.replicate 84 0 := ⟨_, rfl⟩
  have hlen : l.length = 0xAC := by
    have h := recordBytes_length s r f t
    rw [hl, List.length_append, List.length_replicate] at h
    omega
  rw [hl, List.getD_append_right _ _ _ _ (hlen ▸ hi), List.getD_eq_getElem?_getD, List.getElem?_replicate]
  split <;> rfl

theorem trapRecord : Rules.TrapRecord := by
  intro s r f t
  have after := recordFields_after s r f t
  have whole {i n v off : Nat} := @recordBytes_whole s r f t i n v off
  have field {i n v off k m : Nat} := @recordBytes_field s r f t i n v off k m
  have word32 (w : Word) : w.toNat < 256 ^ 4 := w.isLt
  obtain ⟨hflags, hdigits⟩ := sum_nibbles (fun i => sget 0 f.flags i) 12
  dsimp only
  refine ⟨recordBytes_length s r f t, fun i hi => whole (i := i) ?window (by revert i; decide) (word32 _), whole (after 0) (by decide) (word32 _),
    whole (after 11) (by decide) (word32 _), ?preds, whole (after 2) (by decide) ?mode, whole (after 3) (by decide) (cause_code_lt _),
    whole (after 4) (by decide), fun hcode hlane => ⟨?code, ?lane⟩, whole (after 6) (by decide) (by omega), ?flags, ?above,
    fun i hi _ => recordBytes_above s r f t i hi, whole (after 8) (by decide), whole (after 9) (by decide), whole (after 10) (by decide)⟩
  case window =>
    rw [recordFields, List.append_assoc, List.getElem?_append_left (by simpa using hi)]
    simp [hi]
  case preds =>
    rw [BitVec.toNat_or]
    exact whole (after 1) (by decide) (Nat.or_lt_two_pow (n := 8) f.preds.isLt (by decide))
  case mode => split <;> decide
  case code =>
    rw [field (after 5) (by decide : _ + 0 = _) (by decide)]
    omega
  case lane =>
    rw [field (after 5) (by decide : _ + 1 = _) (by decide)]
    omega
  case flags =>
    rw [whole (after 7) (by decide) (hflags.trans_le (by decide))]
    exact hdigits
  case above =>
    rw [field (after 7) (by decide : _ + 6 = _) (by decide), Nat.div_eq_of_lt (hflags.trans_le (by decide)), Nat.zero_mod]

/-! ### The return from a handler -/

/-- A window filled from the words of a record. -/
def Fibre.refilled (base : Nat) (word : Nat → Nat → Nat) (f : Fibre) : Fibre :=
  (List.range 32).foldl (fun f i => f.setReg i (BitVec.ofNat 32 (word (4 * i) 4))) { f with base := base }
/-- A fibre back where its handler began, by the words of its record (R262). -/
def Fibre.returned (now : Nat) (word : Nat → Nat → Nat) (h : Handler) (stores : List Nat) (f : Fibre) : Fibre :=
  let f := f.refilled h.trapBase word
  let pc : DWord := pair (BitVec.ofNat 32 (word 0x80 4)) (BitVec.ofNat 32 (word 0xA8 4)) &&& ~~~3#64
  { f with recs := f.recs.map fun x => (x.1, { x.2.retry with late := false }), pc := pc, preds := BitVec.ofNat 8 (word 0x84 1) ||| 1
           sup := h.mode, flags := h.flags, place := h.place, handler := none, since := now, waitAt := pc
           status := if stores.isEmpty then .ready else .fence false false .plain stores }

theorem eretOne_eq (s : State) (r : FRef) (h : Handler) : eretOne s r h =
    (reissue s r h.owed).setFibre r (Fibre.returned s.now
      (fun off n => natOfBytes (((bytesAt s.mem h.record 256).drop off).take n)) h ((s.refusedStores r).map (·.id))) := rfl

theorem refilled_idx (base : Nat) (word : Nat → Nat → Nat) (f : Fibre) : (f.refilled base word).idx = f.idx :=
  foldl_setReg_idx _ _ _

theorem natOfBytes_lt : ∀ b : List Byte, natOfBytes b < 256 ^ b.length
  | [] => Nat.one_pos
  | x :: r => by
    have h := natOfBytes_lt r
    have hx := x.isLt
    rw [natOfBytes, List.length_cons, Nat.pow_succ]
    omega

theorem natOfBytes_take_lt (b : List Byte) (off n : Nat) : natOfBytes ((b.drop off).take n) < 256 ^ n :=
  (natOfBytes_lt _).trans_le (Nat.pow_le_pow_right (by decide) (List.length_take_le n _))

/-- An address from its two words, its low two bits clear. -/
theorem toNat_pair_aligned {lo hi : Nat} (hlo : lo < 2 ^ 32) (hhi : hi < 2 ^ 32) :
    (pair (BitVec.ofNat 32 lo) (BitVec.ofNat 32 hi) &&& ~~~3#64).toNat = (lo + 2 ^ 32 * hi) / 4 * 4 := by
  have hshift : hi <<< 32 % 2 ^ 64 = hi <<< 32 := Nat.mod_eq_of_lt (by rw [Nat.shiftLeft_eq]; omega)
  have hpair : (pair (BitVec.ofNat 32 lo) (BitVec.ofNat 32 hi)).toNat = lo + 2 ^ 32 * hi := by
    rw [pair, BitVec.toNat_or, BitVec.toNat_shiftLeft, BitVec.toNat_setWidth_of_le (by decide), BitVec.toNat_setWidth_of_le (by decide),
      BitVec.toNat_ofNat, BitVec.toNat_ofNat, Nat.mod_eq_of_lt hlo, Nat.mod_eq_of_lt hhi, hshift, ← Nat.shiftLeft_add_eq_or_of_lt hlo,
      Nat.shiftLeft_eq]
    omega
  have hmask (x : DWord) : x &&& ~~~3#64 = (x >>> 2) <<< 2 := by
    have hclear : ∀ i, i < 64 → (~~~3#64).getLsbD i = decide (2 ≤ i) := by decide
    apply BitVec.eq_of_getLsbD_eq
    intro i hi
    rw [BitVec.getLsbD_and, hclear i hi, BitVec.getLsbD_shiftLeft, BitVec.getLsbD_ushiftRight]
    rcases Nat.lt_or_ge i 2 with h | h
    · simp [h]
    · simp [hi, h, Nat.not_lt.2 h]
  have hlt : (lo + 2 ^ 32 * hi) / 4 * 4 < 2 ^ 64 := by omega
  rw [hmask, BitVec.toNat_shiftLeft, BitVec.toNat_ushiftRight, hpair, Nat.shiftLeft_eq, Nat.shiftRight_eq_div_pow]
  exact Nat.mod_eq_of_lt hlt

theorem returned_idx (now : Nat) (word : Nat → Nat → Nat) (h : Handler) (stores : List Nat) (f : Fibre) :
    (f.returned now word h stores).idx = f.idx := by
  simp only [Fibre.returned, refilled_idx]

theorem refilled_eq (base : Nat) (word : Nat → Nat → Nat) {f : Fibre} (hs : swf (0 : Word) f.stack = true) : ∃ st,
    f.refilled base word = { f with base := base, stack := st }
    ∧ ∀ i, i < 32 → sget 0 st (base + i) = BitVec.ofNat 32 (word (4 * i) 4) := by
  obtain ⟨st, he, -, hget⟩ := foldl_setReg (fun i => BitVec.ofNat 32 (word (4 * i) 4)) (f := { f with base := base }) hs 32
  exact ⟨st, he, fun i hi => (hget i).trans (if_pos hi)⟩

/-- What a fibre returns to (R262). -/
theorem returned_spec (now : Nat) {word : Nat → Nat → Nat} (h : Handler) (stores : List Nat) {f : Fibre} (hs : swf (0 : Word) f.stack = true)
    (hlt : ∀ off, word off 4 < 2 ^ 32) :
    let x := f.returned now word h stores
    (∀ i, i < 32 → x.reg i = BitVec.ofNat 32 (word (4 * i) 4)) ∧ x.base = h.trapBase
      ∧ x.preds = BitVec.ofNat 8 (word 0x84 1) ||| 1 ∧ x.sup = h.mode ∧ x.flags = h.flags ∧ x.place = h.place ∧ x.handler = none
      ∧ x.pc.toNat = (word 0x80 4 + 2 ^ 32 * word 0xA8 4) / 4 * 4 ∧ (stores = [] → x.status = .ready) := by
  obtain ⟨st, he, hget⟩ := refilled_eq h.trapBase word hs
  simp only [Fibre.returned, he, Fibre.reg]
  exact ⟨hget, trivial, trivial, trivial, trivial, trivial, trivial, toNat_pair_aligned (hlt _) (hlt _), fun h => by rw [h]; rfl⟩

theorem handlerReturn : Rules.HandlerReturn := by
  intro s r f h hf hh hs
  dsimp only
  rw [eretOne_eq]
  generalize hword : (fun off n => natOfBytes (((bytesAt s.mem h.record 256).drop off).take n)) = word
  have hlt (off : Nat) : word off 4 < 2 ^ 32 := hword ▸ natOfBytes_take_lt _ off 4
  have happ (off n : Nat) : natOfBytes (((bytesAt s.mem h.record 256).drop off).take n) = word off n := congrFun (congrFun hword off) n
  simp only [happ]
  have hfr : (reissue s r h.owed).fibre? r = some f := hf
  have hidx := returned_idx s.now word h ((s.refusedStores r).map (·.id))
  obtain ⟨hreg, hbase, hpreds, hsup, hflags, hplace, hhandler, hpc, hready⟩ :=
    returned_spec s.now h ((s.refusedStores r).map (·.id)) hs hlt
  generalize Fibre.returned s.now word h ((s.refusedStores r).map (·.id)) = back at *
  refine ⟨rfl, rfl, back f, fibre?_setFibre hfr hidx, hreg, hbase, hpreds, hsup, hflags, hplace, hhandler, hpc, fun hno => hready ?_⟩
  rw [hno, List.map_nil]

/-! ### What may hold ERET up does not depend on where its fibres stand -/

section
variable (s : State) (n : Nat) {F : Fibre → Fibre} (hidx : ∀ x, (F x).idx = x.idx)
include hidx

theorem fibre?_mapFibres_map {β : Type} {p : Fibre → β} (hp : ∀ x, p (F x) = p x) (r : FRef) :
    ((s.mapFibres n F).fibre? r).map p = (s.fibre? r).map p := by
  have hfind (c : Cell) : (Cell.fibre? { c with fibres := c.fibres.map F } r.idx).map p = (c.fibre? r.idx).map p := by
    simp only [Cell.fibre?, find?_map_key, hidx, Option.map_map]
    exact congrArg (fun q => (c.fibres.find? (·.idx == r.idx)).map q) (funext hp)
  rw [State.fibre?, State.fibre?, State.mapFibres, cell?_setCell s n r.cell (fun c => { c with fibres := c.fibres.map F }) fun _ => rfl]
  cases s.cell? r.cell with
  | none => rfl
  | some c =>
    rw [Option.map_some, Option.bind_some, Option.bind_some]
    split
    · exact hfind c
    · rfl

variable (hhandler : ∀ x, (F x).handler = x.handler)
include hhandler

theorem handler_mapFibres (r : FRef) : ((s.mapFibres n F).fibre? r).bind (·.handler) = (s.fibre? r).bind (·.handler) := by
  have hbind (o : Option Fibre) : o.bind (·.handler) = (o.map (·.handler)).getD none := by cases o <;> rfl
  rw [hbind, hbind, fibre?_mapFibres_map s n hidx hhandler]

omit hidx hhandler in
theorem away_mapFibres (o : Op) : (s.mapFibres n F).away o = s.away o := by
  have h := cell?_mapFibres_map (q := (·.resident)) (fun _ _ => rfl) s n o.owner.cell F
  unfold State.away
  cases hc : (s.mapFibres n F).cell? o.owner.cell <;> cases hd : s.cell? o.owner.cell <;> rw [hc, hd] at h
  · rfl
  · cases h
  · cases h
  · exact congrArg (!·) (Option.some.inj h)

theorem kept_mapFibres (r : FRef) : (s.mapFibres n F).kept r = s.kept r := by
  have howed (r : FRef) (i : Nat) : (s.mapFibres n F).owed r i = s.owed r i := by
    rw [State.owed, handler_mapFibres s n hidx hhandler, State.owed]
  have hwaits (st : List Nat) (i : Nat) : (s.mapFibres n F).waitsOn st i = s.waitsOn st i := by
    simp only [State.waitsOn, State.behindHalt, State.behindEvent, away_mapFibres, howed]
    rfl
  have hstuck : (s.mapFibres n F).stuck = s.stuck := by
    funext a
    simp only [State.stuck, State.stuckIds, hwaits]
    rfl
  simp only [State.kept, handler_mapFibres s n hidx hhandler, hstuck]

variable (hseen : ∀ x, (F x).seen = x.seen)
include hseen

theorem ownPosted_mapFibres (r : FRef) (va len : Nat) : (s.mapFibres n F).ownPosted r va len = s.ownPosted r va len := by
  have hover : (s.mapFibres n F).ownOver r s.next va len = s.ownOver r s.next va len := by
    simp only [State.ownOver, kept_mapFibres s n hidx hhandler]
    rfl
  have hblocks : (s.mapFibres n F).seenBlocks r false va len = s.seenBlocks r false va len := by
    simp only [State.seenBlocks, fibre?_mapFibres_map s n hidx hseen]
    rfl
  have hcell := cell?_mapFibres_map (q := fun c => (c.cluster, c.part, c.fn)) (fun _ _ => rfl) s n r.cell F
  unfold State.ownPosted
  rw [show (s.mapFibres n F).next = s.next from rfl, hover, hblocks]
  congr 1
  cases hc : (s.mapFibres n F).cell? r.cell <;> cases hd : s.cell? r.cell <;> rw [hc, hd] at hcell
  · cases hcell
  · cases hcell
  · obtain ⟨hcl, hpart, hfn⟩ : _ ∧ _ ∧ _ := by simpa using hcell
    dsimp only
    rw [hcl, hpart, hfn]
    rfl

theorem eretReady_mapFibres (r : FRef) (h : Handler) : eretReady (s.mapFibres n F) r h = eretReady s r h := by
  rw [eretReady, ownPosted_mapFibres s n hidx hhandler hseen]
  rfl

end

theorem eretReady_passed (s : State) (g : Grp) (ll : Bool) (r : FRef) (h : Handler) : eretReady (passed s g ll) r h = eretReady s r h := by
  refine eretReady_mapFibres s g.cell.id (fun x => ?_) (fun x => ?_) (fun x => ?_) r h <;> (split <;> rfl)

/-- The body of ERET where every active lane runs a handler and has nothing of it pending. -/
theorem eretCompletes : Rules.EretCompletes := by
  intro s g hi hsup hready hs
  have hid : (g.after s false).cell.id = g.cell.id := refresh_cell_id ..
  have hpriv : g.members.any (!·.sup) = false := by simpa using hsup
  have hgo : (((g.after s false).active.filterMap fun f => f.handler.map fun h => (f, h)).any
      fun x => !eretReady (passed s g false) ⟨g.cell.id, x.1.idx⟩ x.2) = false := by
    simp only [List.any_eq_false, List.mem_filterMap, Bool.not_eq_true']
    rintro x ⟨l, hl, hx⟩
    obtain ⟨h, hh, hr⟩ := hready l hl
    obtain rfl : (l, h) = x := by simpa [hh] using hx
    simp [eretReady_passed, hr]
  have hnone : ((g.after s false).active.filter (·.handler.isNone)) = [] := by
    rw [List.filter_eq_nil_iff]
    intro l hl
    obtain ⟨h, hh, -⟩ := hready l hl
    simp [hh]
  show execEret s = _
  refine unit_eq (ll := false) hi nofun (fun _ => hpriv) ?_
  dsimp only
  rw [hid, hgo, hnone]
  rfl

end Sys2Proof.Machine

namespace Sys2Proof.Proofs
open Sys2Proof.Machine

/-- Settles O19: the entry of a handler, the bytes of its record and the return each by what it does to one fibre, and ERET as a unit
that issues, since what it waits for does not depend on where its fibres stand. -/
theorem trapEntryAndReturn : Obligations.TrapEntryAndReturn := ⟨handlerEntry, trapRecord, handlerReturn, eretCompletes⟩

end Sys2Proof.Proofs

end

section
-- One proof after the other: the text is one process, and every proof in flight holds a thread of its own.
set_option Elab.async false

/-! SUPPORT. Proofs about functions and pages: a function-level reset, a shoot-down, a frame release. -/

namespace Sys2Proof.Machine

/-! ### Functions, and maps of which some keys go -/

/-- What a map gives once only the keys that q allows are left. -/
theorem sget_filter_key {α : Type} (d : α) (q : Nat → Bool) (k : Nat) : ∀ m : SMap α,
    sget d (m.filter fun x => q x.1) k = if q k then sget d m k else d
  | [] => by rw [List.filter_nil, sget, ite_self]
  | (j, v) :: r => by
    have ih := sget_filter_key d q k r
    by_cases hj : q j = true
    · rw [List.filter_cons_of_pos (p := fun x : Nat × α => q x.1) hj, sget, ih, sget]
      by_cases hk : k = j
      · simp [hk, hj]
      · simp [hk]
    · rw [List.filter_cons_of_neg (p := fun x : Nat × α => q x.1) hj, ih, sget]
      by_cases hk : k = j
      · simp [hk, hj]
      · simp [hk]

theorem fn?_setFn (s : State) (p n : Nat) {F : Fn → Fn} (hF : ∀ x, (F x).part = x.part ∧ (F x).num = x.num) :
    (s.setFn p n F).fn? p n = (s.fn? p n).map F := by
  have hkey (x : Fn) : (if x.part = p ∧ x.num = n then F x else x).part = x.part
      ∧ (if x.part = p ∧ x.num = n then F x else x).num = x.num := by
    split
    · exact hF x
    · exact ⟨rfl, rfl⟩
  simp only [State.fn?, State.setFn, find?_map_key, hkey]
  cases h : s.fns.find? fun f => f.part == p && f.num == n with
  | none => rfl
  | some f =>
    have hf : f.part = p ∧ f.num = n := by simpa using List.find?_some h
    rw [Option.map_some, Option.map_some, if_pos hf]

/-! ### A function-level reset -/

section
variable {β : Type} {p : State → β} (hp : ∀ s m l h q n, p { s with mem := m, lines := l, hot := h, invals := q, next := n } = p s)
include hp

theorem devPut_keeps (s : State) (q : QueueReg) (a : Nat) (bs : List Byte) : p (devPut s q a bs) = p s := by
  unfold devPut
  split
  · next t h =>
    exact (homeWrite_keeps (fun s m l i n => hp s m l s.hot i n) h).trans
      (touchHomes_keeps (fun s m l h => hp s m l h s.invals s.next) ..)
  · rfl

theorem putQueueState_keeps (s : State) (q : QueueReg) (v : Nat) : p (putQueueState s q v) = p s := by
  unfold putQueueState
  split
  · exact devPut_keeps hp ..
  · rfl

theorem scrubMem_keeps (s : State) (part fn : Nat) : p (scrubMem s part fn) = p s := by
  unfold scrubMem
  split
  · rfl
  · refine (foldl_keeps (fun s a => ?_) _ _).trans (hp s _ s.lines s.hot s.invals s.next)
    unfold invalRecord
    simp only [invalidate_keeps fun s m l q n => hp s m l s.hot q n]

end

/-- A function's cells halted and what they left scrubbed, its reset begun (steps 1 to 3 of R277). -/
def functionHalted (s : State) (part fn : Nat) : State :=
  haltCells (scrubUnits (scrubMem (s.setFn part fn fun f => { f with resetting := true }) part fn) part fn) part fn

/-- The start of a reset: the function halted, its launches gone, its packets ended, STATE 0b10 in the headers of its queues. -/
theorem startReset_eq {s : State} {part fn : Nat} {f : Fn} (hf : s.fn? part fn = some f) (hr : f.resetting = false) : ∃ draining packets queues,
    startReset s part fn = List.foldl (putQueueState · · 2) { functionHalted s part fn with
      launches := (functionHalted s part fn).launches.filter fun l =>
        !(((functionHalted s part fn).launches.filter fun l => l.part == part && l.fn == fn).map (·.id)).contains l.id
      draining := draining, packets := packets } queues := by
  unfold startReset
  rw [hf]
  dsimp only
  rw [hr, if_neg Bool.false_ne_true]
  exact ⟨_, _, _, rfl⟩

theorem startReset_again {s : State} {part fn : Nat} {f : Fn} (hf : s.fn? part fn = some f) (hr : f.resetting = true) :
    startReset s part fn = s := by
  rw [startReset, hf]
  exact if_pos hr

section
variable {β : Type} {p : State → β} (hp : ∀ s m l h q n, p { s with mem := m, lines := l, hot := h, invals := q, next := n } = p s)
include hp

theorem startReset_keeps (hq : ∀ s l d k, p { s with launches := l, draining := d, packets := k } = p s)
    {s : State} {part fn : Nat} {f : Fn} (hf : s.fn? part fn = some f) (hr : f.resetting = false) :
    p (startReset s part fn) = p (functionHalted s part fn) := by
  obtain ⟨d, k, qs, h⟩ := startReset_eq hf hr
  rw [h]
  exact (foldl_keeps (fun s q => putQueueState_keeps hp s q 2) qs _).trans (hq _ _ _ _)

end

theorem keep_leftBy (t : TileState) (part fn : Nat) (by_ elem : Nat → Bool) :
    (t.keep by_ elem (t.leftBy != some (part, fn)) false).leftBy ≠ some (part, fn) := by
  unfold TileState.keep
  by_cases h : t.leftBy = some (part, fn)
  · simp [h]
  · simp [h]

theorem outside_iff {a b part fn : Nat} : (!(a == part && b == fn)) = true ↔ ¬ (a = part ∧ b = fn) := by
  rw [Bool.not_eq_true', Bool.and_eq_false_iff, beq_eq_false_iff_ne, beq_eq_false_iff_ne, not_and_or]

/-- What stands of a function once it is halted. -/
theorem functionHalted_spec (s : State) (part fn : Nat) :
    let u := functionHalted s part fn
    u.cells = s.cells.filter (fun c => !(c.part == part && c.fn == fn)) ∧ (∀ a ∈ u.accs, ¬ (a.part = part ∧ a.fn = fn))
      ∧ (∀ x ∈ u.frames, ¬ (x.part = part ∧ x.fn = fn)) ∧ (∀ x ∈ u.mxTiles, x.2.leftBy ≠ some (part, fn))
      ∧ (∀ x ∈ u.saved, ¬ (x.part = part ∧ x.fn = fn))
      ∧ u.fns = (s.setFn part fn fun f => { f with resetting := true }).fns := by
  have scrubbed {β : Type} (p : State → β) (hp : ∀ s m l h q n, p { s with mem := m, lines := l, hot := h, invals := q, next := n } = p s) :=
    scrubMem_keeps hp (s.setFn part fn fun f => { f with resetting := true }) part fn
  refine ⟨congrArg (List.filter _) (scrubbed State.cells fun _ _ _ _ _ _ => rfl), ?_, ?_, ?_, ?_, scrubbed State.fns fun _ _ _ _ _ _ => rfl⟩
  · exact fun a ha => outside_iff.1 (List.mem_filter.1 ha).2
  · exact fun a ha => outside_iff.1 (List.mem_filter.1 ha).2
  · intro x hx
    obtain ⟨y, -, rfl⟩ := List.mem_map.1 hx
    exact keep_leftBy y.2 part fn (· != mxOwner part fn) fun _ => true
  · exact fun a ha => outside_iff.1 (List.mem_filter.1 ha).2

theorem startReset_launches {s : State} {part fn : Nat} {f : Fn} (hf : s.fn? part fn = some f) (hr : f.resetting = false) :
    ∀ l ∈ (startReset s part fn).launches, ¬ (l.part = part ∧ l.fn = fn) := by
  obtain ⟨d, k, qs, h⟩ := startReset_eq hf hr
  have hkeep (u : State) : (qs.foldl (putQueueState · · 2) u).launches = u.launches :=
    foldl_keeps (fun s q => putQueueState_keeps (fun _ _ _ _ _ _ => rfl) s q 2) qs u
  rw [h, hkeep]
  rintro l hl ⟨hpart, hfn⟩
  obtain ⟨hmem, hgone⟩ := List.mem_filter.1 hl
  have hid : l.id ∈ (((functionHalted s part fn).launches.filter fun l => l.part == part && l.fn == fn).map (·.id)) :=
    List.mem_map_of_mem (List.mem_filter.2 ⟨hmem, by simp [hpart, hfn]⟩)
  rw [List.contains_iff_mem.2 hid] at hgone
  cases hgone

theorem functionResetComplete_eq {s : State} {f : Fn} (hf : s.fn? f.part f.num = some f) (hr : f.resetting = true) :
    exec (.functionResetComplete f.part f.num) s =
      let qs := s.queues.filter fun q => q.part == f.part && q.fn == f.num && !q.chain
      if (∀ q ∈ qs, unread s q = false ∧ ∀ p ∈ s.packets, q.id ≠ p.queue) then
        .next (s.setFn f.part f.num fun f => { f with resetting := false })
      else .next s := by
  show execFunctionResetComplete f.part f.num s = _
  unfold execFunctionResetComplete
  simp only [hf, Option.map_some, Option.getD_some, hr, Bool.true_and]
  refine if_congr ?_ rfl rfl
  simp only [Bool.and_eq_true, Bool.not_eq_true', List.any_eq_false, List.any_eq_true, not_exists, not_and, beq_iff_eq, Bool.not_eq_true]
  exact ⟨fun h q hq => ⟨h.2 q hq, fun p hp => h.1 p hp q hq⟩, fun h => ⟨fun p hp q hq => (h q hq).2 p hp, fun q hq => (h q hq).1⟩⟩

theorem functionReset : Rules.FunctionReset := by
  intro s f hf
  refine ⟨rfl, rfl, startReset_again hf, fun hr => ?starts, fun hr => ⟨fun hdone => ?done, ?still⟩⟩
  case starts =>
    obtain ⟨hcells, haccs, hframes, htiles, hsaved, hfns⟩ := functionHalted_spec s f.part f.num
    have keeps {β : Type} (p : State → β) (hp : ∀ s m l h q n, p { s with mem := m, lines := l, hot := h, invals := q, next := n } = p s)
        (hq : ∀ s l d k, p { s with launches := l, draining := d, packets := k } = p s) := startReset_keeps hp hq hf hr
    have hc := (keeps State.cells (fun _ _ _ _ _ _ => rfl) fun _ _ _ _ => rfl).trans hcells
    have ha := keeps State.accs (fun _ _ _ _ _ _ => rfl) fun _ _ _ _ => rfl
    have hx := keeps State.frames (fun _ _ _ _ _ _ => rfl) fun _ _ _ _ => rfl
    have ht := keeps State.mxTiles (fun _ _ _ _ _ _ => rfl) fun _ _ _ _ => rfl
    have hs := keeps State.saved (fun _ _ _ _ _ _ => rfl) fun _ _ _ _ => rfl
    have hn := (keeps State.fns (fun _ _ _ _ _ _ => rfl) fun _ _ _ _ => rfl).trans hfns
    dsimp only
    rw [hc, ha, hx, ht, hs]
    refine ⟨fun c h => outside_iff.1 (List.mem_filter.1 h).2, startReset_launches hf hr, haccs, hframes, htiles, hsaved,
      fun c h hno => List.mem_filter.2 ⟨h, outside_iff.2 hno⟩, fun g hg => ?_⟩
    rw [State.fn?, hn] at hg
    have hset := fn?_setFn s f.part f.num (F := fun f => { f with resetting := true }) fun _ => ⟨rfl, rfl⟩
    rw [State.fn?, hf] at hset
    exact (Option.some.inj (hset.symm.trans hg)).symm
  case done =>
    rw [functionResetComplete_eq hf hr]
    exact if_pos fun q hq => hdone q (List.mem_filter.1 hq).1 (List.mem_filter.1 hq).2
  case still =>
    rintro ⟨q, hq, ho, hopen⟩
    rw [functionResetComplete_eq hf hr]
    refine if_neg fun h => ?_
    obtain ⟨hread, hnone⟩ := h q (List.mem_filter.2 ⟨hq, ho⟩)
    rcases hopen with hun | ⟨p, hp, hqp⟩
    · exact absurd (hread.symm.trans hun) Bool.false_ne_true
    · exact hnone p hp hqp

/-! ### A shoot-down -/

section
variable {s : State} {f : Fn} (hf : s.fn? f.part f.num = some f)
include hf

theorem asid_of_fn? : s.asid f.part f.num = f.asid.toNat := by
  rw [State.asid, hf]
  rfl

theorem memShoot_eq : exec (.memShoot f.part f.num) s = .next (if f.shootBusy then purge s f.part f.num f else s) := by
  show execMemShoot f.part f.num s = _
  rw [execMemShoot, hf]
  exact (apply_ite Host.Outcome.next _ _ _).symm

theorem shootComplete_eq : exec (.shootComplete f.part f.num) s = .next (if f.shootBusy then
    (purge s f.part f.num f).setFn f.part f.num fun f => { f with shootBusy := false } else s) := by
  show execShootComplete f.part f.num s = _
  rw [execShootComplete, hf]
  exact (apply_ite Host.Outcome.next _ _ _).symm

/-- A purge of a range leaves nothing of the function that overlaps it. -/
theorem purge_range {b z : Nat} (hr : shootRange f = some (b, z)) :
    let t := purge s f.part f.num f
    (∀ l ∈ t.lines, ¬ (l.asid = f.asid.toNat ∧ 64 * l.line < b + z ∧ b < 64 * l.line + 64))
      ∧ (∀ e ∈ t.tlb, e.asid = f.asid.toNat → e.big = false → ¬ (65536 * e.page < b + z ∧ b < 65536 * e.page + 65536))
      ∧ (∀ k ∈ t.blocks, k.asid = some f.asid.toNat → ¬ (k.base < b + z ∧ b < k.base + k.bytes.length)) := by
  simp only [purge, asid_of_fn? hf, hr, List.mem_filter]
  refine ⟨?_, ?_, ?_⟩
  · rintro l ⟨-, hl⟩ ⟨ha, hlo, hhi⟩
    simp [ha, hlo, hhi] at hl
  · rintro e ⟨-, he⟩ ha hbig ⟨hlo, hhi⟩
    rw [Nat.mul_comm] at hlo hhi
    simp [ha, hbig, hlo, hhi] at he
  · rintro k ⟨-, hk⟩ ha ⟨hlo, hhi⟩
    simp [ha, hlo, hhi] at hk

/-- A purge of every page leaves nothing of the function. -/
theorem purge_all (hr : shootRange f = none) :
    let t := purge s f.part f.num f
    (∀ l ∈ t.lines, l.asid ≠ f.asid.toNat) ∧ (∀ e ∈ t.tlb, e.asid ≠ f.asid.toNat) ∧ ∀ k ∈ t.blocks, k.asid ≠ some f.asid.toNat := by
  simp only [purge, asid_of_fn? hf, hr, List.mem_filter]
  refine ⟨?_, ?_, ?_⟩
  · rintro l ⟨-, hl⟩ ha
    simp [ha] at hl
  · rintro e ⟨-, he⟩ ha
    simp [ha] at he
  · rintro k ⟨-, hk⟩ ha
    simp [ha] at hk

end

theorem shootDown : Rules.ShootDown := by
  intro s f hf
  rw [memShoot_eq hf, shootComplete_eq hf]
  refine ⟨fun h => ?_, fun h => ?_, fun b z => purge_range hf, fun hall => purge_all hf ?_⟩
  · simp only [h, Bool.false_eq_true, if_false, and_self]
  · simp only [h, if_true, and_self]
  · rw [shootRange]
    exact if_pos hall

/-! ### A frame release -/

section
variable {s : State} {f : Fn} (hf : s.fn? f.part f.num = some f)
include hf

theorem frameRelease_idle (h : f.relBusy = false ∨ f.released = true) : exec (.frameRelease f.part f.num) s = .next s := by
  show execFrameRelease f.part f.num s = _
  rw [execFrameRelease, hf]
  exact if_pos (by simpa using h)

theorem frameReleaseComplete_eq : exec (.frameReleaseComplete f.part f.num) s =
    if f.relBusy && f.released then .next (s.setFn f.part f.num fun f => { f with relBusy := false }) else .next s := by
  show execFrameReleaseComplete f.part f.num s = _
  rw [execFrameReleaseComplete, hf]

/-- A frame release, once the frame's lines are written back where WB asks for it (which changes no cell and no function). -/
theorem frameRelease_eq {pa z : Nat} (hz : f.relRange = (pa, z)) (hb : f.relBusy = true) (hr : f.released = false) : ∃ (w : State) (accs : List Acc),
    w.fns = s.fns ∧ w.cells = s.cells ∧
    exec (.frameRelease f.part f.num) s = .next ({ w with
      lines := w.lines.filter fun l => !(decide (pa ≤ l.pa) && decide (l.pa < pa + z))
      tlb := w.tlb.filter fun e => !(decide (e.xlat.pa < pa + z) && decide (pa < e.xlat.pa + (if e.big then 2 ^ 21 else 2 ^ 16)))
      blocks := w.blocks.filter fun b => !(b.asid.isSome && (decide (pa ≤ b.pa) && decide (b.pa < pa + z)))
      mem := w.mem.filter fun x => !(decide (pa ≤ x.1) && decide (x.1 < pa + z))
      accs := accs }.setFn f.part f.num fun f => { f with released := true }) := by
  have hgo : (!f.relBusy || f.released) = false := by simp [hb, hr]
  have hwb {β : Type} (p : State → β) (hp : ∀ s m l h, p { s with mem := m, lines := l, hot := h } = p s) (ls : List Line) :
      p (if bits f.rel.toNat 1 1 = 1 then ls.foldl writeBack s else s) = p s := by
    split
    · exact foldl_keeps (writeBack_keeps hp) ls s
    · rfl
  rw [show exec (.frameRelease f.part f.num) s = execFrameRelease f.part f.num s from rfl, execFrameRelease, hf]
  dsimp only
  rw [hgo, if_neg Bool.false_ne_true, hz]
  refine ⟨_, _, ?_, ?_, rfl⟩
  · exact hwb State.fns (fun _ _ _ _ => rfl) _
  · exact hwb State.cells (fun _ _ _ _ => rfl) _

/-- The frame's range holds nothing once it is released. -/
theorem frameRelease_clears {pa z : Nat} (hz : f.relRange = (pa, z)) (hb : f.relBusy = true) (hr : f.released = false) :
    ∃ t, exec (.frameRelease f.part f.num) s = .next t
      ∧ (∀ a, pa ≤ a → a < pa + z → bget t.mem a = 0) ∧ (∀ l ∈ t.lines, ¬ (pa ≤ l.pa ∧ l.pa < pa + z))
      ∧ (∀ e ∈ t.tlb, ¬ (e.xlat.pa < pa + z ∧ pa < e.xlat.pa + (if e.big then 2 ^ 21 else 2 ^ 16)))
      ∧ (∀ b ∈ t.blocks, b.asid ≠ none → ¬ (pa ≤ b.pa ∧ b.pa < pa + z))
      ∧ (∀ g, t.fn? f.part f.num = some g → g = { f with released := true }) ∧ t.cells = s.cells := by
  obtain ⟨w, accs, hfns, hcells, he⟩ := frameRelease_eq hf hz hb hr
  have outside {x : Nat} (h : (!(decide (pa ≤ x) && decide (x < pa + z))) = true) : ¬ (pa ≤ x ∧ x < pa + z) := by
    simpa only [Bool.not_eq_true', Bool.and_eq_false_iff, decide_eq_false_iff_not, ← not_and_or] using h
  refine ⟨_, he, fun a hlo hhi => ?mem, fun l hl => outside (List.mem_filter.1 hl).2, fun e he => ?tlb, fun b hb hsome => ?blocks,
    fun g hg => ?fn, hcells⟩
  case mem =>
    refine (sget_filter_key 0 (fun a => !(decide (pa ≤ a) && decide (a < pa + z))) a w.mem).trans (if_neg ?_)
    simp [hlo, hhi]
  case tlb =>
    have h := (List.mem_filter.1 he).2
    simpa only [Bool.not_eq_true', Bool.and_eq_false_iff, decide_eq_false_iff_not, ← not_and_or] using h
  case blocks =>
    have h := (List.mem_filter.1 hb).2
    rw [Option.isSome_iff_ne_none.2 hsome, Bool.true_and] at h
    exact outside h
  case fn =>
    have hw : w.fn? f.part f.num = some f := by rw [State.fn?, hfns]; exact hf
    have hset := fn?_setFn w f.part f.num (F := fun f => { f with released := true }) fun _ => ⟨rfl, rfl⟩
    rw [hw] at hset
    exact (Option.some.inj (hset.symm.trans hg)).symm

end

theorem relRange_eq (f : Fn) : f.relRange =
    (f.relAt.toNat * 65536 / (if bits f.rel.toNat 0 0 = 1 then 2 ^ 21 else 2 ^ 16) * (if bits f.rel.toNat 0 0 = 1 then 2 ^ 21 else 2 ^ 16),
      if bits f.rel.toNat 0 0 = 1 then 2 ^ 21 else 2 ^ 16) := by
  rw [show bits f.rel.toNat 0 0 = f.rel.toNat % 2 from congrArg (· % 2) (Nat.div_one _)]
  rfl

theorem releasedFrame : Rules.ReleasedFrame := by
  intro s f hf
  refine ⟨fun hb hr => frameRelease_clears hf (relRange_eq f) hb hr, fun hb hr => ⟨frameRelease_idle hf (.inr hr), ?_⟩,
    fun hb => ⟨frameRelease_idle hf (.inl hb), ?_⟩, fun hmem hb => ?_⟩
  · rw [frameReleaseComplete_eq hf, hb, hr]
    rfl
  · rw [frameReleaseComplete_eq hf, hb]
    rfl
  · intro z pa a n hlo hhi
    have hrange : f.relRange = (pa, z) := relRange_eq f
    clear_value pa z
    rw [State.underRelease, List.any_eq_true]
    refine ⟨f, hmem, ?_⟩
    simp [hrange, hb, hlo, hhi]

end Sys2Proof.Machine

namespace Sys2Proof.Proofs
open Sys2Proof.Machine

/-- Settles O48: what a reset, a purge and a release filter out, and what the writes they make to queue headers, records and lines keep. -/
theorem functionResetAndPages : Obligations.FunctionResetAndPages := ⟨functionReset, shootDown, releasedFrame⟩

end Sys2Proof.Proofs

end

section
-- One proof after the other: the text is one process, and every proof in flight holds a thread of its own.
set_option Elab.async false

/-! SUPPORT. Proofs about islands, throttling, power, and the reset of a partition. -/

namespace Sys2Proof.Machine

/-! ### One island put in its place -/

/-- A state with an island in its place. -/
def State.putIsland (s : State) (i : Nat) (x : Island) : State := { s with islands := s.islands.set i x }

section
variable {s : State} {i : Nat}

theorem island_putIsland (s : State) (i : Nat) (x : Island) (j : Nat) :
    (s.putIsland i x).island j = if i = j ∧ j < s.islands.length then x else s.island j := by
  rw [State.island, State.island, State.putIsland, List.getD_eq_getElem?_getD, List.getD_eq_getElem?_getD, List.getElem?_set]
  by_cases hij : i = j
  · by_cases hj : j < s.islands.length
    · simp [hij, hj]
    · simp [hij, hj]
  · simp [hij]

theorem putIsland_self (s : State) (i : Nat) : s.putIsland i (s.island i) = s := by
  have h : s.islands.set i (s.island i) = s.islands := by
    apply List.ext_getElem?
    intro j
    rw [List.getElem?_set, State.island, List.getD_eq_getElem?_getD]
    by_cases hij : i = j
    · subst hij
      by_cases hi : i < s.islands.length
      · simp [hi]
      · simp [hi]
    · simp [hij]
  rw [State.putIsland, h]

theorem putIsland_putIsland (s : State) (i : Nat) (x y : Island) : (s.putIsland i x).putIsland i y = s.putIsland i y := by
  simp only [State.putIsland, List.set_set]

theorem setIsland_eq (s : State) (i : Nat) (F : Island → Island) : s.setIsland i F = s.putIsland i (F (s.island i)) := by
  have h : s.islands.zipIdx.map (fun (x, j) => if j = i then F x else x) = s.islands.set i (F (s.island i)) := by
    apply List.ext_getElem?
    intro j
    rw [List.getElem?_map, List.getElem?_zipIdx, List.getElem?_set, State.island, List.getD_eq_getElem?_getD, Nat.zero_add]
    by_cases hj : j < s.islands.length
    · rw [List.getElem?_eq_getElem hj]
      by_cases hij : i = j
      · subst hij
        simp [hj]
      · simp [hij, Ne.symm hij]
    · by_cases hij : i = j
      · subst hij
        simp [hj]
      · simp [hij, hj]
  rw [State.setIsland, h]
  rfl

@[simp] theorem island_putIsland_self (hi : i < s.islands.length) (x : Island) : (s.putIsland i x).island i = x := by
  rw [island_putIsland, if_pos ⟨rfl, hi⟩]

theorem island_putIsland_other {j : Nat} (h : j ≠ i) (x : Island) : (s.putIsland i x).island j = s.island j := by
  rw [island_putIsland, if_neg fun hij => h hij.1.symm]

/-- An island at a new point, the cycles counted so far kept (R3). -/
def Island.atPoint (x : Island) (grade20 : Bool) (now p : Nat) : Island :=
  { x with baseCycles := x.cycles grade20 now, baseTick := now, point := p }

theorem setPoint_eq (s : State) (i p : Nat) : s.setPoint i p = s.putIsland i ((s.island i).atPoint s.grade20 s.now p) := setIsland_eq ..

theorem cycles_atPoint (x : Island) (grade20 : Bool) (now p : Nat) : (x.atPoint grade20 now p).cycles grade20 now = x.cycles grade20 now := by
  cases hm : x.mode <;> simp [Island.cycles, Island.atPoint, hm]

end

/-! ### A fold over islands, each changed by its own state alone -/

/-- A step over each of some islands that puts in its place what becomes of it. -/
theorem foldl_putIsland {op : State → Nat → State} {F : Bool → Nat → Island → Island}
    (hop : ∀ s k, k < s.islands.length → op s k = s.putIsland k (F s.grade20 s.now (s.island k))) :
    ∀ (l : List Nat) (s : State), l.Nodup → (∀ k ∈ l, k < s.islands.length) → ∃ is, l.foldl op s = { s with islands := is }
      ∧ ∀ i, is.getD i {} = if i ∈ l then F s.grade20 s.now (s.island i) else s.island i
  | [], s, _, _ => ⟨s.islands, rfl, fun i => (if_neg List.not_mem_nil).symm⟩
  | k :: r, s, hd, hl => by
    obtain ⟨hk, hr⟩ := List.nodup_cons.1 hd
    have hklt := hl k List.mem_cons_self
    obtain ⟨is, he, hget⟩ := foldl_putIsland hop r (s.putIsland k (F s.grade20 s.now (s.island k))) hr fun j hj => by
      rw [State.putIsland, List.length_set]
      exact hl j (List.mem_cons_of_mem _ hj)
    refine ⟨is, by rw [List.foldl_cons, hop s k hklt]; exact he, fun i => ?_⟩
    rw [hget]
    by_cases hi : i = k
    · subst hi
      rw [if_neg hk, if_pos List.mem_cons_self, island_putIsland_self hklt]
    · rw [island_putIsland_other hi]
      simp only [List.mem_cons, hi, false_or]
      rfl

/-! ### Islands change their states (R273, R238) -/

theorem setIslandMode_running (s : State) (i : Nat) : setIslandMode s i .running = s.putIsland i { mode := .running, baseTick := s.now } := by
  unfold setIslandMode
  rw [if_neg (by decide)]
  exact setIsland_eq ..

section
variable {s : State} {i : Nat} {m : IslandMode}

theorem setIslandMode_island (hi : i < s.islands.length) : ((setIslandMode s i m).island i).mode = m := by
  have h : (setIslandMode s i m).island i = (s.setIsland i fun _ => { mode := m, baseTick := s.now }).island i := by
    unfold setIslandMode
    split <;> rfl
  rw [h, setIsland_eq, island_putIsland_self hi]

/-- What an island that goes Off loses. -/
theorem setIslandMode_off : (∀ a, bget (setIslandMode s i .off).mem a = if inIsland i a then 0 else bget s.mem a)
    ∧ (∀ x ∈ (setIslandMode s i .off).mxTiles, islandOf (x.1 / 32) ≠ i) ∧ ∀ b ∈ (setIslandMode s i .off).blocks, islandOf b.cluster ≠ i := by
  refine ⟨fun a => ?_, fun x hx => by simpa using (List.mem_filter.1 hx).2, fun b hb => by simpa using (List.mem_filter.1 hb).2⟩
  refine (sget_filter_key 0 (fun a => !inIsland i a) a s.mem).trans ?_
  cases inIsland i a <;> rfl

theorem islandStateChange_stays (h : (s.island i).mode = m ∨ (m = .running ∧ i / 4 ∈ s.narcy.failed)) :
    exec (.islandStateChange i m) s = .next s := by
  show execIslandStateChange i m s = _
  unfold execIslandStateChange
  exact if_pos (.inr (by simpa using h))

theorem islandStateChange_held (hr : (s.island i).mode = .running) (hp : ∃ p ∈ s.parts, i ∈ p.islands) :
    exec (.islandStateChange i m) s = .next s := by
  show execIslandStateChange i m s = _
  unfold execIslandStateChange
  split
  · rfl
  · exact if_pos ⟨hr, by simpa using hp⟩

theorem islandStateChange_changes (hi : i < 16) (hm : (s.island i).mode ≠ m) (hp : (s.island i).mode ≠ .running ∨ ∀ p ∈ s.parts, i ∉ p.islands)
    (hf : ¬ (m = .running ∧ i / 4 ∈ s.narcy.failed)) : exec (.islandStateChange i m) s = .next (setIslandMode s i m) := by
  show execIslandStateChange i m s = _
  unfold execIslandStateChange
  rw [if_neg, if_neg]
  · rintro ⟨hr, h⟩
    obtain ⟨p, hmem, h⟩ := List.any_eq_true.1 h
    exact hp.elim (· hr) fun h' => h' p hmem (by simpa using h)
  · rintro (h | h | h)
    · omega
    · exact hm h
    · exact hf (by simpa using h)

theorem dvfsSettled_idle (h : (s.island i).settling = false) : exec (.dvfsSettled i) s = .next s := by
  show execDvfsSettled i s = _
  unfold execDvfsSettled
  exact if_neg (by simp [h])

/-- The island at its hint, its change over; launches alone change besides. -/
theorem dvfsSettled_eq (h : (s.island i).settling = true) (hi : i < s.islands.length) : exec (.dvfsSettled i) s = .next (releaseDvfs (s.putIsland i
    { (s.island i).atPoint s.grade20 s.now (s.island i).hint with settling := false })) := by
  show execDvfsSettled i s = _
  unfold execDvfsSettled
  rw [if_pos h, setPoint_eq, setIsland_eq, putIsland_putIsland, island_putIsland_self hi]

end

theorem islandStates : Rules.IslandStates := by
  intro s i m hi hlen
  have hlt : i < s.islands.length := hlen ▸ hi
  refine ⟨fun h => islandStateChange_stays (.inl h), islandStateChange_held, fun hm hf => islandStateChange_stays (.inr ⟨hm, hf⟩),
    fun hm hp hf => ⟨islandStateChange_changes hi hm hp hf, setIslandMode_island hlt, fun hoff => ?mem, fun hoff => ?off⟩,
    dvfsSettled_idle, fun hset => ⟨_, dvfsSettled_eq hset hlt, ?settled⟩⟩
  case mem =>
    unfold setIslandMode
    rw [if_neg hoff]
    rfl
  case off =>
    subst hoff
    exact setIslandMode_off
  case settled =>
    have hread (x : Island) (j : Nat) : (releaseDvfs (s.putIsland i x)).island j = (s.putIsland i x).island j := rfl
    rw [hread, island_putIsland_self hlt]
    exact ⟨rfl, rfl, cycles_atPoint (s.island i) s.grade20 s.now (s.island i).hint, rfl, rfl, fun j hj => by rw [hread, island_putIsland_other hj]⟩

/-! ### Throttling (R299) -/

/-- What an island becomes that is taken down to a point. -/
def Island.lowered (heat : Bool) (p : Nat) (grade20 : Bool) (now : Nat) (x : Island) : Island :=
  if x.mode ≠ .running then x else
  let y := x.atPoint grade20 now p
  (if heat then { y with settling := false, hot := true, heatAt := now } else { y with settling := false, current := true, ampsAt := now } :
    Island).took heat (x.point - p)
/-- What an island becomes that takes one step up. -/
def Island.raised (heat : Bool) (grade20 : Bool) (now : Nat) (x : Island) : Island :=
  if x.mode ≠ .running ∨ !(if heat then x.hot else x.current) then x else
  if x.back heat then x.release heat else
  let y := x.atPoint grade20 now (x.point + 1)
  let y : Island := if heat then { y with heat := y.heat - 1, heatAt := now } else { y with amps := y.amps - 1, ampsAt := now }
  if y.back heat then y.release heat else y

section
variable {s : State} {i : Nat} (hi : i < s.islands.length)
include hi

theorem downTo_eq (heat : Bool) (p : Nat) : downTo s i heat p = s.putIsland i ((s.island i).lowered heat p s.grade20 s.now) := by
  unfold downTo Island.lowered
  dsimp only
  by_cases h : (s.island i).mode ≠ .running
  · rw [if_pos h, if_pos h]
    exact (putIsland_self s i).symm
  · rw [if_neg h, if_neg h, setPoint_eq, setIsland_eq, putIsland_putIsland, island_putIsland_self hi]

theorem stepUp_eq (heat : Bool) : stepUp s i heat = s.putIsland i ((s.island i).raised heat s.grade20 s.now) := by
  unfold stepUp Island.raised
  dsimp only
  by_cases h : (s.island i).mode ≠ .running ∨ (!(if heat = true then (s.island i).hot else (s.island i).current)) = true
  · rw [if_pos h, if_pos h]
    exact (putIsland_self s i).symm
  · rw [if_neg h, if_neg h]
    by_cases hb : (s.island i).back heat = true
    · rw [if_pos hb, if_pos hb]
      exact setIsland_eq ..
    · rw [if_neg hb, if_neg hb, setPoint_eq, setIsland_eq, putIsland_putIsland, island_putIsland_self hi]

end

theorem point_lowered {x : Island} (hx : x.mode = .running) (heat : Bool) (p : Nat) (grade20 : Bool) (now : Nat) :
    (x.lowered heat p grade20 now).point = p := by
  unfold Island.lowered
  rw [if_neg (not_not.2 hx)]
  cases heat <;> rfl

/-- A step down is counted with its own kind alone. -/
theorem counts_lowered {x : Island} (hx : x.mode = .running) (p : Nat) (grade20 : Bool) (now : Nat) :
    (x.lowered false p grade20 now).amps = x.amps + (x.point - p) ∧ (x.lowered false p grade20 now).heat = x.heat
      ∧ (x.lowered true p grade20 now).amps = x.amps := by
  unfold Island.lowered
  rw [if_neg (not_not.2 hx), if_neg (not_not.2 hx)]
  exact ⟨rfl, rfl, rfl⟩

theorem release_point (x : Island) (heat : Bool) : (x.release heat).point = x.point := by
  cases heat <;> simp only [Island.release, apply_ite Island.point, ite_self, Bool.false_eq_true, if_true, if_false]

/-- One step up raises an island that the kind holds, short of its last hint, while that kind has points to give back or it alone
holds the island. -/
theorem point_raised {x : Island} (hx : x.mode = .running) (heat : Bool) (grade20 : Bool) (now : Nat) :
    (x.raised heat grade20 now).point = if (if heat then x.hot else x.current) = true
      ∧ (0 < x.owed heat ∨ (if heat then x.current else x.hot) = false) ∧ x.point < x.hint then x.point + 1 else x.point := by
  unfold Island.raised
  by_cases hheld : (if heat = true then x.hot else x.current) = true
  · rw [if_neg (by simp [hx, hheld])]
    by_cases hback : x.back heat = true
    · have hstop : ¬ ((0 < x.owed heat ∨ (if heat then x.current else x.hot) = false) ∧ x.point < x.hint) := by
        rintro ⟨hgive, hlt⟩
        rcases hgive with h | h <;> simp [Island.back, h, Nat.not_le.2 hlt] at hback
        omega
      rw [if_pos hback, release_point, if_neg fun h => hstop h.2]
    · have hgo : (0 < x.owed heat ∨ (if heat then x.current else x.hot) = false) ∧ x.point < x.hint := by
        simp only [Island.back, Bool.or_eq_true, decide_eq_true_eq, Bool.and_eq_true, beq_iff_eq, not_or, not_and, Nat.not_le,
          Bool.not_eq_true] at hback
        exact ⟨(Nat.eq_zero_or_pos _).symm.imp id hback.2, hback.1⟩
      rw [if_neg hback]
      refine Eq.trans ?_ (if_pos ⟨hheld, hgo⟩).symm
      dsimp only
      rw [apply_ite Island.point, release_point, ite_self]
      cases heat <;> rfl
  · rw [if_pos (.inr (by simpa using hheld)), if_neg fun h => hheld h.1]

/-- The die of an island is among the islands of that die. -/
theorem mem_dieIslands (i : Nat) : i ∈ dieIslands (i / 4) := by
  rw [dieIslands, List.mem_map]
  exact ⟨i % 4, List.mem_range.2 (Nat.mod_lt _ (by decide)), Nat.div_add_mod i 4⟩

theorem dieIslands_lt {d k : Nat} (hd : d < 4) (hk : k ∈ dieIslands d) : k < 16 := by
  obtain ⟨j, hj, rfl⟩ := List.mem_map.1 hk
  have := List.mem_range.1 hj
  omega

theorem dieIslands_nodup (d : Nat) : (dieIslands d).Nodup :=
  List.nodup_range.map fun _ _ h => Nat.add_left_cancel h

section
variable {s : State} {i : Nat} (hlen : s.islands.length = 16) {F : Bool → Nat → Island → Island} {op : State → Nat → State}
  (hop : ∀ s k, k < s.islands.length → op s k = s.putIsland k (F s.grade20 s.now (s.island k)))
include hlen hop

/-- A throttle's step over islands of the device: what the island i becomes, the cells and memory as they were. -/
theorem throttle_island {l : List Nat} (hd : l.Nodup) (hl : ∀ k ∈ l, k < 16) (hi : i ∈ l) :
    (l.foldl op s).island i = F s.grade20 s.now (s.island i) ∧ (l.foldl op s).cells = s.cells ∧ (l.foldl op s).mem = s.mem := by
  obtain ⟨is, he, hget⟩ := foldl_putIsland hop l s hd fun k hk => hlen ▸ hl k hk
  rw [he]
  exact ⟨(hget i).trans (if_pos hi), rfl, rfl⟩

theorem throttle_all (hi : i < 16) : ((List.range 16).foldl op s).island i = F s.grade20 s.now (s.island i)
    ∧ ((List.range 16).foldl op s).cells = s.cells ∧ ((List.range 16).foldl op s).mem = s.mem :=
  throttle_island hlen hop List.nodup_range (fun _ => List.mem_range.1) (List.mem_range.2 hi)

theorem throttle_die (hi : i < 16) : ((dieIslands (i / 4)).foldl op s).island i = F s.grade20 s.now (s.island i)
    ∧ ((dieIslands (i / 4)).foldl op s).cells = s.cells ∧ ((dieIslands (i / 4)).foldl op s).mem = s.mem :=
  throttle_island hlen hop (dieIslands_nodup _) (fun _ => dieIslands_lt (by omega)) (mem_dieIslands i)

end

/-- A step that an island takes only where it is due. -/
theorem putIsland_ite {s : State} {k : Nat} {b : Prop} [Decidable b] {t : State} {x : Island} (h : t = s.putIsland k x) :
    (if b then t else s) = s.putIsland k (if b then x else s.island k) := by
  split
  · exact h
  · exact (putIsland_self s k).symm

@[simp] theorem releaseDvfs_island (s : State) (i : Nat) : (releaseDvfs s).island i = s.island i := rfl
@[simp] theorem releaseDvfs_cells (s : State) : (releaseDvfs s).cells = s.cells := rfl
@[simp] theorem releaseDvfs_mem (s : State) : (releaseDvfs s).mem = s.mem := rfl

theorem throttleSteps : Rules.ThrottleSteps := by
  intro s i hi hlen hrun
  dsimp only
  refine ⟨⟨_, rfl, ?currentDown⟩, ⟨_, rfl, ?currentUp⟩, ?heatDown, ?heatUp, ?emergency⟩
  case currentDown =>
    obtain ⟨hisl, hcells, hmem⟩ := throttle_all (s := s) hlen (op := (stepDown · · false))
      (F := fun g n x => x.lowered false (max 5 (x.point - 1)) g n) (fun s k hk => downTo_eq hk _ _) hi
    obtain ⟨hamps, hheat, -⟩ := counts_lowered hrun (max 5 ((s.island i).point - 1)) s.grade20 s.now
    rw [releaseDvfs_island, releaseDvfs_cells, releaseDvfs_mem, hisl, hcells, hmem]
    exact ⟨point_lowered hrun .., hamps, hheat, rfl, rfl⟩
  case currentUp =>
    obtain ⟨hisl, hcells, hmem⟩ := throttle_all (s := s) hlen (op := fun s i =>
        if (s.island i).ampsAt + 1000 * ticksPerMicro ≤ s.now then stepUp s i false else s)
      (F := fun g n x => if x.ampsAt + 1000 * ticksPerMicro ≤ n then x.raised false g n else x) (fun s k hk => putIsland_ite (stepUp_eq hk _)) hi
    rw [hisl, hcells, hmem]
    refine ⟨rfl, rfl, ?_⟩
    rw [apply_ite Island.point, point_raised hrun, ← ite_and]
    rfl
  case heatDown =>
    by_cases hot : 95 * 16 < dieTemp s (i / 4)
    · obtain ⟨hisl, hcells, hmem⟩ := throttle_die (s := s) hlen (op := fun s i =>
          if (s.island i).heatAt = 0 ∨ (s.island i).heatAt + 100 * ticksPerMicro ≤ s.now then stepDown s i true else s)
        (F := fun g n x => if x.heatAt = 0 ∨ x.heatAt + 100 * ticksPerMicro ≤ n then x.lowered true (max 5 (x.point - 1)) g n else x)
        (fun s k hk => putIsland_ite (downTo_eq hk _ _)) hi
      obtain ⟨-, -, hamps⟩ := counts_lowered hrun (max 5 ((s.island i).point - 1)) s.grade20 s.now
      refine ⟨_, if_pos hot, ?_⟩
      rw [releaseDvfs_island, releaseDvfs_cells, releaseDvfs_mem, hisl, hcells, hmem]
      refine ⟨rfl, rfl, ?_, ?_⟩
      · rw [apply_ite Island.point, point_lowered hrun, ite_and, if_pos hot]
      · rw [apply_ite Island.amps, hamps, ite_self]
    · exact ⟨s, if_neg hot, rfl, rfl, (if_neg fun h => hot h.1).symm, rfl⟩
  case heatUp =>
    by_cases cool : dieTemp s (i / 4) ≤ 90 * 16
    · obtain ⟨hisl, hcells, hmem⟩ := throttle_die (s := s) hlen (op := fun s i =>
          if (s.island i).heatAt + 100 * ticksPerMicro ≤ s.now then stepUp s i true else s)
        (F := fun g n x => if x.heatAt + 100 * ticksPerMicro ≤ n then x.raised true g n else x) (fun s k hk => putIsland_ite (stepUp_eq hk _)) hi
      refine ⟨_, if_pos cool, ?_⟩
      rw [hisl, hcells, hmem]
      refine ⟨rfl, rfl, ?_⟩
      rw [apply_ite Island.point, point_raised hrun, ← ite_and]
      exact if_congr ⟨fun h => ⟨cool, h⟩, fun h => h.2⟩ rfl rfl
    · exact ⟨s, if_neg cool, rfl, rfl, (if_neg fun h => cool h.1).symm⟩
  case emergency =>
    by_cases hot : (List.range 4).any (fun d => decide (105 * 16 < dieTemp s d)) = true
    · obtain ⟨hisl, hcells, hmem⟩ := throttle_all (s := s) hlen (op := (downTo · · true 5))
        (F := fun g n x => x.lowered true 5 g n) (fun s k hk => downTo_eq hk _ _) hi
      refine ⟨_, if_pos hot, ?_⟩
      rw [releaseDvfs_island, releaseDvfs_cells, releaseDvfs_mem, hisl, hcells, hmem, if_pos hot]
      exact ⟨rfl, rfl, point_lowered hrun ..⟩
    · exact ⟨s, if_neg hot, rfl, rfl, (if_neg hot).symm⟩

/-! ### Power (R297 to R300) -/

theorem unpower_mem (s : State) (a : Nat) : bget (unpower s).mem a = if a < 2 ^ 48 then bget s.mem a else 0 := by
  refine (sget_filter_key 0 (fun a => decide (a < 2 ^ 48)) a s.mem).trans ?_
  simp only [decide_eq_true_eq]
  rfl

theorem thermtrip_hot {s : State} (h : s.powered = true) (hot : ∃ d, d < 4 ∧ 115 * 16 < dieTemp s d) :
    exec .thermtrip s = .next { unpower s with thermtrip := true } := by
  refine if_pos ?_
  simpa only [h, Bool.true_and, List.any_eq_true, List.mem_range, decide_eq_true_eq] using hot

theorem thermtrip_stays {s : State} (h : s.powered = true → ∀ d, d < 4 → dieTemp s d ≤ 115 * 16) : exec .thermtrip s = .next s := by
  refine if_neg ?_
  simp only [Bool.and_eq_true, List.any_eq_true, List.mem_range, decide_eq_true_eq]
  rintro ⟨hp, d, hd, hot⟩
  exact absurd hot (not_lt.2 (h hp d hd))

theorem powerUp_on {s : State} (h : s.powered = true) : exec .powerUp s = .next s := if_pos h

/-- Does the image of a die verify (R300)? -/
def imageOk (s : State) (d : Nat) : Bool := match s.narcy.images[d]? with | none => true | some i => Config.imageVerifies i

theorem powerUp_off {s : State} (h : s.powered = false) : ∃ t, exec .powerUp s = .next t ∧ t.powered = true ∧ t.thermtrip = false ∧ t.mem = s.mem
    ∧ t.narcy.failed = (List.range 4).filter (!imageOk s ·)
    ∧ t.islands = (List.range 16).map fun i =>
      { mode := if ((List.range 4).filter (!imageOk s ·)).contains (i / 4) then .reset else .running, baseTick := s.now } :=
  ⟨_, if_neg (by simp [h]), rfl, rfl, rfl, rfl, rfl⟩

theorem power : Rules.Power := by
  intro s
  refine ⟨fun hon => ⟨⟨unpower s, if_pos hon, rfl, rfl, rfl, rfl, rfl, rfl, unpower_mem s⟩, powerUp_on hon,
      fun hot => ⟨unpower s, if_pos hon, thermtrip_hot hon hot⟩, fun hcool => thermtrip_stays fun _ => hcool⟩,
    fun hoff => ⟨if_neg (by simp [hoff]), thermtrip_stays fun hon => absurd (hoff.symm.trans hon) Bool.false_ne_true, ?_⟩⟩
  · obtain ⟨t, he, hpow, htrip, hmem, hfailed, hislands⟩ := powerUp_off hoff
    refine ⟨t, he, hpow, htrip, hmem, fun i hi => ?_⟩
    have hd : i / 4 < 4 := by omega
    have hmode : (t.island i).mode = if imageOk s (i / 4) then .running else .reset := by
      rw [State.island, hislands, List.getD_eq_getElem?_getD, List.getElem?_map, List.getElem?_range hi]
      cases hok : imageOk s (i / 4) <;> simp [hok, hd]
    rw [hmode, hfailed, List.mem_filter, List.mem_range]
    constructor
    · unfold imageOk
      cases s.narcy.images[i / 4]? <;> rfl
    · cases imageOk s (i / 4) <;> simp [hd]

/-! ### A reset of a partition (R273, R276) -/

/-- What a reset of a partition leaves: its islands alone may have changed since. -/
theorem foldl_islands_keeps {β : Type} {p : State → β} (hp : ∀ s is, p { s with islands := is } = p s) (l : List Nat) (s : State) :
    p (l.foldl (fun s i => if (s.island i).mode = .running then setIslandMode s i .running else s) s) = p s := by
  refine foldl_keeps (fun s i => ?_) l s
  split
  · rw [setIslandMode_running]
    exact hp ..
  · rfl

/-- A partition with the registers of its reset. -/
theorem part?_setPart_reset {s : State} {p : Partition} (hp : s.part? p.id = some p) :
    (s.setPart p.id fun x => { id := p.id, islands := x.islands, share := x.share }).part? p.id
      = some { id := p.id, islands := p.islands, share := p.share } := by
  have h : (s.setPart p.id fun x => { id := p.id, islands := x.islands, share := x.share })
      = s.setPart p.id fun x => { id := x.id, islands := x.islands, share := x.share } := by
    rw [State.setPart, State.setPart]
    congr 1
    refine List.map_congr_left fun x _ => ?_
    split
    · next hx => rw [hx]
    · rfl
  rw [h]
  exact part?_setPart hp fun _ => rfl

/-- Everything of a partition gone, its registers and its functions' at their reset values, the lines it left dirty written. -/
def partitionGone (s : State) (p : Partition) : State :=
  let mine (c : Nat) : Bool := s.cells.any fun x => x.id == c && x.part == p.id
  let qs := (s.queues.filter (·.part == p.id)).map (·.id)
  let ls := (s.launches.filter (·.part == p.id)).map (·.id)
  let cs := p.clusters
  let s := (s.lines.filter (·.part == p.id)).foldl writeBack s
  let s := { s with
    cells := s.cells.filter (·.part != p.id), accs := s.accs.filter (·.part != p.id), ops := s.ops.filter (fun o => !mine o.owner.cell)
    crosshatch := s.crosshatch.filter (fun e => !mine e.cell), pins := s.pins.filter (·.part != p.id)
    launches := s.launches.filter (·.part != p.id), draining := s.draining.filter (fun x => !ls.contains x.2)
    frames := s.frames.filter (·.part != p.id), queues := s.queues.filter (·.part != p.id)
    packets := s.packets.filter (fun x => !qs.contains x.queue), engines := s.engines.filter (fun e => !qs.contains e.queue)
    lines := s.lines.filter (·.part != p.id), tlb := s.tlb.filter (·.part != p.id)
    blocks := s.blocks.filter (fun b => !cs.contains b.cluster), invals := s.invals.filter (fun x => !cs.contains x.1)
    mxTiles := s.mxTiles.filter (fun x => !cs.contains (x.1 / 32)), mxStatus := s.mxStatus.filter (fun x => !cs.contains (x.1 / 4))
    mxBy := s.mxBy.filter (fun x => !cs.contains (x.1 / 4))
    leftScratch := s.leftScratch.filter (fun x => x.1.2.1 != p.id), splits := s.splits.filter (fun x => !cs.contains x.1)
    saved := s.saved.filter (·.part != p.id)
    fns := s.fns.map fun (f : Fn) => if f.part = p.id then { part := p.id, num := f.num } else f }
  s.setPart p.id fun x => { id := p.id, islands := x.islands, share := x.share }

theorem partitionReset_eq {s : State} {p : Partition} (hp : s.part? p.id = some p) : exec (.partitionReset p.id) s =
    .next (p.islands.foldl (fun s i => if (s.island i).mode = .running then setIslandMode s i .running else s) (partitionGone s p)) := by
  show execPartitionReset p.id s = _
  rw [execPartitionReset, hp]
  rfl

/-- Lines of other partitions alone outlast the filter of a reset. -/
theorem partitionGone_spec {s : State} {p : Partition} (hp : s.part? p.id = some p) :
    let t := partitionGone s p
    t.part? p.id = some { id := p.id, islands := p.islands, share := p.share }
      ∧ t.cells = s.cells.filter (·.part != p.id) ∧ t.launches = s.launches.filter (·.part != p.id)
      ∧ t.queues = s.queues.filter (·.part != p.id) ∧ t.frames = s.frames.filter (·.part != p.id)
      ∧ t.accs = s.accs.filter (·.part != p.id) ∧ (∀ l ∈ t.lines, l.part ≠ p.id)
      ∧ t.fns = s.fns.map fun (f : Fn) => if f.part = p.id then { part := p.id, num := f.num } else f := by
  have keeps {β : Type} (q : State → β) (hq : ∀ s m l h, q { s with mem := m, lines := l, hot := h } = q s) :
      q ((s.lines.filter (·.part == p.id)).foldl writeBack s) = q s := foldl_keeps (writeBack_keeps hq) _ s
  have hpart := keeps (·.part? p.id) fun _ _ _ _ => rfl
  have hcells := keeps State.cells fun _ _ _ _ => rfl
  have hlaunches := keeps State.launches fun _ _ _ _ => rfl
  have hqueues := keeps State.queues fun _ _ _ _ => rfl
  have hframes := keeps State.frames fun _ _ _ _ => rfl
  have haccs := keeps State.accs fun _ _ _ _ => rfl
  have hfns := keeps State.fns fun _ _ _ _ => rfl
  unfold partitionGone
  generalize (s.lines.filter (·.part == p.id)).foldl writeBack s = w at *
  refine ⟨part?_setPart_reset (hpart.trans hp), congrArg (List.filter _) hcells, congrArg (List.filter _) hlaunches,
    congrArg (List.filter _) hqueues, congrArg (List.filter _) hframes, congrArg (List.filter _) haccs, fun l hl => ?_, congrArg (List.map _) hfns⟩
  simpa using (List.mem_filter.1 hl).2

theorem partitionResets : Rules.PartitionResets := by
  intro s p hp
  obtain ⟨hpart, hcells, hlaunches, hqueues, hframes, haccs, hlines, hfns⟩ := partitionGone_spec hp
  refine ⟨_, partitionReset_eq hp, ?_⟩
  have keeps {β : Type} (q : State → β) (hq : ∀ s is, q { s with islands := is } = q s) := foldl_islands_keeps hq p.islands (partitionGone s p)
  rw [keeps (·.part? p.id) fun _ _ => rfl, keeps State.cells fun _ _ => rfl, keeps State.launches fun _ _ => rfl,
    keeps State.queues fun _ _ => rfl, keeps State.frames fun _ _ => rfl, keeps State.accs fun _ _ => rfl, keeps State.lines fun _ _ => rfl,
    keeps State.fns fun _ _ => rfl, hcells, hlaunches, hqueues, hframes, haccs, hfns]
  have other {α : Type} {part : α → Nat} {l : List α} {x : α} (h : x ∈ l.filter (part · != p.id)) : part x ≠ p.id := by
    simpa using (List.mem_filter.1 h).2
  have stays {α : Type} {part : α → Nat} {l : List α} {x : α} (hx : x ∈ l) (h : part x ≠ p.id) : x ∈ l.filter (part · != p.id) :=
    List.mem_filter.2 ⟨hx, by simpa using h⟩
  refine ⟨hpart, fun _ => other, fun _ => other, fun _ => other, fun _ => other, fun _ => other, hlines, fun f hf hfp => ?_,
    fun _ => stays, fun _ => stays, fun _ => stays⟩
  obtain ⟨g, -, rfl⟩ := List.mem_map.1 hf
  split at hfp
  · next hg => rw [if_pos hg]
  · next hg => exact absurd hfp hg

end Sys2Proof.Machine

namespace Sys2Proof.Proofs
open Sys2Proof.Machine

/-- Settles O50: each step puts one island in its place by its own state alone, and a power-down or a reset of a partition keeps what
its filters name. -/
theorem islandsAndPower : Obligations.IslandsAndPower := ⟨islandStates, throttleSteps, power, partitionResets⟩

end Sys2Proof.Proofs

end

section
-- One proof after the other: the text is one process, and every proof in flight holds a thread of its own.
set_option Elab.async false

/-! SUPPORT. The loss of a cluster refuted: a request of a failed cell that goes on as that of another of its fibres. -/

namespace Sys2Proof.Machine

/-! ### What tells that no fibre has ended -/

/-- The numbers, owners and stages of accesses, the pins, and how many fibres each cell has. -/
structure Tally where
  accs : List (Nat × FRef × Stage)
  pins : List Pin
  fibres : List Nat

def Acc.tally (a : Acc) : Nat × FRef × Stage := (a.id, a.owner, a.stage)
def State.tally (s : State) : Tally := ⟨s.accs.map Acc.tally, s.pins, s.cells.map (·.fibres.length)⟩

/-- The stage of an access among those of a tally. -/
def Tally.stage? (t : Tally) (a : Nat) : Option Stage := (t.accs.find? (·.1 == a)).map (·.2.2)
def stageUnderWay : Option Stage → Bool | some x => x != .arrived | none => false
def stageRefused : Option Stage → Bool | some (.refused _) => true | _ => false
/-- Would the end of pins keep this one: its release goes on, or a line of its has yet to arrive and none is refused (R199)? -/
def Tally.keepsPin (t : Tally) (q : Pin) : Bool :=
  q.rel != 0 || (q.accs.any (fun a => stageUnderWay (t.stage? a)) && !q.accs.any fun a => stageRefused (t.stage? a))
/-- Whatever cell 1 owns is an access of no fibre, or a fibre has ended: a cell has others left, or pins have ended with its cell. -/
def Tally.Ended (t : Tally) : Prop :=
  (∀ a ∈ t.accs, a.2.1.cell = 1 → a.2.1.idx = 1024) ∨ (∃ n ∈ t.fibres, n ≠ 0) ∨ ∀ q ∈ t.pins, t.keepsPin q = true

theorem tally_of_arch {s t : State} (h : t.arch = s.arch) : t.tally = s.tally := by
  have haccs := congrArg (fun u : State => u.accs.map Acc.tally) h
  have hcells := congrArg (fun u : State => u.cells.map fun c => c.fibres.length) h
  simp only [State.arch, List.map_map] at haccs hcells
  have ha : Acc.tally ∘ Acc.arch = Acc.tally := rfl
  have hc : (fun c : Cell => c.fibres.length) ∘ Cell.arch = fun c => c.fibres.length := funext fun c => List.length_map _
  rw [ha] at haccs
  rw [hc] at hcells
  rw [State.tally, State.tally, haccs, hcells, pins_of_arch h]

theorem tally_setCell (s : State) (n : Nat) {F : Cell → Cell} (hF : ∀ c, (F c).fibres.length = c.fibres.length) :
    (s.setCell n F).tally = s.tally := by
  have h : (s.setCell n F).cells.map (fun c => c.fibres.length) = s.cells.map fun c => c.fibres.length := by
    rw [State.setCell_cells, List.map_map]
    refine List.map_congr_left fun c _ => ?_
    dsimp only [Function.comp]
    split
    · exact hF c
    · rfl
  rw [State.tally, h]
  rfl
theorem tally_mapFibres (s : State) (n : Nat) (F : Fibre → Fibre) : (s.mapFibres n F).tally = s.tally :=
  tally_setCell s n fun _ => List.length_map _
theorem tally_setFibre (s : State) (r : FRef) (F : Fibre → Fibre) : (s.setFibre r F).tally = s.tally :=
  tally_setCell s r.cell fun _ => List.length_map _

theorem settleHatch_tally (s : State) (cell hatch : Nat) : (settleHatch s cell hatch).tally = s.tally := tally_of_arch (settleHatch_arch ..)

/-! ### Steps that end no fibre -/

theorem abortTx_tally (s : State) (r : FRef) (w : Word) : (abortTx s r w).tally = s.tally := by
  unfold abortTx
  split
  · rfl
  · split
    · rfl
    · exact tally_setFibre ..

theorem enterOne_tally (s : State) (c : Cell) (f : Fibre) (t : Trap) : (enterOne s c f t).tally = s.tally := by
  cases hp : s.part? c.part with
  | none =>
    unfold enterOne
    rw [hp]
  | some p => rw [enterOne_eq hp, tally_setFibre, recordWritten_keeps (p := State.tally) fun _ _ _ _ _ _ => rfl]

theorem enterHandler_tally (s : State) (cell hatch : Nat) : (enterHandler s cell hatch).tally = s.tally := by
  unfold enterHandler
  split
  · rfl
  · dsimp only
    split
    · rfl
    · rw [settleHatch_tally]
      exact foldl_keeps (fun s (x : Fibre × Trap) => enterOne_tally s _ x.1 x.2) _ s

theorem takeTraps_tally (s : State) (cell hatch : Nat) (rs : List Raise) : (takeTraps s cell hatch rs).tally = s.tally := by
  unfold takeTraps
  split
  · rfl
  · dsimp only
    have haborts (l : List Fibre) (w : Fibre → Word) : (l.foldl (fun s f => abortTx s ⟨cell, f.idx⟩ (w f)) s).tally = s.tally :=
      foldl_keeps (fun s (f : Fibre) => abortTx_tally s _ (w f)) l s
    split
    · exact haborts ..
    · rw [enterHandler_tally, tally_mapFibres]
      exact haborts ..

theorem releaseEwaits_tally (s : State) (cell : Nat) : (releaseEwaits s cell).tally = s.tally := by
  unfold releaseEwaits
  split
  · rfl
  · refine foldl_keeps (p := State.tally) (fun s k => ?_) _ s
    dsimp only
    split
    · rfl
    · rw [takeTraps_tally, settleHatch_tally, tally_mapFibres]

theorem retire_tally (s : State) (e : Frame) : (retire s e).tally = s.tally := by
  obtain ⟨n, h⟩ := retire_cases s e
  have hn : (withoutFrame s e n).tally = s.tally := rfl
  obtain h | ⟨off, bs, h⟩ | ⟨who, va, bs, h⟩ := h
  · rw [h, hn]
  · rw [h]
    refine Eq.trans (tally_setCell _ _ ?_) hn
    exact fun _ => rfl
  · rw [homeWrite_keeps (p := State.tally) (fun _ _ _ _ _ => rfl) h, hn]

theorem retireLeft_tally (s : State) (r : FRef) : (retireLeft s r).tally = s.tally := foldl_keeps retire_tally _ s

/-! ### The end of a fibre -/

theorem stage?_tally (s : State) (a : Nat) : s.tally.stage? a = (s.acc? a).map (·.stage) := by
  rw [Tally.stage?, State.tally, find?_map_key, Option.map_map]
  rfl

/-- What the end of pins leaves it would keep (R199). -/
theorem freePins_keeps (s : State) : ∀ q ∈ (freePins s).pins, (freePins s).tally.keepsPin q = true := by
  intro q hq
  have h := (List.mem_filter.1 hq).2
  have hunder (a : Nat) : (match s.acc? a with | some x => x.stage != .arrived | none => false)
      = stageUnderWay ((freePins s).tally.stage? a) := by
    rw [show (freePins s).tally.stage? a = (s.acc? a).map (·.stage) from stage?_tally (freePins s) a]
    cases s.acc? a <;> rfl
  have hrefused (a : Nat) : (match s.acc? a with | some x => (match x.stage with | .refused _ => true | _ => false) | none => false)
      = stageRefused ((freePins s).tally.stage? a) := by
    rw [show (freePins s).tally.stage? a = (s.acc? a).map (·.stage) from stage?_tally (freePins s) a]
    cases s.acc? a with
    | none => rfl
    | some x => cases hx : x.stage <;> simp [stageRefused, hx]
  refine Eq.trans (congrArg (q.rel != 0 || ·) (congr (congrArg _ (congrArg _ (funext fun a => (hunder a).symm)))
    (congrArg (fun f => !q.accs.any f) (funext fun a => (hrefused a).symm)))) h

theorem endPins_ended (s : State) (p : Pin → Bool) : (endPins s p).tally.Ended := .inr (.inr (freePins_keeps _))

theorem leaveStep_tally (r : FRef) (f : Fibre) (all : List Nat) (x : State × List (Nat × Bool)) (d : Nat) :
    (leaveStep r f all x d).1.tally = x.1.tally := by
  unfold leaveStep
  split
  · rfl
  · extract_lets fr? u
    have hu : u.tally = x.1.tally := tally_setFibre ..
    clear_value fr? u
    split
    · exact hu
    · split <;> exact hu
theorem leaveFrames_tally (s : State) (r : FRef) : (leaveFrames s r 1).1.tally = s.tally := by
  cases h : s.fibre? r with
  | none =>
    unfold leaveFrames
    rw [h]
  | some f =>
    have hfold (l : List Nat) : ∀ x, (l.foldl (leaveStep r f (s.coverage r)) x).1.tally = x.1.tally := by
      induction l with
      | nil => exact fun _ => rfl
      | cons d l ih => exact fun x => (ih _).trans (leaveStep_tally ..)
    rw [leaveFrames_eq h, hfold]

theorem leftFrames_tally (s : State) (r : FRef) : (leftFrames s r).tally = s.tally :=
  (retireLeft_tally ..).trans (leaveFrames_tally ..)

theorem leftFrames_sameOthers (s : State) (r : FRef) : SameOthers r s (leftFrames s r) := by
  refine .trans ?_ (foldl_retire_sameOthers r _ _)
  cases h : s.fibre? r with
  | none =>
    unfold leaveFrames
    rw [h]
    exact .refl r s
  | some f => exact leaveFrames_sameOthers h

/-- A fibre of no cell that may quit has nothing pending: no handler of its keeps anything. -/
theorem own_of_quitReady {s : State} {r : FRef} (h : quitReady s r = true) (hc : s.cell? r.cell = none) : s.own r = [] := by
  have hkept : s.kept r = [] := by rw [State.kept, State.fibre?, hc]; rfl
  have hidle : s.idle r = true := (Bool.and_eq_true_iff.1 h).1
  rw [State.idle, hkept] at hidle
  cases hown : s.own r with
  | nil => rfl
  | cons a l => simp [hown] at hidle

theorem endCell_ended {s : State} {c : Cell} (hc : s.cell? c.id = some c) : (endCell s c.id).tally.Ended := by
  rw [endCell_eq hc, tally_of_arch (releaseCohort_arch ..)]
  exact .inr (.inr (freePins_keeps _))

section
variable {s : State} {r : FRef}

theorem finishQuit_last {c : Cell} (hc : (withoutFibre (leftFrames s r) r).cell? r.cell = some c) (hf : c.fibres = []) :
    finishQuit s r = endCell (withoutFibre (leftFrames s r) r) r.cell := by
  unfold finishQuit
  extract_lets t u gone v
  rw [show v.cell? r.cell = some c from hc]
  exact if_pos (by simp [hf])

theorem finishQuit_gone (hc : (withoutFibre (leftFrames s r) r).cell? r.cell = none) :
    finishQuit s r = withoutFibre (leftFrames s r) r := by
  unfold finishQuit
  extract_lets t u gone v
  rw [show v.cell? r.cell = none from hc]
  rfl

/-- A fibre of no cell with nothing pending leaves the tally as it is. -/
theorem withoutFibre_tally (hc : s.cell? r.cell = none) (ho : s.own r = []) : (withoutFibre (leftFrames s r) r).tally = s.tally := by
  have hothers := leftFrames_sameOthers s r
  have hgone : (leftFrames s r).cell? r.cell = none := by simpa [hc] using hothers.fibres
  have haccs := withoutFibre_accs hothers ho
  have hcells : (withoutFibre (leftFrames s r) r).cells = (leftFrames s r).cells := by
    refine (List.map_congr_left fun c hm => if_neg ?_).trans (List.map_id _)
    simpa using List.find?_eq_none.1 hgone c hm
  have ht := leftFrames_tally s r
  simp only [State.tally, Tally.mk.injEq] at ht ⊢
  obtain ⟨-, hpins, hlen⟩ := ht
  exact ⟨by rw [haccs], hpins, by rw [hcells]; exact hlen⟩

/-- The end of a fibre leaves its cell others, ends pins with its cell, or, where its cell is gone, changes nothing of the tally. -/
theorem finishQuit_ended (hq : quitReady s r = true) (hs : s.tally.Ended) : (finishQuit s r).tally.Ended := by
  cases hc : (withoutFibre (leftFrames s r) r).cell? r.cell with
  | some c =>
    by_cases hf : c.fibres = []
    · rw [finishQuit_last hc hf, ← cell?_id hc]
      exact endCell_ended (by rw [cell?_id hc, hc])
    · rw [finishQuit_eq hc hf]
      exact .inr (.inl ⟨c.fibres.length, List.mem_map_of_mem (List.mem_of_find?_eq_some hc), by simpa using hf⟩)
  | none =>
    have hcell : s.cell? r.cell = none := by
      have h := (leftFrames_sameOthers s r).fibres
      rw [withoutFibre_cell?, Option.map_eq_none_iff] at hc
      simpa [hc] using h.symm
    rw [finishQuit_gone hc, withoutFibre_tally hcell (own_of_quitReady hq hcell)]
    exact hs

end

theorem releaseQuits_ended {s : State} (cell : Nat) (hs : s.tally.Ended) : (releaseQuits s cell).tally.Ended := by
  unfold releaseQuits
  split
  · exact hs
  · refine List.foldlRecOn (motive := fun s : State => s.tally.Ended) _ _ hs fun s hs f _ => ?_
    split
    · extract_lets u
      have hu : u.tally.Ended := by
        unfold u
        split
        · exact endPins_ended ..
        · exact hs
      clear_value u
      split
      · next hq => exact finishQuit_ended hq hu
      · exact hu
    · split
      · rw [settleHatch_tally, tally_setFibre, retireLeft_tally]
        exact hs
      · exact hs
    · exact hs

theorem afterChange_ended {s : State} (cell : Nat) (hs : s.tally.Ended) : (afterChange s cell).tally.Ended := by
  have hfree (u : State) (hu : u.tally = (releaseQuits s cell).tally) : u.tally.Ended := hu ▸ releaseQuits_ended cell hs
  have hreleases : (releaseRegroup (releaseReconv (releaseEwaits (releaseCbar (releaseBar (releaseQuits s cell) cell) cell) cell) cell) cell).tally
      = (releaseQuits s cell).tally := by
    rw [tally_of_arch (releaseRegroup_arch ..), tally_of_arch (releaseReconv_arch ..), releaseEwaits_tally,
      tally_of_arch (releaseCbar_arch ..), tally_of_arch (releaseBar_arch ..)]
  unfold afterChange
  refine hfree _ (Eq.trans ?_ hreleases)
  dsimp only
  split
  · rfl
  · refine (foldl_keeps (fun s q => tally_of_arch (releaseYield_arch ..)) _ _).trans ?_
    split
    · exact (foldl_keeps (fun s h => tally_of_arch (schedulePaths_arch ..)) _ _).trans (tally_of_arch (freeMates_arch ..))
    · exact tally_of_arch (freeMates_arch ..)

theorem afterAll_ended {s : State} (hs : s.tally.Ended) : (afterAll s).tally.Ended :=
  List.foldlRecOn (motive := fun s : State => s.tally.Ended) _ _ hs fun _ hs c _ => afterChange_ended c hs

/-! ### A cluster with two cells -/

/-- A request that fibres 0 and 7 of cell 1 share, and that leads one of cell 3. -/
def sharedRequest : Acc := { farLoad with id := 2, owner := ⟨1, 0⟩, also := [⟨1, 7⟩], members := [(3, [])] }
/-- A pin of cell 9 at its end, whose one line a request of cell 2 has yet to reach. -/
def endedPin : Pin := { rel := 0, cell := 9, cluster := 0, part := 0, asid := none, line := 0, since := 0, accs := [5] }
/-- Cluster 0 holds cell 1 with one fibre, of index 1024, and cell 2 with none. -/
def lostCluster : State :=
  { cells := [{ id := 1, fibres := [{ twinFibre true [] with idx := 1024 }] }, { id := 2 }]
    accs := [sharedRequest, { farLoad with id := 3, owner := ⟨3, 0⟩ }, { farLoad with id := 5, owner := ⟨2, 0⟩ }], pins := [endedPin] }

/-- Fibre 1024 ends: the request that went on as that of no fibre is fibre 7's from then on. Cell 2 fails after it, and with its
request goes what the pin waits for: no fibre has ended since. -/
theorem lostCluster_fails : ∃ u : State, exec (.partFailure (.cluster 0)) lostCluster = .next u
    ∧ u.tally = ⟨[(2, ⟨1, 7⟩, .sent), (3, ⟨3, 0⟩, .sent)], [endedPin], [0]⟩ := by
  refine ⟨_, rfl, ?_⟩
  rw [State.tally, Tally.mk.injEq]
  decide

theorem not_ended_lostCluster : ¬ (⟨[(2, ⟨1, 7⟩, .sent), (3, ⟨3, 0⟩, .sent)], [endedPin], [0]⟩ : Tally).Ended := by
  unfold Tally.Ended
  decide

/-- The clause of a cluster fails: no state whose requests of cell 1 are of no fibre goes on to this one. -/
theorem not_failedParts : ¬ Rules.FailedParts := by
  intro h
  obtain ⟨-, hcluster, -⟩ := h lostCluster 0
  obtain ⟨t, ht, -, -, -, -, hcells⟩ := hcluster (by decide)
  obtain ⟨u, hu, htally⟩ := lostCluster_fails
  obtain rfl : u = afterAll t := Host.Outcome.next.inj (hu.symm.trans ht)
  obtain ⟨howners, -⟩ := hcells _ (List.mem_cons_self) rfl rfl
  have hended : t.tally.Ended := .inl fun a ha hcell => by
    obtain ⟨x, hx, rfl⟩ := List.mem_map.1 ha
    exact howners x hx hcell
  exact not_ended_lostCluster (htally ▸ afterAll_ended hended)

end Sys2Proof.Machine

namespace Sys2Proof.Proofs
open Sys2Proof.Machine

/-- Refutes O49 at the loss of a cluster: a request that fibres 0 and 7 of a cell share and that leads another cell's is made one of no
fibre, ⟨1, 1024⟩; a fibre of that index then ends, and the request goes on as fibre 7's. The clause asks for some state before the
releases in which it is not, and the outcome shows that no fibre has ended in them (`Tally.Ended`). -/
theorem not_functionsAndParts : ¬ Obligations.FunctionsAndParts := fun ⟨_, _, _, h⟩ => not_failedParts h

end Sys2Proof.Proofs

end
